-- ==== Sys2Proof/Word.lean ====
section
/-! DEFINITION. The word types of the CX-2: general registers (32 bits), pairs and uniform registers (64 bits),
memory bytes, virtual addresses (56 bits) and instruction words (80 bits) (R12, R18, R61). -/

namespace Sys2Proof

/-- A general register (R12). -/
abbrev Word := BitVec 32
/-- A register pair or a uniform register (R12, R13). -/
abbrev DWord := BitVec 64
/-- A byte of memory. -/
abbrev Byte := BitVec 8
/-- A virtual byte address; the PC holds one (R18, R129). -/
abbrev VAddr := BitVec 56
/-- An instruction word (R61). -/
abbrev IWord := BitVec 80

end Sys2Proof
end

