-- ==== Sys2Proof/Config.lean ====
section
/-! DEFINITION. What the manual leaves to the implementation, and the free values: constants without a body,
so that nothing can be proved of the value they take. Architectural figures of R2 stand here too. -/

namespace Sys2Proof.Config

/-- Logical cores of the package (R2). -/
def nCores : Nat := 224
/-- Lanes of a core (R153). -/
def nLanes : Nat := 64
/-- Thread slots of a lane (R2). -/
def nSlots : Nat := 32
/-- Tile registers of a core (R201). -/
def nTiles : Nat := 16
/-- Barrier table entries of a core (R165). -/
def nBars : Nat := 64
/-- Reconvergence barriers of a group (R125). -/
def nRcv : Nat := 16
/-- Context descriptors (R302). -/
def nCtxs : Nat := 64
/-- Launch queues of a context (R329). -/
def nQueues : Nat := 8
/-- Accepted operations an engine context holds (R187). -/
def engineQueue : Nat := 16
/-- Array granules a single-context core, and a bank of a two-context core, offer to carve-outs (R161). -/
def granules (twoCtx : Bool) : Nat := if twoCtx then 92 else 188
/-- First physical address of the package control region, and its size (R303, R325). -/
def ctlBase : Nat := 0xF0000000000
def ctlSize : Nat := 0x1000000
/-- End of HBM4, and the range of the module tier (R325). -/
def hbmEnd : Nat := 0x8000000000
def tierBase : Nat := 0x10000000000
def tierEnd : Nat := 0x30000000000

/-- The bank's stored energy in millijoules as HCHK.energy samples it (R357): it varies with charge, temperature
and age, and the manual gives no value beyond the bound of R351. FREE VALUE (log 5), applied to State.free. -/
opaque storedEnergy : Nat → DWord
/-- Whether an SLH-DSA signature (SHA2-128s) verifies, over key, message and signature (R374). The manual names the
scheme and does not give it. FREE VALUE (log 12). -/
opaque signatureVerifies : List Byte → List Byte → List Byte → Bool
/-- The signature of the module's identity key over a report (R375). FREE VALUE (log 12). -/
opaque identitySign : List Byte → List Byte
/-- The SHA-256 digest of Odzar's firmware public key held in mask ROM (R374). FREE VALUE (log 12). -/
opaque maskRomDigest : List Byte

/-- The byte that a read of the device by physical address gives where R325 says that nothing is, or in a lost granule (R321).
FREE VALUE (log 63), applied to State.free and the address. -/
opaque nothing : Nat → Nat → Byte
/-- A byte of a bank image's internal layout (R175). FREE VALUE (log 11), applied to State.free and its number. -/
opaque imageByte : Nat → Nat → Byte

end Sys2Proof.Config
end

