-- ==== Sys2Proof/Syntax.lean ====
section
/-! DEFINITION. The rows of the opcode table as ONE inductive, Instr. The first 148 constructors are the forms of the
140 opcode slots of R74, with the fields of R63 to R71 read into types. The others are the indivisible events of
the device's own agents and of the outside world; they have no encoding (log 2). -/

namespace Sys2Proof

/-- Bits [66:47] of every word (R63). -/
structure Hdr where
  la : BitVec 4
  av : Bool
  tag : BitVec 3
  wait : BitVec 8
  gn : Bool
  gp : BitVec 3
  deriving DecidableEq, Repr

/-- A source that is a g register or a k register by its class bit (R65, R66). -/
inductive Src where
  | g (r : BitVec 8)
  | k (r : BitVec 8)
  deriving DecidableEq, Repr

/-- Integer types of rows 0x00 to 0x04 and of the atomics (R73, R151). -/
inductive IntTy where
  | s32 | n32 | s64 | n64
  deriving DecidableEq, Repr

/-- Packing of sub-elements (R73). -/
inductive Pack where
  | x8 | x16
  deriving DecidableEq, Repr

/-- Rounding modes (R37). -/
inductive Rm where
  | rne | rtz | rup | rdn
  deriving DecidableEq, Repr

/-- Conditions of ICMP (R104). -/
inductive ICond where
  | eq | ne | lt | le
  deriving DecidableEq, Repr

/-- Conditions of FCMP (R112). -/
inductive FCond where
  | eq | ne | lt | le | gt | ge | un | ord
  deriving DecidableEq, Repr

/-- Type codes of CVT (R116). -/
inductive CvtTy where
  | s8 | n8 | s16 | n16 | s32 | n32 | s64 | n64 | f32 | f16 | bf16 | e4m3 | e5m2
  deriving DecidableEq, Repr

/-- Element types of LD, ST, LDB, STB and LDK (R144). -/
inductive MemTy where
  | s8 | n8 | s16 | n16 | s32 | n32 | s64 | n64
  deriving DecidableEq, Repr

/-- Element format identifiers (R23). -/
inductive ElemFmt where
  | s8 | n8 | s16 | n16 | s32 | n32 | f32 | f16 | bf16 | e4m3 | e5m2 | b4
  deriving DecidableEq, Repr

/-- Destination formats of DQNT (R118). -/
inductive DqTy where
  | f32 | f16 | bf16
  deriving DecidableEq, Repr

/-- Modes of VOTE (R122). -/
inductive VoteMode where
  | some | every | bits | live
  deriving DecidableEq, Repr

/-- Modes of XLANE (R123). -/
inductive LaneMode where
  | at | below | above | mirror
  deriving DecidableEq, Repr

/-- Operations and types of REDX (R124). -/
inductive RedOp where
  | add | min | max
  deriving DecidableEq, Repr
inductive RedTy where
  | f32 | s32 | n32
  deriving DecidableEq, Repr

/-- Sizes of LDX and STX (R146). -/
inductive TupSize where
  | w16 | w32 | w64 | w128
  deriving DecidableEq, Repr

/-- Kinds of PREF (R148). -/
inductive PrefKind where
  | l1 | l2 | i
  deriving DecidableEq, Repr

/-- Range lengths of TAGS (R149). -/
inductive TagLen where
  | g1 | g4 | g16 | g64
  deriving DecidableEq, Repr

/-- Operations of ATOM and RED (R151). -/
inductive Aop where
  | add | min | max | and | or | xor | xchg | cas
  deriving DecidableEq, Repr

/-- Index of an address form (R70): none (am = 00), scaled (am = 01) or through a buffer descriptor (am = 10). -/
inductive Index where
  | none
  | scaled (b : BitVec 8) (iw : BitVec 2) (signed : Bool) (sc : BitVec 3)
  | buffer (b : BitVec 8) (iw : BitVec 2) (signed : Bool) (sc : BitVec 3)
  deriving DecidableEq, Repr

/-- The address operand of an FM instruction (R70, R92): space, base, index and signed byte offset. -/
structure MemArg where
  scratch : Bool
  base : Src
  index : Index
  off : BitVec 13
  deriving DecidableEq, Repr

/-- The address operand of an instruction whose offset is off10 (R151, R288). -/
structure MemArg10 where
  scratch : Bool
  base : Src
  index : Index
  off : BitVec 10
  deriving DecidableEq, Repr

/-- The operands of MMT, MMT.C, TBND and LEASE (R205): scratchpad block, parameter block pointer, format word. -/
structure MatArg where
  scratch : Bool
  a : Src
  b : Src
  deriving DecidableEq, Repr

/-- Selections of HCHK (R357). -/
inductive HSel where
  | share | used | free | total | energy | state
  deriving DecidableEq, Repr

/-- A thread: logical core, team (its lowest slot number), group, lane. -/
structure ThreadRef where
  core : Nat
  team : Nat
  group : Nat
  lane : Nat
  deriving DecidableEq, Repr

/-- A registered waiter (R185): a CWAIT thread, the scheduler on a producer counter (R330) or on a wait entry of a
head block (R334), an interrupt watch (R373). -/
inductive WaiterRef where
  | thread (t : ThreadRef)
  | producer (ctx queue : Nat)
  | waitEntry (ctx queue entry : Nat)
  | watch (w : Nat)
  deriving DecidableEq, Repr

/-- A rack power token (R378). -/
structure Token where
  seq : Nat
  cap : Nat
  rsvd : Nat
  nb : Nat
  na : Nat
  deriving DecidableEq, Repr

/-- A firmware image presented for a boot stage (R374). -/
structure BootImage where
  stage : Nat
  bytes : List Byte
  key : List Byte
  sig : List Byte
  version : Nat
  deriving DecidableEq, Repr

/-- What a fabric request does (R381): read, masked write, atomic, saturating counter addition with or without a
threshold. -/
inductive FabOp where
  | read (n : Nat)
  | write (data : List Byte) (mask : List Bool)
  | atom (aop : Aop) (ty : IntTy) (v swp : DWord)
  | cadd (amount : Nat) (threshold : Option Nat)
  | other
  deriving DecidableEq, Repr

/-- A request that arrives at a station (R385). -/
structure FabIn where
  station : Nat
  ctx : Nat
  va : Nat
  tag : BitVec 4
  sup : Bool
  op : FabOp
  deriving DecidableEq, Repr

/-- A unit with spares (R324): a slice, a channel, a term column whose replay runs a row's block again, and the spare capacity of a
page of memory that is retired, which may be exhausted (R326). -/
inductive SpareUnit where
  | l2slice (die slice : Nat)
  | hbmChannel (stack channel : Nat)
  | termColumn (core row pause : Nat)
  | page (pa : Nat) (spare : Bool)
  deriving DecidableEq, Repr

/-- What an ECC error in the state of a core hits (R321 to R323): nothing that could not be corrected; state of a team that no
instruction reads; the core's shared control state; a register, a predicate, a k register, a scratchpad byte or a tile of a team. -/
inductive CoreLoss where
  | corrected
  | team (id : Nat)
  | shared
  | reg (team group lane n : Nat)
  | pred (team group lane n : Nat)
  | uniform (team group n : Nat)
  | scratch (team off : Nat)
  | tile (team n : Nat)
  deriving DecidableEq, Repr

/-- An access to a register of the control region (R303, R371, R379): the host's read or write of 8 aligned bytes through BAR0, which acts
at supervisor level, its access of another width or place, or a write of monitor firmware. -/
inductive RegAccess where
  | hostRead
  | hostWrite (v : DWord)
  | hostOther (write : Bool)
  | firmware (v : DWord)
  deriving DecidableEq, Repr

/-- The rows of spec/opcode_table.json, in its order. -/
inductive Instr where
  -- rows 0x00 to 0x04 (R101 to R108, R143)
  | nop (h : Hdr)
  | mov (h : Hdr) (kd : Bool) (ty : IntTy) (d : BitVec 8) (a : Src)
  | movi (h : Hdr) (kd : Bool) (ty : IntTy) (d : BitVec 8) (imm : BitVec 39)
  | srd (h : Hdr) (pair : Bool) (d : BitVec 8) (idx : BitVec 8)
  | swr (h : Hdr) (idx : BitVec 8) (a : Src)
  | leaF0 (h : Hdr) (d : BitVec 8) (base : Src) (b : BitVec 8) (iw : BitVec 2) (signed : Bool) (sc : BitVec 3)
      (pq : Option (BitVec 3))
  | leaF1 (h : Hdr) (d a : BitVec 8) (imm : BitVec 31)
  | isel (h : Hdr) (ty : IntTy) (d : BitVec 8) (a b : Src) (c : BitVec 3)
  | pcomb (h : Hdr) (d a b c : BitVec 3) (fn : BitVec 8)
  | yield (h : Hdr)
  | iaddF0 (h : Hdr) (ty : IntTy) (sat : Bool) (d : BitVec 8) (a b : Src) (pq : Option (BitVec 3))
  | iaddF1 (h : Hdr) (ty : IntTy) (sat : Bool) (d a : BitVec 8) (imm : BitVec 31)
  | isubF0 (h : Hdr) (ty : IntTy) (sat : Bool) (d : BitVec 8) (a b : Src) (pq : Option (BitVec 3))
  | isubF1 (h : Hdr) (ty : IntTy) (sat : Bool) (d a : BitVec 8) (imm : BitVec 31)
  | imulF0 (h : Hdr) (ty : IntTy) (sat : Bool) (d : BitVec 8) (a b : Src) (pq : Option (BitVec 3))
  | imulF1 (h : Hdr) (ty : IntTy) (sat : Bool) (d a : BitVec 8) (imm : BitVec 31)
  | imulhF0 (h : Hdr) (ty : IntTy) (d : BitVec 8) (a b : Src)
  | imulhF1 (h : Hdr) (ty : IntTy) (d a : BitVec 8) (imm : BitVec 31)
  | imad (h : Hdr) (ty : IntTy) (sat : Bool) (d : BitVec 8) (a b c : Src) (pq : Option (BitVec 3))
  | iminF0 (h : Hdr) (ty : IntTy) (d : BitVec 8) (a b : Src)
  | iminF1 (h : Hdr) (ty : IntTy) (d a : BitVec 8) (imm : BitVec 31)
  | imaxF0 (h : Hdr) (ty : IntTy) (d : BitVec 8) (a b : Src)
  | imaxF1 (h : Hdr) (ty : IntTy) (d a : BitVec 8) (imm : BitVec 31)
  | iabs (h : Hdr) (wide : Bool) (sat : Bool) (d : BitVec 8) (a : Src) (pq : Option (BitVec 3))
  | isad (h : Hdr) (ty : IntTy) (sat : Bool) (d : BitVec 8) (a b c : Src) (pq : Option (BitVec 3))
  | icmpF0 (h : Hdr) (cond : ICond) (ty : IntTy) (d : BitVec 3) (a b : Src) (pq : Option (BitVec 3))
  | icmpF1 (h : Hdr) (cond : ICond) (ty : IntTy) (d : BitVec 3) (a : BitVec 8) (imm : BitVec 31)
  | andF0 (h : Hdr) (ty : IntTy) (d : BitVec 8) (a b : Src)
  | andF1 (h : Hdr) (ty : IntTy) (d a : BitVec 8) (imm : BitVec 31)
  | orF0 (h : Hdr) (ty : IntTy) (d : BitVec 8) (a b : Src)
  | orF1 (h : Hdr) (ty : IntTy) (d a : BitVec 8) (imm : BitVec 31)
  | xorF0 (h : Hdr) (ty : IntTy) (d : BitVec 8) (a b : Src)
  | xorF1 (h : Hdr) (ty : IntTy) (d a : BitVec 8) (imm : BitVec 31)
  | andnF0 (h : Hdr) (ty : IntTy) (d : BitVec 8) (a b : Src)
  | andnF1 (h : Hdr) (ty : IntTy) (d a : BitVec 8) (imm : BitVec 31)
  | not (h : Hdr) (ty : IntTy) (d : BitVec 8) (a : Src)
  | shlF0 (h : Hdr) (ty : IntTy) (d : BitVec 8) (a b : Src)
  | shlF1 (h : Hdr) (ty : IntTy) (d a : BitVec 8) (imm : BitVec 31)
  | shrF0 (h : Hdr) (ty : IntTy) (d : BitVec 8) (a b : Src)
  | shrF1 (h : Hdr) (ty : IntTy) (d a : BitVec 8) (imm : BitVec 31)
  | sarF0 (h : Hdr) (ty : IntTy) (d : BitVec 8) (a b : Src)
  | sarF1 (h : Hdr) (ty : IntTy) (d a : BitVec 8) (imm : BitVec 31)
  | rolF0 (h : Hdr) (ty : IntTy) (d : BitVec 8) (a b : Src)
  | rolF1 (h : Hdr) (ty : IntTy) (d a : BitVec 8) (imm : BitVec 31)
  | fshlF0 (h : Hdr) (ty : IntTy) (d : BitVec 8) (a b c : Src)
  | fshlF1 (h : Hdr) (ty : IntTy) (d a : BitVec 8) (amt : BitVec 8)
  | clz (h : Hdr) (ty : IntTy) (d : BitVec 8) (a : Src)
  | popc (h : Hdr) (ty : IntTy) (d : BitVec 8) (a : Src)
  | brev (h : Hdr) (ty : IntTy) (d : BitVec 8) (a : Src)
  | bfxF0 (h : Hdr) (ty : IntTy) (d : BitVec 8) (a b : Src)
  | bfxF1 (h : Hdr) (ty : IntTy) (d a : BitVec 8) (pos len : BitVec 8)
  | bfiF0 (h : Hdr) (ty : IntTy) (d : BitVec 8) (a b c : Src)
  | bfiF1 (h : Hdr) (ty : IntTy) (d a : BitVec 8) (pos len : BitVec 8)
  | bselF0 (h : Hdr) (d : BitVec 8) (a b c : Src)
  | bselF1 (h : Hdr) (d a : BitVec 8) (sel : BitVec 31)
  -- rows 0x05 to 0x08 (R109 to R119)
  | vadd (h : Hdr) (pk : Pack) (uns sat : Bool) (d : BitVec 8) (a b : Src)
  | vsub (h : Hdr) (pk : Pack) (uns sat : Bool) (d : BitVec 8) (a b : Src)
  | vmin (h : Hdr) (pk : Pack) (uns : Bool) (d : BitVec 8) (a b : Src)
  | vmax (h : Hdr) (pk : Pack) (uns : Bool) (d : BitVec 8) (a b : Src)
  | vshl (h : Hdr) (pk : Pack) (uns sat : Bool) (d : BitVec 8) (a b : Src)
  | fadd (h : Hdr) (rm : Rm) (d : BitVec 8) (a b : Src)
  | fsub (h : Hdr) (rm : Rm) (d : BitVec 8) (a b : Src)
  | fmul (h : Hdr) (rm : Rm) (d : BitVec 8) (a b : Src)
  | fma (h : Hdr) (rm : Rm) (d : BitVec 8) (a b c : Src)
  | fmin (h : Hdr) (d : BitVec 8) (a b : Src)
  | fmax (h : Hdr) (d : BitVec 8) (a b : Src)
  | fabs (h : Hdr) (d : BitVec 8) (a : Src)
  | fneg (h : Hdr) (d : BitVec 8) (a : Src)
  | fcmp (h : Hdr) (cond : FCond) (d : BitVec 3) (a b : Src) (pq : Option (BitVec 3))
  | pkfma (h : Hdr) (rm : Rm) (d : BitVec 8) (a b c : Src)
  | pkadd (h : Hdr) (rm : Rm) (d : BitVec 8) (a b : Src)
  | frcp (h : Hdr) (rm : Rm) (d : BitVec 8) (a : Src)
  | frsq (h : Hdr) (rm : Rm) (d : BitVec 8) (a : Src)
  | fexp2 (h : Hdr) (rm : Rm) (d : BitVec 8) (a : Src)
  | flog2 (h : Hdr) (rm : Rm) (d : BitVec 8) (a : Src)
  | fsin (h : Hdr) (rm : Rm) (d : BitVec 8) (a : Src)
  | fcos (h : Hdr) (rm : Rm) (d : BitVec 8) (a : Src)
  | ftanh (h : Hdr) (rm : Rm) (d : BitVec 8) (a : Src)
  | cvt (h : Hdr) (rm : Rm) (dst src : CvtTy) (d : BitVec 8) (a : Src) (pq : Option (BitVec 3))
  | qntElement (h : Hdr) (d : BitVec 8) (a b : Src) (pq : Option (BitVec 3))
  | qntScale (h : Hdr) (d : BitVec 8) (a b : Src) (pq : Option (BitVec 3))
  | dqnt (h : Hdr) (dst : DqTy) (rm : Rm) (d : BitVec 8) (a b : Src) (i : BitVec 3)
  | trcd (h : Hdr) (fmt : ElemFmt) (nib : Bool) (d : BitVec 8) (a b c : Src)
  -- rows 0x09 and 0x0A (R120 to R127)
  | bra (h : Hdr) (off : BitVec 39)
  | brx (h : Hdr) (a : Src)
  | call (h : Hdr) (d : BitVec 8) (off : BitVec 39)
  | ret (h : Hdr) (a : Src)
  | exit (h : Hdr)
  | rcvSet (h : Hdr) (n : BitVec 8) (off : BitVec 39)
  | rcvWait (h : Hdr) (n : BitVec 8)
  | vote (h : Hdr) (mode : VoteMode) (cnt : Bool) (d : BitVec 8) (neg : Bool) (a : BitVec 3)
  | xlane (h : Hdr) (mode : LaneMode) (pair : Bool) (d a : BitVec 8) (b : Src) (pq : Option (BitVec 3))
  | redx (h : Hdr) (op : RedOp) (rm : Rm) (ty : RedTy) (d a : BitVec 8)
  -- rows 0x0C and 0x0D (R144 to R152)
  | ld (h : Hdr) (ty : MemTy) (pair : Bool) (d : BitVec 8) (m : MemArg)
  | st (h : Hdr) (ty : MemTy) (pair : Bool) (d : BitVec 8) (m : MemArg)
  | ldx (h : Hdr) (sz : TupSize) (d : BitVec 8) (m : MemArg)
  | stx (h : Hdr) (sz : TupSize) (d : BitVec 8) (m : MemArg)
  | ldb (h : Hdr) (ty : MemTy) (pair : Bool) (d : BitVec 8) (m : MemArg)
  | stb (h : Hdr) (ty : MemTy) (pair : Bool) (d : BitVec 8) (m : MemArg)
  | ldk (h : Hdr) (ty : MemTy) (d : BitVec 8) (m : MemArg)
  | pref (h : Hdr) (kind : PrefKind) (m : MemArg)
  | tags (h : Hdr) (len : TagLen) (z : Bool) (m : MemArg)
  | tagg (h : Hdr) (d : BitVec 8) (m : MemArg)
  | atom (h : Hdr) (op : Aop) (ty : IntTy) (d : BitVec 8) (m : MemArg10)
  | red (h : Hdr) (op : Aop) (ty : IntTy) (d : BitVec 8) (m : MemArg10)
  -- rows 0x0E to 0x10 (R162, R166, R181 to R184, R191, R288)
  | cadd (h : Hdr) (d : BitVec 8) (m : MemArg)
  | caddt (h : Hdr) (d : BitVec 8) (m : MemArg)
  | cwait (h : Hdr) (d : BitVec 8) (m : MemArg)
  | cpoll (h : Hdr) (p : BitVec 3) (d : BitVec 8) (m : MemArg)
  | alinit (h : Hdr) (d : BitVec 8) (m : MemArg)
  | altake (h : Hdr) (d : BitVec 8) (m : MemArg10)
  | altakeT (h : Hdr) (pq : BitVec 3) (d : BitVec 8) (m : MemArg10)
  | altakeW (h : Hdr) (d : BitVec 8) (m : MemArg10)
  | algive (h : Hdr) (d : BitVec 8) (m : MemArg)
  | alread (h : Hdr) (d : BitVec 8) (m : MemArg)
  | alpeek (h : Hdr) (d : BitVec 8) (m : MemArg)
  | bara (h : Hdr) (one : Bool) (r : Bool) (n : BitVec 4) (d : BitVec 8) (a : Src)
  | barw (h : Hdr) (n : BitVec 4) (a : Src)
  | carve (h : Hdr) (t : Bool) (a b c : Src) (pq : Option (BitVec 3))
  | growQueueGrant (core bank : Nat)
  | carveOutDeadlock (core bank : Nat)
  | cpyk (h : Hdr) (t : Bool) (d : BitVec 3) (ec : BitVec 2) (a : Src)
  | presGet (h : Hdr) (d : BitVec 8) (m : MemArg)
  | presHold (h : Hdr) (m : MemArg)
  | presRelease (h : Hdr) (m : MemArg)
  -- rows 0x11 and 0x12 (R205, R333)
  | tcfg (h : Hdr) (t : BitVec 4) (a : Src)
  | tld (h : Hdr) (t : BitVec 4) (scratch : Bool) (base : Src) (off : BitVec 13) (p : BitVec 8)
  | tst (h : Hdr) (t : BitVec 4) (scratch : Bool) (base : Src) (off : BitVec 13) (p : BitVec 8)
  | tzero (h : Hdr) (t : BitVec 4)
  | mmt (h : Hdr) (d : BitVec 8) (m : MatArg)
  | mmtC (h : Hdr) (d : BitVec 8) (m : MatArg)
  | mmts (h : Hdr) (d : BitVec 8) (n : BitVec 3)
  | tbnd (h : Hdr) (d : BitVec 8) (m : MatArg)
  | lease (h : Hdr) (t : Bool) (d : BitVec 8) (m : MatArg)
  | lrel (h : Hdr)
  | lnch (h : Hdr) (t : Bool) (d : BitVec 3) (q : BitVec 3) (a : Src)
  -- row 0x13 (R314, R355)
  | trap (h : Hdr) (imm : BitVec 31)
  | sysc (h : Hdr) (a : BitVec 8) (imm : BitVec 31)
  | eretResume (h : Hdr) (a b : Src)
  | eretRemove (h : Hdr) (a b : Src)
  | tlbiVa (h : Hdr) (a b : Src)
  | tlbiCtx (h : Hdr) (b : Src)
  | tlbiAll (h : Hdr)
  | fenceI (h : Hdr)
  | ctxsw (h : Hdr) (a b : BitVec 8)
  | migr (h : Hdr) (a b : BitVec 8)
  | wfi (h : Hdr)
  | wfiTimeout (t : ThreadRef)
  | mset (h : Hdr) (t : Bool) (d : BitVec 8) (a b : Src)
  | msclr (h : Hdr)
  | hchk (h : Hdr) (sel : HSel) (d : BitVec 8)
  -- events: issue, results, traps (R159, R78, R77, R310)
  | bundleFormation (core : Nat)
  | resultDelivery (t : ThreadRef) (tag : Nat)
  | untaggedResultWrite (t : ThreadRef) (i : Nat)
  | trapRecordWrite (ctx : Nat)
  -- events: waiters and the copy engine (R185, R189 to R200, R303)
  | waiterPeriodicRead (w : WaiterRef)
  | waiterPushRead (w : WaiterRef)
  | copyElement (core ec i : Nat)
  | backReferenceToken (core ec i : Nat)
  | arrivalAddition (core ec i n : Nat)
  | retire (core ec : Nat)
  | engineContextRestart (core ec : Nat)
  | engineContextCancel (core ec : Nat)
  -- events: leases and the term array (R251, R252, R57, R216, R221, R225)
  | leaseRequest (core : Nat)
  | leaseGrant (cluster : Nat)
  | leaseExpiry (core team group : Nat)
  | fold (core row : Nat)
  | matrixDelivery (core : Nat)
  | operationStop (core i : Nat)
  | matrixCancel (core ctx vtid group lane tag : Nat)
  -- events: power and banks (R247, R249, R173, R340, R175, R176)
  | lightMeterReading (cluster reading : Nat)
  | passCountFall (cluster : Nat)
  | bankSwitch (core : Nat)
  | bankSwitchSlice (cls : Nat)
  | preEmption (core : Nat)
  | imageSpill (core bank : Nat)
  | imageLoad (core bank ctx : Nat)
  -- events: control window and control region (R168, R303, R320, R302, R330, R327, R353, R344)
  | barrierEntryFree (core e : Nat)
  | barrierEntryFill (core e : Nat)
  | barrierCountWrite (core e : Nat) (v : DWord)
  | barrierKeyWrite (core e : Nat) (v : DWord)
  | spillMaskWrite (core j : Nat) (v : DWord)
  | teamStop (core ctx vtid : Nat)
  | teamDeparture (core team : Nat)
  | coreModeWrite (core : Nat) (v : DWord)
  | contextCreate (i : Nat)
  | contextRetire (i : Nat)
  | queueOpen (i j : Nat) (v : DWord)
  -- events: grid scheduler (R334 to R338)
  | blockTake
  | blockRefusal (i j : Nat)
  | clusterPlacement (pool : Nat)
  | gridCompletion (grid : Nat)
  | poolWrite (site : Nat) (v : DWord)
  | shareWrite (i : Nat) (v : DWord)
  | placementFreeze (v : DWord)
  | registerWrite (acc : RegAccess) (off : Nat)
  -- events: translation, caches, placement (R307, R267, R261, R341, R342)
  | pageWalk (die : Nat)
  | l1Fill (core unit : Nat)
  | l1Invalidation (core unit : Nat)
  | invalidationReport (core unit : Nat)
  | observationWindow (ctx : Nat)
  | pageMove (ctxA vaA ctxB vaB : Nat)
  -- events: sensors, relocation, failures (R350, R347, R348, R322, R324)
  | sensorReading (site temp : Nat)
  | relocationStop (core : Nat)
  | relocationCommit (core : Nat)
  | forwardedWrite (core : Nat)
  | coreStateLoss (core : Nat) (what : CoreLoss)
  | unitSparing (u : SpareUnit) (lost : List Nat)
  -- events: allowances (R289 to R294)
  | allowanceTakeRequest
  | allowanceHomeGive
  | allowanceReply (core : Nat)
  | recallAnswer (core obj : Nat)
  -- events: hold-up (R359 to R370)
  | powerFail
  | saveSequence (beChunks : Nat) (bad : List (Nat × Nat))
  | powerOn
  | reserveArmed
  | dataRestore (k pa : Nat)
  | teamRestore (k cls i : Nat)
  | vaultRelease
  -- events: host and management (R372 to R379)
  | hostMemRead (h : Nat)
  | hostMemWrite (h : Nat) (data : BitVec 512)
  | watchArm (w vector : Nat)
  | bootStageAdmit (img : BootImage)
  | measurementExtend (m : Nat) (image : List Byte)
  | attestationRequest (nonce : List Byte)
  | firmwareStaging (img : BootImage)
  | telemetrySample (power : Nat)
  | rackTimeSet (t : Nat)
  | tokenReceipt (bytes : List Byte)
  | tokenTick
  -- events: fabric (R382 to R389)
  | fabricWindowEnable (i w : Nat)
  | reductionWindowEnable (r : Nat)
  | fabricRequestReceive (q : FabIn)
  | fabricResponse (id : Nat) (ok : Bool) (data : List Byte)
  | fabricTimeout (id : Nat)
  | stationDown (st : Nat)
  -- events: write-back, link training, fetch (R271, R382, R158)
  | l2WriteBack (ctx va : Nat)
  | stationUp (st : Nat)
  | instructionFetch (core ctx : Nat) (sup : Bool) (line : Nat)
  deriving DecidableEq, Repr

end Sys2Proof
end

