-- ==== Sys2Proof/WellFormed.lean ====
section
/-! DEFINITION. Well-formed instructions: the checks that cause 0x03 makes on the instruction word alone (R13, R65,
R72, R132, R133, R146, R151, R152, R182, R288), and for the event rows the ranges of the identities they name (R5). -/

namespace Sys2Proof

/-- The first register of a pair is even (R13). -/
def evenReg (r : BitVec 8) : Bool := r.toNat % 2 == 0
/-- The first register of a tuple aligned to four (R146, R152, R182, R288). -/
def quadReg (r : BitVec 8) : Bool := r.toNat % 4 == 0

/-- A 32-bit source: any g register, or k0 to k63 (R65). -/
def Src.ok32 : Src → Bool
  | .g _ => true
  | .k r => decide (r.toNat < 64)

/-- A 64-bit source: an even g pair, or a whole k register (R13, R65). -/
def Src.ok64 : Src → Bool
  | .g r => evenReg r
  | .k r => decide (r.toNat < 64)

def IntTy.wide : IntTy → Bool
  | .s32 => false | .n32 => false | .s64 => true | .n64 => true
def IntTy.signed : IntTy → Bool
  | .s32 => true | .n32 => false | .s64 => true | .n64 => false
def IntTy.width (t : IntTy) : Nat := if t.wide then 64 else 32

def CvtTy.wide : CvtTy → Bool
  | .s64 => true | .n64 => true | _ => false

def MemTy.wide : MemTy → Bool
  | .s64 => true | .n64 => true | _ => false

/-- A source of an integer type (R98). -/
def Src.okTy (t : IntTy) (s : Src) : Bool := if t.wide then s.ok64 else s.ok32
/-- A destination of an integer type. -/
def okDst (t : IntTy) (d : BitVec 8) : Bool := !t.wide || evenReg d

/-- The base of a global form is a g pair or a k register; of a scratchpad form a single g or a k (R92, R133). -/
def okBase (scratch : Bool) (b : Src) : Bool := if scratch then b.ok32 else b.ok64

/-- The index part of an address form (R70, R132, R133): an even pair for a 64-bit index, a defined scale, and for the
buffer form an even k pair in the global space. -/
def Index.ok (scratch : Bool) (base : Src) : Index → Bool
  | .none => true
  | .scaled b iw _ sc => (iw != 3 || evenReg b) && decide (sc.toNat ≤ 4)
  | .buffer b iw _ sc => (iw != 3 || evenReg b) && decide (sc.toNat ≤ 4) && !scratch &&
      (match base with | .k r => evenReg r && decide (r.toNat ≤ 62) | .g _ => false)

def MemArg.ok (m : MemArg) : Bool := okBase m.scratch m.base && m.index.ok m.scratch m.base
def MemArg10.ok (m : MemArg10) : Bool := okBase m.scratch m.base && m.index.ok m.scratch m.base
/-- A global address operand (R148, R149, R150, R288: the scratchpad form traps 0x03). -/
def MemArg.okGlobal (m : MemArg) : Bool := !m.scratch && m.ok
def MemArg10.okGlobal (m : MemArg10) : Bool := !m.scratch && m.ok

/-- MMT, MMT.C, TBND and LEASE: pb is a k register or an even g pair; b a g or k register (R205). -/
def MatArg.ok (m : MatArg) : Bool := m.a.ok64 && m.b.ok32

/-- Registers of an atomic (R152). -/
def okAtomReg (op : Aop) (ty : IntTy) (d : BitVec 8) : Bool :=
  match op with
  | .cas => if ty.wide then quadReg d else evenReg d
  | _ => okDst ty d

def isXchgOrCas : Aop → Bool
  | .xchg => true | .cas => true | _ => false

/-- The reserved bits [7:5] of each selector field of BSEL (R108). -/
def bselOk (sel : Nat) : Bool :=
  sel / 32 % 8 == 0 && sel / 8192 % 8 == 0 && sel / 2097152 % 8 == 0 && sel / 536870912 % 8 == 0

def coreOk (c : Nat) : Bool := decide (c < Config.nCores)
def ThreadRef.ok (t : ThreadRef) : Bool :=
  coreOk t.core && decide (t.team < Config.nSlots) && decide (t.group < 32) && decide (t.lane < Config.nLanes)
def ctxOk (i : Nat) : Bool := decide (i < Config.nCtxs)
def engOk (core ec : Nat) : Bool := coreOk core && decide (ec < 4)
def WaiterRef.ok : WaiterRef → Bool
  | .thread t => t.ok
  | .producer c q => ctxOk c && decide (q < 8)
  | .waitEntry c q e => ctxOk c && decide (q < 8) && decide (e < 8)
  | .watch w => decide (w < 32)
def SpareUnit.ok : SpareUnit → Bool
  | .l2slice d s => decide (d < 2) && decide (s < 64)
  | .hbmChannel s _ => decide (s < 8)
  | .termColumn c r _ => coreOk c && decide (r < 128)
  | .page _ _ => true
/-- An error names registers and bytes that a team can have. -/
def CoreLoss.ok : CoreLoss → Bool
  | .reg _ g l n => decide (g < 32) && decide (l < Config.nLanes) && decide (n < 256)
  | .pred _ g l n => decide (g < 32) && decide (l < Config.nLanes) && decide (n < 7)
  | .uniform _ g n => decide (g < 32) && decide (n < 64)
  | .tile _ n => decide (n < Config.nTiles)
  | _ => true
/-- A site value in the s.phys layout that names a site (R5, R19). -/
def siteOk (v : Nat) : Bool := decide (v / 256 < 2) && decide (v / 16 % 16 < 12) && decide (v % 16 < 10)

/-- The checks of the instruction word alone that give cause 0x03 (R14, R65, R72); for an event row, the range of the
identities it names. -/
def Instr.wf : Instr → Bool
  | .nop _ => true
  | .mov _ kd ty d a => (if kd then decide (d.toNat < 64) else okDst ty d) && a.okTy ty
  | .movi _ kd ty d _ => if kd then decide (d.toNat < 64) else okDst ty d
  | .srd _ pair d idx => (!pair || evenReg d) && decide (idx.toNat < 12)
  | .swr _ idx a => decide (idx.toNat < 12) && a.ok32
  | .leaF0 _ d base b iw _ sc _ => evenReg d && base.ok64 && (iw != 3 || evenReg b) && decide (sc.toNat ≤ 4)
  | .leaF1 _ d a _ => evenReg d && evenReg a
  | .isel _ ty d a b _ => okDst ty d && a.okTy ty && b.okTy ty
  | .pcomb .. => true
  | .yield _ => true
  | .iaddF0 _ ty _ d a b _ => okDst ty d && a.okTy ty && b.okTy ty
  | .iaddF1 _ ty _ d a _ => okDst ty d && okDst ty a
  | .isubF0 _ ty _ d a b _ => okDst ty d && a.okTy ty && b.okTy ty
  | .isubF1 _ ty _ d a _ => okDst ty d && okDst ty a
  | .imulF0 _ ty _ d a b _ => okDst ty d && a.okTy ty && b.okTy ty
  | .imulF1 _ ty _ d a _ => okDst ty d && okDst ty a
  | .imulhF0 _ ty d a b => okDst ty d && a.okTy ty && b.okTy ty
  | .imulhF1 _ ty d a _ => okDst ty d && okDst ty a
  | .imad _ ty _ d a b c _ => okDst ty d && a.okTy ty && b.okTy ty && c.okTy ty
  | .iminF0 _ ty d a b => okDst ty d && a.okTy ty && b.okTy ty
  | .iminF1 _ ty d a _ => okDst ty d && okDst ty a
  | .imaxF0 _ ty d a b => okDst ty d && a.okTy ty && b.okTy ty
  | .imaxF1 _ ty d a _ => okDst ty d && okDst ty a
  | .iabs _ wide _ d a _ => (!wide || evenReg d) && (if wide then a.ok64 else a.ok32)
  | .isad _ ty _ d a b c _ => okDst ty d && a.okTy ty && b.okTy ty && c.okTy ty
  | .icmpF0 _ _ ty _ a b _ => a.okTy ty && b.okTy ty
  | .icmpF1 _ _ ty _ a _ => okDst ty a
  | .andF0 _ ty d a b => okDst ty d && a.okTy ty && b.okTy ty
  | .andF1 _ ty d a _ => okDst ty d && okDst ty a
  | .orF0 _ ty d a b => okDst ty d && a.okTy ty && b.okTy ty
  | .orF1 _ ty d a _ => okDst ty d && okDst ty a
  | .xorF0 _ ty d a b => okDst ty d && a.okTy ty && b.okTy ty
  | .xorF1 _ ty d a _ => okDst ty d && okDst ty a
  | .andnF0 _ ty d a b => okDst ty d && a.okTy ty && b.okTy ty
  | .andnF1 _ ty d a _ => okDst ty d && okDst ty a
  | .not _ ty d a => okDst ty d && a.okTy ty
  | .shlF0 _ ty d a b => okDst ty d && a.okTy ty && b.ok32
  | .shlF1 _ ty d a _ => okDst ty d && okDst ty a
  | .shrF0 _ ty d a b => okDst ty d && a.okTy ty && b.ok32
  | .shrF1 _ ty d a _ => okDst ty d && okDst ty a
  | .sarF0 _ ty d a b => okDst ty d && a.okTy ty && b.ok32
  | .sarF1 _ ty d a _ => okDst ty d && okDst ty a
  | .rolF0 _ ty d a b => okDst ty d && a.okTy ty && b.ok32
  | .rolF1 _ ty d a _ => okDst ty d && okDst ty a
  | .fshlF0 _ ty d a b c => okDst ty d && a.okTy ty && b.ok32 && c.okTy ty
  | .fshlF1 _ ty d a _ => okDst ty d && okDst ty a
  | .clz _ ty d a => okDst ty d && a.okTy ty
  | .popc _ ty d a => okDst ty d && a.okTy ty
  | .brev _ ty d a => okDst ty d && a.okTy ty
  | .bfxF0 _ ty d a b => okDst ty d && a.okTy ty && b.ok32
  | .bfxF1 _ ty d a _ _ => okDst ty d && okDst ty a
  | .bfiF0 _ ty d a b c => okDst ty d && a.okTy ty && b.ok32 && c.okTy ty
  | .bfiF1 _ ty d a _ _ => okDst ty d && okDst ty a
  | .bselF0 _ _ a b c => a.ok32 && b.ok32 && c.ok32
  | .bselF1 _ _ _ sel => bselOk sel.toNat
  | .vadd _ _ _ _ _ a b => a.ok32 && b.ok32
  | .vsub _ _ _ _ _ a b => a.ok32 && b.ok32
  | .vmin _ _ _ _ a b => a.ok32 && b.ok32
  | .vmax _ _ _ _ a b => a.ok32 && b.ok32
  | .vshl _ _ _ _ _ a b => a.ok32 && b.ok32
  | .fadd _ _ _ a b => a.ok32 && b.ok32
  | .fsub _ _ _ a b => a.ok32 && b.ok32
  | .fmul _ _ _ a b => a.ok32 && b.ok32
  | .fma _ _ _ a b c => a.ok32 && b.ok32 && c.ok32
  | .fmin _ _ a b => a.ok32 && b.ok32
  | .fmax _ _ a b => a.ok32 && b.ok32
  | .fabs _ _ a => a.ok32
  | .fneg _ _ a => a.ok32
  | .fcmp _ _ _ a b _ => a.ok32 && b.ok32
  | .pkfma _ _ _ a b c => a.ok32 && b.ok32 && c.ok32
  | .pkadd _ _ _ a b => a.ok32 && b.ok32
  | .frcp _ _ _ a => a.ok32
  | .frsq _ _ _ a => a.ok32
  | .fexp2 _ _ _ a => a.ok32
  | .flog2 _ _ _ a => a.ok32
  | .fsin _ _ _ a => a.ok32
  | .fcos _ _ _ a => a.ok32
  | .ftanh _ _ _ a => a.ok32
  | .cvt _ _ dst src d a _ => (!dst.wide || evenReg d) && (if src.wide then a.ok64 else a.ok32)
  | .qntElement _ _ a b _ => a.ok32 && b.ok32
  | .qntScale _ _ a b _ => a.ok32 && b.ok32
  | .dqnt _ _ _ _ a b _ => a.ok32 && b.ok32
  | .trcd _ fmt nib d a b c => evenReg d && a.ok32 && b.ok32 && c.ok32 && (!nib || fmt == .s8 || fmt == .b4)
  | .bra _ _ => true
  | .brx _ a => a.ok64
  | .call _ d _ => evenReg d
  | .ret _ a => a.ok64
  | .exit _ => true
  | .rcvSet _ n _ => decide (n.toNat < 16)
  | .rcvWait _ n => decide (n.toNat < 16)
  | .vote _ mode cnt d _ a =>
      match mode with
      | .some => decide (d.toNat < 8)
      | .every => decide (d.toNat < 8)
      | .bits => cnt || evenReg d
      | .live => (cnt || evenReg d) && a == 0
  | .xlane _ _ pair d a b _ => (!pair || (evenReg d && evenReg a)) && b.ok32
  | .redx .. => true
  | .ld _ _ pair d m => (!pair || evenReg d) && m.ok
  | .st _ _ pair d m => (!pair || evenReg d) && m.ok
  | .ldx _ _ d m => quadReg d && m.ok
  | .stx _ _ d m => quadReg d && m.ok
  | .ldb _ _ pair d m => (!pair || evenReg d) && m.ok
  | .stb _ _ pair d m => (!pair || evenReg d) && m.ok
  | .ldk _ _ d m => decide (d.toNat < 64) && m.ok
  | .pref _ _ m => m.okGlobal
  | .tags _ _ _ m => m.okGlobal
  | .tagg _ _ m => m.okGlobal
  | .atom _ op ty d m => okAtomReg op ty d && m.ok
  | .red _ op ty d m => okAtomReg op ty d && !isXchgOrCas op && m.ok
  | .cadd _ _ m => m.ok
  | .caddt _ d m => quadReg d && m.ok
  | .cwait _ d m => evenReg d && m.ok
  | .cpoll _ _ d m => evenReg d && m.ok
  | .alinit _ d m => quadReg d && m.okGlobal
  | .altake _ _ m => m.okGlobal
  | .altakeT _ _ _ m => m.okGlobal
  | .altakeW _ _ m => m.okGlobal
  | .algive _ _ m => m.okGlobal
  | .alread _ d m => evenReg d && m.okGlobal
  | .alpeek _ d m => evenReg d && m.okGlobal
  | .bara _ one r _ d a => (if r then evenReg d else d == 0) && a.ok32 && (!one || a == .g 0)
  | .barw _ _ a => a.ok64
  | .carve _ t a b c pq => a.ok32 && b.ok32 && c.ok32 && (!t || pq.isSome)
  | .growQueueGrant c b => coreOk c && decide (b < 2)
  | .carveOutDeadlock c b => coreOk c && decide (b < 2)
  | .cpyk _ t d _ a => a.ok32 && (t || d == 0)
  | .presGet _ _ m => m.scratch && m.ok
  | .presHold _ m => m.scratch && m.ok
  | .presRelease _ m => m.scratch && m.ok
  | .tcfg _ _ a => a.ok64
  | .tld _ _ scratch base _ _ => okBase scratch base
  | .tst _ _ scratch base _ _ => okBase scratch base
  | .tzero _ _ => true
  | .mmt _ _ m => m.ok
  | .mmtC _ _ m => m.ok
  | .mmts _ _ _ => true
  | .tbnd _ _ m => m.ok
  | .lease _ t d m => m.ok && (!t || decide (d.toNat < 8))
  | .lrel _ => true
  | .lnch _ t d _ a => a.ok64 && (t || d == 0)
  | .trap _ _ => true
  | .sysc _ _ _ => true
  | .eretResume _ a b => a.ok32 && b.ok32
  | .eretRemove _ a b => a.ok32 && b.ok32
  | .tlbiVa _ a b => a.ok64 && b.ok32
  | .tlbiCtx _ b => b.ok32
  | .tlbiAll _ => true
  | .fenceI _ => true
  | .ctxsw _ _ _ => true
  | .migr _ _ _ => true
  | .wfi _ => true
  | .wfiTimeout t => t.ok
  | .mset _ _ _ a b => a.ok64 && b.ok32
  | .msclr _ => true
  | .hchk _ _ d => evenReg d
  | .bundleFormation c => coreOk c
  | .resultDelivery t tag => t.ok && decide (tag < 8)
  | .untaggedResultWrite t _ => t.ok
  | .trapRecordWrite i => ctxOk i
  | .waiterPeriodicRead w => w.ok
  | .waiterPushRead w => w.ok
  | .copyElement c ec _ => engOk c ec
  | .backReferenceToken c ec _ => engOk c ec
  | .arrivalAddition c ec _ _ => engOk c ec
  | .retire c ec => engOk c ec
  | .engineContextRestart c ec => engOk c ec
  | .engineContextCancel c ec => engOk c ec
  | .leaseRequest c => coreOk c
  | .leaseGrant _ => true
  | .leaseExpiry c t g => coreOk c && decide (t < 32) && decide (g < 32)
  | .fold c r => coreOk c && decide (r < 128)
  | .matrixDelivery c => coreOk c
  | .operationStop c _ => coreOk c
  | .matrixCancel c _ _ g l t => coreOk c && decide (g < 32) && decide (l < 64) && decide (t < 8)
  | .lightMeterReading _ _ => true
  | .passCountFall _ => true
  | .bankSwitch c => coreOk c
  | .bankSwitchSlice cls => decide (cls < 4)
  | .preEmption c => coreOk c
  | .imageSpill c b => coreOk c && decide (b < 2)
  | .imageLoad c b _ => coreOk c && decide (b < 2)
  | .barrierEntryFree c e => coreOk c && decide (e < 64)
  | .barrierEntryFill c e => coreOk c && decide (e < 64)
  | .barrierCountWrite c e _ => coreOk c && decide (e < 64)
  | .barrierKeyWrite c e _ => coreOk c && decide (e < 64)
  | .spillMaskWrite c j _ => coreOk c && decide (j < 32)
  | .teamStop c _ _ => coreOk c
  | .teamDeparture c t => coreOk c && decide (t < 32)
  | .coreModeWrite c _ => coreOk c
  | .contextCreate i => ctxOk i
  | .contextRetire i => ctxOk i
  | .queueOpen i j _ => ctxOk i && decide (j < 8)
  | .blockTake => true
  | .blockRefusal i j => ctxOk i && decide (j < 8)
  | .clusterPlacement p => decide (p < 4)
  | .gridCompletion _ => true
  | .poolWrite v _ => siteOk v
  | .shareWrite i _ => ctxOk i
  | .placementFreeze _ => true
  | .registerWrite acc off => decide (off < Config.ctlSize) && (off % 8 == 0 || (match acc with | .hostOther _ => true | _ => false))
  | .pageWalk d => decide (d < 2)
  | .l1Fill c _ => coreOk c
  | .l1Invalidation c _ => coreOk c
  | .invalidationReport c _ => decide (c ≤ Config.nCores)
  | .observationWindow i => ctxOk i
  | .pageMove a _ b _ => decide (a < 4096) && decide (b < 4096)
  | .sensorReading v t => siteOk v && decide (t < 256)
  | .relocationStop c => coreOk c
  | .relocationCommit c => coreOk c
  | .forwardedWrite c => coreOk c
  | .coreStateLoss c w => coreOk c && w.ok
  | .unitSparing u _ => u.ok
  | .allowanceTakeRequest => true
  | .allowanceHomeGive => true
  | .allowanceReply c => coreOk c
  | .recallAnswer c _ => coreOk c
  | .powerFail => true
  | .saveSequence _ _ => true
  | .powerOn => true
  | .reserveArmed => true
  | .dataRestore k _ => decide (k < 4096)
  | .teamRestore k c i => decide (k < 4096) && decide (c < 4) && ctxOk i
  | .vaultRelease => true
  | .hostMemRead h => h % 64 == 0
  | .hostMemWrite h _ => h % 64 == 0
  | .watchArm w v => decide (w < 32) && decide (v < 64)
  | .bootStageAdmit img => decide (1 ≤ img.stage) && decide (img.stage ≤ 3)
  | .measurementExtend m _ => decide (4 ≤ m) && decide (m ≤ 7)
  | .attestationRequest n => n.length == 32
  | .firmwareStaging _ => true
  | .telemetrySample _ => true
  | .rackTimeSet _ => true
  | .tokenReceipt b => b.length == 32
  | .tokenTick => true
  | .fabricWindowEnable i w => ctxOk i && decide (w < 8)
  | .reductionWindowEnable r => decide (r < 4)
  | .fabricRequestReceive q => decide (q.station < 32)
  | .fabricResponse _ _ _ => true
  | .fabricTimeout _ => true
  | .stationDown n => decide (n < 32)
  | .l2WriteBack i _ => decide (i < 4096)
  | .stationUp n => decide (n < 32)
  | .instructionFetch c i _ _ => coreOk c && decide (i < 4096)

end Sys2Proof
end

