-- ==== Sys2Proof/Decode.lean ====
section
/-! DEFINITION. Decoding an 80-bit instruction word into Instr or one of the three encoding causes, and the encoder
written from the same tables (R61 to R75, and the field tables of each instruction). Event rows have no word. -/

namespace Sys2Proof

/-- The causes that depend on the instruction word alone (R14): 0x01, 0x02 and 0x03. -/
inductive DecodeError where
  | reservedOpcode
  | reservedModifier
  | reservedOperand
  deriving DecidableEq, Repr

/-- Bits [79:71], [70:67], [66:47] and [46:0] of a word (R63). -/
structure Raw where
  op : BitVec 9
  m : BitVec 4
  h : Hdr
  body : BitVec 47
  deriving DecidableEq, Repr

/-- Format F0 (R66). -/
structure F0 where
  d : BitVec 8 := 0
  a : BitVec 8 := 0
  b : BitVec 8 := 0
  ua : Bool := false
  ub : Bool := false
  c : BitVec 8 := 0
  uc : Bool := false
  pv : Bool := false
  pq : BitVec 3 := 0
  ext : BitVec 8 := 0
  deriving DecidableEq, Repr

/-- Format F1 (R67). -/
structure F1 where
  d : BitVec 8 := 0
  a : BitVec 8 := 0
  imm : BitVec 31 := 0
  deriving DecidableEq, Repr

/-- Formats F2 and FB (R68, R69): a register field and 39 bits. -/
structure F2 where
  d : BitVec 8 := 0
  imm : BitVec 39 := 0
  deriving DecidableEq, Repr

/-- Format FM (R70). -/
structure FM where
  d : BitVec 8 := 0
  a : BitVec 8 := 0
  b : BitVec 8 := 0
  sp : Bool := false
  am : BitVec 2 := 0
  ka : Bool := false
  iw : BitVec 2 := 0
  sg : Bool := false
  sc : BitVec 3 := 0
  off : BitVec 13 := 0
  deriving DecidableEq, Repr

/-- Format FX (R71). -/
structure FX where
  d : BitVec 8 := 0
  a : BitVec 8 := 0
  b : BitVec 8 := 0
  ka : Bool := false
  kb : Bool := false
  ec : BitVec 2 := 0
  ext : BitVec 19 := 0
  deriving DecidableEq, Repr

/-- Bit i of a vector, as a Bool. -/
def bitAt {n : Nat} (x : BitVec n) (i : Nat) : Bool := x.getLsbD i

def Raw.unpack (w : IWord) : Raw :=
  { op := w.extractLsb' 71 9
    m := w.extractLsb' 67 4
    h := { la := w.extractLsb' 63 4, av := bitAt w 62, tag := w.extractLsb' 59 3, wait := w.extractLsb' 51 8,
           gn := bitAt w 50, gp := w.extractLsb' 47 3 }
    body := w.extractLsb' 0 47 }

def Hdr.pack (h : Hdr) : BitVec 20 :=
  h.la ++ BitVec.ofBool h.av ++ h.tag ++ h.wait ++ BitVec.ofBool h.gn ++ h.gp

def Raw.pack (r : Raw) : IWord := r.op ++ r.m ++ r.h.pack ++ r.body

def F0.unpack (w : BitVec 47) : F0 :=
  { d := w.extractLsb' 39 8, a := w.extractLsb' 31 8, b := w.extractLsb' 23 8, ua := bitAt w 22, ub := bitAt w 21
    c := w.extractLsb' 13 8, uc := bitAt w 12, pv := bitAt w 11, pq := w.extractLsb' 8 3, ext := w.extractLsb' 0 8 }

def F0.pack (f : F0) : BitVec 47 :=
  f.d ++ f.a ++ f.b ++ BitVec.ofBool f.ua ++ BitVec.ofBool f.ub ++ f.c ++ BitVec.ofBool f.uc ++ BitVec.ofBool f.pv ++
    f.pq ++ f.ext

def F1.unpack (w : BitVec 47) : F1 :=
  { d := w.extractLsb' 39 8, a := w.extractLsb' 31 8, imm := w.extractLsb' 0 31 }

def F1.pack (f : F1) : BitVec 47 := f.d ++ f.a ++ f.imm

def F2.unpack (w : BitVec 47) : F2 := { d := w.extractLsb' 39 8, imm := w.extractLsb' 0 39 }

def F2.pack (f : F2) : BitVec 47 := f.d ++ f.imm

def FM.unpack (w : BitVec 47) : FM :=
  { d := w.extractLsb' 39 8, a := w.extractLsb' 31 8, b := w.extractLsb' 23 8, sp := bitAt w 22
    am := w.extractLsb' 20 2, ka := bitAt w 19, iw := w.extractLsb' 17 2, sg := bitAt w 16, sc := w.extractLsb' 13 3
    off := w.extractLsb' 0 13 }

def FM.pack (f : FM) : BitVec 47 :=
  f.d ++ f.a ++ f.b ++ BitVec.ofBool f.sp ++ f.am ++ BitVec.ofBool f.ka ++ f.iw ++ BitVec.ofBool f.sg ++ f.sc ++ f.off

def FX.unpack (w : BitVec 47) : FX :=
  { d := w.extractLsb' 39 8, a := w.extractLsb' 31 8, b := w.extractLsb' 23 8, ka := bitAt w 22, kb := bitAt w 21
    ec := w.extractLsb' 19 2, ext := w.extractLsb' 0 19 }

def FX.pack (f : FX) : BitVec 47 :=
  f.d ++ f.a ++ f.b ++ BitVec.ofBool f.ka ++ BitVec.ofBool f.kb ++ f.ec ++ f.ext

/-! The codes of the field tables. -/

def intTyOf (c : BitVec 2) : IntTy :=
  match c.toNat with
  | 0 => .s32 | 1 => .n32 | 2 => .s64 | _ => .n64
def IntTy.code : IntTy → BitVec 2
  | .s32 => 0 | .n32 => 1 | .s64 => 2 | .n64 => 3

def rmOf (c : BitVec 2) : Rm :=
  match c.toNat with
  | 0 => .rne | 1 => .rtz | 2 => .rup | _ => .rdn
def Rm.code : Rm → BitVec 2
  | .rne => 0 | .rtz => 1 | .rup => 2 | .rdn => 3

def packOf (c : BitVec 2) : Option Pack :=
  match c.toNat with
  | 0 => some .x8 | 1 => some .x16 | _ => none
def Pack.code : Pack → BitVec 2
  | .x8 => 0 | .x16 => 1

def icondOf (c : BitVec 2) : ICond :=
  match c.toNat with
  | 0 => .eq | 1 => .ne | 2 => .lt | _ => .le
def ICond.code : ICond → BitVec 2
  | .eq => 0 | .ne => 1 | .lt => 2 | .le => 3

def fcondOf (c : BitVec 3) : FCond :=
  match c.toNat with
  | 0 => .eq | 1 => .ne | 2 => .lt | 3 => .le | 4 => .gt | 5 => .ge | 6 => .un | _ => .ord
def FCond.code : FCond → BitVec 3
  | .eq => 0 | .ne => 1 | .lt => 2 | .le => 3 | .gt => 4 | .ge => 5 | .un => 6 | .ord => 7

/-- Type codes of CVT (R116). -/
def cvtTyOf (c : BitVec 4) : Option CvtTy :=
  match c.toNat with
  | 0 => some .s8 | 1 => some .n8 | 2 => some .s16 | 3 => some .n16 | 4 => some .s32 | 5 => some .n32
  | 6 => some .s64 | 7 => some .n64 | 8 => some .f32 | 9 => some .f16 | 10 => some .bf16 | 11 => some .e4m3
  | 12 => some .e5m2 | _ => none
def CvtTy.code : CvtTy → BitVec 4
  | .s8 => 0 | .n8 => 1 | .s16 => 2 | .n16 => 3 | .s32 => 4 | .n32 => 5 | .s64 => 6 | .n64 => 7 | .f32 => 8
  | .f16 => 9 | .bf16 => 10 | .e4m3 => 11 | .e5m2 => 12

def memTyOf (c : BitVec 3) : MemTy :=
  match c.toNat with
  | 0 => .s8 | 1 => .n8 | 2 => .s16 | 3 => .n16 | 4 => .s32 | 5 => .n32 | 6 => .s64 | _ => .n64
def MemTy.code : MemTy → BitVec 3
  | .s8 => 0 | .n8 => 1 | .s16 => 2 | .n16 => 3 | .s32 => 4 | .n32 => 5 | .s64 => 6 | .n64 => 7

/-- Element format identifiers (R23). -/
def elemFmtOf (c : BitVec 6) : Option ElemFmt :=
  match c.toNat with
  | 1 => some .s8 | 2 => some .n8 | 3 => some .s16 | 4 => some .n16 | 5 => some .s32 | 6 => some .n32
  | 7 => some .f32 | 8 => some .f16 | 9 => some .bf16 | 10 => some .e4m3 | 11 => some .e5m2 | 12 => some .b4
  | _ => none
def ElemFmt.code : ElemFmt → BitVec 6
  | .s8 => 1 | .n8 => 2 | .s16 => 3 | .n16 => 4 | .s32 => 5 | .n32 => 6 | .f32 => 7 | .f16 => 8 | .bf16 => 9
  | .e4m3 => 10 | .e5m2 => 11 | .b4 => 12

def dqTyOf (c : BitVec 2) : Option DqTy :=
  match c.toNat with
  | 0 => some .f32 | 1 => some .f16 | 2 => some .bf16 | _ => none
def DqTy.code : DqTy → BitVec 2
  | .f32 => 0 | .f16 => 1 | .bf16 => 2

def voteModeOf (c : BitVec 2) : VoteMode :=
  match c.toNat with
  | 0 => .some | 1 => .every | 2 => .bits | _ => .live
def VoteMode.code : VoteMode → BitVec 2
  | .some => 0 | .every => 1 | .bits => 2 | .live => 3

def laneModeOf (c : BitVec 2) : LaneMode :=
  match c.toNat with
  | 0 => .at | 1 => .below | 2 => .above | _ => .mirror
def LaneMode.code : LaneMode → BitVec 2
  | .at => 0 | .below => 1 | .above => 2 | .mirror => 3

def redOpOf (c : BitVec 2) : Option RedOp :=
  match c.toNat with
  | 0 => some .add | 1 => some .min | 2 => some .max | _ => none
def RedOp.code : RedOp → BitVec 2
  | .add => 0 | .min => 1 | .max => 2

def redTyOf (c : BitVec 2) : Option RedTy :=
  match c.toNat with
  | 0 => some .f32 | 1 => some .s32 | 2 => some .n32 | _ => none
def RedTy.code : RedTy → BitVec 2
  | .f32 => 0 | .s32 => 1 | .n32 => 2

def tupSizeOf (c : BitVec 2) : TupSize :=
  match c.toNat with
  | 0 => .w16 | 1 => .w32 | 2 => .w64 | _ => .w128
def TupSize.code : TupSize → BitVec 2
  | .w16 => 0 | .w32 => 1 | .w64 => 2 | .w128 => 3

def prefKindOf (c : BitVec 2) : Option PrefKind :=
  match c.toNat with
  | 0 => some .l1 | 1 => some .l2 | 2 => some .i | _ => none
def PrefKind.code : PrefKind → BitVec 2
  | .l1 => 0 | .l2 => 1 | .i => 2

def tagLenOf (c : BitVec 2) : TagLen :=
  match c.toNat with
  | 0 => .g1 | 1 => .g4 | 2 => .g16 | _ => .g64
def TagLen.code : TagLen → BitVec 2
  | .g1 => 0 | .g4 => 1 | .g16 => 2 | .g64 => 3

def aopOf (c : BitVec 3) : Aop :=
  match c.toNat with
  | 0 => .add | 1 => .min | 2 => .max | 3 => .and | 4 => .or | 5 => .xor | 6 => .xchg | _ => .cas
def Aop.code : Aop → BitVec 3
  | .add => 0 | .min => 1 | .max => 2 | .and => 3 | .or => 4 | .xor => 5 | .xchg => 6 | .cas => 7

def hselOf (c : BitVec 3) : Option HSel :=
  match c.toNat with
  | 0 => some .share | 1 => some .used | 2 => some .free | 3 => some .total | 4 => some .energy | 5 => some .state
  | _ => none
def HSel.code : HSel → BitVec 3
  | .share => 0 | .used => 1 | .free => 2 | .total => 3 | .energy => 4 | .state => 5

/-- A register field with its class bit (R65). -/
def srcOf (u : Bool) (r : BitVec 8) : Src := if u then .k r else .g r
def Src.reg : Src → BitVec 8
  | .g r => r
  | .k r => r
def Src.cls : Src → Bool
  | .g _ => false
  | .k _ => true

/-! Checks. The first check of a row is its modifier (0x02), the others are its operands (0x03): R28's order. -/

abbrev Dec := Except DecodeError Instr

def modOk (b : Bool) (k : Dec) : Dec := if b then k else .error .reservedModifier
def opndOk (b : Bool) (k : Dec) : Dec := if b then k else .error .reservedOperand

def modSome {α : Type} (x : Option α) (k : α → Dec) : Dec :=
  match x with
  | some a => k a
  | none => .error .reservedModifier
def opndSome {α : Type} (x : Option α) (k : α → Dec) : Dec :=
  match x with
  | some a => k a
  | none => .error .reservedOperand

/-- Modifier bits [68:67], [69], [70] and [70:69]. -/
def mLo (m : BitVec 4) : BitVec 2 := m.extractLsb' 0 2
def mHi (m : BitVec 4) : BitVec 2 := m.extractLsb' 2 2
def m69 (m : BitVec 4) : Bool := bitAt m 2
def m70 (m : BitVec 4) : Bool := bitAt m 3
def mLo3 (m : BitVec 4) : BitVec 3 := m.extractLsb' 0 3

/-- The F0 fields an instruction does not name are zero (R72). Each flag says that the field is named. -/
def F0.unused (f : F0) (d a b c p e : Bool) : Bool :=
  (d || f.d == 0) && (a || (f.a == 0 && !f.ua)) && (b || (f.b == 0 && !f.ub)) && (c || (f.c == 0 && !f.uc)) &&
    (p || !f.pv) && (f.pv || f.pq == 0) && (e || f.ext == 0)

def F0.srcA (f : F0) : Src := srcOf f.ua f.a
def F0.srcB (f : F0) : Src := srcOf f.ub f.b
def F0.srcC (f : F0) : Src := srcOf f.uc f.c
/-- The second result's predicate (R99). -/
def F0.second (f : F0) : Option (BitVec 3) := if f.pv then some f.pq else none

/-- A predicate field (R65): 0 to 7, and its class bit 0 where it has one (R98). -/
def predOf (r : BitVec 8) : Option (BitVec 3) := if r.toNat < 8 then some (r.extractLsb' 0 3) else none
def predField (p : BitVec 3) : BitVec 8 := p.zeroExtend 8
/-- A tile field (R65): 0 to 15. -/
def tileOf (r : BitVec 8) : Option (BitVec 4) := if r.toNat < 16 then some (r.extractLsb' 0 4) else none
def tileField (t : BitVec 4) : BitVec 8 := t.zeroExtend 8

/-- The index of an address form (R70): am = 11 is reserved, and for am = 00 the index fields are unused. -/
def FM.index (f : FM) : Option Index :=
  match f.am.toNat with
  | 0 => if f.b == 0 && f.iw == 0 && !f.sg && f.sc == 0 then some .none else none
  | 1 => some (.scaled f.b f.iw f.sg f.sc)
  | 2 => some (.buffer f.b f.iw f.sg f.sc)
  | _ => none

def FM.memArg (f : FM) : Option MemArg :=
  match f.index with
  | some i => some { scratch := f.sp, base := srcOf f.ka f.a, index := i, off := f.off }
  | none => none
def FM.memArg10 (f : FM) : Option MemArg10 :=
  match f.index with
  | some i => some { scratch := f.sp, base := srcOf f.ka f.a, index := i, off := f.off.extractLsb' 0 10 }
  | none => none
/-- off13[12:10] where the instruction splits it (R151, R288). -/
def FM.sub3 (f : FM) : BitVec 3 := f.off.extractLsb' 10 3

/-- The fields that an index and a memory operand take in FM (R70). -/
def Index.fields (i : Index) (f : FM) : FM :=
  match i with
  | .none => f
  | .scaled b iw sg sc => { f with am := 1, b := b, iw := iw, sg := sg, sc := sc }
  | .buffer b iw sg sc => { f with am := 2, b := b, iw := iw, sg := sg, sc := sc }
def MemArg.fields (m : MemArg) (d : BitVec 8) : FM :=
  m.index.fields { d := d, a := m.base.reg, sp := m.scratch, ka := m.base.cls, off := m.off }
def MemArg10.fields (m : MemArg10) (d : BitVec 8) (s : BitVec 3) : FM :=
  m.index.fields { d := d, a := m.base.reg, sp := m.scratch, ka := m.base.cls, off := s ++ m.off }

def FX.matArg (f : FX) : MatArg := { scratch := bitAt f.ext 0, a := srcOf f.ka f.a, b := srcOf f.kb f.b }
def MatArg.fields (m : MatArg) (d : BitVec 8) : FX :=
  { d := d, a := m.a.reg, b := m.b.reg, ka := m.a.cls, kb := m.b.cls, ext := (BitVec.ofBool m.scratch).zeroExtend 19 }
/-- ec = 0 and ext[18:1] = 0 (R205). -/
def FX.matOk (f : FX) : Bool := f.ec == 0 && f.ext.extractLsb' 1 18 == 0

/-! The rows of the opcode map (R74), by row opcode[8:4] and column opcode[3:0]. -/

def decodeRow00 (col : Nat) (m : BitVec 4) (h : Hdr) (w : BitVec 47) : Dec :=
  let f := F0.unpack w
  match col with
  | 1 => modOk (m == 0) (opndOk (f.unused false false false false false false) (.ok (.nop h)))
  | 2 => modOk (!m70 m) (opndOk (f.unused true true false false false false)
      (.ok (.mov h (m69 m) (intTyOf (mLo m)) f.d f.srcA)))
  | 3 => modOk (!m70 m) (.ok (.movi h (m69 m) (intTyOf (mLo m)) (F2.unpack w).d (F2.unpack w).imm))
  | 4 => modOk (m.toNat < 2) (opndOk (f.unused true false false false false true)
      (.ok (.srd h (bitAt m 0) f.d f.ext)))
  | 5 => modOk (m == 0) (opndOk (f.unused false true false false false true) (.ok (.swr h f.ext f.srcA)))
  | 6 => modOk (m == 0) (opndOk (f.unused true true true false true true && !f.ub && f.ext.extractLsb' 6 2 == 0)
      (.ok (.leaF0 h f.d f.srcA f.b (f.ext.extractLsb' 3 2) (bitAt f.ext 5) (f.ext.extractLsb' 0 3) f.second)))
  | 7 => modOk (m == 0) (.ok (.leaF1 h (F1.unpack w).d (F1.unpack w).a (F1.unpack w).imm))
  | 8 => modOk (mHi m == 0) (opndOk (f.unused true true true true false false && !f.uc)
      (opndSome (predOf f.c) fun c => .ok (.isel h (intTyOf (mLo m)) f.d f.srcA f.srcB c)))
  | 9 => modOk (m == 0) (opndOk (f.unused true true true true false true && !f.ua && !f.ub && !f.uc)
      (opndSome (predOf f.d) fun d => opndSome (predOf f.a) fun a => opndSome (predOf f.b) fun b =>
        opndSome (predOf f.c) fun c => .ok (.pcomb h d a b c f.ext)))
  | 10 => modOk (m == 0) (opndOk (f.unused false false false false false false) (.ok (.yield h)))
  | _ => .error .reservedOpcode

def decodeRow01 (col : Nat) (m : BitVec 4) (h : Hdr) (w : BitVec 47) : Dec :=
  let f := F0.unpack w
  let ty := intTyOf (mLo m)
  match col with
  | 0 => modOk (!m69 m) (opndOk (f.unused true true true false true false)
      (.ok (.iaddF0 h ty (m70 m) f.d f.srcA f.srcB f.second)))
  | 1 => modOk (!m69 m) (opndOk (f.unused true true true false true false)
      (.ok (.isubF0 h ty (m70 m) f.d f.srcA f.srcB f.second)))
  | 2 => modOk (!m69 m) (opndOk (f.unused true true true false true false)
      (.ok (.imulF0 h ty (m70 m) f.d f.srcA f.srcB f.second)))
  | 3 => modOk (mHi m == 0) (opndOk (f.unused true true true false false false)
      (.ok (.imulhF0 h ty f.d f.srcA f.srcB)))
  | 4 => modOk (!m69 m) (opndOk (f.unused true true true true true false)
      (.ok (.imad h ty (m70 m) f.d f.srcA f.srcB f.srcC f.second)))
  | 5 => modOk (mHi m == 0) (opndOk (f.unused true true true false false false)
      (.ok (.iminF0 h ty f.d f.srcA f.srcB)))
  | 6 => modOk (mHi m == 0) (opndOk (f.unused true true true false false false)
      (.ok (.imaxF0 h ty f.d f.srcA f.srcB)))
  | 7 => modOk (!m69 m && ty.signed) (opndOk (f.unused true true false false true false)
      (.ok (.iabs h ty.wide (m70 m) f.d f.srcA f.second)))
  | 8 => modOk (!m69 m) (opndOk (f.unused true true true true true false)
      (.ok (.isad h ty (m70 m) f.d f.srcA f.srcB f.srcC f.second)))
  | 9 => opndOk (f.unused true true true false true false)
      (opndSome (predOf f.d) fun d => .ok (.icmpF0 h (icondOf (mHi m)) ty d f.srcA f.srcB f.second))
  | _ => .error .reservedOpcode

def decodeRow02 (col : Nat) (m : BitVec 4) (h : Hdr) (w : BitVec 47) : Dec :=
  let f := F1.unpack w
  let ty := intTyOf (mLo m)
  match col with
  | 0 => modOk (!m69 m) (.ok (.iaddF1 h ty (m70 m) f.d f.a f.imm))
  | 1 => modOk (!m69 m) (.ok (.isubF1 h ty (m70 m) f.d f.a f.imm))
  | 2 => modOk (!m69 m) (.ok (.imulF1 h ty (m70 m) f.d f.a f.imm))
  | 3 => modOk (mHi m == 0) (.ok (.imulhF1 h ty f.d f.a f.imm))
  | 5 => modOk (mHi m == 0) (.ok (.iminF1 h ty f.d f.a f.imm))
  | 6 => modOk (mHi m == 0) (.ok (.imaxF1 h ty f.d f.a f.imm))
  | 9 => opndSome (predOf f.d) fun d => .ok (.icmpF1 h (icondOf (mHi m)) ty d f.a f.imm)
  | _ => .error .reservedOpcode

def decodeRow03 (col : Nat) (m : BitVec 4) (h : Hdr) (w : BitVec 47) : Dec :=
  let f := F0.unpack w
  let ty := intTyOf (mLo m)
  let two (k : Dec) : Dec := modOk (mHi m == 0) (opndOk (f.unused true true true false false false) k)
  let one (k : Dec) : Dec := modOk (mHi m == 0) (opndOk (f.unused true true false false false false) k)
  let three (k : Dec) : Dec := modOk (mHi m == 0) (opndOk (f.unused true true true true false false) k)
  match col with
  | 0 => two (.ok (.andF0 h ty f.d f.srcA f.srcB))
  | 1 => two (.ok (.orF0 h ty f.d f.srcA f.srcB))
  | 2 => two (.ok (.xorF0 h ty f.d f.srcA f.srcB))
  | 3 => two (.ok (.andnF0 h ty f.d f.srcA f.srcB))
  | 4 => one (.ok (.not h ty f.d f.srcA))
  | 5 => two (.ok (.shlF0 h ty f.d f.srcA f.srcB))
  | 6 => two (.ok (.shrF0 h ty f.d f.srcA f.srcB))
  | 7 => two (.ok (.sarF0 h ty f.d f.srcA f.srcB))
  | 8 => two (.ok (.rolF0 h ty f.d f.srcA f.srcB))
  | 9 => three (.ok (.fshlF0 h ty f.d f.srcA f.srcB f.srcC))
  | 10 => one (.ok (.clz h ty f.d f.srcA))
  | 11 => one (.ok (.popc h ty f.d f.srcA))
  | 12 => one (.ok (.brev h ty f.d f.srcA))
  | 13 => two (.ok (.bfxF0 h ty f.d f.srcA f.srcB))
  | 14 => three (.ok (.bfiF0 h ty f.d f.srcA f.srcB f.srcC))
  | 15 => modOk (m == 0) (opndOk (f.unused true true true true false false) (.ok (.bselF0 h f.d f.srcA f.srcB f.srcC)))
  | _ => .error .reservedOpcode

def decodeRow04 (col : Nat) (m : BitVec 4) (h : Hdr) (w : BitVec 47) : Dec :=
  let f := F1.unpack w
  let ty := intTyOf (mLo m)
  let ok (k : Dec) : Dec := modOk (mHi m == 0) k
  match col with
  | 0 => ok (.ok (.andF1 h ty f.d f.a f.imm))
  | 1 => ok (.ok (.orF1 h ty f.d f.a f.imm))
  | 2 => ok (.ok (.xorF1 h ty f.d f.a f.imm))
  | 3 => ok (.ok (.andnF1 h ty f.d f.a f.imm))
  | 5 => ok (.ok (.shlF1 h ty f.d f.a f.imm))
  | 6 => ok (.ok (.shrF1 h ty f.d f.a f.imm))
  | 7 => ok (.ok (.sarF1 h ty f.d f.a f.imm))
  | 8 => ok (.ok (.rolF1 h ty f.d f.a f.imm))
  | 9 => ok (opndOk (f.imm.extractLsb' 8 23 == 0) (.ok (.fshlF1 h ty f.d f.a (f.imm.extractLsb' 0 8))))
  | 13 => ok (opndOk (f.imm.extractLsb' 16 15 == 0)
      (.ok (.bfxF1 h ty f.d f.a (f.imm.extractLsb' 0 8) (f.imm.extractLsb' 8 8))))
  | 14 => ok (opndOk (f.imm.extractLsb' 16 15 == 0)
      (.ok (.bfiF1 h ty f.d f.a (f.imm.extractLsb' 0 8) (f.imm.extractLsb' 8 8))))
  | 15 => modOk (m == 0) (.ok (.bselF1 h f.d f.a f.imm))
  | _ => .error .reservedOpcode

def decodeRow05 (col : Nat) (m : BitVec 4) (h : Hdr) (w : BitVec 47) : Dec :=
  let f := F0.unpack w
  let ok (k : Pack → Dec) : Dec :=
    modSome (packOf (mLo m)) fun p => opndOk (f.unused true true true false false false) (k p)
  match col with
  | 0 => ok fun p => .ok (.vadd h p (m69 m) (m70 m) f.d f.srcA f.srcB)
  | 1 => ok fun p => .ok (.vsub h p (m69 m) (m70 m) f.d f.srcA f.srcB)
  | 2 => modOk (!m70 m) (ok fun p => .ok (.vmin h p (m69 m) f.d f.srcA f.srcB))
  | 3 => modOk (!m70 m) (ok fun p => .ok (.vmax h p (m69 m) f.d f.srcA f.srcB))
  | 4 => ok fun p => .ok (.vshl h p (m69 m) (m70 m) f.d f.srcA f.srcB)
  | _ => .error .reservedOpcode

def decodeRow06 (col : Nat) (m : BitVec 4) (h : Hdr) (w : BitVec 47) : Dec :=
  let f := F0.unpack w
  let rm := rmOf (mLo m)
  let two (k : Dec) : Dec := modOk (mHi m == 0) (opndOk (f.unused true true true false false false) k)
  match col with
  | 0 => two (.ok (.fadd h rm f.d f.srcA f.srcB))
  | 1 => two (.ok (.fsub h rm f.d f.srcA f.srcB))
  | 2 => two (.ok (.fmul h rm f.d f.srcA f.srcB))
  | 3 => modOk (mHi m == 0) (opndOk (f.unused true true true true false false)
      (.ok (.fma h rm f.d f.srcA f.srcB f.srcC)))
  | 4 => modOk (m == 0) (opndOk (f.unused true true true false false false) (.ok (.fmin h f.d f.srcA f.srcB)))
  | 5 => modOk (m == 0) (opndOk (f.unused true true true false false false) (.ok (.fmax h f.d f.srcA f.srcB)))
  | 6 => modOk (m == 0) (opndOk (f.unused true true false false false false) (.ok (.fabs h f.d f.srcA)))
  | 7 => modOk (m == 0) (opndOk (f.unused true true false false false false) (.ok (.fneg h f.d f.srcA)))
  | 8 => modOk (!m70 m) (opndOk (f.unused true true true false true false)
      (opndSome (predOf f.d) fun d => .ok (.fcmp h (fcondOf (mLo3 m)) d f.srcA f.srcB f.second)))
  | 9 => modOk (mHi m == 0) (opndOk (f.unused true true true true false false)
      (.ok (.pkfma h rm f.d f.srcA f.srcB f.srcC)))
  | 10 => two (.ok (.pkadd h rm f.d f.srcA f.srcB))
  | _ => .error .reservedOpcode

def decodeRow07 (col : Nat) (m : BitVec 4) (h : Hdr) (w : BitVec 47) : Dec :=
  let f := F0.unpack w
  let rm := rmOf (mLo m)
  let ok (k : Dec) : Dec := modOk (mHi m == 0) (opndOk (f.unused true true false false false false) k)
  match col with
  | 0 => ok (.ok (.frcp h rm f.d f.srcA))
  | 1 => ok (.ok (.frsq h rm f.d f.srcA))
  | 2 => ok (.ok (.fexp2 h rm f.d f.srcA))
  | 3 => ok (.ok (.flog2 h rm f.d f.srcA))
  | 4 => ok (.ok (.fsin h rm f.d f.srcA))
  | 5 => ok (.ok (.fcos h rm f.d f.srcA))
  | 6 => ok (.ok (.ftanh h rm f.d f.srcA))
  | _ => .error .reservedOpcode

def decodeRow08 (col : Nat) (m : BitVec 4) (h : Hdr) (w : BitVec 47) : Dec :=
  let f := F0.unpack w
  match col with
  | 0 => modOk (mHi m == 0) (opndOk (f.unused true true false false true true)
      (opndSome (cvtTyOf (f.ext.extractLsb' 4 4)) fun dst => opndSome (cvtTyOf (f.ext.extractLsb' 0 4)) fun src =>
        .ok (.cvt h (rmOf (mLo m)) dst src f.d f.srcA f.second)))
  | 1 => modOk (m.toNat < 2) (opndOk (f.unused true true true false true false)
      (if bitAt m 0 then .ok (.qntScale h f.d f.srcA f.srcB f.second)
       else .ok (.qntElement h f.d f.srcA f.srcB f.second)))
  | 2 => modSome (dqTyOf (mHi m)) fun dst =>
      opndOk (f.unused true true true false false true && f.ext.extractLsb' 3 5 == 0)
        (.ok (.dqnt h dst (rmOf (mLo m)) f.d f.srcA f.srcB (f.ext.extractLsb' 0 3)))
  | 3 => modOk (m == 0) (opndOk (f.unused true true true true false true && !bitAt f.ext 7)
      (opndSome (elemFmtOf (f.ext.extractLsb' 0 6)) fun fmt =>
        .ok (.trcd h fmt (bitAt f.ext 6) f.d f.srcA f.srcB f.srcC)))
  | _ => .error .reservedOpcode

def decodeRow09 (col : Nat) (m : BitVec 4) (h : Hdr) (w : BitVec 47) : Dec :=
  let f := F0.unpack w
  let b := F2.unpack w
  match col with
  | 0 => modOk (m == 0) (opndOk (b.d == 0) (.ok (.bra h b.imm)))
  | 1 => modOk (m == 0) (opndOk (f.unused false true false false false false) (.ok (.brx h f.srcA)))
  | 2 => modOk (m == 0) (.ok (.call h b.d b.imm))
  | 3 => modOk (m == 0) (opndOk (f.unused false true false false false false) (.ok (.ret h f.srcA)))
  | 4 => modOk (m == 0) (opndOk (f.unused false false false false false false) (.ok (.exit h)))
  | 5 => modOk (m == 0) (.ok (.rcvSet h b.d b.imm))
  | 6 => modOk (m == 0) (opndOk (f.unused false true false false false false && !f.ua) (.ok (.rcvWait h f.a)))
  | _ => .error .reservedOpcode

def decodeRow0A (col : Nat) (m : BitVec 4) (h : Hdr) (w : BitVec 47) : Dec :=
  let f := F0.unpack w
  match col with
  | 0 => modOk (!m70 m && (!m69 m || bitAt m 1))
      (opndOk (f.unused true true false false false true && !f.ua && f.ext.extractLsb' 1 7 == 0)
        (opndSome (predOf f.a) fun a => .ok (.vote h (voteModeOf (mLo m)) (m69 m) f.d (bitAt f.ext 0) a)))
  | 1 => modOk (!bitAt m 1) (opndOk (f.unused true true true false true false && !f.ua)
      (.ok (.xlane h (laneModeOf (mHi m)) (bitAt m 0) f.d f.a f.srcB f.second)))
  | 2 => modSome (redOpOf (mHi m)) fun op => modOk (mLo m == 0 || (op == .add && f.ext.extractLsb' 0 2 == 0))
      (opndOk (f.unused true true false false false true && !f.ua && f.ext.extractLsb' 2 6 == 0)
        (opndSome (redTyOf (f.ext.extractLsb' 0 2)) fun ty => .ok (.redx h op (rmOf (mLo m)) ty f.d f.a)))
  | _ => .error .reservedOpcode

/-- The element types that LD and LDB define (R144). -/
def loadTyOk (m : BitVec 4) : Bool := m70 m || (mLo3 m).toNat < 6
/-- The element types that ST and STB define (R144). -/
def storeTyOk (m : BitVec 4) : Bool := if m70 m then (mLo3 m).toNat ≥ 4 else (mLo3 m).toNat < 6

def decodeRow0C (col : Nat) (m : BitVec 4) (h : Hdr) (w : BitVec 47) : Dec :=
  let f := FM.unpack w
  let mem (k : MemArg → Dec) : Dec := opndSome f.memArg k
  match col with
  | 0 => modOk (loadTyOk m) (mem fun a => .ok (.ld h (memTyOf (mLo3 m)) (m70 m) f.d a))
  | 1 => modOk (storeTyOk m) (mem fun a => .ok (.st h (memTyOf (mLo3 m)) (m70 m) f.d a))
  | 2 => modOk (mHi m == 0) (mem fun a => .ok (.ldx h (tupSizeOf (mLo m)) f.d a))
  | 3 => modOk (mHi m == 0) (mem fun a => .ok (.stx h (tupSizeOf (mLo m)) f.d a))
  | 4 => modOk (loadTyOk m) (mem fun a => .ok (.ldb h (memTyOf (mLo3 m)) (m70 m) f.d a))
  | 5 => modOk (storeTyOk m) (mem fun a => .ok (.stb h (memTyOf (mLo3 m)) (m70 m) f.d a))
  | 6 => modOk (!m70 m) (mem fun a => .ok (.ldk h (memTyOf (mLo3 m)) f.d a))
  | 7 => modOk (mHi m == 0) (modSome (prefKindOf (mLo m)) fun k =>
      opndOk (f.d == 0) (mem fun a => .ok (.pref h k a)))
  | 8 => modOk (!m70 m) (opndOk (f.d == 0) (mem fun a => .ok (.tags h (tagLenOf (mLo m)) (m69 m) a)))
  | 9 => modOk (m == 0) (mem fun a => .ok (.tagg h f.d a))
  | _ => .error .reservedOpcode

def decodeRow0D (col : Nat) (m : BitVec 4) (h : Hdr) (w : BitVec 47) : Dec :=
  let f := FM.unpack w
  match col with
  | 0 => modOk (mHi m == 0) (opndSome f.memArg10 fun a => .ok (.atom h (aopOf f.sub3) (intTyOf (mLo m)) f.d a))
  | 1 => modOk (mHi m == 0) (opndSome f.memArg10 fun a => .ok (.red h (aopOf f.sub3) (intTyOf (mLo m)) f.d a))
  | _ => .error .reservedOpcode

def decodeRow0E (col : Nat) (m : BitVec 4) (h : Hdr) (w : BitVec 47) : Dec :=
  let f := FM.unpack w
  match col with
  | 0 => modOk (m == 0) (opndSome f.memArg fun a => .ok (.cadd h f.d a))
  | 1 => modOk (m == 0) (opndSome f.memArg fun a => .ok (.caddt h f.d a))
  | 2 => modOk (m == 0) (opndSome f.memArg fun a => .ok (.cwait h f.d a))
  | 3 => modOk (!m70 m) (opndSome f.memArg fun a => .ok (.cpoll h (mLo3 m) f.d a))
  | _ => .error .reservedOpcode

def decodeRow0F (col : Nat) (m : BitVec 4) (h : Hdr) (w : BitVec 47) : Dec :=
  let f := FM.unpack w
  match col with
  | 0 => modOk (m == 0) (opndSome f.memArg fun a => .ok (.alinit h f.d a))
  | 1 => modOk (mHi m == 0 && mLo m != 3) (opndSome f.memArg10 fun a =>
      match (mLo m).toNat with
      | 0 => opndOk (f.sub3 == 0) (.ok (.altake h f.d a))
      | 1 => .ok (.altakeT h f.sub3 f.d a)
      | _ => opndOk (f.sub3 == 0) (.ok (.altakeW h f.d a)))
  | 2 => modOk (m == 0) (opndSome f.memArg fun a => .ok (.algive h f.d a))
  | 3 => modOk (m == 0) (opndSome f.memArg fun a => .ok (.alread h f.d a))
  | 4 => modOk (m == 0) (opndSome f.memArg fun a => .ok (.alpeek h f.d a))
  | _ => .error .reservedOpcode

def decodeRow10 (col : Nat) (m : BitVec 4) (h : Hdr) (w : BitVec 47) : Dec :=
  let f := F0.unpack w
  let x := FX.unpack w
  let g := FM.unpack w
  match col with
  | 0 => modOk (mHi m == 0) (opndOk (f.unused true true false false false true && f.ext.extractLsb' 4 4 == 0)
      (.ok (.bara h (bitAt m 1) (bitAt m 0) (f.ext.extractLsb' 0 4) f.d f.srcA)))
  | 1 => modOk (m == 0) (opndOk (f.unused false true false false false true && f.ext.extractLsb' 4 4 == 0)
      (.ok (.barw h (f.ext.extractLsb' 0 4) f.srcA)))
  | 2 => modOk (m.toNat < 2) (opndOk (f.unused false true true true true false)
      (.ok (.carve h (bitAt m 0) f.srcA f.srcB f.srcC f.second)))
  | 3 => modOk (m.toNat < 2) (opndOk (x.b == 0 && !x.kb && x.ext == 0)
      (opndSome (predOf x.d) fun d => .ok (.cpyk h (bitAt m 0) d x.ec (srcOf x.ka x.a))))
  | 4 => modOk (mHi m == 0 && mLo m != 3) (opndSome g.memArg fun a =>
      match (mLo m).toNat with
      | 0 => .ok (.presGet h g.d a)
      | 1 => opndOk (g.d == 0) (.ok (.presHold h a))
      | _ => opndOk (g.d == 0) (.ok (.presRelease h a)))
  | _ => .error .reservedOpcode

def decodeRow11 (col : Nat) (m : BitVec 4) (h : Hdr) (w : BitVec 47) : Dec :=
  let f := F0.unpack w
  let x := FX.unpack w
  let g := FM.unpack w
  match col with
  | 0 => modOk (m == 0) (opndOk (f.unused true true false false false false)
      (opndSome (tileOf f.d) fun t => .ok (.tcfg h t f.srcA)))
  | 1 => modOk (m == 0) (opndOk (g.am == 0 && g.iw == 0 && !g.sg && g.sc == 0)
      (opndSome (tileOf g.d) fun t => .ok (.tld h t g.sp (srcOf g.ka g.a) g.off g.b)))
  | 2 => modOk (m == 0) (opndOk (g.am == 0 && g.iw == 0 && !g.sg && g.sc == 0)
      (opndSome (tileOf g.d) fun t => .ok (.tst h t g.sp (srcOf g.ka g.a) g.off g.b)))
  | 3 => modOk (m == 0) (opndOk (f.unused true false false false false false)
      (opndSome (tileOf f.d) fun t => .ok (.tzero h t)))
  | 4 => modOk (m == 0) (opndOk x.matOk (.ok (.mmt h x.d x.matArg)))
  | 5 => modOk (m == 0) (opndOk x.matOk (.ok (.mmtC h x.d x.matArg)))
  | 6 => modOk (m == 0) (opndOk (x.a == 0 && !x.ka && x.b == 0 && !x.kb && x.ec == 0 && x.ext.extractLsb' 3 16 == 0)
      (.ok (.mmts h x.d (x.ext.extractLsb' 0 3))))
  | 7 => modOk (m == 0) (opndOk x.matOk (.ok (.tbnd h x.d x.matArg)))
  | 8 => modOk (m.toNat < 2) (opndOk x.matOk (.ok (.lease h (bitAt m 0) x.d x.matArg)))
  | 9 => modOk (m == 0) (opndOk (w == 0) (.ok (.lrel h)))
  | _ => .error .reservedOpcode

def decodeRow12 (col : Nat) (m : BitVec 4) (h : Hdr) (w : BitVec 47) : Dec :=
  let x := FX.unpack w
  match col with
  | 0 => modOk (m.toNat < 2) (opndOk (x.b == 0 && !x.kb && x.ec == 0 && x.ext.extractLsb' 3 16 == 0)
      (opndSome (predOf x.d) fun d => .ok (.lnch h (bitAt m 0) d (x.ext.extractLsb' 0 3) (srcOf x.ka x.a))))
  | _ => .error .reservedOpcode

def decodeRow13 (col : Nat) (m : BitVec 4) (h : Hdr) (w : BitVec 47) : Dec :=
  let f := F0.unpack w
  let x := FX.unpack w
  let g := F1.unpack w
  match col with
  | 0 => modOk (m == 0) (opndOk (g.d == 0 && g.a == 0) (.ok (.trap h g.imm)))
  | 1 => modOk (m == 0) (opndOk (g.d == 0) (.ok (.sysc h g.a g.imm)))
  | 2 => modOk (m.toNat < 2) (opndOk (f.unused false true true false false false)
      (if bitAt m 0 then .ok (.eretRemove h f.srcA f.srcB) else .ok (.eretResume h f.srcA f.srcB)))
  | 3 => modOk (m.toNat < 3)
      (match m.toNat with
       | 0 => opndOk (f.unused false true true false false false) (.ok (.tlbiVa h f.srcA f.srcB))
       | 1 => opndOk (f.unused false false true false false false) (.ok (.tlbiCtx h f.srcB))
       | _ => opndOk (f.unused false false false false false false) (.ok (.tlbiAll h)))
  | 4 => modOk (m == 0) (opndOk (w == 0) (.ok (.fenceI h)))
  | 5 => modOk (m == 0) (opndOk (f.unused false true true false false false && !f.ua && !f.ub) (.ok (.ctxsw h f.a f.b)))
  | 6 => modOk (m == 0) (opndOk (f.unused false true true false false false && !f.ua && !f.ub) (.ok (.migr h f.a f.b)))
  | 7 => modOk (m == 0) (opndOk (w == 0) (.ok (.wfi h)))
  | 8 => modOk (m.toNat < 2) (opndOk (x.ec == 0 && x.ext == 0)
      (.ok (.mset h (bitAt m 0) x.d (srcOf x.ka x.a) (srcOf x.kb x.b))))
  | 9 => modOk (m == 0) (opndOk (w == 0) (.ok (.msclr h)))
  | 10 => modOk (!m70 m) (modSome (hselOf (mLo3 m)) fun s =>
      opndOk (f.unused true false false false false false) (.ok (.hchk h s f.d)))
  | _ => .error .reservedOpcode

/-- The instruction of a word before the register-number checks of Instr.wf. -/
def decodeRaw (r : Raw) : Dec :=
  let col := r.op.toNat % 16
  match r.op.toNat / 16 with
  | 0x00 => decodeRow00 col r.m r.h r.body
  | 0x01 => decodeRow01 col r.m r.h r.body
  | 0x02 => decodeRow02 col r.m r.h r.body
  | 0x03 => decodeRow03 col r.m r.h r.body
  | 0x04 => decodeRow04 col r.m r.h r.body
  | 0x05 => decodeRow05 col r.m r.h r.body
  | 0x06 => decodeRow06 col r.m r.h r.body
  | 0x07 => decodeRow07 col r.m r.h r.body
  | 0x08 => decodeRow08 col r.m r.h r.body
  | 0x09 => decodeRow09 col r.m r.h r.body
  | 0x0A => decodeRow0A col r.m r.h r.body
  | 0x0C => decodeRow0C col r.m r.h r.body
  | 0x0D => decodeRow0D col r.m r.h r.body
  | 0x0E => decodeRow0E col r.m r.h r.body
  | 0x0F => decodeRow0F col r.m r.h r.body
  | 0x10 => decodeRow10 col r.m r.h r.body
  | 0x11 => decodeRow11 col r.m r.h r.body
  | 0x12 => decodeRow12 col r.m r.h r.body
  | 0x13 => decodeRow13 col r.m r.h r.body
  | _ => .error .reservedOpcode

/-- The instruction of an 80-bit word, or the encoding cause it traps with (R14, R72 to R75). -/
def decode (w : IWord) : Except DecodeError Instr :=
  match decodeRaw (Raw.unpack w) with
  | .ok i => if i.wf then .ok i else .error .reservedOperand
  | .error e => .error e

/-- The word held by 10 bytes, byte 0 first (R61). Missing bytes read 0. -/
def wordOfBytes (l : List Byte) : IWord :=
  (List.range 10).foldl (fun w i => w ||| ((l.getD i 0).zeroExtend 80 <<< (8 * i))) 0

/-- The 10 bytes of a word, byte i holding bits [8i+7:8i] (R61). -/
def bytesOfWord (w : IWord) : List Byte := (List.range 10).map fun i => w.extractLsb' (8 * i) 8

/-- The instruction the decoder reads from the bytes of an instruction whose bits are w. -/
def decodeTableWord (_nbits w : Nat) : Option Instr :=
  match decode (wordOfBytes (bytesOfWord (BitVec.ofNat 80 w))) with
  | .ok i => some i
  | .error _ => none

/-! The encoder. -/

/-- The word of opcode row and column, modifier, header and body. -/
def mkWord (op : Nat) (m : BitVec 4) (h : Hdr) (body : BitVec 47) : Option IWord :=
  some (Raw.pack { op := BitVec.ofNat 9 op, m := m, h := h, body := body })

def F0.sec (f : F0) (p : Option (BitVec 3)) : F0 :=
  match p with
  | some q => { f with pv := true, pq := q }
  | none => f

/-- F0 bodies: one, two and three sources. -/
def f0a (d : BitVec 8) (a : Src) : F0 := { d := d, a := a.reg, ua := a.cls }
def f0ab (d : BitVec 8) (a b : Src) : F0 := { d := d, a := a.reg, ua := a.cls, b := b.reg, ub := b.cls }
def f0abc (d : BitVec 8) (a b c : Src) : F0 :=
  { d := d, a := a.reg, ua := a.cls, b := b.reg, ub := b.cls, c := c.reg, uc := c.cls }
def f1 (d a : BitVec 8) (imm : BitVec 31) : BitVec 47 := F1.pack { d := d, a := a, imm := imm }
def f2 (d : BitVec 8) (imm : BitVec 39) : BitVec 47 := F2.pack { d := d, imm := imm }

/-- Modifiers: saturation and type (R73), a flag in bit 67, type and pair (R144). -/
def mSat (sat : Bool) (ty : IntTy) : BitVec 4 := BitVec.ofBool sat ++ (0 : BitVec 1) ++ ty.code
def mTy (ty : IntTy) : BitVec 4 := (0 : BitVec 2) ++ ty.code
def mRm (rm : Rm) : BitVec 4 := (0 : BitVec 2) ++ rm.code
def mFlag (b : Bool) : BitVec 4 := (0 : BitVec 3) ++ BitVec.ofBool b
def mPack (p : Pack) (uns sat : Bool) : BitVec 4 := BitVec.ofBool sat ++ BitVec.ofBool uns ++ p.code
def mMem (ty : MemTy) (pair : Bool) : BitVec 4 := BitVec.ofBool pair ++ ty.code
def mTwo (hi lo : BitVec 2) : BitVec 4 := hi ++ lo

/-- The word of an instruction (R63 to R75); none for an event row. -/
def encode : Instr → Option IWord
  | .nop h => mkWord 0x001 0 h (F0.pack {})
  | .mov h kd ty d a => mkWord 0x002 ((0 : BitVec 1) ++ BitVec.ofBool kd ++ ty.code) h (f0a d a).pack
  | .movi h kd ty d imm => mkWord 0x003 ((0 : BitVec 1) ++ BitVec.ofBool kd ++ ty.code) h (f2 d imm)
  | .srd h pair d idx => mkWord 0x004 (mFlag pair) h (F0.pack { d := d, ext := idx })
  | .swr h idx a => mkWord 0x005 0 h ({ f0a 0 a with ext := idx } : F0).pack
  | .leaF0 h d base b iw sg sc pq => mkWord 0x006 0 h
      (F0.sec { d := d, a := base.reg, ua := base.cls, b := b, ext := (0 : BitVec 2) ++ BitVec.ofBool sg ++ iw ++ sc } pq).pack
  | .leaF1 h d a imm => mkWord 0x007 0 h (f1 d a imm)
  | .isel h ty d a b c => mkWord 0x008 (mTy ty) h ({ f0ab d a b with c := predField c } : F0).pack
  | .pcomb h d a b c fn => mkWord 0x009 0 h
      (F0.pack { d := predField d, a := predField a, b := predField b, c := predField c, ext := fn })
  | .yield h => mkWord 0x00A 0 h (F0.pack {})
  | .iaddF0 h ty sat d a b pq => mkWord 0x010 (mSat sat ty) h ((f0ab d a b).sec pq).pack
  | .iaddF1 h ty sat d a imm => mkWord 0x020 (mSat sat ty) h (f1 d a imm)
  | .isubF0 h ty sat d a b pq => mkWord 0x011 (mSat sat ty) h ((f0ab d a b).sec pq).pack
  | .isubF1 h ty sat d a imm => mkWord 0x021 (mSat sat ty) h (f1 d a imm)
  | .imulF0 h ty sat d a b pq => mkWord 0x012 (mSat sat ty) h ((f0ab d a b).sec pq).pack
  | .imulF1 h ty sat d a imm => mkWord 0x022 (mSat sat ty) h (f1 d a imm)
  | .imulhF0 h ty d a b => mkWord 0x013 (mTy ty) h (f0ab d a b).pack
  | .imulhF1 h ty d a imm => mkWord 0x023 (mTy ty) h (f1 d a imm)
  | .imad h ty sat d a b c pq => mkWord 0x014 (mSat sat ty) h ((f0abc d a b c).sec pq).pack
  | .iminF0 h ty d a b => mkWord 0x015 (mTy ty) h (f0ab d a b).pack
  | .iminF1 h ty d a imm => mkWord 0x025 (mTy ty) h (f1 d a imm)
  | .imaxF0 h ty d a b => mkWord 0x016 (mTy ty) h (f0ab d a b).pack
  | .imaxF1 h ty d a imm => mkWord 0x026 (mTy ty) h (f1 d a imm)
  | .iabs h wide sat d a pq => mkWord 0x017 (mSat sat (if wide then .s64 else .s32)) h ((f0a d a).sec pq).pack
  | .isad h ty sat d a b c pq => mkWord 0x018 (mSat sat ty) h ((f0abc d a b c).sec pq).pack
  | .icmpF0 h cond ty d a b pq => mkWord 0x019 (mTwo cond.code ty.code) h ((f0ab (predField d) a b).sec pq).pack
  | .icmpF1 h cond ty d a imm => mkWord 0x029 (mTwo cond.code ty.code) h (f1 (predField d) a imm)
  | .andF0 h ty d a b => mkWord 0x030 (mTy ty) h (f0ab d a b).pack
  | .andF1 h ty d a imm => mkWord 0x040 (mTy ty) h (f1 d a imm)
  | .orF0 h ty d a b => mkWord 0x031 (mTy ty) h (f0ab d a b).pack
  | .orF1 h ty d a imm => mkWord 0x041 (mTy ty) h (f1 d a imm)
  | .xorF0 h ty d a b => mkWord 0x032 (mTy ty) h (f0ab d a b).pack
  | .xorF1 h ty d a imm => mkWord 0x042 (mTy ty) h (f1 d a imm)
  | .andnF0 h ty d a b => mkWord 0x033 (mTy ty) h (f0ab d a b).pack
  | .andnF1 h ty d a imm => mkWord 0x043 (mTy ty) h (f1 d a imm)
  | .not h ty d a => mkWord 0x034 (mTy ty) h (f0a d a).pack
  | .shlF0 h ty d a b => mkWord 0x035 (mTy ty) h (f0ab d a b).pack
  | .shlF1 h ty d a imm => mkWord 0x045 (mTy ty) h (f1 d a imm)
  | .shrF0 h ty d a b => mkWord 0x036 (mTy ty) h (f0ab d a b).pack
  | .shrF1 h ty d a imm => mkWord 0x046 (mTy ty) h (f1 d a imm)
  | .sarF0 h ty d a b => mkWord 0x037 (mTy ty) h (f0ab d a b).pack
  | .sarF1 h ty d a imm => mkWord 0x047 (mTy ty) h (f1 d a imm)
  | .rolF0 h ty d a b => mkWord 0x038 (mTy ty) h (f0ab d a b).pack
  | .rolF1 h ty d a imm => mkWord 0x048 (mTy ty) h (f1 d a imm)
  | .fshlF0 h ty d a b c => mkWord 0x039 (mTy ty) h (f0abc d a b c).pack
  | .fshlF1 h ty d a amt => mkWord 0x049 (mTy ty) h (f1 d a ((0 : BitVec 23) ++ amt))
  | .clz h ty d a => mkWord 0x03A (mTy ty) h (f0a d a).pack
  | .popc h ty d a => mkWord 0x03B (mTy ty) h (f0a d a).pack
  | .brev h ty d a => mkWord 0x03C (mTy ty) h (f0a d a).pack
  | .bfxF0 h ty d a b => mkWord 0x03D (mTy ty) h (f0ab d a b).pack
  | .bfxF1 h ty d a pos len => mkWord 0x04D (mTy ty) h (f1 d a ((0 : BitVec 15) ++ len ++ pos))
  | .bfiF0 h ty d a b c => mkWord 0x03E (mTy ty) h (f0abc d a b c).pack
  | .bfiF1 h ty d a pos len => mkWord 0x04E (mTy ty) h (f1 d a ((0 : BitVec 15) ++ len ++ pos))
  | .bselF0 h d a b c => mkWord 0x03F 0 h (f0abc d a b c).pack
  | .bselF1 h d a sel => mkWord 0x04F 0 h (f1 d a sel)
  | .vadd h pk uns sat d a b => mkWord 0x050 (mPack pk uns sat) h (f0ab d a b).pack
  | .vsub h pk uns sat d a b => mkWord 0x051 (mPack pk uns sat) h (f0ab d a b).pack
  | .vmin h pk uns d a b => mkWord 0x052 (mPack pk uns false) h (f0ab d a b).pack
  | .vmax h pk uns d a b => mkWord 0x053 (mPack pk uns false) h (f0ab d a b).pack
  | .vshl h pk uns sat d a b => mkWord 0x054 (mPack pk uns sat) h (f0ab d a b).pack
  | .fadd h rm d a b => mkWord 0x060 (mRm rm) h (f0ab d a b).pack
  | .fsub h rm d a b => mkWord 0x061 (mRm rm) h (f0ab d a b).pack
  | .fmul h rm d a b => mkWord 0x062 (mRm rm) h (f0ab d a b).pack
  | .fma h rm d a b c => mkWord 0x063 (mRm rm) h (f0abc d a b c).pack
  | .fmin h d a b => mkWord 0x064 0 h (f0ab d a b).pack
  | .fmax h d a b => mkWord 0x065 0 h (f0ab d a b).pack
  | .fabs h d a => mkWord 0x066 0 h (f0a d a).pack
  | .fneg h d a => mkWord 0x067 0 h (f0a d a).pack
  | .fcmp h cond d a b pq => mkWord 0x068 ((0 : BitVec 1) ++ cond.code) h ((f0ab (predField d) a b).sec pq).pack
  | .pkfma h rm d a b c => mkWord 0x069 (mRm rm) h (f0abc d a b c).pack
  | .pkadd h rm d a b => mkWord 0x06A (mRm rm) h (f0ab d a b).pack
  | .frcp h rm d a => mkWord 0x070 (mRm rm) h (f0a d a).pack
  | .frsq h rm d a => mkWord 0x071 (mRm rm) h (f0a d a).pack
  | .fexp2 h rm d a => mkWord 0x072 (mRm rm) h (f0a d a).pack
  | .flog2 h rm d a => mkWord 0x073 (mRm rm) h (f0a d a).pack
  | .fsin h rm d a => mkWord 0x074 (mRm rm) h (f0a d a).pack
  | .fcos h rm d a => mkWord 0x075 (mRm rm) h (f0a d a).pack
  | .ftanh h rm d a => mkWord 0x076 (mRm rm) h (f0a d a).pack
  | .cvt h rm dst src d a pq => mkWord 0x080 (mRm rm) h
      (F0.sec { f0a d a with ext := dst.code ++ src.code } pq).pack
  | .qntElement h d a b pq => mkWord 0x081 0 h ((f0ab d a b).sec pq).pack
  | .qntScale h d a b pq => mkWord 0x081 1 h ((f0ab d a b).sec pq).pack
  | .dqnt h dst rm d a b i => mkWord 0x082 (mTwo dst.code rm.code) h
      ({ f0ab d a b with ext := (0 : BitVec 5) ++ i } : F0).pack
  | .trcd h fmt nib d a b c => mkWord 0x083 0 h
      ({ f0abc d a b c with ext := (0 : BitVec 1) ++ BitVec.ofBool nib ++ fmt.code } : F0).pack
  | .bra h off => mkWord 0x090 0 h (f2 0 off)
  | .brx h a => mkWord 0x091 0 h (f0a 0 a).pack
  | .call h d off => mkWord 0x092 0 h (f2 d off)
  | .ret h a => mkWord 0x093 0 h (f0a 0 a).pack
  | .exit h => mkWord 0x094 0 h (F0.pack {})
  | .rcvSet h n off => mkWord 0x095 0 h (f2 n off)
  | .rcvWait h n => mkWord 0x096 0 h (F0.pack { a := n })
  | .vote h mode cnt d neg a => mkWord 0x0A0 ((0 : BitVec 1) ++ BitVec.ofBool cnt ++ mode.code) h
      (F0.pack { d := d, a := predField a, ext := (0 : BitVec 7) ++ BitVec.ofBool neg })
  | .xlane h mode pair d a b pq => mkWord 0x0A1 (mode.code ++ (0 : BitVec 1) ++ BitVec.ofBool pair) h
      ((f0ab d (.g a) b).sec pq).pack
  | .redx h op rm ty d a => mkWord 0x0A2 (mTwo op.code rm.code) h
      (F0.pack { d := d, a := a, ext := (0 : BitVec 6) ++ ty.code })
  | .ld h ty pair d m => mkWord 0x0C0 (mMem ty pair) h (m.fields d).pack
  | .st h ty pair d m => mkWord 0x0C1 (mMem ty pair) h (m.fields d).pack
  | .ldx h sz d m => mkWord 0x0C2 (mTwo 0 sz.code) h (m.fields d).pack
  | .stx h sz d m => mkWord 0x0C3 (mTwo 0 sz.code) h (m.fields d).pack
  | .ldb h ty pair d m => mkWord 0x0C4 (mMem ty pair) h (m.fields d).pack
  | .stb h ty pair d m => mkWord 0x0C5 (mMem ty pair) h (m.fields d).pack
  | .ldk h ty d m => mkWord 0x0C6 (mMem ty false) h (m.fields d).pack
  | .pref h kind m => mkWord 0x0C7 (mTwo 0 kind.code) h (m.fields 0).pack
  | .tags h len z m => mkWord 0x0C8 ((0 : BitVec 1) ++ BitVec.ofBool z ++ len.code) h (m.fields 0).pack
  | .tagg h d m => mkWord 0x0C9 0 h (m.fields d).pack
  | .atom h op ty d m => mkWord 0x0D0 (mTy ty) h (m.fields d op.code).pack
  | .red h op ty d m => mkWord 0x0D1 (mTy ty) h (m.fields d op.code).pack
  | .cadd h d m => mkWord 0x0E0 0 h (m.fields d).pack
  | .caddt h d m => mkWord 0x0E1 0 h (m.fields d).pack
  | .cwait h d m => mkWord 0x0E2 0 h (m.fields d).pack
  | .cpoll h p d m => mkWord 0x0E3 ((0 : BitVec 1) ++ p) h (m.fields d).pack
  | .alinit h d m => mkWord 0x0F0 0 h (m.fields d).pack
  | .altake h d m => mkWord 0x0F1 0 h (m.fields d 0).pack
  | .altakeT h pq d m => mkWord 0x0F1 1 h (m.fields d pq).pack
  | .altakeW h d m => mkWord 0x0F1 2 h (m.fields d 0).pack
  | .algive h d m => mkWord 0x0F2 0 h (m.fields d).pack
  | .alread h d m => mkWord 0x0F3 0 h (m.fields d).pack
  | .alpeek h d m => mkWord 0x0F4 0 h (m.fields d).pack
  | .bara h one r n d a => mkWord 0x100 ((0 : BitVec 2) ++ BitVec.ofBool one ++ BitVec.ofBool r) h
      ({ f0a d a with ext := (0 : BitVec 4) ++ n } : F0).pack
  | .barw h n a => mkWord 0x101 0 h ({ f0a 0 a with ext := (0 : BitVec 4) ++ n } : F0).pack
  | .carve h t a b c pq => mkWord 0x102 (mFlag t) h ((f0abc 0 a b c).sec pq).pack
  | .cpyk h t d ec a => mkWord 0x103 (mFlag t) h
      (FX.pack { d := predField d, a := a.reg, ka := a.cls, ec := ec })
  | .presGet h d m => mkWord 0x104 0 h (m.fields d).pack
  | .presHold h m => mkWord 0x104 1 h (m.fields 0).pack
  | .presRelease h m => mkWord 0x104 2 h (m.fields 0).pack
  | .tcfg h t a => mkWord 0x110 0 h (f0a (tileField t) a).pack
  | .tld h t scratch base off p => mkWord 0x111 0 h
      (FM.pack { d := tileField t, a := base.reg, b := p, sp := scratch, ka := base.cls, off := off })
  | .tst h t scratch base off p => mkWord 0x112 0 h
      (FM.pack { d := tileField t, a := base.reg, b := p, sp := scratch, ka := base.cls, off := off })
  | .tzero h t => mkWord 0x113 0 h (F0.pack { d := tileField t })
  | .mmt h d m => mkWord 0x114 0 h (m.fields d).pack
  | .mmtC h d m => mkWord 0x115 0 h (m.fields d).pack
  | .mmts h d n => mkWord 0x116 0 h (FX.pack { d := d, ext := (0 : BitVec 16) ++ n })
  | .tbnd h d m => mkWord 0x117 0 h (m.fields d).pack
  | .lease h t d m => mkWord 0x118 (mFlag t) h (m.fields d).pack
  | .lrel h => mkWord 0x119 0 h 0
  | .lnch h t d q a => mkWord 0x120 (mFlag t) h
      (FX.pack { d := predField d, a := a.reg, ka := a.cls, ext := (0 : BitVec 16) ++ q })
  | .trap h imm => mkWord 0x130 0 h (f1 0 0 imm)
  | .sysc h a imm => mkWord 0x131 0 h (f1 0 a imm)
  | .eretResume h a b => mkWord 0x132 0 h (f0ab 0 a b).pack
  | .eretRemove h a b => mkWord 0x132 1 h (f0ab 0 a b).pack
  | .tlbiVa h a b => mkWord 0x133 0 h (f0ab 0 a b).pack
  | .tlbiCtx h b => mkWord 0x133 1 h (f0ab 0 (.g 0) b).pack
  | .tlbiAll h => mkWord 0x133 2 h (F0.pack {})
  | .fenceI h => mkWord 0x134 0 h (F0.pack {})
  | .ctxsw h a b => mkWord 0x135 0 h (F0.pack { a := a, b := b })
  | .migr h a b => mkWord 0x136 0 h (F0.pack { a := a, b := b })
  | .wfi h => mkWord 0x137 0 h (F0.pack {})
  | .mset h t d a b => mkWord 0x138 (mFlag t) h
      (FX.pack { d := d, a := a.reg, ka := a.cls, b := b.reg, kb := b.cls })
  | .msclr h => mkWord 0x139 0 h (F0.pack {})
  | .hchk h sel d => mkWord 0x13A ((0 : BitVec 1) ++ sel.code) h (F0.pack { d := d })
  | .growQueueGrant .. | .carveOutDeadlock .. | .wfiTimeout .. | .bundleFormation .. | .resultDelivery ..
  | .untaggedResultWrite .. | .trapRecordWrite .. | .waiterPeriodicRead .. | .waiterPushRead ..
  | .copyElement .. | .backReferenceToken .. | .arrivalAddition .. | .retire .. | .engineContextRestart ..
  | .engineContextCancel .. | .leaseRequest .. | .leaseGrant .. | .leaseExpiry .. | .fold ..
  | .matrixDelivery .. | .operationStop .. | .matrixCancel .. | .lightMeterReading .. | .passCountFall ..
  | .bankSwitch .. | .bankSwitchSlice .. | .preEmption .. | .imageSpill .. | .imageLoad ..
  | .barrierEntryFree .. | .barrierEntryFill .. | .barrierCountWrite .. | .barrierKeyWrite ..
  | .spillMaskWrite .. | .teamStop .. | .teamDeparture .. | .coreModeWrite .. | .contextCreate ..
  | .contextRetire .. | .queueOpen .. | .blockTake | .blockRefusal .. | .clusterPlacement ..
  | .gridCompletion .. | .poolWrite .. | .shareWrite .. | .placementFreeze .. | .registerWrite ..
  | .pageWalk .. | .l1Fill .. | .l1Invalidation .. | .invalidationReport .. | .observationWindow ..
  | .pageMove .. | .sensorReading .. | .relocationStop .. | .relocationCommit .. | .forwardedWrite ..
  | .coreStateLoss .. | .unitSparing .. | .allowanceTakeRequest | .allowanceHomeGive | .allowanceReply ..
  | .recallAnswer .. | .powerFail | .saveSequence .. | .powerOn | .reserveArmed | .dataRestore ..
  | .teamRestore .. | .vaultRelease | .hostMemRead .. | .hostMemWrite .. | .watchArm .. | .bootStageAdmit ..
  | .measurementExtend .. | .attestationRequest .. | .firmwareStaging .. | .telemetrySample ..
  | .rackTimeSet .. | .tokenReceipt .. | .tokenTick | .fabricWindowEnable .. | .reductionWindowEnable ..
  | .fabricRequestReceive .. | .fabricResponse .. | .fabricTimeout .. | .stationDown .. | .l2WriteBack ..
  | .stationUp .. | .instructionFetch .. => none

end Sys2Proof
end

