-- ==== Sys2Proof/Machine/State.lean ====
section
/-! DEFINITION. The state of the CX-2 package as plain data: threads, groups, teams, cores, the memory system, contexts,
engines, power, scheduler, hold-up reserve, host and fabric; the reasons a step can stop; and the state after reset. -/

namespace Sys2Proof.Machine

/-! ## Registers, results and hazards (R11 to R28, R76 to R86) -/

/-- A register or predicate an instruction reads or writes (R12). -/
inductive RName where
  | g (n : Nat)
  | p (n : Nat)
  | k (n : Nat)
  deriving DecidableEq, Repr

/-- One register write of a result. -/
inductive RWrite where
  | g (n : Nat) (v : Word)
  | p (n : Nat) (v : Bool)
  | k (n : Nat) (v : DWord)
  deriving DecidableEq, Repr

/-- An outstanding scoreboard tag (R16, R78): its destination set, the result it holds, whether it was delivered, the
instruction that allocated it, the cause and address found after issue (R321, R386), and for a matrix tag its
operation's number. -/
structure TagState where
  dests : List RName
  held : List RWrite
  delivered : Bool
  pc : VAddr
  bad : Option (Nat × Nat)
  op : Option Nat
  deriving DecidableEq, Repr

/-- An open window (R76, R77): the destination set, the untagged result, the instructions left, and whether the result
has been written. -/
structure Window where
  dests : List RName
  held : List RWrite
  left : Nat
  written : Bool
  deriving DecidableEq, Repr

/-- A registered CWAIT (R184, R185): the word, the target, the latest cycle of the next read event, and whether a push
made it due. -/
structure Waiter where
  scratch : Bool
  addr : Nat
  tag : BitVec 4
  target : DWord
  next : Nat
  pushed : Bool
  deriving DecidableEq, Repr

/-- Why a thread is parked (R158 item 2). grant is the elected thread of an MMT, parked from the MMT's issue until its operation's
first grant (R227); lease a waiting LEASE. -/
inductive Park where
  | rcv (n : Nat)
  | barw (n : Nat) (target : DWord)
  | carve
  | cwait (w : Waiter)
  | altake
  | lease
  | grant
  | wfi (since : Nat)
  deriving DecidableEq, Repr

/-- Why a thread is held not ready (R158 item 4). Whether a hold has ended is computed from the rest of the state: the
walks of its pages, the invalidation rounds of its units, free entries of an engine context, its core's allowance
bundle, pinned translations, unanswered fabric requests, the result of another lane of the team's LEASE (R85). -/
inductive Hold where
  | xlat (ctx : Nat) (pages : List Nat)
  | home (units : List Nat)
  | engine (ec n : Nat)
  | allowance
  | tlbi (ctx : Option Nat) (va : Option Nat)
  | fabric (ids : List Nat)
  | result (group lane : Nat)
  deriving DecidableEq, Repr

/-- How the bytes of a load become register writes (R144, R146, R147, R152). -/
inductive LoadShape where
  | scalar (ty : MemTy) (pair : Bool) (d : Nat)
  | uniform (ty : MemTy) (d : Nat)
  | tuple (d n : Nat)
  deriving DecidableEq, Repr

/-- A thread (R12, R25). p7 is not stored: it reads true (R14). fabWrites are its fabric writes without an answer, fabBad
the cause and address of one that failed, fabDone the answer of the fabric access it waits for (R386), awaits the destination
set of the word that it waits at for the answer of its fabric access or of home (R83, R85), lost the registers and predicates
whose values an uncorrectable error has destroyed (R322). -/
structure Thread where
  regs : List Word
  preds : List Bool
  pc : VAddr
  fmt : Word
  tags : List (Option TagState)
  windows : List Window
  exited : Bool
  park : Option Park
  hold : Option Hold
  lastIssue : Nat
  yielded : Bool
  clock : Nat
  fence : Nat
  fabWrites : List Nat
  fabBad : Option (Nat × Nat)
  fabDone : List (Nat × List Byte)
  awaits : List RName
  lost : List RName
  deriving DecidableEq, Repr

/-- A reconvergence barrier (R125): join address, member lanes, arrived lanes. -/
structure Rcv where
  join : VAddr
  members : BitVec 64
  arrived : BitVec 64
  deriving DecidableEq, Repr

/-- An explicit current lease (R228, R251): what remains of it and the cycle it expires. -/
structure ExpLease where
  left : Nat
  expiry : Nat
  deriving DecidableEq, Repr

/-- A group (R15, R125, R154); lost are its k registers whose values an uncorrectable error has destroyed (R322). -/
structure Group where
  slot : Nat
  k : List DWord
  lost : List Nat
  rcv : List Rcv
  lease : Option ExpLease
  waitLine : Option Nat
  threads : List Thread
  deriving DecidableEq, Repr

/-- State of a scratchpad line (R180, R263): pending count, hold flag, time stamps. -/
structure Line where
  pending : Nat
  held : Bool
  wts : Nat
  rts : Nat
  deriving DecidableEq, Repr

/-- A team halt in progress or complete (R27, R169, R308): the recorded cause, address and extra value, the cycle of the
fault, the faulting thread (none for a team stop), its recorded PC, per group the skid count and whether it has
stopped, the matrix operation and tag of a matrix record, the operation's progress once it has stopped, the halt entry, and
whether the record is written. -/
structure Halt where
  cause : Nat
  addr : Nat
  extra : Nat
  cf : Nat
  who : Option (Nat × Nat)
  pc : VAddr
  skids : List Nat
  stops : List Bool
  mx : Option (Nat × Nat)
  mxp : Nat := 0
  entry : Option Nat
  recorded : Bool
  deriving DecidableEq, Repr

/-- A CARVE rendezvous (R162): the values of the first arrival, whether an arrival was waiting or trying, the arrivals in
order (group, lane, pq), the first thread whose values differ, and whether the request stands in the grow queue. -/
structure Rendezvous where
  n : Nat
  bytes : Nat
  l1 : Nat
  trying : Bool
  arrivals : List (Nat × Nat × Option (BitVec 3))
  differs : Option (Nat × Nat)
  queued : Bool
  granting : Bool
  deriving DecidableEq, Repr

/-- A resident team (R155, R161, R339). id is its lowest thread slot number; lost are the scratchpad bytes that an uncorrectable
error has destroyed (R322). -/
structure Team where
  id : Nat
  bank : Nat
  desc : Nat
  ctx : Nat
  vtid : Nat
  sup : Bool
  grid : Nat
  index : Nat
  cluster : Nat
  cx : Nat
  cy : Nat
  nregs : Nat
  bytes : Nat
  l1 : Nat
  tiles : List Nat
  scratch : List (Nat × Byte)
  lost : List Nat
  lines : List (Nat × Line)
  spill : BitVec 16
  relocs : Nat
  groups : List Group
  halt : Option Halt
  carve : Option Rendezvous
  leaving : Bool
  stale : Bool
  deriving DecidableEq, Repr

/-! ## The core (R153 to R176, R187, R201, R216) -/

/-- A bank (R156, R163): the rotation of the round in progress as (team, group), the pointer, the teams that join at the
next round's start, and the grow queue. -/
structure Bank where
  rotation : List (Nat × Nat)
  pointer : Nat
  joining : List Nat
  grow : List Nat
  deriving DecidableEq, Repr

/-- A barrier table entry (R165, R168), with its time stamps, and whether the count and the key of a free entry have been
written since it became free. -/
structure BarEntry where
  valid : Bool
  ctx : Nat
  vtid : Nat
  number : Nat
  count : Nat
  wts : Nat
  rts : Nat
  counted : Bool
  keyed : Bool
  deriving DecidableEq, Repr

/-- One tile register (R201 to R204): control word; element codes by (row, column), unlisted 0; scale bytes by (row,
block), unlisted 0. A term tile holds each element as the code of its value in the tile's format. lost says that an
uncorrectable error has destroyed some of it (R322). -/
structure Tile where
  ctl : DWord
  elems : List (Nat × Nat)
  scales : List (Nat × Byte)
  lost : Bool := false
  deriving DecidableEq, Repr

/-- A page translation that a TLB holds (R305, R307): context, first byte of the page, page bytes, and the leaf. -/
structure Xlat where
  ctx : Nat
  va : Nat
  size : Nat
  leaf : DWord
  deriving DecidableEq, Repr

/-- Why a walk finds no translation (R305, R306, R321): an entry that is not valid, one that is malformed, or one whose bytes lie
in a lost granule. -/
inductive NoXlat where
  | invalid
  | malformed
  | lost
  deriving DecidableEq, Repr

/-- The answer of a walk that found no translation: context, page of 64 KiB, and why (R305). -/
structure BadWalk where
  ctx : Nat
  page : Nat
  why : NoXlat
  deriving DecidableEq, Repr

/-- A word of a fetched instruction line (R61, R62): the word, or the cause and address its fetch failed with. -/
inductive FetchWord where
  | word (w : IWord)
  | bad (cause addr : Nat)
  deriving DecidableEq, Repr

/-- A fetched instruction line (R61, R158): context, privilege, line number, the stamp and the cycle of its fetch, its 32 words. -/
structure ILine where
  ctx : Nat
  sup : Bool
  line : Nat
  stamp : Nat
  fetched : Nat
  words : List FetchWord
  deriving DecidableEq, Repr

/-- An L1 copy of a unit, or the fill that brings one (R177, R264): first byte, size, bytes, granule tags, time stamps,
whether it is leased (served only while the reader's clock is at most rts), and whether an invalidation met it. -/
structure L1Copy where
  base : Nat
  size : Nat
  data : List Byte
  tags : List (BitVec 4)
  wts : Nat
  rts : Nat
  leased : Bool
  dead : Bool
  deriving DecidableEq, Repr

/-- A copy of an allowance held by the core (R286): object (physical address), context, amount, and the parameters that
came with it. -/
structure Allowance where
  obj : Nat
  ctx : Nat
  amount : Nat
  maxc : Nat
  deriving DecidableEq, Repr

/-- What a home allowance request asks (R289 to R294). -/
inductive AlKind where
  | init (v minc maxc hlim : Nat)
  | take
  | takeT
  | takeW
  | give
  | read
  | peek
  deriving DecidableEq, Repr

/-- A home allowance request on its way: the requesting core, thread (with its team's virtual identifier) and context, the object
with its tagged virtual address and its page, n, the amount carried with its maxc, and the thread's clock. -/
structure AlReq where
  core : Nat
  team : Nat
  vtid : Nat
  group : Nat
  lane : Nat
  ctx : Nat
  obj : Nat
  va : Nat
  page : Xlat
  kind : AlKind
  n : Nat
  carried : Nat
  clock : Nat
  maxc : Nat := 0
  deriving DecidableEq, Repr

/-- Home's reply to a request (R289, R290, R293, R294): a grant with the parameters that come with it, a value with its
event's time, a failed take, a place in the waiter queue, or a cause with the amount that returns. -/
inductive AlReply where
  | done (grant : Nat) (maxc : Nat)
  | value (v clock : Nat)
  | failed
  | queued
  | cause (c : Nat) (back : Nat)
  deriving DecidableEq, Repr

/-- A lane of an allowance bundle that has acted: its results, its event's time, whether it waits in the queue. -/
structure AlDone where
  group : Nat
  lane : Nat
  writes : List RWrite
  clock : Nat
  parked : Bool
  deriving DecidableEq, Repr

/-- A copy operation accepted by an engine context (R187 to R197): its record, who kicked it, how far it has come, what it
delivered and counted, whether it was cancelled, the destination lines it is pending on, the source bytes that an
overlapping plain copy keeps (R193) or the bytes an expanding copy has produced (R200), the elements of .b4 blocks
written so far, and what it has outstanding on the fabric (R384): the request, the bytes fetched and the writes answered
for the element in progress, and a counter addition. -/
structure CopyOp where
  id : Nat
  record : List Byte
  team : Nat
  vtid : Nat
  group : Nat
  lane : Nat
  slot : Nat
  desc : Nat
  ctx : Nat
  teamIndex : Nat
  grid : Nat
  sup : Bool
  recoff : Nat
  peer : Option (Nat × Nat)
  pos : Nat
  srcPos : Nat
  delivered : Nat
  counted : Nat
  ended : Bool
  cancelled : Bool
  lines : List Nat
  saved : List (Nat × Byte)
  vals : List (Nat × Nat)
  fab : Option Nat
  fetched : List (Nat × List Byte)
  acked : List Nat
  adding : Option Nat
  clock : Nat
  deriving DecidableEq, Repr

/-- An engine context (R187, R197, R303); clock is the greatest time at which one of its operations has retired (R195). -/
structure Engine where
  queue : List CopyOp
  stopped : Option Nat
  retireStop : Bool
  cancels : Nat
  clock : Nat
  deriving DecidableEq, Repr

/-- The life of a matrix operation (R216, R226). -/
inductive OpState where
  | queued
  | leaseWait
  | running
  | stopping
  | stopped
  | faulted
  deriving DecidableEq, Repr

/-- One row of a running matrix operation (R54 to R57, R217): blocks done, the codes and scale bytes of the next block once
the array has read them (of the row's A elements, and of B by step and column), the accumulators after the blocks done (and
after earlier ones, for a stop), and the step costs found so far. -/
structure OpRow where
  done : Nat
  next : Option (List (Nat × Nat) × List (List (Nat × Nat)))
  history : List (List Word)
  costs : List Nat
  deriving DecidableEq, Repr

/-- A matrix operation of the term array (R211 to R226). words are the aligned words that the array has read for the k-blocks in
progress, by block and tagged address, each with the cycle of its read event (R210, R245); grid, cluster and wrank are the team's grid and cluster index and the core's rank; the cluster counter's leaf is
kept from the issue; began and base are the cycle at which the current run began and its first block (R218); since is the cycle
of the last replay, or of the run's begin (R245). -/
structure MatOp where
  id : Nat
  team : Nat
  vtid : Nat
  group : Nat
  lane : Nat
  tag : Nat
  desc : Nat
  ctx : Nat
  sup : Bool
  block : List Byte
  fw : Word
  start : List (List Word)
  rows : List OpRow
  p : Nat
  began : Nat
  base : Nat
  state : OpState
  target : Option Nat
  fault : Option (Nat × Nat)
  tileA : Option Tile
  tileB : Option Tile
  pins : List Xlat
  pinned : Bool
  demand : Nat
  drawn : Nat
  granted : Option (Nat × Nat)
  replays : Nat
  cancelOnly : Bool
  cancelled : Bool
  words : List (Nat × Nat × Nat × List Byte)
  grid : Nat
  cluster : Nat
  wrank : Nat
  ccnt : Option Xlat
  clock : Nat
  since : Nat
  deriving DecidableEq, Repr

/-- A bank switch or pre-emption in progress (R173, R176): the incoming context, and the cycle it was accepted. -/
structure Switch where
  ctx : Nat
  accepted : Nat
  deriving DecidableEq, Repr

/-- A bundle in the issue stage (R159): core, team, PC, port, cycle slot, and its threads as (group, lane) in lane order;
a fetch cause if its word could not be fetched (R62). -/
structure Bundle where
  core : Nat
  team : Nat
  group : Nat
  pc : VAddr
  slot : Nat
  members : List (Nat × Nat)
  fetch : FetchWord
  deriving DecidableEq, Repr

/-- An allowance bundle in progress on a core (R289): its word's header and destination set, its lanes still to act in
lane order, those that have acted, and whether the first of the rest waits for home. -/
structure AlBundle where
  h : Hdr
  b : Bundle
  dests : List RName
  lanes : List AlReq
  acted : List AlDone
  sent : Bool
  deriving DecidableEq, Repr

/-- A logical core. tilesKept are the tiles that spilled teams keep (R175). switch is a request that waits (R318), switching the switch or pre-emption that goes on. pass is the pass count
of the issue cycle that goes on (R248), slotClock the greatest time of an event of the bundle in the slot before (R140), past the
greatest clock of agents that have left the core (R261). -/
structure Core where
  twoCtx : Bool
  active : Nat
  banks : List Bank
  slotNo : Nat
  issued : List (Nat × Nat × Nat)
  switch : Option Nat
  switching : Option Switch
  teams : List Team
  bars : List BarEntry
  tiles : List Tile
  tilesKept : List Nat
  ops : List MatOp
  engines : List Engine
  tlb : List Xlat
  bad : List BadWalk
  ilines : List ILine
  l1 : List L1Copy
  fills : List L1Copy
  allow : List Allowance
  alops : List AlBundle
  errs : List Nat
  pass : Nat
  slotClock : Nat
  past : Nat
  mcKey : DWord
  deriving DecidableEq, Repr

/-! ## Contexts, queues and the control region (R302, R303, R329, R340, R353, R373) -/

/-- An admitted must-save entry (R354, R356): its 32 bytes, its charge, and for a team-state entry its team's virtual
identifier and length S. -/
structure SaveEntry where
  bytes : List Byte
  charge : Nat
  vtid : Nat
  size : Nat
  deriving DecidableEq, Repr

/-- A halt entry in use (R309, R315): its index, its team, and what ERET checks. -/
structure HaltEntry where
  idx : Nat
  core : Nat
  vtid : Nat
  cause : Nat
  pc : VAddr
  who : Option (Nat × Nat)
  deriving DecidableEq, Repr

/-- A trap record that waits to be written (R310): of a halted team, or of an engine context with its 64 bytes but for
the sequence number. -/
inductive PendRec where
  | team (core vtid : Nat)
  | engine (bytes : List Byte) (clock : Nat)
  deriving DecidableEq, Repr

/-- A context descriptor with the context's life (R302, R310, R341, R353, R354). -/
structure Ctx where
  valid : Bool
  sup : Bool
  id : Nat
  root : Nat
  tqbase : Nat
  tqsize : Nat
  tqprod : Nat
  tqcons : Nat
  hbase : Nat
  hcount : Nat
  imgbase : Nat
  seq : Nat
  vtids : Nat
  halts : List HaltEntry
  pending : List PendRec
  share : Nat
  cpri : Nat
  mset : Option (List SaveEntry)
  xword : DWord
  xtable : List Byte
  windowEnd : Nat
  deriving DecidableEq, Repr

/-- The head block of a queue (R334): its number, its 256 bytes, per wait entry whether it was seen met, the greatest time
stamp read, and per wait entry the waiter's next read and push. -/
structure Head where
  n : Nat
  bytes : List Byte
  met : List Bool
  clock : Nat
  next : List Nat
  pushed : List Bool
  deriving DecidableEq, Repr

/-- A launch queue (R329, R330). finished holds the finished blocks that the consumer counter has not counted, with the level of their
accesses (R334). opening: the read of its consumer counter waits for home. -/
structure Queue where
  valid : Bool
  dev : Bool
  qs : Bool
  qsize : Nat
  base : DWord
  prod : DWord
  cons : DWord
  refused : Nat
  rslot : Nat
  reason : Nat
  head : Option Head
  nextBlock : Nat
  produced : Nat
  finished : List (Nat × Bool)
  finishedTo : Nat
  next : Nat
  pushed : Bool
  opening : Bool := false
  deriving DecidableEq, Repr

/-- An interrupt watch (R373). -/
structure Watch where
  armed : Bool
  vector : Nat
  counter : Nat
  threshold : DWord
  next : Nat
  pushed : Bool
  deriving DecidableEq, Repr

/-- A site (R5, R327, R350): its value in the s.phys layout and its table entry; core is none for a spare site; spareCols are its
spare term columns (R223). -/
structure Site where
  v : Nat
  failed : Bool
  hot : Bool
  relocating : Bool
  pool : Nat
  temp : Nat
  core : Option Nat
  spareCols : Nat
  deriving DecidableEq, Repr

/-- A taken grid (R335, R336): number, context descriptor, queue, block number, slot pointer, its block, teams that have not
left, and the greatest clock of what its completion follows. -/
structure Grid where
  id : Nat
  desc : Nat
  queue : Nat
  n : Nat
  slot : DWord
  bytes : List Byte
  left : Nat
  clock : Nat
  deriving DecidableEq, Repr

/-- A request in a cluster's lease queue (R252): of a matrix operation or of a waiting LEASE. -/
inductive LeaseWho where
  | op (core id : Nat)
  | explicit (t : ThreadRef)
  deriving DecidableEq, Repr

/-- The request: its amount, the cycle of its event and the rank of its core, and the pool capacity and the explicit lifetime in
force then (R250). -/
structure LeaseReq where
  who : LeaseWho
  q : Nat
  at_ : Nat
  rank : Nat
  cap : Nat
  life : Nat
  deriving DecidableEq, Repr

/-- A cluster of a grid (R235, R236): grid, cluster index, and its cores by rank. -/
structure Carried where
  grid : Nat
  index : Nat
  ranks : List Nat
  deriving DecidableEq, Repr

/-- The power controller of a set of cores that carries clusters (R238, R247 to R254): the cores, the clusters, the latest
reading, sum and number of the readings since the last telemetry sample, pass count, cycle of the last change, since when readings stay below the down threshold, whether heat holds
the count at 4, and the lease queue. -/
structure Cluster where
  id : Nat
  cores : List Nat
  carries : List Carried
  pool : Nat
  reading : Nat
  sum : Nat
  readings : Nat
  q : Nat
  changed : Nat
  below : Option Nat
  heat : Bool
  queue : List LeaseReq
  deriving DecidableEq, Repr

/-- What an engine aims at a scratchpad (R180, R194, R195): bytes, an addition with its push, or the end of its
contribution to the pending counts of lines. -/
inductive Aimed where
  | write (off : Nat) (data : List Byte) (clock : Nat)
  | add (off amount clock : Nat)
  | lines (l : List Nat)
  deriving DecidableEq, Repr

/-- An item held in a forwarding entry (R348): the operation, the team by context and virtual identifier, its grid, and what is aimed
at it. -/
structure HeldItem where
  op : Nat
  ctx : Nat
  vtid : Nat
  grid : Nat
  what : Aimed
  deriving DecidableEq, Repr

/-- A relocation in progress (R346 to R348): core, named site, what asked for it (0 MIGR, 1 heat, 2 failure), target, step,
and the forwarding entry. -/
structure Reloc where
  core : Nat
  named : Option Nat
  trigger : Nat
  target : Option Nat
  step : Nat
  held : List HeldItem
  deriving DecidableEq, Repr

/-- What home keeps of a page (R260, R343): its first byte, size, owner core of a private page, class override, the read
time stamp a demotion gave every unit, accesses of the window by die and of the last window, writes of the window by core,
calm windows, and the contexts and addresses that it was seen under, the latest first. -/
structure PageRec where
  base : Nat
  size : Nat
  owner : Option Nat
  cls : Option (BitVec 2)
  floor : Nat
  acc0 : Nat
  acc1 : Nat
  last0 : Nat
  last1 : Nat
  writers : List (Nat × Nat)
  calm : Nat
  mapped : List (Nat × Nat)
  deriving DecidableEq, Repr

/-- Time stamps of a granule of 32 bytes (R264, R265); a unit's are the greatest of its granules. -/
structure Stamp where
  wts : Nat
  rts : Nat
  lease : Nat
  deriving DecidableEq, Repr

/-- Who waits for an invalidation round (R261, R281). -/
inductive Writer where
  | thread (core team : Nat)
  | engine (core ec : Nat)
  | array (core : Nat)
  | host (h : Nat) (data : BitVec 512)
  | device
  deriving DecidableEq, Repr

/-- An invalidation round of a unit (R261): who waits, the cores (and 224 for the host) still to be invalidated, those
still to report, and the greatest report. -/
structure Round where
  base : Nat
  size : Nat
  writer : Writer
  toDrop : List Nat
  toReport : List Nat
  report : Nat
  deriving DecidableEq, Repr

/-- What home keeps of an allowance object (R285, R293 to R295): its page, the rounds it has made, its waiter queue, the
recall round in progress with the holders (core, context) still to answer and the requests that it serves, the starter first, and
whether a plain write has raised home since home's last evaluation. Who holds an allowance is what the cores hold (R286). -/
structure AlObject where
  obj : Nat
  page : Xlat
  rounds : Nat
  queue : List AlReq
  round : Option (List (Nat × Nat))
  sharing : List AlReq
  raised : Bool := false
  deriving DecidableEq, Repr

/-- A telemetry sample (R377): power, Light meter means by cluster, temperatures by site, error counts by die, retired and
exhausted pages, hold-up energy, cap, fallback, last. -/
structure Telemetry where
  power : Nat
  meters : List (Nat × Nat)
  temps : List Nat
  errors : List (List Nat)
  pages : Nat × Nat
  energy : DWord
  cap : Nat
  fallback : Bool
  last : Nat
  deriving DecidableEq, Repr

/-- A value or an answer for the host or the management endpoint (R372, R373, R375 to R377). -/
inductive HostMsg where
  | line (h : Nat) (data : BitVec 512) (poison : Bool)
  | written (h : Nat)
  | interrupt (vector : Nat)
  | register (off : Nat) (value : DWord)
  | telemetry (t : Telemetry)
  | report (body sig : List Byte)
  deriving DecidableEq, Repr

/-- The management controller (R374 to R380). installed are the staged images of earlier boots, staged those for the next. -/
structure Mgmt where
  stage : Nat
  refused : Bool
  keys : List (List Byte)
  fuses : List Nat
  meas : List (List Byte)
  installed : List BootImage
  staged : List BootImage
  cap : Nat
  fallback : Bool
  last : Nat
  exp : Nat
  pending : Option Token
  floor : Nat
  time : Option Nat
  sample : Option Telemetry
  deriving DecidableEq, Repr

/-- A fabric window (R383), a reduction window (R388). -/
structure FabWindow where
  en : Bool
  base : Nat
  size : Nat
  peer : Nat
  pctx : Nat
  smask : BitVec 32
  ro : Bool
  pbase : Nat
  deriving DecidableEq, Repr

structure RedWindow where
  en : Bool
  vbase : Nat
  len : Nat
  rm : Rm
  op : BitVec 2
  ty : BitVec 2
  ctx : Nat
  deriving DecidableEq, Repr

/-- Who waits for a fabric response (R386). -/
inductive FabWho where
  | load (t : ThreadRef)
  | tagged (t : ThreadRef) (tag : Nat) (shape : LoadShape)
  | write (t : ThreadRef)
  | wait (t : ThreadRef)
  | engine (core ec id : Nat)
  deriving DecidableEq, Repr

/-- A fabric request sent and not answered (R384, R386): number, who waits, the local address with its tag, station,
peer, context and address on the peer, tag, privilege, what it does, and the cycle it was sent. -/
structure FabReq where
  id : Nat
  who : FabWho
  lva : Nat
  station : Nat
  peer : Nat
  pctx : Nat
  va : Nat
  tag : BitVec 4
  sup : Bool
  op : FabOp
  sent : Nat
  deriving DecidableEq, Repr

/-- A response that a station sent (R385): an error, or the bytes read. -/
structure FabOut where
  station : Nat
  error : Bool
  data : List Byte
  deriving DecidableEq, Repr

/-- The fabric unit (R381 to R389). inbox holds the requests that wait at a station until their memory may be written. -/
structure Fabric where
  accel : Nat
  enable : BitVec 32
  trained : BitVec 32
  errorsSent : Nat
  timedOut : Nat
  windows : List (List FabWindow)
  imports : List (Bool × Bool)
  reductions : List RedWindow
  reqs : List FabReq
  nextId : Nat
  out : List FabOut
  inbox : List FabIn
  deriving DecidableEq, Repr

/-- A spilled bank image (R175): core, bank, context descriptor, the bank, its teams and its matrix operations. -/
structure Image where
  core : Nat
  bank : Nat
  desc : Nat
  state : Bank
  teams : List Team
  ops : List MatOp
  deriving DecidableEq, Repr

/-- The restart report (R368): epoch, entries with their class, reason, data length, valid prefix and vault offset. -/
structure ReportEntry where
  manifest : List Byte
  x : Nat
  cls : Nat
  reason : Nat
  chunks : Nat
  offset : Nat
  deriving DecidableEq, Repr

structure Report where
  epoch : DWord
  entries : List ReportEntry
  refused : Bool
  haltIdx : Nat
  count : Nat
  deriving DecidableEq, Repr

/-- A saved team (R363): its offset in the vault, and its state. The device's internal layout of a team-state record is
this structure; its bytes in the vault are log 11. -/
structure SavedTeam where
  offset : Nat
  team : Team
  ops : List MatOp
  bars : List BarEntry
  tiles : List Tile
  deriving DecidableEq, Repr

/-- The hold-up reserve and the Negative (R351, R365, R370). Vault bytes not listed are 0. reasons holds, for each entry of the
manifest, the reason, the data length and the offset of its record that the last save noted. -/
structure Reserve where
  charged : Bool
  released : Bool
  vault : List (Nat × Byte)
  saved : List SavedTeam
  reasons : List (Nat × Nat × Nat)
  report : Option Report
  deriving DecidableEq, Repr

/-- Whether the package runs (R359, R361): on, stopped by the power-fail trap, or without power. -/
inductive Power where
  | on
  | failing
  | down
  deriving DecidableEq, Repr

/-- A miss of a die's miss queue (R307): context, page of 64 KiB, and the cores that wait for it. -/
structure Miss where
  ctx : Nat
  page : Nat
  cores : List Nat
  deriving DecidableEq, Repr

structure Die where
  tlb : List Xlat
  misses : List Miss
  deriving DecidableEq, Repr

/-- The state of the package and of the agents that drive it. compact holds the lines that memory keeps as compact records, each with its
record (R268, R271); floor is the read time stamp that the end of a context's translations gave every unit (log 87). hostIn holds the host's requests that wait at home; retired and
exhausted are the 64 KiB pages whose memory has been retired, and those whose spare capacity is exhausted (R326); railLog and
powerLog hold the core-rail current and the input power of the latest 1 ms and 10 ms, by cycle (R254). -/
structure State where
  cycle : Nat
  stamp : Nat
  free : Nat
  power : Power
  bundle : Option Bundle
  agenda : List Instr
  cores : List Core
  dies : List Die
  mem : List (Nat × Byte)
  gtags : List (Nat × BitVec 4)
  lost : List Nat
  retired : List Nat
  exhausted : List Nat
  compact : List (Nat × List Byte)
  stamps : List (Nat × Stamp)
  floor : Nat
  pages : List PageRec
  rounds : List Round
  hostLines : List Nat
  hostClock : Nat
  stationClocks : List Nat
  schedClocks : List Nat
  ctxs : List Ctx
  queues : List (List Queue)
  classes : List (List Byte)
  frozen : Bool
  watches : List Watch
  sites : List Site
  grids : List Grid
  nextGrid : Nat
  placement : List (Nat × Nat)
  served : List (Nat × Nat)
  clusters : List Cluster
  nextCluster : Nat
  railSince : Option Nat
  railRecover : Nat
  railLog : List (Nat × Nat)
  powerLog : List (Nat × Nat)
  relocs : List Reloc
  alObjects : List AlObject
  alReqs : List AlReq
  alReplies : List (Nat × AlReq × AlReply)
  images : List Image
  nextOp : Nat
  reserve : Reserve
  mgmt : Mgmt
  fabric : Fabric
  hostIn : List (Nat × Option (BitVec 512))
  hostOut : List HostMsg
  deriving DecidableEq, Repr

/-- Why the device stops: never. Every word and every event of the manual has an effect or takes a trap, so that no step ends in a
fault, and the type is empty. -/
inductive Fault
  deriving DecidableEq, Repr

/-- Why an instruction has no meaning in the model. -/
inductive Refusal where
  /-- Raised by an arm of exec whose instruction is not modelled yet. Safe: nothing can be proved of what it does. -/
  | notModelled (mnemonic : String)
  deriving DecidableEq, Repr

/-! ## Reset -/

/-- A thread that holds only the launch values of R12. -/
def Thread.launch (n : Nat) (pc : VAddr) (fmt : Word) (cycle clock : Nat) : Thread :=
  { regs := List.replicate n 0, preds := List.replicate 7 false, pc := pc, fmt := fmt
    tags := List.replicate 8 none, windows := [], exited := false, park := none, hold := none, lastIssue := cycle
    yielded := false, clock := clock, fence := 0, fabWrites := [], fabBad := none, fabDone := []
    awaits := [], lost := [] }

def Rcv.reset : Rcv := { join := 0, members := 0, arrived := 0 }

/-- A group at launch (R15, R25, R125). -/
def Group.launch (slot : Nat) (k0 k1 : DWord) (threads : List Thread) : Group :=
  { slot := slot, k := k0 :: k1 :: List.replicate 62 0, lost := [], rcv := List.replicate 16 Rcv.reset, lease := none
    waitLine := none, threads := threads }

def Line.reset : Line := { pending := 0, held := false, wts := 0, rts := 0 }
def Stamp.reset : Stamp := { wts := 0, rts := 0, lease := 16 }
def Bank.reset : Bank := { rotation := [], pointer := 0, joining := [], grow := [] }
def BarEntry.reset : BarEntry :=
  { valid := false, ctx := 0, vtid := 0, number := 0, count := 0, wts := 0, rts := 0, counted := false
    keyed := false }
def Tile.reset : Tile := { ctl := 0, elems := [], scales := [], lost := false }
def Engine.reset : Engine := { queue := [], stopped := none, retireStop := false, cancels := 0, clock := 0 }

def Core.reset : Core :=
  { twoCtx := false, active := 0, banks := [Bank.reset, Bank.reset], slotNo := 0, issued := [], switch := none, switching := none
    teams := [], bars := List.replicate 64 BarEntry.reset, tiles := List.replicate 16 Tile.reset, tilesKept := []
    ops := [], engines := List.replicate 4 Engine.reset, tlb := [], bad := [], ilines := [], l1 := [], fills := []
    allow := [], alops := [], errs := [0, 0, 2, 0], pass := 1, slotClock := 0, past := 0, mcKey := 0 }

def Ctx.reset : Ctx :=
  { valid := false, sup := false, id := 0, root := 0, tqbase := 0, tqsize := 0, tqprod := 0, tqcons := 0, hbase := 0
    hcount := 0, imgbase := 0, seq := 1, vtids := 0, halts := [], pending := [], share := 0, cpri := 0, mset := none
    xword := 0, xtable := [], windowEnd := 0 }

def Queue.reset : Queue :=
  { valid := false, dev := false, qs := false, qsize := 0, base := 0, prod := 0, cons := 0, refused := 0, rslot := 0
    reason := 0, head := none, nextBlock := 0, produced := 0, finished := [], finishedTo := 0, next := 0, pushed := false }

def Watch.reset : Watch := { armed := false, vector := 0, counter := 0, threshold := 0, next := 0, pushed := false }

def FabWindow.reset : FabWindow :=
  { en := false, base := 0, size := 0, peer := 0, pctx := 0, smask := 0, ro := false, pbase := 0 }
def RedWindow.reset : RedWindow := { en := false, vbase := 0, len := 0, rm := .rne, op := 0, ty := 0, ctx := 0 }

def Fabric.reset : Fabric :=
  { accel := 0, enable := 0, trained := 0, errorsSent := 0, timedOut := 0
    windows := List.replicate 64 (List.replicate 8 FabWindow.reset), imports := List.replicate 64 (false, false)
    reductions := List.replicate 4 RedWindow.reset, reqs := [], nextId := 0, out := [], inbox := [] }

/-- At power-on: cap = floor = 1,200 W, last 0, fallback 1 (R379); measurement registers cleared (R375). -/
def Mgmt.reset : Mgmt :=
  { stage := 0, refused := false, keys := [], fuses := [0, 0, 0], meas := List.replicate 8 (List.replicate 32 0)
    installed := [], staged := [], cap := 1200, fallback := true, last := 0, exp := 0, pending := none, floor := 1200, time := none
    sample := none }

def Reserve.reset : Reserve :=
  { charged := false, released := true, vault := [], saved := [], reasons := [], report := none }

/-- Site number i of die d (R5, R327): columns 0 to 11 by rows 0 to 9. The first 112 sites in column order carry the die's
logical cores in order, the last 8 are spare (log 6). -/
def Site.reset (d i : Nat) : Site :=
  { v := d * 256 + i / 10 * 16 + i % 10, failed := false, hot := false, relocating := false, pool := 0, temp := 0
    core := if i < 112 then some (d * 112 + i) else none, spareCols := 2 }

/-- The package right after reset: no context, no team, nothing written (R302, R328, R264, R379). -/
def State.reset : State :=
  { cycle := 0, stamp := 0, free := 0, power := .on, bundle := none, agenda := []
    cores := List.replicate 224 Core.reset
    dies := [{ tlb := [], misses := [] }, { tlb := [], misses := [] }]
    mem := [], gtags := [], lost := [], retired := [], exhausted := [], compact := [], stamps := [], floor := 0, pages := [], rounds := [], hostLines := []
    hostClock := 0, stationClocks := List.replicate 32 0, schedClocks := [0, 0]
    ctxs := List.replicate 64 Ctx.reset, queues := List.replicate 64 (List.replicate 8 Queue.reset)
    classes := List.replicate 4 (List.replicate 64 0), frozen := false
    watches := List.replicate 32 Watch.reset
    sites := (List.range 120).map (Site.reset 0) ++ (List.range 120).map (Site.reset 1)
    grids := [], nextGrid := 0, placement := [], served := List.replicate 4 (63, 7), clusters := [], nextCluster := 0
    railSince := none, railRecover := 0, railLog := [], powerLog := [], relocs := [], alObjects := [], alReqs := [], alReplies := [], images := []
    nextOp := 0, reserve := Reserve.reset, mgmt := Mgmt.reset, fabric := Fabric.reset, hostIn := [], hostOut := [] }

end Sys2Proof.Machine
end

