-- ==== Sys2Proof/Machine/Bits.lean ====
section
/-! DEFINITION. Helpers on plain data: canonical maps from addresses, indexed updates of lists, bytes and words, bit
fields of numbers. -/

namespace Sys2Proof.Machine

/-! ## Maps from numbers, in one canonical form: keys strictly rising, no entry equal to the default -/

/-- The value at a key; d where the map lists nothing. -/
def amGet {α : Type} (d : α) : List (Nat × α) → Nat → α
  | [], _ => d
  | (k, v) :: r, a => if a < k then d else if a = k then v else amGet d r a

/-- The map with a key set; setting the default removes the entry. -/
def amSet {α : Type} [DecidableEq α] (d : α) : List (Nat × α) → Nat → α → List (Nat × α)
  | [], a, v => if v = d then [] else [(a, v)]
  | (k, w) :: r, a, v =>
    if a < k then (if v = d then (k, w) :: r else (a, v) :: (k, w) :: r)
    else if a = k then (if v = d then r else (a, v) :: r)
    else (k, w) :: amSet d r a v

/-- The canonical form: every key is at least lo, keys rise strictly, and no value is the default. -/
def amWf {α : Type} [DecidableEq α] (d : α) (lo : Nat) : List (Nat × α) → Bool
  | [] => true
  | (k, v) :: r => decide (lo ≤ k) && decide (v ≠ d) && amWf d (k + 1) r

/-- The entries of consecutive keys from a that are not the default. -/
def amEntries {α : Type} [DecidableEq α] (d : α) (a : Nat) : List α → List (Nat × α)
  | [] => []
  | v :: r => if v = d then amEntries d (a + 1) r else (a, v) :: amEntries d (a + 1) r

/-- Sets consecutive keys from a. -/
def amSetList {α : Type} [DecidableEq α] (d : α) (m : List (Nat × α)) (a : Nat) (l : List α) : List (Nat × α) :=
  (m.filter fun e => decide (e.1 < a)) ++ amEntries d a l ++ m.filter fun e => decide (a + l.length ≤ e.1)

/-- n consecutive values from a. -/
def amGetList {α : Type} (d : α) (m : List (Nat × α)) (a : Nat) : Nat → List α
  | 0 => []
  | n + 1 => amGet d m a :: amGetList d m (a + 1) n

/-- The map without the keys from a to a + n − 1. -/
def amDrop {α : Type} (m : List (Nat × α)) (a n : Nat) : List (Nat × α) :=
  m.filter fun e => decide (e.1 < a) || decide (a + n ≤ e.1)

/-! ## Lists -/

/-- The list with element i changed by f; no change beyond its end. -/
def updAt {α : Type} : List α → Nat → (α → α) → List α
  | [], _, _ => []
  | x :: r, 0, f => f x :: r
  | x :: r, i + 1, f => x :: updAt r i f

/-- Folds f over a list of positions and elements, from position i. -/
def mapIdxFrom {α β : Type} (f : Nat → α → β) : Nat → List α → List β
  | _, [] => []
  | i, x :: r => f i x :: mapIdxFrom f (i + 1) r

/-- The positions from i at which p holds. -/
def idxWhere {α : Type} (p : α → Bool) : Nat → List α → List Nat
  | _, [] => []
  | i, x :: r => if p x then i :: idxWhere p (i + 1) r else idxWhere p (i + 1) r

/-- Adds an element to a list that holds it at most once. -/
def insertOnce {α : Type} [DecidableEq α] (l : List α) (a : α) : List α := if l.contains a then l else l ++ [a]

def sumList (l : List Nat) : Nat := l.foldl (· + ·) 0
def maxList (l : List Nat) : Nat := l.foldl Nat.max 0

/-- Some sublist of rising numbers is kept sorted: insertion into a rising list without repeats. -/
def insertSorted (a : Nat) : List Nat → List Nat
  | [] => [a]
  | x :: r => if a < x then a :: x :: r else if a = x then x :: r else x :: insertSorted a r

/-- Insertion sort by a key, stable. -/
def insertBy {α : Type} (lt : α → α → Bool) (a : α) : List α → List α
  | [] => [a]
  | x :: r => if lt a x then a :: x :: r else x :: insertBy lt a r
def sortBy {α : Type} (lt : α → α → Bool) (l : List α) : List α := l.foldl (fun acc a => insertBy lt a acc) []

/-! ## Bit fields of numbers -/

/-- Bits [lo + w − 1 : lo] of a number. -/
def fld (x lo w : Nat) : Nat := x / 2 ^ lo % 2 ^ w
/-- Bit i of a number. -/
def bitOf (x i : Nat) : Bool := x / 2 ^ i % 2 == 1
/-- The signed value of a w-bit field. -/
def sgn (w x : Nat) : Int := if 2 ^ w ≤ 2 * x then (x : Int) - 2 ^ w else x
/-- The least multiple of m at or above x. -/
def alignUp (x m : Nat) : Nat := (x + m - 1) / m * m
def ceilDiv (x m : Nat) : Nat := (x + m - 1) / m
def b2n (b : Bool) : Nat := if b then 1 else 0

/-! ## Bytes, little-endian (R3) -/

/-- The number that bytes hold, the first byte lowest. -/
def bytesNat : List Byte → Nat
  | [] => 0
  | b :: r => b.toNat + 256 * bytesNat r

/-- The n bytes of a number. -/
def natBytes (x : Nat) : Nat → List Byte
  | 0 => []
  | n + 1 => BitVec.ofNat 8 x :: natBytes (x / 256) n

/-- Bytes [o, o + n) of a list; missing bytes read 0. -/
def slice (l : List Byte) (o n : Nat) : List Byte := (List.range n).map fun i => l.getD (o + i) 0
/-- The number in bytes [o, o + n) of a list. -/
def sliceNat (l : List Byte) (o n : Nat) : Nat := bytesNat (slice l o n)

/-- Replaces bytes from offset o. -/
def patch (l : List Byte) (o : Nat) (new : List Byte) : List Byte :=
  mapIdxFrom (fun i b => if i < o then b else if i < o + new.length then new.getD (i - o) 0 else b) 0 l

/-! ## Registers as data -/

def RWrite.name : RWrite → RName
  | .g n _ => .g n
  | .p n _ => .p n
  | .k n _ => .k n

/-- The two registers of a pair, bits [31:0] first (R13). -/
def pairNames (n : Nat) : List RName := [.g n, .g (n + 1)]
def pairWrites (n : Nat) (v : DWord) : List RWrite :=
  [.g n (v.truncate 32), .g (n + 1) ((v >>> (32 : Nat)).truncate 32)]

end Sys2Proof.Machine
end

