-- ==== Sys2Proof/Machine/Ops.lean ====
section
/-! DEFINITION. The named operations over the state: cores, teams and threads; memory at its home, page table walks and
translation; logical time; registered waiters; completion of results; the team halt (taking an exception) and the
resumption of a halted team (the return from one). -/

namespace Sys2Proof.Machine

/-! ## Cores, teams, groups, threads -/

/-- The device works: it has power, and no refused image has stopped its boot, which leaves BAR0 and the management endpoint only
(R374). -/
def State.works (s : State) : Bool := decide (s.power = .on) && !s.mgmt.refused

def State.core (s : State) (c : Nat) : Core := s.cores.getD c Core.reset
def State.updCore (s : State) (c : Nat) (f : Core → Core) : State := { s with cores := updAt s.cores c f }

def Core.team? (c : Core) (id : Nat) : Option Team := c.teams.find? fun t => t.id == id
def Core.updTeam (c : Core) (id : Nat) (f : Team → Team) : Core :=
  { c with teams := c.teams.map fun t => if t.id = id then f t else t }

def Team.group? (t : Team) (g : Nat) : Option Group := t.groups[g]?
def Team.updGroup (t : Team) (g : Nat) (f : Group → Group) : Team := { t with groups := updAt t.groups g f }
def Group.updThread (g : Group) (l : Nat) (f : Thread → Thread) : Group := { g with threads := updAt g.threads l f }
def Team.thread? (t : Team) (g l : Nat) : Option Thread :=
  match t.groups[g]? with
  | some gr => gr.threads[l]?
  | none => none
def Team.updThread (t : Team) (g l : Nat) (f : Thread → Thread) : Team := t.updGroup g fun gr => gr.updThread l f
/-- The team with every thread changed. -/
def Team.mapThreads (t : Team) (f : Nat → Nat → Thread → Thread) : Team :=
  { t with groups := mapIdxFrom (fun g gr => { gr with threads := mapIdxFrom (fun l th => f g l th) 0 gr.threads }) 0 t.groups }

def State.team? (s : State) (c id : Nat) : Option Team := (s.core c).team? id
def State.updTeam (s : State) (c id : Nat) (f : Team → Team) : State := s.updCore c fun k => k.updTeam id f
def State.updGroup (s : State) (c id g : Nat) (f : Group → Group) : State := s.updTeam c id fun t => t.updGroup g f
def State.updThread (s : State) (c id g l : Nat) (f : Thread → Thread) : State := s.updTeam c id fun t => t.updThread g l f
def State.thread? (s : State) (r : ThreadRef) : Option Thread :=
  match s.team? r.core r.team with
  | some t => t.thread? r.group r.lane
  | none => none
def State.updRef (s : State) (r : ThreadRef) (f : Thread → Thread) : State := s.updThread r.core r.team r.group r.lane f

def State.ctxAt (s : State) (i : Nat) : Ctx := s.ctxs.getD i Ctx.reset
def State.updCtx (s : State) (i : Nat) (f : Ctx → Ctx) : State := { s with ctxs := updAt s.ctxs i f }
def State.queueAt (s : State) (i j : Nat) : Queue := (s.queues.getD i []).getD j Queue.reset
def State.updQueue (s : State) (i j : Nat) (f : Queue → Queue) : State :=
  { s with queues := updAt s.queues i fun l => updAt l j f }
/-- The descriptor of a valid context, by its id (R302). -/
def State.ctxById (s : State) (id : Nat) : Option Nat := s.ctxs.findIdx? fun c => c.valid && c.id == id

/-- Threads of a team that have not exited. -/
def Team.live (t : Team) : Bool := t.groups.any fun g => g.threads.any fun th => !th.exited
/-- All threads of a team as (group, lane). -/
def Team.lanes (t : Team) : List (Nat × Nat) :=
  (mapIdxFrom (fun g gr => (List.range gr.threads.length).map fun l => (g, l)) 0 t.groups).flatten

/-- The site that carries a logical core (R327, R328). -/
def State.siteOf (s : State) (c : Nat) : Nat :=
  match s.sites.find? fun x => x.core == some c with
  | some x => x.v
  | none => 0
/-- The die of a logical core. -/
def State.dieOf (s : State) (c : Nat) : Nat := s.siteOf c / 256

/-! ### The teams of a core, those of its spilled banks among them (R155, R175) -/

/-- The team of a context with a virtual identifier (R165, R339). -/
def Team.isNamed (ctx vtid : Nat) (t : Team) : Bool := t.ctx == ctx && t.vtid == vtid
/-- The teams that have not left a core: those in its banks, and those in its images. -/
def State.teamsOf (s : State) (c : Nat) : List Team :=
  (s.core c).teams ++ ((s.images.filter fun x => x.core == c).map fun x => x.teams).flatten
def State.findTeam (s : State) (c ctx vtid : Nat) : Option Team := (s.teamsOf c).find? (Team.isNamed ctx vtid)
/-- Changes every team of every core, in its banks and in its images. -/
def State.mapTeams (s : State) (f : Nat → Team → Team) : State :=
  { s with
    cores := mapIdxFrom (fun c k => { k with teams := Core.teams k |>.map (f c) }) 0 s.cores
    images := s.images.map fun x => { x with teams := x.teams.map (f x.core) } }
/-- Changes the team of a core that a context and a virtual identifier name. -/
def State.updNamed (s : State) (c ctx vtid : Nat) (f : Team → Team) : State :=
  { s.updCore c fun k => { k with teams := k.teams.map fun t => if t.isNamed ctx vtid then f t else t } with
    images := s.images.map fun x =>
      if x.core = c then { x with teams := x.teams.map fun t => if t.isNamed ctx vtid then f t else t } else x }
/-- Whether a core's team lies in an image. -/
def State.spilled (s : State) (c ctx vtid : Nat) : Bool :=
  s.images.any fun x => x.core == c && x.teams.any (Team.isNamed ctx vtid)

/-- A switch or a pre-emption takes a core's issue (R173, R176). -/
def State.switching (s : State) (c : Nat) : Bool :=
  match (s.core c).switching with
  | some x => !(s.core c).twoCtx || decide (s.cycle < x.accepted + 128)
  | none => false
/-- A relocation has stopped a core's groups (R347). -/
def State.movingCore (s : State) (c : Nat) : Bool := s.relocs.any fun r => r.core == c && decide (2 ≤ r.step) && decide (r.step ≤ 4)
/-- The groups of a core's team can issue: its bank is active, and no relocation has stopped them (R173, R320, R349). -/
def State.runs (s : State) (c : Nat) (t : Team) : Bool := t.bank == (s.core c).active && !s.movingCore c

/-- A power controller's entry of a cluster. -/
def Cluster.entry (x : Cluster) (grid cl : Nat) : Option Carried := x.carries.find? fun e => e.grid == grid && e.index == cl
/-- The power controller that carries a cluster of a grid (R238). -/
def State.clusterOf (s : State) (grid cl : Nat) : Option Cluster := s.clusters.find? fun x => (x.entry grid cl).isSome

/-- The pass count in force on a core (R248): the greatest of the clusters that have a team on it (log 75), 1 when none has. -/
def State.passOf (s : State) (c : Nat) : Nat :=
  Nat.max 1 (maxList ((s.teamsOf c).map fun t => match s.clusterOf t.grid t.cluster with
    | some x => x.q
    | none => 1))

/-- The class table entry of a pool, with defaults for fields written 0 (R340). -/
def State.clsField (s : State) (p o n dflt : Nat) : Nat :=
  let v := sliceNat (s.classes.getD p []) o n
  if v = 0 then dflt else v

/-- A free value (log 5): the counter advances, so that no two uses are related. -/
def State.fresh (s : State) : State := { s with free := s.free + 1 }

/-! ## Memory at its home (R131, R257, R273, R321, R325) -/

def inCtl (pa : Nat) : Bool := decide (Config.ctlBase ≤ pa) && decide (pa < Config.ctlBase + Config.ctlSize)
/-- The bytes from pa to pa + n − 1 lie in one range of the physical map (R325). -/
def physOk (pa n : Nat) : Bool :=
  decide (pa + n ≤ Config.hbmEnd) ||
  (decide (Config.tierBase ≤ pa) && decide (pa + n ≤ Config.tierEnd)) ||
  (decide (Config.ctlBase ≤ pa) && decide (pa + n ≤ Config.ctlBase + Config.ctlSize))

def State.readByte (s : State) (pa : Nat) : Byte := amGet 0 s.mem pa
def State.readBytes (s : State) (pa n : Nat) : List Byte := amGetList 0 s.mem pa n
def State.read8 (s : State) (pa : Nat) : Nat := bytesNat (s.readBytes pa 8)

/-- The granules of 32 bytes that a range covers wholly, and those it touches. -/
def granulesIn (pa n : Nat) : List Nat :=
  let lo := ceilDiv pa 32
  (List.range ((pa + n) / 32 - lo)).map (lo + ·)
def granulesOf (pa n : Nat) : List Nat :=
  if n = 0 then [] else (List.range ((pa + n - 1) / 32 + 1 - pa / 32)).map (pa / 32 + ·)

/-- A write at home: a compact line is expanded first (R273), and a granule that one event covers wholly is no longer lost
(R321, log 95). -/
def State.writeBytes (s : State) (pa : Nat) (l : List Byte) : State :=
  { s with
    mem := amSetList 0 s.mem pa l
    compact := s.compact.filter fun x => !(decide (x.1 * 128 < pa + l.length) && decide (pa < (x.1 + 1) * 128))
    lost := s.lost.filter fun g => !((granulesIn pa l.length).contains g) }

def State.write8 (s : State) (pa v : Nat) : State := s.writeBytes pa (natBytes v 8)

def State.gtag (s : State) (pa : Nat) : BitVec 4 := if inCtl pa then 0 else amGet 0 s.gtags (pa / 32)
/-- A granule's tag is set; its line is expanded first (R273). -/
def State.setGtag (s : State) (g : Nat) (t : BitVec 4) : State :=
  { s with gtags := amSet 0 s.gtags g t, compact := s.compact.filter fun x => x.1 != g / 4 }

/-- The first lost granule that a range touches (R321). -/
def State.lostIn (s : State) (pa n : Nat) : Option Nat := (granulesOf pa n).find? fun g => s.lost.contains g

/-! ## Page tables and translation (R304 to R307) -/

/-- A leaf's attributes (R305). -/
structure Leaf where
  va : Nat
  pa : Nat
  size : Nat
  sup : Bool
  ro : Bool
  xn : Bool
  cls : BitVec 2
  grain : Nat
  cp : Bool
  efmt : Nat
  tier : Nat
  deriving DecidableEq, Repr

def leafOf (x : Xlat) : Leaf :=
  let e := x.leaf.toNat
  { va := x.va, pa := fld e 16 28 * 65536, size := x.size, sup := bitOf e 61, ro := bitOf e 60, xn := bitOf e 59
    cls := BitVec.ofNat 2 (fld e 57 2), grain := if fld e 55 2 = 0 then 32 else if fld e 55 2 = 1 then 128 else 512
    cp := bitOf e 54, efmt := fld e 48 6, tier := fld e 46 2 }

/-- First index bit, table entries and page bytes of a level (R304). -/
def lvShift (l : Nat) : Nat := match l with | 3 => 43 | 2 => 30 | 1 => 21 | _ => 16
def lvBits (l : Nat) : Nat := match l with | 3 => 13 | 2 => 13 | 1 => 9 | _ => 5
def lvTable (l : Nat) : Nat := 8 * 2 ^ lvBits l

/-- A valid entry of level l breaks R305. -/
def entryBad (l e : Nat) : Bool :=
  if bitOf e 62 then
    l == 3 || fld e 44 2 != 0 || fld e 0 8 != 0 || fld e 55 2 == 3 || fld e 46 2 == 3 ||
      (if bitOf e 54 then !(fld e 48 6 == 1 || fld e 48 6 == 9 || fld e 48 6 == 10 || fld e 48 6 == 11)
       else fld e 48 6 != 0) ||
      fld e 8 36 * 256 % 2 ^ lvShift l != 0 || !physOk (fld e 8 36 * 256) (2 ^ lvShift l)
  else
    l == 0 || fld e 44 18 != 0 || fld e 0 8 != 0 || fld e 8 36 * 256 % lvTable (l - 1) != 0 ||
      !physOk (fld e 8 36 * 256) (lvTable (l - 1))

inductive WalkRes where
  | leaf (x : Xlat)
  | bad (why : NoXlat)
  deriving DecidableEq, Repr

/-- A walk from the table of level l (R304 to R306); an entry that lies in a lost granule cannot be read (R321). -/
def State.walkAt (s : State) (ctx : Nat) (va : Nat) : Nat → Nat → WalkRes
  | l, table =>
    let e := s.read8 (table + 8 * fld va (lvShift l) (lvBits l))
    if (s.lostIn (table + 8 * fld va (lvShift l) (lvBits l)) 8).isSome then .bad .lost
    else if !bitOf e 63 then .bad .invalid
    else if entryBad l e then .bad .malformed
    else if bitOf e 62 then
      .leaf { ctx := ctx, va := va / 2 ^ lvShift l * 2 ^ lvShift l, size := 2 ^ lvShift l, leaf := BitVec.ofNat 64 e }
    else
      match l with
      | 0 => .bad .malformed
      | k + 1 => s.walkAt ctx va k (fld e 8 36 * 256)

/-- The walk of a context's tables. A root whose table lies in no range of R325 is a malformed table pointer. -/
def State.walk (s : State) (ctx va : Nat) : WalkRes :=
  match s.ctxById ctx with
  | some i => if physOk (s.ctxAt i).root (lvTable 3) then s.walkAt ctx va 3 (s.ctxAt i).root else .bad .malformed
  | none => .bad .invalid

/-- What a core's agent finds for an address: a translation, the answer of a finished walk that found none, or a miss. -/
inductive Tr where
  | hit (l : Leaf)
  | bad (why : NoXlat)
  | miss (page : Nat)
  deriving DecidableEq, Repr

def Xlat.covers (x : Xlat) (ctx va : Nat) : Bool := x.ctx == ctx && decide (x.va ≤ va) && decide (va < x.va + x.size)

def State.die (s : State) (d : Nat) : Die := s.dies.getD d { tlb := [], misses := [] }
def State.updDie (s : State) (d : Nat) (f : Die → Die) : State := { s with dies := updAt s.dies d f }

/-- Look-up in the core's TLB, then in its die's second level, then in the answers of finished walks (R307); an answer stands only while
the tables still give no translation, so that an entry made valid since is walked anew (R306). -/
def State.translate (s : State) (c ctx va : Nat) : Tr :=
  match ((s.core c).tlb ++ (s.die (s.dieOf c)).tlb).find? fun x => x.covers ctx va with
  | some x => .hit (leafOf x)
  | none =>
    match (s.core c).bad.find? fun b => b.ctx == ctx && b.page == va / 65536 with
    | some b => (match s.walk ctx va with
      | .bad _ => .bad b.why
      | .leaf _ => .miss (va / 65536))
    | none => .miss (va / 65536)

/-- A miss joins the die's queue, merged with a miss of the same context and page (R307). -/
def State.addMiss (s : State) (c ctx page : Nat) : State :=
  s.updDie (s.dieOf c) fun d =>
    if d.misses.any fun m => m.ctx == ctx && m.page == page then
      { d with misses := d.misses.map fun m =>
          if m.ctx = ctx ∧ m.page = page then { m with cores := insertOnce m.cores c } else m }
    else { d with misses := d.misses ++ [{ ctx := ctx, page := page, cores := [c] }] }
def State.addMisses (s : State) (c ctx : Nat) (pages : List Nat) : State :=
  pages.foldl (fun s p => s.addMiss c ctx p) s

/-- The answers that a core's bundle has used are forgotten, so that an entry made valid later is seen (R306). -/
def State.dropBad (s : State) (c ctx : Nat) (pages : List Nat) : State :=
  s.updCore c fun k => { k with bad := k.bad.filter fun b => !(b.ctx == ctx && pages.contains b.page) }

def Leaf.phys (l : Leaf) (va : Nat) : Nat := l.pa + (va - l.va)

/-- The physical address of a word in a context, if it has one. -/
def State.physOf (s : State) (ctx va : Nat) : Option Nat :=
  match s.walk ctx va with
  | .leaf x => some ((leafOf x).phys va)
  | _ => none

/-! ## Fabric windows (R383, R384) -/

/-- The lowest enabled window of a context that holds an address. -/
def State.fabWindow (s : State) (desc va : Nat) : Option FabWindow :=
  (s.fabric.windows.getD desc []).find? fun w =>
    w.en && decide (w.base ≤ va) && decide (va < w.base + w.size * 2 ^ 30)
/-- The physical address of a word that a descriptor's context reaches by its own tables: no window holds it. -/
def State.localOf (s : State) (desc ctx va : Nat) : Option Nat :=
  if (s.fabWindow desc va).isSome then none else s.physOf ctx va

/-! ## Pinned translations (R222, R244, R316) -/

/-- The undelivered matrix operations, those of spilled banks among them (R175). -/
def State.allOps (s : State) : List MatOp := (s.cores.map (·.ops)).flatten ++ (s.images.map (·.ops)).flatten
/-- Some undelivered MMT.C or cluster counter pins a translation that p names. -/
def State.pinnedBy (s : State) (p : Xlat → Bool) : Bool :=
  s.allOps.any fun o => o.pins.any p || (match o.ccnt with | some x => p x | none => false)
/-- The page at pa is neither moved nor switched now (R222, R262). -/
def State.pagePinned (s : State) (pa : Nat) : Bool := s.pinnedBy fun x => (leafOf x).pa == pa

/-! ## Coherence classes, logical time, L1 copies (R258 to R267) -/

def State.pageAt (s : State) (pa : Nat) : Option PageRec :=
  s.pages.find? fun p => decide (p.base ≤ pa) && decide (pa < p.base + p.size)
def PageRec.fresh (base size : Nat) : PageRec :=
  { base := base, size := size, owner := none, cls := none, floor := 0, acc0 := 0, acc1 := 0, last0 := 0, last1 := 0, writers := []
    calm := 0, mapped := [] }
/-- Changes the record of a page, made when it has none. -/
def State.updPage (s : State) (l : Leaf) (f : PageRec → PageRec) : State :=
  if s.pages.any fun p => p.base == l.pa then
    { s with pages := s.pages.map fun p => if p.base = l.pa then f p else p }
  else { s with pages := s.pages ++ [f (PageRec.fresh l.pa l.size)] }

/-- The class in force: the override of R343 and R260, or the leaf's. -/
def State.clsOf (s : State) (l : Leaf) : BitVec 2 :=
  match s.pageAt l.pa with
  | some p => p.cls.getD l.cls
  | none => l.cls

def unitBase (grain pa : Nat) : Nat := pa / grain * grain

/-- The time stamps of a unit: the greatest of its granules, of what a demotion gave its page, and of the floor of all. -/
def State.unitStamp (s : State) (base size : Nat) : Stamp :=
  let l := (granulesOf base size).map fun g => amGet Stamp.reset s.stamps g
  let floor := match s.pageAt base with
    | some p => p.floor
    | none => 0
  { wts := maxList (l.map (·.wts)), rts := Nat.max (Nat.max s.floor floor) (maxList (l.map (·.rts)))
    lease := (l.headD Stamp.reset).lease }
def State.setStamp (s : State) (base size : Nat) (st : Stamp) : State :=
  { s with stamps := (granulesOf base size).foldl (fun m g => amSet Stamp.reset m g st) s.stamps }

/-- The greatest clock of a thread of a team. -/
def Team.maxClock (t : Team) : Nat := maxList (t.groups.map fun g => maxList (g.threads.map (·.clock)))
/-- The greatest clock of teams and matrix operations. -/
def topClock (teams : List Team) (ops : List MatOp) : Nat :=
  Nat.max (maxList (teams.map Team.maxClock)) (maxList (ops.map (·.clock)))
/-- The greatest clock of a core's agents, those that have left it among them (R261). -/
def Core.maxClock (c : Core) : Nat :=
  Nat.max c.past (Nat.max (topClock c.teams c.ops) (maxList (c.engines.map fun e => Nat.max e.clock (maxList (e.queue.map (·.clock))))))
/-- An agent with a clock leaves the core: its reports still cover the agent's reads (R261). -/
def Core.outlive (c : Core) (clock : Nat) : Core := { c with past := Nat.max c.past clock }
def Image.maxClock (x : Image) : Nat := topClock x.teams x.ops
/-- A core's maximum clock (R263): of its agents, those in its spilled banks among them. -/
def State.coreClock (s : State) (c : Nat) : Nat :=
  Nat.max (s.core c).maxClock (maxList ((s.images.filter fun x => x.core == c).map Image.maxClock))
/-- The largest clock of any agent on the package (R369). -/
def State.maxClock (s : State) : Nat :=
  Nat.max (Nat.max (maxList (s.cores.map Core.maxClock)) (maxList (s.images.map Image.maxClock)))
    (Nat.max s.hostClock (Nat.max (maxList s.stationClocks) (maxList s.schedClocks)))

/-- The L1 copies of a core without those that overlap a range. -/
def Core.dropL1 (c : Core) (base size : Nat) : Core :=
  { c with
    l1 := c.l1.filter fun x => !(decide (x.base < base + size) && decide (base < x.base + x.size))
    fills := c.fills.map fun x =>
      if x.base < base + size ∧ base < x.base + x.size then { x with dead := true } else x }
def Core.holdsUnit (c : Core) (base size : Nat) : Bool :=
  (c.l1 ++ c.fills).any fun x => !x.leased && !x.dead && decide (x.base < base + size) && decide (base < x.base + x.size)

/-- Demotion of a private page (R260): the owner drops its copies and reports its maximum clock; the page is leased. -/
def State.demote (s : State) (p : PageRec) : State :=
  let rep := match p.owner with
    | some o => s.coreClock o
    | none => 0
  let s1 := match p.owner with
    | some o => s.updCore o fun k => k.dropL1 p.base p.size
    | none => s
  { s1 with pages := s1.pages.map fun q =>
      if q.base = p.base then { q with owner := none, cls := some 2, floor := Nat.max q.floor rep } else q }

/-- An agent's first step of an access (R260): the first core to reach a private page owns it; any other agent's access
demotes it, unless an operation pins the page (R262). The agent is a logical core, or none for the host, the fabric and the
scheduler. -/
def State.claim (s : State) (l : Leaf) (agent : Option Nat) : State :=
  if s.clsOf l = 0 then
    match s.pageAt l.pa, agent with
    | some p, some c =>
      match p.owner with
      | some o => if o = c ∨ s.pagePinned p.base then s else s.demote p
      | none => s.updPage l fun q => { q with owner := some c }
    | some p, none => if s.pagePinned p.base then s else s.demote p
    | none, some c => s.updPage l fun q => { q with owner := some c }
    | none, none => (s.updPage l id).demote (PageRec.fresh l.pa l.size)
  else s

/-- Whether a context's exposure table has page moves or class switches enabled (R341). -/
def Ctx.watched (c : Ctx) : Bool := sliceNat c.xtable 0 1 % 4 != 0

/-- The record of a page with a place where it has been seen, the latest first. -/
def PageRec.seen (p : PageRec) (ctx va : Nat) : PageRec :=
  { p with mapped := (ctx, va) :: p.mapped.filter fun x => x != (ctx, va) }
/-- Home keeps the contexts and addresses under which a page with a record has been accessed, for the TLBIs that cover it (R343). -/
def State.sees (s : State) (ctx : Nat) (l : Leaf) : State :=
  { s with pages := s.pages.map fun p => if p.base = l.pa then p.seen ctx l.va else p }

/-- The placement engine counts accesses and writes of pages of the contexts it serves (R341, R343). -/
def State.note (s : State) (ctx : Nat) (l : Leaf) (agent : Option Nat) (write : Bool) : State :=
  match s.ctxById ctx, agent with
  | some i, some c =>
    if (s.ctxAt i).watched then
      s.updPage l fun p =>
        let p0 := p.seen ctx l.va
        let p1 := if s.dieOf c = 0 then { p0 with acc0 := p.acc0 + 1 } else { p0 with acc1 := p.acc1 + 1 }
        if write then
          { p1 with writers :=
              if p1.writers.any fun w => w.1 == c then p1.writers.map fun w => if w.1 = c then (c, w.2 + 1) else w
              else p1.writers ++ [(c, 1)] }
        else p1
    else s.sees ctx l
  | _, _ => s.sees ctx l

/-- A read event at home (R264): its time stamp, and the unit's new ones. -/
def State.readEvent (s : State) (l : Leaf) (pa clock : Nat) : Nat × State :=
  let base := unitBase l.grain pa
  let st := s.unitStamp base l.grain
  let t := Nat.max clock st.wts
  match (s.clsOf l).toNat with
  | 2 => (t, s.setStamp base l.grain { st with rts := Nat.max st.rts (t + st.lease) })
  | 3 => (t, s.setStamp base l.grain { st with rts := Nat.max st.rts t })
  | _ => (t, s)

/-- A home read at a clock counts as a successful renewal (R265): the core's lease, ended for that clock, met an unchanged unit. -/
def State.renew (s : State) (c : Nat) (l : Leaf) (pa clock : Nat) : State :=
  let base := unitBase l.grain pa
  let st := s.unitStamp base l.grain
  if s.clsOf l == 2 && (s.core c).l1.any (fun x => x.leased && x.base == base && decide (x.rts < clock) && x.wts == st.wts) then
    s.setStamp base l.grain { st with lease := Nat.min (2 * st.lease) 4096 }
  else s

/-- A write or atomic event at home (R264, R265). Of a private page the owner, of a replicated one every core reports the times of its
reads (R260, R261). -/
def State.writeEvent (s : State) (l : Leaf) (pa clock : Nat) : Nat × State :=
  let base := unitBase l.grain pa
  let st := s.unitStamp base l.grain
  let priv := (s.clsOf l).toNat == 0
  let own := if (s.clsOf l).toNat == 1 then maxList ((List.range s.cores.length).map s.coreClock) + 1
    else if priv then
      match s.pageAt l.pa with
      | some p => match p.owner with
        | some o => s.coreClock o + 1
        | none => 0
      | none => 0
    else 0
  let t := Nat.max clock (Nat.max (st.rts + 1) own)
  (t, s.setStamp base l.grain { wts := t, rts := t, lease := if priv then st.lease else 16 })

/-- The copies that core c holds of the units of a range become home's bytes and tags, after a write by its own agent at t; a fill
in flight is not kept, nor a copy of a unit with lost bytes (R260, R264, R267, R321). -/
def State.patchL1 (s : State) (c pa n t : Nat) : State :=
  s.updCore c fun k => { k with
    l1 := (k.l1.filter fun x => !(decide (x.base < pa + n) && decide (pa < x.base + x.size) && (s.lostIn x.base x.size).isSome)).map fun x =>
      if x.base < pa + n ∧ pa < x.base + x.size then
        { x with
          data := s.readBytes x.base x.size
          tags := (List.range (x.size / 32)).map fun i => s.gtag (x.base + 32 * i)
          wts := t, rts := t }
      else x
    fills := k.fills.map fun x =>
      if x.base < pa + n ∧ pa < x.base + x.size then { x with dead := true } else x }

/-- The units of a range. -/
def unitsOf (grain pa n : Nat) : List Nat :=
  if n = 0 then [] else (List.range ((pa + n - 1) / grain + 1 - pa / grain)).map fun i => (pa / grain + i) * grain

/-- The units of a write that have to be invalidated first (R261, R281): of a replicated page, those that some L1 holds
untracked; those of which the host holds a line that the write reaches. -/
def State.roundUnits (s : State) (l : Leaf) (pa n : Nat) : List Nat :=
  (unitsOf l.grain pa n).filter fun u =>
    ((s.clsOf l).toNat == 1 && s.cores.any fun c => c.holdsUnit u l.grain) ||
      s.hostLines.any fun h => decide (h < Nat.min (pa + n) (u + l.grain)) && decide (Nat.max pa u < h + 64)
def State.needsRound (s : State) (l : Leaf) (pa n : Nat) : Bool := !(s.roundUnits l pa n).isEmpty

def holdersOf (s : State) (base size : Nat) : List Nat := idxWhere (fun c => Core.holdsUnit c base size) 0 s.cores

/-- Starts the round of a unit. -/
def State.startRound (s : State) (base size : Nat) (w : Writer) : State :=
  let cores := holdersOf s base size
  let host := if s.hostLines.any fun h => decide (h < base + size) && decide (base < h + 64) then [224] else []
  if s.rounds.any fun r => r.base == base && decide (r.writer = w) then s
  else { s with rounds := s.rounds ++
    [{ base := base, size := size, writer := w, toDrop := cores, toReport := cores ++ host, report := 0 }] }
def State.startRounds (s : State) (l : Leaf) (pa n : Nat) (w : Writer) : State :=
  (s.roundUnits l pa n).foldl (fun s u => s.startRound u l.grain w) s

/-- The logical core whose agent a writer is. -/
def Writer.agent : Writer → Option Nat
  | .thread c _ => some c
  | .engine c _ => some c
  | .array c => some c
  | .host _ _ => none
  | .device => none

/-- A private page that another core owns and an operation pins is not demoted, so that accesses of other agents wait (R262). -/
def State.pinHolds (s : State) (agent : Option Nat) (pa n : Nat) : Bool :=
  s.pages.any fun p => decide (p.base < pa + n) && decide (pa < p.base + p.size) && p.owner.isSome &&
    decide (p.owner ≠ agent) && s.pagePinned p.base

/-- A round of another writer, or one that still waits for reports, holds accesses of the unit (R261). -/
def State.roundHolds (s : State) (w : Writer) (pa n : Nat) : Bool :=
  (s.rounds.any fun r => decide (r.base < pa + n) && decide (pa < r.base + r.size) &&
    (decide (r.writer ≠ w) || !r.toReport.isEmpty)) || s.pinHolds w.agent pa n
/-- The writer's rounds end with its write. -/
def State.endRounds (s : State) (w : Writer) (pa n : Nat) : State :=
  { s with rounds := s.rounds.filter fun r =>
      !(decide (r.writer = w) && decide (r.base < pa + n) && decide (pa < r.base + r.size)) }

/-- A write that has to wait for a round at home: the state in which it waits, or none when it may go on. -/
def State.awaitRound (s : State) (l : Leaf) (pa n : Nat) (w : Writer) : Option State :=
  if s.roundHolds w pa n then some s
  else if s.needsRound l pa n then some (s.startRounds l pa n w)
  else none
/-- Home holds new reads of a unit while a round of it goes on (R261), and an agent's accesses of another's pinned page. -/
def State.readHeld (s : State) (agent : Option Nat) (pa n : Nat) : Bool :=
  (s.rounds.any fun r => decide (r.base < pa + n) && decide (pa < r.base + r.size)) || s.pinHolds agent pa n

/-- A plain write that has raised the home value of allowance objects (R287, R295); old is the state before it. -/
def State.raiseAl (s old : State) (pa n : Nat) : State :=
  { s with alObjects := s.alObjects.map fun o =>
      if pa < o.obj + 8 ∧ o.obj < pa + n ∧ old.read8 o.obj < s.read8 o.obj then { o with raised := true } else o }

/-- A write event with its bytes, by an agent of core c (or another agent), at home. -/
def State.storeHome (s : State) (l : Leaf) (pa : Nat) (d : List Byte) (clock : Nat) (agent : Option Nat) : Nat × State :=
  let (t, s1) := s.writeEvent l pa clock
  let s2 := (s1.writeBytes pa d).raiseAl s pa d.length
  match agent with
  | some c => (t, s2.patchL1 c pa d.length t)
  | none => (t, s2)

/-! ## Accesses of the device by physical address (R302) -/

/-- How many of n bytes from pa lie in HBM4 or in the module tier, from the first (R325). -/
def memPart (pa n : Nat) : Nat :=
  if pa < Config.hbmEnd then Nat.min n (Config.hbmEnd - pa)
  else if Config.tierBase ≤ pa ∧ pa < Config.tierEnd then Nat.min n (Config.tierEnd - pa)
  else 0

/-- A translation maps a physical address. -/
def Xlat.maps (x : Xlat) (pa : Nat) : Bool :=
  decide ((leafOf x).pa ≤ pa) && decide (pa < (leafOf x).pa + x.size)
/-- A page as home treats it when no TLB translates it: a leased one with the least grain (log 74). -/
def plainLeaf (base size : Nat) : Leaf :=
  { va := base, pa := base, size := size, sup := true, ro := false, xn := true, cls := 2, grain := 32, cp := false, efmt := 0
    tier := 0 }
/-- The page of an access by physical address: as a TLB translates it, else as home's record has it (log 74). -/
def State.leafAt (s : State) (pa : Nat) : Leaf :=
  match ((s.cores.map (·.tlb)).flatten ++ (s.dies.map (·.tlb)).flatten).find? fun x => x.maps pa with
  | some x => leafOf x
  | none =>
    match s.pageAt pa with
    | some p => plainLeaf p.base p.size
    | none => plainLeaf (pa / 65536 * 65536) 65536

/-- n bytes read by physical address without an event: 0 in the control region, which only accesses of 8 bytes reach (R303), and
free values where nothing is and in lost granules. -/
def State.physBytes (s : State) (pa n : Nat) : List Byte × State :=
  if memPart pa n = n && (s.lostIn pa n).isNone then (s.readBytes pa n, s)
  else ((List.range n).map fun i =>
    if inCtl (pa + i) then 0
    else if memPart (pa + i) 1 = 1 && (s.lostIn (pa + i) 1).isNone then s.readByte (pa + i)
    else Config.nothing s.free (pa + i), s.fresh)

/-- One write event over a list of units of a page: its time stamp, which every unit takes (R264). -/
def State.writeUnits (s : State) (l : Leaf) (clock : Nat) (us : List Nat) : Nat × State :=
  let t := maxList (clock :: us.map fun u => (s.writeEvent l u clock).1)
  (t, us.foldl (fun s u => (s.writeEvent l u t).2) s)
/-- One read event over a list of units of a page. -/
def State.readUnits (s : State) (l : Leaf) (clock : Nat) (us : List Nat) : Nat × State :=
  let t := maxList (clock :: us.map fun u => (s.readEvent l u clock).1)
  (t, us.foldl (fun s u => (s.readEvent l u t).2) s)

/-- A write by physical address (R264): the bytes that lie in memory are written, the rest have no effect. Its time. -/
def State.physWrite (s : State) (pa : Nat) (d : List Byte) (clock : Nat) : Nat × State :=
  let n := memPart pa d.length
  if n = 0 then (clock, s)
  else
    let l := s.leafAt pa
    let (t, s1) := (s.claim l none).writeUnits l clock (unitsOf l.grain pa n)
    (t, (s1.writeBytes pa (d.take n)).raiseAl s pa n)

/-- The untracked copies of a unit are invalidated at once, and home takes the reports (R261, R281). -/
def State.dropUnit (s : State) (l : Leaf) (u : Nat) : State :=
  let cores := holdersOf s u l.grain
  let hosts := s.hostLines.filter fun h => decide (h < u + l.grain) && decide (u < h + 64)
  let rep := Nat.max (maxList (cores.map s.coreClock)) (if hosts.isEmpty then 0 else s.hostClock)
  let st := s.unitStamp u l.grain
  { (cores.foldl (fun s c => s.updCore c fun k => k.dropL1 u l.grain) s).setStamp u l.grain { st with rts := Nat.max st.rts rep } with
    hostLines := s.hostLines.filter fun h => !hosts.contains h }
/-- A write by physical address that a command makes: the invalidations that it needs are made in the same step (log 74). -/
def State.physPut (s : State) (pa : Nat) (d : List Byte) (clock : Nat) : Nat × State :=
  let l := s.leafAt pa
  (((unitsOf l.grain pa (memPart pa d.length)).filter fun u => !(holdersOf s u l.grain).isEmpty ||
    (s.hostLines.any fun h => decide (h < u + l.grain) && decide (u < h + 64))).foldl (fun s u => s.dropUnit l u) s).physWrite pa d clock
/-- A long one, page by page of 4 KiB. -/
def State.physPutAll (s : State) (pa : Nat) (d : List Byte) (clock : Nat) : State :=
  (List.range (ceilDiv d.length 4096)).foldl (fun s i => (s.physPut (pa + 4096 * i) (slice d (4096 * i) (Nat.min 4096 (d.length - 4096 * i))) clock).2) s

/-- A write by physical address waits for the rounds of its units (R261, R281) and for a pinned page (R262). -/
def State.awaitPhys (s : State) (pa n : Nat) : Option State := s.awaitRound (s.leafAt pa) pa (memPart pa n) .device
/-- So does a read. -/
def State.physHeld (s : State) (pa n : Nat) : Bool := s.readHeld none pa (memPart pa n)

/-! ## Registered waiters (R185, R194) -/

/-- The waiter of a thread's CWAIT on a word of global memory is due. -/
def Thread.pushed (th : Thread) (p : Waiter → Bool) : Thread :=
  match th.park with
  | some (.cwait w) => if p w then { th with park := some (.cwait { w with pushed := true }) } else th
  | _ => th

/-- A push of a word of global memory: every waiter registered on it is due (R185). -/
def State.pushWord (s : State) (pa : Nat) : State :=
  { s.mapTeams fun _ t => t.mapThreads fun _ _ th => th.pushed fun w => !w.scratch && s.localOf t.desc t.ctx w.addr == some pa with
    queues := mapIdxFrom (fun i qs => qs.map fun q =>
        let ctx := (s.ctxAt i).id
        if q.valid then
          { q with
            pushed := q.pushed || s.physOf ctx (fld q.prod.toNat 0 56) == some pa
            head := q.head.map fun h =>
              { h with pushed := mapIdxFrom (fun j b =>
                  b || s.physOf ctx (fld (sliceNat h.bytes (64 + 16 * j) 8) 0 56) == some pa) 0 h.pushed } }
        else q) 0 s.queues
    watches := s.watches.map fun w => if w.armed && w.counter == pa then { w with pushed := true } else w }

/-- A push of a word of a team's scratchpad. -/
def Team.pushScratch (t : Team) (off : Nat) : Team :=
  t.mapThreads fun _ _ th => th.pushed fun w => w.scratch && w.addr == off

/-! ## Registers of a thread; completion of results (R77, R78, R214) -/

def Thread.g (th : Thread) (n : Nat) : Word := th.regs.getD n 0
def Thread.pair (th : Thread) (n : Nat) : DWord := th.g (n + 1) ++ th.g n
def Thread.p (th : Thread) (n : Nat) : Bool := if n = 7 then true else th.preds.getD n false
def Group.kreg (g : Group) (n : Nat) : DWord := g.k.getD n 0

/-- One register write. p7 discards it (R14); a k register is the group's and is written by the bundle (R15). -/
def Thread.write (th : Thread) : RWrite → Thread
  | .g n v => { th with regs := updAt th.regs n fun _ => v, lost := th.lost.filter fun r => decide (r ≠ .g n) }
  | .p n v =>
    if n = 7 then th else { th with preds := updAt th.preds n fun _ => v, lost := th.lost.filter fun r => decide (r ≠ .p n) }
  | .k _ _ => th
def Thread.writes (th : Thread) (l : List RWrite) : Thread := l.foldl Thread.write th

/-- Tag i completes: its held result is written and it becomes free; nothing is written for a result that was lost or
refused (R78, R321, R386). -/
def Thread.completeTag (th : Thread) (i : Nat) : Thread :=
  match th.tags.getD i none with
  | some t =>
    let th1 := if t.bad.isSome then th else th.writes t.held
    { th1 with tags := updAt th1.tags i fun _ => none }
  | none => th

/-- Bit i of a wait mask. -/
def maskTags (m : BitVec 8) : List Nat := (List.range 8).filter fun i => m.getLsbD i

/-- The untagged result of window i is written (R77). -/
def Thread.writeWindow (th : Thread) (i : Nat) : Thread :=
  match th.windows[i]? with
  | some w => if w.written then th else
      { th.writes w.held with windows := updAt th.windows i fun x => { x with written := true } }
  | none => th

/-- The pending result of a destination set is written. -/
def Thread.writeLike (th : Thread) (ds : List RName) : Thread :=
  match th.windows.findIdx? fun w => w.dests == ds && !w.held.isEmpty && !w.written with
  | some i => th.writeWindow i
  | none => th

/-- Every pending untagged result is written (R27). -/
def Thread.writeWindows (th : Thread) : Thread :=
  th.windows.foldl (fun t w => if w.written then t else t.writes w.held)
    { th with windows := th.windows.map fun w => { w with written := true } }

/-- A thread issues: each window has one instruction less; a window that is over and written closes (R76). -/
def Thread.countIssue (th : Thread) : Thread :=
  { th with windows := (th.windows.filter fun w => !(w.left == 0 && w.written)).map fun w =>
      { w with left := w.left - 1 } }

/-- The value of a register as another thread of the group reads it (R85): with every untagged result, and without tags
that have not completed. -/
def Thread.seenReg (th : Thread) (n : Nat) : Word :=
  th.windows.foldl (fun v w => if w.written then v else
    w.held.foldl (fun v x => match x with
      | .g m y => if m = n then y else v
      | _ => v) v) (th.g n)

/-! ## Matrix operations that stop (R221, R251) -/

/-- The blocks that a row has completed. -/
def OpRow.blocks (r : OpRow) : Nat := r.done
def MatOp.m (o : MatOp) : Nat := sliceNat o.block 0 1 % 128 + 1
def MatOp.n (o : MatOp) : Nat := sliceNat o.block 1 1 % 128 + 1
def MatOp.k (o : MatOp) : Nat := sliceNat o.block 2 1 % 128 + 1
def MatOp.nblocks (o : MatOp) : Nat := ceilDiv o.k 32
def MatOp.cbase (o : MatOp) : Nat := sliceNat o.block 10 1
def MatOp.glo (o : MatOp) : Nat := sliceNat o.block 11 1
def MatOp.ghi (o : MatOp) : Nat := sliceNat o.block 12 1
/-! ### The time of the term array (R217, R218) -/

/-- One step of the recurrence for a group: the ends of every earlier step, latest first, and the costs of this step
(R218). -/
def groupStep (d k : Nat) (ends : List (List Nat)) (costs : List Nat) : List (List Nat) :=
  let prev := ends.headD (costs.map fun _ => 0)
  let fb := Nat.max (k / 2) (maxList (ends.getD d []))
  mapIdxFrom (fun r c => Nat.max (prev.getD r 0) fb + c) 0 costs :: ends

/-- T of a term group whose rows have the given costs. -/
def groupTime (d : Nat) (costs : List (List Nat)) (k : Nat) : Nat :=
  let ends := (List.range k).foldl (fun e i => groupStep d i e (costs.map fun c => c.getD i 0)) []
  maxList (ends.headD [])

/-- Groups of g consecutive rows. -/
def rowGroups (g : Nat) (costs : List (List Nat)) : List (List (List Nat)) :=
  (List.range (ceilDiv costs.length g)).map fun j => (costs.drop (j * g)).take g

/-- Model time: 16 + the largest T over all groups (R218). -/
def modelTime (d g k : Nat) (costs : List (List Nat)) : Nat :=
  16 + maxList ((rowGroups g costs).map fun x => groupTime d x k)

/-- The ends of n steps of a term group, from the i-th step of a run, latest first; a cost not yet known counts as far. -/
def groupRun (d far : Nat) : Nat → Nat → List (List Nat) → List (List Nat) → List (List Nat)
  | 0, _, _, ends => ends
  | n + 1, i, costs, ends => groupRun d far n (i + 1) (costs.map fun c => c.drop 1) (groupStep d i ends (costs.map fun c => c.headD far))

/-- Rows of a term group, and B rows that the run-ahead buffer holds beyond one. -/
def MatOp.g (o : MatOp) : Nat := 2 ^ fld (sliceNat o.block 8 1) 0 3
def MatOp.d (o : MatOp) : Nat := fld (sliceNat o.block 8 1) 4 4
/-- Steps of the current run up to the end of a block. -/
def MatOp.stepsTo (o : MatOp) (b : Nat) : Nat := Nat.min (32 * (b + 1)) o.k - 32 * o.base
/-- The ends of the first n steps of the current run of a group of rows, latest first. -/
def MatOp.ends (o : MatOp) (rows : List OpRow) (far n : Nat) : List (List Nat) :=
  groupRun o.d far n 0 (rows.map fun r => r.costs.drop (32 * o.base)) []
/-- A row of a group, given the ends of the group's steps in order, has run through its next block at a cycle. -/
def MatOp.ranOut (o : MatOp) (ends : List (List Nat)) (now j : Nat) (r : OpRow) : Bool :=
  decide (o.began + 16 + (ends.getD (o.stepsTo r.done - 1) []).getD j (now + 1) ≤ now)
/-- A row has run through its next block, whose A elements the array has read. -/
def MatOp.due (o : MatOp) (now row : Nat) : Bool :=
  match o.rows[row]? with
  | none => false
  | some r =>
    r.next.isSome && o.ranOut (o.ends ((o.rows.drop (row / o.g * o.g)).take o.g) (now + 1) (o.stepsTo r.done)).reverse now (row % o.g) r
/-- A row has begun its next block: the first step has begun. -/
def MatOp.entered (o : MatOp) (now row : Nat) : Bool :=
  match o.rows[row]? with
  | none => false
  | some r =>
    let k := 32 * (r.done - o.base)
    let e := o.ends ((o.rows.drop (row / o.g * o.g)).take o.g) (now + 1) k
    r.next.isSome && decide (o.began + 16 + Nat.max ((e.headD []).getD (row % o.g) 0) (Nat.max (k / 2) (maxList (e.getD o.d []))) ≤ now)

def MatOp.minDone (o : MatOp) : Nat := (o.rows.map (·.done)).foldl Nat.min o.nblocks

/-- The stop target (R221): one more than the least number of blocks that any row has completed when any row has begun
that block, else that number. -/
def MatOp.stopTarget (o : MatOp) (now : Nat) : Nat :=
  let c := o.minDone
  if (o.rows.any fun r => decide (c < r.done)) || (List.range o.rows.length).any (o.entered now) then Nat.min o.nblocks (c + 1) else c

/-- A stop is requested: a running operation runs to its target; one that waits is stopped where it stands. -/
def MatOp.stop (now : Nat) (o : MatOp) : MatOp :=
  match o.state with
  | .queued => { o with state := .stopped, drawn := 0, granted := none }
  | .leaseWait => { o with state := .stopped, drawn := 0, granted := none }
  | .running => { o with state := .stopping, target := some (o.stopTarget now) }
  | _ => o

/-- Its automatic lease or its drawn part returns at once (R227). -/
def MatOp.release (o : MatOp) : MatOp := { o with drawn := 0, granted := none }
/-- The operation is a team's. -/
def MatOp.of (o : MatOp) (t : Team) : Bool := t.isNamed o.ctx o.vtid

/-- The lease requests of operations that no longer wait leave the queue (R253). -/
def State.dropLeaseReqs (s : State) (p : LeaseReq → Bool) : State :=
  { s with clusters := s.clusters.map fun x => { x with queue := x.queue.filter fun r => !p r } }

/-- Stops the operations of a core that satisfy p; a round that one of them has begun for its counter ends (R221, R246). -/
def State.stopOps (s : State) (c : Nat) (p : MatOp → Bool) : State :=
  let ids := ((s.core c).ops.filter p).map (·.id)
  let s1 := s.updCore c fun k => { k with ops := k.ops.map fun o => if p o then o.stop s.cycle else o }
  let s2 := s1.dropLeaseReqs fun r => match r.who with
    | .op d i => d == c && ids.contains i
    | .explicit _ => false
  { s2 with rounds := if ids.isEmpty then s2.rounds else s2.rounds.filter fun r => decide (r.writer ≠ .array c) }

/-- A thread parked in WFI continues at the next word. -/
def Thread.wake (th : Thread) : Thread :=
  match th.park with
  | some (.wfi _) => { th with park := none, pc := th.pc + 10 }
  | _ => th
/-- A core's WFI threads wake (R319). -/
def State.wakeCore (s : State) (c : Nat) : State :=
  s.mapTeams fun d t => if d = c then t.mapThreads fun _ _ th => th.wake else t
/-- Field i of a core's error counters counts one more, and the core's WFI threads wake (R319, R323). -/
def State.countError (s : State) (c i : Nat) : State :=
  (s.updCore c fun k => { k with errs := updAt k.errs i fun n => Nat.min (n + 1) (2 ^ 64 - 1) }).wakeCore c
/-- An uncorrectable error is raised as 0xA1 or 0xA4 (R323). -/
def State.noteError (s : State) (c : Nat) : State := s.countError c 3

/-! ## Taking an exception: the team halt (R27, R169, R170, R308) -/

/-- What a thread raises: the cause, the address, the extra value, and whether the instruction counts as completed. -/
structure Trap where
  cause : Nat
  addr : Nat := 0
  extra : Nat := 0
  done : Bool := false
  deriving DecidableEq, Repr

/-- A CARVE or LEASE that executes again forgets the tag or window that its first issue made for its late result. -/
def Thread.dropLate (th : Thread) : Thread :=
  if th.park = some .carve ∨ th.park = some .lease then
    { th with
      windows := th.windows.filter fun w => !w.held.isEmpty
      tags := th.tags.map fun t => match t with
        | some x => if x.pc = th.pc ∧ x.held = [] ∧ x.op = none ∧ x.delivered = false then none else t
        | none => none }
  else th

/-- The thread is parked at a word that executes again when the wait is cut short; one parked from its MMT's issue stands at the
next word already (R253, R320). -/
def Thread.reissues (th : Thread) : Bool := th.park.isSome && decide (th.park ≠ some .grant)

/-- A hold that a halt does not end: that of a TLBI, which has issued and is not complete (R316). -/
def Hold.stays : Hold → Bool
  | .tlbi _ _ => true
  | _ => false

/-- The thread stops waiting (R320): a parked instruction executes again, a lane parked at a reconvergence barrier has not
arrived. The issue of the parked word is taken back from the windows that it counted in (R84). -/
def Thread.unpark (th : Thread) : Thread :=
  { th.dropLate with
    park := none, hold := th.hold.filter Hold.stays, yielded := false
    windows := th.dropLate.windows.map fun w => if th.reissues then { w with left := w.left + 1 } else w }

/-- The arrivals of a group's parked lanes are withdrawn (R320). -/
def Group.unarrive (g : Group) : Group :=
  { g with rcv := mapIdxFrom (fun n r =>
      { r with arrived := (mapIdxFrom (fun l th => (l, th)) 0 g.threads).foldl (fun a e =>
          match e.2.park with
          | some (.rcv m) => if m = n then a &&& ~~~(BitVec.twoPow 64 e.1) else a
          | _ => a) r.arrived }) 0 g.rcv }

/-- The threads of a group stop waiting (R320). -/
def Group.quit (g : Group) : Group :=
  { g.unarrive with threads := g.unarrive.threads.map Thread.unpark, waitLine := none }

/-- A group of a halting team stops (R169); an allowance object whose queue it leaves is written by home's next operation (log 93). -/
def State.stopGroup (s : State) (c id g : Nat) : State :=
  let s1 := s.updTeam c id fun t =>
    let t1 := t.updGroup g Group.quit
    { t1 with
      halt := t1.halt.map fun h => { h with stops := updAt h.stops g fun _ => true }
      carve := none }
  let s2 := s1.updCore c fun k => { k with
    banks := k.banks.map fun b => { b with grow := b.grow.filter fun x => x != id } }
  let s3 := s2.dropLeaseReqs fun r => match r.who with
    | .op _ _ => false
    | .explicit t => t.core == c && t.team == id && t.group == g
  { s3 with
    alObjects := s3.alObjects.map fun o => { o with queue := o.queue.filter fun q =>
      !(q.core == c && q.group == g && (match s.team? c id with | some t => t.isNamed q.ctx q.vtid | none => false)) }
    rounds := s3.rounds.filter fun r => decide (r.writer ≠ .thread c id) }

/-- The halt of a team: with a faulting thread, the groups in now stop at once, the others run out their skid (R169). -/
def State.haltTeam (s : State) (c id : Nat) (h : Halt) (now : List Nat) : State :=
  let s1 := s.updTeam c id fun t => { t with halt := some h }
  let s2 := now.foldl (fun s g => s.stopGroup c id g) s1
  match s.team? c id with
  | some t => (s2.stopOps c fun o => o.of t).updCtx t.desc fun x => { x with pending := x.pending ++ [.team c t.vtid] }
  | none => s2

/-- The halt of a team in an image: its groups have stopped already, and its operations too (R320). -/
def State.haltSpilled (s : State) (c : Nat) (t : Team) (h : Halt) : State :=
  let s1 := s.updNamed c t.ctx t.vtid fun t => { t with halt := some h, groups := t.groups.map Group.quit, carve := none }
  ({ s1 with alObjects := s1.alObjects.map fun o => { o with queue := o.queue.filter fun q =>
      !(q.core == c && t.isNamed q.ctx q.vtid) } } : State).updCtx t.desc fun x => { x with pending := x.pending ++ [.team c t.vtid] }

def skidList (t : Team) : List Nat := t.groups.map fun _ => 0
/-- A group none of whose threads can issue any more has stopped already: all its threads have exited, its bank is
inactive (R320), or a relocation has stopped it (R349). -/
def stopList (t : Team) (active : Bool) : List Bool :=
  t.groups.map fun g => !active || g.threads.all fun th => th.exited

/-- Taking an exception: thread (g, l) of a bundle of team id raises a cause. The first cause halts the team; a bundle of
the skid that would raise one does not issue, its group stops, and the cause is not recorded (R169, R170). -/
def State.takeTrap (s : State) (b : Bundle) (g l : Nat) (tr : Trap) : State :=
  match s.team? b.core b.team with
  | none => s
  | some t =>
    match t.halt with
    | some _ => s.stopGroup b.core b.team b.group
    | none =>
      let pc := if tr.done then b.pc + 10 else b.pc
      let s0 := if tr.cause = 0xA1 then s.noteError b.core else s
      let s1 := s0.updThread b.core b.team g l fun th =>
        { (if tr.done then th.countIssue else th) with pc := pc, fabBad := if th.fabBad = some (tr.cause, tr.addr) then none else th.fabBad }
      s1.haltTeam b.core b.team
        { cause := tr.cause, addr := tr.addr, extra := tr.extra, cf := s.cycle, who := some (g, l), pc := pc
          skids := skidList t, stops := stopList t true, mx := none, entry := none, recorded := false }
        (if b.group = g then [g] else [b.group, g])

/-- A halt that no bundle raises: a waiter's read event, a matrix operation, the core (R164, R184, R222). The thread's PC
stands where the cause's own rule puts it. The thread's group stops at once, in a team that is halting already too (log 92). -/
def State.raiseTrap (s : State) (r : ThreadRef) (tr : Trap) (mx : Option (Nat × Nat)) : State :=
  match s.team? r.core r.team with
  | none => s
  | some t =>
    match t.halt with
    | some _ => s.stopGroup r.core r.team r.group
    | none =>
      let pc := match t.thread? r.group r.lane with
        | some th => th.pc
        | none => 0
      (if tr.cause = 0xA1 then s.noteError r.core else s).haltTeam r.core r.team
        { cause := tr.cause, addr := tr.addr, extra := tr.extra, cf := s.cycle, who := some (r.group, r.lane), pc := pc
          skids := skidList t, stops := stopList t (s.runs r.core t), mx := mx, entry := none
          recorded := false } (if s.runs r.core t then [r.group] else List.range t.groups.length)

/-- All groups of a halted team have stopped. -/
def Team.stopped (t : Team) : Bool :=
  match t.halt with
  | some h => h.stops.all fun b => b
  | none => false

/-! ## The return from an exception (R315) -/

/-- Every thread that has not exited takes the PC given for it, and the halt is over. -/
def Team.resumed (t : Team) (pcs : List (Nat × Nat × VAddr)) : Team :=
  { t.mapThreads (fun g l th =>
      if th.exited then th else
      match pcs.find? fun e => e.1 == g && e.2.1 == l with
      | some e => { th with pc := e.2.2, fabDone := if e.2.2 = th.pc then th.fabDone else [], awaits := if e.2.2 = th.pc then th.awaits else [] }
      | none => th) with halt := none }
/-- A stopped operation of a team that runs again. -/
def MatOp.resumable (t : Team) (o : MatOp) : Bool :=
  o.of t && decide (o.state = .stopped ∨ o.state = .faulted) && !o.cancelOnly && !o.cancelled
def MatOp.freed (st : OpState) (o : MatOp) : MatOp := { o with state := st, target := none, fault := none }

/-- The team runs again, and stopped matrix operations rejoin the term array queue behind those already queued (R221); those of a
team whose bank is inactive, spilled or moving stay stopped until it runs (R174, R347). -/
def State.resumeTeam (s : State) (c : Nat) (t : Team) (pcs : List (Nat × Nat × VAddr)) : State :=
  let s1 := s.updNamed c t.ctx t.vtid fun x => x.resumed pcs
  if s.spilled c t.ctx t.vtid then
    { s1 with images := s1.images.map fun x =>
        { x with ops := if x.core = c then x.ops.map fun o => if o.resumable t then o.freed .stopped else o else x.ops } }
  else
    s1.updCore c fun k =>
      { k with
        bad := k.bad.filter fun b => b.ctx != t.ctx
        ops := if s.runs c t then (k.ops.filter fun o => !o.resumable t) ++ ((k.ops.filter fun o => o.resumable t).map (MatOp.freed .queued))
          else k.ops.map fun o => if o.resumable t then o.freed .stopped else o }

end Sys2Proof.Machine
end

