-- ==== Sys2Proof/Machine/Operands.lean ====
section
/-! DEFINITION. What one thread of a bundle sees: operand forms, the registers an instruction names, effective addresses
(R65, R98, R133), the checks of a page and of memory tags (R131, R135). -/

namespace Sys2Proof.Machine

/-- A thread of a bundle: the state its operands are read from, its bundle, team, group, itself, its place, whether
its guard is true, and the lanes of its own group in the bundle whose guards are true (R121). -/
structure Env where
  s : State
  b : Bundle
  t : Team
  gr : Group
  th : Thread
  g : Nat
  l : Nat
  exec : Bool
  peers : List Nat
  crew : List (Nat × Nat)

/-! ## Operands (R65, R98, R105) -/

def Env.src32 (e : Env) : Src → Word
  | .g r => e.th.g r.toNat
  | .k r => (e.gr.kreg r.toNat).truncate 32
def Env.src64 (e : Env) : Src → DWord
  | .g r => e.th.pair r.toNat
  | .k r => e.gr.kreg r.toNat
/-- A source of an integer type, as a 64-bit value whose low 32 bits count for a 32-bit type. -/
def Env.srcTy (e : Env) (ty : IntTy) (a : Src) : DWord :=
  if ty.wide then e.src64 a else (e.src32 a).zeroExtend 64

/-- imm31 as the second source of an F1 form (R67). -/
def immTy (ty : IntTy) (imm : BitVec 31) : DWord :=
  if ty.wide then imm.signExtend 64 else (imm.signExtend 32).zeroExtend 64

def names32 : Src → List RName
  | .g r => [.g r.toNat]
  | .k r => [.k r.toNat]
def names64 : Src → List RName
  | .g r => pairNames r.toNat
  | .k r => [.k r.toNat]
def namesTy (ty : IntTy) (a : Src) : List RName := if ty.wide then names64 a else names32 a
def dstTy (ty : IntTy) (d : BitVec 8) : List RName := if ty.wide then pairNames d.toNat else [.g d.toNat]
/-- Registers d to d + n − 1 (R146, R152, R182, R288). -/
def tupleNames (d n : Nat) : List RName := (List.range n).map fun i => .g (d + i)

/-- A predicate as a destination: p7 is never a member of a destination set (R14, R77). -/
def predDst (p : BitVec 3) : List RName := if p.toNat = 7 then [] else [.p p.toNat]
def secondDst (pq : Option (BitVec 3)) : List RName :=
  match pq with
  | some p => predDst p
  | none => []

/-- Writes of a result of an integer type. -/
def writeTy (ty : IntTy) (d : BitVec 8) (v : DWord) : List RWrite :=
  if ty.wide then pairWrites d.toNat v else [.g d.toNat (v.truncate 32)]
def write32 (d : BitVec 8) (v : Word) : List RWrite := [.g d.toNat v]
def write64 (d : BitVec 8) (v : DWord) : List RWrite := pairWrites d.toNat v
def writeP (p : BitVec 3) (v : Bool) : List RWrite := [.p p.toNat v]
def writeSecond (pq : Option (BitVec 3)) (v : Bool) : List RWrite :=
  match pq with
  | some p => writeP p v
  | none => []

/-- The registers an instruction reads and its destination set (R76), beside its guard. -/
structure Uses where
  reads : List RName := []
  dests : List RName := []
  matrix : Bool := false
  deriving DecidableEq, Repr

/-! ## Effective addresses (R130 to R134) -/

/-- A checked address: space, address, tag, and the descriptor's ro and xn bits. -/
structure Ea where
  scratch : Bool
  addr : Nat
  tag : BitVec 4
  ro : Bool
  xn : Bool
  deriving DecidableEq, Repr

/-- The address of a record: the address with its tag in bits [59:56] (R308). -/
def Ea.tagged (a : Ea) : Nat := if a.scratch then a.addr else a.addr + a.tag.toNat * 2 ^ 56

/-- The integer that an index register gives (R133). -/
def Env.indexVal (e : Env) (b : BitVec 8) (iw : BitVec 2) (sg : Bool) : Int :=
  let w := match iw.toNat with | 0 => 8 | 1 => 16 | 2 => 32 | _ => 64
  let x := if w = 64 then (e.th.pair b.toNat).toNat else (e.th.g b.toNat).toNat % 2 ^ w
  if sg then sgn w x else x

def indexNames (b : BitVec 8) (iw : BitVec 2) : List RName :=
  if iw.toNat = 3 then pairNames b.toNat else [.g b.toNat]

/-- The displacement: index × scale + offset, exact (R133). -/
def Env.disp (e : Env) (i : Index) (off : Int) : Int :=
  match i with
  | .none => off
  | .scaled b iw sg sc => e.indexVal b iw sg * 2 ^ sc.toNat + off
  | .buffer b iw sg sc => e.indexVal b iw sg * 2 ^ sc.toNat + off

def idxNames (i : Index) (base : Src) : List RName :=
  match i with
  | .none => []
  | .scaled b iw _ _ => indexNames b iw
  | .buffer b iw _ _ => indexNames b iw ++ (match base with | .k r => [.k (r.toNat + 1)] | .g _ => [])

def baseNames (scratch : Bool) (a : Src) : List RName := if scratch then names32 a else names64 a
def memNames (m : MemArg) : List RName := baseNames m.scratch m.base ++ idxNames m.index m.base
def memNames10 (m : MemArg10) : List RName := baseNames m.scratch m.base ++ idxNames m.index m.base

/-- The address of an access of w bytes aligned to al, or the cause of R136 that needs no translation: the lowest (R137), but that
an address is formed only when the descriptor's bounds hold (R133, log 70). The address recorded is the low bits of the exact one, with the
pointer's tag (log 20). -/
def Env.eaOf (e : Env) (scratch : Bool) (base : Src) (i : Index) (off : Int) (w al : Nat) : Except Trap Ea :=
  let d := e.disp i off
  if scratch then
    let sa : Int := (e.src32 base).toNat + d
    if sa < 0 ∨ (e.t.bytes : Int) < sa + w then .error { cause := 0x23, addr := (sa % 2 ^ 64).toNat }
    else if sa.toNat % al ≠ 0 then .error { cause := 0x24, addr := sa.toNat }
    else .ok { scratch := true, addr := sa.toNat, tag := 0, ro := false, xn := false }
  else
    let ptr := (e.src64 base).toNat
    let va : Int := (fld ptr 0 56 : Int) + d
    let at' : Nat := (va % 2 ^ 56).toNat + fld ptr 56 4 * 2 ^ 56
    let hi : Nat := match i, base with
      | .buffer _ _ _ _, .k r => (e.gr.kreg (r.toNat + 1)).toNat
      | _, _ => 0
    let bounds : Bool := match i with
      | .buffer _ _ _ _ => decide (d < 0) || decide ((fld hi 0 48 : Int) < d + w)
      | _ => false
    if fld ptr 60 4 ≠ 0 then .error { cause := 0x20, addr := at' }
    else if bounds then .error { cause := 0x22, addr := at' }
    else if va < 0 ∨ 2 ^ 56 ≤ va then .error { cause := 0x20, addr := at' }
    else if va.toNat % al ≠ 0 then .error { cause := 0x24, addr := at' }
    else .ok { scratch := false, addr := va.toNat, tag := BitVec.ofNat 4 (fld ptr 56 4), ro := bitOf hi 63
               xn := bitOf hi 62 }

def Env.ea (e : Env) (m : MemArg) (w : Nat) : Except Trap Ea := e.eaOf m.scratch m.base m.index m.off.toInt w w
def Env.ea10 (e : Env) (m : MemArg10) (w : Nat) : Except Trap Ea := e.eaOf m.scratch m.base m.index m.off.toInt w w

/-! ## Pages and memory tags (R131, R135, R305) -/

/-- What a page check finds: the leaf, a cause, or a page to be walked. -/
inductive PageRes where
  | ok (l : Leaf)
  | trap (cause : Nat)
  | miss (page : Nat)
  deriving DecidableEq, Repr

/-- Permission of a page for a reader or writer at a level (R135). -/
def permOf (l : Leaf) (sup write roDesc : Bool) : PageRes :=
  if l.sup && !sup then .trap 0x26
  else if write && (l.ro || roDesc) then .trap 0x27
  else .ok l

/-- The cause of an access whose page has no translation (R136, R305, R321). -/
def NoXlat.cause : NoXlat → Nat
  | .invalid => 0x25
  | .malformed => 0x29
  | .lost => 0xA1

def State.checkPage (s : State) (c ctx : Nat) (sup : Bool) (va : Nat) (write roDesc : Bool) : PageRes :=
  match s.translate c ctx va with
  | .bad w => .trap w.cause
  | .miss p => .miss p
  | .hit l => permOf l sup write roDesc

/-- The same, for the agents without a TLB. -/
def State.checkNow (s : State) (ctx : Nat) (sup : Bool) (va : Nat) (write : Bool) : PageRes :=
  match s.walk ctx va with
  | .bad w => .trap w.cause
  | .leaf x => permOf (leafOf x) sup write false

/-- The L1 copy that serves a read of pa by core c at a clock (R264): of a leased unit only while its lease covers it. -/
def State.l1Copy (s : State) (c pa clock : Nat) : Option L1Copy :=
  (s.core c).l1.find? fun x => decide (x.base ≤ pa) && decide (pa < x.base + x.size) && !x.dead &&
    (!x.leased || decide (clock ≤ x.rts))

/-- The tag of the granule at pa as the access sees it: with the L1 copy that serves it (R177), else at home. -/
def State.seenTag (s : State) (c pa clock : Nat) (l1 : Bool) : BitVec 4 :=
  match (if l1 then s.l1Copy c pa clock else none) with
  | some x => x.tags.getD (pa / 32 - x.base / 32) 0
  | none => s.gtag pa

/-- Some granule of an access has another tag than the pointer (R131). -/
def State.tagsDiffer (s : State) (c pa n clock : Nat) (l1 : Bool) (tag : BitVec 4) : Bool :=
  (granulesOf pa n).any fun g => s.seenTag c (Nat.max pa (g * 32)) clock l1 != tag

/-! ## Registers that an error has destroyed (R322) -/

def Env.lostReg (e : Env) (l : List RName) : Bool :=
  l.any fun r => match r with
    | .k n => e.gr.lost.contains n
    | x => e.th.lost.contains x

/-! ## Claimed accumulators (R214) -/

/-- An undelivered operation claims register n of lane l of group g. -/
def MatOp.claims (o : MatOp) (team g l n : Nat) : Bool :=
  o.team == team && decide (o.cbase ≤ n) && decide (n < o.cbase + o.m) &&
    ((g == o.glo && decide (l < Nat.min o.n 64)) || (g == o.ghi && decide (64 < o.n) && decide (l + 64 < o.n)))

def Env.claimed (e : Env) (ds : List RName) : Bool :=
  (e.s.core e.b.core).ops.any fun o => ds.any fun d =>
    match d with
    | .g n => o.claims e.t.id e.g e.l n
    | _ => false

end Sys2Proof.Machine
end

