-- ==== Sys2Proof/Machine/Flags.lean ====
section
/-! DEFINITION. Conditions and second results: integer ranges and overflow (R30, R32, R103), integer conditions (R104),
and the ways a saturating result is formed. -/

namespace Sys2Proof.Machine

/-- The least and the greatest value of an integer type of width w (R30). -/
def loOf (w : Nat) (signed : Bool) : Int := if signed then -(2 ^ (w - 1)) else 0
def hiOf (w : Nat) (signed : Bool) : Int := if signed then 2 ^ (w - 1) - 1 else 2 ^ w - 1

/-- The integer that w bits hold. -/
def valOf (w : Nat) (signed : Bool) (x : Nat) : Int := if signed then sgn w (x % 2 ^ w) else (x % 2 ^ w : Nat)

def tyVal (ty : IntTy) (v : DWord) : Int := valOf ty.width ty.signed v.toNat

/-- The exact result lies outside the type (R103). -/
def overflows (w : Nat) (signed : Bool) (x : Int) : Bool := decide (x < loOf w signed) || decide (hiOf w signed < x)

def clampInt (x lo hi : Int) : Int := if x < lo then lo else if hi < x then hi else x

/-- The low w bits of an exact result, or the clamped result (R32). -/
def narrow (w : Nat) (signed sat : Bool) (x : Int) : Nat :=
  ((if sat then clampInt x (loOf w signed) (hiOf w signed) else x) % 2 ^ w).toNat

/-- The 64-bit image of an exact result of an integer type. -/
def tyResult (ty : IntTy) (sat : Bool) (x : Int) : DWord := BitVec.ofNat 64 (narrow ty.width ty.signed sat x)

/-- ICMP's conditions (R104). -/
def condHolds (c : ICond) (a b : Int) : Bool :=
  match c with
  | .eq => decide (a = b)
  | .ne => decide (a ≠ b)
  | .lt => decide (a < b)
  | .le => decide (a ≤ b)

end Sys2Proof.Machine
end

