-- ==== Sys2Proof/Machine/Run.lean ====
section
/-! DEFINITION. How the bundle in the issue stage executes one word (R64, R76 to R86, R139, R140): waits, guards, the
causes in their order, all-or-nothing, the results of its threads in lane order, windows, tags and PCs. -/

namespace Sys2Proof.Machine

/-- What a thread's checks find: nothing, a cause, pages to be walked (R307), a condition that holds the bundle (R158
item 4), an absent scratchpad line (R142), units that a write has to have invalidated first (R261), or a cause of the fabric, which the
thread meets alone (R139, R386). -/
inductive Chk where
  | ok
  | trap (t : Trap)
  | miss (pages : List Nat)
  | later (h : Hold)
  | line (n : Nat)
  | round (units : List (Nat × Nat))
  | alone (t : Trap)
  deriving DecidableEq, Repr

/-- The first check of a list that is not passed. -/
def firstChk : List Chk → Chk
  | [] => .ok
  | .ok :: r => firstChk r
  | c :: _ => c

/-- The rank of a memory cause (R137, R311): 0x29 stands in the place of 0x25. -/
def causeRank (c : Nat) : Nat := if c = 0x29 then 0x25 else c
def Chk.trapIs (p : Nat → Bool) : Chk → Bool
  | .trap t => p t.cause
  | _ => false
def leastTrap : List Chk → Option Trap
  | [] => none
  | .trap t :: r => (match leastTrap r with
    | some u => if causeRank u.cause < causeRank t.cause then some u else some t
    | none => some t)
  | _ :: r => leastTrap r
/-- The checks of the pieces of one access (R137, R311): pages that still need a walk; the cause that ranks first, whichever piece meets
it; then absent lines; then the loss of data; then what holds the bundle. -/
def pieceChk (l : List Chk) : Chk :=
  let miss := (l.map fun c => match c with | .miss p => p | _ => []).flatten
  if !miss.isEmpty then .miss miss.eraseDups
  else
    match leastTrap (l.filter (Chk.trapIs fun c => c != 0xA1)) with
    | some t => .trap t
    | none => firstChk (l.filter (fun c => match c with | .line _ => true | _ => false) ++ l.filter (Chk.trapIs fun _ => true) ++ l)

/-- What an executing thread does to itself: register writes, its next PC when it is not the next word, parking, a hold
after issue, its clock's new lower bound, fabric writes sent; op is a matrix operation's number for its tag, tagless
says that it allocates no tag, bad that its tag's result is lost, stay that the thread waits at the instruction for the
answer to its fabric access (R386), stayAll that its group's threads of the bundle wait with it, and late that its
result comes when a park ends (R162, R228). -/
structure Out where
  writes : List RWrite := []
  pc : Option VAddr := none
  park : Option Park := none
  hold : Option Hold := none
  clock : Nat := 0
  tagless : Bool := false
  op : Option Nat := none
  exited : Bool := false
  yielded : Bool := false
  fmt : Option Word := none
  fence : Nat := 0
  fabWrites : List Nat := []
  bad : Option (Nat × Nat) := none
  stay : Bool := false
  stayAll : Bool := false
  late : Bool := false
  deriving DecidableEq, Repr

/-- Which tags the threads of a word wait for beside those of its wait mask (R26, R78, R162, R215): the tag that an allocating
word names, whatever the thread's guard; all of them, in a thread that performs the word; or the tag that the word names in the
performing thread only, the one that allocates it. -/
inductive TagUse where
  | named
  | every
  | elected
  deriving DecidableEq, Repr

/-- An instruction's meaning for the bundle driver: what it names, which executing threads perform it, its checks in two
parts (the causes 0x05 and 0x06, then those after 0x08), its effect thread by thread in lane order, and what follows
once the threads have issued. An instruction whose bundle does not issue at once gives the whole of what follows
its checks (R289). needs are the registers that chk depends on: it is not judged while one of them is lost. bystander is what
an executing thread that does not perform the word checks; mute says that a performing thread raises no more than 0x08, since
another has failed the bundle's vote (R215). -/
structure Sem where
  uses : Uses
  sel : List Env → List Env := fun l => l
  allTags : TagUse := .named
  needs : List RName := uses.reads
  early : Env → Option Trap := fun _ => none
  chk : Env → Chk := fun _ => .ok
  act : Env → State → State × Out
  post : Bundle → State → State := fun _ s => s
  whole : Option (Hdr → Bundle → List Env → State → State) := none
  bystander : Env → Chk := fun _ => .ok
  mute : Env → Bool := fun _ => false

/-- Performing threads of instructions that act once per bundle: the lowest executing lane. -/
def lowestOnly (l : List Env) : List Env := l.take 1
/-- Of instructions that act once per group (R147): the lowest executing lane of each group. -/
def lowestPerGroup : List Env → List Env
  | [] => []
  | e :: r => e :: (lowestPerGroup r).filter fun x => x.g != e.g

def guardOf (h : Hdr) (th : Thread) : Bool := th.p h.gp.toNat ^^ h.gn

def Thread.completeTags (th : Thread) (l : List Nat) : Thread := l.foldl Thread.completeTag th

/-- The tags that every thread of a word waits for and completes, its guard true or false (R64, R78): those of its wait mask, and
the one it names for its result. -/
def awaitedTags (h : Hdr) (use : TagUse) : List Nat :=
  maskTags h.wait ++ (if decide (use ≠ .elected) && h.av then [h.tag.toNat] else [])

/-- The thread executes the word: its guard, read once the tags that it waits for are complete, is true (R64, R78). -/
def Thread.execs (th : Thread) (h : Hdr) (use : TagUse) : Bool := guardOf h (th.completeTags (awaitedTags h use))

/-- The tags a word completes in a thread (R78): those that every thread waits for; in a thread that performs the word, all of them
for EXIT and CARVE, and the tag that an elected lane allocates. -/
def Thread.tagsDone (h : Hdr) (use : TagUse) (performs : Bool) : List Nat :=
  awaitedTags h use ++
    (if performs then
      match use with
      | .named => []
      | .every => List.range 8
      | .elected => if h.av then [h.tag.toNat] else []
    else [])

/-- The cause a tag's completion raises (R321, R386): data loss names the load's PC in extra. -/
def Thread.badTag (th : Thread) (l : List Nat) : Option Trap :=
  l.findSome? fun i => match th.tags.getD i none with
    | some t => match t.bad with
      | some (c, a) => some { cause := c, addr := a, extra := if c = 0xA1 then t.pc.toNat else 0 }
      | none => none
    | none => none

/-- A register that a completing tag should have written, whose result is lost or refused. -/
def Thread.missed (th : Thread) (l : List Nat) (r : RName) : Bool :=
  l.any fun i => match th.tags.getD i none with
    | some t => t.bad.isSome && t.dests.contains r
    | none => false

/-- A register lies in the destination set of an open window that the next instruction stands in (R77). -/
def Thread.inWindow (th : Thread) (l : List RName) : Bool :=
  th.windows.any fun w => decide (0 < w.left) && w.dests.any fun d => l.contains d
/-- A register lies in the destination set of an outstanding tag (R80). -/
def Thread.inTags (th : Thread) (l : List RName) : Bool :=
  th.tags.any fun t => match t with
    | some x => x.dests.any fun d => l.contains d
    | none => false

def guardName (h : Hdr) : List RName := if h.gp.toNat = 7 then [] else [.p h.gp.toNat]

/-- An instruction names a general register at or above N (R13). -/
def beyond (n : Nat) (l : List RName) : Bool :=
  l.any fun r => match r with
    | .g i => decide (n ≤ i)
    | _ => false

def hasK (l : List RName) : Bool :=
  l.any fun r => match r with
    | .k _ => true
    | _ => false

/-- The combinations of R81. -/
def misuse (h : Hdr) (u : Uses) : Bool :=
  (h.av && u.dests.isEmpty) || (h.av && h.la != 0) || (!h.av && h.tag != 0) ||
    (hasK u.dests && (h.av || h.la != 0)) || (u.matrix && !h.av)

/-- The cause of a read of a register that an error has destroyed (R322). -/
def lossTrap (e : Env) : Trap := { cause := 0xA1, extra := e.b.pc.toNat }

/-- The causes of an executing thread up to 0x08, in the order of R28 and R86. A target that no register holds any more is not
judged; gone tells the registers that are lost. -/
def Env.hazards (e : Env) (h : Hdr) (u : Uses) (early : Env → Option Trap) (gone : RName → Bool) : Option Trap :=
  if beyond e.t.nregs (u.reads ++ u.dests) then some { cause := 0x04 }
  else match (early e).filter fun t => !(decide (t.cause = 0x06) && u.reads.any gone) with
  | some t => some t
  | none =>
    if e.th.inWindow (u.reads ++ u.dests) || e.th.inTags u.dests then some { cause := 0x07 }
    else if misuse h u then some { cause := 0x08 }
    else none

/-- The lower of two causes, each of which may be absent. -/
def lowerTrap (x y : Option Trap) : Option Trap :=
  match x, y with
  | some a, some b => if a.cause ≤ b.cause then some a else some b
  | some a, none => some a
  | none, y => y

/-- Everything a performing thread's word can meet before the bundle performs it (R311): the causes up to 0x08; the causes of its own
checks, unless they depend on a register that is lost; then a claimed destination and the loss of a register or of a completing
tag's result, which rest names, lowest code first. -/
def Env.checks (e : Env) (h : Hdr) (m : Sem) (gone : RName → Bool) (rest : Option Trap) : Chk :=
  match e.hazards h m.uses m.early gone with
  | some t => .trap t
  | none =>
    if m.mute e then .ok else
    let lost := lowerTrap rest (if e.lostReg m.uses.reads then some (lossTrap e) else none)
    let last := lowerTrap (if e.claimed m.uses.dests then some { cause := 0x44 } else none) lost
    if m.needs.any gone then (match last with | some t => .trap t | none => .ok)
    else
      match m.chk e, last with
      | .trap t, some x => if x.cause < t.cause ∧ m.uses.matrix = false then .trap x else .trap t
      | .miss p, _ => .miss p
      | .alone t, some x => if x.cause < t.cause then .trap x else .alone t
      | _, some x => .trap x
      | c, none => c

/-- The threads of a bundle, from a state whose team holds their completed tags. -/
def envsOf (s : State) (b : Bundle) (h : Hdr) (use : TagUse) (before t : Team) : List Env :=
  b.members.filterMap fun m =>
    match t.groups[m.1]?, before.thread? m.1 m.2 with
    | some gr, some old => match gr.threads[m.2]? with
      | some th => some { s := s, b := b, t := t, gr := gr, th := th, g := m.1, l := m.2, exec := old.execs h use, peers := [], crew := [] }
      | none => none
    | _, _ => none

/-- Each thread with the executing lanes of its own group (R121), and of the bundle. -/
def withPeers (l : List Env) : List Env :=
  l.map fun e => { e with
    peers := (l.filter fun x => x.exec && x.g == e.g).map fun x => x.l
    crew := (l.filter fun x => x.exec).map fun x => (x.g, x.l) }

def isMember (b : Bundle) (g l : Nat) : Bool := b.members.any fun m => m.1 == g && m.2 == l

/-- The team with the tags completed that the word's threads wait on. -/
def completedTeam (h : Hdr) (use : TagUse) (b : Bundle) (performs : Nat → Nat → Bool) (t : Team) : Team :=
  t.mapThreads fun g l th =>
    if isMember b g l then th.completeTags (Thread.tagsDone h use (performs g l)) else th

/-- The thread performs the word: its guard is true, and the meaning selects it. -/
def performers (h : Hdr) (use : TagUse) (sel : List Env → List Env) (s : State) (b : Bundle) (t : Team) (g l : Nat) : Bool :=
  (sel ((envsOf s b h use t t).filter fun e => e.exec)).any fun p => p.g == g && p.l == l

/-- The team as a word finds it: the tags that it waits on are complete (R78). -/
def State.wordTeam (s : State) (h : Hdr) (use : TagUse) (sel : List Env → List Env) (b : Bundle) (t : Team) : Team :=
  completedTeam h use b (performers h use sel s b t) t
/-- The state as a word finds it. -/
def State.wordState (s : State) (h : Hdr) (use : TagUse) (sel : List Env → List Env) (b : Bundle) (t : Team) : State :=
  s.updTeam b.core b.team fun _ => s.wordTeam h use sel b t
/-- What each thread of the bundle sees of the word. -/
def State.views (s : State) (h : Hdr) (use : TagUse) (sel : List Env → List Env) (b : Bundle) (t : Team) : List Env :=
  withPeers (envsOf (s.wordState h use sel b t) b h use t (s.wordTeam h use sel b t))
/-- Those of the threads that perform it, in lane order. -/
def State.doers (s : State) (h : Hdr) (use : TagUse) (sel : List Env → List Env) (b : Bundle) (t : Team) : List Env :=
  (s.views h use sel b t).filter fun e => performers h use sel s b t e.g e.l

/-- Holds every thread of a bundle: it has not issued (R158). -/
def State.holdBundle (s : State) (b : Bundle) (h : Hold) : State :=
  s.updTeam b.core b.team fun t => t.mapThreads fun g l th =>
    if isMember b g l then { th with hold := some h } else th

/-- The groups whose own access met an absent line wait for it (R142). -/
def State.waitLines (s : State) (b : Bundle) (l : List (Nat × Nat)) : State :=
  l.foldl (fun s x => s.updGroup b.core b.team x.1 fun g => { g with waitLine := some x.2 }) s

/-- The thread as it acts after events at time k (R140, log 98): its own follow them. -/
def Env.at (e : Env) (k : Nat) : Env := { e with th := { e.th with clock := Nat.max e.th.clock k } }
/-- The events of the bundle in the slot before, of the same issue cycle, precede those of a bundle of the second port (R140). -/
def State.slotStart (s : State) (b : Bundle) : Nat := if b.slot % 2 = 0 then 0 else (s.core b.core).slotClock
/-- A core's bundle has made events up to time k. -/
def State.slotTime (s : State) (c k : Nat) : State :=
  if k = 0 then s else s.updCore c fun x => { x with slotClock := Nat.max x.slotClock k }
/-- The latest event of a bundle's threads. -/
def lastTime (outs : List (Nat × Nat × Out)) : Nat := maxList (outs.map fun o => o.2.2.clock)

/-- Runs the effects of the performing threads in lane order, each after the events of those before, and of time k (R140). -/
def runActs (act : Env → State → State × Out) : Nat → List Env → State → State × List (Nat × Nat × Out)
  | _, [], s => (s, [])
  | k, e :: r, s =>
    let (s1, o) := act (e.at k) s
    let (s2, os) := runActs act (Nat.max k o.clock) r s1
    (s2, (e.g, e.l, o) :: os)
/-- The threads of a bundle, each at the time at which it would act if those before it did. -/
def laneTimes (act : Env → State → State × Out) (performs : Env → Bool) : Nat → List Env → State → List Env
  | _, [], _ => []
  | k, e :: r, s =>
    e.at k :: if performs e then laneTimes act performs (Nat.max k (act (e.at k) s).2.clock) r (act (e.at k) s).1
      else laneTimes act performs k r s

/-- The k register writes of a bundle: each group takes those of its lowest performing lane (R15). -/
def kWrites (outs : List (Nat × Nat × Out)) (g : Nat) : List RWrite :=
  match outs.find? fun o => o.1 == g with
  | some o => o.2.2.writes
  | none => []

def Group.writeK (g : Group) : RWrite → Group
  | .k n v => { g with k := updAt g.k n fun _ => v, lost := g.lost.filter fun i => i != n }
  | _ => g

/-- A write that a window or a tag holds: not one of a k register, which the group takes at once (R83), nor one of p7. -/
def RWrite.kept : RWrite → Bool
  | .g _ _ => true
  | .p n _ => n != 7
  | .k _ _ => false

/-- A thread that exits: what its windows hold is written, and no result lands in it any more (R26). -/
def Thread.retire (th : Thread) (exited : Bool) : Thread := if exited then { th.writeWindows with windows := [] } else th

/-- An executing thread issues: its result goes into a window or a tag, and its PC moves on (R76 to R78). -/
def Thread.issue (th : Thread) (h : Hdr) (u : Uses) (pc : VAddr) (cycle : Nat) (o : Out) : Thread :=
  let th1 := th.countIssue
  let ws := o.writes.filter RWrite.kept
  let th2 :=
    if h.av && !o.tagless then
      let tag : TagState := { dests := u.dests, held := ws, delivered := false, pc := pc, bad := o.bad, op := o.op }
      { th1 with tags := updAt th1.tags h.tag.toNat fun _ => some tag }
    else if ws.isEmpty && !(o.late && !u.dests.isEmpty) then th1
    else { th1 with windows := th1.windows ++ [{ dests := u.dests, held := ws, left := h.la.toNat, written := false }] }
  let th3 := th2.retire o.exited
  { th3 with
    pc := o.pc.getD (if o.park.isSome || o.exited then pc else pc + 10)
    park := o.park, hold := o.hold, lastIssue := cycle, clock := Nat.max th3.clock o.clock
    exited := o.exited, yielded := o.yielded, fmt := o.fmt.getD th3.fmt, fence := Nat.max th3.fence o.fence
    fabWrites := th3.fabWrites ++ o.fabWrites, fabDone := [], awaits := [] }

/-- A thread that has sent a fabric access and waits at the instruction for a result (R83, R85, R386). -/
def Thread.stays (th : Thread) (u : Uses) (cycle : Nat) (o : Out) : Thread :=
  { th with hold := o.hold, lastIssue := cycle, awaits := u.dests }

/-- A result that comes when a park ends goes into the tag or the window that its issue made. -/
def Thread.lateResult (th : Thread) (l : List RWrite) : Thread :=
  let ws := l.filter RWrite.kept
  if ws.isEmpty then th
  else if th.tags.any fun t => match t with | some x => decide (x.pc = th.pc) | none => false then
    { th with tags := th.tags.map fun t => t.map fun x => if x.pc = th.pc then { x with held := ws } else x }
  else { th with windows := updAt th.windows (th.windows.length - 1) fun w => { w with held := ws, written := false } }

/-- A thread of the bundle that does not perform the word advances past it. -/
def Thread.pass (th : Thread) (pc : VAddr) (cycle : Nat) : Thread :=
  { th.countIssue with pc := pc + 10, hold := none, lastIssue := cycle, fabDone := [], awaits := [] }

/-- Every thread of the bundle issues; k registers are written once per group. -/
def State.commit (s : State) (h : Hdr) (u : Uses) (b : Bundle) (outs : List (Nat × Nat × Out)) : State :=
  s.updTeam b.core b.team fun t =>
    let t1 := t.mapThreads fun g l th =>
      if isMember b g l then
        match outs.find? fun o => o.1 == g && o.2.1 == l with
        | some o => if o.2.2.stay then th.stays u s.cycle o.2.2 else th.issue h u b.pc s.cycle o.2.2
        | none =>
          match outs.find? fun o => o.1 == g && o.2.2.stayAll with
          | some o => th.stays u s.cycle o.2.2
          | none => th.pass b.pc s.cycle
      else th
    { t1 with groups := mapIdxFrom (fun g gr => (kWrites outs g).foldl Group.writeK gr) 0 t1.groups }

/-- A bundle of a halting team's sibling group counts as skid; after six the group stops (R169). -/
def State.countSkid (s : State) (b : Bundle) : State :=
  match s.team? b.core b.team with
  | none => s
  | some t =>
    match t.halt with
    | none => s
    | some h =>
      let k := h.skids.getD b.group 0 + 1
      let s1 := s.updTeam b.core b.team fun t => { t with halt := some { h with skids := updAt h.skids b.group fun _ => k } }
      if 6 ≤ k then s1.stopGroup b.core b.team b.group else s1

/-- Answers of walks are used up by the bundle that asked (R306). -/
def State.usedWalks (s : State) (b : Bundle) (t : Team) : State :=
  s.updCore b.core fun k => { k with bad := k.bad.filter fun x => x.ctx != t.ctx }

/-- What the members' checks come to: the pages to walk, the first cause, the absent lines, the first hold. -/
def missPages (l : List (Env × Chk)) : List Nat :=
  (l.map fun x => match x.2 with | .miss p => p | _ => []).flatten
def firstTrap (l : List (Env × Chk)) : Option (Env × Trap) :=
  l.findSome? fun x => match x.2 with | .trap t => some (x.1, t) | _ => none
def absentLines (l : List (Env × Chk)) : List (Nat × Nat) :=
  l.filterMap fun x => match x.2 with | .line n => some (x.1.g, n) | _ => none
def roundUnits (l : List (Env × Chk)) : List (Nat × Nat) :=
  (l.map fun x => match x.2 with | .round us => us | _ => []).flatten
def firstHold (l : List (Env × Chk)) : Option Hold :=
  l.findSome? fun x => match x.2 with | .later h => some h | _ => none

/-- A completing tag's cause comes to what the thread's checks give: of the fabric, and then the thread meets it alone (R386), or the
loss of its data. -/
def Chk.withTag (c : Chk) (rest : Option Trap) : Chk :=
  match c, rest with
  | .trap t, some x => if t.cause < x.cause then .trap t else .alone x
  | .alone t, some x => .alone (if t.cause < x.cause then t else x)
  | .miss p, _ => .miss p
  | _, some x => .alone x
  | c, none => c

/-- The checks of one member: its guard in a window (R77) or lost; when it performs the word, everything the word can raise; else
what a bystander checks, and a lost or refused tag that it completes. -/
def memberChk (h : Hdr) (m : Sem) (before : Team) (performs : Nat → Nat → Bool) (e : Env) : Chk :=
  let done := Thread.tagsDone h m.allTags (performs e.g e.l)
  let tag : Option Trap := match before.thread? e.g e.l with
    | some th => th.badTag done
    | none => none
  let rest := tag.filter fun t => t.cause == 0xA1
  let gone (r : RName) : Bool := e.lostReg [r] || (match before.thread? e.g e.l with | some th => th.missed done r | none => false)
  let found : Chk :=
    if e.th.inWindow (guardName h) then .trap { cause := 0x07 }
    else if (guardName h).any gone then
      match lowerTrap rest (if e.lostReg (guardName h) then some (lossTrap e) else none) with
      | some t => .trap t
      | none => .ok
    else if performs e.g e.l then e.checks h m gone rest
    else
      match (if e.exec then m.bystander e else .ok), rest with
      | .trap t, _ => .trap t
      | .miss p, _ => .miss p
      | _, some t => .trap t
      | c, none => c
  found.withTag (tag.filter fun t => t.cause != 0xA1)

/-- What the members of the bundle in the issue stage check, each at the time at which it would act. -/
def State.bundleChks (s : State) (h : Hdr) (m : Sem) (b : Bundle) (t : Team) : List (Env × Chk) :=
  let performs := performers h m.allTags m.sel s b t
  (laneTimes m.act (fun e => performs e.g e.l) (s.slotStart b) (s.views h m.allTags m.sel b t) (s.wordState h m.allTags m.sel b t)).map
    fun e => (e, memberChk h m t performs e)

/-- The members of a bundle that meet a cause alone. -/
def aloneTraps (l : List (Env × Chk)) : List (Env × Trap) :=
  l.filterMap fun x => match x.2 with | .alone t => some (x.1, t) | _ => none

/-- The bundle in the issue stage executes a word with a meaning, whatever causes its threads meet alone. With no bundle nothing
happens. -/
def runWord (h : Hdr) (m : Sem) (s : State) : State :=
  match s.bundle with
  | none => s
  | some b =>
    let s0 := { s with bundle := none }
    match s.team? b.core b.team with
    | none => s0
    | some t =>
      let s1 := s0.wordState h m.allTags m.sel b t
      let ps := s0.doers h m.allTags m.sel b t
      let cs := s0.bundleChks h m b t
      if !(missPages cs).isEmpty then
        (s0.addMisses b.core t.ctx (missPages cs)).holdBundle b (.xlat t.ctx (missPages cs))
      else
        match firstTrap cs with
        | some (e, tr) => (s0.usedWalks b t).takeTrap b e.g e.l tr
        | none =>
          if !(absentLines cs).isEmpty then s0.waitLines b (absentLines cs)
          else if !(roundUnits cs).isEmpty then
            ((roundUnits cs).foldl (fun s u => s.startRound u.1 u.2 (.thread b.core b.team)) s0).holdBundle b
              (.home ((roundUnits cs).map fun u => u.1))
          else
            match firstHold cs with
            | some hd => s0.holdBundle b hd
            | none =>
              match m.whole with
              | some f => f h b ps s1
              | none =>
                let (s2, outs) := runActs m.act (s0.slotStart b) ps s1
                m.post b (((s2.slotTime b.core (lastTime outs)).commit h m.uses b outs).countSkid b)

/-- The threads that meet a cause of the fabric meet it alone: the others execute the word (R139, R386), and then the first of them
takes its exception. -/
def runBundle (h : Hdr) (m : Sem) (s : State) : State :=
  match s.bundle with
  | none => s
  | some b =>
    match s.team? b.core b.team with
    | none => runWord h m s
    | some t =>
      match aloneTraps (({ s with bundle := none } : State).bundleChks h m b t) with
      | [] => runWord h m s
      | (e, tr) :: r =>
        let rest := b.members.filter fun x => !(((e, tr) :: r).any fun y => y.1.g == x.1 && y.1.l == x.2)
        (if rest.isEmpty then ({ s with bundle := none } : State).usedWalks b t
          else runWord h m { s with bundle := some { b with members := rest } }).takeTrap b e.g e.l tr

/-- A meaning that only computes in registers: its writes come from the operands at issue. -/
def pureSem (u : Uses) (f : Env → List RWrite) : Sem :=
  { uses := u, act := fun e s => (s, { writes := f e }) }

/-- The word of a bundle that could not be fetched or decoded (R14, R62): its lowest lane takes the cause. -/
def State.badWord (s : State) (b : Bundle) (tr : Trap) : State :=
  match b.members with
  | [] => { s with bundle := none }
  | m :: _ => ({ s with bundle := none } : State).takeTrap b m.1 m.2 tr

abbrev Res := Host.Outcome State Fault Refusal

end Sys2Proof.Machine
end

