-- ==== Sys2Proof/Machine/IntArith.lean ====
section
/-! DEFINITION. Integer arithmetic and comparison: the meanings of rows 0x01 and 0x02 (R103, R104). -/

namespace Sys2Proof.Machine

/-- The writes of an arithmetic result: d gets the exact result narrowed or clamped, pq whether it overflowed (R103). -/
def arithWrites (ty : IntTy) (sat : Bool) (d : BitVec 8) (pq : Option (BitVec 3)) (x : Int) : List RWrite :=
  writeTy ty d (tyResult ty sat x) ++ writeSecond pq (overflows ty.width ty.signed x)

/-- The value of a source under an integer type. -/
def Env.int (e : Env) (ty : IntTy) (a : Src) : Int := tyVal ty (e.srcTy ty a)
def immInt (ty : IntTy) (imm : BitVec 31) : Int := tyVal ty (immTy ty imm)

/-- Arithmetic of two register sources. -/
def arith2 (ty : IntTy) (sat : Bool) (d : BitVec 8) (a b : Src) (pq : Option (BitVec 3)) (f : Int → Int → Int) : Sem :=
  pureSem { reads := namesTy ty a ++ namesTy ty b, dests := dstTy ty d ++ secondDst pq } fun e =>
    arithWrites ty sat d pq (f (e.int ty a) (e.int ty b))
/-- Arithmetic of a register and an immediate. -/
def arith1 (ty : IntTy) (sat : Bool) (d a : BitVec 8) (imm : BitVec 31) (f : Int → Int → Int) : Sem :=
  pureSem { reads := namesTy ty (.g a), dests := dstTy ty d } fun e =>
    arithWrites ty sat d none (f (e.int ty (.g a)) (immInt ty imm))
/-- Arithmetic of three register sources. -/
def arith3 (ty : IntTy) (sat : Bool) (d : BitVec 8) (a b c : Src) (pq : Option (BitVec 3)) (f : Int → Int → Int → Int) :
    Sem :=
  pureSem { reads := namesTy ty a ++ namesTy ty b ++ namesTy ty c, dests := dstTy ty d ++ secondDst pq } fun e =>
    arithWrites ty sat d pq (f (e.int ty a) (e.int ty b) (e.int ty c))

/-- The exact results of R103's table. -/
def mulHigh (w : Nat) (a b : Int) : Int := a * b / 2 ^ w
def intMin (a b : Int) : Int := if a ≤ b then a else b
def intMax (a b : Int) : Int := if a ≤ b then b else a
def intAbs (a : Int) : Int := if a < 0 then -a else a

def execIaddF0 (h : Hdr) (ty : IntTy) (sat : Bool) (d : BitVec 8) (a b : Src) (pq : Option (BitVec 3)) (s : State) : Res :=
  .next (runBundle h (arith2 ty sat d a b pq fun x y => x + y) s)
def execIaddF1 (h : Hdr) (ty : IntTy) (sat : Bool) (d a : BitVec 8) (imm : BitVec 31) (s : State) : Res :=
  .next (runBundle h (arith1 ty sat d a imm fun x y => x + y) s)
def execIsubF0 (h : Hdr) (ty : IntTy) (sat : Bool) (d : BitVec 8) (a b : Src) (pq : Option (BitVec 3)) (s : State) : Res :=
  .next (runBundle h (arith2 ty sat d a b pq fun x y => x - y) s)
def execIsubF1 (h : Hdr) (ty : IntTy) (sat : Bool) (d a : BitVec 8) (imm : BitVec 31) (s : State) : Res :=
  .next (runBundle h (arith1 ty sat d a imm fun x y => x - y) s)
def execImulF0 (h : Hdr) (ty : IntTy) (sat : Bool) (d : BitVec 8) (a b : Src) (pq : Option (BitVec 3)) (s : State) : Res :=
  .next (runBundle h (arith2 ty sat d a b pq fun x y => x * y) s)
def execImulF1 (h : Hdr) (ty : IntTy) (sat : Bool) (d a : BitVec 8) (imm : BitVec 31) (s : State) : Res :=
  .next (runBundle h (arith1 ty sat d a imm fun x y => x * y) s)
def execImulhF0 (h : Hdr) (ty : IntTy) (d : BitVec 8) (a b : Src) (s : State) : Res :=
  .next (runBundle h (arith2 ty false d a b none (mulHigh ty.width)) s)
def execImulhF1 (h : Hdr) (ty : IntTy) (d a : BitVec 8) (imm : BitVec 31) (s : State) : Res :=
  .next (runBundle h (arith1 ty false d a imm (mulHigh ty.width)) s)
def execImad (h : Hdr) (ty : IntTy) (sat : Bool) (d : BitVec 8) (a b c : Src) (pq : Option (BitVec 3)) (s : State) : Res :=
  .next (runBundle h (arith3 ty sat d a b c pq fun x y z => x * y + z) s)
def execIminF0 (h : Hdr) (ty : IntTy) (d : BitVec 8) (a b : Src) (s : State) : Res :=
  .next (runBundle h (arith2 ty false d a b none intMin) s)
def execIminF1 (h : Hdr) (ty : IntTy) (d a : BitVec 8) (imm : BitVec 31) (s : State) : Res :=
  .next (runBundle h (arith1 ty false d a imm intMin) s)
def execImaxF0 (h : Hdr) (ty : IntTy) (d : BitVec 8) (a b : Src) (s : State) : Res :=
  .next (runBundle h (arith2 ty false d a b none intMax) s)
def execImaxF1 (h : Hdr) (ty : IntTy) (d a : BitVec 8) (imm : BitVec 31) (s : State) : Res :=
  .next (runBundle h (arith1 ty false d a imm intMax) s)

def execIabs (h : Hdr) (wide sat : Bool) (d : BitVec 8) (a : Src) (pq : Option (BitVec 3)) (s : State) : Res :=
  let ty : IntTy := if wide then .s64 else .s32
  .next (runBundle h (pureSem { reads := namesTy ty a, dests := dstTy ty d ++ secondDst pq } fun e =>
    arithWrites ty sat d pq (intAbs (e.int ty a))) s)

def execIsad (h : Hdr) (ty : IntTy) (sat : Bool) (d : BitVec 8) (a b c : Src) (pq : Option (BitVec 3)) (s : State) : Res :=
  .next (runBundle h (arith3 ty sat d a b c pq fun x y z => intAbs (x - y) + z) s)

/-- R104; with pq naming d, d is written first and the complement remains (log 89). -/
def execIcmpF0 (h : Hdr) (cond : ICond) (ty : IntTy) (d : BitVec 3) (a b : Src) (pq : Option (BitVec 3)) (s : State) : Res :=
  .next (runBundle h (pureSem { reads := namesTy ty a ++ namesTy ty b, dests := predDst d ++ secondDst pq } fun e =>
    let r := condHolds cond (e.int ty a) (e.int ty b)
    writeP d r ++ writeSecond pq (!r)) s)
def execIcmpF1 (h : Hdr) (cond : ICond) (ty : IntTy) (d : BitVec 3) (a : BitVec 8) (imm : BitVec 31) (s : State) : Res :=
  .next (runBundle h (pureSem { reads := namesTy ty (.g a), dests := predDst d } fun e =>
    writeP d (condHolds cond (e.int ty (.g a)) (immInt ty imm))) s)

end Sys2Proof.Machine
end

