-- ==== Sys2Proof/Machine/Logic.lean ====
section
/-! DEFINITION. Logic, shifts and bit fields: the meanings of opcode rows 0x03 and 0x04 (R33, R105 to R108). -/

namespace Sys2Proof.Machine

/-- The value of a source of an integer type as an unsigned number of its width. -/
def Env.nat (e : Env) (ty : IntTy) (a : Src) : Nat := (e.srcTy ty a).toNat
def immNat (ty : IntTy) (imm : BitVec 31) : Nat := (immTy ty imm).toNat

/-- Operand b of the shifts and the bit-field instructions: one 32-bit register under either width (R105). -/
def Env.amount (e : Env) (b : Src) : Nat := (e.src32 b).toNat

/-- Results that are numbers; the low bits of the width are kept. -/
def logic2 (ty : IntTy) (d : BitVec 8) (a b : Src) (f : Nat → Nat → Nat) : Sem :=
  pureSem { reads := namesTy ty a ++ namesTy ty b, dests := dstTy ty d } fun e =>
    writeTy ty d (BitVec.ofNat 64 (f (e.nat ty a) (e.nat ty b)))
def logic1 (ty : IntTy) (d a : BitVec 8) (imm : BitVec 31) (f : Nat → Nat → Nat) : Sem :=
  pureSem { reads := namesTy ty (.g a), dests := dstTy ty d } fun e =>
    writeTy ty d (BitVec.ofNat 64 (f (e.nat ty (.g a)) (immNat ty imm)))
def unary (ty : IntTy) (d : BitVec 8) (a : Src) (f : Nat → Nat) : Sem :=
  pureSem { reads := namesTy ty a, dests := dstTy ty d } fun e => writeTy ty d (BitVec.ofNat 64 (f (e.nat ty a)))

/-- A shift: the amount is the low 8 bits of a 32-bit operand or of the immediate (R33). -/
def shift2 (ty : IntTy) (d : BitVec 8) (a b : Src) (f : Nat → Nat → Nat → Nat) : Sem :=
  pureSem { reads := namesTy ty a ++ names32 b, dests := dstTy ty d } fun e =>
    writeTy ty d (BitVec.ofNat 64 (f ty.width (e.nat ty a) (e.amount b % 256)))
def shift1 (ty : IntTy) (d a : BitVec 8) (imm : BitVec 31) (f : Nat → Nat → Nat → Nat) : Sem :=
  pureSem { reads := namesTy ty (.g a), dests := dstTy ty d } fun e =>
    writeTy ty d (BitVec.ofNat 64 (f ty.width (e.nat ty (.g a)) (imm.toNat % 256)))

/-! ## The computations, on unsigned numbers of w bits -/

def andN (a b : Nat) : Nat := a &&& b
def orN (a b : Nat) : Nat := a ||| b
def xorN (a b : Nat) : Nat := a ^^^ b
/-- a & ~b, within 64 bits. -/
def andnN (a b : Nat) : Nat := a &&& (2 ^ 64 - 1 - b)

def shlN (w x n : Nat) : Nat := if n < w then x * 2 ^ n % 2 ^ w else 0
def shrN (w x n : Nat) : Nat := if n < w then x / 2 ^ n else 0
def sarN (w x n : Nat) : Nat := (sgn w x / 2 ^ n % 2 ^ w).toNat
def rolN (w x n : Nat) : Nat := (x * 2 ^ (n % w) + x / 2 ^ (w - n % w)) % 2 ^ w

/-- FSHL (R106): a is the high word, c the low word. -/
def fshlN (w a c n : Nat) : Nat :=
  if w ≤ n then (if n - w < w then c * 2 ^ (n - w) % 2 ^ w else 0) else (a * 2 ^ w + c) * 2 ^ n / 2 ^ w % 2 ^ w

/-- Leading zero bits of a w-bit number. -/
def clzN (w x : Nat) : Nat := if x = 0 then w else w - 1 - Nat.log2 x
def popcN : Nat → Nat → Nat
  | 0, _ => 0
  | w + 1, x => x % 2 + popcN w (x / 2)
/-- The w low bits in reverse order. -/
def brevN : Nat → Nat → Nat
  | 0, _ => 0
  | w + 1, x => x % 2 * 2 ^ w + brevN w (x / 2)

/-- BFX (R107). -/
def bfxN (w : Nat) (signed : Bool) (a pos len : Nat) : Nat :=
  let n := Nat.min len w
  if n = 0 then 0
  else if signed then (sgn n (sgn w a / 2 ^ pos % 2 ^ n).toNat % 2 ^ w).toNat
  else a / 2 ^ pos % 2 ^ n

/-- BFI (R107): bits [min(pos + len, w) − 1 : pos] of the base take the low bits of a. -/
def bfiN (w a base pos len : Nat) : Nat :=
  let hi := Nat.min (pos + Nat.min len w) w
  if w ≤ pos ∨ Nat.min len w = 0 then base
  else base / 2 ^ hi * 2 ^ hi + a % 2 ^ (hi - pos) * 2 ^ pos + base % 2 ^ pos

/-- One result byte of BSEL from its selector field (R108); pool is the eight pool bytes as a number. -/
def bselByte (pool f : Nat) : Nat :=
  let b := pool / 2 ^ (8 * (f % 8)) % 256
  match f / 8 % 4 with
  | 0 => b
  | 1 => if 128 ≤ b then 255 else 0
  | 2 => 0
  | _ => 255
def bselN (low high sel : Nat) : Nat :=
  let pool := high * 2 ^ 32 + low
  bselByte pool (sel % 256) + bselByte pool (sel / 2 ^ 8 % 256) * 2 ^ 8 + bselByte pool (sel / 2 ^ 16 % 256) * 2 ^ 16 +
    bselByte pool (sel / 2 ^ 24 % 256) * 2 ^ 24

/-! ## The meanings -/

def execAndF0 (h : Hdr) (ty : IntTy) (d : BitVec 8) (a b : Src) (s : State) : Res :=
  .next (runBundle h (logic2 ty d a b andN) s)
def execAndF1 (h : Hdr) (ty : IntTy) (d a : BitVec 8) (imm : BitVec 31) (s : State) : Res :=
  .next (runBundle h (logic1 ty d a imm andN) s)
def execOrF0 (h : Hdr) (ty : IntTy) (d : BitVec 8) (a b : Src) (s : State) : Res :=
  .next (runBundle h (logic2 ty d a b orN) s)
def execOrF1 (h : Hdr) (ty : IntTy) (d a : BitVec 8) (imm : BitVec 31) (s : State) : Res :=
  .next (runBundle h (logic1 ty d a imm orN) s)
def execXorF0 (h : Hdr) (ty : IntTy) (d : BitVec 8) (a b : Src) (s : State) : Res :=
  .next (runBundle h (logic2 ty d a b xorN) s)
def execXorF1 (h : Hdr) (ty : IntTy) (d a : BitVec 8) (imm : BitVec 31) (s : State) : Res :=
  .next (runBundle h (logic1 ty d a imm xorN) s)
def execAndnF0 (h : Hdr) (ty : IntTy) (d : BitVec 8) (a b : Src) (s : State) : Res :=
  .next (runBundle h (logic2 ty d a b andnN) s)
def execAndnF1 (h : Hdr) (ty : IntTy) (d a : BitVec 8) (imm : BitVec 31) (s : State) : Res :=
  .next (runBundle h (logic1 ty d a imm andnN) s)
def execNot (h : Hdr) (ty : IntTy) (d : BitVec 8) (a : Src) (s : State) : Res :=
  .next (runBundle h (unary ty d a fun x => 2 ^ ty.width - 1 - x) s)
def execShlF0 (h : Hdr) (ty : IntTy) (d : BitVec 8) (a b : Src) (s : State) : Res :=
  .next (runBundle h (shift2 ty d a b shlN) s)
def execShlF1 (h : Hdr) (ty : IntTy) (d a : BitVec 8) (imm : BitVec 31) (s : State) : Res :=
  .next (runBundle h (shift1 ty d a imm shlN) s)
def execShrF0 (h : Hdr) (ty : IntTy) (d : BitVec 8) (a b : Src) (s : State) : Res :=
  .next (runBundle h (shift2 ty d a b shrN) s)
def execShrF1 (h : Hdr) (ty : IntTy) (d a : BitVec 8) (imm : BitVec 31) (s : State) : Res :=
  .next (runBundle h (shift1 ty d a imm shrN) s)
def execSarF0 (h : Hdr) (ty : IntTy) (d : BitVec 8) (a b : Src) (s : State) : Res :=
  .next (runBundle h (shift2 ty d a b sarN) s)
def execSarF1 (h : Hdr) (ty : IntTy) (d a : BitVec 8) (imm : BitVec 31) (s : State) : Res :=
  .next (runBundle h (shift1 ty d a imm sarN) s)
def execRolF0 (h : Hdr) (ty : IntTy) (d : BitVec 8) (a b : Src) (s : State) : Res :=
  .next (runBundle h (shift2 ty d a b rolN) s)
def execRolF1 (h : Hdr) (ty : IntTy) (d a : BitVec 8) (imm : BitVec 31) (s : State) : Res :=
  .next (runBundle h (shift1 ty d a imm rolN) s)

def execFshlF0 (h : Hdr) (ty : IntTy) (d : BitVec 8) (a b c : Src) (s : State) : Res :=
  .next (runBundle h (pureSem { reads := namesTy ty a ++ names32 b ++ namesTy ty c, dests := dstTy ty d } fun e =>
    writeTy ty d (BitVec.ofNat 64 (fshlN ty.width (e.nat ty a) (e.nat ty c) (e.amount b % 256)))) s)
/-- In F1 the low word is d itself (R106). -/
def execFshlF1 (h : Hdr) (ty : IntTy) (d a : BitVec 8) (amt : BitVec 8) (s : State) : Res :=
  .next (runBundle h (pureSem { reads := namesTy ty (.g a) ++ dstTy ty d, dests := dstTy ty d } fun e =>
    writeTy ty d (BitVec.ofNat 64 (fshlN ty.width (e.nat ty (.g a)) (e.nat ty (.g d)) amt.toNat))) s)

def execClz (h : Hdr) (ty : IntTy) (d : BitVec 8) (a : Src) (s : State) : Res :=
  .next (runBundle h (unary ty d a (clzN ty.width)) s)
def execPopc (h : Hdr) (ty : IntTy) (d : BitVec 8) (a : Src) (s : State) : Res :=
  .next (runBundle h (unary ty d a (popcN ty.width)) s)
def execBrev (h : Hdr) (ty : IntTy) (d : BitVec 8) (a : Src) (s : State) : Res :=
  .next (runBundle h (unary ty d a (brevN ty.width)) s)

def execBfxF0 (h : Hdr) (ty : IntTy) (d : BitVec 8) (a b : Src) (s : State) : Res :=
  .next (runBundle h (pureSem { reads := namesTy ty a ++ names32 b, dests := dstTy ty d } fun e =>
    writeTy ty d (BitVec.ofNat 64
      (bfxN ty.width ty.signed (e.nat ty a) (e.amount b % 256) (e.amount b / 256 % 256)))) s)
def execBfxF1 (h : Hdr) (ty : IntTy) (d a : BitVec 8) (pos len : BitVec 8) (s : State) : Res :=
  .next (runBundle h (unary ty d (.g a) fun x => bfxN ty.width ty.signed x pos.toNat len.toNat) s)

def execBfiF0 (h : Hdr) (ty : IntTy) (d : BitVec 8) (a b c : Src) (s : State) : Res :=
  .next (runBundle h (pureSem { reads := namesTy ty a ++ names32 b ++ namesTy ty c, dests := dstTy ty d } fun e =>
    writeTy ty d (BitVec.ofNat 64
      (bfiN ty.width (e.nat ty a) (e.nat ty c) (e.amount b % 256) (e.amount b / 256 % 256)))) s)
/-- In F1 the base is d itself (R107). -/
def execBfiF1 (h : Hdr) (ty : IntTy) (d a : BitVec 8) (pos len : BitVec 8) (s : State) : Res :=
  .next (runBundle h (pureSem { reads := namesTy ty (.g a) ++ dstTy ty d, dests := dstTy ty d } fun e =>
    writeTy ty d (BitVec.ofNat 64 (bfiN ty.width (e.nat ty (.g a)) (e.nat ty (.g d)) pos.toNat len.toNat))) s)

/-- In F0 a reserved selector bit in the register raises cause 0x03, after 0x08 (R86, R108). -/
def execBselF0 (h : Hdr) (d : BitVec 8) (a b c : Src) (s : State) : Res :=
  .next (runBundle h
    { pureSem { reads := names32 a ++ names32 b ++ names32 c, dests := [.g d.toNat] } (fun e =>
        write32 d (BitVec.ofNat 32 (bselN (e.src32 a).toNat (e.src32 b).toNat (e.src32 c).toNat))) with
      needs := names32 c
      chk := fun e => if bselOk (e.src32 c).toNat then .ok else .trap { cause := 0x03 } } s)
/-- In F1 the high pool bytes are d itself (R108). -/
def execBselF1 (h : Hdr) (d a : BitVec 8) (sel : BitVec 31) (s : State) : Res :=
  .next (runBundle h (pureSem { reads := [.g a.toNat, .g d.toNat], dests := [.g d.toNat] } fun e =>
    write32 d (BitVec.ofNat 32 (bselN (e.th.g a.toNat).toNat (e.th.g d.toNat).toNat sel.toNat))) s)

end Sys2Proof.Machine
end

