-- ==== Sys2Proof/Machine/Packed.lean ====
section
/-! DEFINITION. Packed integers: the meanings of VADD, VSUB, VMIN, VMAX and VSHL (R31 to R33, R109). -/

namespace Sys2Proof.Machine

def packWidth : Pack → Nat
  | .x8 => 8
  | .x16 => 16

/-- Sub-element i of a register, as its w bits and as the integer that they hold (R31). -/
def laneBits (w i : Nat) (x : Word) : Nat := x.toNat / 2 ^ (w * i) % 2 ^ w
def laneVal (w : Nat) (uns : Bool) (i : Nat) (x : Word) : Int := valOf w (!uns) (laneBits w i x)

/-- The word whose sub-elements are given by f, each below 2^w. -/
def packWord (w : Nat) (f : Nat → Nat) : Word :=
  BitVec.ofNat 32 (sumList ((List.range (32 / w)).map fun i => f i % 2 ^ w * 2 ^ (w * i)))

/-- The exact result of each sub-element, wrapped or clamped to its own range (R32). -/
def packed (pk : Pack) (uns sat : Bool) (d : BitVec 8) (a b : Src) (f : Nat → Int → Int → Nat → Int) : Sem :=
  pureSem { reads := names32 a ++ names32 b, dests := [.g d.toNat] } fun e =>
    let w := packWidth pk
    write32 d (packWord w fun i =>
      narrow w (!uns) sat (f w (laneVal w uns i (e.src32 a)) (laneVal w uns i (e.src32 b))
        (laneBits w i (e.src32 b) % 256)))

def execVadd (h : Hdr) (pk : Pack) (uns sat : Bool) (d : BitVec 8) (a b : Src) (s : State) : Res :=
  .next (runBundle h (packed pk uns sat d a b fun _ x y _ => x + y) s)
def execVsub (h : Hdr) (pk : Pack) (uns sat : Bool) (d : BitVec 8) (a b : Src) (s : State) : Res :=
  .next (runBundle h (packed pk uns sat d a b fun _ x y _ => x - y) s)
def execVmin (h : Hdr) (pk : Pack) (uns : Bool) (d : BitVec 8) (a b : Src) (s : State) : Res :=
  .next (runBundle h (packed pk uns false d a b fun _ x y _ => intMin x y) s)
def execVmax (h : Hdr) (pk : Pack) (uns : Bool) (d : BitVec 8) (a b : Src) (s : State) : Res :=
  .next (runBundle h (packed pk uns false d a b fun _ x y _ => intMax x y) s)
/-- The exact value is a × 2^n; without saturation its low bits are kept, so that a shift by the width or more gives 0. -/
def execVshl (h : Hdr) (pk : Pack) (uns sat : Bool) (d : BitVec 8) (a b : Src) (s : State) : Res :=
  .next (runBundle h (packed pk uns sat d a b fun _ x _ n => x * 2 ^ n) s)

end Sys2Proof.Machine
end

