-- ==== Sys2Proof/Machine/Float.lean ====
section
/-! DEFINITION. Floating formats, exact values and the one rounding function (R34 to R43). -/

namespace Sys2Proof.Machine

/-- A floating format (R34): width, exponent and fraction bits, bias, the code of the largest finite magnitude, the code of
infinity where it has one, and the canonical NaN. -/
structure FFmt where
  w : Nat
  eb : Nat
  fb : Nat
  bias : Nat
  maxc : Nat
  inf : Option Nat
  nan : Nat
  deriving DecidableEq, Repr

def f32 : FFmt := { w := 32, eb := 8, fb := 23, bias := 127, maxc := 0x7F7FFFFF, inf := some 0x7F800000, nan := 0x7FC00000 }
def f16 : FFmt := { w := 16, eb := 5, fb := 10, bias := 15, maxc := 0x7BFF, inf := some 0x7C00, nan := 0x7E00 }
def bf16 : FFmt := { w := 16, eb := 8, fb := 7, bias := 127, maxc := 0x7F7F, inf := some 0x7F80, nan := 0x7FC0 }
def e5m2 : FFmt := { w := 8, eb := 5, fb := 2, bias := 15, maxc := 0x7B, inf := some 0x7C, nan := 0x7E }
def e4m3 : FFmt := { w := 8, eb := 4, fb := 3, bias := 7, maxc := 0x7E, inf := none, nan := 0x7F }

/-- An exact value: NaN, an infinity, or (−1)^neg × m × 2^e with a signed zero. -/
inductive FVal where
  | nan
  | inf (neg : Bool)
  | fin (neg : Bool) (m : Nat) (e : Int)
  deriving DecidableEq, Repr

/-- The value of an encoding (R35). -/
def FFmt.read (f : FFmt) (x : Nat) : FVal :=
  let s := bitOf x (f.w - 1)
  let code := fld x 0 (f.w - 1)
  let ex := fld x f.fb f.eb
  let fr := fld x 0 f.fb
  if f.maxc < code then (if f.inf = some code then .inf s else .nan)
  else if ex = 0 then .fin s fr (1 - (f.bias : Int) - f.fb)
  else .fin s (2 ^ f.fb + fr) ((ex : Int) - f.bias - f.fb)

/-- m × 2^e rounded to an integer; neg is the sign of the value it belongs to (R37). -/
def roundNat (rm : Rm) (neg : Bool) (m : Nat) (e : Int) : Nat :=
  if 0 ≤ e then m * 2 ^ e.toNat
  else
    let sh := (-e).toNat
    let n := m / 2 ^ sh
    let r := m % 2 ^ sh
    let up := match rm with
      | .rne => decide (2 ^ sh < 2 * r) || (decide (2 * r = 2 ^ sh) && n % 2 == 1)
      | .rtz => false
      | .rup => !neg && r != 0
      | .rdn => neg && r != 0
    if up then n + 1 else n

/-- The magnitude code of an overflow (R38). -/
def FFmt.over (f : FFmt) (rm : Rm) (neg : Bool) : Nat :=
  match f.inf with
  | none => f.maxc
  | some i =>
    match rm with
    | .rne => i
    | .rtz => f.maxc
    | .rup => if neg then f.maxc else i
    | .rdn => if neg then i else f.maxc

/-- A finite exact value in the format, rounded once (R37, R38); a value other than 0 that rounds to zero keeps its sign (log 88). -/
def FFmt.round (f : FFmt) (rm : Rm) (neg : Bool) (m : Nat) (e : Int) : Nat :=
  let sign := if neg then 2 ^ (f.w - 1) else 0
  if m = 0 then sign
  else
    let qmin : Int := 1 - (f.bias : Int) - f.fb
    let q : Int := max ((Nat.log2 m : Int) + e - f.fb) qmin
    let code := (q - qmin).toNat * 2 ^ f.fb + roundNat rm neg m (e - q)
    sign + (if f.maxc < code then f.over rm neg else code)

/-- An exact result in the format (R36, R40). -/
def FFmt.write (f : FFmt) (rm : Rm) : FVal → Nat
  | .nan => f.nan
  | .inf s => (if s then 2 ^ (f.w - 1) else 0) + f.inf.getD f.maxc
  | .fin s m e => f.round rm s m e

/-! ## Exact arithmetic -/

def signedNat (neg : Bool) (m : Nat) : Int := if neg then -(m : Int) else m

def FVal.neg : FVal → FVal
  | .nan => .nan
  | .inf s => .inf (!s)
  | .fin s m e => .fin (!s) m e

/-- The exact product; 0 × ∞ is NaN; a zero product has the exclusive-or of the signs (R110). -/
def FVal.mul : FVal → FVal → FVal
  | .nan, _ => .nan
  | _, .nan => .nan
  | .inf s, .inf t => .inf (s ^^ t)
  | .inf s, .fin t m _ => if m = 0 then .nan else .inf (s ^^ t)
  | .fin s m _, .inf t => if m = 0 then .nan else .inf (s ^^ t)
  | .fin s m e, .fin t n f => .fin (s ^^ t) (m * n) (e + f)

/-- The exact sum, with the sign of a zero sum by R37. -/
def FVal.add (rm : Rm) : FVal → FVal → FVal
  | .nan, _ => .nan
  | _, .nan => .nan
  | .inf s, .inf t => if s = t then .inf s else .nan
  | .inf s, .fin _ _ _ => .inf s
  | .fin _ _ _, .inf t => .inf t
  | .fin s m e, .fin t n f =>
    let q := min e f
    let x := signedNat s (m * 2 ^ (e - q).toNat) + signedNat t (n * 2 ^ (f - q).toNat)
    if x = 0 then (if m = 0 ∧ n = 0 ∧ s = t then .fin s 0 q else .fin (decide (rm = .rdn)) 0 q)
    else .fin (decide (x < 0)) x.natAbs q

/-- The exact difference. The zero rule of R37 is on the operands of the subtraction: two zeros of one sign give that sign
(log 14). -/
def FVal.sub (rm : Rm) (a b : FVal) : FVal :=
  match a, b with
  | .fin s m e, .fin t n f =>
    if m = 0 ∧ n = 0 then .fin (if s = t then s else decide (rm = .rdn)) 0 (min e f) else a.add rm b.neg
  | _, _ => a.add rm b.neg

/-- a < b of two values that are not NaN. -/
def FVal.lt : FVal → FVal → Bool
  | .nan, _ => false
  | _, .nan => false
  | .inf s, .inf t => s && !t
  | .inf s, .fin _ _ _ => s
  | .fin _ _ _, .inf t => !t
  | .fin s m e, .fin t n f =>
    let q := min e f
    decide (signedNat s (m * 2 ^ (e - q).toNat) < signedNat t (n * 2 ^ (f - q).toNat))
def FVal.isNan : FVal → Bool
  | .nan => true
  | _ => false
def FVal.isZero : FVal → Bool
  | .fin _ m _ => m == 0
  | _ => false
def FVal.sign : FVal → Bool
  | .nan => false
  | .inf s => s
  | .fin s _ _ => s
/-- Numerical equality: +0 equals −0. -/
def FVal.eq (a b : FVal) : Bool := !a.isNan && !b.isNan && !a.lt b && !b.lt a
/-- The order of FMIN and FMAX, in which −0 stands below +0 (R111). -/
def FVal.below (a b : FVal) : Bool := a.lt b || (a.isZero && b.isZero && a.sign && !b.sign)

def FVal.ofInt (x : Int) : FVal := .fin (decide (x < 0)) x.natAbs 0

/-! ## Conversions to integers (R41, R43) -/

/-- A float as an integer of a width: rounded by the mode, then clamped; special inputs by R41. -/
def toIntVal (rm : Rm) (w : Nat) (signed : Bool) : FVal → Int
  | .nan => 0
  | .inf s => if s then loOf w signed else hiOf w signed
  | .fin s m e => clampInt (signedNat s (roundNat rm s m e)) (loOf w signed) (hiOf w signed)

/-- Invalid (R43): a NaN or an infinity converted to an integer format. -/
def FVal.invalid : FVal → Bool
  | .nan => true
  | .inf _ => true
  | .fin _ _ _ => false

/-! ## The 4-bit block family (R44 to R48) -/

/-- The magnitudes of R46 in units of 2^(−3): code 0 to 7 of the magnitude field. -/
def b4Mag (ty m : Nat) : Nat :=
  match ty, m with
  | 1, 1 => 4 | 1, 2 => 8 | 1, 3 => 12 | 1, 4 => 16 | 1, 5 => 24 | 1, 6 => 32 | 1, 7 => 48
  | 2, 1 => 1 | 2, 2 => 2 | 2, 3 => 4 | 2, 4 => 8 | 2, 5 => 16 | 2, 6 => 32 | 2, 7 => 64
  | 3, 1 => 8 | 3, 2 => 16 | 3, 3 => 24 | 3, 4 => 32 | 3, 5 => 48 | 3, 6 => 64 | 3, 7 => 96
  | _, _ => 0

/-- The value of a code of a type before the scale, in units of 2^(−3) (R46). -/
def b4Code (ty code : Nat) : Int :=
  if ty = 0 then sgn 4 code * 8 else signedNat (bitOf code 3) (b4Mag ty (code % 8))

/-- The value of an element under its scale byte (R47). -/
def b4Val (code scale : Nat) : FVal :=
  let ty := scale / 64 % 4
  let e := scale % 64
  if e = 63 then .nan
  else
    let v := b4Code ty (code % 16)
    .fin (if ty = 0 then decide (v < 0) else bitOf code 3) v.natAbs ((e : Int) - 35)

/-- The codes of a type by rising value, for the search of the nearest; −0 is never encoded. -/
def b4Codes (ty : Nat) : List Nat :=
  if ty = 0 then [8, 9, 10, 11, 12, 13, 14, 15, 0, 1, 2, 3, 4, 5, 6, 7]
  else [15, 14, 13, 12, 11, 10, 9, 0, 1, 2, 3, 4, 5, 6, 7]

/-- The nearest code to y = n × 2^e units of 2^(−3): distances are compared at one scale; a tie goes to the code whose bit
[0] is 0 (R48). -/
def b4Nearest (ty : Nat) (y : Int) (e : Int) : Nat :=
  let num : Int := if 0 ≤ e then y * 2 ^ e.toNat else y
  let den : Int := if 0 ≤ e then 1 else 2 ^ (-e).toNat
  let dist (c : Nat) : Nat := (num - b4Code ty c * den).natAbs
  (b4Codes ty).foldl (fun best c =>
    if dist c < dist best ∨ (dist c = dist best ∧ best % 2 = 1) then c else best) ((b4Codes ty).headD 0)

/-- Quantises a value into a block of a scale byte (R48). Saturation needs no step of its own: the nearest code of a value
beyond the largest magnitude is the largest. -/
def b4Quant (x : FVal) (scale : Nat) : Nat :=
  let ty := scale / 64 % 4
  let e := scale % 64
  if e = 63 then 0
  else
    match x with
    | .nan => 0
    | .inf s => if ty = 0 then (if s then 8 else 7) else (if s then 15 else 7)
    | .fin s m q => b4Nearest ty (signedNat s m) (q + 35 - e)

/-- The largest magnitude of a type (R117). -/
def b4Largest (ty : Nat) : Nat := match ty with | 0 => 7 | 1 => 6 | 2 => 8 | _ => 12

/-- The scale byte of a magnitude bound (R117). -/
def b4Scale (ty : Nat) : FVal → Nat
  | .nan => ty * 64 + 63
  | .inf _ => ty * 64 + 62
  | .fin _ m e =>
    let ok (k : Nat) : Bool := !(FVal.fin false (b4Largest ty) ((k : Int) - 32)).lt (.fin false m e)
    if m = 0 then ty * 64 else ty * 64 + ((List.range 63).find? ok).getD 62

end Sys2Proof.Machine
end

