-- ==== Sys2Proof/Machine/Terms.lean ====
section
/-! DEFINITION. Recoding into terms, the k-block window and the fold (R49 to R60). -/

namespace Sys2Proof.Machine

/-- One term: its sign and its shift (R49). -/
structure Term where
  neg : Bool
  shift : Int
  deriving DecidableEq, Repr

/-- Digits of the non-adjacent form of an integer, lowest first (R49). -/
def nafDigits : Nat → Int → List Int
  | 0, _ => []
  | k + 1, n =>
    if n = 0 then []
    else
      let d : Int := if n % 2 = 1 then 2 - n % 4 else 0
      d :: nafDigits k ((n - d) / 2)

/-- Nonzero digits as (position, negative), from the highest position down. -/
def naf (n : Int) : List (Nat × Bool) :=
  ((mapIdxFrom (fun i d => (i, d)) 0 (nafDigits 40 n)).filterMap fun x =>
    if x.2 = 0 then none else some (x.1, decide (x.2 < 0))).reverse

/-- An element of a recodable format: significand M and exponent q (R50), or its non-finite class (R52). -/
inductive Recoded where
  | fin (m q : Int)
  | posInf
  | negInf
  | nan
  deriving DecidableEq, Repr

/-- Bits of an element's code. -/
def elemBits : ElemFmt → Nat
  | .s8 => 8 | .n8 => 8 | .s16 => 16 | .n16 => 16 | .s32 => 32 | .n32 => 32
  | .f32 => 32 | .f16 => 16 | .bf16 => 16 | .e4m3 => 8 | .e5m2 => 8 | .b4 => 4

/-- The floating format of an element format that is one. -/
def elemFloat : ElemFmt → Option FFmt
  | .f32 => some f32 | .f16 => some f16 | .bf16 => some bf16 | .e4m3 => some e4m3 | .e5m2 => some e5m2
  | .s8 => none | .n8 => none | .s16 => none | .n16 => none | .s32 => none | .n32 => none | .b4 => none

/-- The value of an element with its code and, for .b4, its block's scale byte. -/
def elemVal (f : ElemFmt) (code scale : Nat) : FVal :=
  match f with
  | .b4 => b4Val code scale
  | .s8 => .ofInt (valOf 8 true code) | .n8 => .ofInt (valOf 8 false code)
  | .s16 => .ofInt (valOf 16 true code) | .n16 => .ofInt (valOf 16 false code)
  | .s32 => .ofInt (valOf 32 true code) | .n32 => .ofInt (valOf 32 false code)
  | .f32 => f32.read code | .f16 => f16.read code | .bf16 => bf16.read code | .e4m3 => e4m3.read code
  | .e5m2 => e5m2.read code

/-- Significand and exponent of an element (R50). -/
def recode (f : ElemFmt) (code scale : Nat) : Recoded :=
  match f with
  | .b4 =>
    let ty := scale / 64 % 4
    let e : Int := (scale % 64 : Nat)
    if scale % 64 = 63 then .nan
    else
      let v := b4Code ty (code % 16)
      match ty with
      | 0 => .fin (v / 8) (e - 32)
      | 1 => .fin (v / 4) (e - 33)
      | 2 => .fin v (e - 35)
      | _ => .fin (v / 8) (e - 32)
  | _ =>
    match elemVal f code scale with
    | .nan => .nan
    | .inf s => if s then .negInf else .posInf
    | .fin s m e => .fin (signedNat s m) e

/-- The term list of an element, from the highest shift down (R49); none when it is not finite (R52). -/
def termsOf (f : ElemFmt) (code scale : Nat) : Option (List Term) :=
  match recode f code scale with
  | .fin m q => some ((naf m).map fun d => { neg := d.2, shift := (d.1 : Int) + q })
  | _ => none

/-- Tmax of a format (R51); for .b4 of a tensor whose block types are not known in advance. -/
def tmax : ElemFmt → Nat
  | .b4 => 2 | .e5m2 => 2 | .e4m3 => 3 | .s8 => 4 | .n8 => 5 | .bf16 => 5 | .f16 => 6 | .s16 => 8 | .n16 => 9
  | .f32 => 13 | .s32 => 16 | .n32 => 17

/-- The 8-bit form of a term, if it has one (R53). -/
def form8 (t : Term) : Option Nat :=
  if -64 ≤ t.shift ∧ t.shift ≤ 63 then some (b2n t.neg * 128 + (t.shift + 64).toNat) else none

/-! ## The k-block window (R54 to R59) -/

/-- One step of a block: the activation's terms (or its non-finite class) and value, and the weight's value. -/
structure KStep where
  terms : List Term
  a : FVal
  b : FVal
  deriving DecidableEq, Repr

/-- The result of a block (R56, R58, R59): a window value in units of 2^exp with its sticky bit, or a non-finite result. -/
inductive BlockRes where
  | fin (s : Int) (exp : Int) (sticky : Bool)
  | inf (neg : Bool)
  | nan
  deriving DecidableEq, Repr

/-- The non-finite products of a block (R58). -/
def blockSpecial (l : List KStep) : Option BlockRes :=
  let prods := l.map fun x => x.a.mul x.b
  if prods.any FVal.isNan then some .nan
  else
    let pos := prods.any fun p => decide (p = .inf false)
    let neg := prods.any fun p => decide (p = .inf true)
    if pos && neg then some .nan else if pos then some (.inf false) else if neg then some (.inf true) else none

/-- P_k of a step that has one (R56). -/
def KStep.top (x : KStep) : Option Int :=
  match x.terms, x.b with
  | t :: _, .fin _ m e => if m = 0 then none else some (t.shift + (Nat.log2 m : Int) + e)
  | _, _ => none

/-- The exact contribution of a term: integer and exponent. -/
def contribution (t : Term) (b : FVal) : Int × Int :=
  match b with
  | .fin s m e => (signedNat (t.neg ^^ s) m, e + t.shift)
  | _ => (0, 0)

/-- The floor of c in window units, and whether bits were lost below. -/
def toUnits (c : Int × Int) (u : Int) : Int × Bool :=
  if u ≤ c.2 then (c.1 * 2 ^ (c.2 - u).toNat, false)
  else (c.1 / 2 ^ (u - c.2).toNat, decide (c.1 % 2 ^ (u - c.2).toNat ≠ 0))

def windowFin (l : List KStep) : BlockRes :=
  match l.filterMap KStep.top with
  | [] => .fin 0 0 false
  | p :: r =>
    let u := r.foldl max p - 56
    let parts := (l.map fun x => x.terms.map fun t => toUnits (contribution t x.b) u).flatten
    .fin (parts.foldl (fun a c => a + c.1) 0) u (parts.any fun c => c.2)

/-- The result of a block under floating accumulation. -/
def blockFloat (l : List KStep) : BlockRes :=
  match blockSpecial l with
  | some r => r
  | none => windowFin l

/-- The fold into an .f32 accumulator (R57, R58). -/
def foldFloat (acc : Word) (r : BlockRes) : Word :=
  let av := f32.read acc.toNat
  match r with
  | .nan => BitVec.ofNat 32 f32.nan
  | .inf s => BitVec.ofNat 32 (if av = .inf (!s) then f32.nan else f32.write .rne (.inf s))
  | .fin x u sticky =>
    if x = 0 ∧ !sticky then acc
    else
      match av with
      | .fin an am ae =>
        let q := min ae u
        let v := signedNat an (am * 2 ^ (ae - q).toNat) + x * 2 ^ (u - q).toNat
        -- the infinitesimal of the sticky bit is one unit far below every bit that rounding sees
        let w := v * 2 ^ 64 + (b2n sticky : Int)
        if v = 0 then 0
        else BitVec.ofNat 32 (f32.round .rne (decide (w < 0)) w.natAbs (q - 64))
      | _ => BitVec.ofNat 32 (f32.write .rne (FVal.add .rne av (.fin (decide (x < 0)) x.natAbs u)))

/-- The exact sum of a block under integer accumulation (R59). -/
def blockInt (l : List KStep) : Int :=
  l.foldl (fun acc x => acc + (match x.a.mul x.b with
    | .fin s m e => signedNat s (m * 2 ^ e.toNat)
    | _ => 0)) 0

def foldInt (acc : Word) (x : Int) : Word := BitVec.ofInt 32 (clampInt (acc.toInt + x) (-(2 ^ 31)) (2 ^ 31 - 1))

end Sys2Proof.Machine
end

