-- ==== Sys2Proof/Machine/FloatArith.lean ====
section
/-! DEFINITION. Floating-point arithmetic and comparison: the meanings of opcode row 0x06 (R110 to R113). -/

namespace Sys2Proof.Machine

def Env.f32 (e : Env) (a : Src) : FVal := Machine.f32.read (e.src32 a).toNat

/-- A floating result of sources that are .f32 values, rounded once. -/
def float2 (rm : Rm) (d : BitVec 8) (a b : Src) (f : FVal → FVal → FVal) : Sem :=
  pureSem { reads := names32 a ++ names32 b, dests := [.g d.toNat] } fun e =>
    write32 d (BitVec.ofNat 32 (f32.write rm (f (e.f32 a) (e.f32 b))))

def execFadd (h : Hdr) (rm : Rm) (d : BitVec 8) (a b : Src) (s : State) : Res :=
  .next (runBundle h (float2 rm d a b fun x y => x.add rm y) s)
def execFsub (h : Hdr) (rm : Rm) (d : BitVec 8) (a b : Src) (s : State) : Res :=
  .next (runBundle h (float2 rm d a b fun x y => x.sub rm y) s)
def execFmul (h : Hdr) (rm : Rm) (d : BitVec 8) (a b : Src) (s : State) : Res :=
  .next (runBundle h (float2 rm d a b fun x y => x.mul y) s)
def execFma (h : Hdr) (rm : Rm) (d : BitVec 8) (a b c : Src) (s : State) : Res :=
  .next (runBundle h (pureSem { reads := names32 a ++ names32 b ++ names32 c, dests := [.g d.toNat] } fun e =>
    write32 d (BitVec.ofNat 32 (f32.write rm (((e.f32 a).mul (e.f32 b)).add rm (e.f32 c))))) s)

/-- The operand that FMIN or FMAX returns: b when it stands before a in the order, or when a alone is NaN (R111). -/
def pick (x y : FVal) (bFirst : Bool) : Bool := (x.isNan && !y.isNan) || (!x.isNan && !y.isNan && bFirst)

def execFmin (h : Hdr) (d : BitVec 8) (a b : Src) (s : State) : Res :=
  .next (runBundle h (pureSem { reads := names32 a ++ names32 b, dests := [.g d.toNat] } fun e =>
    write32 d (if pick (e.f32 a) (e.f32 b) ((e.f32 b).below (e.f32 a)) then e.src32 b else e.src32 a)) s)
def execFmax (h : Hdr) (d : BitVec 8) (a b : Src) (s : State) : Res :=
  .next (runBundle h (pureSem { reads := names32 a ++ names32 b, dests := [.g d.toNat] } fun e =>
    write32 d (if pick (e.f32 a) (e.f32 b) ((e.f32 a).below (e.f32 b)) then e.src32 b else e.src32 a)) s)

def execFabs (h : Hdr) (d : BitVec 8) (a : Src) (s : State) : Res :=
  .next (runBundle h (pureSem { reads := names32 a, dests := [.g d.toNat] } fun e =>
    write32 d (e.src32 a &&& 0x7FFFFFFF)) s)
def execFneg (h : Hdr) (d : BitVec 8) (a : Src) (s : State) : Res :=
  .next (runBundle h (pureSem { reads := names32 a, dests := [.g d.toNat] } fun e =>
    write32 d (e.src32 a ^^^ 0x80000000)) s)

/-- FCMP's conditions (R112). -/
def fcondHolds (c : FCond) (x y : FVal) : Bool :=
  let un := x.isNan || y.isNan
  match c with
  | .eq => x.eq y
  | .ne => un || !x.eq y
  | .lt => x.lt y
  | .le => x.lt y || x.eq y
  | .gt => y.lt x
  | .ge => y.lt x || x.eq y
  | .un => un
  | .ord => !un

/-- R112; with pq naming d, d is written first and the complement remains (log 89). -/
def execFcmp (h : Hdr) (cond : FCond) (d : BitVec 3) (a b : Src) (pq : Option (BitVec 3)) (s : State) : Res :=
  .next (runBundle h (pureSem { reads := names32 a ++ names32 b, dests := predDst d ++ secondDst pq } fun e =>
    let r := fcondHolds cond (e.f32 a) (e.f32 b)
    writeP d r ++ writeSecond pq (!r)) s)

/-- Half i of a register as an .f16 value, and a register of two .f16 results (R31, R113). -/
def halfVal (x : Word) (i : Nat) : FVal := f16.read (laneBits 16 i x)
def halves (rm : Rm) (f : Nat → FVal) : Word :=
  BitVec.ofNat 32 (f16.write rm (f 0) + f16.write rm (f 1) * 65536)

def execPkfma (h : Hdr) (rm : Rm) (d : BitVec 8) (a b c : Src) (s : State) : Res :=
  .next (runBundle h (pureSem { reads := names32 a ++ names32 b ++ names32 c, dests := [.g d.toNat] } fun e =>
    write32 d (halves rm fun i =>
      ((halfVal (e.src32 a) i).mul (halfVal (e.src32 b) i)).add rm (halfVal (e.src32 c) i))) s)
def execPkadd (h : Hdr) (rm : Rm) (d : BitVec 8) (a b : Src) (s : State) : Res :=
  .next (runBundle h (pureSem { reads := names32 a ++ names32 b, dests := [.g d.toNat] } fun e =>
    write32 d (halves rm fun i => (halfVal (e.src32 a) i).add rm (halfVal (e.src32 b) i))) s)

end Sys2Proof.Machine
end

