-- ==== Sys2Proof/Machine/Special.lean ====
section
/-! DEFINITION. The special functions: the meanings of opcode row 0x07 (R115). The exact value of an irrational result is
taken to 704 binary places, with its last place forced to 1 to say that the value does not end there; the one rounding
of Float follows (log 15). -/

namespace Sys2Proof.Machine

/-- Binary places of the fixed-point evaluations. -/
def fxP : Nat := 704
def fxOne : Nat := 2 ^ fxP

/-- Σ z^(2i+1) / (2i+1), each term with the sign step, by n terms from term i; pw is z^(2i+1), zz is z². -/
def oddSeries (zz : Nat) (alt : Bool) : Nat → Nat → Nat → Int
  | 0, _, _ => 0
  | n + 1, i, pw =>
    let r := oddSeries zz alt n (i + 1) (pw * zz / fxOne)
    (pw / (2 * i + 1) : Nat) + (if alt then -r else r)

/-- atanh z and arctan z for z below 1/2 in fixed point. -/
def fxAtanh (z : Nat) : Nat := (oddSeries (z * z / fxOne) false 240 0 z).toNat
def fxAtan (z : Nat) : Nat := (oddSeries (z * z / fxOne) true 180 0 z).toNat

/-- ln 2 = 2 atanh(1/3), and π = 16 arctan(1/5) − 4 arctan(1/239). -/
def fxLn2 : Nat := 2 * fxAtanh (fxOne / 3)
def fxPi : Nat := 16 * fxAtan (fxOne / 5) - 4 * fxAtan (fxOne / 239)

/-- Σ x^i / i!, by n terms from term i; t is the present term. -/
def expSeries (x : Nat) : Nat → Nat → Nat → Nat
  | 0, _, _ => 0
  | n + 1, i, t => t + expSeries x n (i + 1) (t * x / fxOne / (i + 1))
/-- e^x for x below 1 in fixed point. -/
def fxExp (x : Nat) : Nat := expSeries x 140 0 fxOne

/-- sin x (from i = 1, t = x) and cos x (from i = 0, t = 1) for x up to 2. -/
def trigSeries (xx : Nat) : Nat → Nat → Nat → Int
  | 0, _, _ => 0
  | n + 1, i, t => (t : Int) - trigSeries xx n (i + 2) (t * xx / fxOne / ((i + 1) * (i + 2)))
def fxSin (x : Nat) : Nat := (trigSeries (x * x / fxOne) 90 1 x).toNat

/-- The greatest r with r² at most x, from the bits n − 1 down. -/
def sqrtBits (x : Nat) : Nat → Nat → Nat
  | 0, r => r
  | n + 1, r =>
    let c := r + 2 ^ n
    if c * c ≤ x then sqrtBits x n c else sqrtBits x n r

/-- An irrational magnitude in fixed point. -/
def irrational (neg : Bool) (x : Nat) : FVal := .fin neg (2 * x + 1) (-(fxP : Int) - 1)

/-- m × 2^e in fixed point (exact for the inputs of .f32, whose exponents are at least −149). -/
def toFx (m : Nat) (e : Int) : Nat := if 0 ≤ e + fxP then m * 2 ^ (e + fxP).toNat else m / 2 ^ (-(e + fxP)).toNat

/-- 1 / a (R115). -/
def vRcp : FVal → FVal
  | .nan => .nan
  | .inf s => .fin s 0 0
  | .fin s m e =>
    if m = 0 then .inf s
    else
      let q := 2 ^ 128 / m
      .fin s (2 * q + (if 2 ^ 128 % m = 0 then 0 else 1)) (-e - 129)

/-- 1 / √a. -/
def vRsq : FVal → FVal
  | .nan => .nan
  | .inf s => if s then .nan else .fin false 0 0
  | .fin s m e =>
    if m = 0 then .inf s
    else if s then .nan
    else
      -- m × 2^e = n × 2^(2h); 1/√a = √(2^(2k) / n) × 2^(−h−k)
      let n := if e % 2 = 0 then m else 2 * m
      let h := e / 2
      let q := sqrtBits (2 ^ 256 / n) 129 0
      .fin false (2 * q + (if q * q * n = 2 ^ 256 then 0 else 1)) (-h - 129)

/-- 2^a. -/
def vExp2 : FVal → FVal
  | .nan => .nan
  | .inf s => if s then .fin false 0 0 else .inf false
  | .fin s m e =>
    if m = 0 then .fin false 1 0
    else
      let k : Int := if 0 ≤ e then signedNat s (m * 2 ^ e.toNat) else signedNat s m / 2 ^ (-e).toNat
      let k' := clampInt k (-1000) 1000
      let r : Nat := if 0 ≤ e then 0 else (signedNat s m % 2 ^ (-e).toNat).toNat
      if r = 0 then .fin false 1 k'
      else
        let x := toFx r e * fxLn2 / fxOne
        .fin false (2 * fxExp x + 1) (k' - fxP - 1)

/-- log2 a. -/
def vLog2 : FVal → FVal
  | .nan => .nan
  | .inf s => if s then .nan else .inf false
  | .fin s m e =>
    if m = 0 then .inf true
    else if s then .nan
    else
      let n := Nat.log2 m
      let k : Int := n + e
      if m = 2 ^ n then .fin (decide (k < 0)) k.natAbs 0
      else
        -- log2 of the significand in (1, 2): 2 atanh((m − 2^n) / (m + 2^n)) / ln 2
        let f := 2 * fxAtanh ((m - 2 ^ n) * fxOne / (m + 2 ^ n)) * fxOne / fxLn2
        let v : Int := k * fxOne + f
        if 0 ≤ v then irrational false v.toNat else irrational true (-v - 1).toNat

/-- The place of a in the circle of half-turns: a mod 2 as a fixed-point number. -/
def halfTurns (s : Bool) (m : Nat) (e : Int) : Nat :=
  if 2 ≤ e then 0
  else
    let x := toFx m e % (2 * fxOne)
    if s ∧ x ≠ 0 then 2 * fxOne - x else x

/-- sin(π t) for t in [0, 2). -/
def sinTurn (t : Nat) : FVal :=
  let neg := decide (fxOne ≤ t)
  let u := t % fxOne
  if u = 0 then .fin false 0 0
  else if 2 * u = fxOne then .fin neg 1 0
  else
    let v := if fxOne < 2 * u then fxOne - u else u
    irrational neg (fxSin (v * fxPi / fxOne))

def vSin : FVal → FVal
  | .nan => .nan
  | .inf _ => .nan
  | .fin s m e => if m = 0 then .fin s 0 0 else sinTurn (halfTurns s m e)
/-- cos(π a) = sin(π (a + 1/2)). -/
def vCos : FVal → FVal
  | .nan => .nan
  | .inf _ => .nan
  | .fin s m e => sinTurn ((halfTurns s m e + fxOne / 2) % (2 * fxOne))

/-- tanh a; beyond 64 in magnitude the result lies just below 1. -/
def vTanh : FVal → FVal
  | .nan => .nan
  | .inf s => .fin s 1 0
  | .fin s m e =>
    if m = 0 then .fin s 0 0
    else if 7 ≤ (Nat.log2 m : Int) + e then irrational s (fxOne - 1)
    else if (Nat.log2 m : Int) + e < -64 then
      -- a − a³/3 lies less than one unit of the 128th place below a
      .fin s (m * 2 ^ 128 - 1) (e - 128)
    else
      -- tanh a = (E − 1) / (E + 1) with E = e^(2a) = 2^k × e^r
      let x := 2 * toFx m e
      let k := x / fxLn2
      let r := fxExp (x % fxLn2) * 2 ^ k
      irrational s ((r - fxOne) * fxOne / (r + fxOne))

def special (rm : Rm) (d : BitVec 8) (a : Src) (f : FVal → FVal) : Sem :=
  pureSem { reads := names32 a, dests := [.g d.toNat] } fun e =>
    write32 d (BitVec.ofNat 32 (f32.write rm (f (e.f32 a))))

def execFrcp (h : Hdr) (rm : Rm) (d : BitVec 8) (a : Src) (s : State) : Res := .next (runBundle h (special rm d a vRcp) s)
def execFrsq (h : Hdr) (rm : Rm) (d : BitVec 8) (a : Src) (s : State) : Res := .next (runBundle h (special rm d a vRsq) s)
def execFexp2 (h : Hdr) (rm : Rm) (d : BitVec 8) (a : Src) (s : State) : Res := .next (runBundle h (special rm d a vExp2) s)
def execFlog2 (h : Hdr) (rm : Rm) (d : BitVec 8) (a : Src) (s : State) : Res := .next (runBundle h (special rm d a vLog2) s)
def execFsin (h : Hdr) (rm : Rm) (d : BitVec 8) (a : Src) (s : State) : Res := .next (runBundle h (special rm d a vSin) s)
def execFcos (h : Hdr) (rm : Rm) (d : BitVec 8) (a : Src) (s : State) : Res := .next (runBundle h (special rm d a vCos) s)
def execFtanh (h : Hdr) (rm : Rm) (d : BitVec 8) (a : Src) (s : State) : Res := .next (runBundle h (special rm d a vTanh) s)

end Sys2Proof.Machine
end

