-- ==== Sys2Proof/Machine/Convert.lean ====
section
/-! DEFINITION. Conversion and quantisation: the meanings of opcode row 0x08 (R40 to R43, R48, R116 to R119). -/

namespace Sys2Proof.Machine

def cvtFloat : CvtTy → Option FFmt
  | .f32 => some f32 | .f16 => some f16 | .bf16 => some bf16 | .e4m3 => some e4m3 | .e5m2 => some e5m2
  | .s8 => none | .n8 => none | .s16 => none | .n16 => none | .s32 => none | .n32 => none | .s64 => none | .n64 => none
def cvtWidth : CvtTy → Nat
  | .s8 => 8 | .n8 => 8 | .s16 => 16 | .n16 => 16 | .s32 => 32 | .n32 => 32 | .s64 => 64 | .n64 => 64
  | .f32 => 32 | .f16 => 16 | .bf16 => 16 | .e4m3 => 8 | .e5m2 => 8
def cvtSigned : CvtTy → Bool
  | .s8 => true | .s16 => true | .s32 => true | .s64 => true | _ => false

/-- The register image of an integer of a type: extended to 64 bits by its signedness (R31). -/
def intImage (x : Int) : Nat := (x % 2 ^ 64).toNat

/-- CVT's result as a register image, and whether it is invalid. -/
def cvtValue (rm : Rm) (dst src : CvtTy) (x : Nat) : Nat × Bool :=
  match cvtFloat src, cvtFloat dst with
  | some f, some g => (g.write rm (f.read x), false)
  | some f, none => (intImage (toIntVal rm (cvtWidth dst) (cvtSigned dst) (f.read x)), (f.read x).invalid)
  | none, some g => (g.write rm (.ofInt (valOf (cvtWidth src) (cvtSigned src) x)), false)
  | none, none =>
    (intImage (clampInt (valOf (cvtWidth src) (cvtSigned src) x) (loOf (cvtWidth dst) (cvtSigned dst))
      (hiOf (cvtWidth dst) (cvtSigned dst))), false)

def execCvt (h : Hdr) (rm : Rm) (dst src : CvtTy) (d : BitVec 8) (a : Src) (pq : Option (BitVec 3)) (s : State) : Res :=
  .next (runBundle h (pureSem
    { reads := if src.wide then names64 a else names32 a
      dests := (if dst.wide then pairNames d.toNat else [.g d.toNat]) ++ secondDst pq } fun e =>
      let x := if src.wide then (e.src64 a).toNat else (e.src32 a).toNat
      let r := cvtValue rm dst src x
      (if dst.wide then write64 d (BitVec.ofNat 64 r.1) else write32 d (BitVec.ofNat 32 r.1)) ++ writeSecond pq r.2) s)

def execQntElement (h : Hdr) (d : BitVec 8) (a b : Src) (pq : Option (BitVec 3)) (s : State) : Res :=
  .next (runBundle h (pureSem { reads := names32 a ++ names32 b, dests := [.g d.toNat] ++ secondDst pq } fun e =>
    write32 d (BitVec.ofNat 32 (b4Quant (e.f32 a) ((e.src32 b).toNat % 256))) ++ writeSecond pq (e.f32 a).isNan) s)

def execQntScale (h : Hdr) (d : BitVec 8) (a b : Src) (pq : Option (BitVec 3)) (s : State) : Res :=
  .next (runBundle h (pureSem { reads := names32 a ++ names32 b, dests := [.g d.toNat] ++ secondDst pq } fun e =>
    write32 d (BitVec.ofNat 32 (b4Scale ((e.src32 b).toNat % 4) (e.f32 a))) ++ writeSecond pq (e.f32 a).isNan) s)

def dqFmt : DqTy → FFmt
  | .f32 => f32 | .f16 => f16 | .bf16 => bf16

def execDqnt (h : Hdr) (dst : DqTy) (rm : Rm) (d : BitVec 8) (a b : Src) (i : BitVec 3) (s : State) : Res :=
  .next (runBundle h (pureSem { reads := names32 a ++ names32 b, dests := [.g d.toNat] } fun e =>
    write32 d (BitVec.ofNat 32 ((dqFmt dst).write rm
      (b4Val ((e.src32 a).toNat / 2 ^ (4 * i.toNat) % 16) ((e.src32 b).toNat % 256))))) s)

/-- The NAF digit position of a term within its element (R53): the 4-bit form holds it. -/
def form4 (x : Nat × Bool) : Nat := b2n x.2 * 8 + x.1 % 8

/-- Slots of TRCD's result: entries j0, j0 + 1, … of a list, n of them, each of v bits (R119). -/
def termSlots (l : List Nat) (j0 n v : Nat) : Nat :=
  sumList ((List.range n).map fun i => l.getD (j0 + i) 0 * 2 ^ (v * i))

/-- TRCD's result (R119). -/
def trcdValue (f : ElemFmt) (nib : Bool) (code j0 scale : Nat) : Nat :=
  match recode f code scale with
  | .posInf => 0x80 * 2 ^ 56
  | .negInf => 0x81 * 2 ^ 56
  | .nan => 0x82 * 2 ^ 56
  | .fin m q =>
    let ds := naf m
    if nib then ds.length * 2 ^ 56 + termSlots (ds.map form4) j0 14 4
    else
      let t8 := ds.map fun d => form8 { neg := d.2, shift := (d.1 : Int) + q }
      if t8.any fun x => x.isNone then 0x83 * 2 ^ 56
      else ds.length * 2 ^ 56 + termSlots (t8.map fun x => x.getD 0) j0 7 8

/-- R119; register c is among the reads for every format (log 90). -/
def execTrcd (h : Hdr) (fmt : ElemFmt) (nib : Bool) (d : BitVec 8) (a b c : Src) (s : State) : Res :=
  .next (runBundle h (pureSem { reads := names32 a ++ names32 b ++ names32 c, dests := pairNames d.toNat } fun e =>
    let scale := match fmt with | .b4 => (e.src32 c).toNat % 256 | _ => 0
    write64 d (BitVec.ofNat 64 (trcdValue fmt nib (e.src32 a).toNat ((e.src32 b).toNat % 32) scale))) s)

end Sys2Proof.Machine
end

