-- ==== Sys2Proof/Machine/Control.lean ====
section
/-! DEFINITION. Branches, calls and reconvergence barriers: the meanings of opcode row 0x09 (R26, R120, R125 to R127). -/

namespace Sys2Proof.Machine

/-- PC + 10 × off39 modulo 2^56 (R120). -/
def relTarget (pc : VAddr) (off : BitVec 39) : VAddr := pc + BitVec.ofInt 56 (10 * off.toInt)

/-- A target that is not a multiple of 10 (R18). -/
def misaligned (t : VAddr) : Option Trap := if t.toNat % 10 = 0 then none else some { cause := 0x06 }

def execBra (h : Hdr) (off : BitVec 39) (s : State) : Res :=
  .next (runBundle h
    { uses := {}
      early := fun e => misaligned (relTarget e.b.pc off)
      act := fun e s => (s, { pc := some (relTarget e.b.pc off) }) } s)

/-- BRX and RET have the same effect (R120). -/
def jumpTo (a : Src) : Sem :=
  { uses := { reads := names64 a }
    early := fun e => misaligned ((e.src64 a).truncate 56)
    act := fun e s => (s, { pc := some ((e.src64 a).truncate 56) }) }

def execBrx (h : Hdr) (a : Src) (s : State) : Res := .next (runBundle h (jumpTo a) s)
def execRet (h : Hdr) (a : Src) (s : State) : Res := .next (runBundle h (jumpTo a) s)

def execCall (h : Hdr) (d : BitVec 8) (off : BitVec 39) (s : State) : Res :=
  .next (runBundle h
    { uses := { dests := pairNames d.toNat }
      early := fun e => misaligned (relTarget e.b.pc off)
      act := fun e s => (s,
        { writes := write64 d ((e.b.pc + 10).zeroExtend 64), pc := some (relTarget e.b.pc off) }) } s)

/-! ## Reconvergence barriers -/

/-- Whether every lane of a member set has arrived or exited; an empty set has nothing to release (R127). -/
def Rcv.complete (r : Rcv) (gr : Group) : Bool :=
  r.members != 0 && (List.range 64).all fun l =>
    !r.members.getLsbD l || r.arrived.getLsbD l ||
      (match gr.threads[l]? with
       | some th => th.exited
       | none => true)

/-- Releases the complete barriers of a group: parked members continue at the word after the join. -/
def Group.release (gr : Group) : Group :=
  let done := (List.range 16).filter fun n => (gr.rcv.getD n Rcv.reset).complete gr
  { gr with
    threads := gr.threads.map fun th =>
      match th.park with
      | some (.rcv n) =>
        if done.contains n then { th with park := none, pc := (gr.rcv.getD n Rcv.reset).join + 10 } else th
      | _ => th
    rcv := mapIdxFrom (fun n r => if done.contains n then Rcv.reset else r) 0 gr.rcv }

/-- What follows an arrival or an exit. -/
def releaseGroups (b : Bundle) (s : State) : State :=
  s.updTeam b.core b.team fun t => { t with groups := t.groups.map Group.release }

/-- The lanes of a team that are parked at a reconvergence barrier. -/
def Team.rcvParked (t : Team) : List (Nat × Nat) :=
  t.lanes.filter fun x => match t.thread? x.1 x.2 with
    | some th => (match th.park with | some (.rcv _) => true | _ => false)
    | none => false

/-- What follows an arrival. Lanes released together are gathered into one bundle (R127), and the lane that arrived last has
issued in this cycle, so none of them issues in it (log 18). -/
def releaseArrived (b : Bundle) (s : State) : State :=
  let s1 := releaseGroups b s
  match s.team? b.core b.team, s1.team? b.core b.team with
  | some t, some t1 =>
    s1.updCore b.core fun k => { k with issued := k.issued ++
      (t.rcvParked.filter fun x => !t1.rcvParked.contains x).map fun x => (b.team, x.1, x.2) }
  | _, _ => s1

def execRcvSet (h : Hdr) (n : BitVec 8) (off : BitVec 39) (s : State) : Res :=
  .next (runBundle h
    { uses := {}
      chk := fun e =>
        let r := e.gr.rcv.getD n.toNat Rcv.reset
        if r.members = 0 ∨ r.join = relTarget e.b.pc off then .ok else .trap { cause := 0x09 }
      act := fun e s =>
        (s.updGroup e.b.core e.b.team e.g fun gr =>
          { gr with rcv := updAt gr.rcv n.toNat fun r =>
              { r with join := relTarget e.b.pc off, members := r.members ||| BitVec.twoPow 64 e.l } }, {}) } s)

def execRcvWait (h : Hdr) (n : BitVec 8) (s : State) : Res :=
  .next (runBundle h
    { uses := {}
      chk := fun e =>
        let r := e.gr.rcv.getD n.toNat Rcv.reset
        if r.members.getLsbD e.l && decide (r.join ≠ e.b.pc) then .trap { cause := 0x09 } else .ok
      act := fun e s =>
        if (e.gr.rcv.getD n.toNat Rcv.reset).members.getLsbD e.l then
          (s.updGroup e.b.core e.b.team e.g fun gr =>
            { gr with rcv := updAt gr.rcv n.toNat fun r => { r with arrived := r.arrived ||| BitVec.twoPow 64 e.l } },
           { park := some (.rcv n.toNat) })
        else (s, {})
      post := releaseArrived } s)

end Sys2Proof.Machine
end

