-- ==== Sys2Proof/Machine/CrossLane.lean ====
section
/-! DEFINITION. Reading other threads: the meanings of VOTE, XLANE and REDX (R85, R121 to R124). -/

namespace Sys2Proof.Machine

/-- The participants of a thread's own group in its bundle (R121). -/
def Env.participants (e : Env) : List (Nat × Thread) :=
  e.peers.filterMap fun l => match e.gr.threads[l]? with
    | some th => some (l, th)
    | none => none

/-- The predicate a participant votes with. -/
def voteOf (neg : Bool) (a : BitVec 3) (th : Thread) : Bool := th.p a.toNat ^^ neg

/-- The lanes whose bit of VOTE.bits or VOTE.live is 1, and the pair. -/
def Env.voteBits (e : Env) (live neg : Bool) (a : BitVec 3) : List Nat :=
  (e.participants.filter fun x => live || voteOf neg a x.2).map fun x => x.1
def laneMask (l : List Nat) : DWord := l.foldl (fun m i => m ||| BitVec.twoPow 64 i) 0

def voteDst (mode : VoteMode) (cnt : Bool) (d : BitVec 8) : List RName :=
  match mode with
  | .some => predDst (d.truncate 3)
  | .every => predDst (d.truncate 3)
  | .bits => if cnt then [.g d.toNat] else pairNames d.toNat
  | .live => if cnt then [.g d.toNat] else pairNames d.toNat

def execVote (h : Hdr) (mode : VoteMode) (cnt : Bool) (d : BitVec 8) (neg : Bool) (a : BitVec 3) (s : State) : Res :=
  let live := decide (mode = .live)
  .next (runBundle h (pureSem { reads := if live then [] else predDst a, dests := voteDst mode cnt d } fun e =>
    let bits := e.voteBits live neg a
    match mode with
    | .some => writeP (d.truncate 3) (!bits.isEmpty)
    | .every => writeP (d.truncate 3) (e.participants.all fun x => voteOf neg a x.2)
    | .bits => if cnt then write32 d (BitVec.ofNat 32 bits.length) else write64 d (laneMask bits)
    | .live => if cnt then write32 d (BitVec.ofNat 32 bits.length) else write64 d (laneMask bits)) s)

/-- The source lane of XLANE, computed exactly (R123). -/
def sourceLane (mode : LaneMode) (l v : Nat) : Int :=
  match mode with
  | .at => v
  | .below => (l : Int) - v
  | .above => (l : Int) + v
  | .mirror => (l ^^^ v : Nat)

/-- The thread that XLANE reads: none for an invalid source, which gives the executing thread's own registers (R123). -/
def Env.laneSource (e : Env) (mode : LaneMode) (b : Src) : Option (Nat × Thread) :=
  let src := sourceLane mode e.l (e.src32 b).toNat
  if 0 ≤ src ∧ src < 64 then (e.gr.threads[src.toNat]?).map fun th => (src.toNat, th) else none

/-- Register n of lane i of the executing thread's group, as XLANE reads it: as last written, an untagged result counting from
the issue of its word, and a tagged one from the completion of its tag (R85, R123). -/
def Env.laneReg (e : Env) (i n : Nat) : Option Word := (e.gr.threads[i]?).map fun th => th.seenReg n

/-- The registers that XLANE reads of the lane it names. -/
def laneNames (pair : Bool) (a : BitVec 8) : List RName := if pair then pairNames a.toNat else [.g a.toNat]

/-- XLANE reads the executing thread's own register: its source is invalid, or the thread itself. -/
def Env.readsOwn (e : Env) (mode : LaneMode) (b : Src) : Bool :=
  match e.laneSource mode b with
  | some (i, _) => i == e.l
  | none => true

/-- A result of a word that the thread has issued is still to come into one of the registers: of a parked LEASE (R228), or of an
access of the fabric or of home that it waits for (R85). -/
def Thread.comingTo (th : Thread) (l : List RName) : Bool :=
  (decide (th.park = some .lease) && th.windows.any fun w => !w.written && w.held.isEmpty && w.dests.any fun d => l.contains d) ||
    th.awaits.any fun d => l.contains d

/-- A register that another thread reads has been destroyed (R322), and no result that its thread has issued replaces it. -/
def Thread.seenLost (th : Thread) (r : RName) : Bool :=
  th.lost.contains r && !th.comingTo [r] && !(th.windows.any fun w => !w.written && !w.held.isEmpty && w.dests.contains r)

/-- The source lane's register, or the own one in its place, has been destroyed by an error (R322). -/
def Env.laneLost (e : Env) (mode : LaneMode) (pair : Bool) (a : BitVec 8) (b : Src) : Bool :=
  match e.laneSource mode b with
  | some (_, th) => (laneNames pair a).any th.seenLost
  | none => e.lostReg (laneNames pair a)

/-- The lane whose result the reading bundle waits for (R85). -/
def Env.laneComing (e : Env) (mode : LaneMode) (pair : Bool) (a : BitVec 8) (b : Src) : Option Nat :=
  match e.laneSource mode b with
  | some (i, th) => if th.comingTo (laneNames pair a) then some i else none
  | none => none

/-- The own register beyond the team's (R13), or in a window when it is read (R77). The register that names the lane is judged
before: while it is lost, no lane is named. -/
def xlaneEarly (mode : LaneMode) (pair : Bool) (a : BitVec 8) (b : Src) (e : Env) : Option Trap :=
  if beyond e.t.nregs (laneNames pair a) then some { cause := 0x04 }
  else if !e.lostReg (names32 b) && e.readsOwn mode b && e.th.inWindow (laneNames pair a) then some { cause := 0x07 }
  else none

def execXlane (h : Hdr) (mode : LaneMode) (pair : Bool) (d a : BitVec 8) (b : Src) (pq : Option (BitVec 3)) (s : State) :
    Res :=
  .next (runBundle h { pureSem
    { reads := names32 b
      dests := (if pair then pairNames d.toNat else [.g d.toNat]) ++ secondDst pq } (fun e =>
      let lane := e.laneSource mode b
      let val (n : Nat) : Word := match lane with
        | some (i, _) => (e.laneReg i n).getD (e.th.g n)
        | none => e.th.g n
      (if pair then [.g d.toNat (val a.toNat), .g (d.toNat + 1) (val (a.toNat + 1))] else write32 d (val a.toNat)) ++
        writeSecond pq lane.isSome) with
    early := xlaneEarly mode pair a b
    chk := fun e =>
      if e.laneLost mode pair a b then .trap (lossTrap e)
      else match e.laneComing mode pair a b with
        | some i => .later (.result e.g i)
        | none => .ok } s)

/-- One node of REDX's tree (R124). -/
def redxOp (op : RedOp) (rm : Rm) (ty : RedTy) (x y : Word) : Word :=
  match ty with
  | .f32 =>
    let a := f32.read x.toNat
    let b := f32.read y.toNat
    match op with
    | .add => BitVec.ofNat 32 (f32.write rm (a.add rm b))
    | .min => if pick a b (b.below a) then y else x
    | .max => if pick a b (a.below b) then y else x
  | .s32 =>
    match op with
    | .add => x + y
    | .min => if x.toInt ≤ y.toInt then x else y
    | .max => if x.toInt ≤ y.toInt then y else x
  | .n32 =>
    match op with
    | .add => x + y
    | .min => if x.toNat ≤ y.toNat then x else y
    | .max => if x.toNat ≤ y.toNat then y else x

/-- One level of the tree: pairs of neighbours; an absent one gives the other. -/
def treeLevel (f : Word → Word → Word) : List (Option Word) → List (Option Word)
  | x :: y :: r =>
    (match x, y with
     | some a, some b => some (f a b)
     | some a, none => some a
     | none, y => y) :: treeLevel f r
  | l => l

def tree64 (f : Word → Word → Word) (l : List (Option Word)) : Option Word :=
  ((List.range 6).foldl (fun v _ => treeLevel f v) l).headD none

def execRedx (h : Hdr) (op : RedOp) (rm : Rm) (ty : RedTy) (d a : BitVec 8) (s : State) : Res :=
  .next (runBundle h (pureSem { reads := [.g a.toNat], dests := [.g d.toNat] } fun e =>
    let v := (List.range 64).map fun l =>
      match e.participants.find? fun x => x.1 == l with
      | some x => some (x.2.g a.toNat)
      | none => none
    write32 d ((tree64 (redxOp op rm ty) v).getD 0)) s)

end Sys2Proof.Machine
end

