-- ==== Sys2Proof/Machine/Tiles.lean ====
section
/-! DEFINITION. Tiles, format words and matrix parameter blocks as data (R22, R201 to R204, R208 to R212, R241 to R243),
and the arithmetic of the term array: costs, the term barrier, model time and the bound W (R217 to R219). -/

namespace Sys2Proof.Machine

/-! ## Tiles -/

/-- The five formats of the term array (R202). -/
def matFmt (c : Nat) : Option ElemFmt :=
  match c with
  | 0x01 => some .s8 | 0x09 => some .bf16 | 0x0A => some .e4m3 | 0x0B => some .e5m2 | 0x0C => some .b4 | _ => none

def Tile.fmt (t : Tile) : Option ElemFmt := matFmt (fld t.ctl.toNat 16 6)
def Tile.rows (t : Tile) : Nat := fld t.ctl.toNat 0 7 + 1
def Tile.cols (t : Tile) : Nat := fld t.ctl.toNat 8 8 + 1
def Tile.term (t : Tile) : Bool := bitOf t.ctl.toNat 23
def Tile.allot (t : Tile) : Nat := fld t.ctl.toNat 24 5

def isB4 (f : ElemFmt) : Bool := decide (f = .b4)
/-- Bytes of a row of c elements, and scale bytes of it (R203). -/
def rowBytes (f : ElemFmt) (c : Nat) : Nat := ceilDiv (c * elemBits f) 8
def scaleBytes (f : ElemFmt) (c : Nat) : Nat := if isB4 f then ceilDiv c 32 else 0
/-- Bits of a term slot: 4 for .s8 and .b4, 8 otherwise (R204). -/
def slotBits (f : ElemFmt) : Nat := match f with | .s8 => 4 | .b4 => 4 | _ => 8

/-- A control word that TCFG accepts (R202, R203). -/
def tileOk (ctl : DWord) : Bool :=
  let x := ctl.toNat
  let t : Tile := { ctl := ctl, elems := [], scales := [] }
  match t.fmt with
  | none => false
  | some f =>
    fld x 29 35 == 0 && fld x 22 1 == 0 && fld x 7 1 == 0 &&
    (if t.term then
      decide (4 ≤ t.allot) && decide (t.allot ≤ 16) &&
      decide (t.rows * ceilDiv t.cols 8 * (4 + ceilDiv (t.allot * slotBits f) 8) + t.rows * scaleBytes f t.cols ≤ 31744)
    else t.allot == 0 && decide (t.rows * rowBytes f t.cols + t.rows * scaleBytes f t.cols ≤ 32768))

def Tile.code (t : Tile) (i j : Nat) : Nat := amGet 0 t.elems (i * 256 + j)
def Tile.scale (t : Tile) (i j : Nat) : Nat := (amGet 0 t.scales (i * 8 + j / 32)).toNat

/-- The code of an element's value as a term tile holds it: −0 is +0, a NaN the canonical one, and an element of a .b4 NaN
block code 0 (R207). -/
def termCode (f : ElemFmt) (code scale : Nat) : Nat :=
  match elemVal f code scale with
  | .nan => (match elemFloat f with | some g => g.nan | none => 0)
  | .fin _ m _ => if m = 0 then 0 else code
  | .inf _ => code

/-- The tile with every element and scale byte given. -/
def Tile.fill (t : Tile) (f : ElemFmt) (code : Nat → Nat → Nat) (scale : Nat → Nat → Byte) : Tile :=
  { t with
    lost := false
    scales := (List.range t.rows).foldl (fun m i =>
      amSetList 0 m (i * 8) ((List.range (scaleBytes f t.cols)).map fun b => scale i b)) []
    elems := (List.range t.rows).foldl (fun m i =>
      amSetList 0 m (i * 256) ((List.range t.cols).map fun j => code i j)) [] }

/-- Terms of the 8 columns of a segment. -/
def Tile.segTerms (t : Tile) (f : ElemFmt) (i sg : Nat) : Nat :=
  sumList ((List.range 8).map fun c =>
    let j := 8 * sg + c
    if j < t.cols then ((termsOf f (t.code i j) (t.scale i j)).getD []).length else 0)
/-- A segment spills when it has more terms than slots (R204). -/
def Tile.spilled (t : Tile) (f : ElemFmt) (i sg : Nat) : Bool := t.term && decide (t.allot < t.segTerms f i sg)
/-- Bytes of the overflow pool that the spilled segments take. -/
def Tile.poolBytes (t : Tile) (f : ElemFmt) : Nat :=
  sumList ((List.range t.rows).map fun i => sumList ((List.range (ceilDiv t.cols 8)).map fun sg =>
    let n := t.segTerms f i sg
    if t.allot < n then alignUp (4 + ceilDiv ((n - t.allot) * slotBits f) 8) 4 else 0))
/-- Some .bf16 term has no 8-bit form (R53, R207). -/
def Tile.shiftOut (t : Tile) (f : ElemFmt) : Bool :=
  decide (f = .bf16) && t.elems.any fun e => ((termsOf f e.2 0).getD []).any fun x => (form8 x).isNone

/-! ## Format words (R22, R209) -/

def fwA (w : Word) : Option ElemFmt := matFmt (fld w.toNat 24 6)
def fwB (w : Word) : Option ElemFmt := matFmt (fld w.toNat 18 6)
def fwAcc (w : Word) : Nat := fld w.toNat 16 2
def fwLay (w : Word) : Bool := bitOf w.toNat 15

/-! ## Parameter blocks (R211, R241) -/

structure MatView where
  aStream : Bool
  bStream : Bool
  m : Nat
  n : Nat
  k : Nat
  ta : Nat
  tb : Nat
  arow : Nat
  acol : Nat
  brow : Nat
  bcol : Nat
  d : Nat
  g : Nat
  allot : Nat
  cbase : Nat
  glo : Nat
  ghi : Nat
  cs : Bool
  pw : Bool
  z : Bool
  aptr : Nat
  apitch : Nat
  bpitch : Nat
  bptr : Nat
  pmask : Nat
  nc : Nat
  nr : Nat
  crank : Nat
  csp : Bool
  ccnt : Nat
  deriving DecidableEq, Repr

def matView (b : List Byte) : MatView :=
  let u (o : Nat) : Nat := (b.getD o 0).toNat
  { aStream := bitOf (u 0) 7, bStream := bitOf (u 1) 7, m := fld (u 0) 0 7 + 1, n := fld (u 1) 0 7 + 1
    k := fld (u 2) 0 7 + 1, ta := fld (u 3) 4 4, tb := fld (u 3) 0 4, arow := fld (u 4) 0 7, acol := u 5
    brow := fld (u 6) 0 7, bcol := u 7, d := fld (u 8) 4 4, g := 2 ^ fld (u 8) 0 3, allot := fld (u 9) 0 5
    cbase := u 10, glo := fld (u 11) 0 5, ghi := fld (u 12) 0 5, cs := bitOf (u 13) 2, pw := bitOf (u 13) 1
    z := bitOf (u 13) 0, aptr := sliceNat b 16 8, apitch := sliceNat b 24 4, bpitch := sliceNat b 28 4
    bptr := sliceNat b 32 8, pmask := fld (sliceNat b 40 2) 0 12, nc := fld (u 42) 1 2 + 1, nr := fld (u 42) 0 1 + 1
    crank := fld (u 43) 4 4, csp := bitOf (u 43) 0, ccnt := sliceNat b 48 8 }

/-- The reserved bits of a block are zero, and so are the fields that its sources do not use (R211, R212). -/
def blockZero (b : List Byte) : Bool :=
  let u (o : Nat) : Nat := (b.getD o 0).toNat
  let v := matView b
  fld (u 2) 7 1 == 0 && fld (u 4) 7 1 == 0 && fld (u 6) 7 1 == 0 && fld (u 8) 3 1 == 0 && fld (u 9) 5 3 == 0 &&
  fld (u 11) 5 3 == 0 && fld (u 12) 5 3 == 0 && fld (u 13) 3 5 == 0 && sliceNat b 14 2 == 0 &&
  (if v.aStream then v.ta == 0 && v.arow == 0 && v.acol == 0 else v.aptr == 0 && v.apitch == 0) &&
  (if v.bStream then v.tb == 0 && v.brow == 0 && v.bcol == 0 else v.bptr == 0 && v.bpitch == 0) &&
  (decide (64 < v.n) || v.ghi == 0) && (v.cs || sliceNat b 40 24 == 0)
/-- The reserved bits of the cluster fields are zero (R241). -/
def clusterZero (b : List Byte) : Bool :=
  fld (sliceNat b 40 2) 12 4 == 0 && fld (sliceNat b 42 1) 3 5 == 0 && fld (sliceNat b 43 1) 1 3 == 0 &&
  sliceNat b 44 4 == 0 && sliceNat b 56 8 == 0

/-- A stream (R210): pointer, displacement of a cluster part, pitch, rows, first column, width read, width of a stored row, format. -/
structure Stream where
  ptr : Nat
  disp : Nat
  pitch : Nat
  rows : Nat
  col0 : Nat
  width : Nat
  full : Nat
  fmt : ElemFmt
  deriving DecidableEq, Repr

/-- Bits set in pmask below a rank (R242). -/
def partIndex (pmask rank : Nat) : Nat := sumList ((List.range rank).map fun i => b2n (bitOf pmask i))

def MatView.subRow (v : MatView) (rank : Nat) : Nat := if v.cs then partIndex v.pmask rank / v.nc else 0
def MatView.subCol (v : MatView) (rank : Nat) : Nat := if v.cs then partIndex v.pmask rank % v.nc else 0

/-- The A stream of a core of a rank (R210, R242). -/
def MatView.streamA (v : MatView) (f : ElemFmt) (rank : Nat) : Stream :=
  { ptr := v.aptr, disp := v.subRow rank * v.m * v.apitch, pitch := v.apitch, rows := v.m, col0 := 0, width := v.k, full := v.k
    fmt := f }
/-- The B stream: a cluster-split .b4 stream keeps the pointer and starts at a later column (log 16). -/
def MatView.streamB (v : MatView) (f : ElemFmt) (rank : Nat) : Stream :=
  let c0 := v.subCol rank * v.n
  { ptr := v.bptr, disp := if isB4 f then 0 else rowBytes f c0, pitch := v.bpitch, rows := v.k
    col0 := if isB4 f then c0 else 0, width := v.n, full := if v.cs && isB4 f then v.nc * v.n else v.n, fmt := f }

/-- Offsets from the pointer of the element byte(s) of (i, j), and of its scale byte (R210). -/
def Stream.elemOff (x : Stream) (i j : Nat) : Nat := i * x.pitch + (x.col0 + j) * elemBits x.fmt / 8
def Stream.scaleOff (x : Stream) (i j : Nat) : Nat := x.rows * x.pitch + i * ceilDiv x.full 32 + (x.col0 + j) / 32
/-- First byte and number of bytes that row i takes for columns j0 to j0 + n − 1, and of their scale bytes. -/
def Stream.rowSpan (x : Stream) (i j0 n : Nat) : Nat × Nat :=
  let a := x.elemOff i j0
  (a, x.elemOff i (j0 + n - 1) + ceilDiv (elemBits x.fmt) 8 - a)
def Stream.scaleSpan (x : Stream) (i j0 n : Nat) : Nat × Nat :=
  if isB4 x.fmt then (x.scaleOff i j0, x.scaleOff i (j0 + n - 1) + 1 - x.scaleOff i j0) else (0, 0)
/-- Bytes from the pointer to the end of the footprint. -/
def Stream.length (x : Stream) : Nat :=
  if isB4 x.fmt then x.scaleOff (x.rows - 1) (x.width - 1) + 1
  else x.elemOff (x.rows - 1) (x.width - 1) + ceilDiv (elemBits x.fmt) 8

def Stream.ok (x : Stream) : Bool :=
  fld x.ptr 60 4 == 0 && x.ptr % 8 == 0 && x.pitch % 8 == 0 && decide (rowBytes x.fmt x.full ≤ x.pitch) &&
  decide (fld x.ptr 0 56 + x.disp + x.length ≤ 2 ^ 56)

/-! ## Costs and times (R217 to R219) -/

/-- Tmax of the bound W. -/
def wTmax (f : ElemFmt) (pw : Bool) : Nat := match f with | .b4 => if pw then 1 else 2 | _ => tmax f

/-- W (R219). -/
def boundW (f : ElemFmt) (pw : Bool) (k : Nat) (lay : Bool) (allot : Nat) : Nat :=
  let t := wTmax f pw
  let o := if lay ∧ allot < 8 * t then 1 else 0
  k * t + ceilDiv k 32 * 2 + ceilDiv k 8 * o + 16

end Sys2Proof.Machine
end

