-- ==== Sys2Proof/Machine/CtlRead.lean ====
section
/-! DEFINITION. What the registers of the package control region read (R168, R198, R302, R303, R323, R327 to R330, R340, R341, R344,
R353, R368, R373, R380, R382, R383, R385, R388), and 8-byte reads of the device by physical address. -/

namespace Sys2Proof.Machine

/-! ## The core control window (R168, R303) -/

/-- Some thread is parked on a barrier of a team. -/
def State.hasWaiters (s : State) (c : Nat) (e : BarEntry) : Bool :=
  (s.teamsOf c).any fun t => t.ctx == e.ctx && t.vtid == e.vtid && t.groups.any fun g => g.threads.any fun th =>
    match th.park with
    | some (.barw n _) => n == e.number
    | _ => false

def barWord (s : State) (c : Nat) (e : BarEntry) : Nat :=
  b2n e.valid * 2 ^ 63 + b2n (e.valid && s.hasWaiters c e) * 2 ^ 62 + e.ctx * 2 ^ 40 + e.number * 2 ^ 36 + e.vtid * 2 ^ 12

/-- The spare term columns of a core's site (R223, R323). -/
def State.spareCols (s : State) (c : Nat) : Nat :=
  match s.sites.find? fun x => x.core == some c with
  | some x => x.spareCols
  | none => 0

def windowRead (s : State) (c o : Nat) : Nat :=
  let k := s.core c
  if o < 0x400 then
    let e := k.bars.getD (o / 16) BarEntry.reset
    if o % 16 = 0 then e.count else barWord s c e
  else if o < 0x600 then
    match k.team? ((o - 0x400) / 16) with
    | some t => if o % 16 = 0 then 2 ^ 63 + t.ctx * 2 ^ 40 + t.vtid * 2 ^ 12 else t.spill.toNat
    | none => 0
  else if 0x800 ≤ o ∧ o < 0x880 then
    let e := k.engines.getD ((o - 0x800) / 32) Engine.reset
    match (o - 0x800) % 32 with
    | 0 => (match e.stopped with | some n => 2 ^ 63 + n | none => 0)
    | 16 => e.cancels
    | _ => 0
  else if o = 0xA00 then b2n k.twoCtx
  else if 0xB00 ≤ o ∧ o < 0xB20 then (if o = 0xB10 then s.spareCols c else k.errs.getD ((o - 0xB00) / 8) 0)
  else 0

/-! ## Contexts and launch queues (R302, R329) -/

def ctxRead (s : State) (o : Nat) : Nat :=
  let x := s.ctxAt (o / 128)
  match o % 128 with
  | 0 => b2n x.valid * 2 ^ 63 + b2n x.sup * 2 ^ 62 + x.id
  | 8 => x.root | 16 => x.tqbase | 24 => x.tqsize | 32 => x.tqprod | 40 => x.tqcons | 48 => x.hbase | 56 => x.hcount
  | 64 => x.imgbase | _ => 0

def queueRead (s : State) (o : Nat) : Nat :=
  let q := s.queueAt (o / 512) (o % 512 / 64)
  match o % 64 with
  | 0 => b2n q.valid * 2 ^ 63 + b2n q.dev * 2 ^ 62 + b2n q.qs * 2 ^ 61 + q.qsize
  | 8 => q.base.toNat | 16 => q.prod.toNat | 24 => q.cons.toNat | 32 => q.refused
  | 40 => q.rslot * 2 ^ 32 + q.reason | _ => 0

/-! ## Sites, watches, fabric (R327, R373, R382, R383, R388) -/

def siteWord (x : Site) : Nat :=
  b2n x.failed * 2 ^ 63 + b2n x.core.isNone * 2 ^ 62 + b2n x.hot * 2 ^ 61 + b2n x.relocating * 2 ^ 60 + x.pool * 2 ^ 56 +
    x.temp % 256 * 2 ^ 48 + x.core.getD 0

def watchRead (s : State) (o : Nat) : Nat :=
  let w := s.watches.getD (o / 32) Watch.reset
  match o % 32 with
  | 0 => b2n w.armed * 2 ^ 63 + w.vector | 8 => w.counter | 16 => w.threshold.toNat | _ => 0
def State.fabWin (s : State) (i w : Nat) : FabWindow := (s.fabric.windows.getD i []).getD w FabWindow.reset
def fabWinRead (s : State) (o : Nat) : Nat :=
  let x := s.fabWin (o / 512) (o % 512 / 32)
  match o % 32 with
  | 0 => b2n x.en * 2 ^ 63 + x.base | 8 => x.size | 16 => x.peer * 2 ^ 54 + x.pctx * 2 ^ 32 + x.smask.toNat
  | 24 => b2n x.ro * 2 ^ 63 + x.pbase | _ => 0
def rmCode : Rm → Nat | .rne => 0 | .rtz => 1 | .rup => 2 | .rdn => 3
def rmNat (n : Nat) : Rm := match n with | 0 => .rne | 1 => .rtz | 2 => .rup | _ => .rdn
def redWin (s : State) (r : Nat) : RedWindow := s.fabric.reductions.getD r RedWindow.reset
def redRead (s : State) (o : Nat) : Nat :=
  let x := redWin s (o / 32)
  match o % 32 with
  | 0 => b2n x.en * 2 ^ 63 + x.vbase | 8 => x.len
  | 16 => rmCode x.rm * 2 ^ 26 + x.op.toNat * 2 ^ 24 + x.ty.toNat * 2 ^ 20 + x.ctx | _ => 0
/-- The station up mask (R382): trained and enabled. -/
def Fabric.up (f : Fabric) : BitVec 32 := f.trained &&& f.enable
def fabCtlRead (s : State) (o : Nat) : Nat :=
  match o with
  | 0 => s.fabric.accel | 8 => s.fabric.enable.toNat | 16 => s.fabric.up.toNat | 24 => s.fabric.errorsSent
  | 32 => s.fabric.timedOut | _ => 0
/-! ## The restart report (R368) -/

def State.reportEntry (s : State) (k : Nat) : Option ReportEntry :=
  match s.reserve.report with
  | some r => r.entries[k]?
  | none => none

def reportCount (r : Report) (p : ReportEntry → Bool) : Nat := (r.entries.filter p).length
def reportHead (s : State) (o : Nat) : Nat :=
  match s.reserve.report with
  | none => if o = 56 then b2n s.reserve.released * 2 else 0
  | some r =>
    match o with
    | 0 => r.epoch.toNat
    | 8 => r.entries.length + reportCount r (fun e => e.cls == 0) * 2 ^ 16 + reportCount r (fun e => e.cls == 1) * 2 ^ 32 +
        reportCount r (fun e => e.cls == 2) * 2 ^ 48
    | 32 => b2n r.refused * 2 ^ 63 + r.haltIdx
    | 40 => r.count
    | 56 => 1 + b2n s.reserve.released * 2
    | _ => 0
/-- The 32 bytes of a report entry. -/
def reportBytes (e : ReportEntry) : List Byte :=
  slice e.manifest 0 4 ++ natBytes e.cls 1 ++ natBytes e.reason 1 ++ [0, 0] ++ slice e.manifest 8 8 ++
    natBytes e.x 4 ++ natBytes (if e.cls = 2 then 0 else e.chunks) 4 ++ natBytes e.offset 8
def reportRead (s : State) (o : Nat) : Nat :=
  match s.reportEntry (o / 32) with
  | some e => sliceNat (reportBytes e) (o % 32) 8
  | none => 0
/-! ## The region -/

/-- An aligned 8-byte read at an offset of the region. -/
def ctlRead (s : State) (o : Nat) : Nat :=
  if o < 0x2000 then ctxRead s o
  else if 0x80000 ≤ o ∧ o < 0x88000 then queueRead s (o - 0x80000)
  else if 0x88000 ≤ o ∧ o < 0x88100 then sliceNat (s.classes.getD ((o - 0x88000) / 64) []) ((o - 0x88000) % 64) 8
  else if o = 0x88100 then b2n s.frozen + 2 ^ 63
  else if 0x89000 ≤ o ∧ o < 0x89200 then (s.ctxAt ((o - 0x89000) / 8)).xword.toNat
  else if 0x8A000 ≤ o ∧ o < 0x8A200 then
    let x := s.ctxAt ((o - 0x8A000) / 8)
    if x.valid then x.cpri * 2 ^ 48 + x.share else 0
  else if 0x8B000 ≤ o ∧ o < 0x8B400 then watchRead s (o - 0x8B000)
  else if o = 0x8C000 then s.mgmt.cap + b2n s.mgmt.fallback * 65536
  else if o = 0x8C008 then s.mgmt.last
  else if o = 0x8C010 then s.mgmt.floor
  else if 0x90000 ≤ o ∧ o < 0x90700 then s.siteOf ((o - 0x90000) / 8)
  else if 0x91000 ≤ o ∧ o < 0x92000 then
    match s.sites.find? fun x => x.v == (o - 0x91000) / 8 with
    | some x => siteWord x
    | none => 0
  else if 0xA0000 ≤ o ∧ o < 0xA0040 then reportHead s (o - 0xA0000)
  else if 0xB0000 ≤ o ∧ o < 0xB0100 then fabCtlRead s (o - 0xB0000)
  else if 0xB0100 ≤ o ∧ o < 0xB0180 then redRead s (o - 0xB0100)
  else if 0xB0800 ≤ o ∧ o < 0xB0A00 then
    let x := s.fabric.imports.getD ((o - 0xB0800) / 8) (false, false)
    b2n x.1 * 2 ^ 63 + b2n x.2 * 2 ^ 62
  else if 0xB1000 ≤ o ∧ o < 0xB9000 then fabWinRead s (o - 0xB1000)
  else if 0xC0000 ≤ o ∧ o < 0xE0000 then reportRead s (o - 0xC0000)
  else if 0x100000 ≤ o ∧ o < 0xF00000 then windowRead s ((o - 0x100000) / 0x10000) (o % 0x10000)
  else 0

/-- Eight bytes at a physical address as an aligned access of the device reads them: a register of the region, or memory. -/
def State.word8 (s : State) (pa : Nat) : Nat := if inCtl pa then ctlRead s (pa - Config.ctlBase) else s.read8 pa

/-- A read of 8 bytes by physical address (R302): the value, its time, and the state after it. Where nothing is, and in a lost
granule, the value is free. -/
def State.physRead8 (s : State) (pa clock : Nat) : Nat × Nat × State :=
  if inCtl pa then (ctlRead s (pa - Config.ctlBase), clock, s)
  else
    let (d, s1) := s.physBytes pa 8
    if memPart pa 8 = 8 then
      let l := s1.leafAt pa
      let (t, s2) := (s1.claim l none).readEvent l pa clock
      (bytesNat d, t, s2)
    else (bytesNat d, clock, s1)

end Sys2Proof.Machine
end

