-- ==== Sys2Proof/Machine/MatrixOps.lean ====
section
/-! DEFINITION. Matrix operations in the term array: stream reads, the fold of one k-block of one row, stops, delivery and
cancellation, and the lease amounts they hold (R54 to R60, R210, R214, R216, R221 to R225, R244, R250, R251). -/

namespace Sys2Proof.Machine

/-! ## Clusters and leases -/

/-- The cores of a cluster by rank, rank of a core in it, number of its cores, and the core of a rank (R236). A team without
one counts as a cluster of one core. -/
def State.ranks (s : State) (grid cl : Nat) : List Nat :=
  match s.clusterOf grid cl with
  | some x => match x.entry grid cl with | some e => e.ranks | none => []
  | none => []
def State.rankOf (s : State) (t : Team) (c : Nat) : Nat := ((s.ranks t.grid t.cluster).findIdx? fun k => k == c).getD 0
def State.clusterSize (s : State) (t : Team) : Nat := Nat.max 1 (s.ranks t.grid t.cluster).length

/-- The team of a cluster of a grid on the core of a rank, which may lie in an image (R239, R240). -/
def State.peerOf (s : State) (grid cluster r : Nat) : Option (Nat × Team) :=
  match (s.ranks grid cluster)[r]? with
  | some k => match (s.teamsOf k).find? fun x => x.grid == grid && x.cluster == cluster with
    | some x => some (k, x)
    | none => none
  | none => none
/-- The peer team of a team on another core of its cluster (R239). -/
def State.peerTeam (s : State) (t : Team) (r : Nat) : Option (Nat × Team) := s.peerOf t.grid t.cluster r

/-- A pool parameter scaled by the applied cap (R380). -/
def State.capScaled (s : State) (v : Nat) : Nat := v * s.mgmt.cap / 2400
def State.allowanceOf (s : State) (pool : Nat) : Nat := s.capScaled (s.clsField pool 0 4 2097152)
def State.capacityOf (s : State) (pool : Nat) : Nat := s.capScaled (s.clsField pool 4 4 33554432)
def State.lifetimeOf (s : State) (pool : Nat) : Nat := s.clsField pool 8 4 55000
def State.poolOf (s : State) (t : Team) : Nat := match s.clusterOf t.grid t.cluster with | some x => x.pool | none => 0

def MatOp.holds (o : MatOp) : Nat := o.drawn + (match o.granted with | some g => g.1 | none => 0)
def Team.leaseHeld (t : Team) (now : Nat) : Nat :=
  sumList (t.groups.map fun g => match g.lease with
    | some l => if now < l.expiry then l.left else 0
    | none => 0)
/-- The held amount of a cluster's pool (R251). -/
def State.heldOf (s : State) (x : Cluster) : Nat :=
  sumList (x.cores.map fun c =>
    sumList (((s.core c).ops.filter fun o => (x.entry o.grid o.cluster).isSome).map MatOp.holds) +
      sumList (((s.core c).teams.filter fun t => (x.entry t.grid t.cluster).isSome).map fun t => t.leaseHeld s.cycle))

def MatOp.view (o : MatOp) : MatView := matView o.block
def MatOp.fmtA (o : MatOp) : ElemFmt := (fwA o.fw).getD .s8
def MatOp.fmtB (o : MatOp) : ElemFmt := (fwB o.fw).getD .s8

/-! ## Stream reads (R210, R222, R245) -/

/-- What reads of stream words come to: what was read, with the operation's words and clock after it; pages to walk, or a round
to wait for; or a fault. -/
inductive Read (α : Type) where
  | ok (x : α) (s : State) (o : MatOp)
  | wait (pages : List Nat)
  | fault (cause addr : Nat)
  deriving DecidableEq, Repr

def Read.andThen {α β : Type} (r : Read α) (f : α → State → MatOp → Read β) : Read β :=
  match r with
  | .ok x s o => f x s o
  | .wait p => .wait p
  | .fault k a => .fault k a

/-- Two operations are participants of one cluster-split operation that take the same B stream (R245). -/
def MatOp.sameB (x y : MatOp) : Bool :=
  let v := x.view
  let w := y.view
  x.ctx == y.ctx && x.grid == y.grid && x.cluster == y.cluster && v.cs && w.cs && v.bStream && w.bStream && v.bptr == w.bptr &&
    v.bpitch == w.bpitch && decide (x.fmtB = y.fmtB) && v.k == w.k && v.n == w.n && v.nc == w.nc &&
    v.subCol x.wrank == w.subCol y.wrank
/-- An operation runs. -/
def MatOp.runs (o : MatOp) : Bool := !o.cancelled && decide (o.state = .running ∨ o.state = .stopping)

/-- A word that the array has read for a block. -/
def MatOp.word (o : MatOp) (b addr : Nat) : Option (Nat × List Byte) :=
  (o.words.find? fun w => w.1 == b && w.2.1 == addr).map fun w => w.2.2
/-- A word of a block as it has been read already, with the time and the cycle of its event: for the operation, or, for a B word, for
another participant that runs the block, since the operation's run or replay of it began; the word is delivered to both by one
event, and an operation that runs the block at another time fetches it anew (log 97). -/
def State.keptWord (s : State) (c : Nat) (o : MatOp) (b : Nat) (isB : Bool) (addr : Nat) : Option (List Byte × Nat × Nat) :=
  match o.word b addr with
  | some (at', d) => some (d, o.clock, at')
  | none =>
    if isB && o.view.cs then
      (s.ranks o.grid o.cluster).findSome? fun k =>
        if k = c then none
        else (s.core k).ops.findSome? fun (y : MatOp) =>
          if y.runs && o.sameB y then (y.word b addr).bind fun w => if o.since ≤ w.1 then some (w.2, y.clock, w.1) else none
          else none
    else none
/-- The operation holds a word of a block, and its clock is at least the event's time. -/
def MatOp.keep (o : MatOp) (b addr : Nat) (d : List Byte) (clock at' : Nat) : MatOp :=
  { o with clock := Nat.max o.clock clock, words := if (o.word b addr).isSome then o.words else o.words ++ [(b, addr, at', d)] }

/-- One aligned 8-byte word of a stream for a block: one event. -/
def State.streamWord (s : State) (c : Nat) (o : MatOp) (b : Nat) (isB : Bool) (tag va : Nat) : Read (List Byte) :=
  let addr := va + tag * 2 ^ 56
  match s.keptWord c o b isB addr with
  | some (d, k, at') => .ok d s (o.keep b addr d k at')
  | none =>
    let pinned := o.pins.find? fun x => decide (x.va ≤ va) && decide (va < x.va + x.size)
    let pg : PageRes := match pinned with
      | some x => .ok (leafOf x)
      | none => s.checkPage c o.ctx o.sup va false false
    match pg with
    | .trap k => .fault k addr
    | .miss p => .wait [p]
    | .ok l =>
      let pa := l.phys va
      if pinned.isNone && s.gtag pa != BitVec.ofNat 4 tag then .fault 0x28 addr
      else if (s.lostIn pa 8).isSome then .fault 0xA1 addr
      else if s.readHeld (some c) pa 8 then .wait []
      else
        let s1 := (s.claim l (some c)).note o.ctx l (some c) false
        let (t, s2) := s1.readEvent l pa o.clock
        let d := if inCtl pa then natBytes (s2.word8 pa) 8 else s2.readBytes pa 8
        .ok d (s2.renew c l pa o.clock) (o.keep b addr d t s.cycle)

/-- n words from va. -/
def State.streamWords (c b : Nat) (isB : Bool) (tag : Nat) : Nat → Nat → State → MatOp → Read (List Byte)
  | 0, _, s, o => .ok [] s o
  | n + 1, va, s, o =>
    (s.streamWord c o b isB tag va).andThen fun d s1 o1 =>
      (State.streamWords c b isB tag n (va + 8) s1 o1).andThen fun r s2 o2 => .ok (d ++ r) s2 o2

/-- The bytes of a span of a stream, by the aligned words that hold them. -/
def State.streamSpan (s : State) (c : Nat) (o : MatOp) (b : Nat) (isB : Bool) (x : Stream) (sp : Nat × Nat) : Read (List Byte) :=
  if sp.2 = 0 then .ok [] s o
  else
    let va := fld x.ptr 0 56 + x.disp + sp.1
    let a := va / 8 * 8
    (State.streamWords c b isB (fld x.ptr 56 4) ((va + sp.2 - 1) / 8 - va / 8 + 1) a s o).andThen fun d s1 o1 =>
      .ok (slice d (va - a) sp.2) s1 o1

/-- Codes and scale bytes of columns j0 to j0 + n − 1 of row i, from their bytes. -/
def Stream.codes (x : Stream) (i j0 n : Nat) (el sc : List Byte) : List (Nat × Nat) :=
  (List.range n).map fun d =>
    let j := j0 + d
    if isB4 x.fmt then
      let byte := sliceNat el (x.elemOff i j - x.elemOff i j0) 1
      (byte / 2 ^ (4 * ((x.col0 + j) % 2)) % 16, sliceNat sc (x.scaleOff i j - x.scaleOff i j0) 1)
    else (sliceNat el (d * (elemBits x.fmt / 8)) (elemBits x.fmt / 8), 0)

def State.streamRow (s : State) (c : Nat) (o : MatOp) (b : Nat) (isB : Bool) (x : Stream) (i j0 n : Nat) : Read (List (Nat × Nat)) :=
  (s.streamSpan c o b isB x (x.rowSpan i j0 n)).andThen fun el s1 o1 =>
    (s1.streamSpan c o1 b isB x (x.scaleSpan i j0 n)).andThen fun sc s2 o2 => .ok (x.codes i j0 n el sc) s2 o2

/-- Several rows of B, one list each. -/
def State.streamRows (c b : Nat) (x : Stream) (n : Nat) : List Nat → State → MatOp → Read (List (List (Nat × Nat)))
  | [], s, o => .ok [] s o
  | i :: r, s, o =>
    (s.streamRow c o b true x i 0 n).andThen fun l s1 o1 =>
      (State.streamRows c b x n r s1 o1).andThen fun ls s2 o2 => .ok (l :: ls) s2 o2

/-! ## One k-block of one row (R54 to R59, R217) -/

/-- Steps of block b: the first and their number. -/
def blockSpan (k b : Nat) : Nat × Nat := (32 * b, Nat.min 32 (k - 32 * b))

/-- The elements of A of row m in a block: codes and scale bytes. -/
def State.blockA (s : State) (c : Nat) (o : MatOp) (m b : Nat) : Read (List (Nat × Nat)) :=
  let v := o.view
  let (k0, n) := blockSpan v.k b
  match o.tileA with
  | some t => .ok ((List.range n).map fun d =>
      (t.code (v.arow + m) (v.acol + k0 + d), t.scale (v.arow + m) (v.acol + k0 + d))) s o
  | none => s.streamRow c o b false (v.streamA o.fmtA o.wrank) m k0 n

/-- The rows of B that a block uses: from the tile, or from the stream. -/
def State.blockB (s : State) (c : Nat) (o : MatOp) (b : Nat) : Read (List (List (Nat × Nat))) :=
  let v := o.view
  let (k0, n) := blockSpan v.k b
  match o.tileB with
  | some t => .ok ((List.range n).map (fun d => (List.range v.n).map fun j =>
      (t.code (v.brow + k0 + d) (v.bcol + j), t.scale (v.brow + k0 + d) (v.bcol + j)))) s o
  | none => State.streamRows c b (v.streamB o.fmtB o.wrank) v.n ((List.range n).map fun d => k0 + d) s o

/-- A step of a block for one column. -/
def kStep (fa fb : ElemFmt) (a b : Nat × Nat) : KStep :=
  { terms := (termsOf fa a.1 a.2).getD [], a := elemVal fa a.1 a.2, b := elemVal fb b.1 b.2 }

/-- The fold of a block into the accumulator of column j. -/
def foldOne (o : MatOp) (as : List (Nat × Nat)) (bs : List (List (Nat × Nat))) (j : Nat) (acc : Word) : Word :=
  let steps := mapIdxFrom (fun d a => kStep o.fmtA o.fmtB a ((bs.getD d []).getD j (0, 0))) 0 as
  if fwAcc o.fw = 1 then foldInt acc (blockInt steps) else foldFloat acc (blockFloat steps)

/-- Cycles of each step of a block (R217). -/
def stepCosts (o : MatOp) (m b : Nat) (as : List (Nat × Nat)) : List Nat :=
  let v := o.view
  let (k0, n) := blockSpan v.k b
  mapIdxFrom (fun d a =>
    let terms := match termsOf o.fmtA a.1 a.2 with
      | some l => l.length
      | none => 1
    let spill := match o.tileA with
      | some t => (k0 + d) % 8 == 0 && t.spilled o.fmtA (v.arow + m) ((v.acol + k0 + d) / 8)
      | none => false
    terms + b2n spill + (if d + 1 = n then 2 else 0)) 0 as

/-- An A block that breaks the power-of-two promise (R215, R225). -/
def breaksPromise (o : MatOp) (as : List (Nat × Nat)) : Bool :=
  o.view.pw && as.any fun a => a.2 / 64 % 4 != 2 && a.2 % 64 != 63

/-! ## The life of an operation -/

/-- The operation that the term array runs, or will run next: the first that is not stopped (R216). -/
def Core.headOp (k : Core) : Option MatOp :=
  k.ops.find? fun o => !o.cancelled && decide (o.state ≠ .stopped ∧ o.state ≠ .faulted)
def State.updOp (s : State) (c id : Nat) (f : MatOp → MatOp) : State :=
  s.updCore c fun k => { k with ops := k.ops.map fun o => if o.id = id then f o else o }

/-- Blocks every row still has to reach before the operation is complete or stopped. -/
def MatOp.limit (o : MatOp) : Nat := o.target.getD o.nblocks
def MatOp.reached (o : MatOp) : Bool := o.rows.all fun r => decide (o.limit ≤ r.done)

/-- A queued operation that needs no lease, or has it, begins to run. -/
def MatOp.begin (now : Nat) (o : MatOp) : MatOp :=
  if decide (o.state = .queued ∨ o.state = .leaseWait) && (o.demand == 0 || o.holds != 0) then
    { o with state := .running, began := now, base := o.p, since := now }
  else o

/-- A stream fault in block b: the target falls to b, if it was not below already, and the team halts (R221, R222). -/
def State.streamFault (s : State) (c : Nat) (o : MatOp) (b cause addr : Nat) : State :=
  let s1 := s.updOp c o.id fun o =>
    { o with state := .stopping, target := some (Nat.min b (o.target.getD (o.stopTarget s.cycle))), fault := some (cause, addr)
             cancelOnly := o.cancelOnly || cause == 0x49 }
  let from' := match s.thread? { core := c, team := o.team, group := o.group, lane := o.lane } with
    | some th => match th.tags.getD o.tag none with | some t => t.pc.toNat | none => 0
    | none => 0
  s1.raiseTrap { core := c, team := o.team, group := o.group, lane := o.lane }
    { cause := cause, addr := addr, extra := if cause = 0xA1 then from' else 0 } (some (o.id, o.tag))

/-- A row has its next k-block: the elements of A and of B are there, and the step costs are known from then on. -/
def MatOp.gotBlock (o : MatOp) (row b : Nat) (as : List (Nat × Nat)) (bs : List (List (Nat × Nat))) : MatOp :=
  { o with rows := updAt o.rows row fun r => { r with next := some (as, bs), costs := r.costs ++ stepCosts o row b as } }

/-- The array reads a row's next k-block: the rows of B that it uses, and its elements of A. A streamed A that breaks the promise
pw = 1 stops the operation at the start of the block, MMT.C's too (R225, log 77). -/
def State.readBlockOf (s : State) (c row : Nat) (o : MatOp) (r : OpRow) : State :=
  let b := r.done
  match (s.blockB c o b).andThen fun bs s1 o1 => (s1.blockA c o1 row b).andThen fun as s2 o2 => .ok (as, bs) s2 o2 with
  | .wait p => (s.updOp c o.id fun _ => o).addMisses c o.ctx p
  | .fault k a => (s.updOp c o.id fun _ => o).streamFault c o b k a
  | .ok (as, bs) s2 o2 =>
    if breaksPromise o as then (s.updOp c o.id fun _ => o).streamFault c o b 0x49 0
    else s2.updOp c o.id fun _ => o2.gotBlock row b as bs

/-- A row completes its next k-block with its folds. -/
def MatOp.foldedRow (o : MatOp) (row : Nat) (r : OpRow) (as : List (Nat × Nat)) (bs : List (List (Nat × Nat))) : MatOp :=
  let b := r.done
  let new := mapIdxFrom (fun j a => foldOne o as bs j a) 0 (r.history.headD [])
  let rows := updAt o.rows row fun r => { r with done := b + 1, next := none, history := new :: r.history }
  let low := (rows.map (·.done)).foldl Nat.min o.nblocks
  { o with rows := rows, words := o.words.filter fun x => decide (low ≤ x.1) }

/-- One row of the running operation: its next k-block is read, and is completed with its folds once the row has run through
its steps (R217, R218). -/
def State.foldRow (s : State) (c row : Nat) : State :=
  match (s.core c).headOp with
  | none => s
  | some o0 =>
    let o := o0.begin s.cycle
    match o.rows[row]? with
    | none => s
    | some r =>
      if decide (o.state ≠ .running ∧ o.state ≠ .stopping) then s
      else if decide (o.limit ≤ r.done) then s.updOp c o.id fun _ => o
      else
        match r.next with
        | none => s.readBlockOf c row o r
        | some (as, bs) => if o.due s.cycle row then s.updOp c o.id fun _ => o.foldedRow row r as bs else s

/-- The rows whose next block the array can read, or that have run through it; an operation that resumes with every block done
begins, too. -/
def MatOp.readyRows (o : MatOp) (now : Nat) : List Nat :=
  if decide (o.state = .stopped ∨ o.state = .faulted) then []
  else if decide (o.state = .queued ∨ o.state = .leaseWait) && o.reached then [0]
  else
    ((List.range (ceilDiv o.rows.length o.g)).map fun i =>
      let rows := (o.rows.drop (i * o.g)).take o.g
      let ends := (o.ends rows (now + 1) (o.k - 32 * o.base)).reverse
      (mapIdxFrom (fun j r =>
        if o.limit ≤ OpRow.done r then [] else if r.next.isNone || o.ranOut ends now j r then [i * o.g + j] else []) 0 rows).flatten).flatten

/-- A stopping operation whose rows have reached the target is stopped: work beyond it is discarded, and its lease part
returns (R221, R251). -/
def MatOp.halted (o : MatOp) : MatOp :=
  if decide (o.state = .stopping) && o.reached then
    let p := o.limit
    { o with
      state := if o.fault.isSome then .faulted else .stopped
      p := p, drawn := 0, granted := none, words := []
      rows := o.rows.map fun r =>
        { done := p, next := none, history := r.history.drop (r.done - p), costs := r.costs.take (32 * p) } }
  else o

/-- The accumulator register of row m in column n's thread takes its final value (R213, R214). -/
def Thread.accumulate (th : Thread) (cbase n : Nat) (rows : List OpRow) : Thread :=
  { th with
    regs := mapIdxFrom (fun i v =>
      if cbase ≤ i ∧ i < cbase + rows.length then
        ((rows.getD (i - cbase) { done := 0, next := none, history := [], costs := [] }).history.headD []).getD n 0
      else v) 0 th.regs
    lost := th.lost.filter fun r => match r with
      | .g i => decide (i < cbase) || decide (cbase + rows.length ≤ i)
      | _ => true }

/-- d of an operation (R216, R225). -/
def MatOp.status (o : MatOp) : Nat :=
  if o.cancelled then 0x80000000 + o.p
  else
    let v := o.view
    modelTime v.d v.g v.k (o.rows.map (·.costs))

/-- Addition of an amount to a counter at home with a push, saturating (R183, R194, R244). -/
def State.countGlobal (s : State) (l : Leaf) (pa amount clock : Nat) (agent : Option Nat) : Nat × State :=
  let v := Nat.min (s.read8 pa + amount) (2 ^ 64 - 1)
  let (t, s1) := (s.claim l agent).storeHome l pa (natBytes v 8) clock agent
  (t, s1.pushWord pa)

def Team.scratchRead (t : Team) (o n : Nat) : List Byte := amGetList 0 t.scratch o n
def Team.scratchWrite (t : Team) (o : Nat) (l : List Byte) : Team :=
  { t with scratch := amSetList 0 t.scratch o l
           lost := t.lost.filter fun i => decide (i < o) || decide (o + l.length ≤ i) }
/-- Some of n bytes of a team's scratchpad has been destroyed by an error (R322). -/
def Team.lostIn (t : Team) (o n : Nat) : Bool := t.lost.any fun i => decide (o ≤ i) && decide (i < o + n)
def Team.line (t : Team) (i : Nat) : Line := amGet Line.reset t.lines i
def Team.setLine (t : Team) (i : Nat) (x : Line) : Team := { t with lines := amSet Line.reset t.lines i x }

/-- A write event in a scratchpad: the time stamps of its lines (R263). -/
def Team.scratchEvent (t : Team) (o n clock : Nat) (write : Bool) : Nat × Team :=
  let ls := (List.range ((o + n - 1) / 128 + 1 - o / 128)).map (o / 128 + ·)
  let x := ls.foldl (fun k i => if write then Nat.max k ((t.line i).rts + 1) else Nat.max k (t.line i).wts) clock
  (x, ls.foldl (fun t i =>
    let y := t.line i
    t.setLine i (if write then { y with wts := x, rts := x } else { y with rts := Nat.max y.rts x })) t)

/-- Addition of an amount to a counter in a team's scratchpad with a push, saturating; the team may lie in an image.
A counter that an error has destroyed stays destroyed (R321). -/
def State.countScratch (s : State) (c ctx vtid off amount clock : Nat) : Nat × State :=
  match s.findTeam c ctx vtid with
  | none => (clock, s)
  | some t =>
    let v := Nat.min (bytesNat (t.scratchRead off 8) + amount) (2 ^ 64 - 1)
    let (x, t1) := t.scratchEvent off 8 clock true
    (x, s.updNamed c ctx vtid fun _ => (if t.lostIn off 8 then t1 else t1.scratchWrite off (natBytes v 8)).pushScratch off)

/-- The cluster counter's addition at a delivery (R244): the state in which it waits for a round, or in which the loss of the counter
has stopped the operation (R321), or the clock and state. -/
def State.addCluster (s : State) (c : Nat) (o : MatOp) : State ⊕ (Nat × State) :=
  let v := o.view
  if !v.cs then .inr (o.clock, s)
  else if v.csp then
    match s.peerOf o.grid o.cluster v.crank with
    | some (k, x) =>
      if x.lostIn (fld v.ccnt 0 24) 8 && !o.cancelled then .inl (s.streamFault c o o.nblocks 0xA1 (fld v.ccnt 0 60))
      else .inr (s.countScratch k x.ctx x.vtid (fld v.ccnt 0 24) 1 o.clock)
    | none => .inr (o.clock, s)
  else
    match o.ccnt with
    | none => .inr (o.clock, s)
    | some x =>
      let l := leafOf x
      let pa := l.phys (fld v.ccnt 0 56)
      if (s.lostIn pa 8).isSome && !o.cancelled then .inl (s.streamFault c o o.nblocks 0xA1 (fld v.ccnt 0 60))
      else
      match s.awaitRound l pa 8 (.array c) with
      | some w => .inl w
      | none =>
        let (t, s1) := s.countGlobal l pa 1 o.clock (some c)
        .inr (t, s1.endRounds (.array c) pa 8)

/-- Delivery (R214, R216): accumulators, the elected thread's tag, then the cluster counter; the operation is gone. -/
def State.deliverOp (s : State) (c : Nat) (o : MatOp) : State :=
  match s.addCluster c o with
  | .inl w => w
  | .inr (t, s1) =>
    let s2 := s1.updNamed c o.ctx o.vtid fun tm => tm.mapThreads fun g l th =>
      let th1 :=
        if g = o.glo ∧ l < Nat.min o.n 64 then th.accumulate o.cbase l o.rows
        else if g = o.ghi ∧ 64 < o.n ∧ l + 64 < o.n then th.accumulate o.cbase (l + 64) o.rows
        else th
      if g = o.group ∧ l = o.lane then
        { th1 with
          clock := Nat.max th1.clock t
          tags := updAt th1.tags o.tag fun x => x.map fun y =>
            { y with delivered := true, held := y.dests.filterMap fun d =>
                match d with
                | .g n => some (.g n (BitVec.ofNat 32 o.status))
                | _ => none } }
      else th1
    s2.updCore c fun k => ({ k with ops := k.ops.filter fun x => x.id != o.id } : Core).outlive t

/-- A team's stopped operations may run: it is not halted, its bank is active, and no pre-emption or relocation of its core goes on
(R174, R176, R347). -/
def State.opsRun (s : State) (c : Nat) (t : Team) : Bool :=
  t.halt.isNone && s.runs c t && ((s.core c).twoCtx || (s.core c).switching.isNone) &&
    !(s.relocs.any fun r => r.core == c && decide (r.step < 5))
/-- An operation that has stopped although its team runs rejoins the queue, behind those already there (R174, R221). -/
def Core.requeue (k : Core) (i : Nat) : Core :=
  match k.ops[i]? with
  | some o => { k with ops := k.ops.eraseIdx i ++ [{ o with state := .queued, target := none }] }
  | none => k

/-- An operation stands at its stop target; the halt that a stream fault of it raised takes its progress counter (R222). One whose team
runs again by then rejoins the queue at once. -/
def State.stopOp (s : State) (c i : Nat) : State :=
  match (s.core c).ops[i]? with
  | none => s
  | some o =>
    let s1 := s.updCore c fun k => { k with ops := updAt k.ops i MatOp.halted }
    if o.halted.state = .faulted then
      let note (h : Halt) : Halt := if h.mx = some (o.id, o.tag) then { h with mxp := o.halted.p } else h
      s1.updNamed c o.ctx o.vtid fun t => { t with halt := t.halt.map note }
    else if o.state = .stopping ∧ o.halted.state = .stopped ∧ o.cancelOnly = false ∧ o.cancelled = false ∧
        s.works = true ∧ ((s.core c).teams.find? o.of).any (s.opsRun c) = true then
      s1.updCore c fun k => k.requeue i
    else s1

/-- A stopped operation of a halted team is cancelled (R225, R303). -/
def MatOp.cancel (o : MatOp) : MatOp :=
  if o.state = .stopped ∨ o.state = .faulted then { o with cancelled := true } else o
/-- Those of an image are delivered by the core like its own. -/
def State.cancelOps (s : State) (c : Nat) (p : MatOp → Bool) : State :=
  let hit (o : MatOp) : Bool := p o && o.cancel.cancelled
  let out := ((s.images.filter fun x => x.core == c).map fun x => x.ops.filter hit).flatten
  { s.updCore c fun k => { k with ops := (k.ops.map fun o => if p o then o.cancel else o) ++ out.map MatOp.cancel } with
    images := s.images.map fun x => if x.core = c then { x with ops := x.ops.filter fun o => !hit o } else x }

def State.matrixCancel (s : State) (c ctx vtid g l tag : Nat) : State :=
  match s.findTeam c ctx vtid with
  | none => s
  | some t =>
    if t.halt.isNone then s
    else s.cancelOps c fun o => o.of t && o.group == g && o.lane == l && o.tag == tag

end Sys2Proof.Machine
end

