-- ==== Sys2Proof/Machine/Teams.lean ====
section
/-! DEFINITION. Teams as residents of a core: slots, granules, tiles (R154, R161, R201, R338, R339), the departure of a
team (R155), halt blocks and trap records (R308 to R310), the stop of a team by software (R320). -/

namespace Sys2Proof.Machine

/-! ## Resources of a bank -/

/-- Granules of a carve-out (R161). -/
def granulesFor (nregs threads bytes l1 : Nat) : Nat := ceilDiv (nregs * 4 * threads) 16384 + ceilDiv bytes 16384 + l1
def Team.threads (t : Team) : Nat := sumList (t.groups.map fun g => g.threads.length)
/-- The granules that a team holds; a grant that waits for copies (R163) holds those of both sizes' greater. -/
def Team.granules (t : Team) : Nat :=
  let now := granulesFor t.nregs t.threads t.bytes t.l1
  match t.carve with
  | some r => if r.granting then Nat.max now (granulesFor r.n t.threads r.bytes r.l1) else now
  | none => now
def Core.capacity (k : Core) : Nat := Config.granules k.twoCtx
def Core.bankTeams (k : Core) (b : Nat) : List Team := k.teams.filter fun t => t.bank == b
/-- The free pool of a bank. -/
def Core.freePool (k : Core) (b : Nat) : Nat := k.capacity - sumList ((k.bankTeams b).map Team.granules)

/-- The free slot numbers of a bank, lowest first (R154). -/
def Core.freeSlots (k : Core) (b : Nat) : List Nat :=
  let all := if k.twoCtx then (List.range 16).map (16 * b + ·) else List.range 32
  let used := (k.teams.map fun t => t.groups.map fun g => g.slot).flatten
  all.filter fun x => !used.contains x
/-- The free tiles of a core, lowest first (R339). -/
def Core.freeTiles (k : Core) : List Nat :=
  let used := (k.teams.map fun t => t.tiles).flatten ++ k.tilesKept
  (List.range Config.nTiles).filter fun x => !used.contains x

def Core.bank (k : Core) (b : Nat) : Bank := k.banks.getD b Bank.reset
def Core.updBank (k : Core) (b : Nat) (f : Bank → Bank) : Core := { k with banks := updAt k.banks b f }

/-- A team fits a bank (R338). -/
def Core.fits (k : Core) (b ctx ngrp gran ntile : Nat) : Bool :=
  (k.bankTeams b).all (fun t => t.ctx == ctx) && decide (ngrp ≤ (k.freeSlots b).length) &&
    decide (gran ≤ k.freePool b) && decide (ntile ≤ k.freeTiles.length) && (k.bank b).grow.isEmpty

/-- The bank that takes a team on a core: the active one when it fits, else the inactive one of a two-context core. -/
def Core.bankFor (k : Core) (ctx ngrp gran ntile : Nat) : Option Nat :=
  if k.fits k.active ctx ngrp gran ntile then some k.active
  else if k.twoCtx && k.fits (1 - k.active) ctx ngrp gran ntile then some (1 - k.active)
  else none

/-- The next virtual team identifier of a context: the count, past those that resident teams hold (R339). -/
def State.nextVtid (s : State) (desc : Nat) : Nat :=
  let ctx := (s.ctxAt desc).id
  let held := (s.cores.map fun k => k.teams).flatten ++ (s.images.map fun i => i.teams).flatten
  let used := (held.filter fun t => t.ctx == ctx).map fun t => t.vtid
  let start := (s.ctxAt desc).vtids
  (((List.range (used.length + 1)).map fun i => (start + i) % 2 ^ 24).find? fun v => !used.contains v).getD start

/-- A team joins a core: its groups join the rotation at the next round (R156, R339). -/
def State.joinTeam (s : State) (c : Nat) (t : Team) : State :=
  s.updCore c fun k =>
    { k.updBank t.bank fun b => { b with joining := b.joining ++ [t.id] } with teams := k.teams ++ [t] }

/-- The team with its slots numbered, its tiles named and its identity set. -/
def Team.seat (t : Team) (slots tiles : List Nat) : Team :=
  { t with
    id := slots.headD 0, tiles := tiles
    groups := mapIdxFrom (fun i g => { g with slot := slots.getD i 0 }) 0 t.groups }

/-! ## Departure (R155) -/

/-- The operation was kicked by a thread of a team. -/
def CopyOp.of (o : CopyOp) (t : Team) : Bool := t.isNamed o.ctx o.vtid
/-- Copies that reach a team's scratchpad: those of its own threads whose source, destination or counters lie there, and
those of peers (R197, R239). -/
def State.copiesInto (s : State) (c : Nat) (t : Team) : Bool :=
  (s.cores.any fun k => k.engines.any fun e => e.queue.any fun o => o.peer == some (c, t.vtid) && o.ctx == t.ctx) ||
    (s.core c).engines.any fun e => e.queue.any fun o => o.of t &&
      (fld (sliceNat o.record 1 1) 1 2 != 0 || fld (sliceNat o.record 5 1) 0 2 != 0)
def State.copiesBy (s : State) (c : Nat) (t : Team) : Bool :=
  (s.core c).engines.any fun e => e.queue.any fun o => o.of t

/-- Its grid has one team less, whose events its completion follows. -/
def Grid.less (t : Team) (g : Grid) : Grid :=
  if g.id = t.grid then { g with left := g.left - 1, clock := Nat.max g.clock t.maxClock } else g
/-- The barrier entries of a team are free. -/
def Core.freeBarsOf (k : Core) (t : Team) : Core :=
  { k with bars := k.bars.map fun e => if e.valid && t.isNamed e.ctx e.vtid then BarEntry.reset else e }

/-- A team leaves its core: its slots, carve-out, tiles and barrier entries return to their pools, its explicit leases and
lease requests end, and its grid has one team less. Its rotation positions stay, empty, until the next round. -/
def State.removeTeam (s : State) (c id : Nat) : State :=
  match s.team? c id with
  | none => s
  | some t =>
    let s1 := s.updCore c fun k => { k.outlive t.maxClock with
      teams := k.teams.filter fun x => x.id != id
      banks := k.banks.map fun b =>
        { b with rotation := b.rotation.map fun x => if x.1 = id then (id + 32, x.2) else x, joining := b.joining.filter fun x => x != id
                 grow := b.grow.filter fun x => x != id }
      bars := (k.freeBarsOf t).bars }
    let s2 := s1.dropLeaseReqs fun r => match r.who with
      | .op _ _ => false
      | .explicit x => x.core == c && x.team == id
    { s2 with grids := s2.grids.map (Grid.less t) }

/-- A team in an image leaves its core. -/
def State.removeSpilled (s : State) (c : Nat) (t : Team) : State :=
  { s.updCore c fun k => { (k.freeBarsOf t).outlive t.maxClock with tilesKept := k.tilesKept.filter fun x => !t.tiles.contains x } with
    images := (s.images.map fun x =>
      if x.core = c then { x with teams := x.teams.filter fun y => !y.isNamed t.ctx t.vtid } else x).filter fun x => !x.teams.isEmpty
    grids := s.grids.map (Grid.less t) }
/-- The teams of a core's images, in order. -/
def State.spilledTeams (s : State) (c : Nat) : List Team := ((s.images.filter fun x => x.core == c).map fun x => x.teams).flatten

/-! ## Halt blocks (R309) -/

/-- The entry of one thread; ex = 1 shows the address of its EXIT, at which its PC stands. -/
def haltWord (h : Halt) (g l : Nat) (th : Thread) : Nat :=
  b2n (h.who == some (g, l)) * 2 ^ 60 + b2n th.exited * 2 ^ 59 + h.skids.getD g 0 % 8 * 2 ^ 56 + th.pc.toNat

/-- The 16 KiB of a halt block. -/
def haltBlock (t : Team) (h : Halt) : List Byte :=
  ((List.range 32).map fun g => ((List.range 64).map fun l =>
    match t.thread? g l with
    | some th => natBytes (haltWord h g l th) 8
    | none => List.replicate 8 0).flatten).flatten

/-- The lowest free halt entry of a context. -/
def Ctx.freeEntry (x : Ctx) : Option Nat :=
  (List.range (x.halts.length + 1)).find? fun i => decide (i < x.hcount) && !x.halts.any fun h => h.idx == i

/-! ## Trap records (R308) -/

/-- Fields of a record that differ between kinds. -/
structure Record where
  cause : Nat
  kind : Nat
  sup : Bool
  ctx : Nat
  core : Nat
  group : Nat
  lane : Nat
  slot : Nat
  pc : Nat
  addr : Nat
  team : Nat
  hidx : Nat
  skid : Nat
  mx : Option (Nat × Nat)
  recoff : Nat
  extra : Nat
  deriving DecidableEq, Repr

/-- The 64 bytes of a record with a sequence number of 0. -/
def Record.bytes (r : Record) : List Byte :=
  natBytes r.cause 1 ++ natBytes (r.kind * 64 + b2n r.sup * 32) 1 ++ natBytes r.ctx 2 ++ natBytes r.core 1 ++
  natBytes r.group 1 ++ natBytes r.lane 1 ++ natBytes r.slot 1 ++ natBytes r.pc 8 ++ natBytes r.addr 8 ++
  natBytes r.team 4 ++ natBytes r.hidx 4 ++ natBytes r.skid 12 ++ natBytes 0 4 ++
  (match r.mx with
   | some (p, tag) => [0x80, BitVec.ofNat 8 p, BitVec.ofNat 8 tag, 0]
   | none => [0, 0, 0, 0]) ++ natBytes r.recoff 4 ++ natBytes r.extra 8

/-- The thread that a team's record names: the faulting one, or for a team stop the lowest live lane of the lowest group
(R320). -/
def namedThread (t : Team) (h : Halt) : Nat × Nat :=
  match h.who with
  | some w => w
  | none => (t.lanes.find? fun x => match t.thread? x.1 x.2 with
      | some th => !th.exited
      | none => false).getD (0, 0)

/-- The skid field: 3 bits for each of 32 groups, 7 beyond the team's (R308). -/
def skidField (t : Team) (h : Halt) : Nat :=
  sumList ((List.range 32).map fun g => (if g < t.groups.length then h.skids.getD g 0 % 8 else 7) * 8 ^ g)

def teamRecord (c : Nat) (t : Team) (h : Halt) (mx : Option (Nat × Nat)) (hidx : Nat) : Record :=
  let w := namedThread t h
  let pc := match h.who with
    | some _ => h.pc.toNat
    | none => match t.thread? w.1 w.2 with | some th => th.pc.toNat | none => 0
  { cause := h.cause, kind := 0, sup := t.sup, ctx := t.ctx, core := c, group := w.1, lane := w.2
    slot := (match t.groups[w.1]? with | some g => g.slot | none => 0), pc := pc, addr := h.addr, team := t.index
    hidx := hidx, skid := skidField t h, mx := mx, recoff := 0, extra := h.extra }

/-! ## A stop by software (R320) -/

/-- The halt of a team without a faulting thread: cause 0xA5, or 0xA0 and 0xA4 where those rules say so. -/
def State.stopTeam (s : State) (c id cause : Nat) (atOnce : Bool) : State :=
  match s.team? c id with
  | none => s
  | some t =>
    match t.halt with
    | some _ => s
    | none =>
      let active := s.runs c t && !atOnce
      s.haltTeam c id
        { cause := cause, addr := 0, extra := 0, cf := s.cycle, who := none, pc := 0, skids := skidList t
          stops := stopList t active, mx := none, entry := none, recorded := false }
        (if active then [] else List.range t.groups.length)

/-- The halt of a team in an image, which has no faulting thread (R320). -/
def State.stopSpilled (s : State) (c : Nat) (t : Team) (cause : Nat) : State :=
  if t.halt.isSome then s
  else s.haltSpilled c t
    { cause := cause, addr := 0, extra := 0, cf := s.cycle, who := none, pc := 0, skids := skidList t
      stops := stopList t false, mx := none, entry := none, recorded := false }

/-- A write of the team stop word (R320). -/
def State.teamStop (s : State) (c ctx vtid : Nat) : State :=
  match s.findTeam c ctx vtid with
  | some t => if s.spilled c ctx vtid then s.stopSpilled c t 0xA5 else s.stopTeam c t.id 0xA5 false
  | none => s

end Sys2Proof.Machine
end

