-- ==== Sys2Proof/Machine/Restore.lean ====
section
/-! DEFINITION. The commands of the restart report (R368 to R370): data restore, team restore, release of the vault. -/

namespace Sys2Proof.Machine

/-- A command counts when it is completed or refused (R369). -/
def Report.count1 (r : Report) (refused : Bool) : Report := { r with count := r.count + 1, refused := refused }
def State.countCommand (s : State) (refused : Bool) : State :=
  { s with reserve := { s.reserve with report := s.reserve.report.map fun r => r.count1 refused } }

/-- Bytes of a record (R352), and the offset of chunk j. -/
def recordBytes (x : Nat) : Nat := 128 + ceilDiv x 4096 * 4160
def entryTs (e : ReportEntry) : Bool := bitOf (sliceNat e.manifest 3 1) 0
def entryLen (e : ReportEntry) : Nat := e.x

/-- The bytes of a record's chunks from the vault. -/
def Reserve.chunkData (v : Reserve) (off n : Nat) : List Byte :=
  ((List.range n).map fun j => amGetList 0 v.vault (off + 64 + 4160 * j) 4096).flatten

/-- Bytes written untranslated with granule tags 0 (R369). -/
def State.rawWrite (s : State) (pa : Nat) (d : List Byte) : State :=
  let s1 := s.physPutAll pa d 0
  { s1 with gtags := (granulesOf pa (memPart pa d.length)).foldl (fun m g => amSet 0 m g 0) s1.gtags }

def State.dataRestore (s : State) (k pa : Nat) : State :=
  match s.reportEntry k with
  | none => if s.reserve.report.isSome then s.countCommand true else s
  | some e =>
    if e.cls = 2 ∨ entryTs e then s.countCommand true
    else
      let n := if e.cls = 0 then entryLen e else Nat.min (entryLen e) (4096 * e.chunks)
      let d := (s.reserve.chunkData e.offset (ceilDiv n 4096)).take n
      ((if n = 0 then s else s.rawWrite pa d)).countCommand false

/-- The first site, in placement order, of a pool whose core fits a team of a context (R338); the order is the die, then
the row, then the column. -/
def siteOrder (a b : Site) : Bool :=
  decide (a.v / 256 < b.v / 256) || (a.v / 256 == b.v / 256 &&
    (decide (a.v % 16 < b.v % 16) || (a.v % 16 == b.v % 16 && decide (a.v / 16 % 16 < b.v / 16 % 16))))
def Site.usable (x : Site) (pool : Nat) : Bool := !x.failed && !x.hot && !x.relocating && x.pool == pool && x.core.isSome

/-- Two lists name the same set of cores. -/
def sameSet (a b : List Nat) : Bool := a.all b.contains && b.all a.contains
/-- A core may hold another cluster's team: on a core in two-context mode, the clusters of its teams and the new one are required to
occupy the same set of cores (R238, R338). -/
def State.clusterFree (s : State) (c : Nat) (cores : List Nat) : Bool :=
  !(s.core c).twoCtx || (s.teamsOf c).all fun t => match s.clusterOf t.grid t.cluster with
    | some x => sameSet x.cores cores
    | none => sameSet [c] cores

/-- The core and the bank that take a restored team: they fit it, and its groups keep their slots, which are theirs for life (R11, R338,
R369; log 76). -/
def State.seatFor (s : State) (t : Team) (pool ctx : Nat) : Option (Nat × Nat) :=
  (sortBy siteOrder s.sites).findSome? fun x =>
    match x.core with
    | some c =>
      if x.usable pool && s.clusterFree c [c] then
        [(s.core c).active, 1 - (s.core c).active].findSome? fun b =>
          if (b = (s.core c).active ∨ (s.core c).twoCtx = true) ∧ (s.core c).fits b ctx t.groups.length t.granules t.tiles.length = true ∧
              t.groups.all (fun g => ((s.core c).freeSlots b).contains g.slot) = true then some (c, b) else none
      else none
    | none => none

/-- A restored team's threads (R369); its matrix operations have the numbers that ren gives them. -/
def Thread.restored (clock cycle : Nat) (ren : Nat → Nat) (th : Thread) : Thread :=
  { th with
    clock := clock, lastIssue := cycle, fabWrites := [], fabDone := [], awaits := [], fabBad := none
    tags := th.tags.map fun t => t.map fun x => { x with op := x.op.map ren } }
def Group.restored (clock cycle : Nat) (ren : Nat → Nat) (g : Group) : Group :=
  { g with lease := none, waitLine := none, threads := g.threads.map (Thread.restored clock cycle ren) }

/-- A cluster has a team on a core, or in an image of it. -/
def State.clusterLives (s : State) (e : Carried) : Bool :=
  e.ranks.any fun c => (s.teamsOf c).any fun t => t.grid == e.grid && t.cluster == e.index
/-- Power controllers carry the clusters that have a team left, and those that carry none are gone. -/
def State.pruneClusters (s : State) : State :=
  { s with clusters := (s.clusters.map fun x => { x with carries := x.carries.filter s.clusterLives }).filter fun x => !x.carries.isEmpty }

/-- A cluster is carried by the power controller of its set of cores, which is made when the set has none (R238). -/
def State.openCluster (s : State) (grid cl : Nat) (cores : List Nat) (pool : Nat) : State :=
  let e : Carried := { grid := grid, index := cl, ranks := cores }
  if s.clusters.any fun x => sameSet x.cores cores then
    { s with clusters := s.clusters.map fun x => if sameSet x.cores cores then { x with carries := x.carries ++ [e] } else x }
  else { s with
    nextCluster := s.nextCluster + 1
    clusters := s.clusters ++ [{ id := s.nextCluster, cores := cores, carries := [e], pool := pool, reading := 0, sum := 0, readings := 0
                                 q := 1, changed := s.cycle, below := none, heat := false, queue := [] }] }

def Line.clear (l : Line) : Line := { l with pending := 0, held := false }

/-- The free barrier entries of a core. -/
def Core.freeBars (k : Core) : List Nat := idxWhere (fun e => !BarEntry.valid e) 0 k.bars

/-- The restore of a team (R369). -/
def State.teamRestore (s0 : State) (k cls desc : Nat) : State :=
  let s := s0.pruneClusters
  let saved : Option SavedTeam := match s.reportEntry k with
    | some e =>
      if e.cls = 0 ∧ entryTs e ∧ (s.ctxAt desc).valid then s.reserve.saved.find? fun x => x.offset == e.offset else none
    | none => none
  match saved, (s.ctxAt desc).freeEntry with
  | some sv, some hidx =>
    let ctx := (s.ctxAt desc).id
    match s.seatFor sv.team cls ctx with
    | none => s.countCommand true
    | some (c, b) =>
      let core := s.core c
      if core.freeBars.length < sv.bars.length then s.countCommand true
      else
        let slots := sv.team.groups.map fun g => g.slot
        let tiles := core.freeTiles.take sv.team.tiles.length
        let vtid := s.nextVtid desc
        let clock := s.maxClock
        let h : Halt := { cause := 0xA0, addr := 0, extra := 0, cf := s.cycle, who := none, pc := 0
                          skids := sv.team.groups.map fun _ => 0, stops := sv.team.groups.map fun _ => true
                          mx := none, entry := some hidx, recorded := true }
        let ren (n : Nat) : Nat := match sv.ops.findIdx? fun o => o.id == n with | some i => s.nextOp + i | none => n
        let t0 : Team :=
          { sv.team with
            bank := b, desc := desc, ctx := ctx, vtid := vtid, grid := s.nextGrid, cluster := 0, cx := 0, cy := 0
            relocs := sv.team.relocs + 1
            lines := (sv.team.lines.map fun x => (x.1, x.2.clear)).filter fun x => decide (x.2 ≠ Line.reset)
            groups := sv.team.groups.map (Group.restored clock s.cycle ren), halt := some h, carve := none, stale := false }
        let t := t0.seat slots tiles
        let s1 := (({ s with nextGrid := s.nextGrid + 1 } : State).joinTeam c t).openCluster s.nextGrid 0 [c] cls
        let s2 := s1.updCtx desc fun x => { x with
          vtids := (vtid + 1) % 2 ^ 24
          halts := x.halts ++ [{ idx := hidx, core := c, vtid := vtid, cause := 0xA0, pc := 0, who := none }] }
        let s3 := s2.updCore c fun k => { k with
          tiles := mapIdxFrom (fun i x => match tiles.findIdx? fun y => y == i with
            | some j => sv.tiles.getD j Tile.reset
            | none => x) 0 k.tiles
          bars := mapIdxFrom (fun i x => match (core.freeBars.take sv.bars.length).findIdx? fun y => y == i with
            | some j => { sv.bars.getD j BarEntry.reset with ctx := ctx, vtid := vtid }
            | none => x) 0 k.bars
          ops := k.ops ++ mapIdxFrom (fun i o =>
            { o with id := s.nextOp + i, team := t.id, vtid := vtid, desc := desc, ctx := ctx, clock := clock, drawn := 0
                     granted := none, grid := s.nextGrid, cluster := 0 }) 0 sv.ops }
        let base := (s.ctxAt desc).hbase + hidx * 16384
        let s4 := ({ s3 with nextOp := s3.nextOp + sv.ops.length } : State).physPutAll base (haltBlock t h) clock
        let s5 := s4.countCommand false
        { s5 with reserve := { s5.reserve with report := s5.reserve.report.map fun r => { r with haltIdx := hidx } } }
  | _, _ => if s.reserve.report.isSome then s.countCommand true else s

/-- The release of the vault (R370). -/
def State.vaultRelease (s : State) : State := { s with reserve := { s.reserve with released := true } }
/-- The reserve is armed (R370). -/
def Reserve.armed (v : Reserve) : Bool := v.charged && v.released

end Sys2Proof.Machine
end

