-- ==== Sys2Proof/Machine/CtlRegion.lean ====
section
/-! DEFINITION. The package control region (R303): what its registers read, and what a write of each does (R168, R172,
R302, R320, R323, R327, R329, R330, R340, R341, R344, R353, R368, R373, R380, R382, R383, R385, R388). -/

namespace Sys2Proof.Machine

/-! ## Reads of memory by the grid scheduler (R330, R334) -/

/-- One 8-byte read event through a tagged pointer, translated by a context's tables: the value, or a cause. -/
def State.schedRead (s : State) (desc ptr clock : Nat) (sup : Bool) : Except Nat (Nat × Nat × State) :=
  let va := fld ptr 0 56
  if !(s.ctxAt desc).valid then .error 0x25
  else if fld ptr 60 4 ≠ 0 then .error 0x20
  else if va % 8 ≠ 0 then .error 0x24
  else
    match s.checkNow (s.ctxAt desc).id sup va false with
    | .trap c => .error c
    | .miss _ => .error 0x25
    | .ok l =>
      let pa := l.phys va
      if s.gtag pa ≠ BitVec.ofNat 4 (fld ptr 56 4) then .error 0x28
      else if (s.lostIn pa 8).isSome then .error 0xA1
      else
        let s1 := s.claim l none
        let (t, s2) := s1.readEvent l pa clock
        .ok (s2.word8 pa, Nat.max clock t, s2)

/-- Home holds a read of the scheduler through a pointer (R261, R262). -/
def State.schedHeld (s : State) (desc ptr n : Nat) : Bool :=
  match s.walk (s.ctxAt desc).id (fld ptr 0 56) with
  | .leaf x => s.readHeld none ((leafOf x).phys (fld ptr 0 56)) n
  | _ => false

/-- The clock of the scheduler's accesses, which are made by that of die 0, the region's home (R263, R325, log 79). -/
def State.schedClock (s : State) : Nat := s.schedClocks.headD 0
def State.setSchedClock (s : State) (k : Nat) : State := { s with schedClocks := updAt s.schedClocks 0 (Nat.max k) }

/-! ## Barrier entries (R168) -/

def State.updBar (s : State) (c e : Nat) (f : BarEntry → BarEntry) : State :=
  s.updCore c fun k => { k with bars := updAt k.bars e f }
def State.barAt (s : State) (c e : Nat) : BarEntry := (s.core c).bars.getD e BarEntry.reset

def State.barFree (s : State) (c e : Nat) : State :=
  let x := s.barAt c e
  if x.valid && !s.hasWaiters c x then s.updBar c e fun y => { y with valid := false, counted := false, keyed := false } else s
def State.barFill (s : State) (c e : Nat) : State :=
  let x := s.barAt c e
  if !x.valid && x.counted && x.keyed then s.updBar c e fun y => { y with valid := true } else s
def State.barCount (s : State) (c e : Nat) (v : DWord) : State :=
  if (s.barAt c e).valid then s else s.updBar c e fun y => { y with count := v.toNat, counted := true }
def State.barKey (s : State) (c e : Nat) (v : DWord) : State :=
  if (s.barAt c e).valid then s
  else s.updBar c e fun y =>
    { y with ctx := fld v.toNat 40 12, number := fld v.toNat 36 4, vtid := fld v.toNat 12 24, keyed := true }
/-! ## The core control window (R303) -/

def State.spillMask (s : State) (c j : Nat) (v : DWord) : State := s.updTeam c j fun t => { t with spill := v.truncate 16 }

/-- The mode is written only while no team is resident (R172); a team in an image has not left its core (R155), and counts
(DEDUCED, log 78). -/
def State.coreMode (s : State) (c : Nat) (v : DWord) : State :=
  if (s.core c).teams.isEmpty && !(s.images.any fun i => i.core == c) then
    s.updCore c fun k =>
      { k with
        twoCtx := bitOf v.toNat 0, active := 0, banks := [Bank.reset, Bank.reset], switch := none, switching := none }
  else s

def State.updEngine (s : State) (c ec : Nat) (f : Engine → Engine) : State :=
  s.updCore c fun k => { k with engines := updAt k.engines ec f }
def State.engineAt (s : State) (c ec : Nat) : Engine := (s.core c).engines.getD ec Engine.reset

/-- Causes after which an operation can only be cancelled (R198, R321). -/
def cancelOnlyCause (n : Nat) : Bool := n == 0x82 || n == 0x84 || n == 0x85 || n == 0xA1

/-- Command 1: a stopped context continues from its boundary (R197, R303). -/
def State.engineRestart (s : State) (c ec : Nat) : State :=
  match (s.engineAt c ec).stopped with
  | some n => if cancelOnlyCause n then s else s.updEngine c ec fun e => { e with stopped := none, retireStop := false }
  | none => s

/-- The rounds of an engine context are given up. -/
def State.dropEngineRounds (s : State) (c ec : Nat) : State :=
  { s with rounds := s.rounds.filter fun r => decide (r.writer ≠ .engine c ec) }

/-- Command 2: the stopped operation, the first of the queue, moves no further byte and will retire (R197). -/
def State.engineCancel (s : State) (c ec : Nat) : State :=
  match (s.engineAt c ec).stopped with
  | some _ => (s.dropEngineRounds c ec).updEngine c ec fun e => { e with
      stopped := none, retireStop := false, cancels := e.cancels + 1
      queue := updAt e.queue 0 fun o => { o with cancelled := true, ended := true } }
  | none => s

/-- A write of the second word of a free entry with valid = 1 fills the entry and writes no key (DESIGN CHOICE, log 81). -/
def windowWrite (s : State) (c o : Nat) (v : DWord) : State :=
  let x := v.toNat
  if o < 0x400 then
    if o % 16 = 0 then s.barCount c (o / 16) v
    else if bitOf x 63 then s.barFill c (o / 16)
    else if (s.barAt c (o / 16)).valid then s.barFree c (o / 16)
    else s.barKey c (o / 16) v
  else if o < 0x600 then (if o % 16 = 8 then s.spillMask c ((o - 0x400) / 16) v else s)
  else if 0x800 ≤ o ∧ o < 0x880 then
    if (o - 0x800) % 32 = 8 then
      (if x = 1 then s.engineRestart c ((o - 0x800) / 32) else if x = 2 then s.engineCancel c ((o - 0x800) / 32) else s)
    else s
  else if o = 0x900 then s.updCore c fun k => { k with mcKey := v }
  else if o = 0x908 then
    let key := (s.core c).mcKey.toNat
    s.matrixCancel c (fld key 40 12) (fld key 12 24) (fld x 9 5) (fld x 3 6) (fld x 0 3)
  else if o = 0xA00 then s.coreMode c v
  else if o = 0xC00 then s.teamStop c (fld x 40 12) (fld x 12 24)
  else s

/-! ## Contexts (R302, R341, R353) -/

/-- A context's teams, resident or in a spilled image. -/
def State.ctxBusy (s : State) (id : Nat) : Bool :=
  (s.cores.any fun k => k.teams.any fun t => t.ctx == id) || s.images.any fun i => i.teams.any fun t => t.ctx == id

/-- Setting valid starts the context afresh: nothing of an earlier life carries over, and the exposure table is read, unless its
word is 0, which gives every default. Bits of the word beside [43:6] are kept, and name nothing (R341, log 80). -/
def State.contextCreate (s : State) (i : Nat) : State :=
  let x := s.ctxAt i
  if x.valid || s.ctxs.any (fun y => y.valid && y.id == x.id) then s
  else
    let (tab, s1) := if x.xword = 0 then ([], s) else s.physBytes (fld x.xword.toNat 6 38 * 64) 64
    let s2 := s1.updCtx i fun y =>
      { y with valid := true, seq := 1, vtids := 0, halts := [], pending := [], share := 0, cpri := 0, mset := none
               xtable := tab, windowEnd := s.cycle + (if sliceNat tab 8 8 = 0 then 1100000 else sliceNat tab 8 8) }
    { s2 with
      cores := s2.cores.map fun k =>
        { k with tlb := k.tlb.filter fun t => t.ctx != x.id, bad := k.bad.filter fun t => t.ctx != x.id
                 ilines := k.ilines.filter fun t => t.ctx != x.id, allow := k.allow.filter fun a => a.ctx != x.id }
      dies := s2.dies.map fun d => { d with tlb := d.tlb.filter fun t => t.ctx != x.id } }

/-- Clearing valid retires a context no team of which is resident: its set is withdrawn and its share becomes 0 (R353). -/
def State.contextRetire (s : State) (i : Nat) : State :=
  let x := s.ctxAt i
  if !x.valid || s.ctxBusy x.id then s
  else
    let s1 := s.updCtx i fun y => { y with valid := false, mset := none, share := 0, cpri := 0 }
    { s1 with
      queues := updAt s1.queues i fun l => l.map fun q => { q with valid := false, head := none }
      grids := s1.grids.filter fun g => g.desc != i
      placement := s1.placement.filter fun p => !(s1.grids.any fun g => g.id == p.1 && g.desc == i) }

def ctxWrite (s : State) (o : Nat) (w : DWord) : State :=
  let i := o / 128
  let v := w.toNat
  if (s.ctxAt i).valid then (if o % 128 = 0 ∧ !bitOf v 63 then s.contextRetire i else s)
  else
    match o % 128 with
    | 0 =>
      let s1 := s.updCtx i fun y => { y with sup := bitOf v 62, id := fld v 0 12 }
      if bitOf v 63 then s1.contextCreate i else s1
    | 8 => s.updCtx i fun y => { y with root := fld v 16 28 * 2 ^ 16 }
    | 16 => s.updCtx i fun y => { y with tqbase := fld v 6 38 * 2 ^ 6 }
    | 24 => s.updCtx i fun y => { y with tqsize := fld v 0 5 }
    | 32 => s.updCtx i fun y => { y with tqprod := fld v 3 41 * 8 }
    | 40 => s.updCtx i fun y => { y with tqcons := fld v 3 41 * 8 }
    | 48 => s.updCtx i fun y => { y with hbase := fld v 14 30 * 2 ^ 14 }
    | 56 => s.updCtx i fun y => { y with hcount := fld v 0 13 }
    | 64 => s.updCtx i fun y => { y with imgbase := fld v 12 32 * 2 ^ 12 }
    | _ => s

/-- The charge a context has admitted, and the sum of all charges (R353, R357). -/
def Ctx.charge (x : Ctx) : Nat := sumList ((x.mset.getD []).map fun e => e.charge)
def State.shareSum (s : State) : Nat := sumList (s.ctxs.map fun x => if x.valid then x.share else 0)

/-- A write of a share word (R353). Shares are in units of 4 KiB, charges in bytes. -/
def State.shareWrite (s : State) (i : Nat) (v : DWord) : State :=
  let x := s.ctxAt i
  let n := fld v.toNat 0 32
  if !x.valid || decide (393216 < s.shareSum - x.share + n) || decide (n * 4096 < x.charge) then s
  else s.updCtx i fun y => { y with share := n, cpri := fld v.toNat 48 8 }

/-! ## Launch queues (R329, R330) -/

/-- Opening: the consumer counter is read once. A read that raises a cause closes the queue with reason 0x0A (R332). -/
def State.queueOpened (s : State) (i j : Nat) : State :=
  let q := s.queueAt i j
  if s.schedHeld i q.cons.toNat 8 then s.updQueue i j fun q => { q with valid := true, head := none, next := s.cycle, opening := true }
  else
    match s.schedRead i q.cons.toNat s.schedClock q.qs with
    | .ok (n, t, s1) =>
      (s1.setSchedClock t).updQueue i j fun q =>
        { q with valid := true, head := none, nextBlock := n, produced := n, finished := [], finishedTo := n, next := s.cycle
                 pushed := false, opening := false }
    | .error _ => s.updQueue i j fun q =>
        { q with valid := false, refused := (q.refused + 1) % 2 ^ 32, reason := 0x0A, opening := false }

/-- A write of bytes 0 to 7 of a closed queue's descriptor. -/
def State.queueOpen (s : State) (i j : Nat) (w : DWord) : State :=
  let v := w.toNat
  if (s.queueAt i j).valid then s
  else
    let s1 := s.updQueue i j fun q => { q with dev := bitOf v 62, qs := bitOf v 61, qsize := fld v 0 5 }
    if bitOf v 63 && decide (1 ≤ fld v 0 5) && decide (fld v 0 5 ≤ 12) && fld v 5 56 == 0
    then s1.queueOpened i j else s1

def queueWrite (s : State) (o : Nat) (w : DWord) : State :=
  let i := o / 512
  let j := o % 512 / 64
  if (s.queueAt i j).valid then s
  else
    match o % 64 with
    | 0 => s.queueOpen i j w
    | 8 => s.updQueue i j fun q => { q with base := w }
    | 16 => s.updQueue i j fun q => { q with prod := w }
    | 24 => s.updQueue i j fun q => { q with cons := w }
    | _ => s

/-! ## Sites, classes, watches, fabric -/

/-- The pool field of a site (R327). -/
def State.siteEmpty (s : State) (x : Site) : Bool :=
  match x.core with
  | some c => (s.core c).teams.isEmpty
  | none => true
def State.poolWrite (s : State) (v : Nat) (w : DWord) : State :=
  { s with sites := s.sites.map fun x =>
      if x.v == v && !x.relocating && s.siteEmpty x then { x with pool := fld w.toNat 56 2 } else x }
/-- A write of a class table word: the reserved bytes 26 and 27 stay zero, bytes 32 to 63 ignore it (R340). -/
def State.classWrite (s : State) (p o : Nat) (w : DWord) : State :=
  if 32 ≤ o then s
  else
    let b := natBytes w.toNat 8
    let b1 := if o = 24 then patch b 2 [0, 0] else b
    { s with classes := updAt s.classes p fun l => patch l o b1 }

def State.updWatch (s : State) (w : Nat) (f : Watch → Watch) : State := { s with watches := updAt s.watches w f }
/-- A write of word 0 of a watch: an armed one is a registered waiter from then on (R373). -/
def State.watchSet (s : State) (w vector : Nat) (armed : Bool) : State :=
  s.updWatch w fun x => { x with armed := armed, vector := vector, next := s.cycle, pushed := false }
def watchWrite (s : State) (o : Nat) (v : DWord) : State :=
  let w := o / 32
  let armed := (s.watches.getD w Watch.reset).armed
  match o % 32 with
  | 0 => s.watchSet w (fld v.toNat 0 6) (bitOf v.toNat 63)
  | 8 => if armed then s else s.updWatch w fun x => { x with counter := fld v.toNat 3 41 * 8 }
  | 16 => if armed then s else s.updWatch w fun x => { x with threshold := v }
  | _ => s

def State.updFabric (s : State) (f : Fabric → Fabric) : State := { s with fabric := f s.fabric }
def State.updFabWin (s : State) (i w : Nat) (f : FabWindow → FabWindow) : State :=
  s.updFabric fun x => { x with windows := updAt x.windows i fun l => updAt l w f }
/-- Setting en is ignored while the station mask is 0 (R383). -/
def State.fabWindowEnable (s : State) (i w : Nat) : State :=
  if (s.fabWin i w).smask = 0 then s else s.updFabWin i w fun x => { x with en := true }
/-- Setting en is ignored while op is reserved (R388). -/
def State.redWindowEnable (s : State) (r : Nat) : State :=
  s.updFabric fun x => { x with reductions := updAt x.reductions r fun y => if y.op = 3 then y else { y with en := true } }

def fabWinWrite (s : State) (o : Nat) (w : DWord) : State :=
  let i := o / 512
  let j := o % 512 / 32
  let v := w.toNat
  if o % 32 = 0 then
    if (s.fabWin i j).en then (if bitOf v 63 then s else s.updFabWin i j fun x => { x with en := false })
    else
      let s1 := s.updFabWin i j fun x => { x with base := fld v 30 26 * 2 ^ 30 }
      if bitOf v 63 then s1.fabWindowEnable i j else s1
  else if (s.fabWin i j).en then s
  else
    match o % 32 with
    | 8 => s.updFabWin i j fun x => { x with size := fld v 0 32 }
    | 16 => s.updFabWin i j fun x => { x with peer := fld v 54 10, pctx := fld v 32 12, smask := BitVec.ofNat 32 v }
    | _ => s.updFabWin i j fun x => { x with ro := bitOf v 63, pbase := fld v 30 26 * 2 ^ 30 }

def State.updRed (s : State) (r : Nat) (f : RedWindow → RedWindow) : State :=
  s.updFabric fun x => { x with reductions := updAt x.reductions r f }
def redWrite (s : State) (o : Nat) (w : DWord) : State :=
  let r := o / 32
  let v := w.toNat
  if o % 32 = 0 then
    if (redWin s r).en then (if bitOf v 63 then s else s.updRed r fun x => { x with en := false })
    else
      let s1 := s.updRed r fun x => { x with vbase := fld v 8 48 * 256 }
      if bitOf v 63 then s1.redWindowEnable r else s1
  else if (redWin s r).en then s
  else
    match o % 32 with
    | 8 => s.updRed r fun x => { x with len := fld v 8 32 * 256 }
    | 16 => s.updRed r fun x =>
        { x with rm := rmNat (fld v 26 2), op := BitVec.ofNat 2 (fld v 24 2), ty := BitVec.ofNat 2 (fld v 20 2)
                 ctx := fld v 0 12 }
    | _ => s

def fabCtlWrite (s : State) (o : Nat) (w : DWord) : State :=
  match o with
  | 0 => if s.fabric.enable = 0 then s.updFabric fun x => { x with accel := fld w.toNat 0 10 } else s
  | 8 => s.updFabric fun x => { x with enable := w.truncate 32 }
  | _ => s

/-! ## The restart report (R368) -/

def reportWrite (s : State) (o : Nat) (w : DWord) : State :=
  let v := w.toNat
  match o with
  | 16 => s.dataRestore (fld v 52 12) (fld v 12 32 * 4096)
  | 24 => s.teamRestore (fld v 52 12) (fld v 8 2) (fld v 0 6)
  | 48 => if v = 1 then s.vaultRelease else s
  | _ => s

/-! ## The region -/

/-- An aligned 8-byte write at an offset of the region; firm says that monitor firmware makes it (R379). -/
def ctlWrite (s : State) (firm : Bool) (o : Nat) (v : DWord) : State :=
  if o < 0x2000 then ctxWrite s o v
  else if 0x80000 ≤ o ∧ o < 0x88000 then queueWrite s (o - 0x80000) v
  else if 0x88000 ≤ o ∧ o < 0x88100 then s.classWrite ((o - 0x88000) / 64) ((o - 0x88000) % 64) v
  else if o = 0x88100 then { s with frozen := bitOf v.toNat 0 }
  else if 0x89000 ≤ o ∧ o < 0x89200 then s.updCtx ((o - 0x89000) / 8) fun x => { x with xword := v }
  else if 0x8A000 ≤ o ∧ o < 0x8A200 then s.shareWrite ((o - 0x8A000) / 8) v
  else if 0x8B000 ≤ o ∧ o < 0x8B400 then watchWrite s (o - 0x8B000) v
  else if o = 0x8C010 then (if firm then { s with mgmt := { s.mgmt with floor := fld v.toNat 0 16 } } else s)
  else if 0x91000 ≤ o ∧ o < 0x92000 then s.poolWrite ((o - 0x91000) / 8) v
  else if 0xA0000 ≤ o ∧ o < 0xA0040 then reportWrite s (o - 0xA0000) v
  else if 0xB0000 ≤ o ∧ o < 0xB0100 then fabCtlWrite s (o - 0xB0000) v
  else if 0xB0100 ≤ o ∧ o < 0xB0180 then redWrite s (o - 0xB0100) v
  else if 0xB0800 ≤ o ∧ o < 0xB0A00 then
    s.updFabric fun x => { x with imports := updAt x.imports ((o - 0xB0800) / 8) fun _ => (bitOf v.toNat 63, bitOf v.toNat 62) }
  else if 0xB1000 ≤ o ∧ o < 0xB9000 then fabWinWrite s (o - 0xB1000) v
  else if 0x100000 ≤ o ∧ o < 0xF00000 then windowWrite s ((o - 0x100000) / 0x10000) (o % 0x10000) v
  else s

/-- A write of 8 bytes by physical address (R302): its time, and the state after it. -/
def State.physWrite8 (s : State) (pa v clock : Nat) : Nat × State :=
  if inCtl pa then (clock, ctlWrite s false (pa - Config.ctlBase) (BitVec.ofNat 64 v)) else s.physWrite pa (natBytes v 8) clock

end Sys2Proof.Machine
end

