-- ==== Sys2Proof/Machine/Access.lean ====
section
/-! DEFINITION. A thread's memory accesses: the checks before a bundle performs them and their events (R131 to R142, R258 to
R267, R303, R321, R384, R386). -/

namespace Sys2Proof.Machine

/-! ## Fabric accesses (R381, R384, R386) -/

def Env.ref (e : Env) : ThreadRef := { core := e.b.core, team := e.b.team, group := e.g, lane := e.l }

/-- The station of a 256-byte block: a fixed choice among the window's stations, replaced by the next one that is up
(log 12). -/
def pickStation (f : Fabric) (w : FabWindow) (va : Nat) : Nat :=
  let l := (List.range 32).filter fun i => w.smask.getLsbD i
  let n := l.length
  let order := (List.range n).map fun i => l.getD ((va / 256 + i) % n) 0
  (order.find? fun i => f.up.getLsbD i).getD (order.headD 0)

/-- Sends a request for a local address; its number is the answer. -/
def State.fabSend (s : State) (w : FabWindow) (who : FabWho) (lva : Nat) (a : Ea) (sup : Bool) (op : FabOp) : Nat × State :=
  let f := s.fabric
  (f.nextId, s.updFabric fun f => { f with
    nextId := f.nextId + 1
    reqs := f.reqs ++ [{ id := f.nextId, who := who, lva := lva, station := pickStation f w a.addr, peer := w.peer
                         pctx := w.pctx, va := w.pbase + (a.addr - w.base), tag := a.tag, sup := sup, op := op
                         sent := s.cycle }] })

/-- A fabric window of the thread's context holds the address of a record. -/
def Env.inWindowAt (e : Env) (addr : Nat) : Bool := (e.s.fabWindow e.t.desc (fld addr 0 56)).isSome
def Env.window (e : Env) (a : Ea) : Option FabWindow := if a.scratch then none else e.s.fabWindow e.t.desc a.addr

/-- A read or write travels as at least 8 bytes (R381): the aligned bytes, and the mask of those meant. -/
def fabRead (a : Ea) (n : Nat) : Ea × FabOp := if n < 8 then ({ a with addr := a.addr / 8 * 8 }, .read 8) else (a, .read n)
def fabWrite (a : Ea) (d : List Byte) : Ea × FabOp :=
  if d.length < 8 then
    let o := a.addr % 8
    ({ a with addr := a.addr / 8 * 8 },
     .write ((List.range 8).map fun i => d.getD (i - o) 0)
       ((List.range 8).map fun i => decide (o ≤ i) && decide (i < o + d.length)))
  else (a, .write d (d.map fun _ => true))

/-! ## Checks -/

/-- How an access treats memory: reads it, writes it, compares its tag; whether an L1 copy may serve it, and whether a
lost granule faults at once (an untagged read). -/
structure Mode where
  reads : Bool
  writes : Bool
  tagged : Bool := false
  l1 : Bool := false
  notag : Bool := false
  deriving DecidableEq, Repr

/-- The pieces of a range by units. -/
def unitPieces (grain pa n : Nat) : List (Nat × Nat) :=
  (unitsOf grain pa n).map fun u => (Nat.max pa u, Nat.min (pa + n) (u + grain) - Nat.max pa u)

/-- Where and when the parts of an access find their bytes and tags, unit by unit in address order (R141, R177, R264): first byte,
length, the clock as it stands there, and whether an L1 copy serves it. -/
def State.unitSteps (s : State) (c : Nat) (l : Leaf) (l1 : Bool) : List (Nat × Nat) → Nat → List (Nat × Nat × Nat × Bool)
  | [], _ => []
  | (p, n) :: r, k =>
    match (if l1 then s.l1Copy c p k else none) with
    | some x => (p, n, k, true) :: s.unitSteps c l l1 r (Nat.max k x.wts)
    | none => (p, n, k, false) :: s.unitSteps c l l1 r (Nat.max k (s.unitStamp (unitBase l.grain p) l.grain).wts)

/-- The checks of n bytes of global memory at an address, from R135 on (R137), then data loss, then the rounds at home; tags and
losses are judged unit by unit, each where the access finds that unit. -/
def Env.chkGlobal (e : Env) (a : Ea) (n : Nat) (m : Mode) : Chk :=
  match e.s.checkPage e.b.core e.t.ctx e.t.sup a.addr m.writes a.ro with
  | .trap c => .trap { cause := c, addr := a.tagged, extra := if c = 0xA1 then e.b.pc.toNat else 0 }
  | .miss p => .miss [p]
  | .ok l =>
    let pa := l.phys a.addr
    let w := Writer.thread e.b.core e.b.team
    let steps := e.s.unitSteps e.b.core l (m.l1 && decide (e.s.clsOf l ≠ 3)) (unitPieces l.grain pa n) e.th.clock
    if !m.notag && steps.any (fun x => e.s.tagsDiffer e.b.core x.1 x.2.1 x.2.2.1 x.2.2.2 a.tag) then
      .trap { cause := 0x28, addr := a.tagged }
    else if m.reads && !m.tagged && steps.any (fun x => !x.2.2.2 && (e.s.lostIn x.1 x.2.1).isSome) then
      .trap { cause := 0xA1, addr := a.tagged, extra := e.b.pc.toNat }
    else if m.writes then
      if e.s.roundHolds w pa n then .later (.home (unitsOf l.grain pa n))
      else if e.s.needsRound l pa n then .round ((e.s.roundUnits l pa n).map fun u => (u, l.grain))
      else .ok
    else
      let held := steps.filter fun x => !x.2.2.2 && e.s.roundHolds w x.1 x.2.1
      if held.isEmpty then .ok else .later (.home (held.map fun x => unitBase l.grain x.1))

/-- The first absent line of a range of the team's scratchpad (R142, R180). -/
def Line.present (x : Line) : Bool := x.pending == 0 && !x.held
def Team.absentLine (t : Team) (o n : Nat) : Option Nat :=
  ((List.range ((o + n - 1) / 128 + 1 - o / 128)).map (o / 128 + ·)).find? fun i => !(t.line i).present

def Env.chkScratch (e : Env) (o n : Nat) (reads : Bool) : Chk :=
  match e.t.absentLine o n with
  | some i => .line i
  | none => if reads && e.t.lostIn o n then .trap { cause := 0xA1, addr := o, extra := e.b.pc.toNat } else .ok

/-- The checks of an access that may be a fabric access (R384): local checks only, and none once its answer is there. -/
def Env.chkAccess (e : Env) (a : Except Trap Ea) (n : Nat) (m : Mode) : Chk :=
  if !e.th.fabDone.isEmpty then .ok
  else
    match a with
    | .error t => .trap t
    | .ok a =>
      if a.scratch then e.chkScratch a.addr n m.reads
      else
        match e.window a with
        | some w => if m.writes && (w.ro || a.ro) then .trap { cause := 0x27, addr := a.tagged } else .ok
        | none => e.chkGlobal a n m

/-- An access that a window refuses with a cause of its own (R384): 0x03 by the contents of its registers, before the memory causes
(R311), else after them. -/
def Env.chkLocal (e : Env) (a : Except Trap Ea) (n : Nat) (m : Mode) (refused : Nat) : Chk :=
  match a with
  | .error t => if refused = 0x03 ∧ e.inWindowAt t.addr = true ∧ t.cause = 0x24 then .trap { cause := 0x03 } else .trap t
  | .ok a =>
    if a.scratch then e.chkScratch a.addr n m.reads
    else if (e.window a).isSome then .trap { cause := refused, addr := if refused = 0x75 then a.tagged else 0 }
    else e.chkGlobal a n m

/-! ## Events in global memory -/

/-- The unit at home as an L1 copy (R177, R264). -/
def State.unitCopy (s : State) (l : Leaf) (pa : Nat) : L1Copy :=
  let base := unitBase l.grain pa
  let st := s.unitStamp base l.grain
  { base := base, size := l.grain, data := s.readBytes base l.grain
    tags := (List.range (l.grain / 32)).map fun i => s.gtag (base + 32 * i)
    wts := st.wts, rts := st.rts, leased := s.clsOf l == 2, dead := false }

/-- A read event of a thread of core c: the bytes and the time stamp. whole is the width of the access that the event belongs to:
the control region answers only those of 8 bytes (R303). keep says that the line may stay in L1. -/
def State.loadAt (s : State) (c ctx : Nat) (l : Leaf) (pa n whole clock : Nat) (l1 keep : Bool) : List Byte × Nat × State :=
  match (if l1 && decide (s.clsOf l ≠ 3) then s.l1Copy c pa clock else none) with
  | some x => (slice x.data (pa - x.base) n, Nat.max clock x.wts, s)
  | none =>
    let s1 := (s.claim l (some c)).note ctx l (some c) false
    let (t, s2) := s1.readEvent l pa clock
    if inCtl pa then (if whole = 8 then natBytes (ctlRead s2 (pa - Config.ctlBase)) 8 else List.replicate n 0, t, s2)
    else
      let d := s2.readBytes pa n
      let copy := s2.unitCopy l pa
      let s3 := s2.renew c l pa clock
      if keep && decide (s3.clsOf l ≠ 3) && (s3.lostIn copy.base copy.size).isNone && !(s3.core c).fills.any (fun x => x.base == copy.base && !x.dead) then
        (d, t, s3.updCore c fun k => { k with fills := k.fills ++ [copy] })
      else (d, t, s3)

/-- A write event of a thread of core c, of an access of whole bytes. -/
def State.storeAt (s : State) (c team ctx : Nat) (l : Leaf) (pa : Nat) (d : List Byte) (whole clock : Nat) : Nat × State :=
  let s1 := (s.claim l (some c)).note ctx l (some c) true
  if inCtl pa then
    let (t, s2) := s1.writeEvent l pa clock
    (t, if whole = 8 then ctlWrite s2 false (pa - Config.ctlBase) (BitVec.ofNat 64 (bytesNat d)) else s2)
  else
    let (t, s2) := s1.storeHome l pa d clock (some c)
    (t, s2.endRounds (.thread c team) pa d.length)

/-- The leaf of an access that the checks passed. -/
def State.hitLeaf (s : State) (c ctx va : Nat) : Option Leaf :=
  match s.translate c ctx va with
  | .hit l => some l
  | _ => none

/-- Reads of consecutive elements of w bytes of an access of whole bytes, in increasing address order (R141): the bytes, the clock,
and whether a byte was lost. -/
def Env.readElems (e : Env) (a : Ea) (w whole : Nat) (l1 keep : Bool) : Nat → Nat → State → Nat → List Byte × Nat × Bool × State
  | 0, _, s, k => ([], k, false, s)
  | n + 1, o, s, k =>
    let (d, k1, lost, s1) :=
      if a.scratch then
        match s.team? e.b.core e.b.team with
        | some t =>
          let (x, t1) := t.scratchEvent (a.addr + o) w k false
          (t.scratchRead (a.addr + o) w, Nat.max k x, false, s.updTeam e.b.core e.b.team fun _ => t1)
        | none => ([], k, false, s)
      else
        match s.hitLeaf e.b.core e.t.ctx a.addr with
        | some l =>
          let pa := l.phys a.addr + o
          let lost := (s.lostIn pa w).isSome && !(l1 && decide (s.clsOf l ≠ 3) && (s.l1Copy e.b.core pa k).isSome)
          let (d, x, s1) := s.loadAt e.b.core e.t.ctx l pa w whole k l1 keep
          (d, Nat.max k x, lost, s1)
        | none => ([], k, false, s)
    let (r, k2, lost2, s2) := e.readElems a w whole l1 keep n (o + w) s1 k1
    (d ++ r, k2, lost || lost2, s2)

/-- Writes of consecutive elements of an access of whole bytes. -/
def Env.writeElems (e : Env) (a : Ea) (whole : Nat) : List (List Byte) → Nat → State → Nat → Nat × State
  | [], _, s, k => (k, s)
  | d :: r, o, s, k =>
    let (k1, s1) :=
      if a.scratch then
        match s.team? e.b.core e.b.team with
        | some t =>
          let (x, t1) := t.scratchEvent (a.addr + o) d.length k true
          (Nat.max k x, s.updTeam e.b.core e.b.team fun _ => t1.scratchWrite (a.addr + o) d)
        | none => (k, s)
      else
        match s.hitLeaf e.b.core e.t.ctx a.addr with
        | some l =>
          let (x, s1) := s.storeAt e.b.core e.b.team e.t.ctx l (l.phys a.addr + o) d whole k
          (Nat.max k x, s1)
        | none => (k, s)
    e.writeElems a whole r (o + d.length) s1 k1

/-- Bytes in elements of at most 8. -/
def elems8 : List Byte → List (List Byte)
  | a :: b :: c :: d :: e :: f :: g :: h :: i :: r => [a, b, c, d, e, f, g, h] :: elems8 (i :: r)
  | l => [l]

/-! ## Loads and stores of a lane -/

/-- The integer of a narrow element, extended to 64 bits by its type (R31, R144). -/
def memSigned : MemTy → Bool
  | .s8 => true | .s16 => true | .s32 => true | .s64 => true | _ => false
def memBits : MemTy → Nat
  | .s8 => 8 | .n8 => 8 | .s16 => 16 | .n16 => 16 | .s32 => 32 | .n32 => 32 | .s64 => 64 | .n64 => 64
/-- Access width of LD and ST (R144). -/
def memWidth (ty : MemTy) (pair : Bool) : Nat := if pair && decide (memBits ty = 32) then 8 else memBits ty / 8
def extend64 (ty : MemTy) (x : Nat) : DWord := BitVec.ofInt 64 (valOf (memBits ty) (memSigned ty) x)

def LoadShape.bytes : LoadShape → Nat
  | .scalar ty pair _ => memWidth ty pair
  | .uniform ty _ => memBits ty / 8
  | .tuple _ n => 4 * n
def LoadShape.dests : LoadShape → List RName
  | .scalar _ pair d => if pair then pairNames d else [.g d]
  | .uniform _ d => [.k d]
  | .tuple d n => tupleNames d n
def LoadShape.writes (sh : LoadShape) (b : List Byte) : List RWrite :=
  match sh with
  | .scalar ty pair d =>
    if pair then
      (if memBits ty = 32 then pairWrites d (BitVec.ofNat 64 (bytesNat b)) else pairWrites d (extend64 ty (bytesNat b)))
    else [.g d ((extend64 ty (bytesNat b)).truncate 32)]
  | .uniform ty d => [.k d (extend64 ty (bytesNat b))]
  | .tuple d n => (List.range n).map fun i => .g (d + i) (BitVec.ofNat 32 (sliceNat b (4 * i) 4))

/-- The bytes that an answer to a fabric read of fewer than 8 bytes means (R381). -/
def fabSlice (a : Ea) (n : Nat) (d : List Byte) : List Byte := if n < 8 then slice d (a.addr % 8) n else d.take n

/-- A load of one lane. -/
def Env.load (e : Env) (tag : Option Nat) (a : Except Trap Ea) (sh : LoadShape) (l1 keep : Bool) (s : State) : State × Out :=
  match a with
  | .error _ => (s, {})
  | .ok a =>
    match e.th.fabDone, e.window a with
    | (_, d) :: _, _ => (s, { writes := sh.writes (fabSlice a sh.bytes d) })
    | [], some w =>
      let (ra, op) := fabRead a sh.bytes
      match tag with
      | some t =>
        let (_, s1) := s.fabSend w (.tagged e.ref t sh) a.tagged ra e.t.sup op
        (s1, {})
      | none =>
        let (id, s1) := s.fabSend w (.load e.ref) a.tagged ra e.t.sup op
        (s1, { stay := true, hold := some (.fabric [id]), stayAll := match sh with | .uniform _ _ => true | _ => false })
    | [], none =>
      let w := Nat.min sh.bytes 8
      let (d, k, lost, s1) := e.readElems a w sh.bytes l1 keep (sh.bytes / w) 0 s e.th.clock
      (s1, { writes := sh.writes d, clock := k, bad := if lost then some (0xA1, a.tagged) else none })

/-- A store of one lane. -/
def Env.store (e : Env) (a : Except Trap Ea) (d : List Byte) (s : State) : State × Out :=
  match a with
  | .error _ => (s, {})
  | .ok a =>
    match e.window a with
    | some w =>
      let (wa, op) := fabWrite a d
      let (id, s1) := s.fabSend w (.write e.ref) a.tagged wa e.t.sup op
      (s1, { fabWrites := [id] })
    | none =>
      let (k, s1) := e.writeElems a d.length (elems8 d) 0 s e.th.clock
      (s1, { clock := k })

def tagOf (h : Hdr) : Option Nat := if h.av then some h.tag.toNat else none

end Sys2Proof.Machine
end

