-- ==== Sys2Proof/Machine/MemAccess.lean ====
section
/-! DEFINITION. Loads, stores, prefetch and memory tags: the meanings of opcode row 0x0C (R144 to R150). -/

namespace Sys2Proof.Machine

def loadMode (h : Hdr) : Mode := { reads := true, writes := false, tagged := h.av, l1 := true }
def storeMode : Mode := { reads := false, writes := true }

/-- A load: its address register names, its checks, its event and result. -/
def loadSem (h : Hdr) (sh : LoadShape) (m : MemArg) (keep : Bool) : Sem :=
  { uses := { reads := memNames m, dests := sh.dests }
    chk := fun e => e.chkAccess (e.ea m sh.bytes) sh.bytes (loadMode h)
    act := fun e s => e.load (tagOf h) (e.ea m sh.bytes) sh true keep s }

/-- A store of n bytes whose data come from registers. -/
def storeSem (names : List RName) (n : Nat) (m : MemArg) (data : Env → List Byte) : Sem :=
  { uses := { reads := memNames m ++ names }
    needs := memNames m
    chk := fun e => e.chkAccess (e.ea m n) n storeMode
    act := fun e s => e.store (e.ea m n) (data e) s }

def scalarNames (pair : Bool) (d : BitVec 8) : List RName := if pair then pairNames d.toNat else [.g d.toNat]
def Env.scalarBytes (e : Env) (ty : MemTy) (pair : Bool) (d : BitVec 8) : List Byte :=
  natBytes (if pair then (e.th.pair d.toNat).toNat else (e.th.g d.toNat).toNat) (memWidth ty pair)

def execLd (h : Hdr) (ty : MemTy) (pair : Bool) (d : BitVec 8) (m : MemArg) (s : State) : Res :=
  .next (runBundle h (loadSem h (.scalar ty pair d.toNat) m true) s)
def execSt (h : Hdr) (ty : MemTy) (pair : Bool) (d : BitVec 8) (m : MemArg) (s : State) : Res :=
  .next (runBundle h (storeSem (scalarNames pair d) (memWidth ty pair) m fun e => e.scalarBytes ty pair d) s)
/-- LDB leaves no line in L1 (R145). -/
def execLdb (h : Hdr) (ty : MemTy) (pair : Bool) (d : BitVec 8) (m : MemArg) (s : State) : Res :=
  .next (runBundle h (loadSem h (.scalar ty pair d.toNat) m false) s)
def execStb (h : Hdr) (ty : MemTy) (pair : Bool) (d : BitVec 8) (m : MemArg) (s : State) : Res :=
  .next (runBundle h (storeSem (scalarNames pair d) (memWidth ty pair) m fun e => e.scalarBytes ty pair d) s)

/-- Registers of a tuple (R146). -/
def tupRegs : TupSize → Nat
  | .w16 => 4 | .w32 => 8 | .w64 => 16 | .w128 => 32

def execLdx (h : Hdr) (sz : TupSize) (d : BitVec 8) (m : MemArg) (s : State) : Res :=
  .next (runBundle h (loadSem h (.tuple d.toNat (tupRegs sz)) m true) s)
def execStx (h : Hdr) (sz : TupSize) (d : BitVec 8) (m : MemArg) (s : State) : Res :=
  .next (runBundle h (storeSem (tupleNames d.toNat (tupRegs sz)) (4 * tupRegs sz) m fun e =>
    ((List.range (tupRegs sz)).map fun i => natBytes (e.th.g (d.toNat + i)).toNat 4).flatten) s)

/-- LDK: the lowest executing lane of each group performs (R147). -/
def execLdk (h : Hdr) (ty : MemTy) (d : BitVec 8) (m : MemArg) (s : State) : Res :=
  .next (runBundle h { loadSem h (.uniform ty d.toNat) m true with sel := lowestPerGroup } s)

/-- PREF reads its address registers and changes no visible state (R148). -/
def execPref (h : Hdr) (_ : PrefKind) (m : MemArg) (s : State) : Res :=
  .next (runBundle h (pureSem { reads := memNames m } fun _ => []) s)

def tagsBytes : TagLen → Nat
  | .g1 => 32 | .g4 => 128 | .g16 => 512 | .g64 => 2048

/-- The checks of every granule of a range (R137, R311). -/
def Env.chkGranules (e : Env) (a : Ea) (m : Mode) (n : Nat) : Chk :=
  pieceChk ((List.range n).map fun i => e.chkGlobal { a with addr := a.addr + 32 * i } 32 m)

/-- The tag change of one granule, with its zeroing: one write event (R149). The region's tags stay 0 (R303). -/
def Env.setTag (e : Env) (l : Leaf) (pa : Nat) (tag : BitVec 4) (z : Bool) (s : State) (k : Nat) : Nat × State :=
  if inCtl pa then (k, s)
  else
    let s1 := (s.claim l (some e.b.core)).note e.t.ctx l (some e.b.core) true
    let (t, s2) := s1.writeEvent l pa k
    let s3 := if z then s2.writeBytes pa (List.replicate 32 0) else s2
    let s4 := (s3.setGtag (pa / 32) tag).patchL1 e.b.core pa 32 t
    (Nat.max k t, s4.endRounds (.thread e.b.core e.b.team) pa 32)

def Env.setTags (e : Env) (l : Leaf) (tag : BitVec 4) (z : Bool) : Nat → Nat → State → Nat → Nat × State
  | 0, _, s, k => (k, s)
  | n + 1, pa, s, k =>
    let (k1, s1) := e.setTag l pa tag z s k
    e.setTags l tag z n (pa + 32) s1 k1

def execTags (h : Hdr) (len : TagLen) (z : Bool) (m : MemArg) (s : State) : Res :=
  let w := tagsBytes len
  .next (runBundle h
    { uses := { reads := memNames m }
      chk := fun e => match e.ea m w with
        | .error t => if e.inWindowAt t.addr = true ∧ t.cause = 0x24 then .trap { cause := 0x03 } else .trap t
        | .ok a =>
          if (e.window a).isSome then .trap { cause := 0x03 }
          else e.chkGranules a { reads := false, writes := true, notag := true } (w / 32)
      act := fun e s => match e.ea m w with
        | .error _ => (s, {})
        | .ok a => match s.hitLeaf e.b.core e.t.ctx a.addr with
          | some l =>
            let (k, s1) := e.setTags l a.tag z (w / 32) (l.phys a.addr) s e.th.clock
            (s1, { clock := k })
          | none => (s, {}) } s)

/-- TAGG reads one granule: the manual gives it no access width, and its descriptor's bounds are checked for the byte it names (log 71). -/
def execTagg (h : Hdr) (d : BitVec 8) (m : MemArg) (s : State) : Res :=
  .next (runBundle h
    { uses := { reads := memNames m, dests := [.g d.toNat] }
      chk := fun e => e.chkLocal (e.ea m 1) 1 { reads := false, writes := false, notag := true } 0x03
      act := fun e s => match e.ea m 1 with
        | .error _ => (s, {})
        | .ok a => match s.hitLeaf e.b.core e.t.ctx a.addr with
          | some l =>
            let pa := l.phys a.addr
            let (t, s1) := (s.claim l (some e.b.core)).readEvent l pa e.th.clock
            (s1, { writes := write32 d ((s1.gtag pa).zeroExtend 32), clock := t })
          | none => (s, {}) } s)

end Sys2Proof.Machine
end

