-- ==== Sys2Proof/Machine/Atomics.lean ====
section
/-! DEFINITION. Atomics: the meanings of ATOM and RED (R151, R152). -/

namespace Sys2Proof.Machine

/-- The new value of an atomic; none when it writes nothing (R151, R152). -/
def atomNew (op : Aop) (ty : IntTy) (old v swp : DWord) : Option Nat :=
  let n := 2 ^ ty.width
  let a := tyVal ty old
  let b := tyVal ty v
  match op with
  | .add => some ((old.toNat + v.toNat) % n)
  | .min => some ((if a ≤ b then old.toNat else v.toNat) % n)
  | .max => some ((if a ≤ b then v.toNat else old.toNat) % n)
  | .and => some ((old &&& v).toNat % n)
  | .or => some ((old ||| v).toNat % n)
  | .xor => some ((old ^^^ v).toNat % n)
  | .xchg => some (v.toNat % n)
  | .cas => if old.toNat % n = v.toNat % n then some (swp.toNat % n) else none

/-- The operand registers of an atomic (R152). -/
def atomNames (op : Aop) (ty : IntTy) (d : BitVec 8) : List RName :=
  match op with
  | .cas => tupleNames d.toNat (if ty.wide then 4 else 2)
  | _ => dstTy ty d
def Env.atomV (e : Env) (ty : IntTy) (d : BitVec 8) : DWord := e.srcTy ty (.g d)
def Env.atomSwp (e : Env) (op : Aop) (ty : IntTy) (d : BitVec 8) : DWord :=
  match op with
  | .cas => if ty.wide then e.th.pair (d.toNat + 2) else (e.th.g (d.toNat + 1)).zeroExtend 64
  | _ => 0

/-- An atomic whose granule is lost takes 0xA1 at its issue, a tagged one too: R321 names a later completion for loads (log 72). -/
def atomMode : Mode := { reads := true, writes := true }

/-- One read and write at home or in the scratchpad: the old value, the clock. -/
def Env.rmw (e : Env) (a : Ea) (w : Nat) (f : Nat → Option Nat) (s : State) : Nat × Nat × State :=
  if a.scratch then
    match s.team? e.b.core e.b.team with
    | some t =>
      let old := bytesNat (t.scratchRead a.addr w)
      let (k, t1) := t.scratchEvent a.addr w e.th.clock true
      (old, k, s.updTeam e.b.core e.b.team fun _ => match f old with
        | some v => t1.scratchWrite a.addr (natBytes v w)
        | none => t1)
    | none => (0, e.th.clock, s)
  else
    match s.hitLeaf e.b.core e.t.ctx a.addr with
    | some l =>
      let pa := l.phys a.addr
      if inCtl pa then (0, e.th.clock, s)
      else
        let old := bytesNat (s.readBytes pa w)
        let (k, s1) := s.storeAt e.b.core e.b.team e.t.ctx l pa (natBytes ((f old).getD old) w) w e.th.clock
        (old, k, s1)
    | none => (0, e.th.clock, s)

/-- The meaning of an atomic that returns the old value or not. -/
def atomSem (h : Hdr) (op : Aop) (ty : IntTy) (d : BitVec 8) (m : MemArg10) (ret : Bool) : Sem :=
  let w := ty.width / 8
  let sh : LoadShape := .scalar (if ty.wide then .n64 else .n32) ty.wide d.toNat
  { uses := { reads := memNames10 m ++ atomNames op ty d, dests := if ret then dstTy ty d else [] }
    needs := memNames10 m
    chk := fun e => e.chkAccess (e.ea10 m w) w atomMode
    act := fun e s =>
      match e.ea10 m w with
      | .error _ => (s, {})
      | .ok a =>
        match e.th.fabDone, e.window a with
        | (_, b) :: _, _ => (s, { writes := sh.writes (b.take w) })
        | [], some win =>
          let fop : FabOp := .atom op ty (e.atomV ty d) (e.atomSwp op ty d)
          if ret then
            match tagOf h with
            | some t => ((s.fabSend win (.tagged e.ref t sh) a.tagged a e.t.sup fop).2, {})
            | none =>
              let (id, s1) := s.fabSend win (.load e.ref) a.tagged a e.t.sup fop
              (s1, { stay := true, hold := some (.fabric [id]) })
          else
            let (id, s1) := s.fabSend win (.write e.ref) a.tagged a e.t.sup fop
            (s1, { fabWrites := [id] })
        | [], none =>
          let (old, k, s1) := e.rmw a w (fun o => atomNew op ty (BitVec.ofNat 64 o) (e.atomV ty d) (e.atomSwp op ty d)) s
          (s1, { writes := if ret then writeTy ty d (BitVec.ofNat 64 old) else [], clock := k }) }

def execAtom (h : Hdr) (op : Aop) (ty : IntTy) (d : BitVec 8) (m : MemArg10) (s : State) : Res :=
  .next (runBundle h (atomSem h op ty d m true) s)
def execRed (h : Hdr) (op : Aop) (ty : IntTy) (d : BitVec 8) (m : MemArg10) (s : State) : Res :=
  .next (runBundle h (atomSem h op ty d m false) s)

end Sys2Proof.Machine
end

