-- ==== Sys2Proof/Machine/Counters.lean ====
section
/-! DEFINITION. Sync counters and presence: the meanings of CADD, CADDT, CWAIT, CPOLL and PRES (R181 to R186, R386). -/

namespace Sys2Proof.Machine

/-! ## Counter additions (R182, R183) -/

def satAdd (x y : Nat) : Nat := Nat.min (x + y) (2 ^ 64 - 1)

/-- Fabric accesses of the thread that have not been performed as far as it knows: writes, loads and atomics without an answer. -/
def Env.fabOpen (e : Env) : List Nat :=
  e.th.fabWrites ++ (e.s.fabric.reqs.filter fun r => match r.who with
    | .tagged t _ _ => decide (t = e.ref)
    | .load t => decide (t = e.ref)
    | .write t => decide (t = e.ref)
    | _ => false).map fun r => r.id

/-- A counter addition, wherever its counter lies, is performed only after every earlier access of the thread to any device (R282):
it waits for their answers; one into a fabric window raises the cause of a write that failed (R386). -/
def Env.chkCadd (e : Env) (a : Except Trap Ea) : Chk :=
  match e.chkAccess a 8 atomMode with
  | .trap t => .trap t
  | .miss p => .miss p
  | c =>
    if !e.fabOpen.isEmpty then .later (.fabric e.fabOpen)
    else
      match (match a with | .ok x => if (e.window x).isSome then e.th.fabBad else none | .error _ => none) with
      | some (k, ad) => .alone { cause := k, addr := ad }
      | none => c

/-- The push of a counter addition that reached its threshold (R183, R185). -/
def Env.pushCounter (e : Env) (a : Ea) (s : State) : State :=
  if a.scratch then s.updTeam e.b.core e.b.team fun t => t.pushScratch a.addr
  else match s.hitLeaf e.b.core e.t.ctx a.addr with
    | some l => s.pushWord (l.phys a.addr)
    | none => s

/-- A counter addition with or without a threshold. -/
def Env.countAdd (e : Env) (a : Except Trap Ea) (amount : Nat) (thr : Option Nat) (s : State) : State × Out :=
  match a with
  | .error _ => (s, {})
  | .ok x =>
    match e.window x with
    | some w =>
      let (id, s1) := s.fabSend w (.write e.ref) x.tagged x e.t.sup (.cadd amount thr)
      (s1, { fabWrites := [id] })
    | none =>
      let (old, k, s1) := e.rmw x 8 (fun o => some (satAdd o amount)) s
      let push := match thr with
        | some t => decide (t ≤ satAdd old amount)
        | none => false
      (if push then e.pushCounter x s1 else s1, { clock := k })

def execCadd (h : Hdr) (d : BitVec 8) (m : MemArg) (s : State) : Res :=
  .next (runBundle h
    { uses := { reads := memNames m ++ [.g d.toNat] }
      needs := memNames m
      chk := fun e => e.chkCadd (e.ea m 8)
      act := fun e s => e.countAdd (e.ea m 8) (e.th.g d.toNat).toNat none s } s)

def execCaddt (h : Hdr) (d : BitVec 8) (m : MemArg) (s : State) : Res :=
  .next (runBundle h
    { uses := { reads := memNames m ++ [.g d.toNat] ++ pairNames (d.toNat + 2) }
      needs := memNames m
      chk := fun e => e.chkCadd (e.ea m 8)
      act := fun e s => e.countAdd (e.ea m 8) (e.th.g d.toNat).toNat (some (e.th.pair (d.toNat + 2)).toNat) s } s)

/-! ## Waiting and polling (R184) -/

/-- A waiter's next read comes within 2,200 cycles (R185). -/
def waitPeriod : Nat := 2200

/-- The first read of a CWAIT: the thread continues, or parks as a registered waiter; answers to reads of an earlier one count no more. -/
def Env.waitFirst (e : Env) (a : Except Trap Ea) (target : DWord) (s : State) : State × Out :=
  match a with
  | .error _ => (s, {})
  | .ok x =>
    let w : Waiter := { scratch := x.scratch, addr := x.addr, tag := x.tag, target := target
                        next := s.cycle + waitPeriod, pushed := false }
    match e.window x with
    | some fw =>
      let s0 := s.updFabric fun f => { f with reqs := f.reqs.filter fun q => decide (q.who ≠ .wait e.ref) }
      let (_, s1) := s0.fabSend fw (.wait e.ref) x.tagged x e.t.sup (.read 8)
      (s1, { park := some (.cwait w) })
    | none =>
      let (d, k, _, s1) := e.readElems x 8 8 false false 1 0 s e.th.clock
      if target.toNat ≤ bytesNat d then (s1, { clock := k }) else (s1, { clock := k, park := some (.cwait w) })

def execCwait (h : Hdr) (d : BitVec 8) (m : MemArg) (s : State) : Res :=
  .next (runBundle h
    { uses := { reads := memNames m ++ pairNames d.toNat }
      needs := memNames m
      chk := fun e => e.chkAccess (e.ea m 8) 8 { reads := true, writes := false }
      act := fun e s => e.waitFirst (e.ea m 8) (e.th.pair d.toNat) s } s)

def Env.poll (e : Env) (a : Except Trap Ea) (p : BitVec 3) (target : DWord) (s : State) : State × Out :=
  match a with
  | .error _ => (s, {})
  | .ok x =>
    match e.th.fabDone, e.window x with
    | (_, d) :: _, _ => (s, { writes := writeP p (decide (target.toNat ≤ bytesNat d)) })
    | [], some w =>
      let (id, s1) := s.fabSend w (.load e.ref) x.tagged x e.t.sup (.read 8)
      (s1, { stay := true, hold := some (.fabric [id]) })
    | [], none =>
      let (d, k, lost, s1) := e.readElems x 8 8 false false 1 0 s e.th.clock
      (s1, { writes := writeP p (decide (target.toNat ≤ bytesNat d)), clock := k
             bad := if lost then some (0xA1, x.tagged) else none })

def execCpoll (h : Hdr) (p : BitVec 3) (d : BitVec 8) (m : MemArg) (s : State) : Res :=
  .next (runBundle h
    { uses := { reads := memNames m ++ pairNames d.toNat, dests := predDst p }
      needs := memNames m
      chk := fun e => e.chkAccess (e.ea m 8) 8 { reads := true, writes := false, tagged := h.av }
      act := fun e s => e.poll (e.ea m 8) p (e.th.pair d.toNat) s } s)

/-! ## Presence (R180, R181) -/

/-- PRES's address, always in the scratchpad; PRES never parks. -/
def Env.chkPres (e : Env) (m : MemArg) : Chk :=
  match e.ea m 128 with
  | .error t => .trap t
  | .ok _ => .ok

/-- The 32 presence bits from a line on. -/
def Team.presence (t : Team) (line : Nat) : Nat :=
  sumList ((List.range 32).map fun i =>
    b2n (decide ((line + i + 1) * 128 ≤ t.bytes) && (t.line (line + i)).present) * 2 ^ i)

/-- PRES is an event on the lines whose presence it reads or changes, by the near rules of its array (R263, R276). -/
def Team.presEvent (t : Team) (line n clock : Nat) (write : Bool) : Nat × Team :=
  t.scratchEvent (line * 128) ((Nat.min (line + n) (ceilDiv t.bytes 128) - line) * 128) clock write

def execPresGet (h : Hdr) (d : BitVec 8) (m : MemArg) (s : State) : Res :=
  .next (runBundle h
    { uses := { reads := memNames m, dests := [.g d.toNat] }
      chk := fun e => e.chkPres m
      act := fun e s => match e.ea m 128, s.team? e.b.core e.b.team with
        | .ok x, some t =>
          let (k, t1) := t.presEvent (x.addr / 128) 32 e.th.clock false
          (s.updTeam e.b.core e.b.team fun _ => t1,
           { writes := write32 d (BitVec.ofNat 32 (t.presence (x.addr / 128))), clock := k })
        | _, _ => (s, {}) } s)

/-- The hold flag of the line that PRES names. -/
def presSem (m : MemArg) (v : Bool) : Sem :=
  { uses := { reads := memNames m }
    chk := fun e => e.chkPres m
    act := fun e s => match e.ea m 128, s.team? e.b.core e.b.team with
      | .ok x, some t =>
        let (k, t1) := t.presEvent (x.addr / 128) 1 e.th.clock true
        (s.updTeam e.b.core e.b.team fun _ => t1.setLine (x.addr / 128) { t1.line (x.addr / 128) with held := v }, { clock := k })
      | _, _ => (s, {}) }

def execPresHold (h : Hdr) (m : MemArg) (s : State) : Res := .next (runBundle h (presSem m true) s)
def execPresRelease (h : Hdr) (m : MemArg) (s : State) : Res := .next (runBundle h (presSem m false) s)

end Sys2Proof.Machine
end

