-- ==== Sys2Proof/Machine/Barriers.lean ====
section
/-! DEFINITION. Team barriers: the meanings of BARA and BARW (R165 to R167). -/

namespace Sys2Proof.Machine

/-- The table entry of a team's barrier. -/
def Core.barOf (k : Core) (t : Team) (n : Nat) : Option Nat :=
  k.bars.findIdx? fun e => e.valid && e.ctx == t.ctx && e.vtid == t.vtid && e.number == n

/-- A barrier that finds the table full, or that the team has spilled (R167): the lower cause when both hold (R311). -/
def Env.chkBar (e : Env) (n : BitVec 4) : Chk :=
  if ((e.s.core e.b.core).barOf e.t n.toNat).isNone && (e.s.core e.b.core).freeBars.isEmpty then .trap { cause := 0x70 }
  else if e.t.spill.getLsbD n.toNat then .trap { cause := 0x71 }
  else .ok

/-- The entry of a team's barrier, allocated with count 0 when there is none. -/
def State.openBar (s : State) (c : Nat) (t : Team) (n : Nat) : Nat × State :=
  let k := s.core c
  match k.barOf t n with
  | some i => (i, s)
  | none =>
    let i := k.freeBars.headD 0
    (i, s.updBar c i fun _ => { BarEntry.reset with valid := true, ctx := t.ctx, vtid := t.vtid, number := n })

/-- A read of an entry at a clock by the near rules (R264, R276): its time, and the entry. -/
def BarEntry.read (x : BarEntry) (clock : Nat) : Nat × BarEntry :=
  let t := Nat.max clock x.wts
  (t, { x with rts := Nat.max x.rts t })

/-- Every thread parked on a barrier whose count meets its target continues (R166): its read follows the addition. -/
def State.releaseBar (s : State) (c id n : Nat) : State :=
  match s.team? c id with
  | none => s
  | some t =>
    match (s.core c).barOf t n with
    | none => s
    | some i =>
      let x := s.barAt c i
      let freed := t.groups.map fun g => (g.threads.filter fun th => match th.park with
        | some (.barw m target) => m == n && decide (target.toNat ≤ x.count)
        | _ => false).map fun th => th.clock
      let s1 := s.updBar c i fun y => freed.flatten.foldl (fun z k => (z.read k).2) y
      s1.updTeam c id fun t => t.mapThreads fun _ _ th =>
        match th.park with
        | some (.barw m target) =>
          if m = n ∧ target.toNat ≤ x.count then
            { th with park := none, pc := th.pc + 10, clock := Nat.max th.clock x.wts }
          else th
        | _ => th

def execBara (h : Hdr) (one : Bool) (r : Bool) (n : BitVec 4) (d : BitVec 8) (a : Src) (s : State) : Res :=
  .next (runBundle h
    { uses := { reads := if one then [] else names32 a, dests := if r then pairNames d.toNat else [] }
      needs := []
      chk := fun e => e.chkBar n
      act := fun e s =>
        let (i, s1) := s.openBar e.b.core e.t n.toNat
        let x := s1.barAt e.b.core i
        let v := Nat.min (x.count + (if one then 1 else (e.src32 a).toNat)) (2 ^ 64 - 1)
        let k := Nat.max e.th.clock (x.rts + 1)
        (s1.updBar e.b.core i fun y => { y with count := v, wts := k, rts := k },
         { writes := if r then write64 d (BitVec.ofNat 64 v) else [], clock := k })
      post := fun b s => s.releaseBar b.core b.team n.toNat } s)

def execBarw (h : Hdr) (n : BitVec 4) (a : Src) (s : State) : Res :=
  .next (runBundle h
    { uses := { reads := names64 a }
      needs := []
      chk := fun e => e.chkBar n
      act := fun e s =>
        let (i, s1) := s.openBar e.b.core e.t n.toNat
        let x := s1.barAt e.b.core i
        let (k, x1) := x.read e.th.clock
        let s2 := s1.updBar e.b.core i fun _ => x1
        if (e.src64 a).toNat ≤ x.count then (s2, { clock := k })
        else (s2, { clock := k, park := some (.barw n.toNat (e.src64 a)) }) } s)

end Sys2Proof.Machine
end

