-- ==== Sys2Proof/Machine/Carve.lean ====
section
/-! DEFINITION. EXIT and the carve-out: the CARVE rendezvous, its grant, the grow queue and its deadlock (R26, R161 to R164). -/

namespace Sys2Proof.Machine

/-! ## A grant (R163) -/

/-- First line that a scratchpad of n bytes does not hold whole. -/
def firstCutLine (n : Nat) : Nat := n / 128

/-- The arrived threads continue after their CARVE, with their second destination written. -/
def Team.carveResume (t : Team) (r : Rendezvous) (v : Bool) : Team :=
  { t.mapThreads (fun g l th =>
      match r.arrivals.find? fun a => a.1 == g && a.2.1 == l with
      | some a => { th.lateResult (writeSecond a.2.2 v) with pc := th.pc + 10, park := none }
      | none => th) with carve := none }

/-- The grant takes effect; one that grows the team makes its must-save entry stale (R358). -/
def Team.regrant (t : Team) (r : Rendezvous) : Team :=
  let t1 := t.mapThreads fun _ _ th => { th with
    regs := th.regs.take r.n ++ List.replicate (r.n - t.nregs) 0
    lost := th.lost.filter fun x => match x with
      | .g i => decide (i < r.n)
      | _ => true }
  { t1.carveResume r true with
    nregs := r.n, bytes := r.bytes, l1 := r.l1
    stale := t.stale || decide (granulesFor t.nregs t.threads t.bytes t.l1 < granulesFor r.n t.threads r.bytes r.l1) ||
      decide (t.nregs < r.n) || decide (t.bytes < r.bytes)
    scratch := if r.bytes < t.bytes then t.scratch.filter fun x => decide (x.1 < r.bytes) else t.scratch
    lost := t.lost.filter fun i => decide (i < r.bytes)
    lines := if r.bytes < t.bytes then t.lines.filter fun x => decide (x.1 < ceilDiv r.bytes 128) else t.lines }

/-- A shrink clears the hold flags of the lines it removes; it takes effect once no copy is pending on them. A line that it removes
only in part is one of them (DESIGN CHOICE, log 82). -/
def Team.cut (t : Team) (r : Rendezvous) : Team :=
  if r.bytes < t.bytes then
    { t with lines := (t.lines.map fun x =>
        if firstCutLine r.bytes ≤ x.1 then (x.1, { x.2 with held := false }) else x).filter fun x =>
          decide (x.2 ≠ Line.reset) }
  else t
def Team.cutFree (t : Team) (r : Rendezvous) : Bool :=
  decide (t.bytes ≤ r.bytes) ||
    t.lines.all fun x => decide (x.1 < firstCutLine r.bytes) || x.2.pending == 0

def State.grantCarve (s : State) (c id : Nat) : State :=
  s.updTeam c id fun t =>
    match t.carve with
    | none => t
    | some r =>
      let t1 := t.cut r
      if t1.cutFree r then t1.regrant r else { t1 with carve := some { r with granting := true, queued := false } }

/-! ## The rendezvous (R162) -/

def Team.newGranules (t : Team) (r : Rendezvous) : Nat := granulesFor r.n t.threads r.bytes r.l1

/-- Every thread of the team has arrived or exited. -/
def Team.allArrived (t : Team) (r : Rendezvous) : Bool :=
  t.lanes.all fun x => (r.arrivals.any fun a => a.1 == x.1 && a.2.1 == x.2) ||
    (match t.thread? x.1 x.2 with
     | some th => th.exited
     | none => true)

/-- The request is invalid although the values agree. -/
def State.carveInvalid (s : State) (c : Nat) (t : Team) (r : Rendezvous) : Bool :=
  r.n % 8 != 0 || decide (r.n < 8) || decide (256 < r.n) || decide ((s.core c).capacity < t.newGranules r) ||
    (s.core c).ops.any fun o => o.of t && decide (r.n < o.cbase + 128)

/-- What follows an arrival or an exit: a complete rendezvous is evaluated. When an exit completes it, the last thread that arrived
counts as the one whose arrival did (DESIGN CHOICE, log 73). -/
def State.carveCheck (s : State) (c id : Nat) : State :=
  match s.team? c id with
  | none => s
  | some t =>
    match t.carve with
    | none => s
    | some r =>
      if r.queued || r.granting || !t.allArrived r then s
      else
        let last : Nat × Nat := match r.arrivals.getLast? with
          | some a => (a.1, a.2.1)
          | none => (0, 0)
        let bad : Option (Nat × Nat) := match r.differs with
          | some x => some x
          | none => if s.carveInvalid c t r then some last else none
        match bad with
        | some x => s.raiseTrap { core := c, team := id, group := x.1, lane := x.2 } { cause := 0x72 } none
        | none =>
          let k := s.core c
          let empty := (k.bank t.bank).grow.isEmpty
          if t.newGranules r < t.granules || (empty && decide (t.newGranules r ≤ t.granules + k.freePool t.bank)) then
            s.grantCarve c id
          else if r.trying then s.updTeam c id fun t => t.carveResume r false
          else (s.updCore c fun k => k.updBank t.bank fun b => { b with grow := b.grow ++ [id] }).updTeam c id fun t =>
            { t with carve := some { r with queued := true } }

/-- One arrival. -/
def Team.arrive (t : Team) (g l n bytes l1 : Nat) (trying : Bool) (pq : Option (BitVec 3)) : Team :=
  match t.carve with
  | none =>
    { t with carve := some { n := n, bytes := bytes, l1 := l1, trying := trying, arrivals := [(g, l, pq)]
                             differs := none, queued := false, granting := false } }
  | some r =>
    let same := r.n == n && r.bytes == bytes && r.l1 == l1
    { t with carve := some { r with
        trying := trying, arrivals := r.arrivals ++ [(g, l, pq)]
        differs := if r.differs.isSome || same then r.differs else some (g, l) } }

def execCarve (h : Hdr) (t : Bool) (a b c : Src) (pq : Option (BitVec 3)) (s : State) : Res :=
  .next (runBundle h
    { uses := { reads := names32 a ++ names32 b ++ names32 c, dests := secondDst pq }
      allTags := .every
      act := fun e s =>
        (s.updTeam e.b.core e.b.team fun x =>
          x.arrive e.g e.l (e.src32 a).toNat (e.src32 b).toNat (e.src32 c).toNat t pq,
         { park := some .carve, late := pq.isSome })
      post := fun b s => s.carveCheck b.core b.team } s)

/-! ## The grow queue (R163, R164) -/

/-- A team of a bank whose granted shrink can take effect: the lines that it removes are free (R163). -/
def Core.cutDue (k : Core) (bank : Nat) : Option Team :=
  k.teams.find? fun t => t.bank == bank && (match t.carve with | some r => r.granting && t.cutFree r | none => false)

/-- A granted shrink whose lines are free takes effect; else the request at the head of the active bank's queue is granted
when the pool covers it. -/
def execGrowQueueGrant (core bank : Nat) (s : State) : Res :=
  let k := s.core core
  match k.cutDue bank with
  | some t => .next (s.grantCarve core t.id)
  | none =>
    if bank ≠ k.active then .next s
    else
      match (k.bank bank).grow with
      | [] => .next s
      | id :: rest =>
        match k.team? id with
        | none => .next s
        | some t =>
          match t.carve with
          | none => .next s
          | some r =>
            if t.newGranules r ≤ t.granules + k.freePool bank then
              .next ((s.updCore core fun k => k.updBank bank fun b => { b with grow := rest }).grantCarve core id)
            else .next s

/-- Every resident group of the active bank waits in the grow queue, and its head does not fit. -/
def Core.deadlocked (k : Core) (bank : Nat) : Option Team :=
  match (k.bank bank).grow with
  | [] => none
  | id :: _ =>
    match k.team? id with
    | none => none
    | some t =>
      match t.carve with
      | none => none
      | some r =>
        if decide (bank = k.active) && decide (t.granules + k.freePool bank < t.newGranules r) &&
            (k.bankTeams bank).all fun x => (match x.carve with | some y => y.queued | none => false) then some t
        else none

/-- The team at the head takes 0x73, named by its last arrival (DESIGN CHOICE where an exit completed its rendezvous, log 73). -/
def execCarveOutDeadlock (core bank : Nat) (s : State) : Res :=
  match (s.core core).deadlocked bank with
  | none => .next s
  | some t =>
    let who : Nat × Nat := match t.carve with
      | some r => (match r.arrivals.getLast? with | some a => (a.1, a.2.1) | none => (0, 0))
      | none => (0, 0)
    .next (s.raiseTrap { core := core, team := t.id, group := who.1, lane := who.2 } { cause := 0x73 } none)

/-! ## EXIT (R26, R386) -/

/-- EXIT waits until the thread's fabric writes are answered; every tag is complete. -/
def execExit (h : Hdr) (s : State) : Res :=
  .next (runBundle h
    { uses := {}
      allTags := .every
      chk := fun e =>
        if !e.th.fabWrites.isEmpty then .later (.fabric e.th.fabWrites)
        else match e.th.fabBad with
          | some (c, a) => .alone { cause := c, addr := a }
          | none => .ok
      act := fun _ s => (s, { exited := true })
      post := fun b s => (releaseGroups b s).carveCheck b.core b.team } s)

end Sys2Proof.Machine
end

