-- ==== Sys2Proof/Machine/Allowance.lean ====
section
/-! DEFINITION. Allowance counters: the meanings of opcode row 0x0F, the core's part, and home's (R285 to R299). -/

namespace Sys2Proof.Machine

/-! ## The object and its holders (R285, R286) -/

/-- The parameters home reads at each operation. -/
structure AlParams where
  home : Nat
  minc : Nat
  maxc : Nat
  hlim : Nat
  valid : Bool
  deriving DecidableEq, Repr

def State.alParams (s : State) (pa : Nat) : AlParams :=
  { home := s.read8 pa, minc := bytesNat (s.readBytes (pa + 8) 4), maxc := bytesNat (s.readBytes (pa + 12) 4)
    hlim := (s.readByte (pa + 16)).toNat, valid := bitOf (s.readByte (pa + 17)).toNat 7 }
/-- Step 1 of R290 on parameters. -/
def AlParams.fit (p : AlParams) : Bool :=
  decide (1 ≤ p.maxc) && decide (p.minc ≤ p.maxc) && decide (p.hlim ≤ 224) && decide (p.home < 2 ^ 63)
def AlParams.ok (p : AlParams) : Bool := p.valid && p.fit

/-- The pairs (core, context) whose allowance is above zero. -/
def State.alHolders (s : State) (obj : Nat) : List (Nat × Nat) :=
  (mapIdxFrom (fun c k => ((Core.allow k).filter fun a => a.obj == obj && a.amount != 0).map fun a => (c, a.ctx)) 0
    s.cores).flatten

/-- Home's record of an object that it meets for the first time: the rounds are those of the object's bytes, as a save has left them
(DESIGN CHOICE, log 83). -/
def AlObject.fresh (obj : Nat) (page : Xlat) (rounds : Nat) : AlObject :=
  { obj := obj, page := page, rounds := rounds, queue := [], round := none, sharing := [] }
def State.alObj? (s : State) (obj : Nat) : Option AlObject := s.alObjects.find? fun o => o.obj == obj
/-- Home's record of an object, made when it has none. -/
def State.alOpen (s : State) (obj : Nat) (page : Xlat) : State :=
  if (s.alObj? obj).isSome then
    { s with alObjects := s.alObjects.map fun o => if o.obj = obj then { o with page := page } else o }
  else { s with alObjects := s.alObjects ++ [AlObject.fresh obj page (s.read8 (obj + 24))] }
def State.updAl (s : State) (obj : Nat) (f : AlObject → AlObject) : State :=
  { s with alObjects := s.alObjects.map fun o => if o.obj = obj then f o else o }

/-- The allowance of a context on a core. -/
def Core.allowOf (k : Core) (obj ctx : Nat) : Option Allowance := k.allow.find? fun a => a.obj == obj && a.ctx == ctx
def Core.amountOf (k : Core) (obj ctx : Nat) : Nat := match k.allowOf obj ctx with | some a => a.amount | none => 0
/-- Sets an allowance; one of zero is none. -/
def Core.setAllow (k : Core) (obj ctx amount maxc : Nat) : Core :=
  let rest := k.allow.filter fun a => !(a.obj == obj && a.ctx == ctx)
  { k with allow := if amount = 0 then rest else rest ++ [{ obj := obj, ctx := ctx, amount := amount, maxc := maxc }] }
/-- Adds to an allowance, with the parameters that come along. -/
def Core.addAllow (k : Core) (obj ctx amount maxc : Nat) : Core :=
  k.setAllow obj ctx (k.amountOf obj ctx + amount) maxc

/-- The slot of a waiting thread's group. -/
def State.slotOf (s : State) (r : AlReq) : Nat :=
  match s.findTeam r.core r.ctx r.vtid with
  | some t => (match t.groups[r.group]? with | some g => g.slot | none => 0)
  | none => 0

/-- Bytes 40 to 43 (R285). -/
def State.alHead (s : State) (q : List AlReq) : Nat :=
  match q with
  | [] => 0
  | r :: _ => 2 ^ 31 + r.ctx % 4096 * 2 ^ 19 + r.core % 256 * 2 ^ 11 + r.lane % 64 * 2 ^ 5 + s.slotOf r % 32

/-- Home's write of home and of the snapshot at the end of an operation; the region holds no object. -/
def State.alSnap (s : State) (o : AlObject) (home : Nat) : State :=
  if inCtl o.obj then s
  else
    let l := leafOf o.page
    let d := natBytes o.rounds 8 ++ natBytes (s.alHolders o.obj).length 4 ++ natBytes o.queue.length 4 ++
      natBytes (s.alHead o.queue) 4
    let (_, s1) := s.writeUnits l 0 (unitsOf l.grain o.obj 64)
    (s1.write8 o.obj home).writeBytes (o.obj + 24) d
/-- The object with home as given. -/
def State.alStore (s : State) (obj home : Nat) : State :=
  match s.alObj? obj with
  | some o => s.alSnap o home
  | none => s
/-- The parameters and home of an object lie in a lost granule (R321). -/
def State.alLost (s : State) (obj : Nat) : Bool := (s.lostIn obj 18).isSome

/-! ## Waiters (R295, R299) -/

/-- A queued thread's take is granted: it continues at the next word, wherever its bank is. -/
def Thread.altaken (th : Thread) : Thread :=
  match th.park with
  | some .altake => { th with park := none, pc := th.pc + 10 }
  | _ => th
def Team.altaken (r : AlReq) (t : Team) : Team :=
  if t.isNamed r.ctx r.vtid then t.updThread r.group r.lane Thread.altaken else t
def AlDone.unpark (r : AlReq) (x : AlDone) : AlDone :=
  if x.group = r.group ∧ x.lane = r.lane then { x with parked := false } else x

def State.alGrant (s : State) (r : AlReq) : State :=
  let s1 := s.updCore r.core fun k =>
    { k with
      teams := k.teams.map (Team.altaken r)
      alops := k.alops.map fun x =>
        if (match k.team? x.b.team with | some t => t.isNamed r.ctx r.vtid | none => false) then { x with acted := x.acted.map (AlDone.unpark r) } else x }
  { s1 with
    images := s1.images.map fun i => if i.core = r.core then { i with teams := i.teams.map (Team.altaken r) } else i
    alReplies := s1.alReplies.map fun x =>
      if x.2.1 = r ∧ x.2.2 = .queued then (x.1, x.2.1, .done 0 0) else x }

/-- The heads that home covers: what is left, those granted, those that wait on (R295). -/
def grantHeads : Nat → List AlReq → Nat × List AlReq × List AlReq
  | home, [] => (home, [], [])
  | home, r :: rest =>
    if r.n ≤ home then
      let (h, g, w) := grantHeads (home - r.n) rest
      (h, r :: g, w)
    else (home, [], r :: rest)

/-- Evaluation of the waiter queue; a recall round starts when it is not empty and some holder exists. A lost home is not judged
(log 83). -/
def State.alEvaluate (s : State) (obj : Nat) : State :=
  match s.alObj? obj with
  | none => s
  | some o =>
    if s.alLost obj then s
    else
      let (home, granted, rest) := grantHeads (s.read8 obj) o.queue
      let s1 := granted.foldl State.alGrant s
      let hs := s1.alHolders obj
      let s2 := s1.updAl obj fun o =>
        { o with queue := rest, raised := false
                 round := if o.round.isNone && !rest.isEmpty && !hs.isEmpty then some hs else o.round }
      s2.alStore obj home

/-- The evaluation that a plain write which raised home asks for. -/
def State.alSettle (s : State) (obj : Nat) : State :=
  match s.alObj? obj with
  | none => s
  | some o => if o.queue.isEmpty then s.updAl obj fun o => { o with raised := false } else s.alEvaluate obj

/-! ## Home's operations (R290, R292 to R294) -/

def State.alReply (s : State) (r : AlReq) (a : AlReply) : State := { s with alReplies := s.alReplies ++ [(r.core, r, a)] }

/-- Amounts of an object on their way between cores and home. -/
def State.alInFlight (s : State) (obj : Nat) : Nat :=
  sumList ((s.alReqs.filter fun r => r.obj == obj).map fun r => r.carried) +
    sumList (s.alReplies.map fun x => match x.2.2 with
      | .done g _ => if x.2.1.obj = obj then g else 0
      | .cause _ b => if x.2.1.obj = obj then b else 0
      | _ => 0)

/-- A take that found no waiter and, where it needed one, has had its recall round (R293). -/
def State.alTake (s : State) (r : AlReq) : State :=
  let p := s.alParams r.obj
  if s.alLost r.obj then s.alReply r (.cause 0xA1 0)
  else if p.home < r.n then
    match r.kind with
    | .takeW =>
      let s1 := s.updAl r.obj fun o => { o with queue := o.queue ++ [r] }
      (s1.alStore r.obj p.home).alReply r .queued
    | _ => (s.alStore r.obj p.home).alReply r .failed
  else
    let hs := (s.alHolders r.obj).length
    if p.hlim ≤ hs then (s.alStore r.obj (p.home - r.n)).alReply r (.done 0 p.maxc)
    else
      let g1 := Nat.max r.n (Nat.min p.maxc (p.home / (2 * (hs + 1))))
      let g := Nat.min (Nat.max g1 p.minc) p.home
      let s1 := s.updCore r.core fun k => k.addAllow r.obj r.ctx (g - r.n) p.maxc
      (s1.alStore r.obj (p.home - g)).alReply r (.done 0 p.maxc)

/-- A request of an object whose amounts an ALINIT has discarded. -/
def AlReq.void (obj : Nat) (r : AlReq) : AlReq := if r.obj = obj then { r with carried := 0 } else r
def AlReply.void : AlReply → AlReply
  | .done _ m => .done 0 m
  | .cause c _ => .cause c 0
  | x => x
/-- What was on its way between cores and home while an ALINIT's round was open is discarded with the rest (R290, R297). -/
def State.alVoid (s : State) (obj : Nat) : State :=
  { s with
    alReqs := s.alReqs.map (AlReq.void obj)
    alReplies := s.alReplies.map fun x => (x.1, x.2.1.void obj, if x.2.1.obj = obj then x.2.2.void else x.2.2)
    alObjects := s.alObjects.map fun o => if o.obj = obj then { o with queue := o.queue.map (AlReq.void obj) } else o
    cores := s.cores.map fun k => { k with alops := k.alops.map fun x => { x with lanes := x.lanes.map (AlReq.void obj) } } }

/-- Steps 3 and 4 of ALINIT. -/
def State.alInit (s0 : State) (r0 : AlReq) (v minc maxc hlim : Nat) : State :=
  let s := s0.alVoid r0.obj
  let r := r0.void r0.obj
  let s1 := if inCtl r.obj then s else
    s.writeBytes r.obj (natBytes v 8 ++ natBytes minc 4 ++ natBytes maxc 4 ++ natBytes hlim 1 ++ [0x80] ++ List.replicate 46 0)
  (((s1.updAl r.obj fun o => { o with rounds := 0 }).alStore r.obj v).alEvaluate r.obj).alReply r (.done 0 maxc)

/-- An ALREAD's event at the end of its round: the exact value, with the amounts on their way (R286, R297). -/
def State.alReadEvent (s : State) (r : AlReq) : State :=
  if s.alLost r.obj then s.alReply r (.cause 0xA1 0)
  else
    let (t, s1) := s.readEvent (leafOf r.page) r.obj r.clock
    s1.alReply r (.value (s1.read8 r.obj + s1.alInFlight r.obj) t)

def AlKind.isInit : AlKind → Bool
  | .init _ _ _ _ => true
  | _ => false
/-- The round is an ALINIT's, which discards what returns (R290). -/
def AlObject.discards (o : AlObject) : Bool := o.round.isSome && o.sharing.any fun r => r.kind.isInit

/-- The end of a recall round (R294). One of an ALINIT evaluates no waiter before V is stored (R290). -/
def State.alRoundEnd (s : State) (obj : Nat) : State :=
  match s.alObj? obj with
  | none => s
  | some o =>
    let s1 := (s.updAl obj fun o => { o with round := none, sharing := [], rounds := o.rounds + 1 }).alStore obj (s.read8 obj)
    match o.sharing with
    | [] => s1.alEvaluate obj
    | r :: _ => match r.kind with
      | .read => ((o.sharing.filter fun r => decide (r.kind = .read)).foldl State.alReadEvent s1).alEvaluate obj
      | .init v minc maxc hlim => s1.alInit r v minc maxc hlim
      | _ => (((o.sharing.filter fun r => decide (r.kind = .read)).foldl State.alReadEvent s1).alEvaluate obj).alTake r

/-- A recall round for a request; with no holder it ends at once. -/
def State.alRound (s : State) (r : AlReq) : State :=
  let hs := s.alHolders r.obj
  let s1 := s.updAl r.obj fun o => { o with round := some hs, sharing := [r] }
  if hs.isEmpty then s1.alRoundEnd r.obj else s1

/-- A take at home with its remainder (R293). -/
def State.alTakeRequest (s : State) (r : AlReq) : State :=
  let p := s.alParams r.obj
  if s.alLost r.obj then s.alReply r (.cause 0xA1 r.carried)
  else if !p.ok then s.alReply r (.cause 0x74 r.carried)
  else
    let home := p.home + r.carried
    match s.alObj? r.obj with
    | none => s
    | some o =>
      if o.queue.isEmpty then
        let s1 := s.alStore r.obj home
        if home < r.n then s1.alRound r else s1.alTake r
      else
        let s1 := match r.kind with
          | .takeW => (s.updAl r.obj fun o => { o with queue := o.queue ++ [r] }).alReply r .queued
          | _ => s.alReply r .failed
        let s2 := s1.alStore r.obj home
        if r.carried = 0 then s2 else s2.alEvaluate r.obj

/-- A give at home (R292). -/
def State.alGiveRequest (s : State) (r : AlReq) : State :=
  let p := s.alParams r.obj
  if s.alLost r.obj then s.alReply r (.cause 0xA1 r.carried)
  else if !p.ok then s.alReply r (.cause 0x74 r.carried)
  else if 2 ^ 63 ≤ p.home + r.carried + r.n then s.alReply r (.cause 0x77 r.carried)
  else ((s.alStore r.obj (p.home + r.carried + r.n)).alEvaluate r.obj).alReply r (.done 0 p.maxc)

/-- What home does with a request. -/
def State.alHome (s : State) (r : AlReq) : State :=
  let s1 := s.alOpen r.obj r.page
  match r.kind with
  | .init _ _ _ _ => s1.alRound r
  | .take => s1.alTakeRequest r
  | .takeT => s1.alTakeRequest r
  | .takeW => s1.alTakeRequest r
  | .give => s1.alGiveRequest r
  | .read =>
    if s1.alLost r.obj then s1.alReply r (.cause 0xA1 0)
    else if (s1.alParams r.obj).ok then s1.alRound r else s1.alReply r (.cause 0x74 0)
  | .peek =>
    if s1.alLost r.obj then s1.alReply r (.cause 0xA1 0)
    else if (s1.alParams r.obj).ok then
      (s1.alStore r.obj (s1.read8 r.obj)).alReply r (.value (s1.read8 r.obj + (s1.core r.core).amountOf r.obj r.ctx) r.clock)
    else s1.alReply r (.cause 0x74 0)

/-- The requests that home can handle: the first of its object, whose object has no round in progress. -/
def State.alReady (s : State) (r : AlReq) : Bool :=
  (match s.alObj? r.obj with
   | some o => o.round.isNone
   | none => true) &&
  (match s.alReqs.find? fun x => x.obj == r.obj with
   | some x => decide (x = r)
   | none => false)
/-- An ALREAD shares a round that an ALINIT has not started (R294). -/
def State.alShares (s : State) (r : AlReq) : Bool :=
  decide (r.kind = .read) && match s.alObj? r.obj with
    | some o => o.round.isSome && !o.discards && !s.alLost r.obj && (s.alParams r.obj).ok
    | none => false

/-- A plain write has raised the home of an object, which has no round in progress. -/
def AlObject.unsettled (o : AlObject) : Bool := o.raised && o.round.isNone
/-- Home takes the first request that p admits; a line that the host holds is invalidated before home writes it. What a plain write
has brought is evaluated first (R295). -/
def State.alServe (s : State) (p : AlReq → Bool) : State :=
  match s.alReqs.find? fun r => p r && (s.alReady r || s.alShares r) with
  | none => s
  | some r =>
    match s.awaitRound (leafOf r.page) r.obj 64 .device with
    | some w => w
    | none =>
      let s1 := { s with alReqs := s.alReqs.erase r }
      let s2 :=
        if s.alShares r then s1.updAl r.obj fun o => { o with sharing := o.sharing ++ [r] }
        else if (match s.alObj? r.obj with | some o => o.unsettled | none => false) then s.alSettle r.obj
        else s1.alHome r
      s2.endRounds .device r.obj 64

def isGive (r : AlReq) : Bool := decide (r.kind = .give)

/-- Home handles a request other than a give (R293; ALINIT, ALREAD and ALPEEK travel the same way, log 17). -/
def execAllowanceTakeRequest (s : State) : Res := .next (s.alServe fun r => !isGive r)

/-- Home handles a give; with none, a plain write that raised home is an amount that reached it (R295). -/
def execAllowanceHomeGive (s : State) : Res :=
  if s.alReqs.any fun r => isGive r && s.alReady r then .next (s.alServe isGive)
  else
    match s.alObjects.find? AlObject.unsettled with
    | some o =>
      match s.awaitRound (leafOf o.page) o.obj 64 .device with
      | some w => .next w
      | none => .next ((s.alSettle o.obj).endRounds .device o.obj 64)
    | none => .next s

/-- The allowances of some contexts on a core return to home (R294, R298): an answer to a round in progress, or an amount
that reaches home. -/
def State.alReturn (s : State) (c obj : Nat) (ctxs : Nat → Bool) : State :=
  let mine (a : Allowance) : Bool := a.obj == obj && ctxs a.ctx
  let sum := sumList (((s.core c).allow.filter mine).map fun a => a.amount)
  let s1 := s.updCore c fun k => { k with allow := k.allow.filter fun a => !mine a }
  match s1.alObj? obj with
  | none => s1
  | some o =>
    let left := o.round.map fun l => l.filter fun h => !(h.1 == c && ctxs h.2)
    let s2 := (s1.updAl obj fun o => { o with round := left }).alStore obj (s1.read8 obj + if o.discards then 0 else sum)
    match o.round, left with
    | some _, some [] => s2.alRoundEnd obj
    | some _, _ => s2
    | none, _ => if sum = 0 then s2 else s2.alEvaluate obj

/-- A core answers a recall (R294); one that moves answers after the move (R298). -/
def execRecallAnswer (core obj : Nat) (s : State) : Res :=
  match s.alObj? obj with
  | none => .next s
  | some o =>
    if (match o.round with | some l => l.any fun h => h.1 == core | none => false) && !s.movingCore core then
      match s.awaitRound (leafOf o.page) obj 64 .device with
      | some w => .next w
      | none => .next ((s.alReturn core obj fun _ => true).endRounds .device obj 64)
    else .next s

/-- The allowances of a context leave a core (R298). -/
def State.returnCtx (s : State) (c ctx : Nat) : State :=
  (((s.core c).allow.filter fun a => a.ctx == ctx).map fun a => a.obj).foldl
    (fun s obj => s.alReturn c obj fun x => x == ctx) s
/-- The last team of a context that leaves a core takes the context's allowances home (R155, R298). -/
def State.lastLeft (s : State) (c ctx : Nat) : State :=
  if (s.teamsOf c).any fun x => x.ctx == ctx then s else s.returnCtx c ctx
/-- A team leaves its core. -/
def State.departTeam (s : State) (c id : Nat) : State :=
  match s.team? c id with
  | none => s
  | some t => (s.removeTeam c id).lastLeft c t.ctx
/-- A team in an image leaves its core. -/
def State.departSpilled (s : State) (c : Nat) (t : Team) : State := (s.removeSpilled c t).lastLeft c t.ctx

/-! ## The core's part (R289, R291, R292) -/

def alBool (dests : List RName) (v : Bool) : List RWrite :=
  match dests with
  | [.p n] => [.p n v]
  | _ => []
def alPair (dests : List RName) (v : Nat) : List RWrite :=
  match dests with
  | .g n :: _ => pairWrites n (BitVec.ofNat 64 v)
  | _ => []

inductive AlNow where
  | acted (s : State) (ws : List RWrite)
  | send (r : AlReq) (s : State)
  | busy
  | fail (cause : Nat)
  deriving DecidableEq, Repr

/-- Another operation of the same core, object and context is on its way to home. -/
def State.alBusy (s : State) (r : AlReq) : Bool :=
  (s.core r.core).alops.any fun x => x.sent && (match x.lanes with
    | y :: _ => y.obj == r.obj && y.ctx == r.ctx
    | [] => false)

/-- A lane's operation at the core: completed there, or sent to home. -/
def State.alAct (s : State) (dests : List RName) (r : AlReq) : AlNow :=
  let k := s.core r.core
  let a := k.amountOf r.obj r.ctx
  let maxc := match k.allowOf r.obj r.ctx with
    | some x => x.maxc
    | none => 0
  let drop := s.updCore r.core fun k => k.setAllow r.obj r.ctx 0 0
  match r.kind with
  | .init v minc maxc hlim =>
    if ({ home := v, minc := minc, maxc := maxc, hlim := hlim, valid := true } : AlParams).fit then
      (if s.alBusy r then .busy else .send r s)
    else .fail 0x74
  | .give =>
    if 0 < a ∧ a + r.n ≤ maxc then .acted (s.updCore r.core fun k => k.setAllow r.obj r.ctx (a + r.n) maxc) []
    else if s.alBusy r then .busy
    else .send { r with carried := a, maxc := maxc } drop
  | .read => if s.alBusy r then .busy else .send r s
  | .peek => if s.alBusy r then .busy else .send r s
  | _ =>
    if r.n ≤ a then
      .acted (s.updCore r.core fun k => k.setAllow r.obj r.ctx (a - r.n) maxc) (alBool dests true)
    else if s.alBusy r then .busy
    else .send { r with carried := a, maxc := maxc } drop

/-- The bundle with its lanes still to act goes back to the core's list. -/
def State.alKeep (s : State) (x : AlBundle) : State :=
  s.updCore x.b.core fun k => { k with alops := (k.alops.filter fun y => decide (y.b ≠ x.b)) ++ [x] }
def State.alForget (s : State) (x : AlBundle) : State :=
  s.updCore x.b.core fun k => { k with alops := k.alops.filter fun y => decide (y.b ≠ x.b) }

/-- A lane placed in the queue whose group has stopped meanwhile: it executes the ALTAKE.w again (R299). -/
def AlDone.back (t : Team) (x : AlDone) : Bool :=
  x.parked && (match t.halt with | some h => h.stops.getD x.group false | none => false)

/-- The threads of the bundle that have acted issue; the members given are those that move on. -/
def State.alCommit (s : State) (x : AlBundle) (members : List (Nat × Nat)) : State :=
  match s.team? x.b.core x.b.team with
  | none => s
  | some t =>
    let stay := x.acted.filter (AlDone.back t)
    let ms := members.filter fun m => !(stay.any fun y => y.group == m.1 && y.lane == m.2)
    let outs := (x.acted.filter fun y => !y.back t).map fun y =>
      (y.group, y.lane, ({ writes := y.writes, clock := y.clock, park := if y.parked then some .altake else none } : Out))
    let s1 := s.commit x.h { dests := x.dests } { x.b with members := ms } outs
    { s1 with alObjects := s1.alObjects.map fun o => { o with queue := o.queue.filter fun q =>
        !(q.core == x.b.core && t.isNamed q.ctx q.vtid && stay.any fun y => y.group == q.group && y.lane == q.lane) } }

/-- A lane meets a cause at home: the lanes below stand, the others stay at the instruction (R289). -/
def State.alFail (s : State) (x : AlBundle) (r : AlReq) (cause : Nat) : State :=
  let below := x.b.members.filter fun m => decide (m.2 < r.lane)
  let s1 := (s.alForget x).alCommit x below
  let s2 := s1.updTeam x.b.core x.b.team fun t => t.mapThreads fun g l th =>
    if isMember x.b g l && !below.contains (g, l) then { th with hold := none, awaits := [] } else th
  s2.takeTrap x.b r.group r.lane { cause := cause, addr := r.va, extra := if cause = 0xA1 then x.b.pc.toNat else 0 }

/-- The lanes act in order until one has to wait for home. -/
def State.alRun (x : AlBundle) : List AlReq → List AlDone → State → State
  | [], acted, s => let y := { x with lanes := [], acted := acted }; (s.alForget y).alCommit y y.b.members
  | r :: rest, acted, s =>
    match s.alAct x.dests r with
    | .acted s1 ws =>
      State.alRun x rest (acted ++ [{ group := r.group, lane := r.lane, writes := ws, clock := 0, parked := false }]) s1
    | .send r1 s1 =>
      let r2 := { r1 with clock := Nat.max r1.clock (maxList (acted.map fun y => y.clock)) }
      { s1.alKeep { x with lanes := r2 :: rest, acted := acted, sent := true } with alReqs := s1.alReqs ++ [r2] }
    | .busy => s.alKeep { x with lanes := r :: rest, acted := acted, sent := false }
    | .fail c => s.alFail { x with lanes := r :: rest, acted := acted } r c

/-- The bundle of an allowance instruction: every lane is held until all have acted. -/
def alStart (dests : List RName) (req : Env → AlReq) (h : Hdr) (b : Bundle) (ps : List Env) (s : State) : State :=
  let s1 := ((s.holdBundle b .allowance).updTeam b.core b.team fun t => t.mapThreads fun g l th =>
    if ps.any fun e => e.g == g && e.l == l then { th with awaits := dests } else th).countSkid b
  State.alRun { h := h, b := b, dests := dests, lanes := [], acted := [], sent := false } ((ps.map (Env.at · (s.slotStart b))).map req) [] s1

/-- The bundles of a core that wait for another's operation try again. -/
def State.alRetry (s : State) (c : Nat) : State :=
  ((s.core c).alops.filter fun x => !x.sent).foldl (fun s x => State.alRun x x.lanes x.acted s) s

/-- Home's reply reaches the core (R289). -/
def State.alAnswer (s : State) (x : AlBundle) (r : AlReq) (a : AlReply) : State :=
  let act (s : State) (ws : List RWrite) (clock : Nat) (parked : Bool) : State :=
    State.alRun x (x.lanes.drop 1)
      (x.acted ++ [{ group := r.group, lane := r.lane, writes := ws, clock := clock, parked := parked }]) (s.alForget x)
  match a with
  | .done _ _ => act s (match r.kind with | .takeT => alBool x.dests true | _ => []) 0 false
  | .value v t => act s (alPair x.dests v) t false
  | .queued => act s [] 0 true
  | .failed => match r.kind with
    | .takeT => act s (alBool x.dests false) 0 false
    | _ => s.alFail x r 0x76
  | .cause c back =>
    (s.updCore r.core fun k => k.addAllow r.obj r.ctx back (match k.allowOf r.obj r.ctx with | some y => y.maxc | none => r.maxc)).alFail
      x r c

def execAllowanceReply (core : Nat) (s : State) : Res :=
  match s.alReplies.find? fun x => x.1 == core with
  | none => .next s
  | some e =>
    let s1 := { s with alReplies := s.alReplies.erase e }
    match (s1.core core).alops.find? fun x => x.sent && x.lanes.headD e.2.1 == e.2.1 && !x.lanes.isEmpty with
    | none => .next s1
    | some x => .next ((s1.alAnswer x e.2.1 e.2.2).alRetry core)

/-! ## The instructions (R288) -/

/-- The checks of an allowance instruction at issue. -/
def Env.chkAl (e : Env) (a : Except Trap Ea) (write : Bool) : Chk :=
  match a with
  | .error t => .trap t
  | .ok a =>
    if (e.window a).isSome then .trap { cause := 0x75, addr := a.tagged }
    else
      match e.s.checkPage e.b.core e.t.ctx e.t.sup a.addr write a.ro with
      | .trap c => .trap { cause := c, addr := a.tagged, extra := if c = 0xA1 then e.b.pc.toNat else 0 }
      | .miss p => .miss [p]
      | .ok l =>
        if e.s.tagsDiffer e.b.core (l.phys a.addr) 64 e.th.clock false a.tag then .trap { cause := 0x28, addr := a.tagged }
        else if (e.s.clsOf l).toNat < 2 then .trap { cause := 0x75, addr := a.tagged }
        else .ok

/-- The request a lane makes. -/
def Env.alReq (e : Env) (a : Except Trap Ea) (kind : AlKind) (n : Nat) : AlReq :=
  let x : Ea := match a with
    | .ok y => y
    | .error _ => { scratch := false, addr := 0, tag := 0, ro := false, xn := false }
  let none' : Xlat := { ctx := e.t.ctx, va := 0, size := 1, leaf := 0 }
  let page := (((e.s.core e.b.core).tlb ++ (e.s.die (e.s.dieOf e.b.core)).tlb).find? fun y => y.covers e.t.ctx x.addr).getD none'
  { core := e.b.core, team := e.b.team, vtid := e.t.vtid, group := e.g, lane := e.l, ctx := e.t.ctx, obj := (leafOf page).phys x.addr
    va := x.tagged, page := page, kind := kind, n := n, carried := 0, clock := e.th.clock }

/-- An allowance instruction over its registers, those that name its address, its address and its request. -/
def alSem (u : Uses) (names : List RName) (ea : Env → Except Trap Ea) (write : Bool) (kind : Env → AlKind) (n : Env → Nat) : Sem :=
  { uses := u
    needs := names
    chk := fun e => e.chkAl (ea e) write
    act := fun _ s => (s, {})
    whole := some (alStart u.dests fun e => e.alReq (ea e) (kind e) (n e)) }

def execAlinit (h : Hdr) (d : BitVec 8) (m : MemArg) (s : State) : Res :=
  .next (runBundle h (alSem { reads := memNames m ++ tupleNames d.toNat 5 } (memNames m) (fun e => e.ea m 64) true
    (fun e => .init (e.th.pair d.toNat).toNat (e.th.g (d.toNat + 2)).toNat (e.th.g (d.toNat + 3)).toNat
      (e.th.g (d.toNat + 4)).toNat) fun _ => 0) s)

/-- The three forms of ALTAKE. -/
def takeSem (d : BitVec 8) (m : MemArg10) (dests : List RName) (kind : AlKind) : Sem :=
  alSem { reads := memNames10 m ++ [.g d.toNat], dests := dests } (memNames10 m) (fun e => e.ea10 m 64) true (fun _ => kind)
    fun e => (e.th.g d.toNat).toNat

def execAltake (h : Hdr) (d : BitVec 8) (m : MemArg10) (s : State) : Res := .next (runBundle h (takeSem d m [] .take) s)
def execAltakeT (h : Hdr) (pq : BitVec 3) (d : BitVec 8) (m : MemArg10) (s : State) : Res :=
  .next (runBundle h (takeSem d m (predDst pq) .takeT) s)
def execAltakeW (h : Hdr) (d : BitVec 8) (m : MemArg10) (s : State) : Res :=
  .next (runBundle h (takeSem d m [] .takeW) s)

def execAlgive (h : Hdr) (d : BitVec 8) (m : MemArg) (s : State) : Res :=
  .next (runBundle h (alSem { reads := memNames m ++ [.g d.toNat] } (memNames m) (fun e => e.ea m 64) true (fun _ => .give)
    fun e => (e.th.g d.toNat).toNat) s)

def execAlread (h : Hdr) (d : BitVec 8) (m : MemArg) (s : State) : Res :=
  .next (runBundle h (alSem { reads := memNames m, dests := pairNames d.toNat } (memNames m) (fun e => e.ea m 64) true (fun _ => .read)
    fun _ => 0) s)
def execAlpeek (h : Hdr) (d : BitVec 8) (m : MemArg) (s : State) : Res :=
  .next (runBundle h (alSem { reads := memNames m, dests := pairNames d.toNat } (memNames m) (fun e => e.ea m 64) false (fun _ => .peek)
    fun _ => 0) s)

end Sys2Proof.Machine
end

