-- ==== Sys2Proof/Machine/Copy.lean ====
section
/-! DEFINITION. Copy requests as data, their checks, and the meaning of CPYK (R187 to R193, R239, R240). -/

namespace Sys2Proof.Machine

/-! ## The record (R188, R189) -/

structure CDim where
  dstr : Int
  sstr : Int
  ext : Nat
  deriving DecidableEq, Repr

structure CView where
  kind : Nat
  nd : Nat
  es : Nat
  pri : Nat
  ssp : Bool
  dsp : Bool
  dpeer : Bool
  sty : Nat
  dty : Nat
  rnd : Nat
  bty : Nat
  efmt : Nat
  tsp : Bool
  asp : Bool
  splane : Int
  src : Nat
  dst : Nat
  arr : Nat
  tl : Nat
  dims : List CDim
  side : Nat
  deriving DecidableEq, Repr

def cdim (x : Nat) : CDim := { dstr := sgn 20 (fld x 36 20), sstr := sgn 20 (fld x 16 20), ext := fld x 0 16 }

def cview (b : List Byte) : CView :=
  let u (o : Nat) : Nat := (b.getD o 0).toNat
  { kind := fld (u 0) 4 4, nd := fld (u 0) 0 4, es := fld (u 1) 5 3, pri := fld (u 1) 3 2, ssp := bitOf (u 1) 2
    dsp := bitOf (u 1) 1, dpeer := bitOf (u 1) 0, sty := fld (u 2) 4 4, dty := fld (u 2) 0 4, rnd := fld (u 3) 6 2
    bty := fld (u 3) 4 2, efmt := u 4, tsp := bitOf (u 5) 1, asp := bitOf (u 5) 0, splane := sgn 16 (sliceNat b 6 2)
    src := sliceNat b 8 8, dst := sliceNat b 16 8, arr := sliceNat b 24 8, tl := sliceNat b 32 8
    dims := (List.range (fld (u 0) 0 4 + 1)).map fun j => cdim (sliceNat b (40 + 7 * j) 7), side := sliceNat b 124 4 }

/-- The signed side field (R188). -/
def CView.sideI (v : CView) : Int := sgn 32 v.side
def CView.isConv (v : CView) : Bool := v.kind == 2
def CView.isTerm (v : CView) : Bool := v.kind == 3 || v.kind == 4
/-- A .b4 side of a converting copy. -/
def CView.sb4 (v : CView) : Bool := v.isConv && v.sty == 13
def CView.db4 (v : CView) : Bool := v.isConv && v.dty == 13
/-- A term kind with .b4 lines. -/
def CView.tb4 (v : CView) : Bool := v.isTerm && v.efmt == 0x0C

/-- Element bits of a side. -/
def sideBits (v : CView) (ty : Nat) : Nat :=
  if v.isConv then (match cvtTyOf (BitVec.ofNat 4 ty) with | some t => cvtWidth t | none => 4)
  else if v.isTerm then 1024 else if v.kind == 5 then 8 else 8 * 2 ^ v.es
def CView.sbits (v : CView) : Nat := sideBits v v.sty
def CView.dbits (v : CView) : Nat := sideBits v v.dty

/-- Index vectors of a request, and the elements of the pos-th vector on each side (R189). -/
def CView.total (v : CView) : Nat := v.dims.foldl (fun n d => n * (d.ext + 1)) 1
def vecAt (str : CDim → Int) : List CDim → Nat → Int
  | [], _ => 0
  | d :: r, pos => (pos % (d.ext + 1) : Nat) * str d + vecAt str r (pos / (d.ext + 1))
def CView.selem (v : CView) (pos : Nat) : Int := vecAt CDim.sstr v.dims pos
def CView.delem (v : CView) (pos : Nat) : Int := vecAt CDim.dstr v.dims pos
def loElem (str : CDim → Int) (l : List CDim) : Int := l.foldl (fun a d => a + min 0 (d.ext * str d)) 0
def hiElem (str : CDim → Int) (l : List CDim) : Int := l.foldl (fun a d => a + max 0 (d.ext * str d)) 0

/-- Byte offsets of a range from a side's pointer: [lo, hi). -/
abbrev Span := Int × Int

/-- The byte range of elements lo to hi of a width, lo first byte, hi last byte; the whole blocks that they lie in. -/
def elemSpan (bits : Nat) (lo hi : Int) : Span := (lo * bits / 8, (hi * bits + bits + 7) / 8)
def blockSpan4 (lo hi : Int) : Span := (lo / 32 * 16, (hi / 32 + 1) * 16)
def planeSpan (side : Int) (lo hi : Int) : Span := (side + lo / 32, side + hi / 32 + 1)

/-- Bytes of the dense map (R190). -/
def CView.mapBytes (v : CView) : Int := ((v.total + 7) / 8 : Nat)

/-- The footprint of the source side, as offsets from src (R189). -/
def CView.sfoot (v : CView) : List Span :=
  let lo := loElem CDim.sstr v.dims
  let hi := hiElem CDim.sstr v.dims
  if v.kind == 5 then [(0, v.side)]
  else elemSpan v.sbits lo hi ::
    ((if v.sb4 then [planeSpan v.sideI lo hi] else []) ++
     (if v.tb4 && v.kind == 3 then [(128 * v.splane, 128 * v.splane + 8 * v.total)] else []))
/-- The footprint of the destination side, as offsets from dst. -/
def CView.dfoot (v : CView) : List Span :=
  let lo := loElem CDim.dstr v.dims
  let hi := hiElem CDim.dstr v.dims
  if v.kind == 5 then [(0, v.total)]
  else if v.db4 then [elemSpan 4 lo hi, planeSpan v.sideI lo hi]
  else elemSpan v.dbits lo hi ::
    ((if v.isTerm then [(v.sideI, v.sideI + v.mapBytes)] else []) ++
     (if v.tb4 && v.kind == 4 then [(128 * v.splane, 128 * v.splane + 8 * v.total)] else []))

/-- The base of a side: an offset or a virtual address. -/
def sideBase (sp : Bool) (ptr : Nat) : Nat := if sp then fld ptr 0 24 else fld ptr 0 56
def CView.hasArr (v : CView) : Bool := v.asp || v.arr != 0
def CView.hasTl (v : CView) : Bool := v.tsp || v.tl != 0

/-! ## Malformed requests (R190, R192, R239) -/

/-- Stride 1 in dimension 0 and rows that begin at multiples of 32 (R190). -/
def b4Strides (str : CDim → Int) (l : List CDim) : Bool :=
  match l with
  | [] => false
  | d :: r => str d == 1 && r.all fun x => x.ext == 0 || str x % 32 == 0

/-- Codes, and the fields that a kind leaves unused, are as R190 and R192 require. -/
def kindOk (b : List Byte) (v : CView) : Bool :=
  let d0 := v.dims.headD { dstr := 0, sstr := 0, ext := 0 }
  decide (v.kind < 6) && decide (v.nd < 12) && decide (v.es < 5) &&
  fld (sliceNat b 3 1) 0 4 == 0 && fld (sliceNat b 5 1) 2 6 == 0 &&
  (List.range 12).all (fun j => decide (j ≤ v.nd) || sliceNat b (40 + 7 * j) 7 == 0) &&
  (v.isConv || (v.sty == 0 && v.dty == 0 && v.rnd == 0)) && (v.db4 || v.bty == 0) &&
  (v.isTerm || v.efmt == 0) && (v.tb4 || v.splane == 0) &&
  (v.sb4 || v.db4 || v.isTerm || v.kind == 5 || v.dpeer || v.side == 0) &&
  (match v.kind with
   | 0 => d0.sstr == 1 && d0.dstr == 1
   | 1 => decide (v.es ≤ 3)
   | 2 => v.es == 0 && decide (v.sty ≤ 13) && decide (v.dty ≤ 13) && !(v.sb4 && v.db4) &&
      (!v.sb4 || b4Strides CDim.sstr v.dims) && (!v.db4 || b4Strides CDim.dstr v.dims)
   | 5 => v.nd == 0 && v.es == 0 && d0.sstr == 1 && d0.dstr == 1 && v.side != 0
   | _ => v.es == 0 && (matFmt v.efmt).isSome && v.src % 128 == 0 && v.dst % 128 == 0)

def pointerOk (sp : Bool) (x : Nat) : Bool := if sp then x / 2 ^ 24 == 0 else fld x 60 4 == 0

/-- The peer's conditions: n cores in the cluster, this core's rank. -/
def peerOk (v : CView) (n rank : Nat) : Bool :=
  !v.dpeer || (v.dsp && v.side / 16 == 0 && decide (2 ≤ n) && decide (v.side < n) && v.side != rank &&
    decide (v.kind ≤ 2) && !v.sb4 && !v.db4)

def spansIn (base : Nat) (l : List Span) (limit : Nat) : Bool :=
  l.all fun x => decide (0 ≤ (base : Int) + x.1) && decide ((base : Int) + x.2 ≤ limit)

/-- The request is well formed (R192). -/
def recordOk (b : List Byte) (n rank : Nat) : Bool :=
  let v := cview b
  kindOk b v && pointerOk v.ssp v.src && pointerOk v.dsp v.dst && pointerOk v.asp v.arr && pointerOk v.tsp v.tl &&
  v.arr % 8 == 0 && v.tl % 8 == 0 && peerOk v n rank &&
  spansIn (sideBase v.ssp v.src) v.sfoot (2 ^ 56) && spansIn (sideBase v.dsp v.dst) v.dfoot (2 ^ 56) &&
  decide (v.total * v.dbits ≤ 8 * 2 ^ 40)

/-- The scratchpad ranges of a request lie in a team's scratchpad and its peer's (R191 check 4, R240). -/
def scratchOk (v : CView) (own peer : Nat) : Bool :=
  (!v.ssp || spansIn (sideBase true v.src) v.sfoot own) &&
  (!v.dsp || spansIn (sideBase true v.dst) v.dfoot (if v.dpeer then peer else own)) &&
  (!v.asp || decide (v.arr + 8 ≤ (if v.dpeer then peer else own))) && (!v.tsp || decide (v.tl + 8 ≤ own))

def spansMeet (a : Nat) (l : List Span) (b : Nat) (m : List Span) : Bool :=
  l.any fun x => m.any fun y =>
    decide ((a : Int) + x.1 < (b : Int) + y.2) && decide ((b : Int) + y.1 < (a : Int) + x.2)

/-- Source and destination share a byte of one space (R193). -/
def CView.overlaps (v : CView) : Bool :=
  v.ssp == v.dsp && !v.dpeer && spansMeet (sideBase v.ssp v.src) v.sfoot (sideBase v.dsp v.dst) v.dfoot

/-- The scratchpad lines of spans. -/
def spanLines (base : Nat) (l : List Span) : List Nat :=
  l.foldl (fun acc x =>
    let a := ((base : Int) + x.1).toNat / 128
    let z := ((base : Int) + x.2 - 1).toNat / 128
    ((List.range (z + 1 - a)).map (a + ·)).foldl insertOnce acc) []

/-! ## CPYK (R191) -/

/-- Offset of the record of a thread. -/
def recordOff (t : Team) (g l : Nat) (a : Src) : Nat :=
  match a with
  | .g r => (match t.thread? g l with | some th => fld (th.g r.toNat).toNat 0 24 | none => 0)
  | .k r => (match t.groups[g]? with | some gr => fld (gr.kreg r.toNat).toNat 0 24 | none => 0)

/-- Step 1: alignment, then range. -/
def offFault (t : Team) (o : Nat) : Option Trap :=
  if o % 128 ≠ 0 then some { cause := 0x24, addr := o }
  else if t.bytes < o + 128 then some { cause := 0x23, addr := o }
  else none

/-- The peer that a request names. -/
def State.copyPeer (s : State) (t : Team) (v : CView) : Option (Nat × Team) :=
  if v.dpeer then s.peerTeam t v.side else none

/-- Checks 3 to 5 on a record. -/
def Env.recordCauses (e : Env) (b : List Byte) : Option Trap :=
  let v := cview b
  let n := e.s.clusterSize e.t
  if !recordOk b n (e.s.rankOf e.t e.b.core) then some { cause := 0x80 }
  else
    let peer := match e.s.copyPeer e.t v with
      | some p => p.2.bytes
      | none => 0
    if !scratchOk v e.t.bytes peer then some { cause := 0x23 }
    else if v.kind != 0 && v.overlaps then some { cause := 0x81 }
    else none

def Core.engine (k : Core) (ec : Nat) : Engine := k.engines.getD ec Engine.reset
def Engine.free (e : Engine) : Nat := Config.engineQueue - e.queue.length

/-- The checks of one kicking thread: its place among the kicking threads decides whether a .t form judges it. -/
def Env.chkCopy (e : Env) (t : Bool) (ec : Nat) (a : Src) : Chk :=
  let o := recordOff e.t e.g e.l a
  match offFault e.t o with
  | some x => .trap x
  | none =>
    if !(e.t.line (o / 128)).present then .line (o / 128)
    else if e.t.lostIn o 128 then .trap { cause := 0xA1, addr := o, extra := e.b.pc.toNat }
    else if e.crew.any fun m =>
        (match offFault e.t (recordOff e.t m.1 m.2 a) with | some _ => true | none => false) ||
          !(e.t.line (recordOff e.t m.1 m.2 a / 128)).present then .ok
    else
      let free := ((e.s.core e.b.core).engine ec).free
      if !t && decide (free < e.crew.length) then .later (.engine ec e.crew.length)
      else if t && decide (free ≤ (e.crew.findIdx? fun m => m.1 == e.g && m.2 == e.l).getD 0) then .ok
      else
        match e.recordCauses (e.t.scratchRead o 128) with
        | some x => .trap x
        | none => .ok

/-- A thread's kick: the record is read, the destination lines become pending, the operation is queued. -/
def Env.kick (e : Env) (ec : Nat) (a : Src) (s : State) : State × Nat :=
  match s.team? e.b.core e.b.team with
  | none => (s, 0)
  | some t =>
    let o := recordOff e.t e.g e.l a
    let rec' := t.scratchRead o 128
    let v := cview rec'
    let (k, t1) := t.scratchEvent o 128 e.th.clock false
    let s1 := s.updTeam e.b.core e.b.team fun _ => t1
    let peer := (s.copyPeer t v).map fun p => (p.1, p.2.vtid)
    let dest := peer.getD (e.b.core, t.vtid)
    let lines := if v.dsp then spanLines (sideBase true v.dst) v.dfoot else []
    let s2 := s1.updNamed dest.1 t.ctx dest.2 fun t =>
      lines.foldl (fun t i => t.setLine i { t.line i with pending := (t.line i).pending + 1 }) t
    let op : CopyOp :=
      { id := s.nextOp, record := rec', team := e.b.team, vtid := t.vtid, group := e.g, lane := e.l, slot := e.gr.slot, desc := t.desc
        ctx := t.ctx, teamIndex := t.index, grid := t.grid, sup := t.sup, recoff := o, peer := peer, pos := 0, srcPos := 0
        delivered := 0, counted := 0, ended := false, cancelled := false, lines := lines, saved := [], vals := []
        fab := none, fetched := [], acked := [], adding := none, clock := k }
    ({ s2.updEngine e.b.core ec fun x => { x with queue := x.queue ++ [op] } with nextOp := s.nextOp + 1 }, k)

def execCpyk (h : Hdr) (t : Bool) (d : BitVec 3) (ec : BitVec 2) (a : Src) (s : State) : Res :=
  .next (runBundle h
    { uses := { reads := names32 a, dests := if t then predDst d else [] }
      chk := fun e => e.chkCopy t ec.toNat a
      act := fun e s =>
        if ((s.core e.b.core).engine ec.toNat).free = 0 then (s, { writes := if t then writeP d false else [] })
        else
          let (s1, k) := e.kick ec.toNat a s
          (s1, { writes := if t then writeP d true else [], clock := k }) } s)

end Sys2Proof.Machine
end

