-- ==== Sys2Proof/Machine/Engine.lean ====
section
/-! DEFINITION. The events of the copy engine: elements, tokens, counter additions, retirement, restart and cancellation, and
what it aims at a relocating scratchpad (R189, R190, R193 to R200, R268 to R274, R348, R384). -/

namespace Sys2Proof.Machine

/-! ## Aiming at a scratchpad (R348) -/

/-- What is aimed at the scratchpad of a core's team takes effect there: the time of its event. Bytes beyond the scratchpad are not
written. -/
def State.applyAimed (s : State) (c ctx vtid : Nat) : Aimed → Nat × State
  | .write off d k =>
    match s.findTeam c ctx vtid with
    | none => (k, s)
    | some t =>
      let d := d.take (t.bytes - off)
      if d.isEmpty then (k, s)
      else
        let (x, t1) := t.scratchEvent off d.length k true
        (x, s.updNamed c ctx vtid fun _ => t1.scratchWrite off d)
  | .add off amount k => s.countScratch c ctx vtid off amount k
  | .lines l => (0, s.updNamed c ctx vtid fun t => l.foldl (fun t i => t.setLine i { t.line i with pending := (t.line i).pending - 1 }) t)

/-- A forwarding entry of a core is open: its image moves, or items wait in it. -/
def State.forwarding (s : State) (c : Nat) : Bool :=
  s.relocs.any fun r => r.core == c && (r.step == 4 || !r.held.isEmpty)
/-- An item for a scratchpad, by core and virtual team identifier, is applied, or held while its core moves: the time of its event. -/
def State.aim (s : State) (o : CopyOp) (dest : Nat × Nat) (a : Aimed) : Nat × State :=
  if s.forwarding dest.1 then
    (o.clock, { s with relocs := s.relocs.map fun r =>
        if r.core = dest.1 ∧ (r.step = 4 ∨ r.held ≠ []) then
          { r with held := r.held ++ [{ op := o.id, ctx := o.ctx, vtid := dest.2, grid := o.grid, what := a }] } else r })
  else s.applyAimed dest.1 o.ctx dest.2 a
def State.heldOfOp (s : State) (op : Nat) : Bool := s.relocs.any fun r => r.held.any fun h => h.op == op
/-- An event of an operation has a time: the operation's clock is at least that, and so is what its grid's completion follows. -/
def State.raiseOp (s : State) (op grid k : Nat) : State :=
  { s with
    cores := s.cores.map fun c => { c with engines := Core.engines c |>.map fun e =>
        { e with queue := e.queue.map fun o => if o.id = op then { o with clock := Nat.max o.clock k } else o } }
    grids := s.grids.map fun g => if g.id = grid then { g with clock := Nat.max g.clock k } else g }
/-- The clock of an operation. -/
def State.opClock (s : State) (op : Nat) : Nat :=
  maxList (s.cores.map fun c => maxList (c.engines.map fun e => maxList ((e.queue.filter fun o => o.id == op).map fun o => o.clock)))
def Aimed.raise (k : Nat) : Aimed → Aimed
  | .write off d x => .write off d (Nat.max x k)
  | .add off n x => .add off n (Nat.max x k)
  | .lines l => .lines l
/-- An item of a forwarding entry takes effect, after the events of its operation so far (R196). -/
def State.applyHeld (s : State) (c : Nat) (h : HeldItem) : State :=
  let (k, s1) := s.applyAimed c h.ctx h.vtid (h.what.raise (s.opClock h.op))
  s1.raiseOp h.op h.grid k

/-! ## Faults of an operation (R197, R198) -/

def engineCause (c : Nat) : Nat :=
  match c with
  | 0x27 => 0x84 | 0x28 => 0x85 | 0x25 => 0x83 | 0x26 => 0x83 | 0x29 => 0x83 | _ => c

/-- The record of an engine fault (R308). -/
def State.engineRecord (s : State) (c ec : Nat) (o : CopyOp) (cause addr : Nat) : State :=
  let r : Record :=
    { cause := cause, kind := 1, sup := o.sup, ctx := o.ctx, core := c, group := o.group, lane := o.lane, slot := o.slot
      pc := 0, addr := addr, team := o.teamIndex, hidx := 2 ^ 32 - 1, skid := 0, mx := none
      recoff := o.recoff + ec * 2 ^ 26, extra := o.delivered }
  s.updCtx o.desc fun x => { x with pending := x.pending ++ [.engine r.bytes o.clock] }

/-- The arrival counter reflects what was delivered. -/
def CopyOp.settled (o : CopyOp) : Bool := !(cview o.record).hasArr || o.counted == o.delivered

/-- An operation faults: its context stops with a record. An operation that is not the first of its context, or whose
additions are not made, waits. -/
def State.engineStop (s : State) (c ec i : Nat) (o : CopyOp) (cause addr : Nat) (settled : Bool) : State :=
  if i ≠ 0 || !settled then s
  else
    let s0 := if cause = 0xA1 then s.noteError c else s
    let s1 := ((s0.dropEngineRounds c ec).updEngine c ec fun e => { e with stopped := some (engineCause cause) }).engineRecord c ec o (engineCause cause) addr
    s1.updCore c fun k => { k with bad := k.bad.filter fun b => b.ctx != o.ctx }

/-! ## Access to memory (R187, R196) -/

/-- The aligned pieces of a range, of at most 8 bytes. -/
def pieces (va n : Nat) : List (Nat × Nat) :=
  if n = 0 then []
  else (List.range ((va + n - 1) / 8 - va / 8 + 1)).map fun i =>
    let lo := Nat.max va ((va / 8 + i) * 8)
    (lo, Nat.min (va + n) ((va / 8 + i + 1) * 8) - lo)

inductive EngRes where
  | ok (bytes : List Byte) (s : State) (o : CopyOp)
  | wait (s : State)
  | fault (cause addr : Nat)
  deriving DecidableEq, Repr

def ptrTag (ptr : Nat) : Nat := fld ptr 56 4
def ptrAddr (ptr : Nat) (off : Int) : Nat := ((fld ptr 0 56 : Int) + off).toNat
def taggedAddr (ptr va : Nat) : Nat := va + ptrTag ptr * 2 ^ 56

/-- The page of one piece and its checks, for reading or writing. -/
def State.engPage (s : State) (c : Nat) (o : CopyOp) (ptr va n : Nat) (write : Bool) : PageRes :=
  match s.checkPage c o.ctx o.sup va write false with
  | .ok l => if s.gtag (l.phys va) ≠ BitVec.ofNat 4 (ptrTag ptr) then .trap 0x28 else
      if !write && (s.lostIn (l.phys va) n).isSome then .trap 0xA1 else .ok l
  | x => x

def State.engReadPieces (c ec : Nat) (ptr : Nat) : List (Nat × Nat) → State → CopyOp → EngRes
  | [], s, o => .ok [] s o
  | (va, n) :: r, s, o =>
    match s.engPage c o ptr va n false with
    | .trap k => .fault k (taggedAddr ptr va)
    | .miss p => .wait (s.addMiss c o.ctx p)
    | .ok l =>
      let pa := l.phys va
      if s.roundHolds (.engine c ec) pa n then .wait s
      else
        let s1 := (s.claim l (some c)).note o.ctx l (some c) false
        let (t, s2) := s1.readEvent l pa o.clock
        let d := if inCtl pa then List.replicate n 0 else s2.readBytes pa n
        match State.engReadPieces c ec ptr r (s2.renew c l pa o.clock) { o with clock := Nat.max o.clock t } with
        | .ok d2 s3 o3 => .ok (d ++ d2) s3 o3
        | x => x

/-- Every piece of a write passes its checks. -/
def State.engCheckPieces (s : State) (c ec : Nat) (o : CopyOp) (ptr : Nat) : List (Nat × Nat) → EngRes
  | [] => .ok [] s o
  | (va, n) :: r =>
    match s.engPage c o ptr va n true with
    | .trap k => .fault k (taggedAddr ptr va)
    | .miss p => .wait (s.addMiss c o.ctx p)
    | .ok l =>
      match s.awaitRound l (l.phys va) n (.engine c ec) with
      | some w => .wait w
      | none => s.engCheckPieces c ec o ptr r

def State.engWritePieces (c ec : Nat) : List (Nat × Nat) → List Byte → State → CopyOp → State × CopyOp
  | [], _, s, o => (s, o)
  | (va, n) :: r, d, s, o =>
    match s.hitLeaf c o.ctx va with
    | none => (s, o)
    | some l =>
      let pa := l.phys va
      let s1 := (s.claim l (some c)).note o.ctx l (some c) true
      let (t, s2) := if inCtl pa then (o.clock, s1) else s1.storeHome l pa (d.take n) o.clock (some c)
      State.engWritePieces c ec r (d.drop n) (s2.endRounds (.engine c ec) pa n) { o with clock := Nat.max o.clock t }

/-- The fabric request of an engine's access at va, over the aligned words that hold it (R381, R384). -/
def State.engSend (s : State) (c ec : Nat) (o : CopyOp) (w : FabWindow) (ptr va : Nat) (op : FabOp) : State :=
  let (id, s1) := s.fabSend w (.engine c ec o.id) (taggedAddr ptr va)
    { scratch := false, addr := va / 8 * 8, tag := BitVec.ofNat 4 (ptrTag ptr), ro := false, xn := false } o.sup op
  s1.updEngine c ec fun e => { e with queue := e.queue.map fun x => if x.id = o.id then { x with fab := some id } else x }

/-- The parts of a range by blocks of 256 bytes, each of which one station serves; no window begins or ends inside one (R383, R384). -/
def blocks256 (va n : Nat) : List (Nat × Nat) :=
  if n = 0 then []
  else (List.range ((va + n - 1) / 256 - va / 256 + 1)).map fun i =>
    let lo := Nat.max va ((va / 256 + i) * 256)
    (lo, Nat.min (va + n) ((va / 256 + i + 1) * 256) - lo)
/-- The window of an operation's address. -/
def State.opWindow (s : State) (o : CopyOp) (va : Nat) : Option FabWindow := s.fabWindow o.desc va
/-- The bytes of a part of a range: brought by the fabric, or read at home. -/
def State.engReadParts (c ec : Nat) (ptr : Nat) : List (Nat × Nat) → State → CopyOp → EngRes
  | [], s, o => .ok [] s o
  | (va, n) :: r, s, o =>
    let part : EngRes := match s.opWindow o va with
      | some _ => match o.fetched.find? fun x => x.1 == taggedAddr ptr va with
        | some x => .ok (slice x.2 (va % 8) n) s o
        | none => .wait s
      | none => State.engReadPieces c ec ptr (pieces va n) s o
    match part with
    | .ok d s1 o1 => (match State.engReadParts c ec ptr r s1 o1 with
      | .ok d2 s2 o2 => .ok (d ++ d2) s2 o2
      | x => x)
    | x => x

/-- A read of n bytes at an offset from a pointer; of those in a window, one request for each block at a time. -/
def State.engRead (s : State) (c ec : Nat) (o : CopyOp) (sp : Bool) (ptr : Nat) (off : Int) (n : Nat) : EngRes :=
  if n = 0 then .ok [] s o
  else if sp then
    match s.findTeam c o.ctx o.vtid with
    | none => .ok (List.replicate n 0) s o
    | some t =>
      let a := ((fld ptr 0 24 : Int) + off).toNat
      let lines := (List.range ((a + n - 1) / 128 + 1 - a / 128)).map (a / 128 + ·)
      let own (i : Nat) : Nat := b2n (o.peer.isNone && o.lines.contains i)
      if lines.any fun i => (t.line i).held || decide (own i < (t.line i).pending) then .wait s
      else if t.lostIn a n then .fault 0xA1 a
      else
        let (k, t1) := t.scratchEvent a n o.clock false
        .ok (t.scratchRead a n) (s.updNamed c o.ctx o.vtid fun _ => t1) { o with clock := k }
  else
    let parts := blocks256 (ptrAddr ptr off) n
    match parts.findSome? fun p => match s.opWindow o p.1 with
      | some w => if o.fetched.any fun x => x.1 == taggedAddr ptr p.1 then none else some (w, p)
      | none => none with
    | some (w, va, k) =>
      if o.fab.isSome then .wait s
      else .wait (s.engSend c ec o w ptr va (.read (alignUp (va + k) 8 - va / 8 * 8)))
    | none => State.engReadParts c ec ptr parts s o

/-- One write of an element: whether the destination is a scratchpad, pointer, offset and bytes. -/
structure EngWrite where
  sp : Bool
  ptr : Nat
  off : Int
  data : List Byte
  deriving DecidableEq, Repr

/-- A write may be made: none when it may, else what holds it. Its parts at home are checked, then those in a window are sent, one
request for each block at a time. -/
def State.engMay (s : State) (c ec : Nat) (o : CopyOp) (w : EngWrite) : EngRes :=
  if w.sp || w.data.isEmpty then .ok [] s o
  else
    let base := ptrAddr w.ptr w.off
    let parts := blocks256 base w.data.length
    match s.engCheckPieces c ec o w.ptr ((parts.filter fun p => (s.opWindow o p.1).isNone).map fun p => pieces p.1 p.2).flatten with
    | .ok _ _ _ =>
      (match parts.findSome? fun p => match s.opWindow o p.1 with
        | some fw => if o.acked.contains (taggedAddr w.ptr p.1) then none else some (fw, p)
        | none => none with
      | some (fw, va, k) =>
        if fw.ro then .fault 0x27 (taggedAddr w.ptr va)
        else if o.fab.isSome then .wait s
        else
          let a := va / 8 * 8
          let n := alignUp (va + k) 8 - a
          .wait (s.engSend c ec o fw w.ptr va (.write ((List.range n).map fun i => w.data.getD (a + i - base) 0)
            ((List.range n).map fun i => decide (va ≤ a + i) && decide (a + i < va + k))))
      | none => .ok [] s o)
    | x => x

/-- The writes of an element are checked one after the other, then all made. -/
def State.engMayAll (c ec : Nat) : List EngWrite → State → CopyOp → EngRes
  | [], s, o => .ok [] s o
  | w :: r, s, o =>
    match s.engMay c ec o w with
    | .ok _ _ _ => State.engMayAll c ec r s o
    | x => x

/-- The team that an operation delivers into: its core and virtual identifier. -/
def CopyOp.destTeam (o : CopyOp) (c : Nat) : Nat × Nat := o.peer.getD (c, o.vtid)

def State.engWriteOne (c ec : Nat) (w : EngWrite) (s : State) (o : CopyOp) : State × CopyOp :=
  if w.data.isEmpty then (s, o)
  else if w.sp then
    let (k, s1) := s.aim o (o.destTeam c) (.write (((fld w.ptr 0 24 : Int) + w.off).toNat) w.data o.clock)
    (s1, { o with clock := Nat.max o.clock k })
  else
    let base := ptrAddr w.ptr w.off
    (blocks256 base w.data.length).foldl (fun x p => if (x.1.opWindow o p.1).isSome then x
      else State.engWritePieces c ec (pieces p.1 p.2) (slice w.data (p.1 - base) p.2) x.1 x.2) (s, o)
def State.engWriteAll (c ec : Nat) : List EngWrite → State → CopyOp → State × CopyOp
  | [], s, o => (s, o)
  | w :: r, s, o => let (s1, o1) := State.engWriteOne c ec w s o; State.engWriteAll c ec r s1 o1

/-! ## Compact records (R268 to R271) -/

/-- Elements of a line of a format. -/
def lineElems (f : ElemFmt) : Nat := 1024 / elemBits f
/-- Codes of a dense line. -/
def lineCodes (f : ElemFmt) (d : List Byte) : List Nat :=
  match f with
  | .b4 => (d.map fun b => [b.toNat % 16, b.toNat / 16]).flatten
  | .bf16 => (List.range 64).map fun i => sliceNat d (2 * i) 2
  | _ => d.map fun b => b.toNat
def codesLine (f : ElemFmt) (l : List Nat) : List Byte :=
  match f with
  | .b4 => (List.range 128).map fun i => BitVec.ofNat 8 (l.getD (2 * i) 0 + 16 * l.getD (2 * i + 1) 0)
  | .bf16 => (l.map fun x => natBytes x 2).flatten
  | _ => l.map fun x => BitVec.ofNat 8 x

/-- The 4-bit form serves .s8 and .b4 (R53). -/
def isNib (f : ElemFmt) : Bool := match f with | .s8 => true | .b4 => true | _ => false

/-- The stored terms of an element that a record may hold, or none (R271). -/
def recTerms (f : ElemFmt) (code scale : Nat) : Option (List Nat) :=
  match recode f code scale with
  | .fin m q =>
    let ds := naf m
    let negZero := m = 0 && (match f with
      | .b4 => decide (scale / 64 % 4 ≠ 0) && code % 16 == 8
      | .s8 => false
      | _ => code != 0)
    if negZero || decide (4 < ds.length) then none
    else if isNib f then some (ds.map form4)
    else ds.foldr (fun d acc => match acc, form8 { neg := d.2, shift := (d.1 : Int) + q } with
      | some l, some x => some (x :: l)
      | _, _ => none) (some [])
  | _ => none

/-- Numbers of w bits packed into bytes, the first lowest. -/
def packBits (w : Nat) (l : List Nat) : List Byte :=
  natBytes (l.foldr (fun x acc => x + acc * 2 ^ w) 0) (ceilDiv (l.length * w) 8)

/-- The record of a line, padded to whole sectors, if it may be compacted. -/
def compactLine (f : ElemFmt) (d sc : List Byte) : Option (List Byte) :=
  let codes := lineCodes f d
  let terms := mapIdxFrom (fun i x => recTerms f x (match f with | .b4 => sliceNat sc (i / 32) 1 | _ => 0)) 0 codes
  if terms.any fun t => t.isNone then none
  else
    let ts := terms.map fun t => t.getD []
    let nt := sumList (ts.map List.length)
    let r := natBytes ((if isNib f then 0 else 64) + (match f with
        | .s8 => 0x01 | .bf16 => 0x09 | .e4m3 => 0x0A | .e5m2 => 0x0B | _ => 0x0C)) 1 ++
      natBytes (codes.length / 8) 1 ++ natBytes nt 2 ++ natBytes 0 4 ++ (match f with | .b4 => sc | _ => []) ++
      packBits 1 (ts.map fun t => b2n !t.isEmpty) ++ packBits 2 ((ts.filter fun t => !t.isEmpty).map fun t => t.length - 1) ++
      packBits (if isNib f then 4 else 8) ts.flatten
    if 96 < r.length then none else some (r ++ List.replicate (alignUp r.length 32 - r.length) 0)

/-- A stored term as a number: sign and power. -/
def storedTerm (f : ElemFmt) (x : Nat) : Bool × Int :=
  if isNib f then (bitOf x 3, (x % 8 : Nat)) else (bitOf x 7, (x % 128 : Nat) - 64)
/-- A NAF with strictly falling shifts. -/
def isNafList : List (Bool × Int) → Bool
  | a :: b :: r => decide (b.2 + 2 ≤ a.2) && isNafList (b :: r)
  | _ => true

/-- The code of a value that is the sum of the terms, if the format holds it exactly (R270). -/
def codeOfTerms (f : ElemFmt) (scale : Nat) (ts : List (Bool × Int)) : Option Nat :=
  let low := ts.foldl (fun a t => min a t.2) 0
  let m : Int := ts.foldl (fun a t => a + (if t.1 then -1 else 1) * 2 ^ (t.2 - low).toNat) 0
  if m = 0 then none
  else if isNib f then
    ((List.range (2 ^ elemBits f)).find? fun c => decide (recode f c scale = .fin m 0) ||
      (match recode f c scale with | .fin x _ => decide (x = m) | _ => false))
  else
    match elemFloat f with
    | none => none
    | some g =>
      let c := g.round .rne (decide (m < 0)) m.natAbs low
      let exact := match g.read c with
        | .fin s n e => decide (signedNat s (n * 2 ^ (e - min e low).toNat) = m * 2 ^ (low - min e low).toNat)
        | _ => false
      if exact then some c else none

/-- The element codes of a record: per element its stored terms taken from the list. -/
def takeElems (f : ElemFmt) (sc : Nat → Nat) : Nat → List Nat → List Nat → List Nat → Option (List Nat)
  | _, [], _, _ => some []
  | i, 0 :: ms, cs, ts => (takeElems f sc (i + 1) ms cs ts).map fun l => 0 :: l
  | i, _ :: ms, cs, ts =>
    let n := cs.headD 0 + 1
    let t := (ts.take n).map (storedTerm f)
    if isNafList t && t.length == n then
      match codeOfTerms f (sc i) t with
      | some c => (takeElems f sc (i + 1) ms (cs.drop 1) (ts.drop n)).map fun l => c :: l
      | none => none
    else none

def unpackBits (w n : Nat) (b : List Byte) : List Nat :=
  (List.range n).map fun i => bytesNat b / 2 ^ (w * i) % 2 ^ w

/-- The dense line and the scale bytes of a record; none when it is invalid (R270). -/
def expandRecord (f : ElemFmt) (r : List Byte) : Option (List Byte × List Byte) :=
  let ne := lineElems f
  let head := sliceNat r 0 1 == (if isNib f then 0 else 64) + (match f with
        | .s8 => 0x01 | .bf16 => 0x09 | .e4m3 => 0x0A | .e5m2 => 0x0B | _ => 0x0C) && sliceNat r 1 1 == ne / 8 && sliceNat r 4 4 == 0
  if !head then none
  else
    let ns := match f with | .b4 => 8 | _ => 0
    let sc := slice r 8 ns
    let mask := unpackBits 1 ne (slice r (8 + ns) (ne / 8))
    let nz := sumList mask
    let o1 := 8 + ns + ne / 8
    let counts := unpackBits 2 nz (slice r o1 (ceilDiv nz 4))
    let nt := sumList (counts.map (· + 1))
    let w := if isNib f then 4 else 8
    let o2 := o1 + ceilDiv nz 4
    let terms := unpackBits w nt (slice r o2 (ceilDiv (nt * w) 8))
    if nt ≠ sliceNat r 2 2 || decide (128 < o2 + ceilDiv (nt * w) 8) then none
    else (takeElems f (fun i => sliceNat sc (i / 32) 1) 0 mask counts terms).bind fun l =>
      if l.isEmpty then none else some (codesLine f l, sc)

/-! ## The move of one element (R189, R190) -/

/-- What a move comes to: positions advanced, bytes delivered, the writes. -/
structure Move where
  n : Nat
  bytes : Nat
  writes : List EngWrite
  o : CopyOp
  deriving DecidableEq, Repr

inductive MoveRes where
  | move (m : Move) (s : State)
  | wait (s : State)
  | fault (cause addr : Nat)
  deriving DecidableEq, Repr

def EngRes.bind (r : EngRes) (f : List Byte → State → CopyOp → MoveRes) : MoveRes :=
  match r with
  | .ok d s o => f d s o
  | .wait s => .wait s
  | .fault c a => .fault c a

def State.moveWhole (s : State) (c ec : Nat) (o : CopyOp) (v : CView) : MoveRes :=
  let n := v.sbits / 8
  let so := v.selem o.pos * n
  let d := v.delem o.pos * n
  (s.engRead c ec o v.ssp v.src so n).bind fun b s1 o1 =>
    let base := (sideBase v.ssp v.src : Int) + so
    let b1 := mapIdxFrom (fun i x => match o.saved.find? fun y => y.1 == (base + i).toNat with
      | some y => y.2
      | none => x) 0 b
    .move { n := 1, bytes := n, writes := [{ sp := v.dsp, ptr := v.dst, off := d, data := b1 }], o := o1 } s1

/-- The value of a source element of a converting copy. -/
def State.convSource (s : State) (c ec : Nat) (o : CopyOp) (v : CView) (pos : Nat) (f : FVal → Nat → State → CopyOp → MoveRes) : MoveRes :=
  let x := v.selem pos
  match cvtTyOf (BitVec.ofNat 4 v.sty) with
  | none =>
    (s.engRead c ec o v.ssp v.src (x / 2) 1).bind fun b s1 o1 =>
      (s1.engRead c ec o1 v.ssp v.src (v.sideI + x / 32) 1).bind fun sc s2 o2 =>
        f (b4Val (bytesNat b / 16 ^ (x % 2).toNat % 16) (bytesNat sc)) 0 s2 o2
  | some t =>
    (s.engRead c ec o v.ssp v.src (x * (cvtWidth t / 8)) (cvtWidth t / 8)).bind fun b s1 o1 =>
      let raw := bytesNat b
      f (match cvtFloat t with | some g => g.read raw | none => .ofInt (valOf (cvtWidth t) (cvtSigned t) raw)) raw s1 o1

def rmOf (c : Nat) : Rm := match c with | 0 => .rne | 1 => .rtz | 2 => .rup | _ => .rdn

/-- A value converted to a type that is not .b4 (R40 to R42). -/
def convTo (rm : Rm) (v : CView) (x : FVal) (raw : Nat) (dst : CvtTy) : Nat :=
  match cvtTyOf (BitVec.ofNat 4 v.sty) with
  | some src => (cvtValue rm dst src raw).1
  | none => match cvtFloat dst with
    | some g => g.write rm x
    | none => intImage (toIntVal rm (cvtWidth dst) (cvtSigned dst) x)

def State.moveConv (s : State) (c ec : Nat) (o : CopyOp) (v : CView) (dst : CvtTy) : MoveRes :=
  s.convSource c ec o v o.pos fun x raw s1 o1 =>
    let n := cvtWidth dst / 8
    .move { n := 1, bytes := n, writes := [{ sp := v.dsp, ptr := v.dst, off := v.delem o.pos * n
                                             data := natBytes (convTo (rmOf v.rnd) v x raw dst) n }], o := o1 } s1

/-- The values of several vectors' source elements. -/
def State.convMany (c ec : Nat) (v : CView) : List Nat → State → CopyOp → (List FVal → State → CopyOp → MoveRes) → MoveRes
  | [], s, o, f => f [] s o
  | p :: r, s, o, f => s.convSource c ec o v p fun x _ s1 o1 => State.convMany c ec v r s1 o1 fun xs s2 o2 => f (x :: xs) s2 o2

/-- An exact value of a source element as one number, to be kept with its block, and back. -/
def fvalKey : FVal → Nat
  | .nan => 0
  | .inf s => 1 + b2n s
  | .fin s m e => 3 + b2n s + 2 * ((e + 2048).toNat + 4096 * m)
def keyFval (k : Nat) : FVal :=
  match k with
  | 0 => .nan
  | 1 => .inf false
  | 2 => .inf true
  | n + 3 => .fin (n % 2 == 1) (n / 2 / 4096) (((n / 2 % 4096 : Nat) : Int) - 2048)

def absVal : FVal → FVal
  | .fin _ m e => .fin false m e
  | .inf _ => .inf false
  | .nan => .nan
/-- The scale byte of a block: from the largest magnitude of its elements (R117), 63 with a NaN (R190). -/
def blockScale (bty : Nat) (l : List FVal) : Nat :=
  if l.any FVal.isNan then bty * 64 + 63
  else b4Scale bty (l.foldl (fun a x => if a.lt (absVal x) then absVal x else a) (.fin false 0 0))

/-- The whole of a block of a .b4 destination: the vectors of its row that fall into it, with what earlier vectors left.
An odd number of elements counts its half byte as one (log 91). -/
def State.moveBlock (s : State) (c ec : Nat) (o : CopyOp) (v : CView) : MoveRes :=
  let ext := (v.dims.headD { dstr := 0, sstr := 0, ext := 0 }).ext + 1
  let i0 := o.pos % ext
  let n := Nat.min (32 - i0 % 32) (ext - i0)
  let x0 := v.delem o.pos
  let blk := x0 / 32
  let key (j : Nat) : Nat := (blk * 32 + j + 2 ^ 40).toNat
  State.convMany c ec v ((List.range n).map (o.pos + ·)) s o fun xs s1 o1 =>
    let now := mapIdxFrom (fun j x => (key j, fvalKey x)) (i0 % 32) xs
    let vals := (o.vals.filter fun y => !now.any fun z => z.1 == y.1) ++ now
    let at' (j : Nat) : Option FVal := (vals.find? fun y => y.1 == key j).map fun y => keyFval y.2
    let sc := blockScale v.bty ((List.range 32).filterMap at')
    let code (j : Nat) : Nat := match at' j with
      | some x => b4Quant x sc
      | none => 0
    let bytes := (List.range 16).map fun j => BitVec.ofNat 8 (code (2 * j) + 16 * code (2 * j + 1))
    .move { n := n, bytes := ceilDiv n 2
            writes := [{ sp := v.dsp, ptr := v.dst, off := blk * 16, data := bytes },
                       { sp := v.dsp, ptr := v.dst, off := v.sideI + blk, data := [BitVec.ofNat 8 sc] }]
            o := { o1 with vals := if v.nd = 0 then [] else vals } } s1

def setBit8 (b : Byte) (i : Nat) (x : Bool) : Byte := if x then b ||| BitVec.twoPow 8 i else b &&& ~~~(BitVec.twoPow 8 i)

/-- The map byte that an encode itself writes into a scratchpad: read without a wait for the line's presence, which its own writes bring
about (R180, R199). -/
def State.ownMap (s : State) (c : Nat) (o : CopyOp) (v : CView) (line : Nat) : EngRes :=
  let a := ((fld v.dst 0 24 : Int) + (v.sideI + (line / 8 : Nat))).toNat
  let dest := o.destTeam c
  match s.findTeam dest.1 o.ctx dest.2 with
  | none => .ok [0] s o
  | some t =>
    if t.lostIn a 1 then .fault 0xA1 a
    else
      let (k, t1) := t.scratchEvent a 1 o.clock false
      .ok (t.scratchRead a 1) (s.updNamed dest.1 o.ctx dest.2 fun _ => t1) { o with clock := k }
/-- A read of the dense map byte of a line, on the destination's side. -/
def State.readMap (s : State) (c ec : Nat) (o : CopyOp) (v : CView) (line : Nat) : EngRes :=
  s.engRead c ec o v.dsp v.dst (v.sideI + (line / 8 : Nat)) 1

def State.moveEncode (s : State) (c ec : Nat) (o : CopyOp) (v : CView) (f : ElemFmt) : MoveRes :=
  let line := o.pos
  (s.engRead c ec o v.ssp v.src (128 * v.selem o.pos) 128).bind fun d s1 o1 =>
    (if v.tb4 then s1.engRead c ec o1 v.ssp v.src (128 * v.splane + 8 * line) 8 else .ok [] s1 o1).bind fun sc s2 o2 =>
      (if v.dsp then s2.ownMap c o2 v line else s2.readMap c ec o2 v line).bind fun mb s3 o3 =>
        let rc := compactLine f d sc
        .move { n := 1, bytes := 128
                writes := [{ sp := v.dsp, ptr := v.dst, off := 128 * v.delem o.pos, data := rc.getD d },
                           { sp := v.dsp, ptr := v.dst, off := v.sideI + (line / 8 : Nat)
                             data := [setBit8 (mb.headD 0) (line % 8) rc.isNone] }]
                o := o3 } s3

def State.moveDecode (s : State) (c ec : Nat) (o : CopyOp) (v : CView) (f : ElemFmt) : MoveRes :=
  let line := o.pos
  (s.readMap c ec o v line).bind fun mb s1 o1 =>
    (s1.engRead c ec o1 v.ssp v.src (128 * v.selem o.pos) 128).bind fun d s2 o2 =>
      if bitOf (mb.headD 0).toNat (line % 8) then
        .move { n := 1, bytes := 128, writes := [{ sp := v.dsp, ptr := v.dst, off := 128 * v.delem o.pos, data := d }], o := o2 } s2
      else
        match expandRecord f d with
        | none => .fault 0x82 (if v.ssp then ((fld v.src 0 24 : Int) + 128 * v.selem o.pos).toNat
            else taggedAddr v.src (ptrAddr v.src (128 * v.selem o.pos)))
        | some (b, sc) =>
          .move { n := 1, bytes := 128
                  writes := [{ sp := v.dsp, ptr := v.dst, off := 128 * v.delem o.pos, data := b },
                             { sp := v.dsp, ptr := v.dst, off := 128 * v.splane + 8 * line, data := if v.tb4 then sc else [] }]
                  o := o2 } s2

/-- The next element of an operation by its kind. -/
def State.nextMove (s : State) (c ec : Nat) (o : CopyOp) : MoveRes :=
  let v := cview o.record
  match v.kind with
  | 2 => match cvtTyOf (BitVec.ofNat 4 v.dty) with
    | some t => s.moveConv c ec o v t
    | none => s.moveBlock c ec o v
  | 3 => match matFmt v.efmt with
    | some f => s.moveEncode c ec o v f
    | none => .wait s
  | 4 => match matFmt v.efmt with
    | some f => s.moveDecode c ec o v f
    | none => .wait s
  | _ => s.moveWhole c ec o v

/-! ## After a move: presence, kept bytes, progress (R180, R193, R194) -/

/-- The ranges, from the destination's base, that the pos-th vector writes. -/
def CView.writesAt (v : CView) (pos : Nat) : List Span :=
  let x := v.delem pos
  if v.db4 then [blockSpan4 x x, planeSpan v.sideI x x]
  else elemSpan v.dbits x x ::
    ((if v.kind == 3 then [(v.sideI + (pos / 8 : Nat), v.sideI + (pos / 8 : Nat) + 1)] else []) ++
     (if v.tb4 && v.kind == 4 then [(128 * v.splane + 8 * pos, 128 * v.splane + 8 * pos + 8)] else []))

/-- Lines of the destination that the vectors from pos on still write. -/
def CView.stillWrites (v : CView) (pos line : Nat) : Bool :=
  (List.range (v.total - pos)).any fun i => (spanLines (sideBase true v.dst) (v.writesAt (pos + i))).contains line

/-- The old bytes of an overlapping plain copy's destination that its source still needs (R193); those in a fabric window are read
from the peer first, and the loss of one stops the operation (R321). -/
def State.oldBytes (s : State) (c ec : Nat) (o : CopyOp) (v : CView) (w : EngWrite) : EngRes :=
  let base := ((sideBase v.dsp v.dst : Int) + w.off).toNat
  if v.kind ≠ 0 || !v.overlaps || !spansMeet (sideBase v.ssp v.src) v.sfoot base [(0, w.data.length)] then .ok [] s o
  else if v.dsp then
    match s.findTeam c o.ctx o.vtid with
    | some t => if t.lostIn base w.data.length then .fault 0xA1 base else .ok (t.scratchRead base w.data.length) s o
    | none => .ok [] s o
  else if (blocks256 base w.data.length).any fun p => (s.opWindow o p.1).isSome then s.engRead c ec o false w.ptr w.off w.data.length
  else
    let at' (i : Nat) : Option Nat := (s.hitLeaf c o.ctx (base + i)).map fun l => l.phys (base + i)
    match (List.range w.data.length).find? fun i => match at' i with | some pa => (s.lostIn pa 1).isSome | none => false with
    | some i => .fault 0xA1 (taggedAddr w.ptr (base + i))
    | none => .ok ((List.range w.data.length).map fun i => match at' i with
      | some pa => s.readByte pa
      | none => 0) s o
/-- The bytes that a write overwrites, which have no write of the copy behind them, are kept. -/
def CopyOp.keepBytes (o : CopyOp) (v : CView) (w : EngWrite) (old : List Byte) : List (Nat × Byte) :=
  let base := ((sideBase v.dsp v.dst : Int) + w.off).toNat
  o.saved ++ (mapIdxFrom (fun i b => (base + i, b)) 0 old).filter fun x => !o.saved.any fun y => y.1 == x.1
/-- What a move keeps, once it can be read. -/
def State.oldOf (s : State) (c ec : Nat) (o : CopyOp) (v : CView) (ws : List EngWrite) : EngRes :=
  match ws with
  | [w] => s.oldBytes c ec o v w
  | _ => .ok [] s o

def State.setOp (s : State) (c ec : Nat) (o : CopyOp) : State :=
  s.updEngine c ec fun e => { e with queue := e.queue.map fun x => if x.id = o.id then o else x }

/-- The lines that have received their last byte leave the operation's pending counts. -/
def State.dropLines (s : State) (c : Nat) (o : CopyOp) (l : List Nat) : State :=
  if l.isEmpty then s else (s.aim o (o.destTeam c) (.lines l)).2

/-- The engine of a core stands still: the core moves (R347), or the package has no supply (R359). -/
def State.engineHeld (s : State) (c : Nat) : Bool := !s.works || s.relocs.any fun r => r.core == c && decide (3 ≤ r.step) && decide (r.step ≤ 4)

def State.opAt (s : State) (c ec i : Nat) : Option CopyOp := (s.engineAt c ec).queue[i]?

/-- The engine moves one element of an operation; a .b4 destination moves a block at a time, since its scale byte depends on
all of it. -/
def execCopyElement (core ec i : Nat) (s : State) : Res :=
  match s.opAt core ec i with
  | none => .next s
  | some o =>
    let v := cview o.record
    if o.ended || v.kind == 5 || (s.engineAt core ec).stopped.isSome || s.engineHeld core then .next s
    else
      match s.nextMove core ec o with
      | .wait s1 => .next s1
      | .fault k a => .next (s.engineStop core ec i o k a o.settled)
      | .move m s0 =>
        match s0.oldOf core ec m.o v m.writes with
        | .wait s1 => .next s1
        | .fault k a => .next (s.engineStop core ec i o k a o.settled)
        | .ok old s1 o0 =>
          match State.engMayAll core ec m.writes s1 o0 with
          | .wait s2 => .next s2
          | .fault k a => .next (s.engineStop core ec i o k a o.settled)
          | .ok _ _ _ =>
            let kept := match m.writes with
              | [w] => o.keepBytes v w old
              | _ => o.saved
            let (s2, o1) := State.engWriteAll core ec m.writes s1 o0
            let pos := o.pos + m.n
            let done := if v.dsp then
                ((m.writes.filter fun w => w.sp && !w.data.isEmpty).map fun w =>
                  spanLines (((fld w.ptr 0 24 : Int) + w.off).toNat) [(0, w.data.length)]).flatten.eraseDups.filter fun x =>
                    o.lines.contains x && !v.stillWrites pos x
              else []
            let o2 := { o1 with
              pos := pos, delivered := o.delivered + m.bytes, ended := decide (v.total ≤ pos), saved := kept
              lines := o.lines.filter fun x => !done.contains x, fetched := [], acked := [] }
            .next ((s2.setOp core ec o2).dropLines core o done)

/-! ## Back-reference expanding (R199, R200) -/

/-- A token: its bytes, its output length, its match offset (0 for a literal run), or the end. -/
inductive BackToken where
  | lit (n : Nat)
  | ref (len n off : Nat)
  | stop
  deriving DecidableEq, Repr

/-- A token's length in bytes by its first byte. -/
def tokenBytes (h : Nat) : Nat := if h = 0xFF then 1 else if h < 0x80 then h + 2 else if h < 0xC0 then 2 else 3
def tokenOf (b : List Byte) : BackToken :=
  let h := sliceNat b 0 1
  if h = 0xFF then .stop
  else if h < 0x80 then .lit (h + 1)
  else if h < 0xC0 then .ref 2 (fld h 3 3 + 3) (fld h 0 3 * 256 + sliceNat b 1 1 + 1)
  else .ref 3 (fld h 0 6 + 3) (sliceNat b 1 2 + 1)

/-- The output of a match, byte by byte from what has been produced, the latest first. -/
def expandMatch (off : Nat) : Nat → List Byte → List Byte
  | 0, out => out
  | n + 1, out => expandMatch off n (out.getD (off - 1) 0 :: out)

def execBackReferenceToken (core ec i : Nat) (s : State) : Res :=
  match s.opAt core ec i with
  | none => .next s
  | some o =>
    let v := cview o.record
    let here : Nat := if v.ssp then fld v.src 0 24 + o.srcPos else taggedAddr v.src (ptrAddr v.src (o.srcPos : Int))
    if o.ended || v.kind != 5 || (s.engineAt core ec).stopped.isSome || s.engineHeld core then .next s
    else if v.side ≤ o.srcPos then .next (s.engineStop core ec i o 0x82 here o.settled)
    else
      match s.engRead core ec o v.ssp v.src (o.srcPos : Int) 1 with
      | .wait s1 => .next s1
      | .fault k a => .next (s.engineStop core ec i o k a o.settled)
      | .ok b s1 o1 =>
        let n := tokenBytes (bytesNat b)
        if v.side < o.srcPos + n then .next (s.engineStop core ec i o 0x82 here o.settled)
        else
          match s1.engRead core ec o1 v.ssp v.src ((o.srcPos : Int) + 1) (n - 1) with
          | .wait s2 => .next s2
          | .fault k a => .next (s.engineStop core ec i o k a o.settled)
          | .ok r s2 o2 =>
            let past := o.saved.map fun x => x.2
            let out : Option (List Byte) := match tokenOf (b ++ r) with
              | .stop => some []
              | .lit n => if v.total < o.pos + n then none else some r
              | .ref _ n off =>
                if v.total < o.pos + n ∨ o.pos < off then none
                else some ((expandMatch off n past).take n).reverse
            match out with
            | none => .next (s.engineStop core ec i o 0x82 here o.settled)
            | some d =>
              let w : List EngWrite := [{ sp := v.dsp, ptr := v.dst, off := o.pos, data := d }]
              match State.engMayAll core ec w s2 o2 with
              | .wait s3 => .next s3
              | .fault k a => .next (s.engineStop core ec i o k a o.settled)
              | .ok _ _ _ =>
                let (s3, o3) := State.engWriteAll core ec w s2 o2
                let pos := o.pos + d.length
                let base := sideBase true v.dst
                let done := if v.dsp then o.lines.filter fun x => decide (Nat.min ((x + 1) * 128) (base + v.total) ≤ base + pos) else []
                let o4 := { o3 with
                  srcPos := o.srcPos + n, pos := pos, delivered := pos, ended := decide (tokenOf (b ++ r) = .stop)
                  saved := (d.reverse.map fun x => (0, x)) ++ o.saved, lines := o.lines.filter fun x => !done.contains x
                  fetched := [], acked := [] }
                .next ((s3.setOp core ec o4).dropLines core o done)

/-! ## Counter additions (R194, R195) -/

/-- An addition to a counter of an operation: done in a state, waiting, or failed. -/
def State.engAdd (s : State) (c ec : Nat) (o : CopyOp) (sp : Bool) (ptr : Nat) (dest : Nat × Nat) (amount : Nat) : EngRes :=
  if sp then
    let go : EngRes :=
      let (k, s1) := s.aim o dest (.add (fld ptr 0 24) amount o.clock)
      .ok [] s1 { o with clock := Nat.max o.clock k }
    match s.findTeam dest.1 o.ctx dest.2 with
    | some t => if t.lostIn (fld ptr 0 24) 8 then .fault 0xA1 (fld ptr 0 24) else go
    | none => go
  else
    let va := ptrAddr ptr 0
    match s.fabWindow o.desc va with
    | some w =>
      if w.ro then .fault 0x27 (taggedAddr ptr va)
      else if o.fab.isSome then .wait s
      else
        let s1 := s.engSend c ec o w ptr va (.cadd amount (some 0))
        .wait (s1.updEngine c ec fun e => { e with queue := e.queue.map fun x => if x.id = o.id then { x with adding := some amount } else x })
    | none =>
      match s.engPage c o ptr va 8 true with
      | .trap k => .fault k (taggedAddr ptr va)
      | .miss p => .wait (s.addMiss c o.ctx p)
      | .ok l =>
        let pa := l.phys va
        if inCtl pa then .ok [] s o
        else if (s.lostIn pa 8).isSome then .fault 0xA1 (taggedAddr ptr va)
        else
          match s.awaitRound l pa 8 (.engine c ec) with
          | some w => .wait w
          | none =>
            let (t, s1) := s.countGlobal l pa amount o.clock (some c)
            .ok [] (s1.endRounds (.engine c ec) pa 8) { o with clock := Nat.max o.clock t }

/-- After the power-fail trap, counters of the device itself still come to reflect what was delivered (R359). -/
def State.mayCount (s : State) (o : CopyOp) (v : CView) : Bool :=
  decide (s.power = .failing) && (v.asp || (s.fabWindow o.desc (ptrAddr v.arr 0)).isNone)

/-- The engine adds n delivered bytes to the arrival counter, with a push. An addition to a counter in global memory waits for the
writes that it counts while a forwarding entry holds them (R194, R348). After the trap a context that a fault has stopped still counts
what its operations have delivered (R359). -/
def execArrivalAddition (core ec i n : Nat) (s : State) : Res :=
  match s.opAt core ec i with
  | none => .next s
  | some o =>
    let v := cview o.record
    if !v.hasArr || n == 0 || decide (o.delivered - o.counted < n) || o.cancelled || o.fab.isSome ||
        (!v.asp && s.heldOfOp o.id) || (decide (s.power = .on) && (s.engineAt core ec).stopped.isSome) ||
        (if s.power = .on then s.engineHeld core else !s.mayCount o v) then .next s
    else
      match s.engAdd core ec o v.asp v.arr (o.destTeam core) n with
      | .wait s1 => .next s1
      | .fault k a => .next (if (s.engineAt core ec).stopped.isSome then s else s.engineStop core ec i o k a true)
      | .ok _ s1 o1 => .next (s1.setOp core ec { o1 with counted := o.counted + n })

/-- The first operation of a context leaves it: its remaining lines leave their pending counts, and the retirements that follow come
after its own (R195). -/
def State.retireOp (s : State) (c ec : Nat) (o : CopyOp) : State :=
  let s1 := s.dropLines c o o.lines
  let s2 := s1.updEngine c ec fun e => { e with queue := e.queue.filter fun x => x.id != o.id, clock := Nat.max e.clock o.clock }
  { s2 with grids := s2.grids.map fun g => if g.id = o.grid then { g with clock := Nat.max g.clock o.clock } else g }

/-- Retirement: an addition of 1 to the timeline counter, with a push (R195). A cancelled operation whose timeline word
fails retires without it, with a record. -/
def execRetire (core ec : Nat) (s : State) : Res :=
  match s.opAt core ec 0 with
  | none => .next s
  | some o =>
    let v := cview o.record
    if !o.ended || (!o.settled && !o.cancelled) || o.fab.isSome || s.heldOfOp o.id || (s.engineAt core ec).stopped.isSome ||
        s.engineHeld core then .next s
    else if !v.hasTl then .next (s.retireOp core ec o)
    else
      match s.engAdd core ec { o with clock := Nat.max o.clock (s.engineAt core ec).clock } v.tsp v.tl (core, o.vtid) 1 with
      | .wait s1 => .next s1
      | .fault k a =>
        if o.cancelled then .next (((if k = 0xA1 then s.noteError core else s).engineRecord core ec o (engineCause k) a).retireOp core ec o)
        else
          .next ((s.engineStop core ec 0 o k a true).updEngine core ec fun e => { e with retireStop := true })
      | .ok _ s1 o1 => .next ((s1.setOp core ec o1).retireOp core ec o1)

def execEngineContextRestart (core ec : Nat) (s : State) : Res := .next (s.engineRestart core ec)
def execEngineContextCancel (core ec : Nat) (s : State) : Res := .next (s.engineCancel core ec)

/-- A held item is applied at the target, in arrival order, after the commit (R348). -/
def execForwardedWrite (core : Nat) (s : State) : Res :=
  match s.relocs.find? fun r => r.core == core && decide (5 ≤ r.step) with
  | none => .next s
  | some r =>
    match r.held with
    | [] => .next { s with relocs := s.relocs.filter fun x => !(x.core == core && decide (5 ≤ x.step)) }
    | h :: rest =>
      let s1 := s.applyHeld core h
      .next { s1 with relocs :=
        (s1.relocs.map fun x => if x.core = core ∧ 5 ≤ x.step then { x with held := rest } else x).filter fun x =>
          !(x.core == core && decide (5 ≤ x.step) && x.held.isEmpty) }

/-! ## The halt of a power-fail completes (R360) -/

def MatOp.still (o : MatOp) : Bool := decide (o.state ≠ .running ∧ o.state ≠ .stopping)
/-- The arrival counter of an operation cannot be written. -/
def State.cannotCount (s : State) (c ec : Nat) (o : CopyOp) : Bool :=
  let v := cview o.record
  match s.engAdd c ec o v.asp v.arr (o.destTeam c) (o.delivered - o.counted) with
  | .fault _ _ => true
  | _ => false
/-- Counters of the device reflect what has been delivered (R194, R359), but those that cannot be written. -/
def State.countsDone (s : State) (c ec : Nat) (e : Engine) : Bool :=
  e.queue.all fun o => o.settled || o.cancelled || !s.mayCount o (cview o.record) || (e.stopped.isSome && s.cannotCount c ec o)
def State.halted (s : State) : Bool :=
  decide (s.power = .failing) && s.cores.all (fun k => k.ops.all MatOp.still) &&
    (mapIdxFrom (fun c k => (mapIdxFrom (fun ec e => s.countsDone c ec e) 0 (Core.engines k)).all fun b => b) 0 s.cores).all fun b => b
/-- Requests of the host and of peers are performed while the device works, and after a power-fail until its halt completes (R359). -/
def State.serves (s : State) : Bool := s.works || (decide (s.power = .failing) && !s.mgmt.refused && !s.halted)

end Sys2Proof.Machine
end

