-- ==== Sys2Proof/Machine/Matrix.lean ====
section
/-! DEFINITION. The instructions of the matrix engine: the meanings of opcode row 0x11 (R201 to R215, R220, R226 to R228, R241
to R244, R250 to R254). -/

namespace Sys2Proof.Machine

/-! ## Tiles of a team (R201, R206, R208) -/

/-- The physical tile of a team-relative one, and the tile. -/
def Team.tileIdx (t : Team) (n : Nat) : Option Nat := t.tiles[n]?
def State.tileOf (s : State) (c : Nat) (t : Team) (n : Nat) : Option Tile :=
  match t.tileIdx n with
  | some i => (s.core c).tiles[i]?
  | none => none
def State.setTile (s : State) (c : Nat) (t : Team) (n : Nat) (x : Tile) : State :=
  match t.tileIdx n with
  | some i => s.updCore c fun k => { k with tiles := updAt k.tiles i fun _ => x }
  | none => s

/-- An undelivered operation reads a tile of its team (R208). -/
def MatOp.reads (o : MatOp) (t : Team) (n : Nat) : Bool :=
  let v := o.view
  o.of t && ((!v.aStream && v.ta == n) || (!v.bStream && v.tb == n))
def Env.tileBusy (e : Env) (n : Nat) : Bool := (e.s.core e.b.core).ops.any fun o => o.reads e.t n
def Env.tile (e : Env) (n : Nat) : Option Tile := e.s.tileOf e.b.core e.t n

def Tile.cleared (ctl : DWord) : Tile := { ctl := ctl, elems := [], scales := [] }

def execTcfg (h : Hdr) (t : BitVec 4) (a : Src) (s : State) : Res :=
  .next (runBundle h
    { uses := { reads := names64 a }
      sel := lowestOnly
      chk := fun e => match e.tile t.toNat with
        | none => .trap { cause := 0x41 }
        | some _ =>
          if !tileOk (e.src64 a) then .trap { cause := 0x47 }
          else if e.tileBusy t.toNat then .trap { cause := 0x4A } else .ok
      act := fun e s => (s.setTile e.b.core e.t t.toNat (Tile.cleared (e.src64 a)), {}) } s)

def execTzero (h : Hdr) (t : BitVec 4) (s : State) : Res :=
  .next (runBundle h
    { uses := {}
      sel := lowestOnly
      chk := fun e => match e.tile t.toNat with
        | none => .trap { cause := 0x41 }
        | some _ => if e.tileBusy t.toNat then .trap { cause := 0x4A } else .ok
      act := fun e s => match s.tileOf e.b.core e.t t.toNat with
        | some x => (s.setTile e.b.core e.t t.toNat (Tile.cleared x.ctl), {})
        | none => (s, {}) } s)

/-! ## TLD and TST (R207) -/

/-- The byte ranges of a tile's image at an address with a pitch: rows, then the scale plane. -/
def tileSpans (x : Tile) (f : ElemFmt) (a pitch : Nat) : List (Nat × Nat) :=
  (List.range x.rows).map (fun i => (a + i * pitch, rowBytes f x.cols)) ++
    (if isB4 f then [(a + x.rows * pitch, x.rows * scaleBytes f x.cols)] else [])

/-- The address of TLD and TST, formed with w = 1. -/
def Env.tileEa (e : Env) (scratch : Bool) (base : Src) (off : BitVec 13) : Except Trap Ea :=
  e.eaOf scratch base .none off.toInt 1 1

/-- The checks of the footprint: the alignment, then every word (R134 to R138). -/
def Env.chkFootprint (e : Env) (a : Ea) (spans : List (Nat × Nat)) (m : Mode) : Chk :=
  if a.scratch then
    match spans.find? fun x => decide (e.t.bytes < x.1 + x.2) with
    | some x => .trap { cause := 0x23, addr := x.1 }
    | none => pieceChk (spans.map fun x => e.chkScratch x.1 x.2 m.reads)
  else
    match spans.find? fun x => decide (2 ^ 56 < x.1 + x.2) with
    | some x => .trap { cause := 0x20, addr := x.1 % 2 ^ 56 + a.tag.toNat * 2 ^ 56 }
    | none => pieceChk ((spans.map fun x => (pieces x.1 x.2).map fun p => e.chkGlobal { a with addr := p.1 } p.2 m).flatten)

/-- The bytes of a range as a read would find them now, unit by unit, in the L1 copies that serve it or at home (R259, R275). -/
def Env.peek (e : Env) (a : Ea) (n : Nat) (l1 : Bool) : List Byte :=
  if a.scratch then e.t.scratchRead a.addr n
  else
    match e.s.hitLeaf e.b.core e.t.ctx a.addr with
    | none => List.replicate n 0
    | some l =>
      let pa := l.phys a.addr
      if inCtl pa then List.replicate n 0
      else ((e.s.unitSteps e.b.core l (l1 && decide (e.s.clsOf l ≠ 3)) (unitPieces l.grain pa n) e.th.clock).map fun x =>
        match (if x.2.2.2 then e.s.l1Copy e.b.core x.1 x.2.2.1 else none) with
        | some y => slice y.data (x.1 - y.base) x.2.1
        | none => e.s.readBytes x.1 x.2.1).flatten

/-- The bytes of spans, span by span and piece by piece. -/
def Env.peekSpans (e : Env) (a : Ea) (spans : List (Nat × Nat)) : List (List Byte) :=
  spans.map fun x => if a.scratch then e.peek { a with addr := x.1 } x.2 false
    else ((pieces x.1 x.2).map fun p => e.peek { a with addr := p.1 } p.2 false).flatten

/-- The tile that a dense image gives: rows' bytes, then the bytes of the scale plane. -/
def Tile.ofImage (x : Tile) (f : ElemFmt) (rows : List (List Byte)) : Tile :=
  let scale (i b : Nat) : Byte := (rows.getD x.rows []).getD (i * scaleBytes f x.cols + b) 0
  let code (i j : Nat) : Nat :=
    let r := rows.getD i []
    let raw := if isB4 f then sliceNat r (j / 2) 1 / 16 ^ (j % 2) % 16 else sliceNat r (j * (elemBits f / 8)) (elemBits f / 8)
    if x.term then termCode f raw (scale i (j / 32)).toNat else raw
  x.fill f code scale

/-- The dense image of a tile: rows' bytes, then the bytes of the scale plane. -/
def Tile.image (x : Tile) (f : ElemFmt) : List (List Byte) :=
  (List.range x.rows).map (fun i =>
    if isB4 f then (List.range (rowBytes f x.cols)).map fun b =>
      BitVec.ofNat 8 (x.code i (2 * b) + 16 * (if 2 * b + 1 < x.cols then x.code i (2 * b + 1) else 0))
    else ((List.range x.cols).map fun j => natBytes (x.code i j) (elemBits f / 8)).flatten) ++
  (if isB4 f then
    [((List.range x.rows).map fun i => (List.range (scaleBytes f x.cols)).map fun b => amGet 0 x.scales (i * 8 + b)).flatten]
   else [])

/-- Reads of pieces in order: the clock. -/
def Env.touchReads (e : Env) (a : Ea) : List (Nat × Nat) → State → Nat → Nat × State
  | [], s, k => (k, s)
  | p :: r, s, k =>
    let (_, k1, _, s1) := e.readElems { a with addr := p.1 } p.2 p.2 false false 1 0 s k
    e.touchReads a r s1 k1
/-- Writes of pieces in order. -/
def Env.writePieces (e : Env) (a : Ea) : List (Nat × Nat) → List Byte → State → Nat → Nat × State
  | [], _, s, k => (k, s)
  | p :: r, d, s, k =>
    let (k1, s1) := e.writeElems { a with addr := p.1 } p.2 [d.take p.2] 0 s k
    e.writePieces a r (d.drop p.2) s1 k1

/-- The checks of TLD and TST up to their footprint. -/
def Env.chkTile (e : Env) (t : BitVec 4) (scratch : Bool) (base : Src) (off : BitVec 13) (p : BitVec 8) (m : Mode)
    (f : Tile → ElemFmt → Ea → List (Nat × Nat) → Chk) : Chk :=
  let pitch := (e.th.g p.toNat).toNat
  let aligned : Except Trap Ea := match e.tileEa scratch base off with
    | .error x => .error x
    | .ok a => if a.addr % 8 ≠ 0 ∨ pitch % 8 ≠ 0 then .error { cause := 0x24, addr := a.tagged } else .ok a
  match e.tile t.toNat with
  | none => match aligned with | .error x => .trap x | .ok _ => .trap { cause := 0x41 }
  | some x =>
    match x.fmt with
    | none => match aligned with | .error y => .trap y | .ok _ => .trap { cause := 0x47 }
    | some fm =>
      if pitch < rowBytes fm x.cols then .trap { cause := 0x03 }
      else
        match aligned with
        | .error y => .trap y
        | .ok a =>
          let spans := tileSpans x fm a.addr pitch
          match e.chkFootprint a spans m with
          | .ok => f x fm a spans
          | c => c

def tileNames (scratch : Bool) (base : Src) (p : BitVec 8) : List RName := baseNames scratch base ++ [.g p.toNat]

def execTld (h : Hdr) (t : BitVec 4) (scratch : Bool) (base : Src) (off : BitVec 13) (p : BitVec 8) (s : State) : Res :=
  .next (runBundle h
    { uses := { reads := tileNames scratch base p }
      sel := lowestOnly
      chk := fun e => e.chkTile t scratch base off p { reads := true, writes := false } fun x f a spans =>
        let y := x.ofImage f (e.peekSpans a spans)
        if x.term && decide (1024 < y.poolBytes f) then .trap { cause := 0x43 }
        else if x.term && y.shiftOut f then .trap { cause := 0x48 }
        else if e.tileBusy t.toNat then .trap { cause := 0x4A }
        else .ok
      act := fun e s => match e.tile t.toNat, e.tileEa scratch base off with
        | some x, .ok a => match x.fmt with
          | some f =>
            let spans := tileSpans x f a.addr (e.th.g p.toNat).toNat
            let (k, s1) := e.touchReads a (spans.map fun y => pieces y.1 y.2).flatten s e.th.clock
            (s1.setTile e.b.core e.t t.toNat (x.ofImage f (e.peekSpans a spans)), { clock := k })
          | none => (s, {})
        | _, _ => (s, {}) } s)

def execTst (h : Hdr) (t : BitVec 4) (scratch : Bool) (base : Src) (off : BitVec 13) (p : BitVec 8) (s : State) : Res :=
  .next (runBundle h
    { uses := { reads := tileNames scratch base p }
      sel := lowestOnly
      chk := fun e => e.chkTile t scratch base off p { reads := false, writes := true } fun x _ _ _ =>
        if x.lost then .trap (lossTrap e) else .ok
      act := fun e s => match e.tile t.toNat, e.tileEa scratch base off with
        | some x, .ok a => match x.fmt with
          | some f =>
            let spans := tileSpans x f a.addr (e.th.g p.toNat).toNat
            let (k, s1) := e.writePieces a (spans.map fun y => pieces y.1 y.2).flatten (x.image f).flatten s e.th.clock
            (s1, { clock := k })
          | none => (s, {})
        | _, _ => (s, {}) } s)

/-! ## The format word and the parameter block (R209, R211, R212, R243) -/

/-- The address of a parameter block. -/
def Env.blockEa (e : Env) (m : MatArg) : Except Trap Ea :=
  if m.scratch then
    let o := fld (e.src64 m.a).toNat 0 24
    if e.t.bytes < o + 64 then .error { cause := 0x23, addr := o }
    else if o % 64 ≠ 0 then .error { cause := 0x24, addr := o }
    else .ok { scratch := true, addr := o, tag := 0, ro := false, xn := false }
  else e.eaOf false m.a .none 0 64 64

def Env.chkBlockMem (e : Env) (a : Ea) : Chk :=
  if a.scratch then e.chkScratch a.addr 64 true else e.chkGlobal a 64 { reads := true, writes := false, l1 := true }

/-- Tile indices that a block names (0x41). -/
def tilesNamed (v : MatView) (n : Nat) : Bool := (v.aStream || decide (v.ta < n)) && (v.bStream || decide (v.tb < n))

/-- The format word is valid (0x42). -/
def fwOk (fw : Word) (v : MatView) (ta tb : Option Tile) : Bool :=
  let w := fw.toNat
  fld w 30 2 == 0 && fld w 0 15 == 0 && (fwA fw).isSome && (fwB fw).isSome &&
  (fwAcc fw == 0 || (fwAcc fw == 1 && decide (fwA fw = some .s8) && decide (fwB fw = some .s8))) &&
  (if v.aStream then !fwLay fw
   else match ta with
     | some t => decide (t.fmt = fwA fw) && t.term == fwLay fw
     | none => false) &&
  (v.bStream || match tb with
    | some t => decide (t.fmt = fwB fw) && !t.term
    | none => false)

/-- The cluster fields (R243); peer is the scratchpad size of the counter's core. -/
def clusterOk (b : List Byte) (v : MatView) (fb : ElemFmt) (n rank peer : Nat) : Bool :=
  clusterZero b && decide (2 ≤ n) && decide (v.pmask < 2 ^ n) && bitOf v.pmask rank &&
  partIndex v.pmask 12 == v.nr * v.nc && v.bStream && (!isB4 fb || v.subCol rank * v.n % 32 == 0) && v.ccnt % 8 == 0 &&
  (if v.csp then v.ccnt / 2 ^ 24 == 0 && decide (v.crank < n) && decide (v.ccnt + 8 ≤ peer)
   else fld v.ccnt 60 4 == 0 && v.crank == 0)

/-- The block is valid for a team of a core (0x45). -/
def blockOk (b : List Byte) (fa fb : ElemFmt) (lay : Bool) (t : Team) (ta tb : Option Tile) (n rank peer : Nat) : Bool :=
  let v := matView b
  let size := (t.groups.headD (Group.launch 0 0 0 [])).threads.length
  blockZero b && (!v.cs || clusterOk b v fb n rank peer) &&
  (v.aStream || match ta with
    | some x => decide (v.arow + v.m ≤ x.rows) && decide (v.acol + v.k ≤ x.cols)
    | none => false) &&
  (v.bStream || match tb with
    | some x => decide (v.brow + v.k ≤ x.rows) && decide (v.bcol + v.n ≤ x.cols)
    | none => false) &&
  (!lay || v.acol % 8 == 0) && (v.aStream || !isB4 fa || v.acol % 32 == 0) && (v.bStream || !isB4 fb || v.bcol % 32 == 0) &&
  v.allot == (if lay then (match ta with | some x => x.allot | none => 0) else 0) && (!v.pw || isB4 fa) &&
  decide (v.cbase ≤ 128) && decide (v.cbase + 127 < t.nregs) &&
  decide (v.glo < t.groups.length) && decide (v.ghi < t.groups.length) && decide (Nat.min v.n 64 ≤ size) &&
  (decide (v.n ≤ 64) || v.glo != v.ghi) &&
  (!v.aStream || (v.streamA fa rank).ok) && (!v.bStream || (v.streamB fb rank).ok)

/-- An A block of a tile that breaks the power-of-two promise (0x49). -/
def tileBreaks (v : MatView) (x : Tile) : Bool :=
  (List.range v.m).any fun i => (List.range (ceilDiv v.k 32)).any fun j =>
    let sc := x.scale (v.arow + i) (v.acol + 32 * j)
    sc / 64 % 4 != 2 && sc % 64 != 63

/-- Everything that the checks of a block need. -/
structure MatCtx where
  b : List Byte
  fw : Word
  v : MatView
  ta : Option Tile
  tb : Option Tile
  rank : Nat
  deriving DecidableEq, Repr

def Env.matCtx (e : Env) (b : List Byte) (fw : Word) : MatCtx :=
  let v := matView b
  { b := b, fw := fw, v := v, ta := if v.aStream then none else e.tile v.ta, tb := if v.bStream then none else e.tile v.tb
    rank := e.s.rankOf e.t e.b.core }

def MatCtx.fa (m : MatCtx) : ElemFmt := (fwA m.fw).getD .s8
def MatCtx.fb (m : MatCtx) : ElemFmt := (fwB m.fw).getD .s8
/-- W of the operation (R219). -/
def MatCtx.w (m : MatCtx) : Nat := boundW m.fa m.v.pw m.v.k (fwLay m.fw) m.v.allot
/-- Its demand Q (R227). -/
def MatCtx.q (m : MatCtx) : Nat := m.w * m.v.m * m.v.n

/-- The causes 0x41, 0x42, 0x45 and 0x49, in this order; the last needs the tile whose scale bytes it judges (R322). -/
def Env.matCauses (e : Env) (m : MatCtx) : Option Trap :=
  let peer := match e.s.peerTeam e.t m.v.crank with
    | some p => p.2.bytes
    | none => 0
  if !tilesNamed m.v e.t.tiles.length then some { cause := 0x41 }
  else if !fwOk m.fw m.v m.ta m.tb then some { cause := 0x42 }
  else if !blockOk m.b m.fa m.fb (fwLay m.fw) e.t m.ta m.tb (e.s.clusterSize e.t) m.rank peer then some { cause := 0x45 }
  else if m.v.pw && (match m.ta with | some x => x.lost | none => false) then some (lossTrap e)
  else if m.v.pw && (match m.ta with | some x => tileBreaks m.v x | none => false) then some { cause := 0x49 }
  else none

/-- The vote (R215): every executing lane holds the elected lane's word. -/
def fwOfLane (t : Team) (g l : Nat) (b : Src) : Word :=
  match b with
  | .g r => (match t.thread? g l with | some th => th.g r.toNat | none => 0)
  | .k r => (match t.groups[g]? with | some gr => (gr.kreg r.toNat).truncate 32 | none => 0)
def Env.elected (e : Env) : Nat × Nat := e.crew.headD (e.g, e.l)
def Env.voteFails (e : Env) (b : Src) : Bool :=
  e.crew.any fun m => fwOfLane e.t m.1 m.2 b != fwOfLane e.t e.elected.1 e.elected.2 b
/-- A lane that is not elected: its format register is read like any other, and may differ. -/
def Env.voteChk (b : Src) (e : Env) : Chk :=
  if beyond e.t.nregs (names32 b) then .trap { cause := 0x04 }
  else if e.th.inWindow (names32 b) then .trap { cause := 0x07 }
  else if fwOfLane e.t e.g e.l b != fwOfLane e.t e.elected.1 e.elected.2 b then .trap { cause := 0x40 }
  else .ok

/-- The block and the checks that TBND, LEASE, MMT and MMT.C share; then their own. -/
def Env.chkMat (e : Env) (m : MatArg) (f : MatCtx → Chk) : Chk :=
  match e.blockEa m with
  | .error t => .trap t
  | .ok a =>
    match e.chkBlockMem a with
    | .ok =>
      let x := e.matCtx (e.peek a 64 true) (e.src32 m.b)
      match e.matCauses x with
      | some t => .trap t
      | none => f x
    | c => c

/-- The eight read events of the block. -/
def Env.readBlock (e : Env) (m : MatArg) (s : State) : Nat × State :=
  match e.blockEa m with
  | .error _ => (e.th.clock, s)
  | .ok a => let (_, k, _, s1) := e.readElems a 8 64 true true 8 0 s e.th.clock; (k, s1)

def Env.matNow (e : Env) (m : MatArg) : MatCtx :=
  match e.blockEa m with
  | .error _ => e.matCtx [] 0
  | .ok a => e.matCtx (e.peek a 64 true) (e.src32 m.b)

def matNames (m : MatArg) : List RName := names64 m.a ++ names32 m.b

/-! ## The lease pool (R250 to R254) -/

/-- Predicted rail current, in microamperes: the latest readings, and leases granted but not yet drawing (R254). -/
def State.leaseCurrent (_s : State) (q w : Nat) : Nat := if w = 0 then 0 else q * 390 / w
def MatOp.bound (o : MatOp) : Nat := boundW o.fmtA o.view.pw o.view.k (fwLay o.fw) o.view.allot
def State.predicted (s : State) : Nat :=
  sumList (s.clusters.map fun x => x.reading * 500000 +
    sumList (x.cores.map fun c =>
      sumList ((s.core c).ops.map fun o =>
        if decide (o.state = .leaseWait ∨ o.state = .queued) && (x.entry o.grid o.cluster).isSome then s.leaseCurrent o.holds o.bound else 0) +
      sumList ((s.core c).teams.map fun t =>
        if (x.entry t.grid t.cluster).isSome then s.leaseCurrent (t.leaseHeld s.cycle) (s.lifetimeOf x.pool) else 0)))

/-- The longest interval above the sustained rail limit, and the least between two of them. -/
def railTime : Nat := 55000
/-- The rail limits allow a grant: within 5,000 A, and above 2,600 A only in an interval that has not lasted its time, or one that may
begin. -/
def State.railAllows (s : State) (q w : Nat) : Bool :=
  let p := s.predicted + s.leaseCurrent q w
  decide (p ≤ 5000000000) && (decide (p ≤ 2600000000) || match s.railSince with
    | some t => decide (s.cycle < t + railTime)
    | none => decide (s.railRecover ≤ s.cycle))

/-- The pool of a cluster, of a capacity, covers a request (R252). -/
def State.poolCovers (s : State) (x : Cluster) (q cap : Nat) : Bool :=
  let held := s.heldOf x
  decide (q + held ≤ cap) || (decide (cap < q) && held == 0)

def State.canGrant (s : State) (x : Cluster) (q cap w : Nat) : Bool := s.poolCovers x q cap && s.railAllows q w

/-- A request joins its cluster's queue: behind those made earlier, and among those of its cycle by the rank of its core (R252). -/
def insertReq (r : LeaseReq) : List LeaseReq → List LeaseReq
  | [] => [r]
  | x :: l => if x.at_ = r.at_ ∧ r.rank < x.rank then r :: x :: l else x :: insertReq r l
/-- A request made now, with the parameters in force (R250). -/
def State.leaseReq (s : State) (x : Cluster) (who : LeaseWho) (q rank : Nat) : LeaseReq :=
  { who := who, q := q, at_ := s.cycle, rank := rank, cap := s.capacityOf x.pool, life := s.lifetimeOf x.pool }

/-! ## MMT and MMT.C (R213 to R215, R222, R227, R244) -/

/-- The lanes and registers that a block claims. -/
def claimsOf (v : MatView) : List (Nat × Nat) :=
  (List.range (Nat.min v.n 64)).map (fun l => (v.glo, l)) ++ (List.range (v.n - 64)).map fun l => (v.ghi, l)

/-- Tags of a group's threads that hold a matrix operation. -/
def Group.matTags (g : Group) : Nat :=
  sumList (g.threads.map fun th => (th.tags.filter fun t => match t with | some x => x.op.isSome | none => false).length)

/-- A claim overlaps another, or a destination that is pending, or covers the elected thread's d (0x44). -/
def Env.claimClash (e : Env) (v : MatView) (d : Nat) : Bool :=
  let regs := (List.range v.m).map (v.cbase + ·)
  (claimsOf v).any (fun x =>
    ((e.s.core e.b.core).ops.any fun o => regs.any fun r => o.claims e.t.id x.1 x.2 r) ||
    (match e.t.thread? x.1 x.2 with
     | some th => th.inTags (regs.map .g) || th.inWindow (regs.map .g)
     | none => false)) ||
  ((claimsOf v).contains (e.g, e.l) && regs.contains d)

/-- The footprints of the streams of a block, as byte ranges. -/
def Stream.spans (x : Stream) : List (Nat × Nat) :=
  let at' (y : Nat × Nat) : Nat × Nat := (fld x.ptr 0 56 + x.disp + y.1, y.2)
  (List.range x.rows).map (fun i => at' (x.rowSpan i 0 x.width)) ++
    (if isB4 x.fmt then (List.range x.rows).map fun i => at' (x.scaleSpan i 0 x.width) else [])
def MatCtx.streams (m : MatCtx) : List Stream :=
  (if m.v.aStream then [m.v.streamA m.fa m.rank] else []) ++ (if m.v.bStream then [m.v.streamB m.fb m.rank] else [])

/-- MMT.C's checks of its streams: every page and granule (R222). -/
def Env.chkStreams (e : Env) (m : MatCtx) : Chk :=
  pieceChk ((m.streams.map fun x =>
    (x.spans.map fun sp => (pieces sp.1 sp.2).map fun p =>
      e.chkGlobal { scratch := false, addr := p.1, tag := BitVec.ofNat 4 (fld x.ptr 56 4), ro := false, xn := false } p.2
        { reads := false, writes := false }).flatten).flatten)

/-- The cluster counter's word is checked like a page that is written (R244). -/
def Env.chkCounter (e : Env) (v : MatView) : Chk :=
  if !v.cs || v.csp then .ok
  else
    match e.s.checkPage e.b.core e.t.ctx e.t.sup (fld v.ccnt 0 56) true false with
    | .trap c => .trap { cause := c, addr := fld v.ccnt 0 60, extra := if c = 0xA1 then e.b.pc.toNat else 0 }
    | .miss p => .miss [p]
    | .ok l => if e.s.gtag (l.phys (fld v.ccnt 0 56)) ≠ BitVec.ofNat 4 (fld v.ccnt 56 4)
        then .trap { cause := 0x28, addr := fld v.ccnt 0 60 } else .ok

/-- The translation that covers an address now. -/
def State.xlatOf (s : State) (c ctx va : Nat) : Option Xlat :=
  ((s.core c).tlb ++ (s.die (s.dieOf c)).tlb).find? fun x => x.covers ctx va

/-- The pages that MMT.C pins. -/
def Env.pinPages (e : Env) (m : MatCtx) : List Xlat :=
  ((m.streams.map fun x => (x.spans.map fun sp => (pieces sp.1 sp.2).filterMap fun p =>
    e.s.xlatOf e.b.core e.t.ctx p.1).flatten).flatten).eraseDups

/-- The explicit lease of the group that covers a demand. -/
def Env.leaseFor (e : Env) (q : Nat) : Bool :=
  match e.gr.lease with
  | some l => decide (e.s.cycle < l.expiry) && decide (q ≤ l.left)
  | none => false
def Env.needsLease (e : Env) (q : Nat) : Bool := decide (e.s.allowanceOf (e.s.poolOf e.t) < q)

/-- A starting accumulator or a tile that the operation reads has been destroyed by an error (R322). -/
def Env.chkStart (e : Env) (m : MatCtx) : Chk :=
  let v := m.v
  if (match m.ta with | some x => x.lost | none => false) || (match m.tb with | some x => x.lost | none => false) then .trap (lossTrap e)
  else if !v.z && (claimsOf v).any fun x => match e.t.thread? x.1 x.2 with
    | some th => (List.range v.m).any fun i => th.lost.contains (.g (v.cbase + i))
    | none => false
  then .trap (lossTrap e) else .ok

/-- The starting accumulators (R213). -/
def startRows (t : Team) (v : MatView) : List (List Word) :=
  (List.range v.m).map fun i => (claimsOf v).map fun x =>
    if v.z then 0 else match t.thread? x.1 x.2 with
      | some th => th.g (v.cbase + i)
      | none => 0

def Env.newOp (e : Env) (m : MatCtx) (tag : Nat) (pinned : Bool) (drawn : Bool) (id clock : Nat) : MatOp :=
  let start := startRows e.t m.v
  let q := m.q
  { id := id, team := e.t.id, vtid := e.t.vtid, group := e.g, lane := e.l, tag := tag, desc := e.t.desc, ctx := e.t.ctx, sup := e.t.sup
    block := m.b, fw := m.fw, start := start, rows := start.map fun r => { done := 0, next := none, history := [r], costs := [] }
    p := 0, began := 0, base := 0, since := 0
    state := .queued, target := none, fault := none, tileA := m.ta, tileB := m.tb
    pins := if pinned then e.pinPages m else [], pinned := pinned, demand := if e.needsLease q then q else 0
    drawn := if drawn then q else 0, granted := none, replays := 0, cancelOnly := false, cancelled := false, words := []
    grid := e.t.grid, cluster := e.t.cluster, wrank := m.rank
    ccnt := if m.v.cs && !m.v.csp then e.s.xlatOf e.b.core e.t.ctx (fld m.v.ccnt 0 56) else none, clock := clock }

/-- MMT and MMT.C; pin says that the streams are checked at issue. -/
def mmtSem (h : Hdr) (d : BitVec 8) (m : MatArg) (pin : Bool) : Sem :=
  { uses := { reads := matNames m, dests := [.g d.toNat], matrix := true }
    sel := lowestOnly
    allTags := .elected
    bystander := Env.voteChk m.b
    mute := fun e => e.voteFails m.b && !e.lostReg (names32 m.b)
    chk := fun e =>
      if e.voteFails m.b then .ok
      else e.chkMat m fun x =>
        if 2 ≤ e.gr.matTags then .trap { cause := 0x46 }
        else if e.claimClash x.v d.toNat then .trap { cause := 0x44 }
        else firstChk [if pin then e.chkStreams x else .ok, e.chkCounter x.v, e.chkStart x]
    act := fun e s =>
      let x := e.matNow m
      let (k, s1) := e.readBlock m s
      let need := e.needsLease x.q
      let draw := need && e.leaseFor x.q
      let op := e.newOp x h.tag.toNat pin draw s.nextOp k
      let s2 := if draw then
          s1.updGroup e.b.core e.b.team e.g fun g => { g with lease := g.lease.map fun l => { l with left := l.left - x.q } }
        else s1
      ({ s2.updCore e.b.core fun c => { c with ops := c.ops ++ [op] } with nextOp := s.nextOp + 1 },
       { op := some s.nextOp, clock := k, pc := some (e.b.pc + 10), park := if need && !draw then some .grant else none }) }

def execMmt (h : Hdr) (d : BitVec 8) (m : MatArg) (s : State) : Res := .next (runBundle h (mmtSem h d m false) s)
def execMmtC (h : Hdr) (d : BitVec 8) (m : MatArg) (s : State) : Res := .next (runBundle h (mmtSem h d m true) s)

/-! ## MMTS, TBND, LEASE, LREL -/

/-- The status word (R226). -/
def MatOp.statusWord (o : MatOp) : Nat :=
  let st := match o.state with
    | .queued => 0 | .leaseWait => 1 | .running => 2 | .stopping => 2 | .stopped => 3 | .faulted => 4
  2 ^ 31 + st * 2 ^ 28 + o.minDone * 2 ^ 16 + Nat.min o.replays 255 * 2 ^ 8

/-- The undelivered operation that a tag holds. -/
def Env.tagOp (e : Env) (n : Nat) : Option MatOp :=
  match e.th.tags.getD n none with
  | some t => match t.op with
    | some id => if t.delivered then none else (e.s.core e.b.core).ops.find? fun o => o.id == id
    | none => none
  | none => none

def execMmts (h : Hdr) (d : BitVec 8) (n : BitVec 3) (s : State) : Res :=
  .next (runBundle h (pureSem { dests := [.g d.toNat] } fun e =>
    write32 d (match e.tagOp n.toNat with
      | some o => BitVec.ofNat 32 o.statusWord
      | none => 0)) s)

def execTbnd (h : Hdr) (d : BitVec 8) (m : MatArg) (s : State) : Res :=
  .next (runBundle h
    { uses := { reads := matNames m, dests := [.g d.toNat] }
      chk := fun e => e.chkMat m fun _ => .ok
      act := fun e s =>
        let (k, s1) := e.readBlock m s
        (s1, { writes := write32 d (BitVec.ofNat 32 (e.matNow m).w), clock := k }) } s)

def State.updCluster (s : State) (id : Nat) (f : Cluster → Cluster) : State :=
  { s with clusters := s.clusters.map fun x => if x.id = id then f x else x }

/-- LEASE: the group's old lease returns; then a request, or for .t a grant at once or none. -/
def Env.takeLease (e : Env) (t : Bool) (d : BitVec 8) (q : Nat) (s : State) : State × Out :=
  let s1 := s.updGroup e.b.core e.b.team e.g fun g => { g with lease := none }
  match s1.clusterOf e.t.grid e.t.cluster with
  | none => (s1, { writes := if t then writeP (d.truncate 3) false else write32 d 0 })
  | some x =>
    let r := s1.leaseReq x (.explicit e.ref) q (e.s.rankOf e.t e.b.core)
    if t then
      if x.queue.isEmpty && s1.canGrant x q r.cap r.life then
        (s1.updGroup e.b.core e.b.team e.g fun g => { g with lease := some { left := q, expiry := s.cycle + r.life } },
         { writes := writeP (d.truncate 3) true })
      else (s1, { writes := writeP (d.truncate 3) false })
    else
      (s1.updCluster x.id fun y => { y with queue := insertReq r y.queue }, { park := some .lease, late := true })

def execLease (h : Hdr) (t : Bool) (d : BitVec 8) (m : MatArg) (s : State) : Res :=
  .next (runBundle h
    { uses := { reads := matNames m, dests := if t then predDst (d.truncate 3) else [.g d.toNat] }
      sel := lowestOnly
      allTags := .elected
      bystander := Env.voteChk m.b
      mute := fun e => e.voteFails m.b && !e.lostReg (names32 m.b)
      chk := fun e => if e.voteFails m.b then .ok else e.chkMat m fun _ => .ok
      act := fun e s =>
        let (k, s1) := e.readBlock m s
        let (s2, o) := e.takeLease t d (e.matNow m).q s1
        (s2, { o with clock := k }) } s)

def execLrel (h : Hdr) (s : State) : Res :=
  .next (runBundle h
    { uses := {}
      sel := lowestOnly
      act := fun e s => (s.updGroup e.b.core e.b.team e.g fun g => { g with lease := none }, {}) } s)

end Sys2Proof.Machine
end

