-- ==== Sys2Proof/Machine/Launch.lean ====
section
/-! DEFINITION. Launch parameter blocks and the meaning of LNCH (R329 to R333). -/

namespace Sys2Proof.Machine

/-- The fields of a launch parameter block (R331). -/
structure LaunchView where
  entry : Nat
  kparam : Nat
  nteam : Nat
  cw : Nat
  ch : Nat
  gsz : Nat
  ngrp : Nat
  nreg : Nat
  scr : Nat
  lsh : Nat
  ntile : Nat
  sup : Bool
  pri : Nat
  cls : Nat
  nwait : Nat
  fmt : Nat
  done : Nat
  deriving DecidableEq, Repr

def launchView (b : List Byte) : LaunchView :=
  { entry := fld (sliceNat b 0 8) 0 56, kparam := sliceNat b 8 8, nteam := sliceNat b 16 4
    cw := fld (sliceNat b 20 1) 4 4 + 1, ch := fld (sliceNat b 20 1) 0 4 + 1, gsz := fld (sliceNat b 21 1) 0 6 + 1
    ngrp := fld (sliceNat b 22 1) 0 5 + 1, nreg := (fld (sliceNat b 23 1) 0 5 + 1) * 8, scr := fld (sliceNat b 24 4) 0 22
    lsh := sliceNat b 28 1, ntile := fld (sliceNat b 29 1) 0 5, sup := bitOf (sliceNat b 30 1) 7
    pri := fld (sliceNat b 30 1) 4 2, cls := fld (sliceNat b 30 1) 0 2, nwait := fld (sliceNat b 31 1) 0 4
    fmt := sliceNat b 32 4, done := sliceNat b 40 8 }

def waitPtr (b : List Byte) (j : Nat) : Nat := sliceNat b (64 + 16 * j) 8
def waitThr (b : List Byte) (j : Nat) : Nat := sliceNat b (72 + 16 * j) 8
/-- The cluster size n. -/
def LaunchView.size (v : LaunchView) : Nat := v.cw * v.ch
/-- Granules of one team's carve-out (R161). -/
def LaunchView.granules (v : LaunchView) : Nat := granulesFor v.nreg (v.gsz * v.ngrp) v.scr v.lsh

/-- Every reserved field and unused wait entry is zero, and nwait is at most 8. -/
def launchZero (b : List Byte) : Bool :=
  let v := launchView b
  sliceNat b 7 1 == 0 && fld (sliceNat b 21 1) 6 2 == 0 && fld (sliceNat b 22 1) 5 3 == 0 && fld (sliceNat b 23 1) 5 3 == 0 &&
  fld (sliceNat b 24 4) 22 10 == 0 && fld (sliceNat b 29 1) 5 3 == 0 && !bitOf (sliceNat b 30 1) 6 &&
  fld (sliceNat b 30 1) 2 2 == 0 && fld (sliceNat b 31 1) 4 4 == 0 && sliceNat b 36 4 == 0 && sliceNat b 48 16 == 0 &&
  sliceNat b 192 64 == 0 && decide (v.nwait ≤ 8) && sliceNat b (64 + 16 * v.nwait) (16 * (8 - v.nwait)) == 0

/-- A tagged pointer to a counter. -/
def counterPtr (p : Nat) : Bool := fld p 60 4 == 0 && p % 8 == 0

/-- The lowest of reasons 0x01 to 0x06 that a block breaks (R332). -/
def blockReason (b : List Byte) (ctxSup : Bool) : Option Nat :=
  let v := launchView b
  if !launchZero b then some 1
  else if v.entry % 10 ≠ 0 then some 2
  else if v.nteam = 0 ∨ 2 ^ 24 < v.nteam ∨ 12 < v.size ∨ v.nteam % v.size ≠ 0 then some 3
  else if 3145728 < v.scr ∨ 16 < v.ntile ∨ 188 < v.granules then some 4
  else if v.sup && !ctxSup then some 5
  else if !counterPtr v.done || (List.range v.nwait).any fun j => !counterPtr (waitPtr b j) then some 6
  else none

/-- The address of a tagged pointer, aligned to al (R133, R134). -/
def ptrEa (p al : Nat) : Except Trap Ea :=
  if fld p 60 4 ≠ 0 then .error { cause := 0x20, addr := fld p 0 60 }
  else if fld p 0 56 % al ≠ 0 then .error { cause := 0x24, addr := fld p 0 60 }
  else .ok { scratch := false, addr := fld p 0 56, tag := BitVec.ofNat 4 (fld p 56 4), ro := false, xn := false }

/-- Slot n of a queue, as its tagged pointer. -/
def Queue.slotPtr (q : Queue) (n : Nat) : Nat := (q.base.toNat + 256 * (n % 2 ^ q.qsize)) % 2 ^ 64

/-- An access by a tagged pointer. -/
def Env.chkPtr (e : Env) (p al n : Nat) (m : Mode) : Chk :=
  match ptrEa p al with
  | .error t => .trap t
  | .ok a => e.chkGlobal a n m

/-- What a tagged pointer reads now, in n bytes. -/
def Env.peekPtr (e : Env) (p n : Nat) : List Byte :=
  match ptrEa p 1 with
  | .error _ => []
  | .ok a => e.peek a n false

def readMode : Mode := { reads := true, writes := false }

/-- Blocks that lower lanes of the bundle append before this one. -/
def Env.lowerLanes (e : Env) : Nat := (e.crew.findIdx? fun x => x == (e.g, e.l)).getD 0
/-- A queue of 2^z slots is full: P − C, computed exactly (R9), is at least 2^z (R333). A consumer value above P leaves room. -/
def queueFull (z p c : Nat) : Bool := decide (2 ^ z + c ≤ p)

/-- The causes of a lane's LNCH, in the order of R333. -/
def Env.chkLaunch (e : Env) (t : Bool) (n : Nat) (a : Src) : Chk :=
  let pb := (e.src64 a).toNat
  let q := e.s.queueAt e.t.desc n
  match e.chkPtr pb 256 256 readMode with
  | .ok =>
    if !q.valid || !q.dev then .trap { cause := 0x86 }
    else if (blockReason (e.peekPtr pb 256) (e.s.ctxAt e.t.desc).sup).isSome then .trap { cause := 0x86 }
    else
      match firstChk [e.chkPtr q.prod.toNat 8 8 readMode, e.chkPtr q.cons.toNat 8 8 readMode] with
      | .ok =>
        let p := (bytesNat (e.peekPtr q.prod.toNat 8) + e.lowerLanes) % 2 ^ 64
        if queueFull q.qsize p (bytesNat (e.peekPtr q.cons.toNat 8)) then
          (if t then .ok else .trap { cause := 0x87 })
        else firstChk [e.chkPtr (q.slotPtr p) 8 256 storeMode, e.chkPtr q.prod.toNat 8 8 storeMode]
      | c => c
  | c => c

/-- One lane appends its block. -/
def Env.launch (e : Env) (t : Bool) (d : BitVec 3) (n : Nat) (a : Src) (s : State) : State × Out :=
  let q := s.queueAt e.t.desc n
  match ptrEa (e.src64 a).toNat 256, ptrEa q.prod.toNat 8, ptrEa q.cons.toNat 8 with
  | .ok src, .ok prod, .ok cons =>
    let (b, k1, _, s1) := e.readElems src 8 256 false false 32 0 s e.th.clock
    let (pd, k2, _, s2) := e.readElems prod 8 8 false false 1 0 s1 k1
    let (cd, k3, _, s3) := e.readElems cons 8 8 false false 1 0 s2 k2
    let p := bytesNat pd
    if queueFull q.qsize p (bytesNat cd) then (s3, { writes := if t then writeP d false else [], clock := k3 })
    else
      match ptrEa (q.slotPtr p) 8 with
      | .error _ => (s3, { clock := k3 })
      | .ok slot =>
        let (k4, s4) := e.writeElems slot 256 (elems8 b) 0 s3 k3
        let (k5, s5) := e.writeElems prod 8 [natBytes ((p + 1) % 2 ^ 64) 8] 0 s4 k4
        let s6 := match s5.hitLeaf e.b.core e.t.ctx prod.addr with
          | some l => s5.pushWord (l.phys prod.addr)
          | none => s5
        (s6, { writes := if t then writeP d true else [], clock := k5 })
  | _, _, _ => (s, {})

def execLnch (h : Hdr) (t : Bool) (d : BitVec 3) (q : BitVec 3) (a : Src) (s : State) : Res :=
  .next (runBundle h
    { uses := { reads := names64 a, dests := if t then predDst d else [] }
      chk := fun e => e.chkLaunch t q.toNat a
      act := fun e s => e.launch t d q.toNat a s } s)

end Sys2Proof.Machine
end

