-- ==== Sys2Proof/Machine/System.lean ====
section
/-! DEFINITION. The system instructions: TRAP, SYSC, ERET, TLBI, FENCE.I, CTXSW, MIGR and WFI (R314 to R319, R346). -/

namespace Sys2Proof.Machine

/-! ## TRAP and SYSC (R315) -/

def execTrap (h : Hdr) (imm : BitVec 31) (s : State) : Res :=
  .next (runBundle h
    { uses := {}
      chk := fun _ => .trap { cause := 0x0A, addr := imm.toNat, done := true }
      act := fun _ s => (s, {}) } s)

def execSysc (h : Hdr) (a : BitVec 8) (imm : BitVec 31) (s : State) : Res :=
  .next (runBundle h
    { uses := { reads := [.g a.toNat] }
      chk := fun e => .trap { cause := 0x0B, addr := imm.toNat, extra := (e.th.g a.toNat).toNat, done := true }
      act := fun _ s => (s, {}) } s)

/-- A supervisor instruction at user level (R21, R24). -/
def Env.supOnly (e : Env) : Option Trap := if e.t.sup then none else some { cause := 0x05 }
def refused : Chk := .trap { cause := 0xA3 }

/-! ## ERET (R315) -/

/-- The causes after which the faulting thread may resume unchanged (R171, R229, R301, R313). -/
def resumes (cause : Nat) : Bool :=
  [0x0A, 0x0B, 0x21, 0x25, 0x26, 0x27, 0x28, 0x29, 0x44, 0x46, 0x4A, 0x70, 0x71, 0x73, 0x76, 0x77, 0x87, 0x88, 0x89, 0xA0,
   0xA5].contains cause

/-- The halt entry that ERET names, with its context descriptor and its halted team, which may lie in an image. -/
def State.eretTarget (s : State) (ctx idx : Nat) : Option (Nat × HaltEntry × Team) :=
  match s.ctxById ctx with
  | none => none
  | some i =>
    match (s.ctxAt i).halts.find? fun h => h.idx == idx with
    | none => none
    | some h =>
      match s.findTeam h.core ctx h.vtid with
      | some t => if t.halt.isSome && !t.leaving then some (i, h, t) else none
      | none => none

def eretCtx (e : Env) (a : Src) : Nat := (e.src32 a).toNat % 4096
def eretIdx (e : Env) (b : Src) : Nat := (e.src32 b).toNat % 4096

/-- Where the halt block entry of a thread lies (R309). -/
def haltAddr (base idx g l : Nat) : Nat := base + idx * 16384 + 8 * (64 * g + l)

/-- The threads of a team that have not exited, in block order. -/
def Team.liveThreads (t : Team) : List (Nat × Nat) :=
  t.lanes.filter fun x => match t.thread? x.1 x.2 with
    | some th => !th.exited
    | none => false

/-- Reads of a team's halt block entries: the PCs, whether one lies in a lost granule, the clock and the state. -/
def readHalt (base idx : Nat) : List (Nat × Nat) → State → Nat → List (Nat × Nat × VAddr) × Bool × Nat × State
  | [], s, k => ([], false, k, s)
  | x :: r, s, k =>
    let a := haltAddr base idx x.1 x.2
    let (v, t, s1) := s.physRead8 a k
    let (l, lost, k2, s2) := readHalt base idx r s1 t
    ((x.1, x.2, BitVec.ofNat 56 v) :: l, lost || (s.lostIn a 8).isSome, k2, s2)
/-- The PCs that a halt block gives. -/
def State.haltPcs (s : State) (base idx : Nat) (t : Team) : List (Nat × Nat × VAddr) := (readHalt base idx t.liveThreads s 0).1

/-- A halt entry is free again. -/
def State.freeHalt (s : State) (i idx : Nat) : State :=
  s.updCtx i fun x => { x with halts := x.halts.filter fun h => h.idx != idx }

/-- The faulting thread would resume unchanged after a cause that does not allow it. -/
def resumeBlocked (h : HaltEntry) (pcs : List (Nat × Nat × VAddr)) : Bool :=
  h.cause == 0xA4 || (!resumes h.cause && match h.who with
    | some (g, l) => pcs.any fun x => x.1 == g && x.2.1 == l && x.2.2 == h.pc
    | none => false)

/-- ERET.resume. A PC that is not a multiple of 10 takes 0xA3, by R315's steps, where R18 names 0x06 (DEDUCED, log 84); an entry in a
lost granule cannot be read (R321). -/
def execEretResume (h : Hdr) (a b : Src) (s : State) : Res :=
  .next (runBundle h
    { uses := { reads := names32 a ++ names32 b }
      sel := lowestOnly
      early := Env.supOnly
      chk := fun e => match e.s.eretTarget (eretCtx e a) (eretIdx e b) with
        | none => refused
        | some (i, x, t) =>
          let base := (e.s.ctxAt i).hbase
          let (pcs, lost, _, _) := readHalt base x.idx t.liveThreads e.s 0
          let held := (t.liveThreads.map fun y => haltAddr base x.idx y.1 y.2).filter fun p => e.s.physHeld p 8
          if !held.isEmpty then .later (.home held)
          else if lost then .trap (lossTrap e)
          else if (pcs.any fun p => p.2.2.toNat % 10 != 0) || resumeBlocked x pcs then refused else .ok
      act := fun e s => match s.eretTarget (eretCtx e a) (eretIdx e b) with
        | none => (s, {})
        | some (i, x, t) =>
          let (pcs, _, k, s1) := readHalt (s.ctxAt i).hbase x.idx t.liveThreads s e.th.clock
          ((s1.resumeTeam x.core t pcs).freeHalt i x.idx, { clock := k }) } s)

/-- A team that ERET.remove names: its explicit leases return, and it leaves its core when it may (R155, R251). -/
def Team.leave (t : Team) : Team := { t with leaving := true, groups := t.groups.map fun g => { g with lease := none } }

/-- The team leaves once its copies have retired (TEAM_DEPARTURE); its stopped operations are cancelled. -/
def execEretRemove (h : Hdr) (a b : Src) (s : State) : Res :=
  .next (runBundle h
    { uses := { reads := names32 a ++ names32 b }
      sel := lowestOnly
      early := Env.supOnly
      chk := fun e => if (e.s.eretTarget (eretCtx e a) (eretIdx e b)).isSome then .ok else refused
      act := fun e s => match s.eretTarget (eretCtx e a) (eretIdx e b) with
        | none => (s, {})
        | some (i, x, t) =>
          let s1 := s.cancelOps x.core fun o => o.of t
          ((s1.updNamed x.core t.ctx t.vtid Team.leave).freeHalt i x.idx, {}) } s)

/-! ## TLBI and FENCE.I (R316, R317) -/

/-- The translations that a TLBI removes: of a context, and of the page that holds an address. -/
def tlbiHits (ctx va : Option Nat) (x : Xlat) : Bool :=
  (match ctx with | some c => x.ctx == c | none => true) &&
    (match va with | some v => decide (x.va ≤ v) && decide (v < x.va + x.size) | none => true)

/-- Some of the places where a page has been seen still maps it, as a private page. -/
def State.stillPrivate (s : State) (p : PageRec) : Bool :=
  p.mapped.any fun m => match s.walk m.1 m.2 with
    | .leaf x => (leafOf x).pa == p.base && (leafOf x).cls == 0
    | _ => false

/-- The leaf's own class applies to a page from now on (R260, R262, R343): its override ends, no core owns it or keeps a copy of it, and its
later writes follow the reads made so far. A page that stays private keeps its owner; a pinned page is not switched. -/
def State.endOverride (s : State) (pa : Nat) : State :=
  match s.pages.find? fun q => q.base == pa && !s.pagePinned pa with
  | none => s
  | some p =>
    if p.cls.isNone && s.stillPrivate p then s
    else
      let top := s.maxClock
      { s with
        cores := s.cores.map fun k => k.dropL1 p.base p.size
        pages := s.pages.map fun q => if q.base = pa then { q with owner := none, cls := none, floor := Nat.max q.floor top } else q }

/-- The translations that the TLBs hold and p covers, and the present one of a page that a TLBI names. -/
def State.coveredXlats (s : State) (ctx va : Option Nat) : List Xlat :=
  (s.cores.map fun k => k.tlb.filter (tlbiHits ctx va)).flatten ++ (s.dies.map fun d => d.tlb.filter (tlbiHits ctx va)).flatten ++
    match ctx, va with
    | some c, some v => match s.walk c v with | .leaf x => [x] | .bad _ => []
    | _, _ => []
/-- Home keeps where a TLBI has found a page mapped. -/
def State.noteXlats (s : State) (l : List Xlat) : State :=
  l.foldl (fun s x => s.updPage (leafOf x) fun p => p.seen x.ctx x.va) s

/-- The pages with a record that a TLBI covers; one that has been reached by its physical address alone counts with every TLBI that
names no page (log 87). -/
def State.pagesHit (s : State) (ctx va : Option Nat) : List Nat :=
  (s.pages.filter fun q => (q.mapped.any fun m => tlbiHits ctx va { ctx := m.1, va := m.2, size := q.size, leaf := 0 }) ||
    (q.mapped.isEmpty && va.isNone)).map fun q => q.base

/-- A TLBI completes: the leaf's own class applies to every page that it covers. One that names no page also covers pages of which home
has no record: no core keeps an untracked copy of them, and every later write follows the reads made so far (log 87). -/
def State.endMappings (s : State) (ctx va : Option Nat) : State :=
  let s1 := (s.pagesHit ctx va).foldl State.endOverride s
  if va.isSome then s1
  else { s1 with
    floor := Nat.max s1.floor s1.maxClock
    cores := s1.cores.map fun k => { k with
      l1 := k.l1.filter fun x => x.leased || (s1.pageAt x.base).isSome
      fills := k.fills.map fun x => if x.leased || (s1.pageAt x.base).isSome then x else { x with dead := true } } }

/-- Removes translations from every TLB and walker of both dies, and the fetched lines of their contexts. -/
def State.tlbi (s : State) (ctx : Option Nat) (p : Xlat → Bool) : State :=
  let other (c : Nat) : Bool := match ctx with
    | some x => c != x
    | none => false
  { s with
    cores := s.cores.map fun k => { k with
      tlb := k.tlb.filter fun x => !p x, bad := k.bad.filter fun x => other x.ctx, ilines := k.ilines.filter fun x => other x.ctx }
    dies := s.dies.map fun d => { d with tlb := d.tlb.filter fun x => !p x } }

/-- The thread is not ready until no pinned translation that it removes is left; its later events follow every access made
with a removed one. When it completes, the leaf's own class applies to the pages that it covers (R343). -/
def tlbiSem (u : Uses) (bad : Env → Bool) (ctx va : Env → Option Nat) : Sem :=
  { uses := u
    sel := lowestOnly
    early := Env.supOnly
    chk := fun e => if bad e then refused else .ok
    act := fun e s =>
      let p := tlbiHits (ctx e) (va e)
      let s1 := (s.noteXlats (s.coveredXlats (ctx e) (va e))).tlbi (ctx e) p
      if s.pinnedBy p then (s1, { clock := s.maxClock, hold := some (.tlbi (ctx e) (va e)) })
      else (s1.endMappings (ctx e) (va e), { clock := s.maxClock }) }

def noCtx (e : Env) (b : Src) : Bool := (e.s.ctxById (eretCtx e b)).isNone

def execTlbiVa (h : Hdr) (a b : Src) (s : State) : Res :=
  .next (runBundle h (tlbiSem { reads := names64 a ++ names32 b } (fun e => noCtx e b) (fun e => some (eretCtx e b))
    fun e => some (fld (e.src64 a).toNat 0 56)) s)
def execTlbiCtx (h : Hdr) (b : Src) (s : State) : Res :=
  .next (runBundle h (tlbiSem { reads := names32 b } (fun e => noCtx e b) (fun e => some (eretCtx e b)) fun _ => none) s)
def execTlbiAll (h : Hdr) (s : State) : Res :=
  .next (runBundle h (tlbiSem {} (fun _ => false) (fun _ => none) fun _ => none) s)

/-- Lines fetched before the instruction do not serve the thread any more. -/
def execFenceI (h : Hdr) (s : State) : Res :=
  .next (runBundle h
    { uses := {}
      sel := lowestOnly
      act := fun _ s => ({ s with stamp := s.stamp + 1 }, { fence := s.stamp + 1 }) } s)

/-! ## CTXSW (R318) -/

/-- The context has resident teams on a core, or an image for it. -/
def State.onCore (s : State) (c ctx : Nat) : Bool :=
  (s.core c).teams.any (fun t => t.ctx == ctx) ||
    s.images.any fun i => i.core == c && i.teams.any fun t => t.ctx == ctx

def Core.bankCtx (k : Core) (b ctx : Nat) : Bool := (k.bankTeams b).any fun t => t.ctx == ctx

/-- A request to make a context current; it has no effect where the context is. -/
def State.askSwitch (s : State) (c ctx : Nat) : State :=
  s.updCore c fun k => if k.bankCtx k.active ctx then k else { k with switch := some ctx }

def execCtxsw (h : Hdr) (a b : BitVec 8) (s : State) : Res :=
  .next (runBundle h
    { uses := { reads := [.g a.toNat, .g b.toNat] }
      sel := lowestOnly
      early := Env.supOnly
      chk := fun e =>
        let c := (e.th.g a.toNat).toNat % 256
        let x := (e.th.g b.toNat).toNat % 4096
        if 223 < c || (e.s.ctxById x).isNone || !e.s.onCore c x then refused else .ok
      act := fun e s => (s.askSwitch ((e.th.g a.toNat).toNat % 256) ((e.th.g b.toNat).toNat % 4096), {}) } s)

/-! ## MIGR and the choice of a target (R318, R346) -/

/-- A site can receive a core's teams: spare, or enabled with no team in either bank, and neither failed, hot nor relocating. -/
def State.siteFree (s : State) (x : Site) : Bool :=
  !x.failed && !x.hot && !x.relocating && (match x.core with
    | none => true
    | some c => (s.core c).teams.isEmpty)

def absDiff (a b : Nat) : Nat := (a - b) + (b - a)
/-- Mesh distance, then the lower column, then the lower row. -/
def nearer (v : Nat) (x y : Site) : Bool :=
  let d (z : Site) : Nat := absDiff (z.v / 16 % 16) (v / 16 % 16) + absDiff (z.v % 16) (v % 16)
  decide (d x * 256 + x.v % 256 < d y * 256 + y.v % 256)

/-- Steps 2 and 3: the nearest spare site of the same die, else the nearest free enabled one of the same pool. -/
def State.nearTarget (s : State) (c : Nat) : Option Nat :=
  match s.sites.find? fun x => x.core == some c with
  | none => none
  | some me =>
    let l := s.sites.filter fun x => s.siteFree x && x.v / 256 == me.v / 256 && x.v != me.v
    match (sortBy (nearer me.v) (l.filter fun x => x.core.isNone)).head? with
    | some x => some x.v
    | none => ((sortBy (nearer me.v) (l.filter fun x => x.core.isSome && x.pool == me.pool)).head?).map fun x => x.v
/-- A named site that can be registered. -/
def State.namedOk (s : State) (v : Nat) : Bool := s.sites.any fun x => x.v == v && s.siteFree x
/-- R346 for a core and a named site. -/
def State.target (s : State) (c : Nat) (named : Option Nat) : Option Nat :=
  match named with
  | some v => if s.namedOk v then some v else s.nearTarget c
  | none => s.nearTarget c

def State.markSite (s : State) (v : Option Nat) (b : Bool) : State :=
  match v with
  | some v => { s with sites := s.sites.map fun x => if x.v = v then { x with relocating := b } else x }
  | none => s
/-- The target of a request is chosen, and both sites are marked (R345, R347 step 1). -/
def State.register (s : State) (r : Reloc) : State :=
  let t := s.target r.core r.named
  let s1 := (s.markSite t true).markSite (some (s.siteOf r.core)) true
  { s1 with relocs := (s1.relocs.filter fun x => x.core != r.core || decide (5 ≤ x.step)) ++ [{ r with target := t }] }
/-- Registers a request; a second one of the same core before step 4 replaces the target of the first, later it is ignored (R349). -/
def State.askMove (s : State) (c : Nat) (named : Option Nat) (trigger : Nat) : State :=
  match s.relocs.find? fun r => r.core == c && decide (r.step < 5) with
  | none => s.register { core := c, named := named, trigger := trigger, target := none, step := 1, held := [] }
  | some r =>
    if 4 ≤ r.step then s
    else (s.markSite r.target false).register { r with named := named, trigger := Nat.max r.trigger trigger, target := none }

def migrSite (w : Word) : Option Nat := if w.getLsbD 31 then none else some (w.toNat % 512)

def execMigr (h : Hdr) (a b : BitVec 8) (s : State) : Res :=
  .next (runBundle h
    { uses := { reads := [.g a.toNat, .g b.toNat] }
      sel := lowestOnly
      early := Env.supOnly
      chk := fun e =>
        let c := (e.th.g a.toNat).toNat % 256
        let ok := match migrSite (e.th.g b.toNat) with
          | some v => e.s.namedOk v
          | none => (e.s.nearTarget c).isSome
        if 223 < c || !ok then refused else .ok
      act := fun e s => (s.askMove ((e.th.g a.toNat).toNat % 256) (migrSite (e.th.g b.toNat)) 0, {}) } s)

/-! ## WFI (R319) -/

def execWfi (h : Hdr) (s : State) : Res :=
  .next (runBundle h
    { uses := {}
      sel := lowestOnly
      act := fun _ s => (s, { park := some (.wfi s.cycle) }) } s)

def Thread.wfiDue (th : Thread) (now : Nat) : Bool :=
  match th.park with
  | some (.wfi t) => decide (t + 2200 ≤ now)
  | _ => false
/-- WFI threads of a context wake, wherever their bank is. -/
def State.wakeCtx (s : State) (ctx : Nat) : State :=
  s.mapTeams fun _ t => if t.ctx = ctx then t.mapThreads fun _ _ th => th.wake else t

def execWfiTimeout (t : ThreadRef) (s : State) : Res :=
  match s.thread? t with
  | some th => .next (if th.wfiDue s.cycle then s.updRef t Thread.wake else s)
  | none => .next s

end Sys2Proof.Machine
end

