-- ==== Sys2Proof/Machine/MustSave.lean ====
section
/-! DEFINITION. Must-save sets: the meanings of MSET, MSCLR and HCHK (R352 to R357). -/

namespace Sys2Proof.Machine

/-- The fields of a region entry (R354). -/
structure SaveView where
  ptr : Nat
  len : Nat
  team : Nat
  pri : Nat
  be : Bool
  rc : Bool
  ts : Bool
  deriving DecidableEq, Repr

def saveView (b : List Byte) : SaveView :=
  { ptr := sliceNat b 0 8, len := sliceNat b 8 4, team := sliceNat b 12 4, pri := sliceNat b 16 1
    be := bitOf (sliceNat b 17 1) 2, rc := bitOf (sliceNat b 17 1) 1, ts := bitOf (sliceNat b 17 1) 0 }

/-- An entry obeys R354: reserved bits, zero rules, alignment and range. -/
def saveOk (b : List Byte) : Bool :=
  let v := saveView b
  fld (sliceNat b 17 1) 3 5 == 0 && sliceNat b 18 14 == 0 &&
  (if v.ts then v.ptr == 0 && v.len == 0 && !v.rc
   else fld v.ptr 60 4 == 0 && v.ptr % 32 == 0 && v.len % 32 == 0 && decide (32 ≤ v.len) && decide (v.len ≤ 1610612736) &&
     v.team == 0)

/-- S of a team (R352). -/
def Team.saveSize (t : Team) : Nat :=
  4096 + 1024 * t.groups.length + 64 * t.threads + 4 * t.nregs * t.threads + t.bytes + 32768 * t.tiles.length

/-- A resident team of a grid by its index; one whose bank is spilled has not left its core (R155, R175). -/
def State.teamOfGrid (s : State) (grid ctx index : Nat) : Option Team :=
  ((s.cores.map (·.teams)).flatten ++ (s.images.map (·.teams)).flatten).find? fun t => t.grid == grid && t.ctx == ctx && t.index == index

/-- The charge of an entry, of a team's S for a team-state entry. -/
def saveCharge (v : SaveView) (size : Nat) : Nat :=
  if v.be then 0 else if v.ts then recordBytes size else recordBytes v.len + (if v.rc then 262144 else 0)

/-- Every page of a region has a valid readable translation at a level. -/
def State.regionPages (s : State) (ctx : Nat) (sup : Bool) (va len : Nat) : Bool :=
  decide (va + len ≤ 2 ^ 56) && (List.range ((va + len - 1) / 65536 + 1 - va / 65536)).all fun i =>
    match s.checkNow ctx sup ((va / 65536 + i) * 65536) false with
    | .ok _ => true
    | _ => false

/-- The reason an entry is refused with, or the entry as the device keeps it. -/
def Env.admitEntry (e : Env) (b : List Byte) : Nat ⊕ SaveEntry :=
  let v := saveView b
  if !saveOk b then .inl 3
  else if v.ts then
    match e.s.teamOfGrid e.t.grid e.t.ctx v.team with
    | none => .inl 5
    | some t => .inr { bytes := b, charge := saveCharge v t.saveSize, vtid := t.vtid, size := t.saveSize }
  else
    let va := fld v.ptr 0 56
    let tagOk := match e.s.physOf e.t.ctx va with
      | some pa => e.s.gtag pa == BitVec.ofNat 4 (fld v.ptr 56 4)
      | none => false
    if e.s.regionPages e.t.ctx e.t.sup va v.len && tagOk then
      .inr { bytes := b, charge := saveCharge v 0, vtid := 0, size := 0 }
    else .inl 4

/-- The entries of a table, or the first refusal. -/
def Env.admitAll (e : Env) : List (List Byte) → Nat ⊕ List SaveEntry
  | [] => .inr []
  | b :: r =>
    match e.admitEntry b with
    | .inl k => .inl k
    | .inr x =>
      match e.admitAll r with
      | .inl k => .inl k
      | .inr l => .inr (x :: l)

/-- What MSET's table comes to (R356). -/
def Env.taken (e : Env) (n : Nat) (table : List Byte) : Nat ⊕ List SaveEntry :=
  if !e.s.reserve.armed then .inl 1
  else if n = 0 ∨ 64 < n then .inl 2
  else
    match e.admitAll ((List.range n).map fun i => slice table (32 * i) 32) with
    | .inl r => .inl r
    | .inr l => if (e.s.ctxAt e.t.desc).share * 4096 < sumList (l.map fun x => x.charge) then .inl 6 else .inr l

/-- The teams that a new set names are not stale (R358). -/
def State.freshTeams (s : State) (ctx : Nat) (l : List SaveEntry) : State :=
  s.mapTeams fun _ t => if t.ctx == ctx && (l.any fun x => (saveView x.bytes).ts && x.vtid == t.vtid) then { t with stale := false } else t

/-- n of an MSET. -/
def Env.saveCount (e : Env) (b : Src) : Nat := (e.src32 b).toNat % 128
/-- The 8-byte pieces of an MSET's table. -/
def Env.saveWords (e : Env) (a b : Src) : List Ea :=
  match ptrEa (e.src64 a).toNat 64 with
  | .error _ => []
  | .ok x => (List.range (4 * e.saveCount b)).map fun i => { x with addr := x.addr + 8 * i }

def Env.chkMset (e : Env) (t : Bool) (a b : Src) : Chk :=
  let pt := (e.src64 a).toNat
  let n := e.saveCount b
  if fld pt 60 4 ≠ 0 ∨ 2 ^ 56 < fld pt 0 56 + 32 * n then .trap { cause := 0x20, addr := fld pt 0 60 }
  else
    match ptrEa pt 64 with
    | .error x => .trap x
    | .ok _ =>
      match pieceChk ((e.saveWords a b).map fun x => e.chkGlobal x 8 readMode) with
      | .ok =>
        let table := ((e.saveWords a b).map fun x => e.peek x 8 false).flatten
        (match e.taken n table with
         | .inl _ => if t then .ok else .trap { cause := 0xA2, addr := fld pt 0 60 }
         | .inr _ => .ok)
      | c => c

/-- Reads of 8-byte words one after the other: their bytes and the clock. -/
def Env.readWords (e : Env) : List Ea → State → Nat → List Byte × Nat × State
  | [], s, k => ([], k, s)
  | x :: r, s, k =>
    let (d, k1, _, s1) := e.readElems x 8 8 false false 1 0 s k
    let (d2, k2, s2) := e.readWords r s1 k1
    (d ++ d2, k2, s2)

def execMset (h : Hdr) (t : Bool) (d : BitVec 8) (a b : Src) (s : State) : Res :=
  .next (runBundle h
    { uses := { reads := names64 a ++ names32 b, dests := [.g d.toNat] }
      sel := lowestOnly
      allTags := .elected
      chk := fun e => e.chkMset t a b
      act := fun e s =>
        let (table, k, s1) := e.readWords (e.saveWords a b) s e.th.clock
        match e.taken (e.saveCount b) table with
        | .inl r => (s1, { writes := write32 d (BitVec.ofNat 32 (0x80000000 + r)), clock := k })
        | .inr l => ((s1.updCtx e.t.desc fun x => { x with mset := some l }).freshTeams e.t.ctx l,
            { writes := write32 d (BitVec.ofNat 32 (sumList (l.map fun x => x.charge))), clock := k }) } s)

def execMsclr (h : Hdr) (s : State) : Res :=
  .next (runBundle h
    { uses := {}
      sel := lowestOnly
      act := fun e s => (s.updCtx e.t.desc fun x => { x with mset := none }, {}) } s)

/-- The charges admitted by all contexts. -/
def State.charges (s : State) : Nat := sumList (s.ctxs.map Ctx.charge)

/-- The bank's stored energy as the supply monitor measures it: a free value (log 5), at least 30 J while the reserve is armed (R351). -/
def State.energy (s : State) : DWord :=
  let v := Config.storedEnergy s.free
  if s.reserve.armed && decide (v.toNat < 30000) then 30000 else v

/-- The value of a selection (R357). -/
def Env.holdUp (e : Env) (sel : HSel) : DWord :=
  let x := e.s.ctxAt e.t.desc
  match sel with
  | .share => BitVec.ofNat 64 (x.share * 4096)
  | .used => BitVec.ofNat 64 x.charge
  | .free => BitVec.ofNat 64 (x.share * 4096 - x.charge)
  | .total => BitVec.ofNat 64 e.s.charges
  | .energy => e.s.energy
  | .state => BitVec.ofNat 64 (b2n e.s.reserve.armed + b2n x.mset.isSome * 2 + (x.mset.getD []).length * 256 +
      sliceNat (amGetList 0 e.s.reserve.vault 0 64) 0 4 * 2 ^ 32)

def execHchk (h : Hdr) (sel : HSel) (d : BitVec 8) (s : State) : Res :=
  .next (runBundle h
    { uses := { dests := pairNames d.toNat }
      act := fun e s => (s, { writes := write64 d (e.holdUp sel) })
      post := fun _ s => s.fresh } s)

end Sys2Proof.Machine
end

