-- ==== Sys2Proof/Machine/Issue.lean ====
section
/-! DEFINITION. The core's issue logic: readiness, the rotation, bundle formation, instruction fetch, delivery and late
writing of results, and the trap record (R61, R62, R77, R78, R156 to R160, R169, R308 to R310). -/

namespace Sys2Proof.Machine

/-! ## Instruction words (R61, R62) -/

/-- The fetched line that serves a thread's PC. -/
def Core.lineFor (k : Core) (ctx : Nat) (sup : Bool) (pc : VAddr) (fence : Nat) : Option ILine :=
  k.ilines.find? fun x => x.ctx == ctx && x.sup == sup && x.line == pc.toNat / 320 && decide (fence ≤ x.stamp)
/-- The word at a thread's PC. A word whose fetch failed is fetched anew in each cycle, so that it fails only as its pages stand when
it would issue (R62). -/
def Core.wordFor (k : Core) (now : Nat) (t : Team) (th : Thread) : Option FetchWord :=
  match k.lineFor t.ctx t.sup th.pc th.fence with
  | some x => match x.words[th.pc.toNat % 320 / 10]? with
    | some (.bad c a) => if x.fetched = now then some (.bad c a) else none
    | w => w
  | none => none

def wordHdr (w : IWord) : Hdr := (Raw.unpack w).h
def wordOp (w : IWord) : Nat := (Raw.unpack w).op.toNat
/-- Words whose tag only the elected lane allocates: MMT, MMT.C, LEASE, MSET. -/
def electsTag (w : IWord) : Bool := [0x114, 0x115, 0x118, 0x138].contains (wordOp w)
/-- EXIT and CARVE wait for every tag of a thread that executes them (R26, R162). -/
def needsAllTags (w : IWord) : Bool := wordOp w == 0x094 || wordOp w == 0x102
def tagUse (w : IWord) : TagUse := if electsTag w then .elected else if needsAllTags w then .every else .named
/-- Words that may be ganged (R160). -/
def gangable (w : IWord) : Bool :=
  let row := wordOp w / 16
  !(row == 0x11 || row == 0x12 || row == 0x13) && wordOp w != 0x102

/-! ## Readiness (R158) -/

/-- A tag is free or delivered. -/
def Thread.tagReady (th : Thread) (i : Nat) : Bool :=
  match th.tags.getD i none with
  | some t => t.delivered
  | none => true

/-- Item 3. -/
def Thread.tagsReady (th : Thread) (w : IWord) : Bool :=
  let h := wordHdr w
  let use := tagUse w
  (awaitedTags h use).all th.tagReady && (!(needsAllTags w && th.execs h use) || (List.range 8).all th.tagReady)

/-- A word of a reserved opcode: no other field of it is examined (R75). -/
def reservedWord (w : IWord) : Bool :=
  match decodeRaw (Raw.unpack w) with
  | .error .reservedOpcode => true
  | _ => false

/-- A hold has ended. A thread that waits for rounds at home tries again whenever its bundle can form. -/
def State.holdOver (s : State) (c team g l : Nat) : Hold → Bool
  | .xlat ctx pages =>
    !((s.die (s.dieOf c)).misses.any fun m => m.ctx == ctx && pages.contains m.page && m.cores.contains c)
  | .home _ => true
  | .engine ec n => decide (n ≤ ((s.core c).engine ec).free)
  | .allowance => !((s.core c).alops.any fun x => x.b.team == team && isMember x.b g l)
  | .tlbi ctx va => !s.pinnedBy (tlbiHits ctx va)
  | .fabric ids => !(s.fabric.reqs.any fun r => ids.contains r.id)
  | .result g' l' => match s.thread? { core := c, team := team, group := g', lane := l' } with
    | some th => decide (th.park ≠ some .lease) && th.awaits.isEmpty
    | none => true

/-- An untagged result that has to be written before the thread issues again (R77). -/
def Thread.windowDue (th : Thread) : Bool := th.windows.any fun w => w.left == 0 && !w.written

def Team.groupStopped (t : Team) (g : Nat) : Bool :=
  t.leaving || match t.halt with
    | some h => h.stops.getD g true
    | none => false

/-- The interlock of R83: threads of the group wait at a word for the k registers that it writes, and this one is not among them. -/
def Group.kAwaited (g : Group) (th : Thread) : Bool := !hasK th.awaits && g.threads.any fun x => hasK x.awaits

/-- A thread is ready, and its next word. -/
def State.readyWord (s : State) (c : Nat) (t : Team) (g l : Nat) : Option FetchWord :=
  match t.groups[g]?, t.thread? g l with
  | some gr, some th =>
    let free := !th.exited && !t.groupStopped g && th.park.isNone && gr.waitLine.isNone && !th.yielded && !th.windowDue && !gr.kAwaited th &&
      !((s.core c).issued.contains (t.id, g, l)) &&
      (match th.hold with | some h => s.holdOver c t.id g l h | none => true)
    if free then
      match (s.core c).wordFor s.cycle t th with
      | some (.word w) => if th.tagsReady w || reservedWord w then some (.word w) else none
      | x => x
    else none
  | _, _ => none

/-! ## Bundle formation (R156 to R160) -/

/-- The start of a round: exited groups and leaving teams drop out, newly placed teams come in. -/
def Core.newRound (k : Core) (b : Nat) : Core :=
  k.updBank b fun x =>
    let stay := x.rotation.filter fun p => match k.team? p.1 with
      | some t => !t.leaving && !x.joining.contains p.1 &&
          (match t.groups[p.2]? with | some g => g.threads.any fun th => !th.exited | none => false)
      | none => false
    let come := (x.joining.map fun id => match k.team? id with
      | some t => (List.range t.groups.length).map fun g => (id, g)
      | none => []).flatten
    { x with rotation := stay ++ come, joining := [], pointer := 0 }

/-- The ready threads of a group, with their words. -/
def State.readyIn (s : State) (c : Nat) (t : Team) (g : Nat) : List (Nat × Thread × FetchWord) :=
  match t.groups[g]? with
  | none => []
  | some gr => (mapIdxFrom (fun l th => (l, th)) 0 gr.threads).filterMap fun x =>
      match s.readyWord c t g x.1 with
      | some w => some (x.1, x.2, w)
      | none => none

/-- The thread with the least last-issue cycle; ties go to the lowest lane. -/
def leadOf : List (Nat × Thread × FetchWord) → Option (Nat × Thread × FetchWord)
  | [] => none
  | x :: r =>
    match leadOf r with
    | none => some x
    | some y => if y.2.1.lastIssue < x.2.1.lastIssue then some y else some x

/-- The groups of a team in rotation order after a group. -/
def groupsAfter (rot : List (Nat × Nat)) (team g : Nat) : List Nat :=
  let i := (rot.findIdx? fun x => x == (team, g)).getD 0
  ((rot.drop (i + 1) ++ rot.take i).filter fun x => x.1 == team).map fun x => x.2

/-- The bundle's ganged threads, one for each idle lane; none that waits at its word for a k register, which its own group's bundle
writes. -/
def State.gang (s : State) (c : Nat) (t : Team) (rot : List (Nat × Nat)) (g : Nat) (pc : VAddr) (own : List Nat) : List (Nat × Nat) :=
  let others := groupsAfter rot t.id g
  (List.range 64).filterMap fun l =>
    if own.contains l then none
    else
      (others.find? fun o => (match t.thread? o l with | some th => th.pc == pc && !hasK th.awaits | none => false) && (s.readyWord c t o l).isSome).map
        fun o => (o, l)

/-- Members in lane order; a lane holds one of them. -/
def laneOrder (l : List (Nat × Nat)) : List (Nat × Nat) := sortBy (fun a b => decide (a.2 < b.2)) l

/-- The lane that a word elects allocates the word's tag, and is not ready while that tag is undelivered (R158, R215): of the ready
threads at such a word, those that are left when no such lane is elected. -/
def dropElected (t : Team) (w : IWord) : List (Nat × Nat) → List (Nat × Nat)
  | [] => []
  | m :: r =>
    match t.thread? m.1 m.2 with
    | none => dropElected t w r
    | some th =>
      let h := wordHdr w
      if th.execs h .elected then (if !h.av || th.tagReady h.tag.toNat then m :: r else dropElected t w r)
      else m :: dropElected t w r

/-- The ready threads of a group without the lanes that would be elected with their tags undelivered. -/
def electable (t : Team) (g : Nat) (rdy : List (Nat × Thread × FetchWord)) : List (Nat × Thread × FetchWord) :=
  rdy.filter fun x => match x.2.2 with
    | .word w => !electsTag w ||
        (dropElected t w ((rdy.filter fun y => y.2.1.pc == x.2.1.pc).map fun y => (g, y.1))).contains (g, x.1)
    | .bad _ _ => true

/-- The bundle of a group's slot (R159). -/
def State.bundleOf (s : State) (c : Nat) (t : Team) (rot : List (Nat × Nat)) (g slot : Nat) : Option Bundle :=
  let rdy := electable t g (s.readyIn c t g)
  match leadOf rdy with
  | none => none
  | some (_, lead, w) =>
    let own := (rdy.filter fun x => x.2.1.pc == lead.pc).map fun x => (g, x.1)
    let ms := match w with
      | .word x =>
        if gangable x && t.halt.isNone then laneOrder (own ++ s.gang c t rot g lead.pc (own.map fun y => y.2))
        else own
      | .bad _ _ => own
    some { core := c, team := t.id, group := g, pc := lead.pc, slot := slot, members := ms, fetch := w }

/-- The next issue slot of a core: one that an idle core has passed begins with the present cycle. -/
def State.nextSlot (s : State) (c : Nat) : Nat :=
  let n := (s.core c).slotNo
  if n / 2 < s.cycle then 2 * s.cycle else n

/-- A core whose next slot is due, with groups to give it to. -/
def State.slotDue (s : State) (c : Nat) : Bool :=
  let k := s.core c
  let b := k.bank k.active
  s.works && decide (s.nextSlot c / 2 ≤ s.cycle) && !s.switching c && !s.movingCore c &&
    (!b.rotation.isEmpty || !b.joining.isEmpty)

/-- The slot after a slot: the other port, or the next issue cycle, which q core cycles later begins (R248). -/
def slotAfter (n q : Nat) : Nat := if n % 2 = 0 then n + 1 else n - 1 + 2 * q

/-- The core opens slot n. The first slot of an issue cycle settles the cycle's pass count (R248, R249); no thread has issued in it, and
no event of the cycle has been made (R140). -/
def Core.openCycle (k : Core) (n q : Nat) : Core :=
  if n % 2 = 0 then { k with slotNo := slotAfter n q, issued := [], pass := q, slotClock := 0 }
  else { k with slotNo := slotAfter n k.pass }

/-- What a group's own slot does before its bundle is formed: absent lines that have come in, and the stop of a halting
team's sibling group (R142, R169). -/
def State.openSlot (s : State) (c id g : Nat) : State :=
  let s1 := s.updTeam c id fun t =>
    { t with groups := t.groups.map fun gr => match gr.waitLine with
        | some n => if (t.line n).present then { gr with waitLine := none } else gr
        | none => gr }
  match s1.team? c id with
  | some t => match t.halt with
    | some h => if !h.stops.getD g true && decide (h.cf + 12 ≤ s.cycle) then s1.stopGroup c id g else s1
    | none => s1
  | none => s1

/-- The slot passes: YIELD's withdrawal of the group's threads ends (R102). -/
def Group.slotPassed (g : Group) : Group := { g with threads := g.threads.map fun th => { th with yielded := false } }

/-- The TLBIs that the threads of a bundle wait for (R316, R343). -/
def State.tlbisOf (s : State) (b : Bundle) : List (Option Nat × Option Nat) :=
  b.members.filterMap fun m => match s.thread? { core := b.core, team := b.team, group := m.1, lane := m.2 } with
    | some th => match th.hold with
      | some (.tlbi ctx va) => some (ctx, va)
      | _ => none
    | none => none

/-- The bundle's threads leave their holds; a TLBI's completion follows the accesses made before, and ends the overrides of its pages
(R316, R343). -/
def State.takeBundle (s0 : State) (b : Bundle) : State :=
  let top := s0.maxClock
  let s := (s0.tlbisOf b).foldl (fun s x => s.endMappings x.1 x.2) s0
  let s1 := s.updTeam b.core b.team fun t => t.mapThreads fun g l th =>
    if isMember b g l then
      match th.hold with
      | some (.tlbi _ _) => { th with hold := none, clock := Nat.max th.clock top }
      | _ => { th with hold := none }
    else th
  { s1.updCore b.core fun k => { k with issued := k.issued ++ b.members.map fun m => (b.team, m.1, m.2) } with bundle := some b }

def execBundleFormation (core : Nat) (s : State) : Res :=
  if s.bundle.isSome || !s.slotDue core then .next s
  else
    let n := s.nextSlot core
    let bk := (s.core core).active
    let s1 := s.updCore core fun k =>
      let k1 := k.openCycle n (s.passOf core)
      if (k.bank bk).pointer = 0 ∨ (k.bank bk).rotation.length ≤ (k.bank bk).pointer then k1.newRound bk else k1
    let b := (s1.core core).bank bk
    match b.rotation[b.pointer]? with
    | none => .next s1
    | some (id, g) =>
      let s2 := (s1.updCore core fun k => k.updBank bk fun x => { x with pointer := (x.pointer + 1) % x.rotation.length }).openSlot
        core id g
      let found := match s2.team? core id with
        | some t => s2.bundleOf core t b.rotation g n
        | none => none
      let s3 := s2.updGroup core id g Group.slotPassed
      .next (match found with
        | some x => s3.takeBundle x
        | none => s3)

/-! ## The word of the bundle in the issue stage (R14, R62) -/

def decodeCause : DecodeError → Nat
  | .reservedOpcode => 0x01
  | .reservedModifier => 0x02
  | .reservedOperand => 0x03

/-- The instruction of a bundle, or the cause its word takes. -/
def Bundle.instr (b : Bundle) : Except Trap Instr :=
  match b.fetch with
  | .bad c a => .error { cause := c, addr := a }
  | .word w =>
    match decode w with
    | .ok i => .ok i
    | .error e => .error { cause := decodeCause e }

/-- The bundle's word cannot execute; a line that failed is fetched again later. -/
def State.refuseWord (s : State) (b : Bundle) (tr : Trap) : State :=
  let s1 := match b.fetch with
    | .bad _ _ => s.updCore b.core fun k => { k with ilines := k.ilines.filter fun x => x.line != b.pc.toNat / 320 }
    | .word _ => s
  s1.badWord b tr

/-! ## Instruction fetch (R61, R62) -/

/-- The page of a byte of code: its physical address, a failure, or a page to be walked. -/
def State.codeByte (s : State) (c ctx : Nat) (sup : Bool) (va : Nat) : Except Nat Nat ⊕ Nat :=
  match s.translate c ctx va with
  | .miss p => .inr p
  | .bad .malformed => .inl (.error 0x29)
  | .bad _ => .inl (.error 0x21)
  | .hit l =>
    if (l.sup && !sup) || l.xn then .inl (.error 0x21)
    else .inl (.ok (l.phys va))

/-- A word of a line: its 10 bytes, or the failure of the lowest byte that fails translation or permission, else of the lowest that
is lost (R62, log 38). -/
def State.codeWord (s : State) (c ctx : Nat) (sup : Bool) (va : Nat) : FetchWord :=
  let bytes := (List.range 10).map fun i => (va + i, s.codeByte c ctx sup (va + i))
  match bytes.findSome? fun x => match x.2 with | .inl (.error e) => some (e, x.1) | _ => none with
  | some (e, a) => .bad e a
  | none =>
    match bytes.find? fun x => match x.2 with | .inl (.ok pa) => (s.lostIn pa 1).isSome | _ => false with
    | some x => .bad 0x21 x.1
    | none => .word (wordOfBytes (bytes.map fun x => match x.2 with
      | .inl (.ok pa) => if inCtl pa then 0 else s.readByte pa
      | _ => 0))

/-- Pages of 64 KiB that a line touches. -/
def linePages (line : Nat) : List Nat := [line * 320 / 65536, (line * 320 + 319) / 65536].eraseDups
/-- The pages of a line that still need a walk. -/
def State.lineMisses (s : State) (c ctx line : Nat) : List Nat :=
  (linePages line).filter fun p => match s.translate c ctx (p * 65536) with
    | .miss _ => true
    | _ => false

def execInstructionFetch (core ctx : Nat) (sup : Bool) (line : Nat) (s : State) : Res :=
  let miss := s.lineMisses core ctx line
  if !s.works then .next s
  else if !miss.isEmpty then .next (s.addMisses core ctx miss)
  else
    let words := (List.range 32).map fun i => s.codeWord core ctx sup (line * 320 + 10 * i)
    let s1 := (linePages line).foldl (fun s p => match s.translate core ctx (p * 65536) with
      | .hit l => (s.claim l (some core)).sees ctx l
      | _ => s) s
    let x : ILine := { ctx := ctx, sup := sup, line := line, stamp := s.stamp, fetched := s.cycle, words := words }
    .next ((s1.updCore core fun k => { k with
      ilines := x :: k.ilines.filter fun y => !(y.ctx == ctx && y.sup == sup && y.line == line) }).dropBad core ctx (linePages line))

/-- The line that a thread of a core's active bank waits for, with no walk of its pages pending. -/
def State.fetchWant (s : State) (c : Nat) : Option (Nat × Bool × Nat) :=
  let k := s.core c
  (k.bankTeams k.active).findSome? fun t =>
    t.groups.findSome? fun g => g.threads.findSome? fun th =>
      let line := th.pc.toNat / 320
      if !th.exited && th.park.isNone && (k.wordFor s.cycle t th).isNone &&
          !((s.die (s.dieOf c)).misses.any fun m => m.ctx == t.ctx && (linePages line).contains m.page && m.cores.contains c) then
        some (t.ctx, t.sup, line)
      else none

/-! ## Results (R77, R78, R85) -/

/-- An undelivered tag whose result has been produced: not a matrix operation's, not one that waits for the fabric or for a
park to end. -/
def State.tagDue (s : State) (r : ThreadRef) (th : Thread) (i : Nat) : Bool :=
  match th.tags.getD i none with
  | some t => !t.delivered && t.op.isNone &&
      !(th.park.isSome && t.pc == th.pc && t.held.isEmpty && t.bad.isNone) &&
      !(s.fabric.reqs.any fun q => match q.who with | .tagged x n _ => decide (x = r) && n == i | _ => false)
  | none => false

def Thread.deliver (th : Thread) (i : Nat) : Thread :=
  { th with tags := updAt th.tags i fun t => t.map fun x => { x with delivered := true } }

def execResultDelivery (t : ThreadRef) (tag : Nat) (s : State) : Res :=
  match s.thread? t with
  | some th => .next (if s.tagDue t th tag then s.updRef t fun x => x.deliver tag else s)
  | none => .next s

/-- A result is written at any time up to its bound; a result that comes when a park ends is not there yet. Threads of the team that
have issued together and stand at one word have it written together, so that none of them issues on without the others (R77, R234;
log 86). -/
def execUntaggedResultWrite (t : ThreadRef) (i : Nat) (s : State) : Res :=
  match s.thread? t with
  | some th =>
    match th.windows[i]? with
    | some w =>
      .next (if w.held.isEmpty || w.written then s else s.updTeam t.core t.team fun x => x.mapThreads fun g l y =>
        if g = t.group ∧ l = t.lane then y.writeWindow i
        else if y.pc = th.pc ∧ y.lastIssue = th.lastIssue then y.writeLike w.dests
        else y)
    | none => .next s
  | none => .next s

/-! ## The trap record (R308 to R310) -/

/-- Every group of a halted team has stopped or exited. -/
def Team.quiet (t : Team) : Bool :=
  match t.halt with
  | some h => (mapIdxFrom (fun g gr => h.stops.getD g true || gr.threads.all Thread.exited) 0 t.groups).all fun b => b
  | none => false

/-- Loads of a team's threads that the fabric has not answered. -/
def State.fabricLoads (s : State) (c id : Nat) : Bool :=
  s.fabric.reqs.any fun r => match r.who with
    | .load x => x.core == c && x.team == id
    | .tagged x _ _ => x.core == c && x.team == id
    | _ => false

/-- The tags of a halted thread that hold no matrix operation complete, and its untagged results are written (R27, R84). -/
def Thread.settle (th : Thread) : Thread :=
  let done := (List.range 8).filter fun i => match th.tags.getD i none with
    | some t => t.op.isNone
    | none => false
  (th.completeTags done).writeWindows

/-- All that a team's record waits for but the queue's room, in the cycles after the fault, so that a power-fail in its cycle prevails
(R312). A spilled team has no load and no allowance bundle left (R175). -/
def State.recordReady (s : State) (c : Nat) (t : Team) : Bool :=
  t.quiet && (match t.halt with | some h => decide (h.cf < s.cycle) | none => false) && (s.spilled c t.ctx t.vtid || (!s.fabricLoads c t.id && !((s.core c).alops.any fun x => x.b.team == t.id))) &&
    !((s.core c).ops.any fun o => o.of t && decide (o.state = .running ∨ o.state = .stopping)) &&
    t.lanes.all fun x => match t.thread? x.1 x.2 with
      | some th => (List.range 8).all fun i => match th.tags.getD i none with
          | some g => g.delivered || g.op.isSome
          | none => true
      | none => true

/-- The producer and the consumer counter of a trap queue as they read now. -/
def State.queueEnds (s : State) (x : Ctx) : Nat × Nat :=
  let (p, k, s1) := s.physRead8 x.tqprod 0
  (p, (s1.physRead8 x.tqcons k).1)
/-- The queue has room (R310). -/
def State.queueRoom (s : State) (x : Ctx) : Bool := !queueFull x.tqsize (s.queueEnds x).1 (s.queueEnds x).2

/-- A record at the queue's tail, then the addition to the producer counter with its push. -/
def State.publish (s : State) (i : Nat) (bytes : List Byte) (clock : Nat) : State :=
  let x := s.ctxAt i
  let (prod, k1, s1) := s.physRead8 x.tqprod clock
  let (_, k2, s2) := s1.physRead8 x.tqcons k1
  let rec' := patch bytes 44 (natBytes x.seq 4)
  let (k3, s3) := s2.physWrite (x.tqbase + 64 * (prod % 2 ^ x.tqsize)) rec' k2
  let (_, s4) := s3.physWrite x.tqprod (natBytes (Nat.min (prod + 1) (2 ^ 64 - 1)) 8) k3
  ((s4.pushWord x.tqprod).updCtx i fun y => { y with seq := (y.seq + 1) % 2 ^ 32, pending := y.pending.drop 1 }).wakeCtx x.id

/-- The areas that a record is written to, whose units have to be invalidated first (R261, R281). -/
def State.awaitAreas (s : State) : List (Nat × Nat) → Option State
  | [] => none
  | a :: r => match s.awaitPhys a.1 a.2 with
    | some w => some w
    | none => s.awaitAreas r
def State.endAreas (s : State) (l : List (Nat × Nat)) : State := l.foldl (fun s a => s.endRounds .device a.1 a.2) s

def State.recordArea (s : State) (x : Ctx) : List (Nat × Nat) :=
  [(x.tqbase + 64 * ((s.queueEnds x).1 % 2 ^ x.tqsize), 64), (x.tqprod, 8)]

/-- The matrix progress of a record: p and the tag; p is that of the stopped operation, which may have left since. -/
def State.mxOf (s : State) (h : Halt) : Option (Nat × Nat) :=
  match h.mx with
  | some (id, tag) => some ((match s.allOps.find? fun o => o.id == id with | some o => o.p | none => h.mxp), tag)
  | none => none

/-- The record of a halted team, which may lie in an image. -/
def State.teamPublish (s : State) (i c : Nat) (t : Team) (h : Halt) (idx : Nat) : State :=
  let x := s.ctxAt i
  let t1 := t.mapThreads fun _ _ th => th.settle
  let base := x.hbase + idx * 16384
  let r := teamRecord c t1 h (s.mxOf h) idx
  let (k, s1) := (s.updNamed c t.ctx t.vtid fun _ => { t1 with halt := some { h with entry := some idx, recorded := true } }).physWrite base
    (haltBlock t1 h) t1.maxClock
  let s2 := s1.updCtx i fun y => { y with halts := y.halts ++
    [{ idx := idx, core := c, vtid := t.vtid, cause := h.cause, pc := h.pc, who := h.who }] }
  s2.publish i r.bytes k

/-- Writes a record once its areas are free. -/
def State.intoAreas (s : State) (areas : List (Nat × Nat)) (f : State → State) : State :=
  match s.awaitAreas areas with
  | some w => w
  | none => (f s).endAreas areas

def execTrapRecordWrite (ctx : Nat) (s : State) : Res :=
  let x := s.ctxAt ctx
  if !s.works || !x.valid || s.roundHolds .device x.tqcons (memPart x.tqcons 8) then .next s
  else
    match x.pending with
    | [] => .next s
    | .engine bytes clock :: _ =>
      .next (if s.queueRoom x then s.intoAreas (s.recordArea x) fun s => s.publish ctx bytes clock else s)
    | .team c vtid :: _ =>
      match s.findTeam c x.id vtid with
      | none => .next (s.updCtx ctx fun y => { y with pending := y.pending.drop 1 })
      | some t =>
        match t.halt, x.freeEntry with
        | some h, some idx =>
          .next (if s.recordReady c t && s.queueRoom x then
            s.intoAreas ((x.hbase + idx * 16384, 16384) :: s.recordArea x) fun s => s.teamPublish ctx c t h idx
          else s)
        | _, _ => .next s

end Sys2Proof.Machine
end

