-- ==== Sys2Proof/Machine/Waiters.lean ====
section
/-! DEFINITION. Registered waiters and the grid scheduler: read events of CWAIT threads, queues, wait entries and watches;
heads, refusals, grids, placement of clusters, completion (R184, R185, R330, R334 to R339, R373). -/

namespace Sys2Proof.Machine

/-! ## Waiting threads (R184, R185) -/

def Thread.rewait (th : Thread) (w : Waiter) (next clock : Nat) : Thread :=
  { th with park := some (.cwait { w with next := next, pushed := false }), clock := Nat.max th.clock clock }
/-- A wait completes: the thread continues at the next word. -/
def Thread.waited (th : Thread) (clock : Nat) : Thread :=
  { th with park := none, pc := th.pc + 10, clock := Nat.max th.clock clock }
/-- A read event of a waiter returned a value. -/
def Thread.judge (th : Thread) (w : Waiter) (v next clock : Nat) : Thread :=
  if w.target.toNat ≤ v then th.waited clock else th.rewait w next clock

def Waiter.taggedAddr (w : Waiter) : Nat := w.addr + w.tag.toNat * 2 ^ 56

/-- One read event of a parked CWAIT; of a counter in a window, a request every 2,200 cycles, whatever is unanswered (R387). While the line of a scratchpad word is absent, the access parks the thread's group, and the
read is made once the line is present (R142, R180). -/
def State.waitRead (s : State) (r : ThreadRef) : State :=
  match s.team? r.core r.team, s.thread? r with
  | some t, some th =>
    match th.park with
    | some (.cwait w) =>
      let next := s.cycle + waitPeriod
      if w.scratch then
        match t.absentLine w.addr 8 with
        | some n => s.updGroup r.core r.team r.group fun g => { g with waitLine := some (g.waitLine.getD n) }
        | none =>
          if t.lostIn w.addr 8 then s.raiseTrap r { cause := 0xA1, addr := w.addr, extra := th.pc.toNat } none
          else
          let (k, t1) := t.scratchEvent w.addr 8 th.clock false
          (s.updTeam r.core r.team fun _ => t1).updRef r fun th => th.judge w (bytesNat (t.scratchRead w.addr 8)) next k
      else
        match s.fabWindow t.desc w.addr with
        | some fw =>
          let a : Ea := { scratch := false, addr := w.addr, tag := w.tag, ro := false, xn := false }
          (s.fabSend fw (.wait r) w.taggedAddr a t.sup (.read 8)).2.updRef r fun th => th.rewait w next 0
        | none =>
          let page := w.addr / 65536
          match s.checkPage r.core t.ctx t.sup w.addr false false with
          | .miss p => s.addMiss r.core t.ctx p
          | .trap c => (s.dropBad r.core t.ctx [page]).raiseTrap r { cause := c, addr := w.taggedAddr, extra := if c = 0xA1 then th.pc.toNat else 0 } none
          | .ok l =>
            let pa := l.phys w.addr
            if s.gtag pa ≠ w.tag then s.raiseTrap r { cause := 0x28, addr := w.taggedAddr } none
            else if (s.lostIn pa 8).isSome then
              s.raiseTrap r { cause := 0xA1, addr := w.taggedAddr, extra := th.pc.toNat } none
            else if s.readHeld (some r.core) pa 8 then s
            else
              let (d, k, s1) := s.loadAt r.core t.ctx l pa 8 8 th.clock false false
              s1.updRef r fun th => th.judge w (bytesNat d) next k
    | _ => s
  | _, _ => s

/-- The thread's bank is active and its core runs. -/
def State.waiting (s : State) (r : ThreadRef) : Bool :=
  s.works && !s.movingCore r.core && !s.switching r.core &&
    match s.team? r.core r.team with
    | some t => t.bank == (s.core r.core).active
    | none => false

/-! ## The scheduler's counters (R330, R334) -/

/-- A queue is closed by a read that raised a cause (R332). -/
def Queue.fail (q : Queue) (n : Nat) : Queue :=
  { q with valid := false, head := none, refused := (q.refused + 1) % 2 ^ 32, rslot := n % 2 ^ 32, reason := 0x0A }

/-- The 32 reads of a slot. -/
def State.readSlot (desc : Nat) (sup : Bool) : Nat → Nat → State → Nat → Except Nat (List Byte × Nat × State)
  | 0, _, s, k => .ok ([], k, s)
  | n + 1, p, s, k =>
    match s.schedRead desc p k sup with
    | .error c => .error c
    | .ok (v, k1, s1) =>
      match State.readSlot desc sup n (p + 8) s1 k1 with
      | .error c => .error c
      | .ok (d, k2, s2) => .ok (natBytes v 8 ++ d, k2, s2)

/-- A read event of a queue's producer counter, unless home holds it; a queue whose consumer counter home held at its opening reads that
first (R330). When it returns more than the number of the next block and the queue has
no head, the slot is read. -/
def State.producerRead (s : State) (i j : Nat) : State :=
  let q := s.queueAt i j
  if !q.valid then s
  else if q.opening then s.queueOpened i j
  else if s.schedHeld i q.prod.toNat 8 || (q.head.isNone && s.schedHeld i (q.slotPtr q.nextBlock) 256) then s
  else
    match s.schedRead i q.prod.toNat s.schedClock q.qs with
    | .error _ => s.updQueue i j fun q => q.fail q.nextBlock
    | .ok (v, k, s1) =>
      let s2 := (s1.setSchedClock k).updQueue i j fun q =>
        { q with produced := v, next := s.cycle + waitPeriod, pushed := false }
      if q.head.isSome || decide (v ≤ q.nextBlock) then s2
      else
        match State.readSlot i q.qs 32 (q.slotPtr q.nextBlock) s2 k with
        | .error _ => s2.updQueue i j fun q => q.fail q.nextBlock
        | .ok (b, k2, s3) =>
          let nw := Nat.min (launchView b).nwait 8
          (s3.setSchedClock k2).updQueue i j fun q => { q with
            head := some { n := q.nextBlock, bytes := b, met := List.replicate nw false, clock := k2
                           next := List.replicate nw s.cycle, pushed := List.replicate nw false } }

/-- A pointer of the scheduler's, if its word can be written: whom the write has to wait for. -/
def State.awaitPtr (s : State) (desc ptr : Nat) : Option State :=
  match s.walk (s.ctxAt desc).id (fld ptr 0 56) with
  | .leaf x => s.awaitRound (leafOf x) ((leafOf x).phys (fld ptr 0 56)) 8 .device
  | _ => none

/-- An addition of 1 with a push to a counter of the scheduler's: the clock, or a cause. -/
def State.schedAdd (s : State) (desc ptr clock : Nat) (sup : Bool) : Except Nat (Nat × State) :=
  let va := fld ptr 0 56
  if fld ptr 60 4 ≠ 0 then .error 0x20
  else if va % 8 ≠ 0 then .error 0x24
  else
    match s.checkNow (s.ctxAt desc).id sup va true with
    | .trap c => .error c
    | .miss _ => .error 0x25
    | .ok l =>
      let pa := l.phys va
      if s.gtag pa ≠ BitVec.ofNat 4 (fld ptr 56 4) then .error 0x28
      else if (s.lostIn pa 8).isSome then .error 0xA1
      else if inCtl pa then .ok (clock, s)
      else
        let (t, s1) := s.countGlobal l pa 1 clock none
        .ok (t, s1.endRounds .device pa 8)

/-- The consumer counter counts every block finished in order (R330), each at the level of its accesses (R334). -/
def State.consume (i j : Nat) : Nat → State → State
  | 0, s => s
  | n + 1, s =>
    let q := s.queueAt i j
    match q.finished.find? fun x => x.1 == q.finishedTo with
    | some x =>
      let s1 := s.updQueue i j fun q =>
        { q with finished := q.finished.filter fun y => y.1 != q.finishedTo, finishedTo := q.finishedTo + 1 }
      match s1.schedAdd i q.cons.toNat s1.schedClock x.2 with
      | .ok (k, s2) => State.consume i j n (s2.setSchedClock k)
      | .error _ => s1.updQueue i j fun x => x.fail q.finishedTo
    | none => s

/-- The level of the accesses of a block of a queue (R334). -/
def Queue.supFor (q : Queue) (bytes : List Byte) : Bool := q.qs || (launchView bytes).sup

/-- Block n of a queue is finished. -/
def State.finishBlock (s : State) (i j n : Nat) (bytes : List Byte) : State :=
  let q := s.queueAt i j
  if n < q.finishedTo then s
  else
    let s1 := s.updQueue i j fun q => { q with finished := insertOnce q.finished (n, q.supFor bytes) }
    State.consume i j (q.finished.length + 1) s1

/-- The head of a queue is refused (R334). -/
def State.refuseHead (s : State) (i j reason : Nat) : State :=
  let q := s.queueAt i j
  match q.head with
  | none => s
  | some h =>
    match s.awaitPtr i q.cons.toNat with
    | some w => w
    | none =>
      (s.updQueue i j fun q => { q with
        head := none, nextBlock := h.n + 1, refused := (q.refused + 1) % 2 ^ 32, rslot := h.n % 2 ^ 32, reason := reason
        next := s.cycle }).finishBlock i j h.n h.bytes

/-- A rectangle of sites: its die, row, column and size. -/
def rectSites (die row col w h : Nat) : List Nat :=
  ((List.range h).map fun y => (List.range w).map fun x => die * 256 + (col + x) * 16 + (row + y)).flatten
/-- The rectangles of a shape, in placement order. -/
def rects (w h : Nat) : List (List Nat) :=
  ((List.range 2).map fun d => ((List.range (11 - h)).map fun r => (List.range (13 - w)).map fun c =>
    rectSites d r c w h).flatten).flatten

def State.siteAt (s : State) (v : Nat) : Option Site := s.sites.find? fun x => x.v == v

/-- A core that could hold a team of a launch when it is empty. -/
def Core.couldHold (k : Core) (v : LaunchView) : Bool :=
  decide (v.granules ≤ k.capacity) && decide (v.ngrp ≤ if k.twoCtx then 16 else 32)
/-- Some rectangle of the pool's present sites could hold a cluster whatever teams leave (R338). -/
def State.couldFit (s : State) (v : LaunchView) : Bool :=
  (rects v.cw v.ch).any fun l => l.all fun x => match s.siteAt x with
    | some y => !y.failed && y.pool == v.cls && (match y.core with | some c => (s.core c).couldHold v | none => false)
    | none => false

/-- The reason of 0x01 to 0x07 that a head breaks. -/
def State.headReason (s : State) (i : Nat) (h : Head) : Option Nat :=
  match blockReason h.bytes (s.ctxAt i).sup with
  | some r => some r
  | none => if s.couldFit (launchView h.bytes) then none else some 7

/-- A read event of a wait entry of a queue's head, once the head is known to break no reason below 0x08. -/
def State.entryRead (s : State) (i j e : Nat) : State :=
  let q := s.queueAt i j
  match q.head with
  | none => s
  | some h =>
    if h.met.getD e true || (s.headReason i h).isSome || s.schedHeld i (waitPtr h.bytes e) 8 then s
    else
      match s.schedRead i (waitPtr h.bytes e) s.schedClock (q.supFor h.bytes) with
      | .error _ => s.refuseHead i j 0x08
      | .ok (v, k, s1) =>
        (s1.setSchedClock k).updQueue i j fun q => { q with head := q.head.map fun h =>
          { h with
            met := updAt h.met e fun b => b || decide (waitThr h.bytes e ≤ v), clock := Nat.max h.clock k
            next := updAt h.next e fun _ => s.cycle + waitPeriod, pushed := updAt h.pushed e fun _ => false } }

/-- A read event of an armed watch (R373): a message leaves, and what the host asks afterwards follows. -/
def State.watchRead8 (s : State) (w : Nat) : State :=
  let x := s.watches.getD w Watch.reset
  if !x.armed || s.physHeld x.counter 8 then s
  else
    let (v, k, s1) := s.physRead8 x.counter 0
    if x.threshold.toNat ≤ v then
      { s1.updWatch w fun y => { y with armed := false, pushed := false } with
        hostClock := Nat.max s1.hostClock k, hostOut := s1.hostOut ++ [.interrupt x.vector] }
    else s1.updWatch w fun y => { y with next := s.cycle + waitPeriod, pushed := false }

/-- A read event of a registered waiter. -/
def State.readWaiter (s : State) : WaiterRef → State
  | .thread t => if s.waiting t then s.waitRead t else s
  | .producer i j => if s.works then s.producerRead i j else s
  | .waitEntry i j e => if s.works then s.entryRead i j e else s
  | .watch w => if s.works then s.watchRead8 w else s

/-- A push has made the waiter due. -/
def State.isPushed (s : State) : WaiterRef → Bool
  | .thread t => match s.thread? t with
    | some th => match th.park with | some (.cwait w) => w.pushed | _ => false
    | none => false
  | .producer i j => (s.queueAt i j).pushed
  | .waitEntry i j e => match (s.queueAt i j).head with | some h => h.pushed.getD e false | none => false
  | .watch w => (s.watches.getD w Watch.reset).pushed

def execWaiterPeriodicRead (w : WaiterRef) (s : State) : Res := .next (s.readWaiter w)
def execWaiterPushRead (w : WaiterRef) (s : State) : Res := .next (if s.isPushed w then s.readWaiter w else s)

/-! ## Heads and grids (R334, R335) -/

def execBlockRefusal (i j : Nat) (s : State) : Res :=
  match (s.queueAt i j).head with
  | none => .next s
  | some h => match s.headReason i h with
    | some r => .next (if s.works then s.refuseHead i j r else s)
    | none => .next s

/-- The pairs with an eligible head. -/
def State.eligible (s : State) : List (Nat × Nat × Head) :=
  ((List.range 64).map fun i => (List.range 8).filterMap fun j =>
    let q := s.queueAt i j
    match q.head with
    | some h => if q.valid && h.met.all (fun b => b) && (s.headReason i h).isNone then some (i, j, h) else none
    | none => none).flatten

def headPri (h : Head) : Nat := (launchView h.bytes).pri
/-- Pairs from the one after the pair last served. -/
def turn (last : Nat × Nat) (p : Nat × Nat) : Nat := (p.1 * 8 + p.2 + 512 * 2 - (last.1 * 8 + last.2) - 1) % 512
/-- The head that is taken: the highest priority, then round-robin. -/
def State.chosen (s : State) : Option (Nat × Nat × Head) :=
  let l := s.eligible
  let top := maxList (l.map fun x => headPri x.2.2)
  let last := s.served.getD top (63, 7)
  (sortBy (fun a b => decide (turn last (a.1, a.2.1) < turn last (b.1, b.2.1))) (l.filter fun x => headPri x.2.2 == top)).head?

def execBlockTake (s : State) : Res :=
  match (if s.works then s.chosen else none) with
  | none => .next s
  | some (i, j, h) =>
    let v := launchView h.bytes
    let q := s.queueAt i j
    let g : Grid := { id := s.nextGrid, desc := i, queue := j, n := h.n, slot := BitVec.ofNat 64 (q.slotPtr h.n)
                      bytes := h.bytes, left := v.nteam, clock := h.clock }
    let s1 := s.updQueue i j fun q => { q with head := none, nextBlock := h.n + 1, next := s.cycle }
    .next { s1 with
      grids := s1.grids ++ [g], nextGrid := s.nextGrid + 1, placement := s1.placement ++ [(g.id, 0)]
      served := updAt s1.served v.pri fun _ => (i, j) }

/-! ## Placement (R238, R335, R338, R339) -/

def State.gridAt (s : State) (id : Nat) : Option Grid := s.grids.find? fun g => g.id == id

/-- The head of a pool's placement list: highest priority, then the order in which blocks were taken. -/
def State.placeHead (s : State) (pool : Nat) : Option (Grid × Nat) :=
  let l := s.placement.filterMap fun p => match s.gridAt p.1 with
    | some g => if (launchView g.bytes).cls = pool then some (g, p.2) else none
    | none => none
  (sortBy (fun a b => decide ((launchView b.1.bytes).pri < (launchView a.1.bytes).pri)) l).head?

/-- The cores of a rectangle with the bank that takes each team, if the cluster fits it. -/
def State.fitsRect (s : State) (ctx : Nat) (v : LaunchView) (l : List Nat) : Option (List (Nat × Nat)) :=
  let cores := l.filterMap fun x => match s.siteAt x with | some y => y.core | none => none
  let got := l.filterMap fun x => match s.siteAt x with
    | some y => match y.core with
      | some c =>
        if y.usable v.cls && s.clusterFree c cores then
          ((s.core c).bankFor ctx v.ngrp v.granules v.ntile).map fun b => (c, b)
        else none
      | none => none
    | none => none
  if got.length = l.length then some got else none

/-- The team of rank r of a cluster, before it is seated (R12, R25, R339). -/
def launchTeam (g : Grid) (v : LaunchView) (ctx vtid bank cluster r cycle : Nat) : Team :=
  let th := Thread.launch v.nreg (BitVec.ofNat 56 v.entry) (BitVec.ofNat 32 v.fmt) cycle g.clock
  { id := 0, bank := bank, desc := g.desc, ctx := ctx, vtid := vtid, sup := v.sup, grid := g.id
    index := cluster * v.size + r, cluster := cluster, cx := r % v.cw, cy := r / v.cw, nregs := v.nreg, bytes := v.scr
    l1 := v.lsh, tiles := [], scratch := [], lost := [], lines := [], spill := 0, relocs := 0
    groups := List.replicate v.ngrp (Group.launch 0 (BitVec.ofNat 64 v.kparam) g.slot (List.replicate v.gsz th))
    halt := none, carve := none, leaving := false, stale := false }

/-- Places the teams of a cluster by rank. -/
def placeTeams (g : Grid) (v : LaunchView) (cluster : Nat) : List (Nat × Nat) → Nat → State → State
  | [], _, s => s
  | (c, b) :: rest, r, s =>
    let vtid := s.nextVtid g.desc
    let k := s.core c
    let tiles := k.freeTiles.take v.ntile
    let t := (launchTeam g v (s.ctxAt g.desc).id vtid b cluster r s.cycle).seat ((k.freeSlots b).take v.ngrp) tiles
    let s1 := (s.joinTeam c t).updCtx g.desc fun x => { x with vtids := (vtid + 1) % 2 ^ 24 }
    let s2 := s1.updCore c fun k => { k with tiles := mapIdxFrom (fun i x => if tiles.contains i then Tile.reset else x) 0 k.tiles }
    placeTeams g v cluster rest (r + 1) s2

def execClusterPlacement (pool : Nat) (s0 : State) : Res :=
  let s := s0.pruneClusters
  match (if s0.works then s.placeHead pool else none) with
  | none => .next s0
  | some (g, cl) =>
    let v := launchView g.bytes
    match (rects v.cw v.ch).findSome? fun l => s.fitsRect (s.ctxAt g.desc).id v l with
    | none => .next s0
    | some seats =>
      let s1 := placeTeams g v cl seats 0 (s.openCluster g.id cl (seats.map fun x => x.1) pool)
      .next { s1 with placement := s1.placement.filterMap fun p =>
        if p.1 = g.id then (if (cl + 1) * v.size < v.nteam then some (p.1, cl + 1) else none) else some p }

/-! ## Completion and departure (R155, R280, R336) -/

/-- A grid's teams have left and the copies its threads kicked have retired, with all that forwarding entries hold of them (R348). -/
def State.gridDone (s : State) (g : Grid) : Bool :=
  g.left == 0 && !(s.cores.any fun k => k.engines.any fun e => e.queue.any fun o => o.grid == g.id) &&
    !(s.relocs.any fun r => r.held.any fun h => h.grid == g.id)

def State.removeGrid (s : State) (id : Nat) : State := { s with grids := s.grids.filter fun g => g.id != id }

def execGridCompletion (grid : Nat) (s : State) : Res :=
  match (if s.works then s.gridAt grid else none) with
  | none => .next s
  | some g =>
    if !s.gridDone g then .next s
    else
      let v := launchView g.bytes
      let q := s.queueAt g.desc g.queue
      match (if v.done = 0 then none else s.awaitPtr g.desc v.done), s.awaitPtr g.desc q.cons.toNat with
      | some w, _ => .next w
      | none, some w => .next w
      | none, none =>
        let k := Nat.max s.schedClock g.clock
        let s1 :=
          if v.done = 0 then s.setSchedClock k
          else match s.schedAdd g.desc v.done k (q.supFor g.bytes) with
            | .ok (t, s1) => s1.setSchedClock t
            | .error _ => (s.setSchedClock k).updQueue g.desc g.queue fun q =>
                { q with rslot := g.n % 2 ^ 32, reason := 0x09 }
        .next ((s1.removeGrid grid).finishBlock g.desc g.queue g.n g.bytes)

/-- A forwarding entry of a core holds something for a team (R348). -/
def State.heldFor (s : State) (c : Nat) (t : Team) : Bool := s.relocs.any fun r => r.core == c && r.held.any fun h => t.isNamed h.ctx h.vtid
/-- A team may leave: every thread has exited or ERET removes it, and no copy reaches its scratchpad any more. -/
def State.mayDepart (s : State) (c : Nat) (t : Team) : Bool :=
  (t.leaving || (!t.live && t.halt.isNone)) && !s.copiesInto c t && !s.heldFor c t && !((s.core c).ops.any fun o => o.of t)

/-- A team departs: one of the core's banks by its number, one of its images by 32 and its place there. -/
def execTeamDeparture (core team : Nat) (s : State) : Res :=
  if !s.works || s.movingCore core then .next s
  else if team < 32 then
    match s.team? core team with
    | none => .next s
    | some t => .next (if s.mayDepart core t then s.departTeam core team else s)
  else
    match (s.spilledTeams core)[team - 32]? with
    | none => .next s
    | some t => .next (if s.mayDepart core t then s.departSpilled core t else s)

end Sys2Proof.Machine
end

