-- ==== Sys2Proof/Machine/MatrixEvents.lean ====
section
/-! DEFINITION. The events of the term array and of the lease pools (R57, R216, R217, R221, R225, R250 to R254). -/

namespace Sys2Proof.Machine

/-! ## Leases -/

/-- The head operation of a core enters its cluster's queue when it needs a lease and holds none (R227, R252). -/
def execLeaseRequest (core : Nat) (s : State) : Res :=
  match (s.core core).headOp with
  | none => .next s
  | some o =>
    match s.clusterOf o.grid o.cluster with
    | none => .next s
    | some x =>
      if decide (o.state = .queued) && o.demand != 0 && o.holds == 0 && s.works then
        .next ((s.updOp core o.id fun o => { o with state := .leaseWait }).updCluster x.id fun y =>
          { y with queue := insertReq (s.leaseReq x (.op core o.id) o.demand o.wrank) y.queue })
      else .next s

/-- The rail's interval above the sustained limit begins or ends (R254). -/
def State.railUpdate (s : State) : State :=
  if 2600000000 < s.predicted then { s with railSince := some (s.railSince.getD s.cycle) }
  else match s.railSince with
    | some _ => { s with railSince := none, railRecover := s.cycle + 55000 }
    | none => s

/-- The registers that a waiting LEASE gives its result to. -/
def Thread.leaseWrites (th : Thread) (q : Nat) : List RWrite :=
  let tagged : Option (List RName) := th.tags.findSome? fun t => match t with
    | some x => if x.pc = th.pc then some x.dests else none
    | none => none
  let ds : List RName := match tagged with
    | some d => d
    | none => match th.windows.getLast? with
      | some w => w.dests
      | none => []
  ds.filterMap fun d => match d with
    | RName.g n => some (RWrite.g n (BitVec.ofNat 32 q))
    | _ => none

/-- A waiting LEASE completes: d receives Q, and the thread continues. -/
def Thread.leased (th : Thread) (q : Nat) : Thread :=
  match th.park with
  | some .lease => { th.lateResult (th.leaseWrites q) with park := none, pc := th.pc + 10 }
  | _ => th
/-- The elected thread of an operation stops waiting at its first grant (R227). -/
def Thread.granted (th : Thread) : Thread :=
  match th.park with
  | some .grant => { th with park := none }
  | _ => th
/-- No operation of the same thread is newer: a thread parks for the latest that it has issued. -/
def Core.latest (k : Core) (o : MatOp) : Bool :=
  !(k.ops.any fun y => y.ctx == o.ctx && y.vtid == o.vtid && y.group == o.group && y.lane == o.lane && decide (o.id < y.id))

def State.giveLease (s : State) (r : LeaseReq) : State :=
  match r.who with
  | .op c id =>
    let s1 := s.updOp c id fun o => ({ o with granted := some (r.q, s.cycle) } : MatOp).begin s.cycle
    match (s.core c).ops.find? fun o => o.id == id with
    | some o =>
      if (s.core c).latest o then s1.updRef { core := c, team := o.team, group := o.group, lane := o.lane } Thread.granted else s1
    | none => s1
  | .explicit t =>
    (s.updGroup t.core t.team t.group fun g =>
      { g with lease := some { left := r.q, expiry := s.cycle + r.life } }).updRef t fun th => th.leased r.q

/-- The W that a request's current is predicted with: its operation's, or E (R254). -/
def State.requestW (s : State) (r : LeaseReq) : Nat :=
  match r.who with
  | .op c id => match (s.core c).ops.find? fun o => o.id == id with
    | some o => o.bound
    | none => 0
  | .explicit _ => r.life

/-- The head request of a cluster is granted when it fits and the rail allows it; the requests of a cycle are all there, in their
order, when the next one begins. -/
def execLeaseGrant (cluster : Nat) (s : State) : Res :=
  match s.clusters.find? fun x => x.id == cluster with
  | none => .next s
  | some x =>
    match x.queue with
    | [] => .next s
    | r :: rest =>
      if decide (r.at_ < s.cycle) && s.canGrant x r.q r.cap (s.requestW r) && s.works then
        .next ((((s.updCluster cluster fun y => { y with queue := rest }).giveLease r)).railUpdate)
      else .next s

def execLeaseExpiry (core team group : Nat) (s : State) : Res :=
  .next (s.updGroup core team group fun g =>
    match g.lease with
    | some l => if l.expiry ≤ s.cycle then { g with lease := none } else g
    | none => g)

/-! ## The term array -/

/-- The term arrays run until the halt is complete; none runs after a refused image (R359, R374). -/
def State.folds (s : State) : Bool := decide (s.power ≠ .down) && !s.mgmt.refused

def execFold (core row : Nat) (s : State) : Res := .next (if s.folds then s.foldRow core row else s)

/-- A cancelled operation, else the running one whose rows are complete, no sooner than the 16 start-up cycles of its run. -/
def Core.deliverable (k : Core) (now : Nat) : Option MatOp :=
  match k.ops.find? fun o => o.cancelled with
  | some o => some o
  | none => match k.headOp with
    | some o => if decide (o.state = .running) && o.reached && decide (o.began + 16 ≤ now) then some o else none
    | none => none

/-- After the power-fail trap no operation delivers (R359, R360). -/
def execMatrixDelivery (core : Nat) (s : State) : Res :=
  if !s.works then .next s else match (s.core core).deliverable s.cycle with
  | some o => .next (s.deliverOp core o)
  | none => .next s

def execOperationStop (core i : Nat) (s : State) : Res := .next (if s.folds then s.stopOp core i else s)

def execMatrixCancel (core ctx vtid group lane tag : Nat) (s : State) : Res :=
  .next (s.matrixCancel core ctx vtid group lane tag)

/-! ## The Light meter and the pass count (R247 to R249) -/

def threshold (s : State) (pool o : Nat) : Option Nat :=
  let v := sliceNat (s.classes.getD pool []) o 2
  if v = 0 then none else some v
/-- The up threshold of a pass count, and the down threshold. -/
def Cluster.up (x : Cluster) (s : State) : Option Nat :=
  match x.q with | 1 => threshold s x.pool 12 | 2 => threshold s x.pool 14 | _ => none
def Cluster.down (x : Cluster) (s : State) : Option Nat :=
  match x.q with | 2 => threshold s x.pool 16 | 4 => threshold s x.pool 18 | _ => none

/-- A reading is taken into account: the pass count may rise a step, and the time below the down threshold is kept. -/
def Cluster.read (x : Cluster) (s : State) (reading : Nat) : Cluster :=
  let x1 := { x with
    reading := reading, sum := x.sum + reading, readings := x.readings + 1
    below := match x.down s with
      | some d => if reading < d then some (x.below.getD s.cycle) else none
      | none => none }
  match x.up s with
  | some u =>
    if decide (u < reading) && decide (x.changed + 1100 ≤ s.cycle) && decide (x.q < 4) then
      { x1 with q := 2 * x.q, changed := s.cycle, below := none }
    else x1
  | none => x1

/-- The pass count rises a step, 1,100 cycles or more after its last change (R249). -/
def Cluster.raise (now : Nat) (x : Cluster) : Cluster :=
  if x.q < 4 ∧ x.changed + 1100 ≤ now then { x with q := 2 * x.q, changed := now, below := none } else x

/-- The core-rail current of the latest readings, in microamperes. -/
def State.railNow (s : State) : Nat := sumList (s.clusters.map fun x => x.reading * 500000)
/-- A log of the latest span of cycles with a new entry. -/
def logEntry (now span v : Nat) (l : List (Nat × Nat)) : List (Nat × Nat) := (l.filter fun x => decide (now < x.1 + span)) ++ [(now, v)]
def logMean (l : List (Nat × Nat)) : Nat := sumList (l.map fun x => x.2) / Nat.max 1 l.length

/-- A limit of R254 is about to be broken: the rail's mean over 1 ms above 2,600 A, the input power's over 10 ms above the applied cap,
or an interval above 2,600 A that has lasted its time (log 47). -/
def State.railOver (s : State) : Bool :=
  decide (2600000000 < logMean s.railLog) || decide (s.mgmt.cap < logMean s.powerLog) ||
    match s.railSince with
    | some t => decide (t + railTime ≤ s.cycle)
    | none => false
/-- The controller raises pass counts while a limit is about to be broken. -/
def State.railKeep (s : State) : State :=
  if s.railOver then { s with clusters := s.clusters.map (Cluster.raise s.cycle) } else s

def execLightMeterReading (cluster reading : Nat) (s : State) : Res :=
  let s1 := s.updCluster cluster fun x => x.read s reading
  .next (({ s1 with railLog := logEntry s.cycle 1100000 s1.railNow s1.railLog } : State).railUpdate.railKeep)

/-- The count may fall: readings below the threshold for the dwell time, a change 1,100 cycles past, and no hot site. -/
def Cluster.mayFall (x : Cluster) (s : State) : Bool :=
  decide (1 < x.q) && !x.heat && decide (x.changed + 1100 ≤ s.cycle) &&
    match x.below with
    | some t => decide (t + s.clsField x.pool 20 4 110000 ≤ s.cycle)
    | none => false

/-- The time for a change of the pass count has come: it falls, or, where heat holds it at 4, rises on (R249, R346). -/
def execPassCountFall (cluster : Nat) (s : State) : Res :=
  .next (s.updCluster cluster fun x =>
    if x.heat then x.raise s.cycle
    else if x.mayFall s then { x with q := x.q / 2, changed := s.cycle, below := none } else x)

/-! ## Bank switches and pre-emption (R172 to R176, R340) -/

/-- Leases of the teams that p names return, a thread parked in a waiting LEASE will execute it again, and untagged results
are written (R173, R174). -/
def State.returnLeases (s : State) (c : Nat) (p : Team → Bool) : State :=
  let ids := ((s.core c).teams.filter p).map fun t => t.id
  let back (t : Team) : Team :=
    let t1 := t.mapThreads fun _ _ th => if th.park = some .lease then th.unpark else th
    { t1 with groups := t1.groups.map fun g => { g with lease := none, threads := g.threads.map Thread.writeWindows } }
  let s1 := s.updCore c fun k => { k with teams := k.teams.map fun t => if p t then back t else t }
  s1.dropLeaseReqs fun r => match r.who with
    | .op _ _ => false
    | .explicit t => t.core == c && ids.contains t.team

/-- Groups of halting teams that p names stop where they are. -/
def State.stopHalting (s : State) (c : Nat) (p : Team → Bool) : State :=
  ((s.core c).teams.filter fun t => p t && t.halt.isSome).foldl (fun s t =>
    (List.range t.groups.length).foldl (fun s g => if t.groupStopped g then s else s.stopGroup c t.id g) s) s

/-- An operation is of a team that p names. -/
def Core.opOf (k : Core) (p : Team → Bool) (o : MatOp) : Bool := k.teams.any fun t => p t && o.of t
/-- Work of the teams that p names is stopped: matrix operations at their next block, with their leases returned at once (R227),
leases, halts in progress. -/
def State.standStill (s : State) (c : Nat) (p : Team → Bool) : State :=
  let ids := ((s.core c).teams.filter p).map fun t => t.id
  let mine := (s.core c).opOf p
  let s1 := ((s.stopHalting c p).returnLeases c p).stopOps c mine
  let s2 := s1.updCore c fun k => { k with ops := k.ops.map fun o => if mine o then o.release else o }
  { s2 with rounds := s2.rounds.filter fun r => match r.writer with
      | .thread k id => !(k == c && ids.contains id)
      | _ => true }

/-- Stopped operations of running teams that p names rejoin the queue, behind those already there (R221). -/
def State.requeueOps (s : State) (c : Nat) (p : Team → Bool) : State :=
  s.updCore c fun k =>
    let mine (o : MatOp) : Bool := k.opOf (fun t => p t && t.halt.isNone) o && decide (o.state = .stopped) && !o.cancelOnly && !o.cancelled
    { k with ops := (k.ops.filter fun o => !mine o) ++
        (k.ops.filter mine).map fun o => { o with state := .queued, target := none } }

/-- The shadow-bank switch is accepted when the inactive bank holds the incoming context. -/
def execBankSwitch (core : Nat) (s : State) : Res :=
  let k := s.core core
  match k.switch with
  | none => .next s
  | some ctx =>
    if k.twoCtx && k.bankCtx (1 - k.active) ctx && !s.switching core && !s.movingCore core && s.works then
      let out := k.active
      let s1 := s.standStill core fun t => t.bank == out
      let s2 := s1.updCore core fun k =>
        { k with active := 1 - out, switch := none, switching := some { ctx := ctx, accepted := s.cycle } }
      .next (s2.requeueOps core fun t => t.bank != out)
    else .next s

/-- The cores of a pool whose slice is over. -/
def State.sliceDue (s : State) (cls c : Nat) : Bool :=
  let k := s.core c
  let slice := sliceNat (s.classes.getD cls []) 28 4
  let last := match k.switching with | some x => x.accepted | none => 0
  k.twoCtx && slice != 0 && k.switch.isNone && decide (last + slice ≤ s.cycle) && !(k.bankTeams 0).isEmpty &&
    !(k.bankTeams 1).isEmpty && (match s.sites.find? fun x => x.core == some c with | some x => x.pool == cls | none => false)

def execBankSwitchSlice (cls : Nat) (s : State) : Res :=
  .next ((List.range Config.nCores).foldl (fun s c =>
    if s.sliceDue cls c then s.updCore c fun k =>
      { k with switch := ((k.bankTeams (1 - k.active)).head?).map fun t => t.ctx }
    else s) s)

def execPreEmption (core : Nat) (s : State) : Res :=
  let k := s.core core
  match k.switch with
  | none => .next s
  | some ctx =>
    if !k.twoCtx && k.switching.isNone && !s.movingCore core && s.works then
      .next ((s.standStill core fun _ => true).updCore core fun k =>
        { k with switch := none, switching := some { ctx := ctx, accepted := s.cycle } })
    else .next s

/-- Accesses of a team's threads that the fabric has not answered. -/
def State.fabricOpen (s : State) (c id : Nat) : Bool :=
  s.fabric.reqs.any fun r => match r.who with
    | .load x => x.core == c && x.team == id
    | .tagged x _ _ => x.core == c && x.team == id
    | .write x => x.core == c && x.team == id
    | .wait x => x.core == c && x.team == id
    | .engine _ _ _ => false
/-- Everything aimed at a bank's teams has been delivered (R175). -/
def State.bankQuiet (s : State) (c b : Nat) : Bool :=
  ((s.core c).bankTeams b).all fun t =>
    !s.copiesInto c t && !s.heldFor c t && !s.fabricOpen c t.id && !((s.core c).alops.any fun x => x.b.team == t.id) &&
    !((s.core c).ops.any fun o => o.of t && decide (o.state ≠ .stopped ∧ o.state ≠ .faulted)) &&
    t.lanes.all fun x => match t.thread? x.1 x.2 with
      | some th => (List.range 8).all fun i => match th.tags.getD i none with
          | some g => g.delivered || g.op.isSome || th.park.isSome
          | none => true
      | none => true

/-- A bank may be spilled: an inactive one that a waiting switch needs, or the whole array of a pre-emption. -/
def State.maySpill (s : State) (c b : Nat) : Bool :=
  let k := s.core c
  s.works && !s.movingCore c && !(k.bankTeams b).isEmpty && s.bankQuiet c b &&
    (if k.twoCtx then b != k.active && !s.switching c else s.switching c)

def imageSlot (base c b : Nat) : Nat := base + c * 3276800 + b * 1638400
/-- The most that an image takes. -/
def imageBytes (twoCtx : Bool) : Nat := if twoCtx then 1638400 else 3211264

/-- n bytes from a physical address on become f's values, block by block of 4 KiB, as far as they lie in memory. -/
def State.physFill (s : State) (pa n : Nat) (f : Nat → Byte) : State :=
  (List.range (ceilDiv n 4096)).foldl (fun s i =>
    let k := memPart (pa + 4096 * i) (Nat.min 4096 (n - 4096 * i))
    if k = 0 then s else (s.physPut (pa + 4096 * i) ((List.range k).map fun j => f (4096 * i + j)) 0).2) s

/-- The spill engine writes a bank image; the outgoing context's allowances return home (R298). The bytes of the image, whose layout is
the device's own, are free values (log 11). -/
def execImageSpill (core bank : Nat) (s : State) : Res :=
  let k := s.core core
  match (k.bankTeams bank).head? with
  | none => .next s
  | some t =>
    if s.maySpill core bank then
      let mine := k.opOf fun t => t.bank == bank
      let img : Image := { core := core, bank := bank, desc := t.desc, state := k.bank bank, teams := k.bankTeams bank
                           ops := k.ops.filter mine }
      let s1 := (s.physFill (imageSlot (s.ctxAt t.desc).imgbase core bank) (imageBytes k.twoCtx) (Config.imageByte s.free)).fresh.updCore
        core fun k =>
        { k.updBank bank fun _ => Bank.reset with
          teams := k.teams.filter fun t => t.bank != bank, ops := k.ops.filter fun o => !mine o
          tilesKept := k.tilesKept ++ (img.teams.map fun t => t.tiles).flatten }
      .next (({ s1 with images := s1.images ++ [img] } : State).returnCtx core t.ctx)
    else .next s

/-- The site of a core has failed. -/
def State.coreFailed (s : State) (c : Nat) : Bool := s.sites.any fun x => x.core == some c && x.failed
/-- An image may be loaded into its empty bank, or after the spill of a pre-emption; not on a core that has failed (R324). -/
def State.mayLoad (s : State) (c b ctx : Nat) : Bool :=
  let k := s.core c
  s.works && !s.coreFailed c && !s.movingCore c && (k.bankTeams b).isEmpty &&
    (if k.twoCtx then b != k.active
     else match k.switching with | some x => x.ctx == ctx | none => false)

/-- A team whose state is lost can only be removed (R322): cause 0xA4, also where it has halted already. -/
def Halt.lose (h : Halt) : Halt := if h.recorded then h else { h with cause := 0xA4 }
def State.loseTeam (s : State) (c : Nat) (t : Team) : State :=
  match t.halt with
  | none => if s.spilled c t.ctx t.vtid then s.stopSpilled c t 0xA4 else s.stopTeam c t.id 0xA4 true
  | some _ =>
    (s.updNamed c t.ctx t.vtid fun t => { t with halt := t.halt.map Halt.lose }).updCtx t.desc fun x =>
      { x with halts := x.halts.map fun e => if e.core = c ∧ e.vtid = t.vtid then { e with cause := 0xA4 } else e }

/-- Some granule of an image in memory is lost (R321). -/
def State.imageLost (s : State) (pa n : Nat) : Bool := s.lost.any fun g => decide (32 * g < pa + n) && decide (pa < 32 * g + 32)

/-- The spill engine loads an image. One that has lost a granule has lost state that no instruction reads, of all its teams (R321, R322,
log 11). -/
def execImageLoad (core bank ctx : Nat) (s : State) : Res :=
  match s.images.find? fun i => i.core == core && i.bank == bank && i.teams.any fun t => t.ctx == ctx with
  | none => .next s
  | some img =>
    if s.mayLoad core bank ctx then
      let back := (img.teams.map fun t => t.tiles).flatten
      let s1 := s.updCore core fun k =>
        { k.updBank bank fun _ => img.state with
          teams := k.teams ++ img.teams, ops := k.ops ++ img.ops
          tilesKept := k.tilesKept.filter fun x => !back.contains x
          switching := if k.twoCtx then k.switching else none }
      let s2 := { s1 with images := s1.images.erase img }
      let s3 :=
        if s.imageLost (imageSlot (s.ctxAt img.desc).imgbase core bank) (imageBytes (s.core core).twoCtx) then
          img.teams.foldl (fun s t => (s.noteError core).loseTeam core t) s2
        else s2
      .next (if (s3.core core).twoCtx then s3 else s3.requeueOps core fun t => t.bank == bank)
    else .next s

end Sys2Proof.Machine
end

