-- ==== Sys2Proof/Machine/Windows.lean ====
section
/-! DEFINITION. Writes of the core control windows and of the control region as events of their own, and the commands of the
restart report (R167, R168, R172, R302, R303, R320, R327, R330, R344, R353, R369, R370, R373, R383, R388). -/

namespace Sys2Proof.Machine

/-- Without power, and while the Fixer saves, nothing but the hold-up sequence changes the package (R359, R361). -/
def State.ifOn (s : State) (f : State → State) : Res := .next (if s.power = .on then f s else s)
/-- What still goes on until the package is down. -/
def State.ifUp (s : State) (f : State → State) : Res := .next (if s.power = .down then s else f s)
/-- What no refused boot offers: all but BAR0 and the management endpoint (R374). -/
def State.ifWorks (s : State) (f : State → State) : Res := .next (if s.works then f s else s)

/-! ## The core control window (R303) -/

def execBarrierEntryFree (core e : Nat) (s : State) : Res := s.ifOn fun s => s.barFree core e
def execBarrierEntryFill (core e : Nat) (s : State) : Res := s.ifOn fun s => s.barFill core e
def execBarrierCountWrite (core e : Nat) (v : DWord) (s : State) : Res := s.ifOn fun s => s.barCount core e v
def execBarrierKeyWrite (core e : Nat) (v : DWord) (s : State) : Res := s.ifOn fun s => s.barKey core e v
def execSpillMaskWrite (core j : Nat) (v : DWord) (s : State) : Res := s.ifOn fun s => s.spillMask core j v
def execTeamStop (core ctx vtid : Nat) (s : State) : Res := s.ifOn fun s => s.teamStop core ctx vtid
def execCoreModeWrite (core : Nat) (v : DWord) (s : State) : Res := s.ifOn fun s => s.coreMode core v

/-! ## Contexts, queues, sites, shares, placement, other registers -/

def execContextCreate (i : Nat) (s : State) : Res := s.ifOn fun s => s.contextCreate i
def execContextRetire (i : Nat) (s : State) : Res := s.ifOn fun s => s.contextRetire i
def execQueueOpen (i j : Nat) (v : DWord) (s : State) : Res := s.ifOn fun s => s.queueOpen i j v
def execPoolWrite (site : Nat) (v : DWord) (s : State) : Res := s.ifOn fun s => s.poolWrite site v
def execShareWrite (i : Nat) (v : DWord) (s : State) : Res := s.ifOn fun s => s.shareWrite i v
def execPlacementFreeze (v : DWord) (s : State) : Res := s.ifOn fun s => { s with frozen := bitOf v.toNat 0 }
/-- An access of the region at an offset: by the host through BAR0, at supervisor level (R371), where one that is not of 8 aligned bytes
reads 0 or is ignored (R303); or a write by monitor firmware, which alone writes the power floor (R379). -/
def execRegisterWrite (acc : RegAccess) (off : Nat) (s : State) : Res :=
  s.ifOn fun s => match acc with
    | .hostRead => { s with hostOut := s.hostOut ++ [.register off (BitVec.ofNat 64 (ctlRead s off))] }
    | .hostOther write => if write then s else { s with hostOut := s.hostOut ++ [.register off 0] }
    | .hostWrite v => ctlWrite s false off v
    | .firmware v => ctlWrite s true off v
def execWatchArm (w vector : Nat) (s : State) : Res := s.ifOn fun s => s.watchSet w vector true

/-! ## The fabric's windows -/

def execFabricWindowEnable (i w : Nat) (s : State) : Res := s.ifOn fun s => s.fabWindowEnable i w
def execReductionWindowEnable (r : Nat) (s : State) : Res := s.ifOn fun s => s.redWindowEnable r

/-! ## The restart report and the reserve (R369, R370) -/

def execDataRestore (k pa : Nat) (s : State) : Res := s.ifOn fun s => s.dataRestore k pa
def execTeamRestore (k cls i : Nat) (s : State) : Res := s.ifOn fun s => s.teamRestore k cls i
def execVaultRelease (s : State) : Res := s.ifOn State.vaultRelease
/-- The bank is charged; the reserve arms once the vault is released too. -/
def execReserveArmed (s : State) : Res :=
  s.ifOn fun s => { s with reserve := { s.reserve with charged := true } }

end Sys2Proof.Machine
end

