-- ==== Sys2Proof/Machine/Placement.lean ====
section
/-! DEFINITION. Page walks, L1 fills, invalidation rounds, write-back, and the placement engine (R258 to R271, R307, R341 to
R344). -/

namespace Sys2Proof.Machine

/-! ## Page walks (R307) -/

def Core.addXlat (k : Core) (x : Xlat) : Core := if k.tlb.contains x then k else { k with tlb := k.tlb ++ [x] }
def Core.addBad (k : Core) (b : BadWalk) : Core := if k.bad.contains b then k else { k with bad := k.bad ++ [b] }

/-- The oldest miss of a die completes its walk: the translation, or the answer that there is none, reaches the cores that
wait. -/
def execPageWalk (die : Nat) (s : State) : Res :=
  s.ifUp fun s =>
    match (s.die die).misses with
    | [] => s
    | m :: rest =>
      let s1 := s.updDie die fun d => { d with misses := rest }
      match s.walk m.ctx (m.page * 65536) with
      | .leaf x =>
        m.cores.foldl (fun s c => s.updCore c fun k => k.addXlat x)
          (s1.updDie die fun d => if d.tlb.contains x then d else { d with tlb := d.tlb ++ [x] })
      | .bad w => m.cores.foldl (fun s c => s.updCore c fun k => k.addBad { ctx := m.ctx, page := m.page, why := w }) s1

/-! ## L1 fills and invalidation rounds (R261, R264, R267, R281) -/

/-- A fill reaches its core: the copy is kept unless an invalidation met the fill on its way. -/
def Core.fill (k : Core) (unit : Nat) : Core :=
  match k.fills.find? fun x => x.base == unit with
  | none => k
  | some x =>
    let rest := k.fills.erase x
    if x.dead then { k with fills := rest }
    else { k with
      fills := rest
      l1 := (k.l1.filter fun y => !(decide (y.base < x.base + x.size) && decide (x.base < y.base + y.size))) ++ [x] }
def execL1Fill (core unit : Nat) (s : State) : Res := s.ifWorks fun s => s.updCore core fun k => k.fill unit

/-- An invalidation reaches a core, which drops its copies; its report will be at least its maximum clock. -/
def execL1Invalidation (core unit : Nat) (s : State) : Res :=
  s.ifUp fun s =>
    match s.rounds.find? fun r => r.base == unit && r.toDrop.contains core with
    | none => s
    | some r =>
      let top := s.coreClock core
      { s.updCore core (fun k => k.dropL1 r.base r.size) with
        rounds := s.rounds.map fun x =>
          if x = r then { x with toDrop := x.toDrop.erase core, report := Nat.max x.report top } else x }

/-- The host's number among those that report. -/
def hostAgent : Nat := 224

/-- Home's unit takes the greatest report as its read time stamp. -/
def State.raiseRts (s : State) (base size top : Nat) : State :=
  let st := s.unitStamp base size
  s.setStamp base size { st with rts := Nat.max st.rts top }

/-- A write of the host is one event at home (R281, R372). -/
def State.hostWriteNow (s : State) (h : Nat) (data : BitVec 512) : State :=
  let (t, s1) := s.physWrite h (natBytes data.toNat 64) s.hostClock
  { s1 with hostClock := Nat.max s.hostClock t, hostOut := s1.hostOut ++ [.written h] }

/-- Home receives a report; after the last one the unit's read time stamp is raised and the write goes on. After the halt of a power-fail
nothing is written (R360). -/
def execInvalidationReport (core unit : Nat) (s : State) : Res :=
  .next <| if !s.serves then s else
    match s.rounds.find? fun r => r.base == unit && r.toReport.contains core && !r.toDrop.contains core with
    | none => s
    | some r =>
      let top := if core = hostAgent then Nat.max r.report s.hostClock else r.report
      let r1 := { r with toReport := r.toReport.erase core, report := top }
      let s1 := { s with
        rounds := s.rounds.map fun x => if x = r then r1 else x
        hostLines := if core = hostAgent then
            s.hostLines.filter fun h => !(decide (h < r.base + r.size) && decide (r.base < h + 64))
          else s.hostLines }
      if r1.toReport.isEmpty then
        let s2 := s1.raiseRts r.base r.size top
        match r.writer with
        | .host h data =>
          if s2.rounds.any fun x => decide (x.writer = r.writer) && !x.toReport.isEmpty then s2
          else ({ s2 with rounds := s2.rounds.filter fun x => decide (x.writer ≠ r.writer) } : State).hostWriteNow h data
        | _ => s2
      else s1

/-! ## Write-back (R271, R273) -/

/-- Formats whose dense lines may be compacted on the way to memory. -/
def writeBackFmt (n : Nat) : Option ElemFmt :=
  match n with | 1 => some .s8 | 9 => some .bf16 | 10 => some .e4m3 | 11 => some .e5m2 | _ => none

/-- A slice writes a line back: memory keeps it as the record that the Developer makes of it, dense where it makes none (R271, R273). Reads
expand it, so that mem holds the line's dense bytes. -/
def execL2WriteBack (ctx va : Nat) (s : State) : Res :=
  s.ifWorks fun s =>
    match s.walk ctx va with
    | .leaf x =>
      let l := leafOf x
      let pa := l.phys va / 128 * 128
      match if l.cp && !inCtl pa then writeBackFmt l.efmt else none with
      | some f =>
        let record := if (s.lostIn pa 128).isNone then (compactLine f (s.readBytes pa 128) []).getD [] else []
        { s with compact := amSet [] s.compact (pa / 128) record }
      | none => s
    | _ => s

/-! ## Class switches (R341, R343) -/

/-- A field of an exposure table, with its default. -/
def Ctx.tab (x : Ctx) (o n dflt : Nat) : Nat :=
  let v := sliceNat x.xtable o n
  if v = 0 then dflt else v
def Ctx.movesOn (x : Ctx) : Bool := bitOf (sliceNat x.xtable 0 1) 0
def Ctx.switchesOn (x : Ctx) : Bool := bitOf (sliceNat x.xtable 0 1) 1

/-- A page at the end of a window: the counts begin again. -/
def PageRec.reset (p : PageRec) : PageRec :=
  { p with acc0 := 0, acc1 := 0, last0 := p.acc0, last1 := p.acc1, writers := [] }

/-- The switch that a page takes at the end of a window: to near; back to leased, whether its leaf or an override made it near; or none. -/
def PageRec.switched (p : PageRec) (x : Ctx) (cls : BitVec 2) : PageRec :=
  let calm := if p.writers.length ≤ 1 then p.calm + 1 else 0
  if cls = 2 then
    if x.tab 28 4 64 ≤ sumList (p.writers.map fun w => w.2) ∧ 2 ≤ p.writers.length then { p with cls := some 3, calm := 0 } else p
  else if cls = 3 then
    (if x.tab 32 1 8 ≤ calm then { p with cls := some 2, calm := 0 } else { p with calm := calm })
  else p

def State.windowPage (s : State) (x : Ctx) (p : PageRec) : State :=
  let cls := match p.mapped.head? with
    | some (c, va) => match s.walk c va with
      | .leaf y => s.clsOf (leafOf y)
      | _ => 0
    | none => 0
  let q := if x.switchesOn && !s.frozen && !s.pagePinned p.base then p.switched x cls else p
  let s1 := if q.cls ≠ p.cls then { s with cores := s.cores.map fun k => k.dropL1 p.base p.size } else s
  { s1 with pages := s1.pages.map fun y => if y.base = p.base then q.reset else y }

/-- The end of an observation window of a context's pages. -/
def execObservationWindow (ctx : Nat) (s : State) : Res :=
  s.ifWorks fun s =>
    let x := s.ctxAt ctx
    if x.valid && x.watched && decide (x.windowEnd ≤ s.cycle) then
      let mine := s.pages.filter fun p => match p.mapped.head? with
        | some (c, _) => c == x.id
        | none => false
      (mine.foldl (fun s p => s.windowPage x p) s).updCtx ctx fun y => { y with windowEnd := s.cycle + x.tab 8 8 1100000 }
    else s

/-! ## Page moves (R342) -/

/-- Where the leaf of an address lies. -/
def State.leafSlotAt (s : State) (va : Nat) : Nat → Nat → Option Nat
  | l, table =>
    let a := table + 8 * fld va (lvShift l) (lvBits l)
    let e := s.read8 a
    if !bitOf e 63 || entryBad l e then none
    else if bitOf e 62 then some a
    else
      match l with
      | 0 => none
      | k + 1 => s.leafSlotAt va k (fld e 8 36 * 256)

/-- A table of level l, or one below it, lies in a range. -/
def State.tablesMeet (s : State) (lo hi : Nat) : Nat → Nat → Bool
  | l, table =>
    (decide (table < hi) && decide (lo < table + lvTable l)) ||
      match l with
      | 0 => false
      | k + 1 => (List.range (2 ^ lvBits (k + 1))).any fun i =>
          let e := s.read8 (table + 8 * i)
          bitOf e 63 && !entryBad (k + 1) e && !bitOf e 62 && s.tablesMeet lo hi k (fld e 8 36 * 256)

def meets (lo hi a n : Nat) : Bool := decide (a < hi) && decide (lo < a + n)
/-- Pages that are never moved: the control region, page tables, trap queues, halt areas, image areas. -/
def State.unmovable (s : State) (lo n : Nat) : Bool :=
  !physOk lo n || inCtl lo || s.ctxs.any fun x => x.valid &&
    (meets lo (lo + n) x.tqbase (64 * 2 ^ x.tqsize) || meets lo (lo + n) x.hbase (16384 * x.hcount) ||
      meets lo (lo + n) x.imgbase (224 * 3276800) || s.tablesMeet lo (lo + n) 3 x.root)

def inTier (pa : Nat) : Bool := decide (Config.tierBase ≤ pa)
/-- The die whose stacks hold an HBM4 address (R325). -/
def hbmDie (pa : Nat) : Nat := pa / 0x4000000000

/-- A page with its context, leaf, leaf slot and record. -/
structure Movable where
  x : Ctx
  l : Leaf
  va : Nat
  slot : Nat
  pg : PageRec
  deriving DecidableEq, Repr

def State.movable (s : State) (ctx va : Nat) : Option Movable :=
  match s.ctxById ctx, s.walk ctx va with
  | some i, .leaf y =>
    let l := leafOf y
    match s.leafSlotAt va 3 (s.ctxAt i).root with
    | some slot =>
      if (s.ctxAt i).movesOn && !s.pagePinned l.pa then
        some { x := s.ctxAt i, l := l, va := l.va, slot := slot, pg := (s.pageAt l.pa).getD (PageRec.fresh l.pa l.size) }
      else none
    | none => none
  | _, _ => none

def PageRec.total (p : PageRec) : Nat := p.last0 + p.last1
def Movable.cold (m : Movable) : Bool := decide (m.pg.total ≤ m.x.tab 20 4 16)
def Movable.hot (m : Movable) : Bool := decide (m.x.tab 16 4 4096 ≤ m.pg.total)
/-- Accesses of the other die than d, in 256ths, at or above the share. -/
def Movable.remote (m : Movable) (d : Nat) : Bool :=
  decide (0 < m.pg.total) && decide (m.x.tab 24 1 192 * m.pg.total ≤ 256 * (if d = 0 then m.pg.last1 else m.pg.last0))

/-- The exchange carries out one of the two aims of R342, and no page goes where its preference forbids. -/
def worthMoving (a b : Movable) : Bool :=
  (inTier a.l.pa && !inTier b.l.pa && a.hot && b.cold && a.l.tier != 2 && b.l.tier != 1) ||
    (!inTier b.l.pa && b.cold && !inTier a.l.pa && hbmDie a.l.pa != hbmDie b.l.pa && a.remote (hbmDie a.l.pa) &&
      a.l.tier != 2 && b.l.tier != 2) ||
    (inTier a.l.pa && a.l.size == 65536 && !inTier b.l.pa && b.cold && a.l.tier != 2 && b.l.tier != 1 &&
      a.remote (a.l.pa / 65536 % 2) && hbmDie b.l.pa != a.l.pa / 65536 % 2)

/-- A map with the keys of two ranges of n exchanged; a < b. -/
def swapRange {α : Type} (m : List (Nat × α)) (a b n : Nat) : List (Nat × α) :=
  let part (lo hi : Nat) := m.filter fun e => decide (lo ≤ e.1) && decide (e.1 < hi)
  (m.filter fun e => decide (e.1 < a)) ++ ((part b (b + n)).map fun e => (e.1 - b + a, e.2)) ++ part (a + n) b ++
    ((part a (a + n)).map fun e => (e.1 - a + b, e.2)) ++ m.filter fun e => decide (b + n ≤ e.1)

/-- An address of two pages of n bytes, exchanged. -/
def swapAddr (a b n pa : Nat) : Nat :=
  if a ≤ pa ∧ pa < a + n then pa - a + b else if b ≤ pa ∧ pa < b + n then pa - b + a else pa

/-- A leaf with another page's address. -/
def leafWith (e : DWord) (pa : Nat) : DWord :=
  BitVec.ofNat 64 (e.toNat / 2 ^ 44 * 2 ^ 44 + e.toNat % 256 + pa)
def moveXlat (a b n : Nat) (x : Xlat) : Xlat := { x with leaf := leafWith x.leaf (swapAddr a b n (leafOf x).pa) }
def AlReq.moved (a b n : Nat) (r : AlReq) : AlReq := { r with obj := swapAddr a b n r.obj, page := moveXlat a b n r.page }

/-- The untracked copies of a page are dropped, and home takes the reports, before the page moves (R261, R262). -/
def State.dropPage (s : State) (a n : Nat) : State :=
  let units := (s.cores.map fun k => ((k.l1 ++ k.fills).filter fun x =>
    !x.leased && !x.dead && decide (x.base < a + n) && decide (a < x.base + x.size)).map fun x => (x.base, x.size)).flatten.eraseDups
  units.foldl (fun s u => s.dropUnit { plainLeaf a n with grain := u.2 } u.1) s

/-- What lies in the two pages of n bytes at a and b, a < b, changes places. Each unit keeps its time stamps (R342). -/
def State.exchange (s : State) (a b n : Nat) : State :=
  let at' := swapAddr a b n
  let req := AlReq.moved a b n
  { s with
    mem := swapRange s.mem a b n
    gtags := swapRange s.gtags (a / 32) (b / 32) (n / 32)
    stamps := swapRange s.stamps (a / 32) (b / 32) (n / 32)
    lost := s.lost.map fun g => at' (32 * g) / 32
    compact := swapRange s.compact (a / 128) (b / 128) (n / 128)
    pages := s.pages.map fun p => { p with
      base := at' p.base }
    alObjects := s.alObjects.map fun o => { o with
      obj := at' o.obj, page := moveXlat a b n o.page, queue := o.queue.map req, sharing := o.sharing.map req }
    alReqs := s.alReqs.map req
    alReplies := s.alReplies.map fun r => (r.1, req r.2.1, r.2.2)
    cores := s.cores.map fun k =>
      { (k.dropL1 a n).dropL1 b n with
        tlb := k.tlb.filter fun x => (leafOf x).pa != a && (leafOf x).pa != b
        allow := k.allow.map fun y => { y with obj := at' y.obj }
        alops := k.alops.map fun y => { y with lanes := y.lanes.map req } }
    dies := s.dies.map fun d => { d with tlb := d.tlb.filter fun x => (leafOf x).pa != a && (leafOf x).pa != b } }

/-- An access of either page waits at home, or the host holds a line of it. -/
def State.pageBusy (s : State) (pa n : Nat) : Bool :=
  (s.rounds.any fun r => decide (r.base < pa + n) && decide (pa < r.base + r.size)) ||
    s.hostLines.any fun h => decide (h < pa + n) && decide (pa < h + 64)

/-- A leaf's address is rewritten by one 8-byte write at home. -/
def State.leafWrite (s : State) (slot pa : Nat) : State :=
  (s.physPut slot (natBytes (leafWith (BitVec.ofNat 64 (s.read8 slot)) pa).toNat 8) 0).2

/-- The engine exchanges the pages of two leaves. Home holds accesses meanwhile, so the move is one event here. -/
def execPageMove (ctxA vaA ctxB vaB : Nat) (s : State) : Res :=
  s.ifWorks fun s =>
    match s.movable ctxA vaA, s.movable ctxB vaB with
    | some x, some y =>
      if !s.frozen && x.l.size == y.l.size && x.l.pa != y.l.pa && worthMoving x y && !s.pageBusy x.l.pa x.l.size &&
          !s.pageBusy y.l.pa y.l.size && !s.unmovable x.l.pa x.l.size && !s.unmovable y.l.pa y.l.size then
        let s1 := ((s.dropPage x.l.pa x.l.size).dropPage y.l.pa y.l.size).exchange (Nat.min x.l.pa y.l.pa)
          (Nat.max x.l.pa y.l.pa) x.l.size
        ((s1.leafWrite x.slot y.l.pa).leafWrite y.slot x.l.pa)
      else s
    | _, _ => s

end Sys2Proof.Machine
end

