-- ==== Sys2Proof/Machine/Relocate.lean ====
section
/-! DEFINITION. Sensors, relocation, failures and spares (R322, R324, R345 to R350). -/

namespace Sys2Proof.Machine

/-! ## Sensors (R350) -/

/-- Some team is on a core, in its array or in an image. -/
def State.coreBusy (s : State) (c : Nat) : Bool := !(s.core c).teams.isEmpty || s.images.any fun i => i.core == c

/-- The pass counts of a core's clusters are held at 4 until its sites cool, and rise to it step by step (R249, R346). -/
def State.heatHold (s : State) (c : Nat) : State :=
  { s with clusters := s.clusters.map fun x => if x.cores.contains c then ({ x with heat := true } : Cluster).raise s.cycle else x }

def State.hotCore (s : State) (c : Nat) : Bool := s.sites.any fun x => x.core == some c && x.hot
/-- Clusters none of whose cores is hot are held no longer. -/
def State.heatRelease (s : State) : State :=
  { s with clusters := s.clusters.map fun x => if x.heat && !(x.cores.any s.hotCore) then { x with heat := false } else x }

/-- A reading: a site becomes hot at the class's relocation temperature and cool at its cool temperature. -/
def execSensorReading (site temp : Nat) (s : State) : Res :=
  s.ifOn fun s =>
    match s.siteAt site with
    | none => s
    | some x =>
      let t := temp % 256
      let hot := decide (s.clsField x.pool 24 1 95 ≤ t) || (x.hot && decide (s.clsField x.pool 25 1 85 < t))
      let s1 := ({ s with sites := s.sites.map fun y => if y.v = site then { y with temp := t, hot := hot } else y } : State).heatRelease
      match x.core with
      | some c => if hot && s.coreBusy c && (!x.hot || !s.relocs.any fun r => r.core == c && decide (r.step < 5)) then s1.askMove c none 1 else s1
      | none => s1

/-! ## Relocation (R345 to R349) -/

def State.updSite (s : State) (v : Nat) (f : Site → Site) : State :=
  { s with sites := s.sites.map fun x => if x.v = v then f x else x }
def State.updReloc (s : State) (c : Nat) (f : Reloc → Reloc) : State :=
  { s with relocs := s.relocs.map fun r => if r.core = c ∧ r.step ≤ 4 then f r else r }

/-- Running teams go on: stopped operations rejoin the queue (R347 step 6). -/
def State.moveOn (s : State) (c : Nat) : State := s.requeueOps c (s.opsRun c)

/-- A relocation that is given up: what its forwarding entry holds is applied where the state stands, the sites are free again and the
core goes on. -/
def State.dropMove (s : State) (r : Reloc) : State :=
  let s1 := (s.markSite (some (s.siteOf r.core)) false).markSite r.target false
  let s2 := r.held.foldl (fun s h => s.applyHeld r.core h) { s1 with relocs := s1.relocs.filter fun x => decide (x ≠ r) }
  s2.moveOn r.core

/-- A team whose state cannot be recovered halts with 0xA4, which counts as an uncorrectable error (R323, R324). -/
def State.giveUp (s : State) (c : Nat) : State := (s.teamsOf c).foldl (fun s t => (s.noteError c).loseTeam c t) s

/-- No target exists (R346): heat holds the pass count, a failure halts the teams, those of images too, a named move is given up. -/
def State.noTarget (s : State) (r : Reloc) : State :=
  let s1 := s.dropMove r
  match r.trigger with
  | 1 => s1.heatHold r.core
  | 2 => s1.giveUp r.core
  | _ => s1

/-- The target chosen stays good until the commit. -/
def State.targetGood (s : State) (v : Nat) : Bool :=
  match s.siteAt v with
  | some x => !x.failed && !x.hot && (match x.core with | some c => (s.core c).teams.isEmpty | none => true)
  | none => false
/-- The target of a relocation, chosen anew where the one it has is no longer good; the relocation then stands at a step. -/
def State.retarget (s : State) (r : Reloc) (step : Nat) : Option State :=
  match r.target.filter s.targetGood with
  | some _ => some (s.updReloc r.core fun x => { x with step := step })
  | none =>
    let s1 := s.markSite r.target false
    match s1.target r.core r.named with
    | some v => some ((s1.markSite (some v) true).updReloc r.core fun x => { x with target := some v, step := step })
    | none => none

/-- Every matrix operation of a core stands at a block boundary. -/
def Core.opsStill (k : Core) : Bool := k.ops.all fun o => decide (o.state = .stopped ∨ o.state = .faulted)

/-- Steps 1 to 3, then the start of step 4, once the forwarding entry of an earlier move has closed. -/
def execRelocationStop (core : Nat) (s : State) : Res :=
  s.ifWorks fun s =>
    match s.relocs.find? fun r => r.core == core && decide (r.step < 4) with
    | none => s
    | some r =>
      if r.step = 1 then
        if s.switching core then s
        else
          match s.retarget r 3 with
          | none => s.noTarget r
          | some s1 => s1.standStill core fun _ => true
      else if (s.core core).opsStill && !s.relocs.any fun x => x.core == core && decide (5 ≤ x.step) then
        match s.retarget r 4 with
        | none => s.noTarget r
        | some s1 => s1
      else s

/-- The entries of two sites after the exchange (R328). -/
def swapSites (a b : Site) (x : Site) : Site :=
  if x.v = a.v then { x with core := b.core, pool := b.pool, relocating := false }
  else if x.v = b.v then { x with core := a.core, pool := a.pool, relocating := false }
  else x

/-- What a site holds for its core and does not move: cached lines, translations, instruction lines. -/
def Core.arrive (k : Core) : Core := { k with l1 := [], fills := [], tlb := [], ilines := [] }
/-- A core's teams, those of its images too, stand on another site (R20, R347). -/
def State.arrive (s : State) (c : Nat) : State :=
  (s.updCore c Core.arrive).mapTeams fun d t => if d = c then { t with relocs := t.relocs + 1 } else t

/-- Steps 5 and 6. A target that fails meanwhile is replaced, and step 4 restarts. -/
def execRelocationCommit (core : Nat) (s : State) : Res :=
  s.ifWorks fun s =>
    match s.relocs.find? fun r => r.core == core && r.step == 4 with
    | none => s
    | some r =>
      match (r.target.filter s.targetGood).bind s.siteAt, s.siteAt (s.siteOf core) with
      | some tgt, some me =>
        let s1 := { s with sites := s.sites.map (swapSites me tgt) }
        let s3 := ((s1.arrive core).updReloc core fun x => { x with step := 5 }).moveOn core
        { s3 with relocs := s3.relocs.filter fun x => !(x.core == core && x.step == 5 && x.held.isEmpty) }
      | _, _ =>
        match s.retarget r 4 with
        | none => s.noTarget r
        | some s1 => s1

/-! ## Failures and spares (R322, R324) -/

/-- A core has failed: its teams are relocated (R322, R324). -/
def State.failCore (s : State) (core : Nat) : State :=
  let s1 := s.updSite (s.siteOf core) fun x => { x with failed := true }
  if s1.coreBusy core then s1.askMove core none 2 else s1

/-- An ECC error in core state (R321, R322): one that is corrected is counted; a team whose state no instruction reads is lost; the
core fails by its shared control state; what an instruction reads is marked until it is written. -/
def execCoreStateLoss (core : Nat) (what : CoreLoss) (s : State) : Res :=
  s.ifOn fun s =>
    match what with
    | .corrected => s.countError core 0
    | .team id => (match s.team? core id with
      | some t => (s.noteError core).loseTeam core t
      | none => s)
    | .shared => s.failCore core
    | .reg t g l n => s.updTeam core t fun x => if n < x.nregs then x.updThread g l fun th => { th with lost := .g n :: th.lost } else x
    | .pred t g l n => s.updThread core t g l fun th => if n < 7 then { th with lost := .p n :: th.lost } else th
    | .uniform t g n => s.updGroup core t g fun gr => if n < 64 then { gr with lost := n :: gr.lost } else gr
    | .scratch t o => s.updTeam core t fun x => if o < x.bytes then { x with lost := o :: x.lost } else x
    | .tile t n => (match (s.team? core t).bind fun x => x.tiles[n]? with
      | some i => s.updCore core fun k => { k with tiles := updAt k.tiles i fun x => { x with lost := true } }
      | none => s)

/-- The cycles that a replay can add (R223). -/
def MatOp.replayBound (o : MatOp) : Nat :=
  32 * wTmax o.fmtA o.view.pw + 2 + 4 * (if fwLay o.fw ∧ o.view.allot < 8 * wTmax o.fmtA o.view.pw then 1 else 0)
/-- The column runs the block of a row again, and reads its words again (R210, R223): the whole term phase pauses. -/
def MatOp.replayed (o : MatOp) (now row b pause : Nat) : MatOp :=
  { o with
    since := now, replays := o.replays + 1, began := o.began + Nat.min pause o.replayBound
    words := o.words.filter fun w => w.1 != b
    rows := updAt o.rows row fun r => { r with next := none, costs := r.costs.take (32 * b) } }
/-- The operation stops with block b not done: the block runs again on the target core (R221, R223). -/
def MatOp.stopBefore (o : MatOp) (now b : Nat) : MatOp :=
  { o with state := .stopping, target := some (Nat.min b (o.target.getD (o.stopTarget now))) }
/-- A lane's residue does not match in the block that a row runs: the lane's column is replaced by a spare one of the site, and the
block runs again; with no spare left the core is failing (R223). -/
def State.replay (s : State) (core row pause : Nat) : State :=
  match (s.core core).headOp with
  | none => s
  | some o =>
    match o.rows[row]? with
    | none => s
    | some r =>
      if r.next.isNone || decide (o.state ≠ .running ∧ o.state ≠ .stopping) then s
      else if s.spareCols core = 0 then (s.updOp core o.id fun o => o.stopBefore s.cycle r.done).failCore core
      else
        ((s.updSite (s.siteOf core) fun x => { x with spareCols := x.spareCols - 1 }).countError core 1).updOp core o.id fun o =>
          o.replayed s.cycle row r.done pause

/-- A spare takes a failed unit's place; what was lost with the unit stays lost (R321). A page of memory that is retired is remapped
onto spare capacity, or counts as exhausted and stays (R326). -/
def execUnitSparing (u : SpareUnit) (lost : List Nat) (s : State) : Res :=
  s.ifOn fun s0 =>
    let s := match u with
      | .termColumn core row pause => s0.replay core row pause
      | .page pa true => { s0 with retired := insertOnce s0.retired (pa / 65536) }
      | .page pa false => { s0 with exhausted := insertOnce s0.exhausted (pa / 65536) }
      | .l2slice _ _ => s0
      | .hbmChannel _ _ => s0
    { s with lost := (lost.filter fun g => physOk (32 * g) 32 && !inCtl (32 * g)).foldl insertOnce s.lost }

end Sys2Proof.Machine
end

