-- ==== Sys2Proof/Machine/HoldUp.lean ====
section
/-! DEFINITION. The power-fail trap, the save sequence into the Negative, and the restart (R359 to R370). -/

namespace Sys2Proof.Machine

/-! ## The power-fail trap (R359) -/

/-- A team halted by the trap: every group has stopped, and results but those of matrix operations are written. A halt by a cause of the
team's own in the same cycle gives way (R312): its thread stands at the instruction, TRAP's and SYSC's too. -/
def Group.downed (g : Group) : Group :=
  let g1 := g.unarrive
  { g1 with waitLine := none, lease := none, threads := g1.threads.map fun th => th.unpark.settle }
/-- The issue of the thread's last word is taken back. -/
def Thread.unissue (th : Thread) : Thread :=
  { th with pc := th.pc - 10, windows := th.windows.map fun w => { w with left := w.left + 1 } }
/-- The team before a cause of its own in a cycle. -/
def Team.uncaused (t : Team) (cf : Nat) : Team :=
  match t.halt with
  | some h =>
    if h.cf = cf ∧ h.recorded = false then
      let t1 := match h.who with
        | some (g, l) => if h.cause = 0x0A ∨ h.cause = 0x0B then t.updThread g l Thread.unissue else t
        | none => t
      { t1 with halt := none }
    else t
  | none => t
def Team.downed (t0 : Team) (cf : Nat) : Team :=
  let t := t0.uncaused cf
  let h : Halt := match t.halt with
    | some h => { h with stops := h.stops.map fun _ => true }
    | none => { cause := 0xA0, addr := 0, extra := 0, cf := cf, who := none, pc := 0, skids := skidList t
                stops := t.groups.map fun _ => true, mx := none, entry := none, recorded := false }
  { t with groups := t.groups.map Group.downed, halt := some h, carve := none }

/-- The lanes of an allowance bundle that home has answered count as acted; the first that is left, and the amount that comes
back to the core. -/
def AlBundle.cut (x : AlBundle) (answer : Option AlReply) (waits : Bool) : AlBundle × Nat :=
  match x.lanes with
  | [] => (x, 0)
  | r :: rest =>
    let act (ws : List RWrite) (clock : Nat) : AlBundle :=
      { x with lanes := rest, acted := x.acted ++ [{ group := r.group, lane := r.lane, writes := ws, clock := clock, parked := false }] }
    match answer with
    | some (.done _ _) => (act (match r.kind with | .takeT => alBool x.dests true | _ => []) 0, 0)
    | some (.value v t) => (act (alPair x.dests v) t, 0)
    | some .failed => (match r.kind with | .takeT => act (alBool x.dests false) 0 | _ => x, 0)
    | some (.cause _ back) => (x, back)
    | some .queued => (x, 0)
    | none => (x, if waits then r.carried else 0)

/-- An allowance bundle ends where it stands: the lanes that have acted move on, the others stay at the instruction. -/
def State.alEnd (s : State) (x : AlBundle) : State :=
  let r? := x.lanes.head?
  let mine (r : AlReq) : Bool := x.sent && r? == some r
  let answer := (s.alReplies.find? fun y => mine y.2.1).map fun y => y.2.2
  let (y, back) := x.cut answer (s.alReqs.any mine)
  let s1 := match r? with
    | some r => if back = 0 then s else s.updCore r.core fun k =>
        k.addAllow r.obj r.ctx back (match k.allowOf r.obj r.ctx with | some y => y.maxc | none => r.maxc)
    | none => s
  let y1 := { y with acted := y.acted.filter fun d => !d.parked }
  let below : List (Nat × Nat) := match y1.lanes with
    | r :: _ => y1.b.members.filter fun m => decide (m.2 < r.lane)
    | [] => y1.b.members
  (s1.alForget x).alCommit y1 (below.filter fun m => !(y.acted.any fun d => d.parked && d.group == m.1 && d.lane == m.2))

/-- An operation whose fault in the trap's cycle gives way runs again like any other (R312). -/
def MatOp.uncaused (teams : List Team) (cf : Nat) (o : MatOp) : MatOp :=
  if teams.any fun t => match t.halt with
    | some h => decide (h.cf = cf) && !h.recorded && h.mx == some (o.id, o.tag)
    | none => false
  then { o with fault := none, cancelOnly := false } else o
/-- A core at the trap. -/
def Core.downed (k : Core) (cf : Nat) : Core :=
  { k with
    teams := k.teams.map fun t => t.downed cf
    banks := k.banks.map fun b => { b with grow := [] }
    switch := none, switching := none, alops := []
    ops := k.ops.map fun o => (o.uncaused k.teams cf).stop cf
    engines := k.engines.map fun e => { e with queue := e.queue.map fun o => { o with fab := none, adding := none } } }

/-- Everything that a forwarding entry holds is applied where the core's state stands (R348, R349). -/
def State.applyAllHeld (s : State) : State :=
  s.relocs.foldl (fun s r => r.held.foldl (fun s h => s.applyHeld r.core h) s) s

/-- R359; an ALINIT whose round is open is dropped with the round, and its value is not stored (log 94). -/
def execPowerFail (s : State) : Res :=
  s.ifOn fun s =>
    let s1 := (s.cores.map fun k => k.alops).flatten.foldl State.alEnd s
    let s2 := s1.applyAllHeld
    { s2 with
      power := .failing, bundle := none
      cores := s2.cores.map fun k => k.downed s.cycle
      images := s2.images.map fun i => { i with teams := i.teams.map fun t => t.downed s.cycle }
      clusters := s2.clusters.map fun x => { x with queue := [] }
      alObjects := s2.alObjects.map fun o => { o with queue := [], round := none, sharing := [] }
      alReqs := [], alReplies := [], relocs := []
      rounds := s2.rounds.filter fun r => match r.writer with | .host _ _ => true | _ => false
      sites := s2.sites.map fun x => { x with relocating := false }
      fabric := { s2.fabric with reqs := [] } }

/-! ## What is saved, and in which order (R362) -/

/-- One declared entry: its context's descriptor, its index, the entry. -/
structure SaveItem where
  desc : Nat
  idx : Nat
  e : SaveEntry
  deriving DecidableEq, Repr

/-- Contexts with a set: by cpri, highest first, ties to the lower id. -/
def State.saveCtxs (s : State) : List Nat :=
  sortBy (fun i j => decide ((s.ctxAt j).cpri < (s.ctxAt i).cpri) ||
      ((s.ctxAt j).cpri == (s.ctxAt i).cpri && decide ((s.ctxAt i).id < (s.ctxAt j).id)))
    ((List.range Config.nCtxs).filter fun i => (s.ctxAt i).valid && (s.ctxAt i).mset.isSome)
def State.saveItems (s : State) : List SaveItem :=
  (s.saveCtxs.map fun i => mapIdxFrom (fun k e => ({ desc := i, idx := k, e := e } : SaveItem)) 0 ((s.ctxAt i).mset.getD [])).flatten
def SaveItem.view (x : SaveItem) : SaveView := saveView x.e.bytes
def State.charged (s : State) : List SaveItem := s.saveItems.filter fun x => !x.view.be
def State.bestEffort (s : State) : List SaveItem :=
  sortBy (fun a b => decide (b.view.pri < a.view.pri)) (s.saveItems.filter fun x => x.view.be)

/-- The data length of an entry's record. -/
def SaveItem.x (x : SaveItem) : Nat := if x.view.ts then x.e.size else x.view.len
def SaveItem.flags (x : SaveItem) : Nat := sliceNat x.e.bytes 17 1

/-- A manifest entry (R365). -/
def manifestBytes (ctx : Nat) (x : SaveItem) : List Byte :=
  natBytes ctx 2 ++ natBytes x.idx 1 ++ natBytes x.flags 1 ++ List.replicate 4 0 ++ natBytes (fld x.view.ptr 0 56) 8 ++
    natBytes x.view.len 4 ++ natBytes x.view.team 4 ++ List.replicate 8 0

/-- The 64 bytes of the vault header. -/
def vaultHeader (epoch state count : Nat) : List Byte :=
  let h := natBytes epoch 8 ++ natBytes state 1 ++ [0, 0, 0] ++ natBytes count 4 ++ List.replicate 16 0
  h ++ sha256 h

/-! ## Records (R365) -/

def recHeader (seq ctx : Nat) (x : SaveItem) (epoch : Nat) : List Byte :=
  let h := natBytes seq 4 ++ natBytes ctx 2 ++ natBytes x.idx 1 ++ natBytes x.flags 1 ++ natBytes epoch 8 ++
    natBytes (if x.view.ts then 0 else fld x.view.ptr 0 56) 8 ++ natBytes x.x 8
  h ++ sha256 h
/-- A chunk with its tail. -/
def chunkBytes (seq j epoch : Nat) (data : List Byte) : List Byte :=
  let d := data ++ List.replicate (4096 - data.length) 0
  let t := natBytes j 4 ++ natBytes seq 4 ++ natBytes epoch 8 ++ natBytes data.length 4 ++ List.replicate 12 0
  d ++ t ++ sha256 (d ++ t)
def trailerBytes (seq n epoch x : Nat) (digests : List Byte) : List Byte :=
  let t := natBytes seq 4 ++ natBytes n 4 ++ natBytes epoch 8 ++ natBytes x 8 ++ List.replicate 8 0
  t ++ sha256 (digests ++ t)

/-- The physical ranges of bytes of a region, page by page; none where a page has no leaf. -/
def State.regionParts (s : State) (ctx va n : Nat) : List (Option (Nat × Nat)) :=
  if n = 0 then []
  else (List.range ((va + n - 1) / 65536 + 1 - va / 65536)).map fun i =>
    let lo := Nat.max va ((va / 65536 + i) * 65536)
    let hi := Nat.min (va + n) ((va / 65536 + i + 1) * 65536)
    (s.physOf ctx lo).map fun pa => (pa, hi - lo)

/-- The bytes of a chunk of a region, in dense form; none when a granule of it is lost (R363). -/
def State.chunkOf (s : State) (ctx va n : Nat) : Option (List Byte) :=
  let parts := s.regionParts ctx va n
  if parts.any fun p => match p with | some (pa, k) => (s.lostIn pa k).isSome | none => false then none
  else some (parts.map fun p => match p with
    | some (pa, k) => if inCtl pa then List.replicate k 0 else s.readBytes pa k
    | none => []).flatten

/-- The page of an object that home meets at the save: a leased one of 64 KiB (log 74). -/
def plainXlat (pa : Nat) : Xlat :=
  { ctx := 0, va := pa / 65536 * 65536, size := 65536, leaf := BitVec.ofNat 64 (2 ^ 63 + 2 ^ 62 + 2 ^ 58 + pa / 65536 * 65536) }
/-- A recall round of one object (R294, R300): every allowance of it returns to home, and rounds counts one more. -/
def State.recallObject (s : State) (obj : Nat) : State :=
  let amount := sumList (s.cores.map fun k => sumList ((k.allow.filter fun a => a.obj == obj).map fun a => a.amount))
  let s1 : State := { s with cores := s.cores.map fun k => { k with allow := k.allow.filter fun a => a.obj != obj } }
  let s2 := if (s1.alObj? obj).isSome then s1 else s1.alOpen obj (plainXlat obj)
  (s2.updAl obj fun o => { o with rounds := o.rounds + 1 }).alStore obj (s1.read8 obj + amount)
/-- The physical addresses of blocks of 64 bytes whose valid bit and parameters make an allowance object, and that no error has
destroyed. -/
def State.validObjects (s : State) : List Nat :=
  (s.mem.filterMap fun e => if e.1 % 64 = 17 then some (e.1 - 17) else none).filter fun pa => (s.alParams pa).ok && !s.alLost pa
/-- The physical ranges of a region in pages that can hold allowance objects: leased and near ones (R285). -/
def State.objectParts (s : State) (ctx va n : Nat) : List (Nat × Nat) :=
  if n = 0 then []
  else (List.range ((va + n - 1) / 65536 + 1 - va / 65536)).filterMap fun i =>
    let lo := Nat.max va ((va / 65536 + i) * 65536)
    let hi := Nat.min (va + n) ((va / 65536 + i + 1) * 65536)
    match s.walk ctx lo with
    | .leaf x => if 2 ≤ (s.clsOf (leafOf x)).toNat then some ((leafOf x).phys lo, hi - lo) else none
    | .bad _ => none
/-- The recall rounds of a region: of every allowance object whose block lies wholly in it. -/
def State.recallRegion (s : State) (ctx va n : Nat) : State :=
  let parts := s.objectParts ctx va n
  s.validObjects.foldl (fun s obj =>
    if parts.any fun p => decide (p.1 ≤ obj) && decide (obj + 64 ≤ p.1 + p.2) then s.recallObject obj else s) s

/-- A team by context and virtual identifier, on its core or in an image, as a restore needs it. -/
def SavedTeam.of (k : Core) (t : Team) (ops : List MatOp) (offset : Nat) : SavedTeam :=
  { offset := offset, team := t, ops := ops.filter fun o => o.of t
    bars := k.bars.filter fun e => e.valid && e.ctx == t.ctx && e.vtid == t.vtid
    tiles := t.tiles.map fun i => k.tiles.getD i Tile.reset }
def State.findSaved (s : State) (ctx vtid offset : Nat) : Option SavedTeam :=
  let me (t : Team) : Bool := t.ctx == ctx && t.vtid == vtid && !t.leaving
  match s.cores.findSome? fun k => (k.teams.find? me).map fun t => SavedTeam.of k t k.ops offset with
  | some x => some x
  | none => s.images.findSome? fun i => (i.teams.find? me).map fun t => SavedTeam.of (s.core i.core) t i.ops offset

/-- The reason an entry is skipped with: a page that cannot be read, a team that is stale or gone (R362). -/
def State.skipReason (s : State) (x : SaveItem) : Option Nat :=
  let ctx := (s.ctxAt x.desc).id
  if x.view.ts then
    match s.findSaved ctx x.e.vtid 0 with
    | some v => if v.team.stale then some 3 else none
    | none => some 3
  else if s.regionPages ctx true (fld x.view.ptr 0 56) x.view.len then none else some 2

/-! ## The save sequence (R361) -/

/-- A save in progress: the next offset and sequence number, the boundaries that best effort still meets above the floor,
whether it has stopped there, and the reason, length and offset noted for each entry so far. -/
structure Save where
  s : State
  epoch : Nat
  pos : Nat
  seq : Nat
  left : Option Nat
  stopped : Bool
  notes : List (Nat × Nat × Nat)
  deriving DecidableEq, Repr

def State.vaultWrite (s : State) (o : Nat) (d : List Byte) : State :=
  { s with reserve := { s.reserve with vault := amSetList 0 s.reserve.vault o d } }
/-- The vault's bytes (R365). -/
def vaultSize : Nat := 0x80000000
/-- Bytes at the present offset, as far as the vault reaches; past its end nothing more is written (log 96). -/
def Save.put (v : Save) (d : List Byte) (fails : Bool) : Save :=
  { v with s := if fails then v.s else v.s.vaultWrite v.pos (d.take (vaultSize - v.pos)), pos := v.pos + d.length }
def Save.note (v : Save) (reason x offset : Nat) : Save := { v with notes := v.notes ++ [(reason, x, offset)] }

/-- A boundary of best effort: none once the energy has come to the floor. -/
def Save.boundary (v : Save) : Option Save :=
  match v.left with
  | none => some v
  | some 0 => none
  | some (n + 1) => some { v with left := some n }

/-- A team whose image in memory has lost a granule: its record ends before the chunks that would hold it (R363, log 99). -/
def State.savedTorn (s : State) (ctx vtid : Nat) : Bool :=
  s.images.any fun i => (i.teams.any fun t => t.isNamed ctx vtid) &&
    s.imageLost (imageSlot (s.ctxAt i.desc).imgbase i.core i.bank) (imageBytes (s.core i.core).twoCtx)
/-- The data of chunk j; a team's record is written in the device's internal layout (log 11). -/
def Save.data (v : Save) (ctx : Nat) (x : SaveItem) (j : Nat) : Option (List Byte) :=
  let n := Nat.min 4096 (x.x - 4096 * j)
  if x.view.ts then (if v.s.savedTorn ctx x.e.vtid then none else some (List.replicate n 0)) else v.s.chunkOf ctx (fld x.view.ptr 0 56 + 4096 * j) n

/-- The chunks of a record from j on, then its trailer. -/
def saveChunks (ctx : Nat) (x : SaveItem) (bad : List (Nat × Nat)) (offset : Nat) : Nat → Nat → List Byte → Bool → Save → Save
  | 0, j, digests, failed, v =>
    let f := bad.contains (v.seq, j)
    ((v.put (trailerBytes v.seq j v.epoch x.x digests) f).note (if failed || f then 4 else 0) x.x offset)
  | n + 1, j, digests, failed, v =>
    match v.boundary with
    | none => { (v.note 1 x.x offset) with stopped := true }
    | some v1 =>
      match v1.data ctx x j with
      | none => v1.note (if failed then 4 else 5) x.x offset
      | some d =>
        let c := chunkBytes v1.seq j v1.epoch d
        let f := bad.contains (v1.seq, j)
        saveChunks ctx x bad offset n (j + 1) (digests ++ c.drop 4128) (failed || f) (v1.put c f)

/-- One entry. -/
def Save.item (v : Save) (bad : List (Nat × Nat)) (x : SaveItem) : Save :=
  let ctx := (v.s.ctxAt x.desc).id
  if v.stopped then v.note 1 x.x 0
  else
    match v.s.skipReason x with
    | some r => v.note r x.x 0
    | none =>
      match v.boundary with
      | none => { (v.note 1 x.x 0) with stopped := true }
      | some v1 =>
        let s1 := if x.view.rc then v1.s.recallRegion ctx (fld x.view.ptr 0 56) x.view.len else v1.s
        let offset := v1.pos
        let s2 := if x.view.ts then { s1 with reserve := { s1.reserve with
            saved := s1.reserve.saved ++ (s1.findSaved ctx x.e.vtid offset).toList } } else s1
        let v2 := ({ v1 with s := s2 } : Save).put (recHeader v1.seq ctx x v1.epoch) false
        let v3 := saveChunks ctx x bad offset (ceilDiv x.x 4096) 0 [] false v2
        { v3 with seq := v3.seq + 1 }

/-- The Fixer's steps 3 to 7: beChunks boundaries of best effort find the energy above the floor, and the vault writes in bad,
named by sequence number and chunk (the trailer after the last), fail. While the vault is unreleased it is left as it is
(R370). -/
def execSaveSequence (beChunks : Nat) (bad : List (Nat × Nat)) (s : State) : Res :=
  if !s.halted then .next s
  else if !s.reserve.released then .next { s with power := .down }
  else
    let epoch := (sliceNat (amGetList 0 s.reserve.vault 0 8) 0 8 + 1) % 2 ^ 64
    let all := s.charged ++ s.bestEffort
    let man := (all.map fun x => manifestBytes (s.ctxAt x.desc).id x).flatten
    let s1 := { s with reserve := { s.reserve with saved := [] } }
    let s2 := (s1.vaultWrite 0 (vaultHeader epoch 0 all.length ++ List.replicate 4032 0)).vaultWrite 0x1000 man
    let v0 : Save := { s := s2, epoch := epoch, pos := alignUp (0x1000 + 32 * all.length) 4096, seq := 1, left := none
                       stopped := false, notes := [] }
    let v1 := s.charged.foldl (fun v x => v.item bad x) v0
    let v2 := s.bestEffort.foldl (fun v x => v.item bad x) { v1 with left := some beChunks }
    let s3 := v2.s.vaultWrite 0 (vaultHeader epoch 1 all.length)
    .next { s3 with power := .down, reserve := { s3.reserve with reasons := v2.notes } }

/-! ## Restart (R366 to R368, R370) -/

def Reserve.bytes (v : Reserve) (o n : Nat) : List Byte := amGetList 0 v.vault o n
def digestOk (b : List Byte) : Bool := decide (sha256 (b.take (b.length - 32)) = b.drop (b.length - 32))

/-- A valid record header at an offset, for a manifest entry of an epoch: its sequence number and data length. -/
def Reserve.headerAt (v : Reserve) (off epoch : Nat) (man : List Byte) : Option (Nat × Nat) :=
  let h := v.bytes off 64
  if off ≠ 0 && digestOk h && sliceNat h 8 8 == epoch && slice h 4 2 == slice man 0 2 && slice h 6 1 == slice man 2 1
  then some (sliceNat h 0 4, sliceNat h 24 8) else none

def Reserve.chunkOk (v : Reserve) (off seq epoch j : Nat) : Bool :=
  let b := v.bytes (off + 64 + 4160 * j) 4160
  digestOk b && sliceNat b 4096 4 == j && sliceNat b 4100 4 == seq && sliceNat b 4104 8 == epoch
def Reserve.trailerOk (v : Reserve) (off seq epoch n x : Nat) : Bool :=
  let t := v.bytes (off + 64 + 4160 * n) 64
  let digests := ((List.range n).map fun j => v.bytes (off + 64 + 4160 * j + 4128) 32).flatten
  decide (sha256 (digests ++ t.take 32) = t.drop 32) && sliceNat t 0 4 == seq && sliceNat t 4 4 == n &&
    sliceNat t 8 8 == epoch && sliceNat t 16 8 == x

/-- The class, valid prefix and place of a manifest entry. -/
def Reserve.classify (v : Reserve) (epoch : Nat) (man : List Byte) (note : Nat × Nat × Nat) : ReportEntry :=
  match v.headerAt note.2.2 epoch man with
  | none => { manifest := man, x := note.2.1, cls := 2, reason := note.1, chunks := 0, offset := 0 }
  | some (seq, x) =>
    let n := ceilDiv x 4096
    let good := ((List.range n).takeWhile fun j => v.chunkOk note.2.2 seq epoch j).length
    let whole := good == n && v.trailerOk note.2.2 seq epoch n x
    { manifest := man, x := x, cls := if whole then 0 else 1, reason := if whole then 0 else note.1, chunks := good
      offset := note.2.2 }

/-- The report that monitor firmware writes, if the vault holds an epoch. -/
def Reserve.restart (v : Reserve) : Option Report :=
  let h := v.bytes 0 64
  let epoch := sliceNat h 0 8
  if digestOk h && epoch != 0 then
    some { epoch := BitVec.ofNat 64 epoch, refused := false, haltIdx := 0, count := 0
           entries := (List.range (sliceNat h 12 4)).map fun k =>
             v.classify epoch (v.bytes (0x1000 + 32 * k) 32) (v.reasons.getD k (0, 0, 0)) }
  else none

/-- Staged images take effect at the boot (R376); the newest for a stage counts. -/
def Mgmt.boot (m : Mgmt) : Mgmt :=
  { Mgmt.reset with
    fuses := m.fuses
    installed := (m.installed.filter fun i => !m.staged.any fun j => j.stage == i.stage) ++ m.staged }

/-- Power returns: the package is reset, and what does not need power stays. The sequence of free values and the events still to
come go on. -/
def execPowerOn (s : State) : Res :=
  if s.power = .down then
    let report := s.reserve.restart
    .next { State.reset with
      free := s.free, agenda := s.agenda, mgmt := s.mgmt.boot
      reserve := { s.reserve with charged := false, released := report.isNone, report := report } }
  else .next s

end Sys2Proof.Machine
end

