-- ==== Sys2Proof/Machine/Fabric.lean ====
section
/-! DEFINITION. The fabric's events: requests that arrive, responses, time-outs, stations (R381 to R389). -/

namespace Sys2Proof.Machine

/-! ## Reduction windows (R388, R389) -/

/-- The reduction window of a context that holds an address. -/
def State.redAt (s : State) (ctx va : Nat) : Option RedWindow :=
  s.fabric.reductions.find? fun r => r.en && r.ctx == ctx && decide (r.vbase ≤ va) && decide (va < r.vbase + r.len)

/-- Bytes of an element of a window. -/
def RedWindow.width (r : RedWindow) : Nat := if r.ty = 1 ∨ r.ty = 2 then 2 else 4

def redFloat (f : FFmt) (op : BitVec 2) (rm : Rm) (x y : Nat) : Nat :=
  let a := f.read x
  let b := f.read y
  if op = 0 then f.write rm (a.add rm b)
  else if op = 1 then (if pick a b (b.below a) then y else x)
  else if pick a b (a.below b) then y else x

/-- An element after the update: op(mem, data). -/
def RedWindow.apply (r : RedWindow) (x y : Nat) : Nat :=
  if r.ty = 3 then
    let a : Word := BitVec.ofNat 32 x
    let b : Word := BitVec.ofNat 32 y
    (if r.op = 0 then a + b else if r.op = 1 then (if a.toInt ≤ b.toInt then a else b) else if a.toInt ≤ b.toInt then b else a).toNat
  else redFloat (if r.ty = 0 then f32 else if r.ty = 1 then bf16 else f16) r.op r.rm x y

/-! ## Incoming requests (R385) -/

/-- What becomes of a request: performed with its answer, refused, or it waits at home. -/
inductive FabRes where
  | done (data : List Byte) (s : State)
  | refused
  | wait (s : State)
  deriving DecidableEq, Repr

def State.stationClock (s : State) (st : Nat) : Nat := s.stationClocks.getD st 0
def State.setStationClock (s : State) (st k : Nat) : State :=
  { s with stationClocks := updAt s.stationClocks st (Nat.max k) }

/-- The leaves and physical ranges of a range at the carried privilege; none where a check fails (R131, R135, R321). -/
def State.fabParts (s : State) (q : FabIn) (write reads : Bool) : List (Nat × Nat) → Option (List (Leaf × Nat × Nat))
  | [] => some []
  | (va, n) :: r =>
    match s.checkNow q.ctx q.sup va write with
    | .ok l =>
      let pa := l.phys va
      if s.gtag pa ≠ q.tag ∨ (reads ∧ (s.lostIn pa n).isSome) then none
      else (s.fabParts q write reads r).map fun t => (l, pa, n) :: t
    | _ => none

/-- What a write of the parts has to wait for at home. -/
def State.fabAwait (s : State) : List (Leaf × Nat × Nat) → Option State
  | [] => none
  | (l, pa, n) :: r =>
    match s.awaitRound l pa n .device with
    | some w => some w
    | none => s.fabAwait r
def State.fabEndRounds (s : State) (l : List (Leaf × Nat × Nat)) : State :=
  l.foldl (fun s x => s.endRounds .device x.2.1 x.2.2) s

/-- Reads of the parts: bytes and clock. -/
def fabReadParts : List (Leaf × Nat × Nat) → State → Nat → List Byte × Nat × State
  | [], s, k => ([], k, s)
  | (l, pa, n) :: r, s, k =>
    let (t, s1) := (s.claim l none).readUnits l k (unitsOf l.grain pa n)
    let d := if inCtl pa then (if n = 8 then natBytes (ctlRead s1 (pa - Config.ctlBase)) 8 else List.replicate n 0)
      else s1.readBytes pa n
    let (d2, k2, s2) := fabReadParts r s1 (Nat.max k t)
    (d ++ d2, k2, s2)

/-- The bytes of a part with the masked ones replaced. -/
def maskBytes (old data : List Byte) (mask : List Bool) : List Byte :=
  mapIdxFrom (fun i b => if mask.getD i false then data.getD i 0 else b) 0 old
/-- Bytes o to o + n − 1 of a mask, each of them, or some of them. -/
def maskAll (m : List Bool) (o n : Nat) : Bool := ((m.drop o).take n).length == n && ((m.drop o).take n).all fun b => b
def maskAny (m : List Bool) (o n : Nat) : Bool := ((m.drop o).take n).any fun b => b

/-- One write event over the masked bytes of a range (R264, R385): the units that hold some take its time; a granule that the mask
leaves bytes of stays lost (R321). -/
def State.storeMasked (s : State) (l : Leaf) (pa : Nat) (d : List Byte) (m : List Bool) (clock : Nat) : Nat × State :=
  let n := d.length
  let us := (unitsOf l.grain pa n).filter fun u => maskAny m (u - pa) (Nat.min (pa + n) (u + l.grain) - Nat.max pa u)
  let (t, s1) := (s.claim l none).writeUnits l clock us
  let s2 := (s1.writeBytes pa (maskBytes (s.readBytes pa n) d m)).raiseAl s pa n
  (t, { s2 with lost := s.lost.filter fun g => !((granulesIn pa n).contains g && maskAll m (g * 32 - pa) 32) })

/-- A masked write of the parts. -/
def fabWriteParts : List (Leaf × Nat × Nat) → List Byte → List Bool → State → Nat → Nat × State
  | [], _, _, s, k => (k, s)
  | (l, pa, n) :: r, d, m, s, k =>
    let (t, s1) :=
      if !(m.take n).any (fun b => b) then (k, s)
      else if inCtl pa then
        (k, if n = 8 && maskAll m 0 8 then ctlWrite s false (pa - Config.ctlBase) (BitVec.ofNat 64 (bytesNat (d.take 8))) else s)
      else s.storeMasked l pa (d.take n) (m.take n) k
    fabWriteParts r (d.drop n) (m.drop n) s1 (Nat.max k t)

/-- The elements that a masked write touches in reduction windows: address, window, whether it covers the element wholly. -/
def State.fabElems (s : State) (q : FabIn) (mask : List Bool) : List (Nat × RedWindow × Bool) :=
  let hit := mapIdxFrom (fun i b => if b then (s.redAt q.ctx (q.va + i)).map fun r => ((q.va + i) / r.width * r.width, r) else none) 0 mask
  (hit.filterMap fun x => x).eraseDups.map fun x =>
    (x.1, x.2, (List.range x.2.width).all fun j => decide (q.va ≤ x.1 + j) && mask.getD (x.1 + j - q.va) false)

/-- Element updates, in address order, each one event. -/
def fabMerge (q : FabIn) (data : List Byte) : List (Nat × RedWindow × Bool) → State → Nat → Nat × State
  | [], s, k => (k, s)
  | (a, w, _) :: r, s, k =>
    match s.checkNow q.ctx q.sup a true with
    | .ok l =>
      let pa := l.phys a
      let old := bytesNat (s.readBytes pa w.width)
      let (t, s1) := (s.claim l none).storeHome l pa (natBytes (w.apply old (sliceNat data (a - q.va) w.width)) w.width) k none
      fabMerge q data r s1 (Nat.max k t)
    | _ => fabMerge q data r s k

/-- A read and write of a word at home: the old value. -/
def State.fabRmw (s : State) (q : FabIn) (w : Nat) (f : Nat → Option Nat) : FabRes :=
  if q.va % w ≠ 0 then .refused
  else
    match s.fabParts q true true [(q.va, w)] with
    | some [(l, pa, n)] =>
      match s.awaitRound l pa n .device with
      | some x => .wait x
      | none =>
        if inCtl pa then .done (List.replicate w 0) s
        else
          let old := bytesNat (s.readBytes pa w)
          let (t, s1) := (s.claim l none).storeHome l pa (natBytes ((f old).getD old) w) (s.stationClock q.station) none
          .done (natBytes old w) ((s1.setStationClock q.station t).endRounds .device pa n)
    | _ => .refused

/-- An accepted request is performed as its kind says. -/
def State.fabPerform (s : State) (q : FabIn) : FabRes :=
  let k := s.stationClock q.station
  match q.op with
  | .read n =>
    if n < 8 ∨ 256 < n then .refused
    else
      match s.fabParts q false true (pieces q.va n) with
      | none => .refused
      | some parts =>
        if parts.any fun p => s.readHeld none p.2.1 p.2.2 then .wait s
        else
          let (d, t, s1) := fabReadParts parts s k
          .done d (s1.setStationClock q.station t)
  | .write data mask =>
    let n := mask.length
    if n < 8 ∨ 256 < n then .refused
    else
      match s.fabParts q true false (pieces q.va n) with
      | none => .refused
      | some parts =>
        let elems := s.fabElems q mask
        let lost := elems.any fun e => match s.checkNow q.ctx q.sup e.1 true with
          | .ok l => (s.lostIn (l.phys e.1) e.2.1.width).isSome
          | _ => true
        if (elems.any fun e => !e.2.2) || lost then .refused
        else
          match s.fabAwait parts with
          | some w => .wait w
          | none =>
            let plain := mapIdxFrom (fun i b => b && (s.redAt q.ctx (q.va + i)).isNone) 0 mask
            let (t, s1) := fabWriteParts parts data plain s k
            let (t2, s2) := fabMerge q data elems s1 (Nat.max k t)
            .done [] ((s2.setStationClock q.station (Nat.max t t2)).fabEndRounds parts)
  | .atom op ty v swp => s.fabRmw q (ty.width / 8) fun o => atomNew op ty (BitVec.ofNat 64 o) v swp
  | .cadd amount thr =>
    match s.fabRmw q 8 fun o => some (satAdd o amount) with
    | .done d s1 =>
      let new := satAdd (bytesNat d) amount
      let push := match thr with | some x => decide (x ≤ new) | none => false
      .done [] (if push then (match s.physOf q.ctx q.va with | some pa => s1.pushWord pa | none => s1) else s1)
    | r => r
  | .other => .refused

/-- A station's response. -/
def State.fabAnswer (s : State) (st : Nat) (error : Bool) (data : List Byte) : State :=
  s.updFabric fun f => { f with
    out := f.out ++ [{ station := st, error := error, data := data }]
    errorsSent := if error then (f.errorsSent + 1) % 2 ^ 64 else f.errorsSent }

/-- The import entry of a context lets a request in. -/
def State.fabOpen (s : State) (q : FabIn) : Bool :=
  match s.ctxById q.ctx with
  | some i =>
    let e := s.fabric.imports.getD i (false, false)
    e.1 && (e.2 || !q.sup)
  | none => false

/-- A request is performed or refused while the device works. After a power-fail, one that has arrived before may still be performed until
the halt completes, and one that arrives is neither answered nor performed (R359, R385). -/
def execFabricRequestReceive (q : FabIn) (s : State) : Res :=
  .next <|
    if !s.serves then s
    else if !s.fabric.up.getLsbD q.station then s
    else
      let behind := (s.fabric.inbox.takeWhile fun x => decide (x ≠ q)).any fun x => x.station == q.station
      let keep (s : State) : State :=
        if s.fabric.inbox.contains q then s else s.updFabric fun f => { f with inbox := f.inbox ++ [q] }
      if !s.works && !s.fabric.inbox.contains q then s
      else if behind then keep s
      else
        let gone (s : State) : State := s.updFabric fun f => { f with inbox := f.inbox.erase q }
        match if s.fabOpen q then s.fabPerform q else .refused with
        | .wait w => keep w
        | .refused => (gone s).fabAnswer q.station true []
        | .done d s1 => (gone s1).fabAnswer q.station false d

/-! ## Responses and time-outs (R386) -/

/-- The end of a thread's tagged load or atomic: its result, or the cause that the tag's completion raises. -/
def Thread.fabTagged (th : Thread) (tag : Nat) (ws : List RWrite) (bad : Option (Nat × Nat)) : Thread :=
  { th with tags := updAt th.tags tag fun t => t.map fun x => { x with held := ws.filter RWrite.kept, bad := bad } }

def FabReq.dataLen (r : FabReq) : Nat :=
  match r.op with
  | .read n => n
  | .atom _ ty _ _ => ty.width / 8
  | _ => 0
/-- The register writes of an answered load. -/
def FabReq.results (r : FabReq) (sh : LoadShape) (d : List Byte) : List RWrite :=
  match r.op with
  | .read _ => sh.writes (fabSlice { scratch := false, addr := fld r.lva 0 56, tag := 0, ro := false, xn := false } sh.bytes d)
  | _ => sh.writes (d.take sh.bytes)

/-- A request of a copy operation ends. -/
def State.fabEngine (s : State) (r : FabReq) (c ec id : Nat) (res : Except Nat (List Byte)) : State :=
  match (s.engineAt c ec).queue.findIdx? fun o => o.id == id && o.fab == some r.id with
  | none => s
  | some i =>
    match s.opAt c ec i with
    | none => s
    | some o =>
      let o1 := { o with fab := none, adding := none }
      let s1 := s.setOp c ec o1
      match res with
      | .ok d =>
        match r.op with
        | .read _ => s1.setOp c ec { o1 with fetched := o1.fetched ++ [(r.lva, d)] }
        | .write _ _ => s1.setOp c ec { o1 with acked := o1.acked ++ [r.lva] }
        | _ =>
          if o.settled || (o.cancelled && o.ended) then s1.retireOp c ec o1
          else s1.setOp c ec { o1 with counted := o1.counted + o.adding.getD 0 }
      | .error k =>
        match o.adding with
        | none => s1.engineStop c ec i o1 k r.lva o1.settled
        | some _ =>
          if o.ended && o.cancelled then (s1.engineRecord c ec o1 k r.lva).retireOp c ec o1
          else if o.settled then (s1.engineStop c ec i o1 k r.lva true).updEngine c ec fun e => { e with retireStop := true }
          else s1.engineStop c ec i o1 k r.lva true

/-- A request ends with an answer or a cause. -/
def State.fabEnd (s0 : State) (r : FabReq) (res : Except Nat (List Byte)) : State :=
  let s := s0.updFabric fun f => { f with reqs := f.reqs.filter fun x => x.id != r.id }
  match r.who with
  | .load t =>
    match res with
    | .ok d => s.updRef t fun th => { th with fabDone := th.fabDone ++ [(r.id, d)] }
    | .error k => (s.updRef t fun th => { th with awaits := [] }).raiseTrap t { cause := k, addr := r.lva } none
  | .tagged t tag sh =>
    match res with
    | .ok d => s.updRef t fun th => th.fabTagged tag (r.results sh d) none
    | .error k => s.updRef t fun th => th.fabTagged tag [] (some (k, r.lva))
  | .write t =>
    s.updRef t fun th => if !th.fabWrites.contains r.id then th else { th with
      fabWrites := th.fabWrites.erase r.id
      fabBad := match res with | .ok _ => th.fabBad | .error k => some (th.fabBad.getD (k, r.lva)) }
  | .wait t =>
    match s.thread? t with
    | some th =>
      match th.park with
      | some (.cwait w) =>
        if w.taggedAddr ≠ r.lva then s
        else match res with
        | .ok d => s.updRef t fun th => th.judge w (bytesNat d) w.next 0
        | .error k => s.raiseTrap t { cause := k, addr := w.taggedAddr } none
      | _ => s
    | none => s
  | .engine c ec id => s.fabEngine r c ec id res

/-- A request has been without a response for 100 µs. -/
def FabReq.late (r : FabReq) (now : Nat) : Bool := decide (r.sent + 110000 ≤ now)
/-- A response arrives: the bytes it brings, or an error; one that comes too late is no response (R386). -/
def execFabricResponse (id : Nat) (ok : Bool) (data : List Byte) (s : State) : Res :=
  s.ifWorks fun s =>
    match s.fabric.reqs.find? fun r => r.id == id with
    | some r => s.fabEnd r (if r.late s.cycle then .error 0x89 else if ok then .ok (slice data 0 r.dataLen) else .error 0x88)
    | none => s

def execFabricTimeout (id : Nat) (s : State) : Res :=
  s.ifWorks fun s =>
    match s.fabric.reqs.find? fun r => r.id == id && r.late s.cycle with
    | some r => (s.updFabric fun f => { f with timedOut := (f.timedOut + 1) % 2 ^ 64 }).fabEnd r (.error 0x89)
    | none => s

/-! ## Stations (R382, R384) -/

/-- A request moves to the station that replaces its own. -/
def State.moveStation (s : State) (r : FabReq) : FabReq :=
  match s.fabric.windows.flatten.find? fun w => w.en && w.peer == r.peer && w.pctx == r.pctx && decide (w.pbase ≤ r.va) &&
      (w.base + (r.va - w.pbase)) / 8 == fld r.lva 0 56 / 8 with
  | some w => { r with station := pickStation s.fabric w (fld r.lva 0 56) }
  | none => r

def execStationDown (st : Nat) (s : State) : Res :=
  s.ifWorks fun s =>
    let s1 := s.updFabric fun f => { f with
      trained := f.trained &&& ~~~(BitVec.twoPow 32 st), inbox := f.inbox.filter fun q => q.station != st }
    s1.updFabric fun f => { f with reqs := f.reqs.map fun r => if r.station = st then s1.moveStation r else r }

/-- Training ends on an enabled station. -/
def execStationUp (st : Nat) (s : State) : Res :=
  s.ifWorks fun s =>
    if s.fabric.enable.getLsbD st then s.updFabric fun f => { f with trained := f.trained ||| BitVec.twoPow 32 st } else s

end Sys2Proof.Machine
end

