-- ==== Sys2Proof/Machine/HostLink.lean ====
section
/-! DEFINITION. The host's CXL.mem requests (R281, R371, R372). -/

namespace Sys2Proof.Machine

/-- Memory that the HDM decoder covers: the two ranges of R325, and the gap between them. -/
def hostRange (h : Nat) : Bool := decide (h + 64 ≤ Config.tierEnd)

def State.hostAnswer (s : State) (m : HostMsg) : State := { s with hostOut := s.hostOut ++ [m] }
def allOnes : BitVec 512 := BitVec.ofNat 512 (2 ^ 512 - 1)

/-- A request that home holds, or that waited and is done. -/
def State.hostHold (s : State) (r : Nat × Option (BitVec 512)) : State :=
  if s.hostIn.contains r then s else { s with hostIn := s.hostIn ++ [r] }
def State.hostDone (s : State) (r : Nat × Option (BitVec 512)) : State := { s with hostIn := s.hostIn.erase r }

/-- A read of 64 bytes, one event over the units it meets (R264); the host holds the line from then on. -/
def execHostMemRead (h0 : Nat) (s : State) : Res :=
  .next <|
    let h := h0 / 64 * 64
    if !s.serves || !hostRange h then s
    else if !physOk h 64 then s.hostAnswer (.line h allOnes false)
    else if s.readHeld none h 64 then s.hostHold (h, none)
    else
      let l := s.leafAt h
      let (t, s1) := ((s.claim l none).hostDone (h, none)).readUnits l s.hostClock (unitsOf l.grain h 64)
      { s1 with
        hostClock := t, hostLines := insertOnce s1.hostLines h
        hostOut := s1.hostOut ++ [.line h (BitVec.ofNat 512 (bytesNat (s1.readBytes h 64))) (s1.lostIn h 64).isSome] }

/-- A write of 64 bytes: performed at once, or after the invalidation of the copies that cores keep untracked (R261). -/
def execHostMemWrite (h0 : Nat) (data : BitVec 512) (s : State) : Res :=
  .next <|
    let h := h0 / 64 * 64
    if !s.serves || !hostRange h then s
    else if !physOk h 64 then s.hostAnswer (.written h)
    else if s.readHeld none h 64 then s.hostHold (h, some data)
    else
      let l := s.leafAt h
      let s1 := (s.claim l none).hostDone (h, some data)
      let us := (unitsOf l.grain h 64).filter fun u => !(holdersOf s1 u l.grain).isEmpty
      if us.isEmpty then s1.hostWriteNow h data
      else { s1 with rounds := s1.rounds ++ us.map fun u =>
        { base := u, size := l.grain, writer := .host h data, toDrop := holdersOf s1 u l.grain, toReport := holdersOf s1 u l.grain
          report := 0 } }

end Sys2Proof.Machine
end

