-- ==== Sys2Proof/Machine/Management.lean ====
section
/-! DEFINITION. The management controller: boot, measurement, attestation, telemetry, rack time and power tokens (R374 to R380). -/

namespace Sys2Proof.Machine

def State.updMgmt (s : State) (f : Mgmt → Mgmt) : State := { s with mgmt := f s.mgmt }

/-! ## Boot and measurement (R374 to R376) -/

/-- m ← SHA-256(m ‖ SHA-256(image)). -/
def Mgmt.extend (m : Mgmt) (i : Nat) (image : List Byte) : Mgmt :=
  { m with meas := updAt m.meas i fun r => sha256 (r ++ sha256 image) }

/-- The image that a stage boots from: a staged one of an earlier boot, else the one presented. -/
def Mgmt.image (m : Mgmt) (img : BootImage) : BootImage := (m.installed.find? fun i => i.stage == img.stage).getD img

/-- R374's three conditions, of a key and a signature of the parameter set's lengths. -/
def Mgmt.admits (m : Mgmt) (x : BootImage) : Bool :=
  x.key.length == 32 && x.sig.length == 7856 && Config.signatureVerifies x.key x.bytes x.sig &&
    (decide (sha256 x.key = Config.maskRomDigest) || m.keys.contains x.key) &&
    decide (m.fuses.getD (x.stage - 1) 0 ≤ x.version)

/-- The next stage is admitted, or the boot stops there. -/
def execBootStageAdmit (img : BootImage) (s : State) : Res :=
  s.ifOn fun s =>
    let m := s.mgmt
    let x := m.image img
    if m.refused || x.stage != m.stage + 1 || decide (3 < x.stage) then s
    else if m.admits x then
      s.updMgmt fun m => { m.extend (x.stage - 1) x.bytes with stage := x.stage, keys := m.keys ++ [x.key] }
    else s.updMgmt fun m => { m with refused := true }

/-- Monitor firmware extends m4 to m7 alone. -/
def execMeasurementExtend (m : Nat) (image : List Byte) (s : State) : Res :=
  s.ifOn fun s => if 4 ≤ m ∧ m ≤ 7 then s.updMgmt fun x => x.extend m image else s

/-- What a report signs: the nonce, the measurement registers, the fused versions, the Negative's epoch, in that order. -/
def State.attestBody (s : State) (nonce : List Byte) : List Byte :=
  slice nonce 0 32 ++ s.mgmt.meas.flatten ++ (s.mgmt.fuses.map fun v => natBytes v 4).flatten ++ s.reserve.bytes 0 8

def execAttestationRequest (nonce : List Byte) (s : State) : Res :=
  s.ifOn fun s =>
    let b := s.attestBody nonce
    s.hostAnswer (.report b (Config.identitySign b))

/-- The image waits for the next boot. -/
def execFirmwareStaging (img : BootImage) (s : State) : Res :=
  s.ifOn fun s => s.updMgmt fun m => { m with staged := (m.staged.filter fun i => i.stage != img.stage) ++ [img] }

/-! ## Telemetry (R377) -/

def Cluster.mean (x : Cluster) : Nat := if x.readings = 0 then x.reading else x.sum / x.readings

/-- The error counters of a die's cores, summed. -/
def State.dieErrors (s : State) (d : Nat) : List Nat :=
  (List.range 4).map fun i => sumList ((List.range Config.nCores).map fun c =>
    if s.dieOf c = d then (if i = 2 then s.spareCols c else (s.core c).errs.getD i 0) else 0)

/-- What a sample reports at an input power. -/
def State.telemetry (s : State) (power : Nat) : Telemetry :=
  { power := power, meters := s.clusters.map fun x => (x.id, x.mean), temps := s.sites.map fun x => x.temp
    errors := [s.dieErrors 0, s.dieErrors 1], pages := (s.retired.length, s.exhausted.length), energy := s.energy, cap := s.mgmt.cap
    fallback := s.mgmt.fallback, last := s.mgmt.last }

/-- A sample is taken and reported; the input power enters the record that the power controller averages (R254). -/
def execTelemetrySample (power : Nat) (s : State) : Res :=
  s.ifOn fun s =>
    let t := s.telemetry power
    (({ s with
      clusters := s.clusters.map fun x => { x with sum := 0, readings := 0 }
      powerLog := logEntry s.cycle 11000000 power s.powerLog } : State).updMgmt fun m => { m with sample := some t }).railKeep.fresh.hostAnswer
      (.telemetry t)

/-! ## Rack time and tokens (R378, R379) -/

def execRackTimeSet (t : Nat) (s : State) : Res := s.ifOn fun s => s.updMgmt fun m => { m with time := some (t % 2 ^ 64) }

def tokenOk (t : Token) : Bool :=
  decide (600 ≤ t.cap) && decide (t.cap ≤ 2400) && t.rsvd == 0 && decide (t.nb < t.na)

def Mgmt.applyToken (m : Mgmt) (t : Token) : Mgmt :=
  { m with
    cap := t.cap, last := t.seq, exp := t.na, fallback := false
    pending := match m.pending with
      | some p => if p.seq ≤ t.seq then none else some p
      | none => none }

/-- Receipt of a token at rack time now. -/
def Mgmt.receive (m : Mgmt) (t : Token) (now : Nat) : Mgmt :=
  if t.seq ≤ m.last ∨ t.na ≤ now then m
  else if now < t.nb then
    match m.pending with
    | none => { m with pending := some t }
    | some p => if p.seq < t.seq then { m with pending := some t } else m
  else m.applyToken t

/-- The fields of a token's 32 bytes (R378). -/
def powerToken (b : List Byte) : Token :=
  { seq := sliceNat b 0 8, cap := sliceNat b 8 2, rsvd := sliceNat b 10 6, nb := sliceNat b 16 8, na := sliceNat b 24 8 }

def execTokenReceipt (bytes : List Byte) (s : State) : Res :=
  s.ifOn fun s => match s.mgmt.time with
    | some now => if bytes.length = 32 ∧ tokenOk (powerToken bytes) then s.updMgmt fun m => m.receive (powerToken bytes) now else s
    | none => s

/-- The pending token when its window has begun. -/
def Mgmt.due (m : Mgmt) (now : Nat) : Mgmt :=
  match m.pending with
  | some p =>
    if p.nb ≤ now then (if now < p.na ∧ m.last < p.seq then { m with pending := none }.applyToken p else { m with pending := none })
    else m
  | none => m
def Mgmt.expire (m : Mgmt) (now : Nat) : Mgmt :=
  if !m.fallback && decide (m.exp ≤ now) then { m with cap := m.floor, fallback := true } else m

/-- A millisecond ends: its test is made after every token that it has received, and the next one begins (R379). -/
def execTokenTick (s : State) : Res :=
  s.ifOn fun s => match s.mgmt.time with
    | some t =>
      s.updMgmt fun m => { (m.due t).expire t with time := some ((t + 1) % 2 ^ 64) }
    | none => s

end Sys2Proof.Machine
end

