-- ==== Sys2Proof/Machine/Moves.lean ====
section
/-! DEFINITION. Moves, selection, predicates, special registers and LEA: the meanings of opcode row 0x00 (R19 to R21,
R101, R102, R143). -/

namespace Sys2Proof.Machine

def execNop (h : Hdr) (s : State) : Res := .next (runBundle h (pureSem {} fun _ => []) s)

/-- The 64-bit image of a 32-bit or 64-bit value under a type's signedness (R101). -/
def extTy (ty : IntTy) (v : DWord) : DWord :=
  if ty.wide then v else if ty.signed then (v.truncate 32).signExtend 64 else (v.truncate 32).zeroExtend 64

/-- A move's destination: a g register or pair, or a k register with the result extended (R101). -/
def moveDst (kd : Bool) (ty : IntTy) (d : BitVec 8) : List RName := if kd then [.k d.toNat] else dstTy ty d
def moveWrite (kd : Bool) (ty : IntTy) (d : BitVec 8) (v : DWord) : List RWrite :=
  if kd then [.k d.toNat (extTy ty v)] else writeTy ty d v

def execMov (h : Hdr) (kd : Bool) (ty : IntTy) (d : BitVec 8) (a : Src) (s : State) : Res :=
  .next (runBundle h (pureSem { reads := namesTy ty a, dests := moveDst kd ty d } fun e =>
    moveWrite kd ty d (e.srcTy ty a)) s)

def execMovi (h : Hdr) (kd : Bool) (ty : IntTy) (d : BitVec 8) (imm : BitVec 39) (s : State) : Res :=
  .next (runBundle h (pureSem { dests := moveDst kd ty d } fun _ => moveWrite kd ty d (imm.signExtend 64)) s)

/-- The value of special register idx as an instruction of a thread reads it at issue (R19, R20). -/
def Env.special (e : Env) (idx : BitVec 8) : DWord :=
  match idx.toNat with
  | 0x00 => BitVec.ofNat 64 e.l
  | 0x01 => BitVec.ofNat 64 e.gr.slot
  | 0x02 => BitVec.ofNat 64 e.g
  | 0x03 => BitVec.ofNat 64 (e.t.index % 2 ^ 32)
  | 0x04 => BitVec.ofNat 64 e.b.core
  | 0x05 => BitVec.ofNat 64 (e.s.siteOf e.b.core)
  | 0x06 => BitVec.ofNat 64 (e.t.cluster % 2 ^ 24 * 256 + e.t.cx * 16 + e.t.cy)
  | 0x07 => BitVec.ofNat 64 (b2n e.t.sup * 65536 + e.t.ctx)
  | 0x08 => BitVec.ofNat 64 e.s.cycle
  | 0x09 => BitVec.ofNat 64 (e.t.relocs % 2 ^ 32)
  | 0x0A => BitVec.ofNat 64 (e.s.passOf e.b.core)
  | 0x0B => e.th.fmt.zeroExtend 64
  | _ => 0

def execSrd (h : Hdr) (pair : Bool) (d : BitVec 8) (idx : BitVec 8) (s : State) : Res :=
  .next (runBundle h (pureSem { dests := if pair then pairNames d.toNat else [.g d.toNat] } fun e =>
    if pair then write64 d (e.special idx) else write32 d ((e.special idx).truncate 32)) s)

def execSwr (h : Hdr) (idx : BitVec 8) (a : Src) (s : State) : Res :=
  .next (runBundle h
    { uses := { reads := names32 a }
      early := fun _ => if idx.toNat = 0x0B then none else some { cause := 0x05 }
      act := fun e s => (s, { fmt := some (e.src32 a) }) } s)

/-- LEA's sum of a base and a displacement (R143). -/
def leaResult (base : DWord) (disp : Int) : DWord :=
  base.extractLsb' 56 8 ++ BitVec.ofInt 56 ((fld base.toNat 0 56 : Int) + disp)
def leaLeaves (base : DWord) (disp : Int) : Bool :=
  decide ((fld base.toNat 0 56 : Int) + disp < 0) || decide (2 ^ 56 ≤ (fld base.toNat 0 56 : Int) + disp)

def execLeaF0 (h : Hdr) (d : BitVec 8) (base : Src) (b : BitVec 8) (iw : BitVec 2) (signed : Bool) (sc : BitVec 3)
    (pq : Option (BitVec 3)) (s : State) : Res :=
  .next (runBundle h (pureSem
    { reads := names64 base ++ indexNames b iw, dests := pairNames d.toNat ++ secondDst pq } fun e =>
      let disp := e.disp (.scaled b iw signed sc) 0
      write64 d (leaResult (e.src64 base) disp) ++ writeSecond pq (leaLeaves (e.src64 base) disp)) s)

def execLeaF1 (h : Hdr) (d a : BitVec 8) (imm : BitVec 31) (s : State) : Res :=
  .next (runBundle h (pureSem { reads := pairNames a.toNat, dests := pairNames d.toNat } fun e =>
    write64 d (leaResult (e.th.pair a.toNat) imm.toInt)) s)

def execIsel (h : Hdr) (ty : IntTy) (d : BitVec 8) (a b : Src) (c : BitVec 3) (s : State) : Res :=
  .next (runBundle h (pureSem { reads := namesTy ty a ++ namesTy ty b ++ predDst c, dests := dstTy ty d } fun e =>
    writeTy ty d (if e.th.p c.toNat then e.srcTy ty a else e.srcTy ty b)) s)

def execPcomb (h : Hdr) (d a b c : BitVec 3) (fn : BitVec 8) (s : State) : Res :=
  .next (runBundle h (pureSem { reads := predDst a ++ predDst b ++ predDst c, dests := predDst d } fun e =>
    writeP d (fn.getLsbD (4 * b2n (e.th.p a.toNat) + 2 * b2n (e.th.p b.toNat) + b2n (e.th.p c.toNat)))) s)

/-- YIELD withdraws the thread until its own group's next slot has passed (R102). -/
def execYield (h : Hdr) (s : State) : Res :=
  .next (runBundle h { uses := {}, act := fun _ s => (s, { yielded := true }) } s)

end Sys2Proof.Machine
end

