-- ==== Sys2Proof/Machine/Dispatch.lean ====
section
/-! DEFINITION. The meaning of every instruction and event: one arm per constructor of Instr. -/

namespace Sys2Proof.Machine

def exec (i : Instr) (s : State) : Host.Outcome State Fault Refusal :=
  match i with
  | .nop h => Sys2Proof.Machine.execNop h s
  | .mov h kd ty d a => Sys2Proof.Machine.execMov h kd ty d a s
  | .movi h kd ty d imm => Sys2Proof.Machine.execMovi h kd ty d imm s
  | .srd h pair d idx => Sys2Proof.Machine.execSrd h pair d idx s
  | .swr h idx a => Sys2Proof.Machine.execSwr h idx a s
  | .leaF0 h d base b iw signed sc pq => Sys2Proof.Machine.execLeaF0 h d base b iw signed sc pq s
  | .leaF1 h d a imm => Sys2Proof.Machine.execLeaF1 h d a imm s
  | .isel h ty d a b c => Sys2Proof.Machine.execIsel h ty d a b c s
  | .pcomb h d a b c fn => Sys2Proof.Machine.execPcomb h d a b c fn s
  | .yield h => Sys2Proof.Machine.execYield h s
  | .iaddF0 h ty sat d a b pq => Sys2Proof.Machine.execIaddF0 h ty sat d a b pq s
  | .iaddF1 h ty sat d a imm => Sys2Proof.Machine.execIaddF1 h ty sat d a imm s
  | .isubF0 h ty sat d a b pq => Sys2Proof.Machine.execIsubF0 h ty sat d a b pq s
  | .isubF1 h ty sat d a imm => Sys2Proof.Machine.execIsubF1 h ty sat d a imm s
  | .imulF0 h ty sat d a b pq => Sys2Proof.Machine.execImulF0 h ty sat d a b pq s
  | .imulF1 h ty sat d a imm => Sys2Proof.Machine.execImulF1 h ty sat d a imm s
  | .imulhF0 h ty d a b => Sys2Proof.Machine.execImulhF0 h ty d a b s
  | .imulhF1 h ty d a imm => Sys2Proof.Machine.execImulhF1 h ty d a imm s
  | .imad h ty sat d a b c pq => Sys2Proof.Machine.execImad h ty sat d a b c pq s
  | .iminF0 h ty d a b => Sys2Proof.Machine.execIminF0 h ty d a b s
  | .iminF1 h ty d a imm => Sys2Proof.Machine.execIminF1 h ty d a imm s
  | .imaxF0 h ty d a b => Sys2Proof.Machine.execImaxF0 h ty d a b s
  | .imaxF1 h ty d a imm => Sys2Proof.Machine.execImaxF1 h ty d a imm s
  | .iabs h wide sat d a pq => Sys2Proof.Machine.execIabs h wide sat d a pq s
  | .isad h ty sat d a b c pq => Sys2Proof.Machine.execIsad h ty sat d a b c pq s
  | .icmpF0 h cond ty d a b pq => Sys2Proof.Machine.execIcmpF0 h cond ty d a b pq s
  | .icmpF1 h cond ty d a imm => Sys2Proof.Machine.execIcmpF1 h cond ty d a imm s
  | .andF0 h ty d a b => Sys2Proof.Machine.execAndF0 h ty d a b s
  | .andF1 h ty d a imm => Sys2Proof.Machine.execAndF1 h ty d a imm s
  | .orF0 h ty d a b => Sys2Proof.Machine.execOrF0 h ty d a b s
  | .orF1 h ty d a imm => Sys2Proof.Machine.execOrF1 h ty d a imm s
  | .xorF0 h ty d a b => Sys2Proof.Machine.execXorF0 h ty d a b s
  | .xorF1 h ty d a imm => Sys2Proof.Machine.execXorF1 h ty d a imm s
  | .andnF0 h ty d a b => Sys2Proof.Machine.execAndnF0 h ty d a b s
  | .andnF1 h ty d a imm => Sys2Proof.Machine.execAndnF1 h ty d a imm s
  | .not h ty d a => Sys2Proof.Machine.execNot h ty d a s
  | .shlF0 h ty d a b => Sys2Proof.Machine.execShlF0 h ty d a b s
  | .shlF1 h ty d a imm => Sys2Proof.Machine.execShlF1 h ty d a imm s
  | .shrF0 h ty d a b => Sys2Proof.Machine.execShrF0 h ty d a b s
  | .shrF1 h ty d a imm => Sys2Proof.Machine.execShrF1 h ty d a imm s
  | .sarF0 h ty d a b => Sys2Proof.Machine.execSarF0 h ty d a b s
  | .sarF1 h ty d a imm => Sys2Proof.Machine.execSarF1 h ty d a imm s
  | .rolF0 h ty d a b => Sys2Proof.Machine.execRolF0 h ty d a b s
  | .rolF1 h ty d a imm => Sys2Proof.Machine.execRolF1 h ty d a imm s
  | .fshlF0 h ty d a b c => Sys2Proof.Machine.execFshlF0 h ty d a b c s
  | .fshlF1 h ty d a amt => Sys2Proof.Machine.execFshlF1 h ty d a amt s
  | .clz h ty d a => Sys2Proof.Machine.execClz h ty d a s
  | .popc h ty d a => Sys2Proof.Machine.execPopc h ty d a s
  | .brev h ty d a => Sys2Proof.Machine.execBrev h ty d a s
  | .bfxF0 h ty d a b => Sys2Proof.Machine.execBfxF0 h ty d a b s
  | .bfxF1 h ty d a pos len => Sys2Proof.Machine.execBfxF1 h ty d a pos len s
  | .bfiF0 h ty d a b c => Sys2Proof.Machine.execBfiF0 h ty d a b c s
  | .bfiF1 h ty d a pos len => Sys2Proof.Machine.execBfiF1 h ty d a pos len s
  | .bselF0 h d a b c => Sys2Proof.Machine.execBselF0 h d a b c s
  | .bselF1 h d a sel => Sys2Proof.Machine.execBselF1 h d a sel s
  | .vadd h pk uns sat d a b => Sys2Proof.Machine.execVadd h pk uns sat d a b s
  | .vsub h pk uns sat d a b => Sys2Proof.Machine.execVsub h pk uns sat d a b s
  | .vmin h pk uns d a b => Sys2Proof.Machine.execVmin h pk uns d a b s
  | .vmax h pk uns d a b => Sys2Proof.Machine.execVmax h pk uns d a b s
  | .vshl h pk uns sat d a b => Sys2Proof.Machine.execVshl h pk uns sat d a b s
  | .fadd h rm d a b => Sys2Proof.Machine.execFadd h rm d a b s
  | .fsub h rm d a b => Sys2Proof.Machine.execFsub h rm d a b s
  | .fmul h rm d a b => Sys2Proof.Machine.execFmul h rm d a b s
  | .fma h rm d a b c => Sys2Proof.Machine.execFma h rm d a b c s
  | .fmin h d a b => Sys2Proof.Machine.execFmin h d a b s
  | .fmax h d a b => Sys2Proof.Machine.execFmax h d a b s
  | .fabs h d a => Sys2Proof.Machine.execFabs h d a s
  | .fneg h d a => Sys2Proof.Machine.execFneg h d a s
  | .fcmp h cond d a b pq => Sys2Proof.Machine.execFcmp h cond d a b pq s
  | .pkfma h rm d a b c => Sys2Proof.Machine.execPkfma h rm d a b c s
  | .pkadd h rm d a b => Sys2Proof.Machine.execPkadd h rm d a b s
  | .frcp h rm d a => Sys2Proof.Machine.execFrcp h rm d a s
  | .frsq h rm d a => Sys2Proof.Machine.execFrsq h rm d a s
  | .fexp2 h rm d a => Sys2Proof.Machine.execFexp2 h rm d a s
  | .flog2 h rm d a => Sys2Proof.Machine.execFlog2 h rm d a s
  | .fsin h rm d a => Sys2Proof.Machine.execFsin h rm d a s
  | .fcos h rm d a => Sys2Proof.Machine.execFcos h rm d a s
  | .ftanh h rm d a => Sys2Proof.Machine.execFtanh h rm d a s
  | .cvt h rm dst src d a pq => Sys2Proof.Machine.execCvt h rm dst src d a pq s
  | .qntElement h d a b pq => Sys2Proof.Machine.execQntElement h d a b pq s
  | .qntScale h d a b pq => Sys2Proof.Machine.execQntScale h d a b pq s
  | .dqnt h dst rm d a b x => Sys2Proof.Machine.execDqnt h dst rm d a b x s
  | .trcd h fmt nib d a b c => Sys2Proof.Machine.execTrcd h fmt nib d a b c s
  | .bra h off => Sys2Proof.Machine.execBra h off s
  | .brx h a => Sys2Proof.Machine.execBrx h a s
  | .call h d off => Sys2Proof.Machine.execCall h d off s
  | .ret h a => Sys2Proof.Machine.execRet h a s
  | .exit h => Sys2Proof.Machine.execExit h s
  | .rcvSet h n off => Sys2Proof.Machine.execRcvSet h n off s
  | .rcvWait h n => Sys2Proof.Machine.execRcvWait h n s
  | .vote h mode cnt d neg a => Sys2Proof.Machine.execVote h mode cnt d neg a s
  | .xlane h mode pair d a b pq => Sys2Proof.Machine.execXlane h mode pair d a b pq s
  | .redx h op rm ty d a => Sys2Proof.Machine.execRedx h op rm ty d a s
  | .ld h ty pair d m => Sys2Proof.Machine.execLd h ty pair d m s
  | .st h ty pair d m => Sys2Proof.Machine.execSt h ty pair d m s
  | .ldx h sz d m => Sys2Proof.Machine.execLdx h sz d m s
  | .stx h sz d m => Sys2Proof.Machine.execStx h sz d m s
  | .ldb h ty pair d m => Sys2Proof.Machine.execLdb h ty pair d m s
  | .stb h ty pair d m => Sys2Proof.Machine.execStb h ty pair d m s
  | .ldk h ty d m => Sys2Proof.Machine.execLdk h ty d m s
  | .pref h kind m => Sys2Proof.Machine.execPref h kind m s
  | .tags h len z m => Sys2Proof.Machine.execTags h len z m s
  | .tagg h d m => Sys2Proof.Machine.execTagg h d m s
  | .atom h op ty d m => Sys2Proof.Machine.execAtom h op ty d m s
  | .red h op ty d m => Sys2Proof.Machine.execRed h op ty d m s
  | .cadd h d m => Sys2Proof.Machine.execCadd h d m s
  | .caddt h d m => Sys2Proof.Machine.execCaddt h d m s
  | .cwait h d m => Sys2Proof.Machine.execCwait h d m s
  | .cpoll h p d m => Sys2Proof.Machine.execCpoll h p d m s
  | .alinit h d m => Sys2Proof.Machine.execAlinit h d m s
  | .altake h d m => Sys2Proof.Machine.execAltake h d m s
  | .altakeT h pq d m => Sys2Proof.Machine.execAltakeT h pq d m s
  | .altakeW h d m => Sys2Proof.Machine.execAltakeW h d m s
  | .algive h d m => Sys2Proof.Machine.execAlgive h d m s
  | .alread h d m => Sys2Proof.Machine.execAlread h d m s
  | .alpeek h d m => Sys2Proof.Machine.execAlpeek h d m s
  | .bara h one r n d a => Sys2Proof.Machine.execBara h one r n d a s
  | .barw h n a => Sys2Proof.Machine.execBarw h n a s
  | .carve h t a b c pq => Sys2Proof.Machine.execCarve h t a b c pq s
  | .growQueueGrant core bank => Sys2Proof.Machine.execGrowQueueGrant core bank s
  | .carveOutDeadlock core bank => Sys2Proof.Machine.execCarveOutDeadlock core bank s
  | .cpyk h t d ec a => Sys2Proof.Machine.execCpyk h t d ec a s
  | .presGet h d m => Sys2Proof.Machine.execPresGet h d m s
  | .presHold h m => Sys2Proof.Machine.execPresHold h m s
  | .presRelease h m => Sys2Proof.Machine.execPresRelease h m s
  | .tcfg h t a => Sys2Proof.Machine.execTcfg h t a s
  | .tld h t scratch base off p => Sys2Proof.Machine.execTld h t scratch base off p s
  | .tst h t scratch base off p => Sys2Proof.Machine.execTst h t scratch base off p s
  | .tzero h t => Sys2Proof.Machine.execTzero h t s
  | .mmt h d m => Sys2Proof.Machine.execMmt h d m s
  | .mmtC h d m => Sys2Proof.Machine.execMmtC h d m s
  | .mmts h d n => Sys2Proof.Machine.execMmts h d n s
  | .tbnd h d m => Sys2Proof.Machine.execTbnd h d m s
  | .lease h t d m => Sys2Proof.Machine.execLease h t d m s
  | .lrel h => Sys2Proof.Machine.execLrel h s
  | .lnch h t d q a => Sys2Proof.Machine.execLnch h t d q a s
  | .trap h imm => Sys2Proof.Machine.execTrap h imm s
  | .sysc h a imm => Sys2Proof.Machine.execSysc h a imm s
  | .eretResume h a b => Sys2Proof.Machine.execEretResume h a b s
  | .eretRemove h a b => Sys2Proof.Machine.execEretRemove h a b s
  | .tlbiVa h a b => Sys2Proof.Machine.execTlbiVa h a b s
  | .tlbiCtx h b => Sys2Proof.Machine.execTlbiCtx h b s
  | .tlbiAll h => Sys2Proof.Machine.execTlbiAll h s
  | .fenceI h => Sys2Proof.Machine.execFenceI h s
  | .ctxsw h a b => Sys2Proof.Machine.execCtxsw h a b s
  | .migr h a b => Sys2Proof.Machine.execMigr h a b s
  | .wfi h => Sys2Proof.Machine.execWfi h s
  | .wfiTimeout t => Sys2Proof.Machine.execWfiTimeout t s
  | .mset h t d a b => Sys2Proof.Machine.execMset h t d a b s
  | .msclr h => Sys2Proof.Machine.execMsclr h s
  | .hchk h sel d => Sys2Proof.Machine.execHchk h sel d s
  | .bundleFormation core => Sys2Proof.Machine.execBundleFormation core s
  | .resultDelivery t tag => Sys2Proof.Machine.execResultDelivery t tag s
  | .untaggedResultWrite t x => Sys2Proof.Machine.execUntaggedResultWrite t x s
  | .trapRecordWrite ctx => Sys2Proof.Machine.execTrapRecordWrite ctx s
  | .waiterPeriodicRead w => Sys2Proof.Machine.execWaiterPeriodicRead w s
  | .waiterPushRead w => Sys2Proof.Machine.execWaiterPushRead w s
  | .copyElement core ec x => Sys2Proof.Machine.execCopyElement core ec x s
  | .backReferenceToken core ec x => Sys2Proof.Machine.execBackReferenceToken core ec x s
  | .arrivalAddition core ec x n => Sys2Proof.Machine.execArrivalAddition core ec x n s
  | .retire core ec => Sys2Proof.Machine.execRetire core ec s
  | .engineContextRestart core ec => Sys2Proof.Machine.execEngineContextRestart core ec s
  | .engineContextCancel core ec => Sys2Proof.Machine.execEngineContextCancel core ec s
  | .leaseRequest core => Sys2Proof.Machine.execLeaseRequest core s
  | .leaseGrant cluster => Sys2Proof.Machine.execLeaseGrant cluster s
  | .leaseExpiry core team group => Sys2Proof.Machine.execLeaseExpiry core team group s
  | .fold core row => Sys2Proof.Machine.execFold core row s
  | .matrixDelivery core => Sys2Proof.Machine.execMatrixDelivery core s
  | .operationStop core x => Sys2Proof.Machine.execOperationStop core x s
  | .matrixCancel core ctx vtid group lane tag => Sys2Proof.Machine.execMatrixCancel core ctx vtid group lane tag s
  | .lightMeterReading cluster reading => Sys2Proof.Machine.execLightMeterReading cluster reading s
  | .passCountFall cluster => Sys2Proof.Machine.execPassCountFall cluster s
  | .bankSwitch core => Sys2Proof.Machine.execBankSwitch core s
  | .bankSwitchSlice cls => Sys2Proof.Machine.execBankSwitchSlice cls s
  | .preEmption core => Sys2Proof.Machine.execPreEmption core s
  | .imageSpill core bank => Sys2Proof.Machine.execImageSpill core bank s
  | .imageLoad core bank ctx => Sys2Proof.Machine.execImageLoad core bank ctx s
  | .barrierEntryFree core e => Sys2Proof.Machine.execBarrierEntryFree core e s
  | .barrierEntryFill core e => Sys2Proof.Machine.execBarrierEntryFill core e s
  | .barrierCountWrite core e v => Sys2Proof.Machine.execBarrierCountWrite core e v s
  | .barrierKeyWrite core e v => Sys2Proof.Machine.execBarrierKeyWrite core e v s
  | .spillMaskWrite core j v => Sys2Proof.Machine.execSpillMaskWrite core j v s
  | .teamStop core ctx vtid => Sys2Proof.Machine.execTeamStop core ctx vtid s
  | .teamDeparture core team => Sys2Proof.Machine.execTeamDeparture core team s
  | .coreModeWrite core v => Sys2Proof.Machine.execCoreModeWrite core v s
  | .contextCreate x => Sys2Proof.Machine.execContextCreate x s
  | .contextRetire x => Sys2Proof.Machine.execContextRetire x s
  | .queueOpen x j v => Sys2Proof.Machine.execQueueOpen x j v s
  | .blockTake => Sys2Proof.Machine.execBlockTake s
  | .blockRefusal x j => Sys2Proof.Machine.execBlockRefusal x j s
  | .clusterPlacement pool => Sys2Proof.Machine.execClusterPlacement pool s
  | .gridCompletion grid => Sys2Proof.Machine.execGridCompletion grid s
  | .poolWrite site v => Sys2Proof.Machine.execPoolWrite site v s
  | .shareWrite x v => Sys2Proof.Machine.execShareWrite x v s
  | .placementFreeze v => Sys2Proof.Machine.execPlacementFreeze v s
  | .registerWrite acc off => Sys2Proof.Machine.execRegisterWrite acc off s
  | .pageWalk die => Sys2Proof.Machine.execPageWalk die s
  | .l1Fill core unit => Sys2Proof.Machine.execL1Fill core unit s
  | .l1Invalidation core unit => Sys2Proof.Machine.execL1Invalidation core unit s
  | .invalidationReport core unit => Sys2Proof.Machine.execInvalidationReport core unit s
  | .observationWindow ctx => Sys2Proof.Machine.execObservationWindow ctx s
  | .pageMove ctxA vaA ctxB vaB => Sys2Proof.Machine.execPageMove ctxA vaA ctxB vaB s
  | .sensorReading site temp => Sys2Proof.Machine.execSensorReading site temp s
  | .relocationStop core => Sys2Proof.Machine.execRelocationStop core s
  | .relocationCommit core => Sys2Proof.Machine.execRelocationCommit core s
  | .forwardedWrite core => Sys2Proof.Machine.execForwardedWrite core s
  | .coreStateLoss core what => Sys2Proof.Machine.execCoreStateLoss core what s
  | .unitSparing u lost => Sys2Proof.Machine.execUnitSparing u lost s
  | .allowanceTakeRequest => Sys2Proof.Machine.execAllowanceTakeRequest s
  | .allowanceHomeGive => Sys2Proof.Machine.execAllowanceHomeGive s
  | .allowanceReply core => Sys2Proof.Machine.execAllowanceReply core s
  | .recallAnswer core obj => Sys2Proof.Machine.execRecallAnswer core obj s
  | .powerFail => Sys2Proof.Machine.execPowerFail s
  | .saveSequence beChunks bad => Sys2Proof.Machine.execSaveSequence beChunks bad s
  | .powerOn => Sys2Proof.Machine.execPowerOn s
  | .reserveArmed => Sys2Proof.Machine.execReserveArmed s
  | .dataRestore k pa => Sys2Proof.Machine.execDataRestore k pa s
  | .teamRestore k cls x => Sys2Proof.Machine.execTeamRestore k cls x s
  | .vaultRelease => Sys2Proof.Machine.execVaultRelease s
  | .hostMemRead h => Sys2Proof.Machine.execHostMemRead h s
  | .hostMemWrite h data => Sys2Proof.Machine.execHostMemWrite h data s
  | .watchArm w vector => Sys2Proof.Machine.execWatchArm w vector s
  | .bootStageAdmit img => Sys2Proof.Machine.execBootStageAdmit img s
  | .measurementExtend m image => Sys2Proof.Machine.execMeasurementExtend m image s
  | .attestationRequest nonce => Sys2Proof.Machine.execAttestationRequest nonce s
  | .firmwareStaging img => Sys2Proof.Machine.execFirmwareStaging img s
  | .telemetrySample power => Sys2Proof.Machine.execTelemetrySample power s
  | .rackTimeSet t => Sys2Proof.Machine.execRackTimeSet t s
  | .tokenReceipt bytes => Sys2Proof.Machine.execTokenReceipt bytes s
  | .tokenTick => Sys2Proof.Machine.execTokenTick s
  | .fabricWindowEnable x w => Sys2Proof.Machine.execFabricWindowEnable x w s
  | .reductionWindowEnable r => Sys2Proof.Machine.execReductionWindowEnable r s
  | .fabricRequestReceive q => Sys2Proof.Machine.execFabricRequestReceive q s
  | .fabricResponse id ok data => Sys2Proof.Machine.execFabricResponse id ok data s
  | .fabricTimeout id => Sys2Proof.Machine.execFabricTimeout id s
  | .stationDown st => Sys2Proof.Machine.execStationDown st s
  | .l2WriteBack ctx va => Sys2Proof.Machine.execL2WriteBack ctx va s
  | .stationUp st => Sys2Proof.Machine.execStationUp st s
  | .instructionFetch core ctx sup line => Sys2Proof.Machine.execInstructionFetch core ctx sup line s

end Sys2Proof.Machine
end

