-- ==== Sys2Proof/Machine/Schedule.lean ====
section
/-! DEFINITION. What the package does next when no bundle stands in the issue stage: the events that its own agents make, in a
fixed order (log 3). The agenda of State makes any other order, and everything that the outside world does. -/

namespace Sys2Proof.Machine

/-! ## The events of one core -/

def threadEvents (s : State) (r : ThreadRef) (th : Thread) : List Instr :=
  (if th.exited && th.windows.isEmpty then [] else
    ((List.range th.windows.length).filterMap fun i => match th.windows[i]? with
      | some w => if w.left == 0 && !w.written && !w.held.isEmpty then some (.untaggedResultWrite r i) else none
      | none => none)) ++
  ((List.range 8).filterMap fun i => if s.tagDue r th i then some (.resultDelivery r i) else none) ++
  (match th.park with
   | some (.wfi _) => if th.wfiDue s.cycle then [.wfiTimeout r] else []
   | some (.cwait w) =>
     if w.pushed then [.waiterPushRead (.thread r)] else if w.next ≤ s.cycle then [.waiterPeriodicRead (.thread r)] else []
   | _ => [])

def teamEvents (s : State) (c : Nat) (t : Team) : List Instr :=
  (t.lanes.map fun x => match t.thread? x.1 x.2 with
    | some th => threadEvents s { core := c, team := t.id, group := x.1, lane := x.2 } th
    | none => []).flatten ++
  (mapIdxFrom (fun g gr => match Group.lease gr with
    | some l => if l.expiry ≤ s.cycle then [Instr.leaseExpiry c t.id g] else []
    | none => []) 0 t.groups).flatten ++
  (if t.live && !t.leaving then [] else [.teamDeparture c t.id])

/-- Work of the copy engine. -/
def engineEvents (c : Nat) (k : Core) : List Instr :=
  (mapIdxFrom (fun ec e => (mapIdxFrom (fun i (o : CopyOp) =>
    [Instr.copyElement c ec i, .backReferenceToken c ec i] ++
      (if o.counted < o.delivered then [.arrivalAddition c ec i (o.delivered - o.counted)] else []) ++
      (if i = 0 then [.retire c ec] else [])) 0 (Engine.queue e)).flatten) 0 k.engines).flatten

/-- Work of the term array: leases, rows, stops, deliveries. -/
def arrayEvents (now c : Nat) (k : Core) : List Instr :=
  if k.ops.isEmpty then []
  else
    [.leaseRequest c] ++
      (match k.headOp with
       | some o => (o.readyRows now).map fun row => .fold c row
       | none => []) ++
      ((List.range k.ops.length).map fun i => .operationStop c i) ++ [.matrixDelivery c]

/-- Switches of banks, and the images they need. -/
def bankEvents (c : Nat) (k : Core) : List Instr :=
  match k.switch, k.switching with
  | some ctx, _ =>
    if k.twoCtx then
      let b := 1 - k.active
      [.bankSwitch c] ++ (if k.bankCtx b ctx then [] else [.imageSpill c b, .imageLoad c b ctx])
    else [.preEmption c]
  | none, some x => if k.twoCtx then [] else [.imageSpill c 0, .imageLoad c 0 x.ctx]
  | none, none => []

def coreEvents (s : State) (c : Nat) : List Instr :=
  let k := s.core c
  (k.teams.map (teamEvents s c)).flatten ++
  (idxWhere (fun t => !(Team.live t) || t.leaving) 0 (s.spilledTeams c)).map (fun i => .teamDeparture c (32 + i)) ++
  (match s.fetchWant c with | some (ctx, sup, line) => [.instructionFetch c ctx sup line] | none => []) ++
  (k.fills.map fun x => .l1Fill c x.base) ++ engineEvents c k ++ arrayEvents s.cycle c k ++ bankEvents c k ++
  (mapIdxFrom (fun b (x : Bank) => if x.grow.isEmpty && (k.cutDue b).isNone then [] else [Instr.growQueueGrant c b, .carveOutDeadlock c b]) 0
    k.banks).flatten

/-! ## The events of the package -/

def memoryEvents (s : State) : List Instr :=
  [.pageWalk 0, .pageWalk 1] ++
  (s.rounds.map fun r => (r.toDrop.map fun c => Instr.l1Invalidation c r.base) ++
    r.toReport.map fun c => .invalidationReport c r.base).flatten ++
  (s.hostIn.map fun r => match r.2 with | none => .hostMemRead r.1 | some d => .hostMemWrite r.1 d) ++
  (s.fabric.inbox.map fun q => .fabricRequestReceive q) ++
  ((s.fabric.reqs.filter fun r => r.late s.cycle).map fun r => .fabricTimeout r.id)

def allowanceEvents (s : State) : List Instr :=
  (if s.alReqs.isEmpty then [] else [.allowanceTakeRequest]) ++
  (if s.alObjects.isEmpty then [] else [.allowanceHomeGive]) ++
  (s.alReplies.map fun r => .allowanceReply r.1) ++
  (s.alObjects.map fun o => match o.round with
    | some l => l.map fun h => Instr.recallAnswer h.1 o.obj
    | none => []).flatten

/-- A waiter of the scheduler or of a watch that is due. -/
def dueRead (s : State) (w : WaiterRef) (next : Nat) (pushed : Bool) : List Instr :=
  if pushed then [.waiterPushRead w] else if next ≤ s.cycle then [.waiterPeriodicRead w] else []

def queueEvents (s : State) (i j : Nat) (q : Queue) : List Instr :=
  if !q.valid then []
  else if q.opening then [.waiterPeriodicRead (.producer i j)]
  else
    match q.head with
    | none => dueRead s (.producer i j) q.next q.pushed
    | some h => .blockRefusal i j :: ((List.range h.met.length).map fun e =>
        if h.met.getD e true then [] else dueRead s (.waitEntry i j e) (h.next.getD e 0) (h.pushed.getD e false)).flatten

def schedulerEvents (s : State) : List Instr :=
  (mapIdxFrom (fun i qs => (mapIdxFrom (fun j q => queueEvents s i j q) 0 qs).flatten) 0 s.queues).flatten ++ [.blockTake] ++
  (if s.placement.isEmpty then [] else (List.range 4).map fun p => .clusterPlacement p) ++
  (s.grids.map fun g => .gridCompletion g.id) ++
  (mapIdxFrom (fun i (w : Watch) => if w.armed then dueRead s (.watch i) w.next w.pushed else []) 0 s.watches).flatten

def managementEvents (s : State) : List Instr :=
  (idxWhere (fun x => !(Ctx.pending x).isEmpty) 0 s.ctxs).map (fun i => .trapRecordWrite i) ++
  ((s.clusters.filter fun x => !x.queue.isEmpty).map fun x => .leaseGrant x.id) ++
  (s.clusters.map fun x => .passCountFall x.id) ++
  ((List.range 4).map fun p => .bankSwitchSlice p) ++
  (s.relocs.map fun r => [Instr.relocationStop r.core, .relocationCommit r.core, .forwardedWrite r.core]).flatten ++
  ((idxWhere (fun x => x.valid && Ctx.watched x && decide (x.windowEnd ≤ s.cycle)) 0 s.ctxs).map fun i => .observationWindow i)

/-- The events that the device itself may make now. -/
def ownEvents (s : State) : List Instr :=
  memoryEvents s ++ ((List.range Config.nCores).map fun c => coreEvents s c).flatten ++ allowanceEvents s ++ schedulerEvents s ++
    managementEvents s

/-- An event that changes something. -/
def changes (s : State) (i : Instr) : Bool :=
  match exec i s with
  | .next t => decide (t ≠ s)
  | .fault _ => true
  | .refused _ => true

/-- The device's next event: the first of its own that changes something, else the bundle of a core whose slot is due. -/
def State.nextEvent (s : State) : Option Instr :=
  match (ownEvents s).find? (changes s) with
  | some i => some i
  | none => ((List.range Config.nCores).find? s.slotDue).map fun c => .bundleFormation c

/-- Nothing is left to do in this cycle; the power controller judges the rail anew (R254). -/
def State.tick (s : State) : State := { s with cycle := s.cycle + 1 }.railUpdate.railKeep

/-! ## The instruction that the host places (withFetchWord) -/

/-- A team of one thread of a context, with every register that a carve-out can give. -/
def placedTeam (s : State) : Team :=
  { id := 0, bank := (s.core 0).active, desc := 0, ctx := (s.ctxAt 0).id, vtid := 0, sup := true, grid := s.nextGrid, index := 0
    cluster := 0, cx := 0, cy := 0, nregs := 256, bytes := 0, l1 := 0, tiles := [], scratch := [], lost := [], lines := [], spill := 0
    relocs := 0, groups := [Group.launch 0 0 0 [Thread.launch 256 0 0 s.cycle 0]], halt := none, carve := none
    leaving := false, stale := false }

/-- The bundle with the word given: the one in the issue stage, or one of the first thread of core 0. -/
def placedBundle (s : State) (w : IWord) : Bundle :=
  match s.bundle with
  | some b => { b with fetch := .word w }
  | none => { core := 0, team := 0, group := 0, pc := 0, slot := 0, members := [(0, 0)], fetch := .word w }

/-- The team that runs the word stands on core 0, its context exists. -/
def State.placeTeam (s : State) : State :=
  let s1 := s.updCtx 0 fun x => { x with valid := true, sup := true }
  s1.updCore 0 fun k => { k with teams := placedTeam s1 :: k.teams.filter fun t => t.id != 0 }

def State.placeWord (s : State) (w : IWord) : State :=
  let s1 := match s.bundle with
    | some _ => s
    | none => s.placeTeam
  { s1 with power := .on, bundle := some (placedBundle s w) }

end Sys2Proof.Machine
end

