-- ==== Sys2Proof/Machine/Step.lean ====
section
/-! DEFINITION. One step of the package. -/

namespace Sys2Proof.Machine

/-- A step: the word of the bundle in the issue stage; with none there, the next event of the agenda; with none of those, the
device's own next event, or the passage of a cycle. -/
def step (s : State) : Host.Outcome State Fault Refusal :=
  match s.bundle with
  | some b =>
    match b.instr with
    | .ok i => exec i s
    | .error tr => .next (s.refuseWord b tr)
  | none =>
    match s.agenda with
    | i :: r => exec i { s with agenda := r }
    | [] =>
      match s.nextEvent with
      | some i => exec i s
      | none => .next s.tick

/-- The state with a word of an instruction in the issue stage, as the bundle of one ready thread. -/
def State.withFetchWord (s : State) (_nbits w : Nat) : State := s.placeWord (BitVec.ofNat 80 w)

end Sys2Proof.Machine
end

