-- ==== Sys2Proof/Safety.lean ====
section
/-! DEFINITION. What the statements about the machine are said with: when the word of the bundle in the issue stage can issue,
what a thread that issues looks like afterwards, and what stays as it was. -/

namespace Sys2Proof.Machine

/-! ## A word that can issue (R13, R64, R76 to R86, R158) -/

/-- The state with the issue stage empty. -/
def State.unstaged (s : State) : State := { s with bundle := none }

/-- A thread that performs a word raises none of the causes 0x04, 0x07, 0x08, 0x44 and 0xA1 by the registers the word names. -/
def Env.clear (e : Env) (h : Hdr) (u : Uses) : Bool :=
  !beyond e.t.nregs (u.reads ++ u.dests) && !e.th.inWindow (u.reads ++ u.dests) && !e.th.inTags u.dests && !misuse h u &&
    !e.lostReg u.reads && !e.claimed u.dests

/-- Bundle b of running team t stands in the issue stage, its members are threads of the team, and none of the causes up to
0x08 stands in the way of a word that names the registers u. -/
def issues (s : State) (h : Hdr) (u : Uses) (all : TagUse) (sel : List Env → List Env) (b : Bundle) (t : Team) : Bool :=
  decide (s.bundle = some b) && decide (s.team? b.core b.team = some t) && t.halt.isNone && decide b.members.Nodup &&
  (b.members.all fun m => (t.thread? m.1 m.2).isSome) &&
  (s.unstaged.views h all sel b t).all fun e =>
    (match t.thread? e.g e.l with
     | some th => (th.badTag (Thread.tagsDone h all (performers h all sel s.unstaged b t e.g e.l))).isNone
     | none => true) &&
    !e.th.inWindow (guardName h) && !e.lostReg (guardName h) && (!performers h all sel s.unstaged b t e.g e.l || e.clear h u)

/-! ## A thread that has issued (R76 to R78, R102, R158) -/

/-- The register writes of a result that wait in a window or a tag. -/
def Out.kept (o : Out) : List RWrite := o.writes.filter RWrite.kept

/-- A thread that performed the word: its result waits in the tag that the word allocates, else in a window of la
instructions; its registers and predicates are as the word found them, but that an exiting thread's windows are written (R26). -/
def Thread.after (th : Thread) (h : Hdr) (u : Uses) (pc : VAddr) (cycle : Nat) (o : Out) : Thread :=
  { ({ th with
    windows := th.countIssue.windows ++
      if (h.av && !o.tagless) || (o.kept.isEmpty && !(o.late && !u.dests.isEmpty)) then []
      else [{ dests := u.dests, held := o.kept, left := h.la.toNat, written := false }]
    tags :=
      if h.av && !o.tagless then
        updAt th.tags h.tag.toNat fun _ =>
          some { dests := u.dests, held := o.kept, delivered := false, pc := pc, bad := o.bad, op := o.op }
      else th.tags } : Thread).retire o.exited with
    pc := o.pc.getD (if o.park.isSome || o.exited then pc else pc + 10)
    fmt := o.fmt.getD th.fmt
    exited := o.exited, park := o.park, hold := o.hold, lastIssue := cycle, yielded := o.yielded
    clock := Nat.max th.clock o.clock, fence := Nat.max th.fence o.fence, fabWrites := th.fabWrites ++ o.fabWrites
    fabDone := [], awaits := [] }

/-- A thread of the bundle that did not perform the word. -/
def Thread.past (th : Thread) (pc : VAddr) (cycle : Nat) : Thread :=
  { th with windows := th.countIssue.windows, pc := pc + 10, hold := none, lastIssue := cycle, fabDone := [], awaits := [] }

/-- The k registers of a group after the bundle: the writes of its lowest performing lane (R15). -/
def kAfter (ps : List Env) (val : Env → Out) (g : Nat) (k : List DWord) : List DWord :=
  match ps.find? fun e => e.g == g with
  | some e => (val e).writes.foldl (fun k w => match w with
      | .k n v => updAt k n fun _ => v
      | _ => k) k
  | none => k

/-- The k registers of a group that are still destroyed after the bundle: none that it writes (R322). -/
def kLost (ps : List Env) (val : Env → Out) (g : Nat) (l : List Nat) : List Nat :=
  match ps.find? fun e => e.g == g with
  | some e => (val e).writes.foldl (fun l w => match w with
      | .k n _ => l.filter fun i => i != n
      | _ => l) l
  | none => l

/-- t' is t but for the k registers of its groups and the threads of the bundle. -/
def OnlyMembers (t t' : Team) (b : Bundle) : Prop :=
  t' = { t with groups := t'.groups } ∧ t'.groups.length = t.groups.length ∧
  ∀ g gr, t.groups[g]? = some gr → ∃ gr', t'.groups[g]? = some gr' ∧
    gr' = { gr with k := gr'.k, lost := gr'.lost, threads := gr'.threads } ∧ gr'.threads.length = gr.threads.length ∧
    ∀ l, isMember b g l = false → gr'.threads[l]? = gr.threads[l]?

/-- t' is team t after the bundle b of a word whose threads es see it and ps performed it with outcomes val: nothing but the
threads of the bundle and k registers has changed. -/
def Performed (t t' : Team) (b : Bundle) (h : Hdr) (u : Uses) (cycle : Nat) (es ps : List Env) (val : Env → Out) : Prop :=
  OnlyMembers t t' b ∧
  (∀ e ∈ ps, t'.thread? e.g e.l = (t.thread? e.g e.l).map fun th => th.after h u b.pc cycle (val e)) ∧
  (∀ e ∈ es, (∀ p ∈ ps, ¬ (p.g = e.g ∧ p.l = e.l)) →
    t'.thread? e.g e.l = (t.thread? e.g e.l).map fun th => th.past b.pc cycle) ∧
  ∀ g gr gr', t.groups[g]? = some gr → t'.groups[g]? = some gr' → gr'.k = kAfter ps val g gr.k ∧ gr'.lost = kLost ps val g gr.lost

/-- Instruction i only acts on the threads that perform it: whenever its word can issue and pre holds of every thread that
performs it, exec answers a next state, which is the state before but for the empty issue stage and the bundle's
threads, each with the outcome that val gives. -/
def Does (i : Instr) (h : Hdr) (u : Uses) (val : Env → Out) (pre : Env → Prop := fun _ => True)
    (all : TagUse := .named) (sel : List Env → List Env := fun l => l) : Prop :=
  ∀ s b t, issues s h u all sel b t = true → (∀ e ∈ s.unstaged.doers h all sel b t, pre e) →
    ∃ t', exec i s = .next (s.unstaged.updTeam b.core b.team fun _ => t') ∧
      Performed (s.unstaged.wordTeam h all sel b t) t' b h u s.cycle (s.unstaged.views h all sel b t)
        (s.unstaged.doers h all sel b t) val

/-- The threads of a list act one after another, each with the outcome that val gives and after the events of those before it, and of
time k (R139, R140). -/
inductive Runs (Eff : Env → State → State → Out → Prop) (val : Env → Out) : Nat → List Env → State → State → Prop where
  | nil (k : Nat) (s : State) : Runs Eff val k [] s s
  | cons {k : Nat} {e : Env} {r : List Env} {s s1 s2 : State} : Eff (e.at k) s s1 (val e) →
      Runs Eff val (Nat.max k (val e).clock) r s1 s2 → Runs Eff val k (e :: r) s s2

/-- Instruction i acts on the state: whenever its word can issue, pre holds of every thread that performs it and look of every
other thread whose guard is true, whatever time the threads before it have come to, exec answers a next state. In it the threads that
perform the word have acted one after another as Eff says, the core keeps the time of their latest event for the bundle of its other
port, the threads of the bundle have issued with their outcomes, and post has followed. -/
def Acts (i : Instr) (h : Hdr) (u : Uses) (Eff : Env → State → State → Out → Prop) (pre : Env → Prop := fun _ => True)
    (all : TagUse := .named) (sel : List Env → List Env := fun l => l) (look : Env → Prop := fun _ => True)
    (post : Bundle → State → State := fun _ s => s) : Prop :=
  ∀ s b t, issues s h u all sel b t = true → (∀ e ∈ s.unstaged.doers h all sel b t, ∀ k, pre (e.at k)) →
    (∀ e ∈ s.unstaged.views h all sel b t, performers h all sel s.unstaged b t e.g e.l = false → e.exec = true →
      ∀ k, look (e.at k)) →
    ∃ s1 val t1 f, Runs Eff val (s.unstaged.slotStart b) (s.unstaged.doers h all sel b t) (s.unstaged.wordState h all sel b t) s1 ∧
      s1.team? b.core b.team = some t1 ∧ exec i s = .next (post b ((s1.slotTime b.core
        (maxList ((s.unstaged.doers h all sel b t).map fun e => (val e).clock))).updTeam b.core b.team f)) ∧
      Performed t1 (f t1) b h u s.cycle (s.unstaged.views h all sel b t) (s.unstaged.doers h all sel b t) val

/-- Instruction i halts the team: whenever its word can issue and pre holds of every thread that would perform it, the first of
them takes the exception tr (R169, R315). -/
def Traps (i : Instr) (h : Hdr) (u : Uses) (tr : Env → Trap) (pre : Env → Prop := fun _ => True) (all : TagUse := .named)
    (sel : List Env → List Env := fun l => l) : Prop :=
  ∀ s b t e, issues s h u all sel b t = true → (s.unstaged.doers h all sel b t).head? = some e →
    (∀ x ∈ s.unstaged.doers h all sel b t, pre x) →
    exec i s = .next ((s.unstaged.usedWalks b t).takeTrap b e.g e.l (tr e))

/-- Instruction i stops on a hazard: a thread that is alone in its bundle, waits for no lost result and executes the word takes
cause 0x04 when it names a register beyond its team's, else 0x07 in a window or a tag's destination set, else 0x08, else 0xA1 when
an error has destroyed a register that its other causes depend on (R311, R322) and no register that it writes is claimed. -/
def HazardTraps (i : Instr) (h : Hdr) (u : Uses) (needs : List RName := u.reads) (all : TagUse := .named)
    (sel : List Env → List Env := fun l => l) : Prop :=
  ∀ s b t e cause, s.bundle = some b → s.team? b.core b.team = some t → s.unstaged.views h all sel b t = [e] →
    performers h all sel s.unstaged b t e.g e.l = true →
    (∀ th, t.thread? e.g e.l = some th → th.badTag (Thread.tagsDone h all true) = none) → e.th.inWindow (guardName h) = false →
    e.lostReg (guardName h) = false →
    (cause = if beyond e.t.nregs (u.reads ++ u.dests) then 0x04
      else if e.th.inWindow (u.reads ++ u.dests) || e.th.inTags u.dests then 0x07 else if misuse h u then 0x08
      else if e.lostReg needs && !e.claimed u.dests then 0xA1 else 0) → (∀ r ∈ needs, r ∈ u.reads) →
    cause ≠ 0 → exec i s = .next ((s.unstaged.usedWalks b t).takeTrap b e.g e.l
      { cause := cause, extra := if cause = 0xA1 then b.pc.toNat else 0 })

/-- Instruction i computes register writes. -/
def Computes (i : Instr) (h : Hdr) (u : Uses) (val : Env → List RWrite) (pre : Env → Prop := fun _ => True) : Prop :=
  Does i h u (fun e => { writes := val e }) pre

/-! ## Memory (R131, R135, R137, R264, R321) -/

/-- Memory and the memory tags are in their canonical form. -/
def Memory.wf (s : State) : Bool := amWf 0 0 s.mem && amWf 0 0 s.gtags

/-- A core without its copies of memory. -/
def Core.sansCopies (k : Core) : Core := { k with l1 := [], fills := [] }
/-- The state without memory and what the memory system keeps of it: tags, losses, time stamps, page records, rounds, copies, and
whether a plain write has raised the home value of an allowance object. -/
def State.sansMemory (s : State) : State :=
  { s with
    mem := [], gtags := [], lost := [], compact := [], stamps := [], pages := [], rounds := []
    alObjects := s.alObjects.map fun o => { o with raised := false }
    cores := s.cores.map Core.sansCopies }
/-- Nothing but memory and what the memory system keeps of it has changed. -/
def SameMachine (s s' : State) : Prop := s'.sansMemory = s.sansMemory
/-- No byte, no tag and no loss of memory has changed either. -/
def SameMemory (s s' : State) : Prop := SameMachine s s' ∧ s'.mem = s.mem ∧ s'.gtags = s.gtags ∧ s'.lost = s.lost
/-- n bytes from pa have the values of d, every other byte and every tag is as before. -/
def Stored (s s' : State) (pa : Nat) (d : List Byte) : Prop :=
  SameMachine s s' ∧ Memory.wf s' = true ∧
  (∀ x, s'.readByte x = if pa ≤ x ∧ x < pa + d.length then d.getD (x - pa) 0 else s.readByte x) ∧ ∀ x, s'.gtag x = s.gtag x

/-- None of n bytes lies in the control region. -/
def plain (pa n : Nat) : Prop := ∀ i < n, inCtl (pa + i) = false
/-- The core holds no L1 copy of any of n bytes. -/
def State.uncopied (s : State) (c pa n : Nat) : Prop := ∀ x ∈ (s.core c).l1, x.base + x.size ≤ pa ∨ pa + n ≤ x.base

/-- Global memory lets a thread access n bytes: the page is mapped and permits it; in each unit, as the access finds it (in an L1
copy at the clock it has come to, or at home), the granules carry the pointer's tag and no byte is lost that the access reads; and no
invalidation round stands in the way. -/
def Env.allows (e : Env) (a : Ea) (n : Nat) (m : Mode) : Prop :=
  ∃ l, e.s.translate e.b.core e.t.ctx a.addr = .hit l ∧ (l.sup = true → e.t.sup = true) ∧
    (m.writes = true → l.ro = false ∧ a.ro = false) ∧
    let pa := l.phys a.addr
    (∀ pc ∈ e.s.unitSteps e.b.core l (m.l1 && decide (e.s.clsOf l ≠ 3)) (unitPieces l.grain pa n) e.th.clock,
      let (p, k, clock, copy) := pc
      (m.notag = false → ∀ g ∈ granulesOf p k, e.s.seenTag e.b.core (Nat.max p (g * 32)) clock copy = a.tag) ∧
      (m.reads = true → m.tagged = false → copy = false → e.s.lostIn p k = none) ∧
      (m.writes = false → copy = false → e.s.roundHolds (.thread e.b.core e.b.team) p k = false)) ∧
    (m.writes = true → e.s.roundHolds (.thread e.b.core e.b.team) pa n = false ∧ e.s.needsRound l pa n = false)
/-- A thread may access n bytes at an address that is no fabric address: present lines of the scratchpad, no byte destroyed that
the access reads, or global memory. -/
def Env.mayAccess (e : Env) (a : Ea) (n : Nat) (m : Mode) : Prop :=
  e.th.fabDone = [] ∧
    if a.scratch then
      (∀ i, a.addr / 128 ≤ i → i ≤ (a.addr + n - 1) / 128 → (e.t.line i).present = true) ∧
        (m.reads = true → e.t.lostIn a.addr n = false)
    else e.s.fabWindow e.t.desc a.addr = none ∧ e.allows a n m

/-- The bytes of w, address by address, have been written one after another; every other byte and every tag is as before. -/
def Written (s s' : State) (w : List (Nat × Byte)) : Prop :=
  SameMachine s s' ∧ Memory.wf s' = true ∧
  (∀ x, s'.readByte x = ((w.reverse.find? fun y => y.1 == x).map fun y => y.2).getD (s.readByte x)) ∧ ∀ x, s'.gtag x = s.gtag x

/-- What a thread finds at a byte: of its team's scratchpad, or of global memory by its translation. -/
def Env.byteAt (e : Env) (scratch : Bool) (a : Nat) : Byte :=
  if scratch then amGet 0 e.t.scratch a
  else match e.s.hitLeaf e.b.core e.t.ctx a with
    | some l => e.s.readByte (l.phys a)
    | none => 0
/-- n bytes, lowest first, as one number. -/
def Env.numAt (e : Env) (scratch : Bool) (a n : Nat) : Nat := bytesNat ((List.range n).map fun i => e.byteAt scratch (a + i))
/-- Every aligned word of 8 bytes has one translation, as the words of a page have. -/
def Env.wholeWords (e : Env) : Prop :=
  ∀ va, e.s.hitLeaf e.b.core e.t.ctx va = e.s.hitLeaf e.b.core e.t.ctx (va / 8 * 8)
/-- A byte of global memory is none of the control region. -/
def Env.outside (e : Env) (va : Nat) : Prop := ∀ l, e.s.hitLeaf e.b.core e.t.ctx va = some l → inCtl (l.phys va) = false

/-- The checks of n bytes that are never a fabric access: present lines of the scratchpad, no byte destroyed that the access
reads, or global memory. -/
def Env.reaches (e : Env) (a : Ea) (n : Nat) (m : Mode) : Prop :=
  if a.scratch then
    (∀ i, a.addr / 128 ≤ i → i ≤ (a.addr + n - 1) / 128 → (e.t.line i).present = true) ∧
      (m.reads = true → e.t.lostIn a.addr n = false)
  else e.allows a n m
/-- The checks of the byte ranges of a tile's image (R207). -/
def Env.reachesAll (e : Env) (a : Ea) (spans : List (Nat × Nat)) (m : Mode) : Prop :=
  ∀ x ∈ spans, if a.scratch then x.1 + x.2 ≤ e.t.bytes ∧ e.reaches { a with addr := x.1 } x.2 m
    else x.1 + x.2 ≤ 2 ^ 56 ∧ ∀ p ∈ pieces x.1 x.2, e.allows { a with addr := p.1 } p.2 m

/-- The team of e in s' is t', which is its team t of s but for scratchpad bytes, which of them are destroyed, and the stamps
and flags of its lines. -/
def ScratchOnly (e : Env) (s s' : State) (t t' : Team) : Prop :=
  s' = s.updTeam e.b.core e.b.team (fun _ => t') ∧ t' = { t with scratch := t'.scratch, lost := t'.lost, lines := t'.lines }
/-- Of the destroyed bytes of a scratchpad, those of n bytes from o are destroyed no longer. -/
def Healed (t t' : Team) (o n : Nat) : Prop := ∀ i, i ∈ t'.lost ↔ i ∈ t.lost ∧ (i < o ∨ o + n ≤ i)

/-- Reads of the team's scratchpad or of memory: no byte, no tag and no loss has changed. -/
def OnlyRead (e : Env) (scratch : Bool) (s s' : State) : Prop :=
  if scratch then ∀ t, s.team? e.b.core e.b.team = some t → ∃ t', ScratchOnly e s s' t t' ∧ t'.scratch = t.scratch ∧
    t'.lost = t.lost
  else SameMemory s s'

/-- What a load of a lane does with an address that is no fabric address (R138 to R147, R264). -/
def Loads (sh : LoadShape) (a : Ea) (e : Env) (s s' : State) (o : Out) : Prop :=
  ∃ bytes, o = { writes := sh.writes bytes, clock := o.clock, bad := o.bad } ∧ e.th.clock ≤ o.clock ∧
    if a.scratch then
      ∀ t, s.team? e.b.core e.b.team = some t → bytes = t.scratchRead a.addr sh.bytes ∧ o.bad = none ∧
        ∃ t', ScratchOnly e s s' t t' ∧ t'.scratch = t.scratch ∧ t'.lost = t.lost
    else
      ∀ l, s.hitLeaf e.b.core e.t.ctx a.addr = some l → plain (l.phys a.addr) sh.bytes →
        SameMemory s s' ∧ (s.lostIn (l.phys a.addr) sh.bytes = none → o.bad = none) ∧
        (s.uncopied e.b.core (l.phys a.addr) sh.bytes → bytes = s.readBytes (l.phys a.addr) sh.bytes) ∧
        (sh.bytes ≤ 8 → s.clsOf l ≠ 3 → ∀ x, s.l1Copy e.b.core (l.phys a.addr) e.th.clock = some x →
          bytes = slice x.data (l.phys a.addr - x.base) sh.bytes)

/-- What a store of a lane does with an address that is no fabric address. -/
def Stores (d : List Byte) (a : Ea) (e : Env) (s s' : State) (o : Out) : Prop :=
  o = { clock := o.clock } ∧ e.th.clock ≤ o.clock ∧
    if a.scratch then
      ∀ t, s.team? e.b.core e.b.team = some t → amWf 0 0 t.scratch = true → ∃ t', ScratchOnly e s s' t t' ∧
        amWf 0 0 t'.scratch = true ∧ Healed t t' a.addr d.length ∧
        ∀ x, amGet 0 t'.scratch x = if a.addr ≤ x ∧ x < a.addr + d.length then d.getD (x - a.addr) 0 else amGet 0 t.scratch x
    else
      ∀ l, s.hitLeaf e.b.core e.t.ctx a.addr = some l → plain (l.phys a.addr) d.length → Memory.wf s = true →
        Stored s s' (l.phys a.addr) d

/-- The n bytes of a value, lowest first (R3). -/
def lowBytes {w : Nat} (v : BitVec w) (n : Nat) : List Byte := (List.range n).map fun i => v.extractLsb' (8 * i) 8

/-- What one read and write of a word of n bytes does: the old value is v, and the new bytes are those of new v, if any
(R138, R151, R183). -/
def Changes (a : Ea) (n : Nat) (new : Nat → Option Nat) (v : Nat) (e : Env) (s s' : State) : Prop :=
  if a.scratch then
    ∀ t, s.team? e.b.core e.b.team = some t → amWf 0 0 t.scratch = true →
      v = bytesNat (t.scratchRead a.addr n) ∧ ∃ t', ScratchOnly e s s' t t' ∧ amWf 0 0 t'.scratch = true ∧
        (∀ i, (i < a.addr ∨ a.addr + n ≤ i) → (i ∈ t'.lost ↔ i ∈ t.lost)) ∧ ((new v).isSome = true → Healed t t' a.addr n) ∧
        ∀ x, amGet 0 t'.scratch x =
          if a.addr ≤ x ∧ x < a.addr + n then (natBytes ((new v).getD v) n).getD (x - a.addr) 0 else amGet 0 t.scratch x
  else
    ∀ l, s.hitLeaf e.b.core e.t.ctx a.addr = some l → plain (l.phys a.addr) n → Memory.wf s = true →
      v = bytesNat (s.readBytes (l.phys a.addr) n) ∧ Stored s s' (l.phys a.addr) (natBytes ((new v).getD v) n)

end Sys2Proof.Machine
end

