-- ==== Sys2Proof/Values.lean ====
section
/-! DEFINITION. The results of the computing instructions, said a second time from the manual's tables with bit-vector
operations and exact integers, for the statements: widths (R98, R103), narrowing (R32), fields, bytes and sub-elements. -/

namespace Sys2Proof.Machine

/-! ## Opcodes (R74) -/

/-- The opcode slots of R74's table, row by row. -/
def opcodeSlots : List Nat :=
  (List.range' 0x001 10) ++ (List.range' 0x010 10) ++ [0x020, 0x021, 0x022, 0x023, 0x025, 0x026, 0x029] ++ (List.range' 0x030 16) ++
  [0x040, 0x041, 0x042, 0x043, 0x045, 0x046, 0x047, 0x048, 0x049, 0x04D, 0x04E, 0x04F] ++ (List.range' 0x050 5) ++
  (List.range' 0x060 11) ++ (List.range' 0x070 7) ++ (List.range' 0x080 4) ++ (List.range' 0x090 7) ++ (List.range' 0x0A0 3) ++
  (List.range' 0x0C0 10) ++ [0x0D0, 0x0D1] ++ (List.range' 0x0E0 4) ++ (List.range' 0x0F0 5) ++ (List.range' 0x100 5) ++
  (List.range' 0x110 10) ++ [0x120] ++ (List.range' 0x130 11)

/-! ## Operands and results at the width of a type (R67, R98) -/

/-- Writes of one of two results, by the width of an integer type. -/
def byWidth (ty : IntTy) (d : BitVec 8) (v32 : Word) (v64 : DWord) : List RWrite :=
  if ty.wide then write64 d v64 else write32 d v32

/-- A function of one or two sources at the type's width; the immediate of F1 is sign-extended to it (R67). -/
def Env.map1 (e : Env) (ty : IntTy) (d : BitVec 8) (a : Src) (f : {w : Nat} → BitVec w → BitVec w) : List RWrite :=
  byWidth ty d (f (e.src32 a)) (f (e.src64 a))
def Env.map2 (e : Env) (ty : IntTy) (d : BitVec 8) (a b : Src) (f : {w : Nat} → BitVec w → BitVec w → BitVec w) : List RWrite :=
  byWidth ty d (f (e.src32 a) (e.src32 b)) (f (e.src64 a) (e.src64 b))
def Env.mapI (e : Env) (ty : IntTy) (d a : BitVec 8) (imm : BitVec 31) (f : {w : Nat} → BitVec w → BitVec w → BitVec w) :
    List RWrite :=
  byWidth ty d (f (e.src32 (.g a)) (imm.signExtend 32)) (f (e.src64 (.g a)) (imm.signExtend 64))
/-- The registers of one, two and three sources of a type and of a destination of it. -/
def uses1 (ty : IntTy) (d : BitVec 8) (a : Src) : Uses := { reads := namesTy ty a, dests := dstTy ty d }
def uses2 (ty : IntTy) (d : BitVec 8) (a b : Src) : Uses := { reads := namesTy ty a ++ namesTy ty b, dests := dstTy ty d }
/-- With an amount or field position in one 32-bit register (R105). -/
def usesN (ty : IntTy) (d : BitVec 8) (a b : Src) : Uses := { reads := namesTy ty a ++ names32 b, dests := dstTy ty d }
/-- 32-bit sources and one 32-bit destination. -/
def uses32 (d : BitVec 8) : List Src → Uses
  | [] => { dests := [.g d.toNat] }
  | a :: r => { reads := r.foldl (fun l x => l ++ names32 x) (names32 a), dests := [.g d.toNat] }

/-! ## Exact integers (R30, R32, R103) -/

/-- The integer that a bit vector holds under a signedness. -/
def intOf {w : Nat} (signed : Bool) (x : BitVec w) : Int := if signed then x.toInt else x.toNat
def leastOf (w : Nat) (signed : Bool) : Int := if signed then -2 ^ (w - 1) else 0
def greatestOf (w : Nat) (signed : Bool) : Int := if signed then 2 ^ (w - 1) - 1 else 2 ^ w - 1
/-- An exact result in w bits: clamped to the type's range or reduced modulo 2^w. -/
def fitTo (w : Nat) (signed sat : Bool) (x : Int) : BitVec w :=
  BitVec.ofInt w (if sat then max (leastOf w signed) (min (greatestOf w signed) x) else x)
def outside (w : Nat) (signed : Bool) (x : Int) : Bool := decide (x < leastOf w signed ∨ greatestOf w signed < x)

/-- A source as an integer of the type. -/
def Env.value (e : Env) (ty : IntTy) (a : Src) : Int :=
  if ty.wide then intOf ty.signed (e.src64 a) else intOf ty.signed (e.src32 a)
def immValue (ty : IntTy) (imm : BitVec 31) : Int :=
  if ty.wide then intOf ty.signed (imm.signExtend 64) else intOf ty.signed (imm.signExtend 32)
/-- d takes the exact result x, and the second destination whether it lies outside the type (R103). -/
def exactly (ty : IntTy) (sat : Bool) (d : BitVec 8) (pq : Option (BitVec 3)) (x : Int) : List RWrite :=
  byWidth ty d (fitTo 32 ty.signed sat x) (fitTo 64 ty.signed sat x) ++
    writeSecond pq (if ty.wide then outside 64 ty.signed x else outside 32 ty.signed x)

/-! ## Shifts and fields (R33, R106, R107) -/

/-- FSHL: bits [2w − 1 : w] of (a : c) << n. -/
def funnel (n : Nat) {w : Nat} (a c : BitVec w) : BitVec w := ((a ++ c) <<< n).extractLsb' w w
/-- BFX of min(len, w) bits from pos. -/
def fieldOut (signed : Bool) (pos len : Nat) {w : Nat} (a : BitVec w) : BitVec w :=
  if signed then ((a.sshiftRight pos).truncate (min len w)).signExtend w
  else ((a >>> pos).truncate (min len w)).zeroExtend w
/-- BFI of min(len, w) bits at pos. -/
def fieldIn (pos len : Nat) {w : Nat} (a base : BitVec w) : BitVec w :=
  let m : BitVec w := ((BitVec.allOnes (min len w)).zeroExtend w) <<< pos
  (base &&& ~~~m) ||| ((a <<< pos) &&& m)

/-- The low 8 bits of a 32-bit source, and its next 8 (R105). -/
def Env.amt (e : Env) (b : Src) : Nat := ((e.src32 b).extractLsb' 0 8).toNat
def Env.len (e : Env) (b : Src) : Nat := ((e.src32 b).extractLsb' 8 8).toNat

/-! ## Bytes and sub-elements (R31, R108, R109) -/

/-- A result byte of BSEL from the pool and its selector field. -/
def selected (pool : DWord) (f : BitVec 8) : Byte :=
  let b : Byte := pool.extractLsb' (8 * (f.extractLsb' 0 3).toNat) 8
  match (f.extractLsb' 3 2).toNat with
  | 0 => b
  | 1 => if b.msb then 0xFF else 0x00
  | 2 => 0x00
  | _ => 0xFF
/-- BSEL's result: low and high are the two halves of the pool. -/
def selection (low high sel : Word) : Word :=
  let g (i : Nat) : Byte := selected (high ++ low) (sel.extractLsb' (8 * i) 8)
  g 3 ++ g 2 ++ g 1 ++ g 0

/-- The word of four bytes or two halves, each computed from the same places of two sources. -/
def parts (pk : Pack) (x y : Word) (f : {w : Nat} → BitVec w → BitVec w → BitVec w) : Word :=
  match pk with
  | .x8 =>
    let g (i : Nat) : BitVec 8 := f (x.extractLsb' (8 * i) 8) (y.extractLsb' (8 * i) 8)
    g 3 ++ g 2 ++ g 1 ++ g 0
  | .x16 =>
    let g (i : Nat) : BitVec 16 := f (x.extractLsb' (16 * i) 16) (y.extractLsb' (16 * i) 16)
    g 1 ++ g 0
/-- A sub-element result, exact and then narrowed. -/
def partly (uns sat : Bool) (op : Int → Int → Nat → Int) {w : Nat} (x y : BitVec w) : BitVec w :=
  fitTo w (!uns) sat (op (intOf (!uns) x) (intOf (!uns) y) (y.toNat % 256))

/-! ## Exact numbers of floating values (R35, R110) -/

/-- The number a finite value is. -/
def FVal.rat : FVal → ℚ
  | .fin s m e => (if s then -1 else 1) * (m : ℚ) * (2 : ℚ) ^ e
  | _ => 0

/-- The five floating formats of R34. -/
def floatFormats : List FFmt := [f32, f16, bf16, e5m2, e4m3]
/-- The number of an encoding that is finite. -/
def FFmt.num? (f : FFmt) (c : Nat) : Option ℚ :=
  match f.read c with
  | .fin s m e => some (FVal.fin s m e).rat
  | _ => none
/-- r is x rounded by a mode among the numbers that p holds of (R37). -/
def IsRounding (p : ℚ → Prop) (rm : Rm) (x r : ℚ) : Prop :=
  match rm with
  | .rne => ∀ y, p y → |x - r| ≤ |x - y|
  | .rtz => |r| ≤ |x| ∧ ∀ y, p y → |y| ≤ |x| → |y| ≤ |r|
  | .rup => x ≤ r ∧ ∀ y, p y → x ≤ y → r ≤ y
  | .rdn => r ≤ x ∧ ∀ y, p y → y ≤ x → y ≤ r

/-- The operand that FMIN or FMAX returns; first says that b stands before a in the order (R111). -/
def chosen (x y : FVal) (first : Bool) (a b : Word) : Word :=
  if x.isNan then (if y.isNan then a else b) else if y.isNan then a else if first then b else a
/-- The order of FMIN and FMAX: numerical, and −0 below +0 (R111). -/
def FVal.before (x y : FVal) : Bool :=
  x.lt y || (match x, y with | .fin true 0 _, .fin false 0 _ => true | _, _ => false)

/-! ## The consumer counter (R330) -/

/-- The blocks of a list leave the finished ones of a queue in turn, each with an addition of 1 to the consumer counter at its level. -/
def State.Counts (i j : Nat) : List (Nat × Bool) → State → State → Prop
  | [], s, s' => s' = s
  | x :: r, s, s' =>
    let s1 := s.updQueue i j fun q => { q with finished := q.finished.filter (fun y => y.1 != x.1), finishedTo := x.1 + 1 }
    ∃ k s2, s1.schedAdd i (s.queueAt i j).cons.toNat s1.schedClock x.2 = .ok (k, s2) ∧ State.Counts i j r (s2.setSchedClock k) s'

/-! ## A carve-out that removes scratchpad (R163) -/

/-- No copy is pending on the lines that the request removes. -/
def Team.freedLines (t : Team) (r : Rendezvous) : Prop := ∀ i, r.bytes / 128 ≤ i → (t.line i).pending = 0
/-- What a granted shrink leaves: the new registers, scratchpad and L1 share; the bytes and the whole lines below the new size stand,
nothing is left of those beyond it; the arrived threads go on at the next word. -/
def Shrunk (t t' : Team) (r : Rendezvous) : Prop :=
  t'.nregs = r.n ∧ t'.bytes = r.bytes ∧ t'.l1 = r.l1 ∧ t'.carve = none ∧
  (∀ x, amGet 0 t'.scratch x = if x < r.bytes then amGet 0 t.scratch x else 0) ∧ (∀ i, i ∈ t'.lost ↔ i ∈ t.lost ∧ i < r.bytes) ∧
  (∀ i, i < r.bytes / 128 → t'.line i = t.line i) ∧
  (∀ i, r.bytes / 128 ≤ i → (t'.line i).held = false ∧ (t'.line i).pending = 0) ∧
  ∀ g l th, t.thread? g l = some th → (r.arrivals.any fun a => a.1 == g && a.2.1 == l) = true →
    ∃ th', t'.thread? g l = some th' ∧ th'.pc = th.pc + 10 ∧ th'.park = none ∧
      th'.regs = th.regs.take r.n ++ List.replicate (r.n - t.nregs) 0
/-- A granted shrink that waits for copies pending on the lines that it removes: their hold flags are gone, and nothing else has
changed. -/
def ShrinkWaits (t t' : Team) (r : Rendezvous) : Prop :=
  t' = { t with lines := t'.lines, carve := some { r with granting := true, queued := false } } ∧
  ∀ i, (t'.line i).pending = (t.line i).pending ∧ (t'.line i).held = ((t.line i).held && decide (i < r.bytes / 128))

/-- One more copy is pending on each of the lines; the team is as before but for its lines, which are held as before. -/
def LinesPend (t t' : Team) (lines : List Nat) : Prop :=
  t' = { t with lines := t'.lines } ∧ (amWf Line.reset 0 t.lines = true → amWf Line.reset 0 t'.lines = true ∧
    ∀ i, (t'.line i).held = (t.line i).held ∧ (t'.line i).pending = (t.line i).pending + if i ∈ lines then 1 else 0)

/-! ## Streamed operands of the term array (R210) -/

/-- The page of an address of a stream: one that the operation has pinned, or the one that its team's translation gives it to read. -/
def State.streamLeaf (s : State) (c : Nat) (o : MatOp) (va : Nat) : Option Leaf :=
  match o.pins.find? fun x => decide (x.va ≤ va) && decide (va < x.va + x.size) with
  | some x => some (leafOf x)
  | none => match s.checkPage c o.ctx o.sup va false false with
    | .ok l => some l
    | _ => none
/-- The byte at an address of a stream, in the aligned word of 8 bytes that holds it. -/
def State.streamByte (s : State) (c : Nat) (o : MatOp) (va : Nat) : Byte :=
  match s.streamLeaf c o (va / 8 * 8) with
  | some l => s.readByte (l.phys (va / 8 * 8) + va % 8)
  | none => 0
/-- Code and scale byte of the element of row i and column j of a stream: of .b4, two codes in a byte, the even column's in its low
half, and a scale byte for 32 columns; of the other formats the bytes of the code, lowest first. -/
def State.streamElem (s : State) (c : Nat) (o : MatOp) (x : Stream) (i j : Nat) : Nat × Nat :=
  let byte (n : Nat) : Byte := s.streamByte c o (fld x.ptr 0 56 + x.disp + n)
  let k := x.col0 + j
  if x.fmt = .b4 then ((byte (i * x.pitch + k / 2)).toNat / 16 ^ (k % 2) % 16,
    (byte (x.rows * x.pitch + i * ((x.full + 31) / 32) + k / 32)).toNat)
  else
    let w := elemBits x.fmt / 8
    (bytesNat ((List.range w).map fun n => byte (i * x.pitch + k * w + n)), 0)
/-- The aligned words that hold a span of a stream can be read for a block: each has a page, carries the pointer's tag, is not lost
and not of the control region, and no round holds it; one that the array or another participant has read already is as memory is. -/
def State.streamReady (s : State) (c : Nat) (o : MatOp) (b : Nat) (isB : Bool) (x : Stream) (sp : Nat × Nat) : Prop :=
  let tag := fld x.ptr 56 4
  ∀ i < sp.2,
    let va := (fld x.ptr 0 56 + x.disp + sp.1 + i) / 8 * 8
    ∃ l, s.streamLeaf c o va = some l ∧
      let pa := l.phys va
      plain pa 8 ∧ s.lostIn pa 8 = none ∧ s.readHeld (some c) pa 8 = false ∧
      ((o.pins.all fun x => !(decide (x.va ≤ va) && decide (va < x.va + x.size))) = true → s.gtag pa = BitVec.ofNat 4 tag) ∧
      ∀ d k n, s.keptWord c o b isB (va + tag * 2 ^ 56) = some (d, k, n) → d = s.readBytes pa 8

/-! ## Threads that issue -/

/-- Thread th of lane l of a group is ready with the word w (R158): it has not exited, is neither parked nor held nor withdrawn, its
group waits for no line, no thread of the group waits at a word for its result, every untagged result that is due has been written, every
tag is free or delivered, and the line that serves its PC is there. -/
def State.fetchReady (s : State) (c : Nat) (t : Team) (g l : Nat) (th : Thread) (w : IWord) : Prop :=
  th.exited = false ∧ th.park = none ∧ th.hold = none ∧ th.yielded = false ∧
  (∀ x ∈ th.windows, x.left ≠ 0 ∨ x.written = true) ∧ (∀ x ∈ th.tags, ∀ y, x = some y → y.delivered = true) ∧
  (∃ gr, t.groups[g]? = some gr ∧ gr.waitLine = none ∧ gr.threads[l]? = some th ∧ ∀ x ∈ gr.threads, x.awaits = []) ∧
  ∃ x, (s.core c).lineFor t.ctx t.sup th.pc th.fence = some x ∧ x.words[th.pc.toNat % 320 / 10]? = some (.word w)
/-- A lane's thread has not issued in the issue cycle of the core's next slot. -/
def State.freshIn (s : State) (c team g l : Nat) : Prop := s.nextSlot c % 2 = 0 ∨ (team, g, l) ∉ (s.core c).issued

/-- The target of a relative branch (R120). -/
def branchTarget (pc : VAddr) (off : BitVec 39) : VAddr := pc + BitVec.ofInt 56 (10 * off.toInt)

end Sys2Proof.Machine
end

