-- ==== Sys2Proof/Certificates/Slice0/Obligations.lean ====
section
/-! DEFINITION. The statements for the provers. -/

open Sys2Proof Sys2Proof.Machine

/-! ## Words (R14, R63 to R75) -/

/-- The decoder reads every well-formed instruction back from the word that the encoder gives it (R63 to R75). -/
def Obligations.DecodeOfEncode : Prop :=
  ∀ (i : Instr) (w : IWord), i.wf = true → encode i = some w → decode w = .ok i

/-- A word that decodes is the word of the well-formed instruction it decodes to: no two words mean one instruction, and no
bit of a word is ignored (R72). -/
def Obligations.EncodeOfDecode : Prop :=
  ∀ (w : IWord) (i : Instr), decode w = .ok i → i.wf = true ∧ encode i = some w

/-- Four words written out from the manual's field tables decode to their instructions. A word is refused as a reserved opcode
exactly if its opcode is no slot of R74's table (R14, R74). -/
def Obligations.ReservedWords : Prop :=
 (let h : Hdr := { la := 0, av := false, tag := 0, wait := 0, gn := false, gp := 7 }
  decode 0x0080_0003_8000_0000_0000 = .ok (.nop h) ∧
  decode 0x4800_0003_807F_FFFF_FFFD = .ok (.bra h (-3)) ∧
  decode 0x8010_0003_8000_0000_0003 = .ok (.bara h true false 3 0 (.g 0)) ∧
  decode 0x9000_0003_8006_0040_0002 = .ok (.lnch h false 0 2 (.k 12))) ∧
 (∀ w : IWord, (decode w = .error .reservedOpcode ↔ opcodeSlots.contains (w.extractLsb' 71 9).toNat = false))

/-! ## Computing instructions (R31 to R33, R65 to R68, R101 to R109, R119) -/

/-- Logic (R105). Shifts, rotation and the funnel shift: the amount is the low 8 bits of b or of the immediate, whatever the
width (R33, R105, R106). In F1 FSHL's low word is d. -/
def Obligations.LogicAndShifts : Prop :=
 (∀ (h : Hdr) (ty : IntTy) (d : BitVec 8) (a b : Src) (r : BitVec 8) (imm : BitVec 31),
    Computes (.andF0 h ty d a b) h (uses2 ty d a b) (fun e => e.map2 ty d a b fun x y => x &&& y) ∧
    Computes (.andF1 h ty d r imm) h (uses1 ty d (.g r)) (fun e => e.mapI ty d r imm fun x y => x &&& y) ∧
    Computes (.orF0 h ty d a b) h (uses2 ty d a b) (fun e => e.map2 ty d a b fun x y => x ||| y) ∧
    Computes (.orF1 h ty d r imm) h (uses1 ty d (.g r)) (fun e => e.mapI ty d r imm fun x y => x ||| y) ∧
    Computes (.xorF0 h ty d a b) h (uses2 ty d a b) (fun e => e.map2 ty d a b fun x y => x ^^^ y) ∧
    Computes (.xorF1 h ty d r imm) h (uses1 ty d (.g r)) (fun e => e.mapI ty d r imm fun x y => x ^^^ y) ∧
    Computes (.andnF0 h ty d a b) h (uses2 ty d a b) (fun e => e.map2 ty d a b fun x y => x &&& ~~~y) ∧
    Computes (.andnF1 h ty d r imm) h (uses1 ty d (.g r)) (fun e => e.mapI ty d r imm fun x y => x &&& ~~~y) ∧
    Computes (.not h ty d a) h (uses1 ty d a) (fun e => e.map1 ty d a fun x => ~~~x)) ∧
 (∀ (h : Hdr) (ty : IntTy) (d : BitVec 8) (a b c : Src) (r n : BitVec 8) (imm : BitVec 31),
    let k := (imm.extractLsb' 0 8).toNat
    Computes (.shlF0 h ty d a b) h (usesN ty d a b) (fun e => e.map1 ty d a fun x => x <<< e.amt b) ∧
    Computes (.shlF1 h ty d r imm) h (uses1 ty d (.g r)) (fun e => e.map1 ty d (.g r) fun x => x <<< k) ∧
    Computes (.shrF0 h ty d a b) h (usesN ty d a b) (fun e => e.map1 ty d a fun x => x >>> e.amt b) ∧
    Computes (.shrF1 h ty d r imm) h (uses1 ty d (.g r)) (fun e => e.map1 ty d (.g r) fun x => x >>> k) ∧
    Computes (.sarF0 h ty d a b) h (usesN ty d a b) (fun e => e.map1 ty d a fun x => x.sshiftRight (e.amt b)) ∧
    Computes (.sarF1 h ty d r imm) h (uses1 ty d (.g r)) (fun e => e.map1 ty d (.g r) fun x => x.sshiftRight k) ∧
    Computes (.rolF0 h ty d a b) h (usesN ty d a b) (fun e => e.map1 ty d a fun x => x.rotateLeft (e.amt b)) ∧
    Computes (.rolF1 h ty d r imm) h (uses1 ty d (.g r)) (fun e => e.map1 ty d (.g r) fun x => x.rotateLeft k) ∧
    Computes (.fshlF0 h ty d a b c) h { reads := namesTy ty a ++ names32 b ++ namesTy ty c, dests := dstTy ty d }
      (fun e => e.map2 ty d a c fun x y => funnel (e.amt b) x y) ∧
    Computes (.fshlF1 h ty d r n) h { reads := namesTy ty (.g r) ++ dstTy ty d, dests := dstTy ty d }
      (fun e => e.map2 ty d (.g r) (.g d) fun x y => funnel n.toNat x y))

/-- Counts, reversal and bit fields (R105, R107). In F1 BFI's base is d. BSEL: in F1 the high half of the pool is d; in F0 a
selector with a reserved bit raises cause 0x03 (R86, R108). -/
def Obligations.FieldsAndBytes : Prop :=
 (∀ (h : Hdr) (ty : IntTy) (d : BitVec 8) (a b c : Src) (r pos len : BitVec 8),
    Computes (.clz h ty d a) h (uses1 ty d a) (fun e => e.map1 ty d a fun x => x.clz) ∧
    Computes (.popc h ty d a) h (uses1 ty d a) (fun e => e.map1 ty d a fun x => x.cpop) ∧
    Computes (.brev h ty d a) h (uses1 ty d a) (fun e => e.map1 ty d a fun x => x.reverse) ∧
    Computes (.bfxF0 h ty d a b) h (usesN ty d a b)
      (fun e => e.map1 ty d a fun x => fieldOut ty.signed (e.amt b) (e.len b) x) ∧
    Computes (.bfxF1 h ty d r pos len) h (uses1 ty d (.g r))
      (fun e => e.map1 ty d (.g r) fun x => fieldOut ty.signed pos.toNat len.toNat x) ∧
    Computes (.bfiF0 h ty d a b c) h { reads := namesTy ty a ++ names32 b ++ namesTy ty c, dests := dstTy ty d }
      (fun e => e.map2 ty d a c fun x y => fieldIn (e.amt b) (e.len b) x y) ∧
    Computes (.bfiF1 h ty d r pos len) h { reads := namesTy ty (.g r) ++ dstTy ty d, dests := dstTy ty d }
      (fun e => e.map2 ty d (.g r) (.g d) fun x y => fieldIn pos.toNat len.toNat x y)) ∧
 (∀ (h : Hdr) (d : BitVec 8) (a b c : Src) (r : BitVec 8) (sel : BitVec 31),
    Computes (.bselF0 h d a b c) h (uses32 d [a, b, c]) (fun e => write32 d (selection (e.src32 a) (e.src32 b) (e.src32 c)))
      (fun e => e.src32 c &&& 0xE0E0E0E0 = 0) ∧
    Traps (.bselF0 h d a b c) h (uses32 d [a, b, c]) (fun _ => { cause := 0x03 }) (fun e => e.src32 c &&& 0xE0E0E0E0 ≠ 0) ∧
    Computes (.bselF1 h d r sel) h (uses32 d [.g r, .g d])
      (fun e => write32 d (selection (e.th.g r.toNat) (e.th.g d.toNat) (sel.zeroExtend 32))))

/-- Integer arithmetic: the exact result, narrowed or clamped, and overflow (R32, R98, R103). ICMP: the condition on the
integers of the type, and its negation in the second predicate (R104). Packed integers: every sub-element by itself, exact
and then wrapped or clamped (R31, R32, R33, R109). -/
def Obligations.IntegerResults : Prop :=
 (∀ (h : Hdr) (ty : IntTy) (sat : Bool) (d : BitVec 8) (a b c : Src) (r : BitVec 8) (imm : BitVec 31) (pq : Option (BitVec 3)),
    let second (u : Uses) : Uses := { u with dests := u.dests ++ secondDst pq }
    let u2 := second (uses2 ty d a b)
    let u3 : Uses := { reads := namesTy ty a ++ namesTy ty b ++ namesTy ty c, dests := dstTy ty d ++ secondDst pq }
    let uI := uses1 ty d (.g r)
    let w : Nat := if ty.wide then 64 else 32
    Computes (.iaddF0 h ty sat d a b pq) h u2 (fun e => exactly ty sat d pq (e.value ty a + e.value ty b)) ∧
    Computes (.iaddF1 h ty sat d r imm) h uI (fun e => exactly ty sat d none (e.value ty (.g r) + immValue ty imm)) ∧
    Computes (.isubF0 h ty sat d a b pq) h u2 (fun e => exactly ty sat d pq (e.value ty a - e.value ty b)) ∧
    Computes (.isubF1 h ty sat d r imm) h uI (fun e => exactly ty sat d none (e.value ty (.g r) - immValue ty imm)) ∧
    Computes (.imulF0 h ty sat d a b pq) h u2 (fun e => exactly ty sat d pq (e.value ty a * e.value ty b)) ∧
    Computes (.imulF1 h ty sat d r imm) h uI (fun e => exactly ty sat d none (e.value ty (.g r) * immValue ty imm)) ∧
    Computes (.imulhF0 h ty d a b) h (uses2 ty d a b)
      (fun e => exactly ty false d none ⌊((e.value ty a * e.value ty b : Int) : ℚ) / 2 ^ w⌋) ∧
    Computes (.imulhF1 h ty d r imm) h uI
      (fun e => exactly ty false d none ⌊((e.value ty (.g r) * immValue ty imm : Int) : ℚ) / 2 ^ w⌋) ∧
    Computes (.imad h ty sat d a b c pq) h u3
      (fun e => exactly ty sat d pq (e.value ty a * e.value ty b + e.value ty c)) ∧
    Computes (.iminF0 h ty d a b) h (uses2 ty d a b) (fun e => exactly ty false d none (min (e.value ty a) (e.value ty b))) ∧
    Computes (.iminF1 h ty d r imm) h uI (fun e => exactly ty false d none (min (e.value ty (.g r)) (immValue ty imm))) ∧
    Computes (.imaxF0 h ty d a b) h (uses2 ty d a b) (fun e => exactly ty false d none (max (e.value ty a) (e.value ty b))) ∧
    Computes (.imaxF1 h ty d r imm) h uI (fun e => exactly ty false d none (max (e.value ty (.g r)) (immValue ty imm))) ∧
    (∀ wide : Bool, let t : IntTy := if wide then .s64 else .s32
      Computes (.iabs h wide sat d a pq) h (second (uses1 t d a)) (fun e => exactly t sat d pq |e.value t a|)) ∧
    Computes (.isad h ty sat d a b c pq) h u3
      (fun e => exactly ty sat d pq (|e.value ty a - e.value ty b| + e.value ty c))) ∧
 (∀ (h : Hdr) (cond : ICond) (ty : IntTy) (d : BitVec 3) (a b : Src) (r : BitVec 8) (imm : BitVec 31) (pq : Option (BitVec 3)),
    let holds (x y : Int) : Bool := match cond with
      | .eq => decide (x = y) | .ne => decide (x ≠ y) | .lt => decide (x < y) | .le => decide (x ≤ y)
    Computes (.icmpF0 h cond ty d a b pq) h { reads := namesTy ty a ++ namesTy ty b, dests := predDst d ++ secondDst pq }
      (fun e => writeP d (holds (e.value ty a) (e.value ty b)) ++ writeSecond pq (!holds (e.value ty a) (e.value ty b))) ∧
    Computes (.icmpF1 h cond ty d r imm) h { reads := namesTy ty (.g r), dests := predDst d }
      (fun e => writeP d (holds (e.value ty (.g r)) (immValue ty imm)))) ∧
 (∀ (h : Hdr) (pk : Pack) (uns sat : Bool) (d : BitVec 8) (a b : Src),
    let u := uses32 d [a, b]
    let res (sat : Bool) (op : Int → Int → Nat → Int) (e : Env) : List RWrite :=
      write32 d (parts pk (e.src32 a) (e.src32 b) fun x y => partly uns sat op x y)
    Computes (.vadd h pk uns sat d a b) h u (res sat fun x y _ => x + y) ∧
    Computes (.vsub h pk uns sat d a b) h u (res sat fun x y _ => x - y) ∧
    Computes (.vmin h pk uns d a b) h u (res false fun x y _ => min x y) ∧
    Computes (.vmax h pk uns d a b) h u (res false fun x y _ => max x y) ∧
    Computes (.vshl h pk uns sat d a b) h u (res sat fun x _ n => x * 2 ^ n))

/-- Moves, selection and predicate logic. A 32-bit result in a k register is extended by the type's signedness. NOP and PREF
write nothing and raise nothing but the hazards of their registers; YIELD withdraws its threads. LEA adds to bits [55:0] of a
pointer modulo 2^56 and keeps bits [63:56]; the second predicate says that the exact sum leaves the range (R143). -/
def Obligations.MoveResults : Prop :=
 (∀ (h : Hdr) (ty : IntTy) (d : BitVec 8) (a b : Src) (imm : BitVec 39) (p q s t : BitVec 3) (fn : BitVec 8),
    let toK (v32 : Word) (v64 : DWord) : List RWrite :=
      [.k d.toNat (if ty.wide then v64 else if ty.signed then v32.signExtend 64 else v32.zeroExtend 64)]
    Computes (.mov h false ty d a) h (uses1 ty d a) (fun e => e.map1 ty d a fun x => x) ∧
    Computes (.mov h true ty d a) h { reads := namesTy ty a, dests := [.k d.toNat] } (fun e => toK (e.src32 a) (e.src64 a)) ∧
    Computes (.movi h false ty d imm) h { dests := dstTy ty d } (fun _ => byWidth ty d (imm.truncate 32) (imm.signExtend 64)) ∧
    Computes (.movi h true ty d imm) h { dests := [.k d.toNat] } (fun _ => toK (imm.truncate 32) (imm.signExtend 64)) ∧
    Computes (.isel h ty d a b p) h { reads := namesTy ty a ++ namesTy ty b ++ predDst p, dests := dstTy ty d }
      (fun e => e.map2 ty d a b fun x y => if e.th.p p.toNat then x else y) ∧
    Computes (.pcomb h p q s t fn) h { reads := predDst q ++ predDst s ++ predDst t, dests := predDst p }
      (fun e => writeP p (match e.th.p q.toNat, e.th.p s.toNat, e.th.p t.toNat with
        | false, false, false => fn.getLsbD 0 | false, false, true => fn.getLsbD 1
        | false, true, false => fn.getLsbD 2 | false, true, true => fn.getLsbD 3
        | true, false, false => fn.getLsbD 4 | true, false, true => fn.getLsbD 5
        | true, true, false => fn.getLsbD 6 | true, true, true => fn.getLsbD 7))) ∧
 (∀ (h : Hdr) (kind : PrefKind) (m : MemArg),
    Computes (.nop h) h {} (fun _ => []) ∧
    Computes (.pref h kind m) h { reads := memNames m } (fun _ => []) ∧
    Does (.yield h) h {} (fun _ => { yielded := true })) ∧
 (∀ (h : Hdr) (d : BitVec 8) (base : Src) (b : BitVec 8) (iw : BitVec 2) (sg : Bool) (sc : BitVec 3) (pq : Option (BitVec 3))
    (a : BitVec 8) (imm : BitVec 31),
    let sum (p : DWord) (x : Int) : DWord := p.extractLsb' 56 8 ++ (p.truncate 56 + BitVec.ofInt 56 x)
    let leaves (p : DWord) (x : Int) : Bool := decide (((p.truncate 56).toNat : Int) + x < 0 ∨ 2 ^ 56 ≤ ((p.truncate 56).toNat : Int) + x)
    Computes (.leaF0 h d base b iw sg sc pq) h { reads := names64 base ++ indexNames b iw, dests := pairNames d.toNat ++ secondDst pq }
      (fun e => write64 d (sum (e.src64 base) (e.indexVal b iw sg * 2 ^ sc.toNat)) ++
        writeSecond pq (leaves (e.src64 base) (e.indexVal b iw sg * 2 ^ sc.toNat))) ∧
    Computes (.leaF1 h d a imm) h { reads := pairNames a.toNat, dests := pairNames d.toNat }
      (fun e => write64 d (sum (e.th.pair a.toNat) imm.toInt)))

/-- SRD reads each special register of R19; SWR writes s.fmt, and raises cause 0x05 for any other. -/
def Obligations.SpecialRegisters : Prop :=
  (∀ (h : Hdr) (d idx : BitVec 8) (a : Src),
    Computes (.srd h false d idx) h { dests := [.g d.toNat] } (fun e => write32 d ((e.special idx).truncate 32)) ∧
    Computes (.srd h true d idx) h { dests := pairNames d.toNat } (fun e => write64 d (e.special idx)) ∧
    Does (.swr h 0x0B a) h { reads := names32 a } (fun e => { fmt := some (e.src32 a) }) ∧
    (idx ≠ 0x0B → Traps (.swr h idx a) h { reads := names32 a } fun _ => { cause := 0x05 })) ∧
  ∀ e : Env,
    e.special 0x00 = BitVec.ofNat 64 e.l ∧ e.special 0x01 = BitVec.ofNat 64 e.gr.slot ∧
    e.special 0x02 = BitVec.ofNat 64 e.g ∧ e.special 0x03 = BitVec.ofNat 64 (e.t.index % 2 ^ 32) ∧
    e.special 0x04 = BitVec.ofNat 64 e.b.core ∧ e.special 0x05 = BitVec.ofNat 64 (e.s.siteOf e.b.core) ∧
    e.special 0x06 = BitVec.ofNat 64 (e.t.cluster % 2 ^ 24 * 2 ^ 8 + e.t.cx * 2 ^ 4 + e.t.cy) ∧
    e.special 0x07 = BitVec.ofNat 64 ((if e.t.sup then 2 ^ 16 else 0) + e.t.ctx) ∧
    e.special 0x08 = BitVec.ofNat 64 e.s.cycle ∧ e.special 0x09 = BitVec.ofNat 64 (e.t.relocs % 2 ^ 32) ∧
    e.special 0x0A = BitVec.ofNat 64 (e.s.passOf e.b.core) ∧ e.special 0x0B = e.th.fmt.zeroExtend 64

/-! ## Floating point (R34 to R43, R110 to R118) -/

/-- The sum, the product and the order of finite values are those of the numbers they are; infinities and NaNs by R110, the
sign of a zero sum by R37; that an exact zero difference takes the rule on the operands as written, so that (−0) − (−0) is −0, is the
model's reading (log 14). Reading an encoding and writing the value back gives the encoding, for every one that is not a
NaN, by every mode (R35, R36). A finite value that is not beyond the greatest finite number of the format is rounded as R37
defines: to the nearest encodable number, on a tie to the one whose least significant bit is 0, or to the next one in the
mode's direction. One beyond it gives that number or the infinity, by the mode, as R38's table says. -/
def Obligations.NumbersAndRounding : Prop :=
 (∀ (rm : Rm) (s t : Bool) (m n : Nat) (e f : Int),
    let x : FVal := .fin s m e
    let y : FVal := .fin t n f
    (x.add rm y).rat = x.rat + y.rat ∧ (x.mul y).rat = x.rat * y.rat ∧ (x.lt y = true ↔ x.rat < y.rat) ∧
    (x.eq y = true ↔ x.rat = y.rat) ∧ (x.mul y).sign = (s ^^ t) ∧
    (x.rat + y.rat = 0 → (x.add rm y).sign = if m = 0 ∧ n = 0 ∧ s = t then s else decide (rm = .rdn)) ∧
    (x.sub rm y).rat = x.rat - y.rat ∧
    (x.rat - y.rat = 0 → (x.sub rm y).sign = if m = 0 ∧ n = 0 ∧ s = t then s else decide (rm = .rdn)) ∧
    (FVal.inf s).add rm y = .inf s ∧ x.add rm (.inf t) = .inf t ∧
    (FVal.inf s).add rm (.inf t) = (if s = t then .inf s else .nan) ∧
    (FVal.inf s).mul y = (if n = 0 then .nan else .inf (s ^^ t)) ∧ (FVal.inf s).mul (.inf t) = .inf (s ^^ t) ∧
    FVal.nan.add rm y = .nan ∧ x.add rm .nan = .nan ∧ FVal.nan.mul y = .nan ∧ x.mul .nan = .nan) ∧
 (∀ f ∈ floatFormats, ∀ (rm : Rm) (c : Nat), c < 2 ^ f.w → (f.read c).isNan = false → f.write rm (f.read c) = c) ∧
 (∀ f ∈ floatFormats, ∀ (rm : Rm) (s : Bool) (m : Nat) (e : Int),
    |(FVal.fin s m e).rat| ≤ (f.read f.maxc).rat →
    ∃ r, f.num? (f.write rm (.fin s m e)) = some r ∧
      IsRounding (fun y => ∃ c, c < 2 ^ f.w ∧ f.num? c = some y) rm (FVal.fin s m e).rat r ∧
      (rm = .rne → ∀ y, (∃ c, c < 2 ^ f.w ∧ f.num? c = some y) → y ≠ r → |(FVal.fin s m e).rat - y| = |(FVal.fin s m e).rat - r| →
        f.write rm (.fin s m e) % 2 = 0)) ∧
 (∀ f ∈ floatFormats, ∀ (rm : Rm) (s : Bool) (m : Nat) (e : Int),
    let x := |(FVal.fin s m e).rat|
    let most : ℚ := (f.read f.maxc).rat
    let next : ℚ := if f = f16 ∨ f = e5m2 then 2 ^ 16 else 2 ^ 128
    let infinite : Prop := f ≠ e4m3 ∧ match rm with | .rne => most + next ≤ 2 * x | .rtz => False | .rup => s = false | .rdn => s = true
    most < x → f.read (f.write rm (.fin s m e)) = .inf s ∧ infinite ∨
      f.num? (f.write rm (.fin s m e)) = some (if s then -most else most) ∧ ¬ infinite)

/-- Floating arithmetic of .f32 values, rounded once, and of pairs of .f16 values (R110, R113). FMIN, FMAX, FABS, FNEG and
FCMP (R111, R112). -/
def Obligations.FloatResults : Prop :=
 (∀ (h : Hdr) (rm : Rm) (d : BitVec 8) (a b c : Src),
    let two (f : FVal → FVal → FVal) (e : Env) : List RWrite := write32 d (BitVec.ofNat 32 (f32.write rm (f (e.f32 a) (e.f32 b))))
    let half (x : Word) (i : Nat) : FVal := f16.read (x.extractLsb' (16 * i) 16).toNat
    let pair (f : Nat → FVal) : List RWrite :=
      write32 d ((BitVec.ofNat 16 (f16.write rm (f 1)) ++ BitVec.ofNat 16 (f16.write rm (f 0)) : BitVec 32))
    Computes (.fadd h rm d a b) h (uses32 d [a, b]) (two fun x y => x.add rm y) ∧
    Computes (.fsub h rm d a b) h (uses32 d [a, b]) (two fun x y => x.sub rm y) ∧
    Computes (.fmul h rm d a b) h (uses32 d [a, b]) (two fun x y => x.mul y) ∧
    Computes (.fma h rm d a b c) h (uses32 d [a, b, c])
      (fun e => write32 d (BitVec.ofNat 32 (f32.write rm (((e.f32 a).mul (e.f32 b)).add rm (e.f32 c))))) ∧
    Computes (.pkfma h rm d a b c) h (uses32 d [a, b, c])
      (fun e => pair fun i => ((half (e.src32 a) i).mul (half (e.src32 b) i)).add rm (half (e.src32 c) i)) ∧
    Computes (.pkadd h rm d a b) h (uses32 d [a, b]) (fun e => pair fun i => (half (e.src32 a) i).add rm (half (e.src32 b) i))) ∧
 (∀ (h : Hdr) (cond : FCond) (d : BitVec 8) (p : BitVec 3) (a b : Src) (pq : Option (BitVec 3)),
    let holds (x y : FVal) : Bool :=
      let unordered := x.isNan || y.isNan
      match cond with
      | .eq => !unordered && x.eq y | .ne => unordered || !x.eq y | .lt => !unordered && x.lt y
      | .le => !unordered && (x.lt y || x.eq y) | .gt => !unordered && y.lt x | .ge => !unordered && (y.lt x || x.eq y)
      | .un => unordered | .ord => !unordered
    Computes (.fmin h d a b) h (uses32 d [a, b])
      (fun e => write32 d (chosen (e.f32 a) (e.f32 b) ((e.f32 b).before (e.f32 a)) (e.src32 a) (e.src32 b))) ∧
    Computes (.fmax h d a b) h (uses32 d [a, b])
      (fun e => write32 d (chosen (e.f32 a) (e.f32 b) ((e.f32 a).before (e.f32 b)) (e.src32 a) (e.src32 b))) ∧
    Computes (.fabs h d a) h (uses32 d [a]) (fun e => write32 d (BitVec.cons false ((e.src32 a).truncate 31))) ∧
    Computes (.fneg h d a) h (uses32 d [a]) (fun e => write32 d (BitVec.cons (!(e.src32 a).msb) ((e.src32 a).truncate 31))) ∧
    Computes (.fcmp h cond p a b pq) h { reads := names32 a ++ names32 b, dests := predDst p ++ secondDst pq }
      (fun e => writeP p (holds (e.f32 a) (e.f32 b)) ++ writeSecond pq (!holds (e.f32 a) (e.f32 b))))

/-- The special functions. Each form completes: when its bundle issues, exec answers the next state in which every thread that
performs it is given one rounding of the function's value, with R115's table of special inputs; FLOG2 of 1, FSIN of an integer other
than −0 and FCOS of a half-integer give +0 (R115). The reciprocals that are
rounded are exact, or odd in their last place and within one unit of it; those of the other functions are the model's evaluation
to 704 binary places (log 15). -/
def Obligations.SpecialFunctions : Prop :=
  (∀ (h : Hdr) (rm : Rm) (d : BitVec 8) (a : Src),
    let one (f : FVal → FVal) (e : Env) : List RWrite := write32 d (BitVec.ofNat 32 (f32.write rm (f (f32.read (e.src32 a).toNat))))
    Computes (.frcp h rm d a) h (uses32 d [a]) (one vRcp) ∧ Computes (.frsq h rm d a) h (uses32 d [a]) (one vRsq) ∧
    Computes (.fexp2 h rm d a) h (uses32 d [a]) (one vExp2) ∧ Computes (.flog2 h rm d a) h (uses32 d [a]) (one vLog2) ∧
    Computes (.fsin h rm d a) h (uses32 d [a]) (one vSin) ∧ Computes (.fcos h rm d a) h (uses32 d [a]) (one vCos) ∧
    Computes (.ftanh h rm d a) h (uses32 d [a]) (one vTanh)) ∧
  (∀ f ∈ [vRcp, vRsq, vExp2, vLog2, vSin, vCos, vTanh], f .nan = .nan) ∧
  (∀ c < 2 ^ 32, ∀ s m e, f32.read c = .fin s m e →
    let a : FVal := .fin s m e
    let plusZero (y : FVal) : Prop := y.isZero ∧ y.sign = false
    (a.rat = 1 → plusZero (vLog2 a)) ∧ (∀ n : ℤ, a.rat = n → ¬ (s = true ∧ m = 0) → plusZero (vSin a)) ∧
    ∀ n : ℤ, a.rat = n + 1 / 2 → plusZero (vCos a)) ∧
  ∀ (s : Bool) (e : Int),
    let z : FVal := .fin s 0 e
    vRcp z = .inf s ∧ (vRcp (.inf s)).isZero ∧ (vRcp (.inf s)).sign = s ∧ vRsq z = .inf s ∧
    (vRsq (.inf false)).isZero ∧ (vRsq (.inf false)).sign = false ∧ vRsq (.inf true) = .nan ∧
    (∀ m, 0 < m → vRsq (.fin true m e) = .nan ∧ vLog2 (.fin true m e) = .nan) ∧
    (vExp2 (.inf true)).isZero ∧ (vExp2 (.inf true)).sign = false ∧ vExp2 (.inf false) = .inf false ∧ (vExp2 z).rat = 1 ∧
    vLog2 z = .inf true ∧ vLog2 (.inf false) = .inf false ∧ vLog2 (.inf true) = .nan ∧
    (vSin z).isZero ∧ (vSin z).sign = s ∧ vSin (.inf s) = .nan ∧ vCos (.inf s) = .nan ∧
    (vTanh z).isZero ∧ (vTanh z).sign = s ∧ (vTanh (.inf s)).rat = (if s then -1 else 1) ∧
    ∀ m, 0 < m →
      (∃ n, vRcp (.fin s m e) = .fin s n (-e - 129) ∧
        (n * m = 2 ^ 129 ∨ n % 2 = 1 ∧ (n - 1) * m < 2 ^ 129 ∧ 2 ^ 129 < (n + 1) * m)) ∧
      -- m × 2^e = k × 2^(2(e / 2))
      let k := if e % 2 = 0 then m else 2 * m
      ∃ n, vRsq (.fin false m e) = .fin false n (-(e / 2) - 129) ∧
        (n * n * k = 2 ^ 258 ∨ n % 2 = 1 ∧ (n - 1) * (n - 1) * k < 2 ^ 258 ∧ 2 ^ 258 < (n + 1) * (n + 1) * k)

/-- Conversions. Each form completes: when its bundle issues, exec answers the next state in which every thread that performs it
is given the result. CVT by the kinds of its two types, of which it has one of the four pairs: rounded once, clamped where the destination is an integer, with invalid in the second
predicate (R40 to R43, R116). QNT, DQNT and TRCD (R47, R48, R117 to R119). -/
def Obligations.ConversionResults : Prop :=
 (∀ (h : Hdr) (rm : Rm) (dst src : CvtTy) (d : BitVec 8) (a : Src) (pq : Option (BitVec 3)),
    let u : Uses := { reads := if src.wide then names64 a else names32 a
                      dests := (if dst.wide then pairNames d.toNat else [.g d.toNat]) ++ secondDst pq }
    let raw (e : Env) : DWord := if src.wide then e.src64 a else (e.src32 a).zeroExtend 64
    let put (x : Int) (invalid : Bool) : List RWrite :=
      (if dst.wide then write64 d (BitVec.ofInt 64 x) else write32 d (BitVec.ofInt 32 x)) ++ writeSecond pq invalid
    let int (e : Env) : Int := intOf (cvtSigned src) ((raw e).truncate (cvtWidth src))
    let clamp (x : Int) : Int := max (leastOf (cvtWidth dst) (cvtSigned dst)) (min (greatestOf (cvtWidth dst) (cvtSigned dst)) x)
    (∀ f g, cvtFloat src = some f → cvtFloat dst = some g →
      Computes (.cvt h rm dst src d a pq) h u (fun e => put (g.write rm (f.read (raw e).toNat) : Nat) false)) ∧
    (∀ f, cvtFloat src = some f → cvtFloat dst = none →
      Computes (.cvt h rm dst src d a pq) h u (fun e => match f.read (raw e).toNat with
        | .nan => put 0 true
        | .inf s => put (if s then leastOf (cvtWidth dst) (cvtSigned dst) else greatestOf (cvtWidth dst) (cvtSigned dst)) true
        | .fin s m q => put (clamp (if s then -(roundNat rm s m q : Int) else roundNat rm s m q)) false)) ∧
    (∀ g, cvtFloat src = none → cvtFloat dst = some g →
      Computes (.cvt h rm dst src d a pq) h u
        (fun e => put (g.write rm (.fin (decide (int e < 0)) (int e).natAbs 0) : Nat) false)) ∧
    (cvtFloat src = none → cvtFloat dst = none →
      Computes (.cvt h rm dst src d a pq) h u (fun e => put (clamp (int e)) false))) ∧
 (∀ (h : Hdr) (dst : DqTy) (rm : Rm) (d : BitVec 8) (a b c : Src) (i : BitVec 3) (pq : Option (BitVec 3)) (fmt : ElemFmt) (nib : Bool),
    let u : Uses := { reads := names32 a ++ names32 b, dests := [.g d.toNat] ++ secondDst pq }
    let f (dst : DqTy) : FFmt := match dst with | .f32 => f32 | .f16 => f16 | .bf16 => bf16
    Computes (.qntElement h d a b pq) h u (fun e =>
      write32 d (BitVec.ofNat 32 (b4Quant (e.f32 a) ((e.src32 b).extractLsb' 0 8).toNat)) ++ writeSecond pq (e.f32 a).isNan) ∧
    Computes (.qntScale h d a b pq) h u (fun e =>
      write32 d (BitVec.ofNat 32 (b4Scale ((e.src32 b).extractLsb' 0 2).toNat (e.f32 a))) ++ writeSecond pq (e.f32 a).isNan) ∧
    Computes (.dqnt h dst rm d a b i) h (uses32 d [a, b]) (fun e =>
      write32 d (BitVec.ofNat 32 ((f dst).write rm
        (b4Val ((e.src32 a).extractLsb' (4 * i.toNat) 4).toNat ((e.src32 b).extractLsb' 0 8).toNat)))) ∧
    Computes (.trcd h fmt nib d a b c) h { reads := names32 a ++ names32 b ++ names32 c, dests := pairNames d.toNat } (fun e =>
      write64 d (BitVec.ofNat 64 (trcdValue fmt nib (e.src32 a).toNat ((e.src32 b).extractLsb' 0 5).toNat
        (if fmt = .b4 then ((e.src32 c).extractLsb' 0 8).toNat else 0)))))

/-- The code that quantisation into a .b4 block gives is the nearest of its type, a tie goes to the code with bit [0] clear,
and zero is never code 8 (R48); the scale of R117 is the least that covers the bound. The non-adjacent form of a significand
adds up to it. The terms of every finite element, from the highest shift down, add up to its value, no two stand at
neighbouring positions, a zero has none, and none has more than its format's most (R49 to R51). -/
def Obligations.TermLists : Prop :=
 ((∀ (s : Bool) (m : Nat) (e : Int) (scale : Nat), scale < 256 → scale % 64 ≠ 63 →
    let y : ℚ := (FVal.fin s m e).rat * 2 ^ (35 - (scale % 64 : Nat) : Int)
    let v (k : Nat) : ℚ := b4Code (scale / 64) k
    let c := b4Quant (.fin s m e) scale
    c < 16 ∧ (∀ k < 16, |y - v c| ≤ |y - v k|) ∧ (∀ k < 16, |y - v k| = |y - v c| → v k ≠ v c → c % 2 = 0) ∧
      (v c = 0 → c = 0)) ∧
  ∀ (s : Bool) (m : Nat) (e : Int) (ty : Nat), ty < 4 → 0 < m →
    let covers (k : Nat) : Prop := |(FVal.fin s m e).rat| ≤ b4Largest ty * 2 ^ ((k : Int) - 32)
    ∃ k ≤ 62, b4Scale ty (.fin s m e) = 64 * ty + k ∧ (covers k ∨ k = 62) ∧ ∀ j < k, ¬ covers j) ∧
 (∀ m : Int, m.natAbs < 2 ^ 32 →
    ((naf m).map fun x => (if x.2 then -1 else 1) * (2 : Int) ^ x.1).sum = m ∧
    (naf m).Pairwise fun x y => y.1 + 1 < x.1) ∧
 (∀ (f : ElemFmt) (code scale : Nat) (s : Bool) (m : Nat) (e : Int), code < 2 ^ elemBits f → scale < 256 → elemVal f code scale = .fin s m e →
    ∃ ts, termsOf f code scale = some ts ∧ (ts.map fun t => (if t.neg then -1 else 1) * (2 : ℚ) ^ t.shift).sum = (FVal.fin s m e).rat ∧
      (ts.Pairwise fun x y => y.shift + 1 < x.shift) ∧ (m = 0 → ts = []) ∧ ts.length ≤ tmax f)

/-! ## Other lanes, branches, reconvergence (R18, R26, R85, R120 to R127) -/

/-- VOTE and REDX read the executing lanes of the thread's own group; XLANE reads any lane of it, or the thread's own register where the
lane named is none (R123). REDX's tree of integers gives what the
participants' values give in any order: their sum modulo 2^32, their least or their greatest (R124). That VOTE.live takes the bit that
negates the other modes' source without effect is the model's reading (log 22). -/
def Obligations.CrossLaneResults : Prop :=
 ((∀ (h : Hdr) (cnt neg : Bool) (d : BitVec 8) (a p : BitVec 3),
    let vote (x : Nat × Thread) : Bool := if neg then !x.2.p a.toNat else x.2.p a.toNat
    let lanes (e : Env) (live : Bool) : List Nat := (e.participants.filter fun x => live || vote x).map fun x => x.1
    let put (l : List Nat) : List RWrite := if cnt then write32 d (BitVec.ofNat 32 l.length) else write64 d (laneMask l)
    let dst : List RName := if cnt then [.g d.toNat] else pairNames d.toNat
    Computes (.vote h .some cnt (p.zeroExtend 8) neg a) h { reads := predDst a, dests := predDst p }
      (fun e => writeP p (e.participants.any vote)) ∧
    Computes (.vote h .every cnt (p.zeroExtend 8) neg a) h { reads := predDst a, dests := predDst p }
      (fun e => writeP p (e.participants.all vote)) ∧
    Computes (.vote h .bits cnt d neg a) h { reads := predDst a, dests := dst } (fun e => put (lanes e false)) ∧
    Computes (.vote h .live cnt d neg a) h { reads := [], dests := dst } (fun e => put (lanes e true))) ∧
  (∀ (l : List Nat) (i : Nat), i < 64 → (laneMask l).getLsbD i = l.contains i) ∧
  (∀ (h : Hdr) (mode : LaneMode) (pair : Bool) (d a : BitVec 8) (b : Src) (pq : Option (BitVec 3)),
    let from' (e : Env) : Int := match mode with
      | .at => (e.src32 b).toNat | .below => e.l - (e.src32 b).toNat | .above => e.l + (e.src32 b).toNat
      | .mirror => ((BitVec.ofNat 64 e.l ^^^ (e.src32 b).zeroExtend 64).toNat : Nat)
    let valid (e : Env) : Bool := decide (0 ≤ from' e ∧ from' e < 64) && (e.gr.threads[(from' e).toNat]?).isSome
    let read (e : Env) (n : Nat) : Word := if valid e then (e.laneReg (from' e).toNat n).getD 0 else e.th.g n
    Computes (.xlane h mode pair d a b pq) h
      { reads := names32 b
        dests := (if pair then pairNames d.toNat else [.g d.toNat]) ++ secondDst pq }
      (fun e => (if pair then [.g d.toNat (read e a.toNat), .g (d.toNat + 1) (read e (a.toNat + 1))]
        else write32 d (read e a.toNat)) ++ writeSecond pq (valid e))
      (fun e => e.l < 64 ∧ xlaneEarly mode pair a b e = none ∧ e.laneLost mode pair a b = false ∧
        e.laneComing mode pair a b = none)) ∧
  ∀ (h : Hdr) (op : RedOp) (rm : Rm) (ty : RedTy) (d a : BitVec 8),
    Computes (.redx h op rm ty d a) h { reads := [.g a.toNat], dests := [.g d.toNat] } (fun e =>
      write32 d ((tree64 (redxOp op rm ty) ((List.range 64).map fun l =>
        (e.participants.find? fun x => x.1 == l).map fun x => x.2.g a.toNat)).getD 0))) ∧
 (∀ (l : List (Option Word)), l.length = 64 → l.any Option.isSome = true →
    let vs := l.filterMap id
    let r (op : RedOp) (ty : RedTy) : Option Word := tree64 (redxOp op .rne ty) l
    r .add .n32 = some vs.sum ∧ r .add .s32 = some vs.sum ∧
    (∃ x ∈ vs, r .min .n32 = some x ∧ ∀ y ∈ vs, x.toNat ≤ y.toNat) ∧ (∃ x ∈ vs, r .max .n32 = some x ∧ ∀ y ∈ vs, y.toNat ≤ x.toNat) ∧
    (∃ x ∈ vs, r .min .s32 = some x ∧ ∀ y ∈ vs, x.toInt ≤ y.toInt) ∧ (∃ x ∈ vs, r .max .s32 = some x ∧ ∀ y ∈ vs, y.toInt ≤ x.toInt))

/-- Branches go to their targets when those are multiples of 10; CALL saves the next word's address. RCV.SET enrols the lane
at one join address; RCV.WAIT arrives there and parks; EXIT ends the thread. What follows an arrival or an exit releases the
complete barriers: their parked lanes go on at the word after the join, and the barriers are empty. -/
def Obligations.BranchResults : Prop :=
 (∀ (h : Hdr) (d : BitVec 8) (off : BitVec 39) (a : Src),
    let near (e : Env) : Prop := (branchTarget e.b.pc off).toNat % 10 = 0
    let far (e : Env) : Prop := ((e.src64 a).truncate 56 : VAddr).toNat % 10 = 0
    Does (.bra h off) h {} (fun e => { pc := some (branchTarget e.b.pc off) }) near ∧
    Does (.call h d off) h { dests := pairNames d.toNat }
      (fun e => { writes := write64 d ((e.b.pc + 10).zeroExtend 64), pc := some (branchTarget e.b.pc off) }) near ∧
    Does (.brx h a) h { reads := names64 a } (fun e => { pc := some ((e.src64 a).truncate 56) }) far ∧
    Does (.ret h a) h { reads := names64 a } (fun e => { pc := some ((e.src64 a).truncate 56) }) far) ∧
 ((∀ (h : Hdr) (n : BitVec 8) (off : BitVec 39),
    Acts (.rcvSet h n off) h {} (fun e s s' o => o = {} ∧
        s' = s.updGroup e.b.core e.b.team e.g fun gr => { gr with rcv := updAt gr.rcv n.toNat fun r =>
          { r with join := branchTarget e.b.pc off, members := r.members ||| BitVec.twoPow 64 e.l } })
      (fun e => (e.gr.rcv.getD n.toNat Rcv.reset).members = 0 ∨
        (e.gr.rcv.getD n.toNat Rcv.reset).join = branchTarget e.b.pc off) ∧
    Acts (.rcvWait h n) h {} (fun e s s' o =>
        if (e.gr.rcv.getD n.toNat Rcv.reset).members.getLsbD e.l then
          o = { park := some (.rcv n.toNat) } ∧
          s' = s.updGroup e.b.core e.b.team e.g fun gr => { gr with rcv := updAt gr.rcv n.toNat fun r =>
            { r with arrived := r.arrived ||| BitVec.twoPow 64 e.l } }
        else s' = s ∧ o = {})
      (fun e => (e.gr.rcv.getD n.toNat Rcv.reset).members.getLsbD e.l = true →
        (e.gr.rcv.getD n.toNat Rcv.reset).join = e.b.pc)
      (post := releaseArrived) ∧
    Acts (.exit h) h {} (fun _ s s' o => s' = s ∧ o = { exited := true })
      (fun e => e.th.fabBad = none ∧ e.th.fabWrites = []) (all := .every)
      (post := fun b s => (releaseGroups b s).carveCheck b.core b.team)) ∧
  ∀ (gr : Group) (n l : Nat) (th : Thread), gr.threads[l]? = some th → n < 16 → n < gr.rcv.length →
    let r := gr.rcv.getD n Rcv.reset
    (r.complete gr = true ↔ r.members ≠ 0 ∧ ∀ i < 64, r.members.getLsbD i = true → r.arrived.getLsbD i = true ∨
      ∀ x, gr.threads[i]? = some x → x.exited = true) ∧
    (r.complete gr = true → gr.release.rcv[n]? = some Rcv.reset ∧
      (th.park = some (.rcv n) → gr.release.threads[l]? = some { th with park := none, pc := r.join + 10 })) ∧
    (r.complete gr = false → gr.release.rcv[n]? = some r ∧
      (th.park = some (.rcv n) → gr.release.threads[l]? = some th)))

/-! ## Memory: addresses, loads, stores, tags, atomics, counters (R130 to R152, R181 to R186) -/

/-- The address of an access (R131 to R134, R136): a scratchpad offset within the team's bytes, or bits [55:0] of the pointer
plus the displacement, within a buffer's size and 2^56, aligned to the access; else the cause of the first check that fails. That the
bounds are checked before the sum's range is the model's choice (log 70). -/
def Obligations.EffectiveAddresses : Prop :=
  ∀ (e : Env) (base : Src) (i : Index) (off : Int) (w al : Nat),
    let p := (e.src64 base).toNat
    let d := e.disp i off
    let va : Int := (p % 2 ^ 56 : Nat) + d
    let sa : Int := (e.src32 base).toNat + d
    let hi := match i, base with
      | .buffer _ _ _ _, .k r => (e.gr.kreg (r.toNat + 1)).toNat
      | _, _ => 0
    let isBuffer : Prop := match i with | .buffer _ _ _ _ => True | _ => False
    let inside : Prop := isBuffer → 0 ≤ d ∧ d + w ≤ (hi % 2 ^ 48 : Nat)
    (0 ≤ sa → sa + w ≤ e.t.bytes → sa % al = 0 → 0 < al →
      e.eaOf true base i off w al = .ok { scratch := true, addr := sa.toNat, tag := 0, ro := false, xn := false }) ∧
    (sa < 0 ∨ (e.t.bytes : Int) < sa + w → ∃ x, e.eaOf true base i off w al = .error { cause := 0x23, addr := x }) ∧
    (0 ≤ sa → sa + w ≤ e.t.bytes → sa.toNat % al ≠ 0 →
      e.eaOf true base i off w al = .error { cause := 0x24, addr := sa.toNat }) ∧
    (p / 2 ^ 60 = 0 → 0 ≤ va → va < 2 ^ 56 → inside → va % al = 0 → 0 < al →
      e.eaOf false base i off w al = .ok { scratch := false, addr := va.toNat, tag := BitVec.ofNat 4 (p / 2 ^ 56)
                                           ro := hi.testBit 63, xn := hi.testBit 62 }) ∧
    (p / 2 ^ 60 ≠ 0 ∨ (inside ∧ (va < 0 ∨ 2 ^ 56 ≤ va)) → ∃ x, e.eaOf false base i off w al = .error { cause := 0x20, addr := x }) ∧
    (p / 2 ^ 60 = 0 → ¬ inside → ∃ x, e.eaOf false base i off w al = .error { cause := 0x22, addr := x }) ∧
    (p / 2 ^ 60 = 0 → 0 ≤ va → va < 2 ^ 56 → inside → va.toNat % al ≠ 0 →
      ∃ x, e.eaOf false base i off w al = .error { cause := 0x24, addr := x })

/-- Loads: LD and LDB of one element or a pair, LDX of a tuple, LDK into a k register by the lowest executing lane of each
group. The register image of a loaded element: extended by its type's signedness, little-endian, a pair or a tuple register
by register (R3, R144 to R147). -/
def Obligations.LoadResults : Prop :=
 (∀ (h : Hdr) (ty : MemTy) (pair : Bool) (sz : TupSize) (d : BitVec 8) (m : MemArg),
    let mode : Mode := { reads := true, writes := false, tagged := h.av, l1 := true }
    let eff (sh : LoadShape) (e : Env) (s s' : State) (o : Out) : Prop := ∀ a, e.ea m sh.bytes = .ok a → Loads sh a e s s' o
    let pre (sh : LoadShape) (e : Env) : Prop := ∃ a, e.ea m sh.bytes = .ok a ∧ e.mayAccess a sh.bytes mode
    let one : LoadShape := .scalar ty pair d.toNat
    let tup : LoadShape := .tuple d.toNat (tupRegs sz)
    let uni : LoadShape := .uniform ty d.toNat
    Acts (.ld h ty pair d m) h { reads := memNames m, dests := if pair then pairNames d.toNat else [.g d.toNat] } (eff one) (pre one) ∧
    Acts (.ldb h ty pair d m) h { reads := memNames m, dests := if pair then pairNames d.toNat else [.g d.toNat] } (eff one) (pre one) ∧
    Acts (.ldx h sz d m) h { reads := memNames m, dests := tupleNames d.toNat (tupRegs sz) } (eff tup) (pre tup) ∧
    Acts (.ldk h ty d m) h { reads := memNames m, dests := [.k d.toNat] } (eff uni) (pre uni) (sel := lowestPerGroup)) ∧
 (∀ (ty : MemTy) (d : Nat) (l : List Byte),
    let n := memBits ty / 8
    let v : Int := if memSigned ty then (BitVec.ofNat (memBits ty) (bytesNat l)).toInt else (BitVec.ofNat (memBits ty) (bytesNat l)).toNat
    l.length = n →
    (LoadShape.uniform ty d).writes l = [.k d (BitVec.ofInt 64 v)] ∧
    (memBits ty ≤ 32 → (LoadShape.scalar ty false d).writes l = [.g d (BitVec.ofInt 32 v)]) ∧
    (memBits ty ≠ 32 → (LoadShape.scalar ty true d).writes l = pairWrites d (BitVec.ofInt 64 v)) ∧
    (∀ r, memBits ty = 32 → r.length = 4 →
      (LoadShape.scalar ty true d).writes (l ++ r) = [.g d (BitVec.ofNat 32 (bytesNat l)), .g (d + 1) (BitVec.ofNat 32 (bytesNat r))]) ∧
    (∀ k, (LoadShape.tuple d k).writes l = (List.range k).map fun i => .g (d + i) (BitVec.ofNat 32 (sliceNat l (4 * i) 4))))

/-- Stores: ST and STB of the low bytes of a register or a pair, STX of a tuple. Every other byte keeps its value. TAGS gives
the granules of its range the pointer's tag, and with z zeroes their bytes; TAGG reads the tag of a granule (R149, R150). The width of
1 byte with which TAGG's address is checked is the model's choice (log 71). -/
def Obligations.StoresAndTags : Prop :=
 (∀ (h : Hdr) (ty : MemTy) (pair : Bool) (sz : TupSize) (d : BitVec 8) (m : MemArg),
    let mode : Mode := { reads := false, writes := true }
    let n := memWidth ty pair
    let data (e : Env) : List Byte := if pair then lowBytes (e.th.pair d.toNat) n else lowBytes ((e.th.g d.toNat).zeroExtend 64) n
    let tuple (e : Env) : List Byte := ((List.range (tupRegs sz)).map fun i => lowBytes (e.th.g (d.toNat + i)) 4).flatten
    let eff (n : Nat) (data : Env → List Byte) (e : Env) (s s' : State) (o : Out) : Prop :=
      ∀ a, e.ea m n = .ok a → Stores (data e) a e s s' o
    let pre (n : Nat) (e : Env) : Prop := ∃ a, e.ea m n = .ok a ∧ e.mayAccess a n mode
    let u : Uses := { reads := memNames m ++ if pair then pairNames d.toNat else [.g d.toNat] }
    Acts (.st h ty pair d m) h u (eff n data) (pre n) ∧
    Acts (.stb h ty pair d m) h u (eff n data) (pre n) ∧
    Acts (.stx h sz d m) h { reads := memNames m ++ tupleNames d.toNat (tupRegs sz) } (eff (4 * tupRegs sz) tuple)
      (pre (4 * tupRegs sz))) ∧
 (∀ (h : Hdr) (len : TagLen) (z : Bool) (d : BitVec 8) (m : MemArg),
    let n := tagsBytes len
    Acts (.tags h len z m) h { reads := memNames m }
      (fun e s s' o => ∀ a l, e.ea m n = .ok a → s.hitLeaf e.b.core e.t.ctx a.addr = some l → plain (l.phys a.addr) n →
        (l.phys a.addr) % 32 = 0 → Memory.wf s = true →
        let pa := l.phys a.addr
        o = { clock := o.clock } ∧ SameMachine s s' ∧ Memory.wf s' = true ∧
        (∀ x, s'.gtag x = if pa ≤ x ∧ x < pa + n then a.tag else s.gtag x) ∧
        ∀ x, s'.readByte x = if z = true ∧ pa ≤ x ∧ x < pa + n then 0 else s.readByte x)
      (fun e => ∃ a, e.ea m n = .ok a ∧ a.scratch = false ∧ e.s.fabWindow e.t.desc a.addr = none ∧
        ∀ i < n / 32, e.allows { a with addr := a.addr + 32 * i } 32 { reads := false, writes := true, notag := true }) ∧
    Acts (.tagg h d m) h { reads := memNames m, dests := [.g d.toNat] }
      (fun e s s' o => ∀ a l, e.ea m 1 = .ok a → s.hitLeaf e.b.core e.t.ctx a.addr = some l →
        o = { writes := [.g d.toNat ((s.gtag (l.phys a.addr)).zeroExtend 32)], clock := o.clock } ∧ SameMemory s s')
      (fun e => ∃ a, e.ea m 1 = .ok a ∧ a.scratch = false ∧ e.s.fabWindow e.t.desc a.addr = none ∧
        e.allows a 1 { reads := false, writes := false, notag := true }))

/-- ATOM returns the old value and RED none; both make one read and write of the word. The new value of an atomic on n-bit
words, by its operation (R151, R152): none when CAS does not match. -/
def Obligations.Atomics : Prop :=
 (∀ (h : Hdr) (op : Aop) (ty : IntTy) (d : BitVec 8) (m : MemArg10),
    let n := if ty.wide then 8 else 4
    let mode : Mode := { reads := true, writes := true }
    let new (e : Env) (old : Nat) : Option Nat := atomNew op ty (BitVec.ofNat 64 old) (e.srcTy ty (.g d)) (match op with
      | .cas => if ty.wide then e.th.pair (d.toNat + 2) else (e.th.g (d.toNat + 1)).zeroExtend 64
      | _ => 0)
    let pre (e : Env) : Prop := ∃ a, e.ea10 m n = .ok a ∧ e.mayAccess a n mode
    Acts (.atom h op ty d m) h { reads := memNames10 m ++ atomNames op ty d, dests := dstTy ty d }
      (fun e s s' o => ∀ a, e.ea10 m n = .ok a → ∃ v, Changes a n (new e) v e s s' ∧
        o = { writes := byWidth ty d (BitVec.ofNat 32 v) (BitVec.ofNat 64 v), clock := o.clock }) pre ∧
    Acts (.red h op ty d m) h { reads := memNames10 m ++ atomNames op ty d }
      (fun e s s' o => ∀ a, e.ea10 m n = .ok a → ∃ v, Changes a n (new e) v e s s' ∧ o = { clock := o.clock }) pre) ∧
 (∀ (ty : IntTy) (old v swp : DWord),
    let w := if ty.wide then 64 else 32
    let a := intOf ty.signed (old.truncate w)
    let b := intOf ty.signed (v.truncate w)
    let r (op : Aop) : Option Nat := atomNew op ty old v swp
    let low (x : DWord) : Option Nat := some (x.truncate w).toNat
    r .add = low (old + v) ∧ r .and = low (old &&& v) ∧ r .or = low (old ||| v) ∧ r .xor = low (old ^^^ v) ∧
    r .xchg = low v ∧ r .min = low (if a ≤ b then old else v) ∧ r .max = low (if a ≤ b then v else old) ∧
    r .cas = if (old.truncate w : BitVec w) = v.truncate w then low swp else none)

/-- CADD and CADDT add to a counter, saturating at 2^64 − 1; CADDT pushes the word when the new value reaches its threshold
(R182, R183, R185). A push of a scratchpad word makes the waiters of its team on that word due, and nothing else changes; a
push of a word of global memory does so for every waiter whose address translates to it and lies in no fabric window (R185, R384). While
accesses of the thread to the fabric are without an answer, its bundle is held and nothing is added (R282). -/
def Obligations.CounterAdditions : Prop :=
 (∀ (h : Hdr) (d : BitVec 8) (m : MemArg),
    let mode : Mode := { reads := true, writes := true }
    let sum (e : Env) (v : Nat) : Nat := min (v + (e.th.g d.toNat).toNat) (2 ^ 64 - 1)
    let pre (e : Env) : Prop := e.fabOpen = [] ∧ ∃ a, e.ea m 8 = .ok a ∧ e.mayAccess a 8 mode
    Acts (.cadd h d m) h { reads := memNames m ++ [.g d.toNat] }
      (fun e s s' o => ∀ a, e.ea m 8 = .ok a → ∃ v, Changes a 8 (fun x => some (sum e x)) v e s s' ∧ o = { clock := o.clock }) pre ∧
    Acts (.caddt h d m) h { reads := memNames m ++ [.g d.toNat] ++ pairNames (d.toNat + 2) }
      (fun e s s' o => ∀ a, e.ea m 8 = .ok a → ∃ v s1, Changes a 8 (fun x => some (sum e x)) v e s s1 ∧ o = { clock := o.clock } ∧
        s' = if (e.th.pair (d.toNat + 2)).toNat ≤ sum e v then e.pushCounter a s1 else s1) pre ∧
    let u (l : List RName) : Uses := { reads := memNames m ++ [.g d.toNat] ++ l }
    ∀ (i : Instr) (l : List RName), (i, l) ∈ [(Instr.cadd h d m, []), (.caddt h d m, pairNames (d.toNat + 2))] → ∀ s b t e,
      issues s h (u l) .named (fun x => x) b t = true → s.unstaged.views h .named (fun x => x) b t = [e] →
      s.unstaged.doers h .named (fun x => x) b t = [e] →
      (let x := e.at (s.unstaged.slotStart b)
       x.fabOpen ≠ [] ∧ ∃ a, x.ea m 8 = .ok a ∧ x.mayAccess a 8 mode) →
      exec i s = .next (s.unstaged.holdBundle b (.fabric e.fabOpen))) ∧
 ((∀ (t : Team) (off g l : Nat) (th : Thread), t.thread? g l = some th →
      t.pushScratch off = { t with groups := (t.pushScratch off).groups } ∧
      (∀ w, th.park = some (.cwait w) → w.scratch = true → w.addr = off →
        (t.pushScratch off).thread? g l = some { th with park := some (.cwait { w with pushed := true }) }) ∧
      ((∀ w, th.park = some (.cwait w) → w.scratch = false ∨ w.addr ≠ off) → (t.pushScratch off).thread? g l = some th)) ∧
  ∀ (s : State) (c id pa : Nat) (t : Team) (g l : Nat) (th : Thread), s.team? c id = some t → t.thread? g l = some th →
    ∃ t', (s.pushWord pa).team? c id = some t' ∧
      (∀ w, th.park = some (.cwait w) → w.scratch = false → s.localOf t.desc t.ctx w.addr = some pa →
        t'.thread? g l = some { th with park := some (.cwait { w with pushed := true }) }) ∧
      ((∀ w, th.park = some (.cwait w) → w.scratch = true ∨ s.localOf t.desc t.ctx w.addr ≠ some pa) → t'.thread? g l = some th))

/-- CWAIT goes on when the counter has reached its target, else parks on the word; CPOLL writes which of the two it is
(R184). Neither changes memory. PRES reads the presence of 32 lines, or sets the hold flag of one (R180, R181). -/
def Obligations.CounterReads : Prop :=
 (∀ (h : Hdr) (d : BitVec 8) (p : BitVec 3) (m : MemArg),
    let sees (a : Ea) (e : Env) (s s' : State) (v : Nat) : Prop :=
      if a.scratch then ∀ t, s.team? e.b.core e.b.team = some t → v = bytesNat (t.scratchRead a.addr 8) ∧
        ∃ t', ScratchOnly e s s' t t' ∧ t'.scratch = t.scratch ∧ t'.lost = t.lost
      else ∀ l, s.hitLeaf e.b.core e.t.ctx a.addr = some l → plain (l.phys a.addr) 8 →
        v = bytesNat (s.readBytes (l.phys a.addr) 8) ∧ SameMemory s s'
    let target (e : Env) : Nat := (e.th.pair d.toNat).toNat
    Acts (.cwait h d m) h { reads := memNames m ++ pairNames d.toNat }
      (fun e s s' o => ∀ a, e.ea m 8 = .ok a → ∃ v, sees a e s s' v ∧
        o = { clock := o.clock
              park := if target e ≤ v then none else some (.cwait
                { scratch := a.scratch, addr := a.addr, tag := a.tag, target := e.th.pair d.toNat, next := s.cycle + 2200
                  pushed := false }) })
      (fun e => ∃ a, e.ea m 8 = .ok a ∧ e.mayAccess a 8 { reads := true, writes := false }) ∧
    Acts (.cpoll h p d m) h { reads := memNames m ++ pairNames d.toNat, dests := predDst p }
      (fun e s s' o => ∀ a, e.ea m 8 = .ok a → ∃ v, sees a e s s' v ∧
        o = { writes := [.p p.toNat (decide (target e ≤ v))], clock := o.clock, bad := o.bad })
      (fun e => ∃ a, e.ea m 8 = .ok a ∧ e.mayAccess a 8 { reads := true, writes := false, tagged := h.av })) ∧
 (∀ (h : Hdr) (d : BitVec 8) (m : MemArg),
    let pre (e : Env) : Prop := ∃ a, e.ea m 128 = .ok a
    let hold (v : Bool) (e : Env) (s s' : State) (o : Out) : Prop := o = { clock := o.clock } ∧ ∀ a t, e.ea m 128 = .ok a →
      s.team? e.b.core e.b.team = some t → amWf Line.reset 0 t.lines = true →
        ∃ t', ScratchOnly e s s' t t' ∧ t'.scratch = t.scratch ∧ t'.lost = t.lost ∧
          ∀ i, (t'.line i).pending = (t.line i).pending ∧ (t'.line i).held = if i = a.addr / 128 then v else (t.line i).held
    Acts (.presGet h d m) h { reads := memNames m, dests := [.g d.toNat] }
      (fun e s s' o => ∀ a t, e.ea m 128 = .ok a → s.team? e.b.core e.b.team = some t → amWf Line.reset 0 t.lines = true →
        ∃ (v : Word) (t' : Team), o = { writes := [.g d.toNat v], clock := o.clock } ∧ ScratchOnly e s s' t t' ∧
        t'.scratch = t.scratch ∧ t'.lost = t.lost ∧
        (∀ i, (t'.line i).pending = (t.line i).pending ∧ (t'.line i).held = (t.line i).held) ∧ ∀ i < 32, v.getLsbD i =
          (decide ((a.addr / 128 + i + 1) * 128 ≤ t.bytes) && (t.line (a.addr / 128 + i)).pending == 0 &&
            !(t.line (a.addr / 128 + i)).held)) pre ∧
    Acts (.presHold h m) h { reads := memNames m } (hold true) pre ∧
    Acts (.presRelease h m) h { reads := memNames m } (hold false) pre)

/-! ## Teams: barriers, the carve-out (R155, R161 to R168) -/

/-- BARA adds to its barrier's count, saturating, and BARW goes on when the count has reached its target, else parks; a
barrier that the team has no entry for takes a free one with count 0. BARA's addition releases the waiters (R165, R166). A
barrier's release: the team's threads parked at it whose targets the count has reached go on at the next word, the others
stay as they are (R166). -/
def Obligations.Barriers : Prop :=
 (∀ (h : Hdr) (one r : Bool) (n : BitVec 4) (d : BitVec 8) (a : Src),
    let open' (e : Env) (s s' : State) (count : Nat) (upd : Nat) : Prop :=
      ∀ t, s.team? e.b.core e.b.team = some t →
        ((s.core e.b.core).barOf e.t n.toNat).isSome = true ∨ (s.core e.b.core).freeBars ≠ [] →
        (count = match (s.core e.b.core).barOf e.t n.toNat with | some j => (s.barAt e.b.core j).count | none => 0) ∧
        ∃ i, (s'.core e.b.core).barOf e.t n.toNat = some i ∧ (s'.barAt e.b.core i).count = upd ∧
          (∀ j, j ≠ i → s'.barAt e.b.core j = s.barAt e.b.core j) ∧
          s' = s.updCore e.b.core fun k => { k with bars := (s'.core e.b.core).bars }
    let pre (e : Env) : Prop := e.t.spill.getLsbD n.toNat = false ∧
      (((e.s.core e.b.core).barOf e.t n.toNat).isSome = true ∨ (e.s.core e.b.core).freeBars ≠ [])
    let inc (e : Env) : Nat := if one then 1 else (e.src32 a).toNat
    Acts (.bara h one r n d a) h { reads := if one then [] else names32 a, dests := if r then pairNames d.toNat else [] }
      (fun e s s' o => ∃ c, open' e s s' c (min (c + inc e) (2 ^ 64 - 1)) ∧
        o = { writes := if r then pairWrites d.toNat (BitVec.ofNat 64 (min (c + inc e) (2 ^ 64 - 1))) else [], clock := o.clock })
      pre (post := fun b s => s.releaseBar b.core b.team n.toNat) ∧
    Acts (.barw h n a) h { reads := names64 a }
      (fun e s s' o => ∃ c, open' e s s' c c ∧
        o = { clock := o.clock, park := if (e.src64 a).toNat ≤ c then none else some (.barw n.toNat (e.src64 a)) })
      pre) ∧
 (∀ (s : State) (c id n i : Nat) (t : Team) (g l : Nat) (th : Thread), s.team? c id = some t → (s.core c).barOf t n = some i →
    t.thread? g l = some th → ∃ t' th', (s.releaseBar c id n).team? c id = some t' ∧ t'.thread? g l = some th' ∧
      (∀ target, th.park = some (.barw n target) → target.toNat ≤ (s.barAt c i).count →
        th' = { th with park := none, pc := th.pc + 10, clock := max th.clock (s.barAt c i).wts }) ∧
      ((∀ target, th.park = some (.barw n target) → (s.barAt c i).count < target.toNat) → th' = th))

/-- CARVE's threads arrive one by one at the team's rendezvous and park; the last arrival has the request evaluated (R162). A
complete rendezvous whose values agree, are valid and that the free pool covers is granted at once: the team has the new
registers (kept below the lower count, zero above the old), scratchpad and L1 share, and every arrived thread goes on at the
next word (R162, R163). A grant that shrinks the scratchpad removes its bytes and lines with their hold flags, and waits first for
the copies pending on those lines (R163). One that asks for more by CARVE.t goes on without a change. That the last arrival's form
says whether the rendezvous tries is the model's reading (log 28). -/
def Obligations.CarveOuts : Prop :=
 (∀ (h : Hdr) (try' : Bool) (a b c : Src) (pq : Option (BitVec 3)),
    Acts (.carve h try' a b c pq) h { reads := names32 a ++ names32 b ++ names32 c, dests := secondDst pq }
      (fun e s s' o => o = { park := some .carve, late := pq.isSome } ∧ ∀ t, s.team? e.b.core e.b.team = some t →
        ∃ t' r, s'.team? e.b.core e.b.team = some t' ∧ t' = { t with carve := some r } ∧ r.trying = try' ∧
          (t.carve = none → r.n = (e.src32 a).toNat ∧ r.bytes = (e.src32 b).toNat ∧ r.l1 = (e.src32 c).toNat ∧
            r.arrivals = [(e.g, e.l, pq)] ∧ r.differs = none ∧ r.queued = false ∧ r.granting = false) ∧
          ∀ q, t.carve = some q → r.n = q.n ∧ r.bytes = q.bytes ∧ r.l1 = q.l1 ∧ r.arrivals = q.arrivals ++ [(e.g, e.l, pq)] ∧
            (q.differs = none → (r.differs = none ↔
              (e.src32 a).toNat = q.n ∧ (e.src32 b).toNat = q.bytes ∧ (e.src32 c).toNat = q.l1)))
      (all := .every) (post := fun b s => s.carveCheck b.core b.team)) ∧
 (∀ (s : State) (c id : Nat) (t : Team) (r : Rendezvous) (g l : Nat) (th : Thread),
    s.team? c id = some t → t.carve = some r → r.queued = false → r.granting = false → t.allArrived r = true → r.differs = none →
    s.carveInvalid c t r = false → t.thread? g l = some th → (r.arrivals.any fun a => a.1 == g && a.2.1 == l) = true →
    let granted : Prop := t.newGranules r < t.granules ∨
      (((s.core c).bank t.bank).grow = [] ∧ t.newGranules r ≤ t.granules + (s.core c).freePool t.bank)
    (granted → r.bytes < t.bytes → amWf 0 0 t.scratch = true → amWf Line.reset 0 t.lines = true → ∃ t',
      (s.carveCheck c id).team? c id = some t' ∧ (t.freedLines r → Shrunk t t' r) ∧ (¬ t.freedLines r → ShrinkWaits t t' r)) ∧
    (granted → t.bytes ≤ r.bytes →
      ∃ t' th', (s.carveCheck c id).team? c id = some t' ∧ t'.nregs = r.n ∧ t'.bytes = r.bytes ∧ t'.l1 = r.l1 ∧
        t'.carve = none ∧ t'.thread? g l = some th' ∧ th'.pc = th.pc + 10 ∧ th'.park = none ∧
        th'.regs = th.regs.take r.n ++ List.replicate (r.n - t.nregs) 0) ∧
    (r.trying = true → t.granules + (s.core c).freePool t.bank < t.newGranules r → t.granules ≤ t.newGranules r →
      ∃ t' th', (s.carveCheck c id).team? c id = some t' ∧ t'.nregs = t.nregs ∧ t'.bytes = t.bytes ∧ t'.l1 = t.l1 ∧
        t'.carve = none ∧ t'.thread? g l = some th' ∧ th'.pc = th.pc + 10 ∧ th'.park = none ∧ th'.regs = th.regs))

/-- The head of the grow queue is granted when the pool covers it, and a granted shrink takes effect once the lines that it removes are
free; when the pool does not cover the head and every team of the active bank waits in the queue, its team halts with cause 0x73 and
leaves the queue (R163, R164). The trap names the last arrival, although an EXIT may have completed the rendezvous (log 73). A team whose threads have all exited leaves
its core, with its barrier entries (R155). A barrier entry is freed when no thread waits on it, filled when its count and key
have been written, and its count and key are written while it is free; every other write is ignored. A team's spill mask and
a core's mode are written as R167 and R172 say. -/
def Obligations.BankPools : Prop :=
 ((∀ (s : State) (c b id : Nat) (rest : List Nat) (t : Team) (r : Rendezvous), b = (s.core c).active → b < (s.core c).banks.length →
    ((s.core c).bank b).grow = id :: rest → (s.core c).team? id = some t → t.carve = some r → t.bank = b →
    (∀ x ∈ (s.core c).teams, ∀ y, x.carve = some y → y.granting = false) →
    let fits : Prop := t.newGranules r ≤ t.granules + (s.core c).freePool b
    (fits → t.bytes ≤ r.bytes → ∃ s' t', exec (.growQueueGrant c b) s = .next s' ∧ s'.mem = s.mem ∧ s'.team? c id = some t' ∧
      ((s'.core c).bank b).grow = rest ∧ t'.nregs = r.n ∧ t'.bytes = r.bytes ∧ t'.l1 = r.l1 ∧ t'.carve = none ∧
      t'.scratch = t.scratch ∧
      ∀ g l th, t.thread? g l = some th → (r.arrivals.any fun a => a.1 == g && a.2.1 == l) = true →
        ∃ th', t'.thread? g l = some th' ∧ th'.pc = th.pc + 10 ∧ th'.park = none ∧
          th'.regs = th.regs.take r.n ++ List.replicate (r.n - t.nregs) 0) ∧
    (fits → r.bytes < t.bytes → amWf 0 0 t.scratch = true → amWf Line.reset 0 t.lines = true → ∃ s' t',
      exec (.growQueueGrant c b) s = .next s' ∧ s'.mem = s.mem ∧ s'.team? c id = some t' ∧ ((s'.core c).bank b).grow = rest ∧
      (t.freedLines r → Shrunk t t' r) ∧ (¬ t.freedLines r → ShrinkWaits t t' r)) ∧
    (¬ fits → exec (.growQueueGrant c b) s = .next s) ∧
    (¬ fits → t.halt = none → s.movingCore c = false → (∀ x ∈ (s.core c).teams, x.bank = b → ∃ y, x.carve = some y ∧ y.queued = true) →
      ∃ s' t' h, exec (.carveOutDeadlock c b) s = .next s' ∧ s'.mem = s.mem ∧ s'.team? c id = some t' ∧ t'.halt = some h ∧
        h.cause = 0x73 ∧ (∀ g l p, r.arrivals.getLast? = some (g, l, p) → h.who = some (g, l)) ∧
        id ∉ ((s'.core c).bank b).grow ∧ t'.nregs = t.nregs ∧ t'.bytes = t.bytes ∧ t'.l1 = t.l1)) ∧
  (∀ (s : State) (c b : Nat) (t : Team) (r : Rendezvous), (s.core c).cutDue b = some t → s.team? c t.id = some t → t.carve = some r →
    r.bytes < t.bytes → amWf 0 0 t.scratch = true → amWf Line.reset 0 t.lines = true →
    ∃ s' t', exec (.growQueueGrant c b) s = .next s' ∧ s'.mem = s.mem ∧ s'.team? c t.id = some t' ∧ Shrunk t t' r) ∧
  ∀ (s : State) (c id : Nat) (t : Team), s.works = true → id < 32 → s.team? c id = some t → s.mayDepart c t = true →
    s.movingCore c = false →
    (∀ a ∈ (s.core c).allow, a.ctx ≠ t.ctx) → ∃ s', exec (.teamDeparture c id) s = .next s' ∧ s'.mem = s.mem ∧
      (s'.core c).teams = (s.core c).teams.filter (fun x => x.id != id) ∧
      (∀ e ∈ (s'.core c).bars, e.valid = true → ¬ (e.ctx = t.ctx ∧ e.vtid = t.vtid)) ∧
      (∀ g ∈ s'.grids, ∃ y ∈ s.grids, g.id = y.id ∧ g.left = if y.id = t.grid then y.left - 1 else y.left) ∧
      (s'.core c).tiles = (s.core c).tiles ∧ ∀ c', c' ≠ c → (s'.core c').teams = (s.core c').teams) ∧
 (∀ (s : State) (c e j : Nat) (v : DWord), s.power = .on → c < s.cores.length → e < (s.core c).bars.length →
    let x := s.barAt c e
    let only (i : Instr) (y : BarEntry) : Prop := ∃ s', exec i s = .next s' ∧ s'.barAt c e = y ∧
      s' = s.updCore c fun k => { k with bars := (s'.core c).bars }
    ((x.valid = true → s.hasWaiters c x = false → only (.barrierEntryFree c e) { x with valid := false, counted := false, keyed := false }) ∧
      (x.valid = false ∨ s.hasWaiters c x = true → exec (.barrierEntryFree c e) s = .next s)) ∧
    ((x.valid = false → x.counted = true → x.keyed = true → only (.barrierEntryFill c e) { x with valid := true }) ∧
      (x.valid = true ∨ x.counted = false ∨ x.keyed = false → exec (.barrierEntryFill c e) s = .next s)) ∧
    ((x.valid = false → only (.barrierCountWrite c e v) { x with count := v.toNat, counted := true }) ∧
      (x.valid = true → exec (.barrierCountWrite c e v) s = .next s)) ∧
    ((x.valid = false → only (.barrierKeyWrite c e v) { x with
        ctx := (v.extractLsb' 40 12).toNat, number := (v.extractLsb' 36 4).toNat, vtid := (v.extractLsb' 12 24).toNat, keyed := true }) ∧
      (x.valid = true → exec (.barrierKeyWrite c e v) s = .next s)) ∧
    exec (.spillMaskWrite c j v) s = .next (s.updTeam c j fun t => { t with spill := v.truncate 16 }) ∧
    ((s.core c).teams = [] → (∀ i ∈ s.images, i.core ≠ c) → ∃ s', exec (.coreModeWrite c v) s = .next s' ∧ s'.mem = s.mem ∧
      (s'.core c).twoCtx = v.getLsbD 0 ∧ (s'.core c).active = 0 ∧ (s'.core c).bars = (s.core c).bars) ∧
    ((s.core c).teams ≠ [] → exec (.coreModeWrite c v) s = .next s))

/-! ## The copy engine (R187 to R200, R303) -/

/-- CPYK: a kick reads the record of 128 bytes from the scratchpad and puts its operation behind those of the engine context,
with the destination lines of the scratchpad pending, its own or its peer's (R191, R239); CPYK.t reports whether there was room. Memory,
the other engine contexts, and every team but for its lines' stamps and pending counts stay as they are. -/
def Obligations.CopyKicks : Prop :=
  ∀ (h : Hdr) (t : Bool) (d : BitVec 3) (ec : BitVec 2) (a : Src),
    Acts (.cpyk h t d ec a) h { reads := names32 a, dests := if t then predDst d else [] }
      (fun e s s' o =>
        let c := e.b.core
        let q := ((s.core c).engine ec.toNat).queue
        if 16 ≤ q.length then s' = s ∧ o = { writes := if t then [.p d.toNat false] else [] }
        else ∀ tm, s.team? c e.b.team = some tm → ec.toNat < (s.core c).engines.length →
          let off := recordOff e.t e.g e.l a
          let record := tm.scratchRead off 128
          let v := cview record
          let peer := (s.copyPeer tm v).map fun p => (p.1, p.2.vtid)
          let dest := peer.getD (c, tm.vtid)
          let lines := if v.dsp then spanLines (sideBase true v.dst) v.dfoot else []
          let op : CopyOp :=
            { id := s.nextOp, record := record, team := e.b.team, vtid := tm.vtid, group := e.g, lane := e.l, slot := e.gr.slot
              desc := tm.desc, ctx := tm.ctx, teamIndex := tm.index, grid := tm.grid, sup := tm.sup, recoff := off, peer := peer, pos := 0
              srcPos := 0, delivered := 0, counted := 0, ended := false, cancelled := false, lines := lines, saved := [], vals := []
              fab := none, fetched := [], acked := [], adding := none, clock := o.clock }
          let pends (c : Nat) (t t' : Team) : Prop := LinesPend t t' (if c = dest.1 ∧ t.isNamed tm.ctx dest.2 = true then lines else [])
          o = { writes := if t then [.p d.toNat true] else [], clock := o.clock } ∧ e.th.clock ≤ o.clock ∧
          s' = { s with cores := s'.cores, images := s'.images, nextOp := s.nextOp + 1 } ∧
          ((s'.core c).engine ec.toNat = { (s.core c).engine ec.toNat with queue := q ++ [op] }) ∧
          (∀ x n, x ≠ c ∨ n ≠ ec.toNat → (s'.core x).engine n = (s.core x).engine n) ∧
          (∀ x, s'.core x = { s.core x with teams := (s'.core x).teams, engines := (s'.core x).engines }) ∧
          (∀ x id y, s.team? x id = some y → ∃ y', s'.team? x id = some y' ∧ pends x y y') ∧
          (s'.images.length = s.images.length) ∧
          ∀ (n : Nat) (x : Image), s.images[n]? = some x → ∃ x' : Image, s'.images[n]? = some x' ∧ x' = { x with teams := x'.teams } ∧
            x'.teams.length = x.teams.length ∧
            ∀ (i : Nat) (y : Team), x.teams[i]? = some y → ∃ y', x'.teams[i]? = some y' ∧ pends x.core y y')
      (fun e => let o := recordOff e.t e.g e.l a
        o % 128 = 0 ∧ o + 128 ≤ e.t.bytes ∧ (e.t.line (o / 128)).present = true ∧ e.t.lostIn o 128 = false ∧
        e.recordCauses (e.t.scratchRead o 128) = none ∧
        (t = true ∨ e.crew.length + ((e.s.core e.b.core).engine ec.toNat).queue.length ≤ 16))

/-- The engine moves the next element of an operation of kind 0 or 1 within scratchpads: the destination's bytes are the
source's, no other byte changes, and the operation is one element further (R189, R193). A token of a back-reference stream
(R199): the stop token ends the operation, a literal run copies its bytes, a match repeats bytes already produced, byte k of
it the one off before. A token beyond the source or the output, or a match before the start, stops the context with cause
0x82 (R200). -/
def Obligations.CopyBytes : Prop :=
 ((∀ (s : State) (c ec i : Nat) (t : Team) (o : CopyOp),
    let v := cview o.record
    let n := v.sbits / 8
    let a := ((fld v.src 0 24 : Int) + v.selem o.pos * n).toNat
    let b := ((fld v.dst 0 24 : Int) + v.delem o.pos * n).toNat
    s.opAt c ec i = some o → v.kind ≤ 1 → 0 < n → v.ssp = true → v.dsp = true → o.peer = none → o.saved = [] → o.ended = false →
    (s.engineAt c ec).stopped = none → s.engineHeld c = false → s.forwarding c = false → s.findTeam c o.ctx o.vtid = some t →
    amWf 0 0 t.scratch = true → t.lostIn a n = false → (v.overlaps = true → t.lostIn b n = false) → b + n ≤ t.bytes →
    (∀ j, a / 128 ≤ j → j ≤ (a + n - 1) / 128 → (t.line j).held = false ∧ (t.line j).pending ≤ if j ∈ o.lines then 1 else 0) →
    ∃ s' t' o', exec (.copyElement c ec i) s = .next s' ∧ s'.mem = s.mem ∧ s'.findTeam c o.ctx o.vtid = some t' ∧
      s'.opAt c ec i = some o' ∧ o'.id = o.id ∧ o'.pos = o.pos + 1 ∧ o'.delivered = o.delivered + n ∧
      o'.ended = decide (v.total ≤ o.pos + 1) ∧ o'.counted = o.counted ∧ t'.groups = t.groups ∧
      ∀ x, amGet 0 t'.scratch x = if b ≤ x ∧ x < b + n then amGet 0 t.scratch (a + (x - b)) else amGet 0 t.scratch x) ∧
  (∀ (s : State) (c ec : Nat) (o : CopyOp) (ptr : Nat) (off : Int) (n : Nat),
    (∀ p ∈ blocks256 (ptrAddr ptr off) n, s.fabWindow o.desc p.1 = none) →
    (∀ p ∈ pieces (ptrAddr ptr off) n, ∃ l, s.engPage c o ptr p.1 p.2 false = .ok l ∧ plain (l.phys p.1) p.2 ∧
      s.roundHolds (.engine c ec) (l.phys p.1) p.2 = false) →
    ∃ s' k, SameMemory s s' ∧ s.engRead c ec o false ptr off n =
      .ok ((pieces (ptrAddr ptr off) n).flatMap fun p => match s.hitLeaf c o.ctx p.1 with
        | some l => s.readBytes (l.phys p.1) p.2
        | none => []) s' { o with clock := k }) ∧
  ∀ (s : State) (c ec i : Nat) (o x : CopyOp) (m : Move) (s1 s2 s3 : State) (o1 o2 : CopyOp) (old : List Byte),
    let r := State.engWriteAll c ec m.writes s2 o1
    s.opAt c ec i = some o → o.ended = false → (cview o.record).kind ≠ 5 → (s.engineAt c ec).stopped = none → s.engineHeld c = false →
    s.nextMove c ec o = .move m s1 → s1.oldOf c ec m.o (cview o.record) m.writes = .ok old s2 o1 →
    State.engMayAll c ec m.writes s2 o1 = .ok [] s3 o2 → r.1.opAt c ec i = some x → x.id = r.2.id →
    ∃ s' o', exec (.copyElement c ec i) s = .next s' ∧ s'.mem = r.1.mem ∧ s'.opAt c ec i = some o' ∧
      o' = { r.2 with pos := o.pos + m.n, delivered := o.delivered + m.bytes, ended := decide ((cview o.record).total ≤ o.pos + m.n)
                      saved := o'.saved, lines := o'.lines, fetched := [], acked := [] }) ∧
 (∀ (s : State) (c ec i : Nat) (t : Team) (o : CopyOp),
    let v := cview o.record
    let a := fld v.src 0 24 + o.srcPos
    let src (k : Nat) : Byte := amGet 0 t.scratch (a + k)
    let h := (src 0).toNat
    let n := if h = 0xFF then 1 else if h < 0x80 then h + 2 else if h < 0xC0 then 2 else 3
    let len := if h = 0xFF then 0 else if h < 0x80 then h + 1 else if h < 0xC0 then h / 8 % 8 + 3 else h % 64 + 3
    let off := if h < 0xC0 then h % 8 * 256 + (src 1).toNat + 1 else (src 1).toNat + 256 * (src 2).toNat + 1
    let past := (o.saved.map fun x => x.2).reverse
    s.opAt c ec i = some o → v.kind = 5 → v.ssp = true → v.dsp = true → o.peer = none → o.ended = false → past.length = o.pos →
    (s.engineAt c ec).stopped = none → s.engineHeld c = false → s.forwarding c = false → s.findTeam c o.ctx o.vtid = some t →
    amWf 0 0 t.scratch = true → t.lostIn a n = false → o.srcPos < v.side → fld v.dst 0 24 + v.total ≤ t.bytes →
    (∀ j, a / 128 ≤ j → j ≤ (a + n - 1) / 128 → (t.line j).held = false ∧ (t.line j).pending ≤ if j ∈ o.lines then 1 else 0) →
    let bad : Prop := v.side < o.srcPos + n ∨ (h ≠ 0xFF ∧ v.total < o.pos + len) ∨ (0x80 ≤ h ∧ h ≠ 0xFF ∧ o.pos < off)
    (¬ bad → ∃ s' t' o' d, exec (.backReferenceToken c ec i) s = .next s' ∧ s'.mem = s.mem ∧ s'.findTeam c o.ctx o.vtid = some t' ∧
      s'.opAt c ec i = some o' ∧ d.length = len ∧ o'.pos = o.pos + len ∧ o'.delivered = o.pos + len ∧ o'.srcPos = o.srcPos + n ∧
      o'.ended = decide (h = 0xFF) ∧ ((o'.saved.map fun x => x.2).reverse = past ++ d) ∧ t'.groups = t.groups ∧
      (h < 0x80 → ∀ k < len, d[k]? = some (src (1 + k))) ∧
      (0x80 ≤ h → h ≠ 0xFF → ∀ k < len, d[k]? = (past ++ d)[o.pos + k - off]?) ∧
      ∀ x, amGet 0 t'.scratch x = if fld v.dst 0 24 + o.pos ≤ x ∧ x < fld v.dst 0 24 + o.pos + len then
        d.getD (x - (fld v.dst 0 24 + o.pos)) 0 else amGet 0 t.scratch x) ∧
    (bad → i = 0 → o.settled = true → ∃ s', exec (.backReferenceToken c ec i) s = .next s' ∧ s'.mem = s.mem ∧
      (s'.engineAt c ec).stopped = some 0x82 ∧ (s'.engineAt c ec).queue = (s.engineAt c ec).queue ∧
      ∀ id, s'.team? c id = s.team? c id))

/-- The engine adds delivered bytes to the arrival counter, and 1 to the timeline counter, in the scratchpad or in global memory, when
an operation that has ended and is counted leaves its context, each saturating and with a push (R194, R195). Command 1 lets a stopped engine context go
on, unless its operation can only be cancelled; command 2 ends the operation that stopped it and counts the cancellation
(R197, R303); that command 1 is ignored for cause 0xA1 too is the model's reading (log 61). A context that is not stopped ignores both. -/
def Obligations.CopyCounters : Prop :=
 ((∀ (s : State) (c ec i n : Nat) (t : Team) (o : CopyOp),
    let v := cview o.record
    let w := fld v.arr 0 24
    s.opAt c ec i = some o → v.asp = true → o.peer = none → 0 < n → o.counted + n ≤ o.delivered → o.cancelled = false → o.fab = none →
    s.power = .on → (s.engineAt c ec).stopped = none → s.engineHeld c = false → s.forwarding c = false →
    s.findTeam c o.ctx o.vtid = some t → amWf 0 0 t.scratch = true → t.lostIn w 8 = false →
    ∃ s' t' o', exec (.arrivalAddition c ec i n) s = .next s' ∧ s'.mem = s.mem ∧ s'.findTeam c o.ctx o.vtid = some t' ∧
      s'.opAt c ec i = some o' ∧ o'.counted = o.counted + n ∧ o'.pos = o.pos ∧ o'.delivered = o.delivered ∧
      (∀ x, amGet 0 t'.scratch x = if w ≤ x ∧ x < w + 8 then
        (natBytes (min (bytesNat (t.scratchRead w 8) + n) (2 ^ 64 - 1)) 8).getD (x - w) 0 else amGet 0 t.scratch x) ∧
      ∀ g l th y, t.thread? g l = some th → th.park = some (.cwait y) → y.scratch = true → y.addr = w →
        t'.thread? g l = some { th with park := some (.cwait { y with pushed := true }) }) ∧
  (∀ (s : State) (c ec i n : Nat) (o : CopyOp) (l : Leaf),
    let v := cview o.record
    let va := ptrAddr v.arr 0
    let pa := l.phys va
    s.opAt c ec i = some o → v.asp = false → v.arr ≠ 0 → 0 < n → o.counted + n ≤ o.delivered → o.cancelled = false → o.fab = none →
    s.power = .on → (s.engineAt c ec).stopped = none → s.engineHeld c = false → s.heldOfOp o.id = false →
    s.fabWindow o.desc va = none → s.engPage c o v.arr va 8 true = .ok l → inCtl pa = false → s.lostIn pa 8 = none → s.awaitRound l pa 8 (.engine c ec) = none →
    Memory.wf s = true →
    ∃ s' o', exec (.arrivalAddition c ec i n) s = .next s' ∧ s'.opAt c ec i = some o' ∧ o'.counted = o.counted + n ∧
      Memory.wf s' = true ∧ (∀ x, s'.gtag x = s.gtag x) ∧
      ∀ x, s'.readByte x = if pa ≤ x ∧ x < pa + 8 then
        (natBytes (min (s.read8 pa + n) (2 ^ 64 - 1)) 8).getD (x - pa) 0 else s.readByte x) ∧
  ∀ (s : State) (c ec : Nat) (o : CopyOp),
    let v := cview o.record
    let w := fld v.tl 0 24
    s.opAt c ec 0 = some o → o.ended = true → o.settled = true ∨ o.cancelled = true → o.fab = none → s.heldOfOp o.id = false →
    (s.engineAt c ec).stopped = none → s.engineHeld c = false → o.lines = [] →
    (v.hasTl = false → ∃ s', exec (.retire c ec) s = .next s' ∧ s'.mem = s.mem ∧ (∀ id, s'.team? c id = s.team? c id) ∧
      (s'.engineAt c ec).queue = (s.engineAt c ec).queue.filter fun x => x.id != o.id) ∧
    (v.tsp = true → s.forwarding c = false → ∀ t, s.findTeam c o.ctx o.vtid = some t → amWf 0 0 t.scratch = true → t.lostIn w 8 = false →
      ∃ s' t', exec (.retire c ec) s = .next s' ∧ s'.mem = s.mem ∧ s'.findTeam c o.ctx o.vtid = some t' ∧
        (s'.engineAt c ec).queue = ((s.engineAt c ec).queue.filter fun x => x.id != o.id) ∧
        ∀ x, amGet 0 t'.scratch x = if w ≤ x ∧ x < w + 8 then
          (natBytes (min (bytesNat (t.scratchRead w 8) + 1) (2 ^ 64 - 1)) 8).getD (x - w) 0 else amGet 0 t.scratch x) ∧
    ∀ l : Leaf, v.tsp = false → v.tl ≠ 0 →
      let va := ptrAddr v.tl 0
      let pa := l.phys va
      s.fabWindow o.desc va = none → s.engPage c o v.tl va 8 true = .ok l → inCtl pa = false → s.lostIn pa 8 = none →
      s.awaitRound l pa 8 (.engine c ec) = none → Memory.wf s = true →
      ∃ s', exec (.retire c ec) s = .next s' ∧ Memory.wf s' = true ∧ (∀ x, s'.gtag x = s.gtag x) ∧
        (s'.engineAt c ec).queue = ((s.engineAt c ec).queue.filter fun x => x.id != o.id) ∧
        ∀ x, s'.readByte x = if pa ≤ x ∧ x < pa + 8 then
          (natBytes (min (s.read8 pa + 1) (2 ^ 64 - 1)) 8).getD (x - pa) 0 else s.readByte x) ∧
 (∀ (s : State) (c ec : Nat), c < s.cores.length → ec < (s.core c).engines.length →
    let e := s.engineAt c ec
    (e.stopped = none → exec (.engineContextRestart c ec) s = .next s ∧ exec (.engineContextCancel c ec) s = .next s) ∧
    ∀ k, e.stopped = some k →
      (∃ s', exec (.engineContextRestart c ec) s = .next s' ∧ s'.mem = s.mem ∧ s'.engineAt c ec =
        if k = 0x82 ∨ k = 0x84 ∨ k = 0x85 ∨ k = 0xA1 then e else { e with stopped := none, retireStop := false }) ∧
      ∃ s', exec (.engineContextCancel c ec) s = .next s' ∧ s'.mem = s.mem ∧
        (s'.engineAt c ec).stopped = none ∧ (s'.engineAt c ec).cancels = e.cancels + 1 ∧
        (s'.engineAt c ec).queue.tail = e.queue.tail ∧
        ∀ o, e.queue.head? = some o → (s'.engineAt c ec).queue.head? = some { o with cancelled := true, ended := true })

/-! ## Allowances (R284 to R300) -/

/-- One lane's allowance operation that its core's allowance covers completes at the core: ALTAKE, ALTAKE.t and ALTAKE.w take
n from it, ALGIVE adds n to it while it stays within the maximum (R291, R292). Other allowances and memory stay as they are.
An allowance operation that the core cannot complete goes to home: ALINIT, ALREAD and ALPEEK always, the others with what is
left of the core's allowance, which is then nothing. The lane waits for the reply (R289, R290, R292 to R294). -/
def Obligations.Allowances : Prop :=
 (∀ (h : Hdr) (d : BitVec 8) (pq : BitVec 3) (m : MemArg) (m10 : MemArg10),
    let there (i : Instr) (u : Uses) (ea : Env → Except Trap Ea) (after : Nat → Nat → Nat → Option Nat) (ws : List RWrite) : Prop :=
      ∀ s b t e a, issues s h u .named (fun l => l) b t = true → s.unstaged.doers h .named (fun l => l) b t = [e] →
        ea e = .ok a → e.chkAl (.ok a) true = .ok →
        let r := e.alReq (.ok a) .take 0
        let k := e.s.core b.core
        let n := (e.th.g d.toNat).toNat
        ∀ v, after (k.amountOf r.obj r.ctx) n ((k.allowOf r.obj r.ctx).elim 0 fun x => x.maxc) = some v →
          ∃ s' t', exec i s = .next s' ∧ (s'.core b.core).amountOf r.obj r.ctx = v ∧
            (∀ o c, (o, c) ≠ (r.obj, r.ctx) → (s'.core b.core).amountOf o c = k.amountOf o c) ∧
            s'.mem = s.mem ∧ s'.gtags = s.gtags ∧ s'.alReqs = s.alReqs ∧ s'.team? b.core b.team = some t' ∧
            Performed (s.unstaged.wordTeam h .named (fun l => l) b t) t' b h { dests := u.dests } s.cycle
              (s.unstaged.views h .named (fun l => l) b t) [e] fun _ => { writes := ws }
    let takes (have' n _max : Nat) : Option Nat := if n ≤ have' then some (have' - n) else none
    let u10 (l : List RName) : Uses := { reads := memNames10 m10 ++ [.g d.toNat], dests := l }
    there (.altake h d m10) (u10 []) (fun e => e.ea10 m10 64) takes [] ∧
    there (.altakeT h pq d m10) (u10 (predDst pq)) (fun e => e.ea10 m10 64) takes (if pq.toNat = 7 then [] else [.p pq.toNat true]) ∧
    there (.altakeW h d m10) (u10 []) (fun e => e.ea10 m10 64) takes [] ∧
    there (.algive h d m) { reads := memNames m ++ [.g d.toNat] } (fun e => e.ea m 64)
      (fun have' n max => if 0 < have' ∧ have' + n ≤ max then some (have' + n) else none) []) ∧
 (∀ (h : Hdr) (d : BitVec 8) (pq : BitVec 3) (m : MemArg) (m10 : MemArg10),
    let sends (i : Instr) (u : Uses) (ea : Env → Except Trap Ea) (write : Bool) (kind : Env → AlKind) (n : Env → Nat)
        (go : Nat → Nat → Nat → Prop) (carry : Bool) : Prop :=
      ∀ s b t e a, issues s h u .named (fun l => l) b t = true → s.unstaged.doers h .named (fun l => l) b t = [e] →
        ea e = .ok a → e.chkAl (.ok a) write = .ok →
        let r := (e.at (s.unstaged.slotStart b)).alReq (.ok a) (kind e) (n e)
        let k := e.s.core b.core
        let have' := k.amountOf r.obj r.ctx
        let max := (k.allowOf r.obj r.ctx).elim 0 fun x => x.maxc
        let sent : AlReq := if carry then { r with carried := have', maxc := max } else r
        go have' (n e) max →
        (∀ v lo hi lim, kind e = .init v lo hi lim → ({ home := v, minc := lo, maxc := hi, hlim := lim, valid := true } : AlParams).fit) →
        (∀ x ∈ k.alops, x.sent = false) →
          ∃ s' t' th, exec i s = .next s' ∧ s'.alReqs = s.alReqs ++ [sent] ∧
            (s'.core b.core).amountOf r.obj r.ctx = (if carry then 0 else have') ∧ s'.mem = s.mem ∧
            (∃ x ∈ (s'.core b.core).alops, x.b = b ∧ x.sent = true ∧ x.lanes = [sent]) ∧
            s'.team? b.core b.team = some t' ∧ t'.thread? e.g e.l = some th ∧
              th = { e.th with hold := some .allowance, awaits := u.dests }
    let short (have' n _max : Nat) : Prop := have' < n
    let u10 (l : List RName) : Uses := { reads := memNames10 m10 ++ [.g d.toNat], dests := l }
    let n (e : Env) : Nat := (e.th.g d.toNat).toNat
    sends (.altake h d m10) (u10 []) (fun e => e.ea10 m10 64) true (fun _ => .take) n short true ∧
    sends (.altakeT h pq d m10) (u10 (predDst pq)) (fun e => e.ea10 m10 64) true (fun _ => .takeT) n short true ∧
    sends (.altakeW h d m10) (u10 []) (fun e => e.ea10 m10 64) true (fun _ => .takeW) n short true ∧
    sends (.algive h d m) { reads := memNames m ++ [.g d.toNat] } (fun e => e.ea m 64) true (fun _ => .give) n
      (fun have' n max => have' = 0 ∨ max < have' + n) true ∧
    sends (.alinit h d m) { reads := memNames m ++ tupleNames d.toNat 5 } (fun e => e.ea m 64) true
      (fun e => .init (e.th.pair d.toNat).toNat (e.th.g (d.toNat + 2)).toNat (e.th.g (d.toNat + 3)).toNat (e.th.g (d.toNat + 4)).toNat)
      (fun _ => 0) (fun _ _ _ => True) false ∧
    sends (.alread h d m) { reads := memNames m, dests := pairNames d.toNat } (fun e => e.ea m 64) true (fun _ => .read)
      (fun _ => 0) (fun _ _ _ => True) false ∧
    sends (.alpeek h d m) { reads := memNames m, dests := pairNames d.toNat } (fun e => e.ea m 64) false (fun _ => .peek)
      (fun _ => 0) (fun _ _ _ => True) false)

/-- A take at home: with no waiter, and the remainder returned, home grants n and, below hlim holders, an allowance of g − n
by R293's formula; when home is short it recalls the holders, and without one the take fails or waits; behind waiters a take
waits or fails. A give at home adds its amount, which the heads of the queue that home covers then receive exactly, in order;
a sum beyond 2^63 − 1 adds nothing (R292, R295). A core's answer to a recall returns its whole allowance, which the
round of an ALINIT discards (R290), and the last answer ends the round, which home counts and writes (R287, R294). Home's reply lets the waiting lane go on: a granted take at the next word, with
true in .t's predicate; a failed ALTAKE.t with false; a failed plain ALTAKE takes cause 0x76 at the instruction (R289, R293).
-/
def Obligations.AllowanceHome : Prop :=
 (∀ (s : State) (r : AlReq), (s.alReqs.find? fun x => !isGive x && (s.alReady x || s.alShares x)) = some r →
    r.kind = .take ∨ r.kind = .takeT ∨ r.kind = .takeW → s.awaitRound (leafOf r.page) r.obj 64 .device = none → inCtl r.obj = false →
    (s.alParams r.obj).ok = true → s.alLost r.obj = false → (∀ o, s.alObj? r.obj = some o → o.raised = false) →
    r.carried < 2 ^ 63 → Memory.wf s = true →
    let p := s.alParams r.obj
    let home := p.home + r.carried
    let hs := (s.alHolders r.obj).length
    let queue := (s.alObj? r.obj).elim [] fun o => o.queue
    let g := min (max (max r.n (min p.maxc (home / (2 * (hs + 1))))) p.minc) home
    let refused : AlReply := if r.kind = .takeW then .queued else .failed
    let left (l : List AlReq) : List AlReq := if r.kind = .takeW then l ++ [r] else l
    ∃ s', exec .allowanceTakeRequest s = .next s' ∧ s'.alReqs = s.alReqs.erase r ∧ Memory.wf s' = true ∧
      (∀ x, (x < r.obj ∨ r.obj + 64 ≤ x) → s'.readByte x = s.readByte x) ∧
      (queue = [] → r.n ≤ home →
        s'.alReplies = s.alReplies ++ [(r.core, r, .done 0 p.maxc)] ∧
        s'.read8 r.obj = (if p.hlim ≤ hs then home - r.n else home - g) ∧
        (r.core < s.cores.length → (s'.core r.core).amountOf r.obj r.ctx =
          (s.core r.core).amountOf r.obj r.ctx + if p.hlim ≤ hs then 0 else g - r.n)) ∧
      (queue = [] → home < r.n → hs = 0 → s'.alReplies = s.alReplies ++ [(r.core, r, refused)] ∧ s'.read8 r.obj = home ∧
        ∃ o, s'.alObj? r.obj = some o ∧ o.queue = left [] ∧ o.round = none) ∧
      (queue = [] → home < r.n → hs ≠ 0 → s'.alReplies = s.alReplies ∧ s'.read8 r.obj = home ∧
        ∃ o, s'.alObj? r.obj = some o ∧ o.round = some (s.alHolders r.obj) ∧ o.sharing = [r]) ∧
      (queue ≠ [] → r.carried = 0 → s'.alReplies = s.alReplies ++ [(r.core, r, refused)] ∧ s'.read8 r.obj = home ∧
        ∃ o, s'.alObj? r.obj = some o ∧ o.queue = left queue)) ∧
 ((∀ (s : State) (r : AlReq), (s.alReqs.find? fun x => isGive x && (s.alReady x || s.alShares x)) = some r → s.alReady r = true →
    s.awaitRound (leafOf r.page) r.obj 64 .device = none → inCtl r.obj = false → (s.alParams r.obj).ok = true →
    s.alLost r.obj = false → (∀ o, s.alObj? r.obj = some o → o.raised = false) → Memory.wf s = true →
    let p := s.alParams r.obj
    let sum := p.home + r.carried + r.n
    let queue := (s.alObj? r.obj).elim [] fun o => o.queue
    ∃ s', exec .allowanceHomeGive s = .next s' ∧ s'.alReqs = s.alReqs.erase r ∧
      (2 ^ 63 ≤ sum → s'.alReplies = s.alReplies ++ [(r.core, r, .cause 0x77 r.carried)] ∧ s'.mem = s.mem) ∧
      (sum < 2 ^ 63 → s'.read8 r.obj = (grantHeads sum queue).1 ∧
        ∃ o, s'.alObj? r.obj = some o ∧ o.queue = (grantHeads sum queue).2.2)) ∧
  (∀ (n : Nat) (l : List AlReq),
    let x := grantHeads n l
    x.2.1 ++ x.2.2 = l ∧ x.1 + (x.2.1.map fun r => r.n).sum = n ∧ ∀ r, x.2.2.head? = some r → x.1 < r.n) ∧
  ∀ (s : State) (c obj : Nat) (o : AlObject) (l : List (Nat × Nat)), s.alObj? obj = some o → o.round = some l → (∃ x ∈ l, x.1 = c) →
    s.awaitRound (leafOf o.page) obj 64 .device = none → inCtl obj = false → Memory.wf s = true → c < s.cores.length →
    s.movingCore c = false →
    let sum := if o.discards then 0 else ((((s.core c).allow.filter fun a => a.obj == obj)).map fun a => a.amount).sum
    let left := l.filter fun x => x.1 != c
    s.read8 obj + sum < 2 ^ 64 → o.rounds + 1 < 2 ^ 64 →
    ∃ s', exec (.recallAnswer c obj) s = .next s' ∧
      (left ≠ [] ∨ (o.sharing = [] ∧ o.queue = []) → s'.read8 obj = s.read8 obj + sum ∧
        (s'.core c).allow = (s.core c).allow.filter (fun a => a.obj != obj) ∧
        s'.read8 (obj + 24) = o.rounds + if left = [] then 1 else 0) ∧
      ∃ o', s'.alObj? obj = some o' ∧ (left ≠ [] → o'.round = some left ∧ o'.queue = o.queue ∧ o'.sharing = o.sharing)) ∧
 (∀ (s : State) (c : Nat) (r : AlReq) (a : AlReply) (x : AlBundle) (t : Team) (th : Thread),
    (s.alReplies.find? fun y => y.1 == c) = some (c, r, a) → (s.core c).alops = [x] → x.sent = true → x.lanes = [r] → x.acted = [] →
    x.b.core = c → x.b.members = [(r.group, r.lane)] → s.team? c x.b.team = some t → t.halt = none →
    t.thread? r.group r.lane = some th →
    let bool (v : Bool) : List RWrite := match r.kind, x.dests with
      | .takeT, [.p n] => [.p n v]
      | _, _ => []
    let value (v : Nat) : List RWrite := match x.dests with
      | .g n :: _ => pairWrites n (BitVec.ofNat 64 v)
      | _ => []
    ∃ s' t' th', exec (.allowanceReply c) s = .next s' ∧ s'.alReplies = s.alReplies.erase (c, r, a) ∧ s'.mem = s.mem ∧
      (s'.core c).alops = [] ∧ s'.team? c x.b.team = some t' ∧ t'.thread? r.group r.lane = some th' ∧
      (∀ g m, a = .done g m → t'.halt = none ∧ th' = th.after x.h { dests := x.dests } x.b.pc s.cycle { writes := bool true }) ∧
      (∀ v k, a = .value v k → t'.halt = none ∧ th' = th.after x.h { dests := x.dests } x.b.pc s.cycle { writes := value v, clock := k }) ∧
      (a = .queued → t'.halt = none ∧ th' = th.after x.h { dests := x.dests } x.b.pc s.cycle { park := some .altake }) ∧
      (a = .failed → r.kind = .takeT → t'.halt = none ∧
        th' = th.after x.h { dests := x.dests } x.b.pc s.cycle { writes := bool false }) ∧
      (a = .failed → r.kind = .take → ∃ h, t'.halt = some h ∧ h.cause = 0x76 ∧ h.addr = r.va ∧ h.who = some (r.group, r.lane) ∧
        h.pc = x.b.pc))

/-! ## Tiles, the term array, leases, power (R54 to R59, R201 to R228, R247 to R254) -/

/-- TCFG and TZERO clear a tile that no undelivered operation reads, with a new control word or its own (R206). TLD gives a
tile the codes and scale bytes that its footprint in memory holds, row by row at the pitch P, then the scale bytes; a term
tile keeps the codes of the values. TST writes them (R203, R207). -/
def Obligations.Tiles : Prop :=
 (∀ (h : Hdr) (t : BitVec 4) (a : Src),
    let clears (ctl : Env → Tile → DWord) (e : Env) (s s' : State) (o : Out) : Prop :=
      o = {} ∧ ∀ i x, e.t.tiles[t.toNat]? = some i → (s.core e.b.core).tiles[i]? = some x → e.b.core < s.cores.length →
        ∃ y, (s'.core e.b.core).tiles[i]? = some y ∧ y.ctl = ctl e x ∧ (∀ m n, y.code m n = 0 ∧ y.scale m n = 0) ∧
          (∀ j, j ≠ i → (s'.core e.b.core).tiles[j]? = (s.core e.b.core).tiles[j]?) ∧
          s' = s.updCore e.b.core fun k => { k with tiles := (s'.core e.b.core).tiles }
    let free (e : Env) : Prop := (e.tile t.toNat).isSome = true ∧
      ∀ o ∈ (e.s.core e.b.core).ops, o.reads e.t t.toNat = false
    Acts (.tcfg h t a) h { reads := names64 a } (clears fun e _ => e.src64 a) (fun e => free e ∧ tileOk (e.src64 a) = true)
      (sel := lowestOnly) ∧
    Acts (.tzero h t) h {} (clears fun _ x => x.ctl) free (sel := lowestOnly)) ∧
 (∀ (h : Hdr) (t : BitVec 4) (scratch : Bool) (base : Src) (off : BitVec 13) (p : BitVec 8),
    let pitch (e : Env) : Nat := (e.th.g p.toNat).toNat
    let pre (m : Mode) (e : Env) (x : Tile) (f : ElemFmt) (a : Ea) : Prop :=
      e.tile t.toNat = some x ∧ x.fmt = some f ∧ e.tileEa scratch base off = .ok a ∧ a.addr % 8 = 0 ∧ pitch e % 8 = 0 ∧
      rowBytes f x.cols ≤ pitch e ∧ e.reachesAll a (tileSpans x f a.addr (pitch e)) m ∧ e.wholeWords ∧
      ∀ r ∈ tileSpans x f a.addr (pitch e), ∀ i < r.2, scratch = true ∨ e.outside (r.1 + i)
    let spans (e : Env) (x : Tile) (f : ElemFmt) (a : Ea) : List (Nat × Nat) := tileSpans x f a.addr (pitch e)
    let u : Uses := { reads := tileNames scratch base p }
    let rd : Mode := { reads := true, writes := false }
    let wr : Mode := { reads := false, writes := true }
    let held (x : Tile) (f : ElemFmt) (code : Nat → Nat → Nat) (scale : Nat → Nat → Nat) (i j : Nat) : Nat :=
      if x.term then termCode f (code i j) (if f = .b4 then scale i j else 0) else code i j
    Acts (.tld h t scratch base off p) h u
      (fun e s s' o => o = { clock := o.clock } ∧ ∀ x f a, pre rd e x f a →
        let sc (i j : Nat) : Nat := (e.byteAt scratch (a.addr + x.rows * pitch e + i * scaleBytes f x.cols + j / 32)).toNat
        let code (i j : Nat) : Nat :=
          if f = .b4 then (e.byteAt scratch (a.addr + i * pitch e + j / 2)).toNat / 16 ^ (j % 2) % 16
          else e.numAt scratch (a.addr + i * pitch e + j * (elemBits f / 8)) (elemBits f / 8)
        ∃ s1 y, OnlyRead e scratch s s1 ∧ s' = s1.setTile e.b.core e.t t.toNat y ∧ y.ctl = x.ctl ∧
          ∀ i j, i < x.rows → j < x.cols → y.code i j = held x f code sc i j ∧ y.scale i j = if f = .b4 then sc i j else 0)
      (fun e => ∃ x f a, pre rd e x f a ∧ e.tileBusy t.toNat = false ∧
        let y := x.ofImage f (e.peekSpans a (spans e x f a))
        (x.term = true → y.poolBytes f ≤ 1024 ∧ y.shiftOut f = false))
      (sel := lowestOnly) ∧
    Acts (.tst h t scratch base off p) h u
      (fun e s s' o => o = { clock := o.clock } ∧ ∀ x f a tm, pre wr e x f a → s.team? e.b.core e.b.team = some tm →
        let row (i k : Nat) : Byte :=
          if f = .b4 then BitVec.ofNat 8 (x.code i (2 * k) + 16 * (if 2 * k + 1 < x.cols then x.code i (2 * k + 1) else 0))
          else BitVec.ofNat 8 (x.code i (k / (elemBits f / 8)) / 256 ^ (k % (elemBits f / 8)))
        let at' (n k : Nat) : Byte := if n < x.rows then row n k else amGet 0 x.scales (k / scaleBytes f x.cols * 8 + k % scaleBytes f x.cols)
        let w : List (Nat × Byte) := (mapIdxFrom (fun n r => (List.range r.2).map fun k => (r.1 + k, at' n k)) 0
          (spans e x f a)).flatten
        if scratch then amWf 0 0 tm.scratch = true → ∃ tm', ScratchOnly e s s' tm tm' ∧ amWf 0 0 tm'.scratch = true ∧
          (∀ i, i ∈ tm'.lost ↔ i ∈ tm.lost ∧ ∀ y ∈ w, y.1 ≠ i) ∧
          ∀ b, amGet 0 tm'.scratch b = ((w.reverse.find? fun y => y.1 == b).map fun y => y.2).getD (amGet 0 tm.scratch b)
        else Memory.wf s = true → Written s s' (w.filterMap fun y => (s.hitLeaf e.b.core e.t.ctx y.1).map fun l => (l.phys y.1, y.2)))
      (fun e => ∃ x f a, pre wr e x f a ∧ x.lost = false)
      (sel := lowestOnly))

/-- MMT and MMT.C enqueue an operation with the block, the format word and the tiles as they stand, the starting accumulators
of the threads it claims, and the current it demands; the thread goes on, or parks for a lease (R213, R215, R222, R227). TBND
writes the bound W of R219 (R220), MMTS the status of a tag's operation (R226). -/
def Obligations.MatrixOperations : Prop :=
  ∀ (h : Hdr) (d : BitVec 8) (n : BitVec 3) (m : MatArg),
    let block (e : Env) : Prop := ∃ a, e.blockEa m = .ok a ∧ e.reaches a 64 { reads := true, writes := false, l1 := true }
    let reader (mode : Mode) (e : Env) (y : Stream) (p : Nat × Nat) : Prop :=
      e.allows { scratch := false, addr := p.1, tag := BitVec.ofNat 4 (fld y.ptr 56 4), ro := false, xn := false } p.2 mode
    let pre (pin : Bool) (e : Env) : Prop :=
      let x := e.matNow m
      block e ∧ e.voteFails m.b = false ∧ e.matCauses x = none ∧ e.gr.matTags < 2 ∧ e.claimClash x.v d.toNat = false ∧ e.chkStart x = .ok ∧
      (pin = true → ∀ y ∈ x.streams, ∀ sp ∈ y.spans, ∀ p ∈ pieces sp.1 sp.2, reader { reads := false, writes := false } e y p) ∧
      (x.v.cs = true → x.v.csp = false → ∃ l, e.s.translate e.b.core e.t.ctx (fld x.v.ccnt 0 56) = .hit l ∧
        (l.sup = true → e.t.sup = true) ∧ l.ro = false ∧
        e.s.gtag (l.phys (fld x.v.ccnt 0 56)) = BitVec.ofNat 4 (fld x.v.ccnt 56 4))
    let look (e : Env) : Prop := beyond e.t.nregs (names32 m.b) = false ∧ e.th.inWindow (names32 m.b) = false ∧
      fwOfLane e.t e.g e.l m.b = fwOfLane e.t e.elected.1 e.elected.2 m.b
    let eff (pin : Bool) (e : Env) (s s' : State) (o : Out) : Prop :=
      let x := e.matNow m
      let v := x.v
      let demand := x.w * v.m * v.n
      let need := e.needsLease demand
      let draw := need && e.leaseFor demand
      ∃ s1 op, OnlyRead e m.scratch s s1 ∧ e.th.clock ≤ o.clock ∧
        o = { op := some s.nextOp, clock := o.clock, pc := some (e.b.pc + 10), park := if need && !draw then some .grant else none } ∧
        s' = { (if draw then s1.updGroup e.b.core e.b.team e.g fun g =>
            { g with lease := g.lease.map fun l => { l with left := l.left - demand } } else s1).updCore e.b.core fun k =>
              { k with ops := k.ops ++ [op] } with nextOp := s.nextOp + 1 } ∧
        op.id = s.nextOp ∧ op.team = e.t.id ∧ op.group = e.g ∧ op.lane = e.l ∧ op.tag = h.tag.toNat ∧ op.ctx = e.t.ctx ∧
        op.sup = e.t.sup ∧ op.fw = x.fw ∧ op.block = x.b ∧ op.tileA = x.ta ∧ op.tileB = x.tb ∧ op.state = .queued ∧ op.p = 0 ∧
        op.target = none ∧ op.fault = none ∧ op.pinned = pin ∧ op.demand = (if need then demand else 0) ∧
        op.drawn = (if draw then demand else 0) ∧ op.granted = none ∧ op.cancelled = false ∧ op.rows.length = v.m ∧
        ∀ i j r, op.rows[i]? = some r → r.done = 0 ∧ (∀ th, j < min v.n 64 → e.t.thread? v.glo j = some th →
            ((op.start.getD i []).getD j 0 = if v.z then 0 else th.g (v.cbase + i))) ∧
          ∀ th, 64 ≤ j → j < v.n → e.t.thread? v.ghi (j - 64) = some th →
            ((op.start.getD i []).getD j 0 = if v.z then 0 else th.g (v.cbase + i))
    let u : Uses := { reads := matNames m, dests := [.g d.toNat], matrix := true }
    Acts (.mmt h d m) h u (eff false) (pre false) (all := .elected) (sel := lowestOnly) (look := look) ∧
    Acts (.mmtC h d m) h u (eff true) (pre true) (all := .elected) (sel := lowestOnly) (look := look) ∧
    Acts (.tbnd h d m) h { reads := matNames m, dests := [.g d.toNat] }
      (fun e s s' o => OnlyRead e m.scratch s s' ∧
        let x := e.matNow m
        let t := match x.fa with | .s8 => 4 | .bf16 => 5 | .e4m3 => 3 | .b4 => if x.v.pw then 1 else 2 | _ => 2
        let w := x.v.k * t + (x.v.k + 31) / 32 * 2 +
          (x.v.k + 7) / 8 * (if fwLay x.fw = true ∧ x.v.allot < 8 * t then 1 else 0) + 16
        o = { writes := [.g d.toNat (BitVec.ofNat 32 w)], clock := o.clock })
      (fun e => block e ∧ e.matCauses (e.matNow m) = none) ∧
    Computes (.mmts h d n) h { dests := [.g d.toNat] } (fun e =>
      [.g d.toNat (match e.tagOp n.toNat with
        | none => 0
        | some o => 0x80000000 + BitVec.ofNat 32 ((match o.state with
            | .queued => 0 | .leaseWait => 1 | .running => 2 | .stopping => 2 | .stopped => 3 | .faulted => 4) * 2 ^ 28 +
          o.minDone * 2 ^ 16 + min o.replays 255 * 2 ^ 8))])

/-- The fold of a k-block. Integer accumulation adds the exact sum of products and clamps once (R59). Floating accumulation
sums in a window whose unit is 2^56 below the greatest product's leading bit: every term loses less than a unit, downwards,
and the sticky bit says that something was lost (R56); the fold rounds the sum once, to nearest, upwards from a tie when the
sticky bit is set, with R38's overflow (R57). Non-finite values act as R58 says. The model time of an operation never exceeds W: if no step of any
row costs more than its format's terms, the entry into a spilled segment and the fold, then R218's recurrence ends within
R219's bound. -/
def Obligations.MatrixArithmetic : Prop :=
 ((∀ (o : MatOp) (as : List (Nat × Nat)) (bs : List (List (Nat × Nat))) (j : Nat) (acc : Word), fwAcc o.fw = 1 → o.fmtA = .s8 →
    o.fmtB = .s8 → (∀ x ∈ as, x.1 < 256) → (∀ d, ((bs.getD d []).getD j (0, 0)).1 < 256) →
    let a (d : Nat) : Int := (BitVec.ofNat 8 (as.getD d (0, 0)).1).toInt
    let b (d : Nat) : Int := (BitVec.ofNat 8 ((bs.getD d []).getD j (0, 0)).1).toInt
    let sum := ((List.range as.length).map fun d => a d * b d).sum
    foldOne o as bs j acc = BitVec.ofInt 32 (max (-(2 ^ 31)) (min (2 ^ 31 - 1) (acc.toInt + sum)))) ∧
  (∀ l : List KStep, (∀ x ∈ l, (∃ s m e, x.a = .fin s m e) ∧ ∃ s m e, x.b = .fin s m e) →
    let exact := (l.map fun x => (x.terms.map fun t => (if t.neg then -1 else 1) * (2 : ℚ) ^ t.shift * x.b.rat).sum).sum
    let top (x : KStep) (p : Int) : Prop := ∃ t r, x.terms = t :: r ∧ (2 : ℚ) ^ p ≤ (2 : ℚ) ^ t.shift * |x.b.rat| ∧
      (2 : ℚ) ^ t.shift * |x.b.rat| < (2 : ℚ) ^ (p + 1)
    ∃ (v u : Int) (sticky : Bool), blockFloat l = .fin v u sticky ∧ (v : ℚ) * 2 ^ u ≤ exact ∧
      exact ≤ v * 2 ^ u + (l.map fun x => x.terms.length).sum * 2 ^ u ∧ (sticky = true ↔ exact ≠ v * 2 ^ u) ∧
      (∀ x ∈ l, ∀ p, top x p → p ≤ u + 56) ∧ ((∃ x ∈ l, ∃ p, top x p) → ∃ x ∈ l, top x (u + 56))) ∧
  (∀ (acc : Word) (v u : Int) (sticky : Bool) (a : ℚ), f32.num? acc.toNat = some a →
    let sum : ℚ := a + v * 2 ^ u
    let encodable (y : ℚ) : Prop := ∃ c, c < 2 ^ 32 ∧ f32.num? c = some y
    let code := foldFloat acc (.fin v u sticky)
    (v = 0 → sticky = false → code = acc) ∧
    (v ≠ 0 ∨ sticky = true → |sum| ≤ (f32.read f32.maxc).rat → ∃ r, f32.num? code.toNat = some r ∧ (sum = 0 → code = 0) ∧
      (sticky = false → IsRounding encodable .rne sum r ∧
        ∀ y, encodable y → y ≠ r → |sum - y| = |sum - r| → code.toNat % 2 = 0) ∧
      (sticky = true → ∃ ε > 0, ∀ δ, 0 < δ → δ < ε → IsRounding encodable .rne (sum + δ) r))) ∧
  (∀ (acc : Word) (v u : Int) (sticky : Bool) (a : ℚ), f32.num? acc.toNat = some a →
    let sum : ℚ := a + v * 2 ^ u
    let edge : ℚ := 2 ^ 128 - 2 ^ 103
    let code := foldFloat acc (.fin v u sticky)
    ((f32.read f32.maxc).rat < sum → code = if edge ≤ sum then 0x7F800000 else 0x7F7FFFFF) ∧
    (sum < -(f32.read f32.maxc).rat → code = if sum < -edge ∨ (sum = -edge ∧ sticky = false) then 0xFF800000 else 0xFF7FFFFF)) ∧
  (∀ l : List KStep,
    let ps := l.map fun x => x.a.mul x.b
    (.nan ∈ ps ∨ (.inf false ∈ ps ∧ .inf true ∈ ps) → blockFloat l = .nan) ∧
    ∀ s, .inf s ∈ ps → .nan ∉ ps → .inf (!s) ∉ ps → blockFloat l = .inf s) ∧
  ∀ (acc : Word) (s : Bool) (v u : Int) (sticky : Bool),
    foldFloat acc .nan = 0x7FC00000 ∧
    foldFloat acc (.inf s) = (if f32.read acc.toNat = .inf (!s) then 0x7FC00000 else if s then 0xFF800000 else 0x7F800000) ∧
    (v ≠ 0 ∨ sticky = true →
      (∀ t, f32.read acc.toNat = .inf t → foldFloat acc (.fin v u sticky) = acc) ∧
      (f32.read acc.toNat = .nan → foldFloat acc (.fin v u sticky) = 0x7FC00000))) ∧
 (∀ (f : ElemFmt) (pw lay : Bool) (k allot d g : Nat) (costs : List (List Nat)), f ∈ [.s8, .bf16, .e4m3, .e5m2, .b4] → 0 < k → 0 < g →
    let t := match f with | .s8 => 4 | .bf16 => 5 | .e4m3 => 3 | .b4 => if pw then 1 else 2 | _ => 2
    let spill := if lay = true ∧ allot < 8 * t then 1 else 0
    (∀ row ∈ costs, ∀ i < k, row.getD i 0 ≤
      t + (if i % 8 = 0 then spill else 0) + (if (i + 1) % 32 = 0 ∨ i + 1 = k then 2 else 0)) →
    modelTime d g k costs ≤ k * t + (k + 31) / 32 * 2 + (k + 7) / 8 * spill + 16)

/-- The term array works on the first operation that is not stopped: it reads the next k-block of a row, its elements of A and B
from the tiles or by the aligned words of their streams, and when the row has run through the block's steps its accumulators take the
folds (R210, R216, R217). Nothing happens before. Delivery writes the accumulators into the claimed registers of the columns' threads and
the status into the elected thread's tag, adds 1 to the cluster counter of a split operation, and the operation is gone (R214, R216,
R244). A stopping operation whose rows have reached the target stops with p at the target, its accumulators as after p blocks, and its
lease returned; when its team may run by then it rejoins the queue (R221, R251). Cancellation marks the stopped operation of a halted
team, which then delivers 0x8000_0000 + p (R225). -/
def Obligations.TermArray : Prop :=
 (∀ (s : State) (c row : Nat) (o0 : MatOp) (r : OpRow), s.folds = true → (s.core c).headOp = some o0 →
    let o := o0.begin s.cycle
    o.rows[row]? = some r → o.state = .running ∨ o.state = .stopping → r.done < o.limit →
    (let v := o.view
     let b := r.done
     let n := min 32 (v.k - 32 * b)
     let xa := v.streamA o.fmtA o.wrank
     let xb := v.streamB o.fmtB o.wrank
     let as := (List.range n).map fun d => match o.tileA with
       | some t => (t.code (v.arow + row) (v.acol + 32 * b + d), t.scale (v.arow + row) (v.acol + 32 * b + d))
       | none => s.streamElem c o xa row (32 * b + d)
     let bs := (List.range n).map fun d => (List.range v.n).map fun j => match o.tileB with
       | some t => (t.code (v.brow + 32 * b + d) (v.bcol + j), t.scale (v.brow + 32 * b + d) (v.bcol + j))
       | none => s.streamElem c o xb (32 * b + d) j
     r.next = none →
     (o.tileA = none → 0 < n ∧ ∀ sp ∈ [xa.rowSpan row (32 * b) n, xa.scaleSpan row (32 * b) n], s.streamReady c o b false xa sp) →
     (o.tileB = none → 0 < v.n ∧
       ∀ d < n, ∀ sp ∈ [xb.rowSpan (32 * b + d) 0 v.n, xb.scaleSpan (32 * b + d) 0 v.n], s.streamReady c o b true xb sp) →
     (v.pw = true → ∀ a ∈ as, a.2 / 64 % 4 = 2 ∨ a.2 % 64 = 63) →
      ∃ s' o', exec (.fold c row) s = .next s' ∧ s'.mem = s.mem ∧ s'.gtags = s.gtags ∧ o' ∈ (s'.core c).ops ∧ o'.id = o.id ∧
        o'.state = o.state ∧ o'.rows[row]? = some { r with next := some (as, bs), costs := r.costs ++ stepCosts o row b as } ∧
        ∀ j, j ≠ row → o'.rows[j]? = o.rows[j]?) ∧
    ∀ as bs, r.next = some (as, bs) →
      (o.due s.cycle row = false → exec (.fold c row) s = .next s) ∧
      (o.due s.cycle row = true → ∃ s' o', exec (.fold c row) s = .next s' ∧ s'.mem = s.mem ∧ o' ∈ (s'.core c).ops ∧ o'.id = o.id ∧
        (∀ j, j ≠ row → o'.rows[j]? = o.rows[j]?) ∧ ∃ r' new, o'.rows[row]? = some r' ∧ r'.done = r.done + 1 ∧ r'.next = none ∧
          r'.costs = r.costs ∧ r'.history = new :: r.history ∧
          new = mapIdxFrom (fun j a => foldOne o as bs j a) 0 (r.history.headD []))) ∧
 ((∀ (s : State) (c : Nat) (o : MatOp) (t : Team), s.works = true → (s.core c).deliverable s.cycle = some o →
    s.findTeam c o.ctx o.vtid = some t → o.glo ≠ o.ghi ∨ o.n ≤ 64 →
    let v := o.view
    let w := fld v.ccnt 0 24
    let sum (x : Nat) : Nat := min (x + 1) (2 ^ 64 - 1)
    let fin (i n : Nat) : Word := (((o.rows[i]?).elim [] fun r => r.history.headD []).getD n 0)
    let status : Nat := if o.cancelled then 0x80000000 + o.p else modelTime v.d v.g v.k (o.rows.map fun r => r.costs)
    let gone (s' : State) : Prop := (s'.core c).ops = (s.core c).ops.filter fun x => x.id != o.id
    (v.cs = false → ∃ s' t', exec (.matrixDelivery c) s = .next s' ∧ s'.mem = s.mem ∧ s'.findTeam c o.ctx o.vtid = some t' ∧ gone s' ∧
      t'.scratch = t.scratch ∧
      ∀ g l th, t.thread? g l = some th → ∃ th', t'.thread? g l = some th' ∧ th'.pc = th.pc ∧ th'.preds = th.preds ∧
        (∀ i < th.regs.length, th'.g i =
          if o.cbase ≤ i ∧ i < o.cbase + o.rows.length ∧ g = o.glo ∧ l < min o.n 64 then fin (i - o.cbase) l
          else if o.cbase ≤ i ∧ i < o.cbase + o.rows.length ∧ g = o.ghi ∧ 64 < o.n ∧ l + 64 < o.n then fin (i - o.cbase) (l + 64)
          else th.g i) ∧
        (¬ (g = o.group ∧ l = o.lane) → th'.tags = th.tags) ∧
        (g = o.group → l = o.lane → ∀ x d, th.tags[o.tag]? = some (some x) → x.dests = [.g d] →
          th'.tags[o.tag]? = some (some { x with delivered := true, held := [.g d (BitVec.ofNat 32 status)] }))) ∧
    (∀ k x, v.cs = true → v.csp = true → s.peerOf o.grid o.cluster v.crank = some (k, x) → s.findTeam k x.ctx x.vtid = some x →
      x.lostIn w 8 = false → amWf 0 0 x.scratch = true →
      ∃ s' x', exec (.matrixDelivery c) s = .next s' ∧ s'.mem = s.mem ∧ gone s' ∧ s'.findTeam k x.ctx x.vtid = some x' ∧
        ∀ i, amGet 0 x'.scratch i = if w ≤ i ∧ i < w + 8 then (natBytes (sum (bytesNat (x.scratchRead w 8))) 8).getD (i - w) 0
          else amGet 0 x.scratch i) ∧
    ∀ y, v.cs = true → v.csp = false → o.ccnt = some y →
      let pa := (leafOf y).phys (fld v.ccnt 0 56)
      plain pa 8 → s.lostIn pa 8 = none → s.awaitRound (leafOf y) pa 8 (.array c) = none → Memory.wf s = true →
      ∃ s', exec (.matrixDelivery c) s = .next s' ∧ gone s' ∧ Memory.wf s' = true ∧ (∀ i, s'.gtag i = s.gtag i) ∧
        ∀ i, s'.readByte i = if pa ≤ i ∧ i < pa + 8 then (natBytes (sum (s.read8 pa)) 8).getD (i - pa) 0 else s.readByte i) ∧
  (∀ (s : State) (c i : Nat) (o : MatOp), s.folds = true → (s.core c).ops[i]? = some o → o.state = .stopping → o.reached = true →
    let again : Prop := o.fault = none ∧ o.cancelOnly = false ∧ o.cancelled = false ∧ s.works = true ∧
      ∃ t, (s.core c).teams.find? o.of = some t ∧ s.opsRun c t = true
    let stopped (o' : MatOp) : Prop := o'.p = o.limit ∧ o'.drawn = 0 ∧ o'.granted = none ∧ o'.tag = o.tag ∧ o'.id = o.id ∧
      o'.rows.length = o.rows.length ∧
      ∀ (m : Nat) (r : OpRow), o.rows[m]? = some r → o'.rows[m]? =
        some ({ done := o.limit, next := none, history := r.history.drop (r.done - o.limit), costs := r.costs.take (32 * o.limit) } : OpRow)
    (¬ again → ∃ s' o', exec (.operationStop c i) s = .next s' ∧ s'.mem = s.mem ∧ (s'.core c).ops[i]? = some o' ∧
      (∀ j, j ≠ i → (s'.core c).ops[j]? = (s.core c).ops[j]?) ∧ stopped o' ∧
      o'.state = (if o.fault.isSome then .faulted else .stopped)) ∧
    (again → ∃ s' o', exec (.operationStop c i) s = .next s' ∧ s'.mem = s.mem ∧ (s'.core c).ops = (s.core c).ops.eraseIdx i ++ [o'] ∧
      stopped o' ∧ o'.state = .queued ∧ o'.target = none)) ∧
  ∀ (s : State) (c ctx vtid g l tag : Nat) (t : Team), s.findTeam c ctx vtid = some t → t.halt.isSome = true → c < s.cores.length →
    let hit (o : MatOp) : Prop := o.ctx = ctx ∧ o.vtid = vtid ∧ o.group = g ∧ o.lane = l ∧ o.tag = tag ∧
      (o.state = .stopped ∨ o.state = .faulted ∨ o.cancelled = true)
    let done (o : MatOp) : MatOp := { o with cancelled := true }
    ∃ s', exec (.matrixCancel c ctx vtid g l tag) s = .next s' ∧ s'.mem = s.mem ∧
      (s'.core c).ops = ((s.core c).ops.map fun o => if hit o then done o else o) ++
        (((s.images.filter fun x => x.core == c).map fun x => x.ops.filter fun o => hit o).flatten.map done))

/-- LEASE.t is granted at once or not at all; LEASE parks its thread with a request behind those of its cluster; each first
returns the group's lease, as LREL does (R228, R252). A team without a cluster is granted nothing. An operation at the head of its
queue that needs a lease enters its cluster's queue behind the requests made earlier, and among those of one cycle by the rank of
the core; a request keeps the capacity and the lifetime in force when it was made (R250). The head request, and no other, is granted
when the pool and the rail allow it; an explicit lease lapses when its time is over (R227, R228, R251 to R254). A Light meter reading
above the up threshold of the pass count doubles the count, and so does one while a limit of the rail is about to be broken (log 47);
a fall halves it, but heat lets it rise; a count is never beyond 4 nor below 1, and two changes are at least 1,100 cycles apart (R247
to R249). -/
def Obligations.LeasesAndPower : Prop :=
 (∀ (h : Hdr) (d : BitVec 8) (m : MatArg),
    let pre (e : Env) : Prop := (∃ a, e.blockEa m = .ok a ∧ e.reaches a 64 { reads := true, writes := false, l1 := true }) ∧
      e.voteFails m.b = false ∧ e.matCauses (e.matNow m) = none
    let look (e : Env) : Prop := beyond e.t.nregs (names32 m.b) = false ∧ e.th.inWindow (names32 m.b) = false ∧
      fwOfLane e.t e.g e.l m.b = fwOfLane e.t e.elected.1 e.elected.2 m.b
    let demand (e : Env) : Nat := (e.matNow m).w * (e.matNow m).v.m * (e.matNow m).v.n
    let given (l : Option ExpLease) (e : Env) (s s' : State) : Prop :=
      s' = s.updGroup e.b.core e.b.team e.g fun g => { g with lease := l }
    let pd : BitVec 3 := d.truncate 3
    let alone (e : Env) (s2 : State) : Prop := s2.clusterOf e.t.grid e.t.cluster = none
    Acts (.lease h true d m) h { reads := matNames m, dests := predDst pd }
      (fun e s s' o => ∃ s1 s2, OnlyRead e m.scratch s s1 ∧ given none e s1 s2 ∧
        (alone e s2 → o = { writes := writeP pd false, clock := o.clock } ∧ s' = s2) ∧
        ∀ x, s2.clusterOf e.t.grid e.t.cluster = some x →
          let life := s2.lifetimeOf x.pool
          let ok := x.queue.isEmpty && s2.canGrant x (demand e) (s2.capacityOf x.pool) life
          o = { writes := writeP pd ok, clock := o.clock } ∧
          if ok then given (some { left := demand e, expiry := s.cycle + life }) e s2 s' else s' = s2)
      pre (all := .elected) (sel := lowestOnly) (look := look) ∧
    Acts (.lease h false d m) h { reads := matNames m, dests := [.g d.toNat] }
      (fun e s s' o => ∃ s1 s2, OnlyRead e m.scratch s s1 ∧ given none e s1 s2 ∧
        (alone e s2 → o = { writes := [.g d.toNat 0], clock := o.clock } ∧ s' = s2) ∧
        ∀ x, s2.clusterOf e.t.grid e.t.cluster = some x →
          o = { park := some .lease, late := true, clock := o.clock } ∧
          let r : LeaseReq := { who := .explicit e.ref, q := demand e, at_ := s.cycle, rank := e.s.rankOf e.t e.b.core,
                                cap := s2.capacityOf x.pool, life := s2.lifetimeOf x.pool }
          s' = s2.updCluster x.id fun y => { y with queue := insertReq r y.queue })
      pre (all := .elected) (sel := lowestOnly) (look := look) ∧
    Acts (.lrel h) h {} (fun e s s' o => o = {} ∧ given none e s s') (sel := lowestOnly)) ∧
 ((∀ (r : LeaseReq) (l : List LeaseReq), ∃ l1 l2, l = l1 ++ l2 ∧ insertReq r l = l1 ++ r :: l2 ∧
    (∀ z ∈ l1, ¬ (z.at_ = r.at_ ∧ r.rank < z.rank)) ∧ ∀ z, l2.head? = some z → z.at_ = r.at_ ∧ r.rank < z.rank) ∧
  (∀ (s : State) (c : Nat) (o : MatOp) (x : Cluster), (s.core c).headOp = some o → s.clusterOf o.grid o.cluster = some x →
    o.state = .queued → o.demand ≠ 0 → o.drawn = 0 → o.granted = none → s.works = true →
    let r : LeaseReq := { who := .op c o.id, q := o.demand, at_ := s.cycle, rank := o.wrank, cap := s.capacityOf x.pool,
                          life := s.lifetimeOf x.pool }
    ∃ s', exec (.leaseRequest c) s = .next s' ∧ s'.mem = s.mem ∧
      s'.clusters = (s.clusters.map fun y => if y.id = x.id then { y with queue := insertReq r y.queue } else y) ∧
      (s'.core c).ops = (s.core c).ops.map fun y => if y.id = o.id then { y with state := .leaseWait } else y) ∧
  (∀ (s : State) (x : Cluster) (r : LeaseReq) (rest : List LeaseReq),
    let fits : Prop := r.at_ < s.cycle ∧ (r.q + s.heldOf x ≤ r.cap ∨ (r.cap < r.q ∧ s.heldOf x = 0)) ∧
      s.railAllows r.q (s.requestW r) = true
    s.clusters.find? (fun y => y.id == x.id) = some x → x.queue = r :: rest → s.works = true →
    (¬ fits → exec (.leaseGrant x.id) s = .next s) ∧
    (fits → ∃ s', exec (.leaseGrant x.id) s = .next s' ∧ s'.mem = s.mem ∧
      (s'.clusters = s.clusters.map fun y => if y.id = x.id then { y with queue := rest } else y) ∧
      (∀ c id, r.who = .op c id → 0 < r.q → (s'.core c).ops = (s.core c).ops.map fun y => if y.id = id then
        (if y.state = .queued ∨ y.state = .leaseWait then
          { y with granted := some (r.q, s.cycle), state := .running, began := s.cycle, base := y.p, since := s.cycle }
        else { y with granted := some (r.q, s.cycle) }) else y) ∧
      ∀ t th, r.who = .explicit t → s.thread? t = some th → th.park = some .lease → ∃ th' y', s'.thread? t = some th' ∧ th'.park = none ∧ th'.pc = th.pc + 10 ∧
          th'.regs = th.regs ∧ s'.team? t.core t.team = some y' ∧
          (y'.groups[t.group]?).map (fun g => g.lease) =
            some (some { left := r.q, expiry := s.cycle + r.life }))) ∧
  ∀ (s : State) (c id g : Nat), exec (.leaseExpiry c id g) s = .next (s.updTeam c id fun y => y.updGroup g fun z =>
      { z with lease := z.lease.filter fun l => s.cycle < l.expiry })) ∧
 (∀ (s : State) (x : Cluster), s.clusters.find? (fun y => y.id == x.id) = some x →
    let th (o : Nat) : Nat := sliceNat (s.classes.getD x.pool []) o 2
    let up : Nat := if x.q = 1 then th 12 else if x.q = 2 then th 14 else 0
    let down : Nat := if x.q = 2 then th 16 else if x.q = 4 then th 18 else 0
    (∀ v, ∃ s' y, exec (.lightMeterReading x.id v) s = .next s' ∧ s'.clusters.find? (fun y => y.id == x.id) = some y ∧
      s'.cores = s.cores ∧ s'.mem = s.mem ∧ y.reading = v ∧ y.queue = x.queue ∧
      let rises : Prop := ((up ≠ 0 ∧ up < v) ∨ (s'.railOver = true ∧ x.q < 4)) ∧ x.changed + 1100 ≤ s.cycle
      (rises → y.q = 2 * x.q ∧ y.changed = s.cycle) ∧
      (¬ rises → y.q = x.q ∧ y.changed = x.changed ∧
        y.below = if down ≠ 0 ∧ v < down then some (x.below.getD s.cycle) else none)) ∧
    ∃ s' y, exec (.passCountFall x.id) s = .next s' ∧ s'.clusters.find? (fun y => y.id == x.id) = some y ∧ s'.cores = s.cores ∧
      s'.mem = s.mem ∧
      let dwell := if sliceNat (s.classes.getD x.pool []) 20 4 = 0 then 110000 else sliceNat (s.classes.getD x.pool []) 20 4
      let falls : Prop := 1 < x.q ∧ x.heat = false ∧ x.changed + 1100 ≤ s.cycle ∧ ∃ b, x.below = some b ∧ b + dwell ≤ s.cycle
      (falls → y = { x with q := x.q / 2, changed := s.cycle, below := none }) ∧ (¬ falls → x.heat = false → y = x) ∧
      (x.heat = true → y = if x.q < 4 ∧ x.changed + 1100 ≤ s.cycle then { x with q := 2 * x.q, changed := s.cycle, below := none } else x))

/-! ## Launches, exceptions, system instructions (R13, R76 to R82, R302 to R322, R329 to R333, R354 to R358) -/

/-- LNCH appends a block of 256 bytes to a launch queue and adds one to its producer counter, with a push; a full queue stops
it, or LNCH.t reports it (R330, R333). -/
def Obligations.Launches : Prop :=
  ∀ (h : Hdr) (t : Bool) (d n : BitVec 3) (a : Src),
    let aligned (p al : Nat) : Prop := p / 2 ^ 60 = 0 ∧ p % 2 ^ 56 % al = 0
    let allowed (e : Env) (p al w : Nat) (m : Mode) : Prop := aligned p al ∧
      e.allows { scratch := false, addr := p % 2 ^ 56, tag := BitVec.ofNat 4 (p / 2 ^ 56), ro := false, xn := false } w m
    let rd : Mode := { reads := true, writes := false }
    let wr : Mode := { reads := false, writes := true }
    let slot (q : Queue) (p : Nat) : Nat := (q.base.toNat + 256 * (p % 2 ^ q.qsize)) % 2 ^ 64
    let full (q : Queue) (p c : Nat) : Prop := 2 ^ q.qsize + c ≤ p
    let ok (v : Bool) : List RWrite := if t then writeP d v else []
    Acts (.lnch h t d n a) h { reads := names64 a, dests := if t then predDst d else [] }
      (fun e s s' o =>
        let pb := (e.src64 a).toNat
        let q := s.queueAt e.t.desc n.toNat
        let leaf (p : Nat) : Option Leaf := s.hitLeaf e.b.core e.t.ctx (p % 2 ^ 56)
        let pa (l : Leaf) (p : Nat) : Nat := l.phys (p % 2 ^ 56)
        aligned pb 256 → aligned q.prod.toNat 8 → aligned q.cons.toNat 8 →
        ∀ lb lp lc, leaf pb = some lb → leaf q.prod.toNat = some lp → leaf q.cons.toNat = some lc →
          plain (pa lb pb) 256 → plain (pa lp q.prod.toNat) 8 → plain (pa lc q.cons.toNat) 8 →
          let prod := bytesNat (s.readBytes (pa lp q.prod.toNat) 8)
          let cons := bytesNat (s.readBytes (pa lc q.cons.toNat) 8)
          o = { writes := o.writes, clock := o.clock } ∧
          (full q prod cons → SameMemory s s' ∧ o.writes = ok false) ∧
          (¬ full q prod cons → ∀ ls, leaf (slot q prod) = some ls → aligned (slot q prod) 8 → plain (pa ls (slot q prod)) 256 →
            Memory.wf s = true → ∃ s1 s2, o.writes = ok true ∧
              Stored s s1 (pa ls (slot q prod)) (s.readBytes (pa lb pb) 256) ∧
              Stored s1 s2 (pa lp q.prod.toNat) (natBytes ((prod + 1) % 2 ^ 64) 8) ∧ s' = s2.pushWord (pa lp q.prod.toNat)))
      (fun e =>
        let pb := (e.src64 a).toNat
        let q := e.s.queueAt e.t.desc n.toNat
        let prod := (bytesNat (e.peekPtr q.prod.toNat 8) + e.lowerLanes) % 2 ^ 64
        let cons := bytesNat (e.peekPtr q.cons.toNat 8)
        allowed e pb 256 256 rd ∧ q.valid = true ∧ q.dev = true ∧
        blockReason (e.peekPtr pb 256) (e.s.ctxAt e.t.desc).sup = none ∧
        allowed e q.prod.toNat 8 8 rd ∧ allowed e q.cons.toNat 8 8 rd ∧ (full q prod cons → t = true) ∧
        (¬ full q prod cons → allowed e (slot q prod) 8 256 wr ∧ allowed e q.prod.toNat 8 8 wr))

/-- TRAP and SYSC complete and halt their team with causes 0x0A and 0x0B; a supervisor instruction at user level takes cause
0x05, a branch to an address that is no multiple of 10 cause 0x06; a load, store or reduction whose address fails a check of
R133 or R134 takes that check's cause. Hazards stop a word before anything of it happens: a register beyond the team's count
(R13, cause 0x04), a register in an open window or a destination in a tag's set (R77, R80, 0x07), a misused tag or count
(R81, 0x08). The loss of a register comes after these as cause 0xA1; that order is the model's choice (log 48). -/
def Obligations.WhereWordsTrap : Prop :=
 (∀ (h : Hdr) (imm : BitVec 31) (d r : BitVec 8) (a b : Src) (ty : MemTy) (ity : IntTy) (pair : Bool) (m : MemArg) (m10 : MemArg10)
    (off : BitVec 39),
    let of (x : Except Trap Ea) : Trap := match x with | .error t => t | .ok _ => { cause := 0 }
    let fails (ea : Env → Except Trap Ea) (e : Env) : Prop := e.th.fabDone = [] ∧ ∃ t, ea e = .error t
    Traps (.bra h off) h {} (fun _ => { cause := 0x06 }) (fun e => (branchTarget e.b.pc off).toNat % 10 ≠ 0) ∧
    Traps (.trap h imm) h {} (fun _ => { cause := 0x0A, addr := imm.toNat, done := true }) ∧
    Does (.trap h imm) h {} (fun _ => {}) (fun _ => False) ∧
    Traps (.sysc h r imm) h { reads := [.g r.toNat] }
      (fun e => { cause := 0x0B, addr := imm.toNat, extra := (e.th.g r.toNat).toNat, done := true }) ∧
    Does (.sysc h r imm) h { reads := [.g r.toNat] } (fun _ => {}) (fun _ => False) ∧
    (∀ i u, (i, u) ∈ ([(.eretResume h a b, { reads := names32 a ++ names32 b }), (.eretRemove h a b, { reads := names32 a ++ names32 b }),
        (.tlbiVa h a b, { reads := names64 a ++ names32 b }), (.tlbiCtx h b, { reads := names32 b }), (.tlbiAll h, {}),
        (.ctxsw h r d, { reads := [.g r.toNat, .g d.toNat] }), (.migr h r d, { reads := [.g r.toNat, .g d.toNat] })] :
          List (Instr × Uses)) →
      Traps i h u (fun _ => { cause := 0x05 }) (fun e => e.t.sup = false) (sel := lowestOnly)) ∧
    (let ea : Env → Except Trap Ea := fun e => e.ea m (memWidth ty pair)
    Traps (.ld h ty pair d m) h { reads := memNames m, dests := if pair then pairNames d.toNat else [.g d.toNat] }
      (fun e => of (ea e)) (fails ea) ∧
    Traps (.st h ty pair d m) h { reads := memNames m ++ if pair then pairNames d.toNat else [.g d.toNat] }
      (fun e => of (ea e)) (fails ea)) ∧
    (let ea : Env → Except Trap Ea := fun e => e.ea10 m10 (if ity.wide then 8 else 4)
    Traps (.red h .add ity d m10) h { reads := memNames10 m10 ++ atomNames .add ity d } (fun e => of (ea e)) (fails ea))) ∧
 (∀ (h : Hdr) (ty : IntTy) (sat : Bool) (mty : MemTy) (pair : Bool) (d : BitVec 8) (a b : Src) (pq : Option (BitVec 3)) (m : MemArg),
    HazardTraps (.iaddF0 h ty sat d a b pq) h
      { reads := namesTy ty a ++ namesTy ty b, dests := dstTy ty d ++ secondDst pq } ∧
    HazardTraps (.mov h true ty d a) h { reads := namesTy ty a, dests := [.k d.toNat] } ∧
    HazardTraps (.fabs h d a) h (uses32 d [a]) ∧
    HazardTraps (.ld h mty pair d m) h { reads := memNames m, dests := if pair then pairNames d.toNat else [.g d.toNat] } ∧
    HazardTraps (.st h mty pair d m) h { reads := memNames m ++ if pair then pairNames d.toNat else [.g d.toNat] }
      (needs := memNames m) ∧
    HazardTraps (.wfi h) h {} (sel := lowestOnly))

/-- Taking an exception (R27, R169, R308): the team halts with the cause, the address and the faulting thread; that thread's
PC stands at the word, or at the next one when the word counts as completed; its group stops at once and the other groups run
on; a record is due in the context. Registers keep their values. A halting team records no second cause. That both the bundle's group
and the faulting lane's group stop at once is the model's reading (log 25). -/
def Obligations.TakingAnException : Prop :=
  (∀ (s : State) (b : Bundle) (g l : Nat) (tr : Trap) (t : Team), s.team? b.core b.team = some t → t.halt = none →
    (t.thread? g l).isSome = true → t.desc < s.ctxs.length →
    let pc := if tr.done then b.pc + 10 else b.pc
    let s' := s.takeTrap b g l tr
    (∃ t' h, s'.team? b.core b.team = some t' ∧ t'.halt = some h ∧ h.cause = tr.cause ∧ h.addr = tr.addr ∧ h.extra = tr.extra ∧
      h.cf = s.cycle ∧ h.who = some (g, l) ∧ h.pc = pc ∧ h.entry = none ∧ h.recorded = false ∧
      (∀ x gr, t.groups[x]? = some gr → h.stops[x]? =
        some (decide (x = g) || decide (x = b.group) || gr.threads.all fun th => th.exited)) ∧
      ∀ x y th, t.thread? x y = some th → ∃ th', t'.thread? x y = some th' ∧ th'.regs = th.regs ∧ th'.preds = th.preds ∧
        th'.exited = th.exited ∧ ((x, y) = (g, l) → th'.pc = pc ∧ th'.park = none ∧ th'.hold = th.hold.filter Hold.stays) ∧
        ((x, y) ≠ (g, l) → (∀ c, th.park ≠ some (.wfi c)) → th'.pc = th.pc)) ∧
    (s'.ctxAt t.desc).pending = (s.ctxAt t.desc).pending ++ [.team b.core t.vtid] ∧
    s'.mem = s.mem ∧ s'.gtags = s.gtags ∧ ∀ c, c ≠ b.core → s'.core c = s.core c) ∧
  ∀ (s : State) (b : Bundle) (g l : Nat) (tr : Trap) (t : Team) (h : Halt), s.team? b.core b.team = some t → t.halt = some h →
    ∃ t', (s.takeTrap b g l tr).team? b.core b.team = some t' ∧
      t'.halt = some { h with stops := updAt h.stops b.group fun _ => true }

/-- ERET resumes a halted team at the PCs that its halt block gives, or removes it; the halt entry is free again (R315). -/
def Obligations.ReturnFromException : Prop :=
  ∀ (h : Hdr) (a b : Src),
    let ctx (e : Env) : Nat := (e.src32 a).toNat % 4096
    let idx (e : Env) : Nat := (e.src32 b).toNat % 4096
    let u : Uses := { reads := names32 a ++ names32 b }
    let at' (s : State) (i x g l : Nat) : Nat := (s.ctxAt i).hbase + x * 16384 + 8 * (64 * g + l)
    Acts (.eretResume h a b) h u
      (fun e s s' o => o = { clock := o.clock } ∧ ∀ i x t, s.eretTarget (ctx e) (idx e) = some (i, x, t) → i < s.ctxs.length →
        (∀ g l th, t.thread? g l = some th → memPart (at' s i x.idx g l) 8 = 8) →
        s'.mem = s.mem ∧ (s'.ctxAt i).halts = (s.ctxAt i).halts.filter (fun y => y.idx != x.idx) ∧
        ∃ t', s'.findTeam x.core t.ctx t.vtid = some t' ∧ t'.halt = none ∧
          ∀ g l th, t.thread? g l = some th → l < 64 → ∃ th', t'.thread? g l = some th' ∧ th' = { th with
            pc := if th.exited then th.pc else BitVec.ofNat 56 (s.read8 (at' s i x.idx g l)), fabDone := th'.fabDone, awaits := th'.awaits })
      (fun e => e.t.sup = true ∧ ∃ i x t, e.s.eretTarget (ctx e) (idx e) = some (i, x, t) ∧
        let pcs := e.s.haltPcs (e.s.ctxAt i).hbase x.idx t
        (∀ p ∈ pcs, p.2.2.toNat % 10 = 0) ∧ resumeBlocked x pcs = false ∧
        ∀ g l th, t.thread? g l = some th → th.exited = false → e.s.physHeld (at' e.s i x.idx g l) 8 = false ∧
          e.s.lostIn (at' e.s i x.idx g l) 8 = none)
      (sel := lowestOnly) ∧
    Acts (.eretRemove h a b) h u
      (fun e s s' o => o = {} ∧ ∀ i x t, s.eretTarget (ctx e) (idx e) = some (i, x, t) → i < s.ctxs.length →
        s'.mem = s.mem ∧ (s'.ctxAt i).halts = (s.ctxAt i).halts.filter (fun y => y.idx != x.idx) ∧
        s'.findTeam x.core t.ctx t.vtid = some { t with leaving := true, groups := t.groups.map fun g => { g with lease := none } })
      (fun e => e.t.sup = true ∧ (e.s.eretTarget (ctx e) (idx e)).isSome = true)
      (sel := lowestOnly)

/-- TLBI removes translations of a context, or of one page of it, or all; while undelivered operations pin one of them, the thread is
not ready (R316). That it also removes the fetched instruction lines of the context (log 40), what its completion ends at home (log 87),
and that FENCE.I acts for the lowest lane alone (log 37), are the model's readings. FENCE.I: no line fetched before serves the thread (R317). CTXSW asks a core for a context, MIGR
for a move to a site, WFI parks its thread (R318, R319, R346, R349). -/
def Obligations.SystemInstructions : Prop :=
 ((∀ (h : Hdr) (a b : Src),
    let ctx (e : Env) : Nat := (e.src32 b).toNat % 4096
    let removes (hit : Env → Xlat → Bool) (hold : Env → Hold) (of : Env → Nat → Bool) (e : Env) (s s' : State) (o : Out) : Prop :=
      o = { clock := s.maxClock, hold := if s.pinnedBy (hit e) then some (hold e) else none } ∧
      (∀ c, (s'.core c).tlb = (s.core c).tlb.filter (fun x => !hit e x) ∧ (s'.core c).teams = (s.core c).teams ∧
        (s'.core c).ilines = (s.core c).ilines.filter fun x => !of e x.ctx) ∧
      (∀ d, (s'.die d).tlb = (s.die d).tlb.filter fun x => !hit e x) ∧ s'.mem = s.mem ∧ s'.gtags = s.gtags ∧ s'.lost = s.lost
    let exists' (e : Env) : Prop := (e.s.ctxById (ctx e)).isSome = true
    Acts (.tlbiVa h a b) h { reads := names64 a ++ names32 b }
      (removes (fun e x => x.ctx == ctx e && decide (x.va ≤ (e.src64 a).toNat % 2 ^ 56 ∧ (e.src64 a).toNat % 2 ^ 56 < x.va + x.size))
        (fun e => .tlbi (some (ctx e)) (some ((e.src64 a).toNat % 2 ^ 56))) fun e x => x == ctx e)
      (fun e => e.t.sup = true ∧ exists' e) (sel := lowestOnly) ∧
    Acts (.tlbiCtx h b) h { reads := names32 b } (removes (fun e x => x.ctx == ctx e)
        (fun e => .tlbi (some (ctx e)) none) fun e x => x == ctx e)
      (fun e => e.t.sup = true ∧ exists' e) (sel := lowestOnly) ∧
    Acts (.tlbiAll h) h {} (removes (fun _ _ => true) (fun _ => .tlbi none none) fun _ _ => true) (fun e => e.t.sup = true)
      (sel := lowestOnly) ∧
    Acts (.fenceI h) h {} (fun _ s s' o => s' = { s with stamp := s.stamp + 1 } ∧ o = { fence := s.stamp + 1 })
      (sel := lowestOnly)) ∧
  ∀ (k : Core) (ctx : Nat) (sup : Bool) (pc : VAddr) (fence : Nat) (x : ILine), k.lineFor ctx sup pc fence = some x →
    fence ≤ x.stamp ∧ x.line = pc.toNat / 320 ∧ x.ctx = ctx ∧ x.sup = sup) ∧
 (∀ (h : Hdr) (a b : BitVec 8),
    let core (e : Env) : Nat := (e.th.g a.toNat).toNat % 256
    let ctx (e : Env) : Nat := (e.th.g b.toNat).toNat % 4096
    let site (e : Env) : Option Nat := if (e.th.g b.toNat).getLsbD 31 then none else some ((e.th.g b.toNat).toNat % 512)
    let u : Uses := { reads := [.g a.toNat, .g b.toNat] }
    Acts (.ctxsw h a b) h u
      (fun e s s' o => o = {} ∧ s' = s.updCore (core e) fun k =>
        if (k.teams.any fun t => t.bank == k.active && t.ctx == ctx e) then k else { k with switch := some (ctx e) })
      (fun e => e.t.sup = true ∧ core e < 224 ∧ (e.s.ctxById (ctx e)).isSome = true ∧ e.s.onCore (core e) (ctx e) = true)
      (sel := lowestOnly) ∧
    Acts (.migr h a b) h u
      (fun e s s' o => o = {} ∧
        let c := core e
        let old : Option Reloc := s.relocs.find? fun r => r.core == c && decide (r.step < 5)
        let takes (s0 : State) (r : Reloc) : Prop :=
          let t := s0.target c (site e)
          s' = { s with
            relocs := (s.relocs.filter fun x => x.core != c || decide (5 ≤ x.step)) ++ [{ r with named := site e, target := t }]
            sites := s0.sites.map fun x => if t = some x.v ∨ x.v = s.siteOf c then { x with relocating := true } else x }
        (old = none → takes s { core := c, named := none, trigger := 0, target := none, step := 1, held := [] }) ∧
        ∀ r, old = some r → if 4 ≤ r.step then s' = s else
          takes { s with sites := s.sites.map fun x => if r.target = some x.v then { x with relocating := false } else x } r)
      (fun e => e.t.sup = true ∧ core e < 224 ∧ match site e with
        | some v => e.s.namedOk v = true
        | none => (e.s.nearTarget (core e)).isSome = true)
      (sel := lowestOnly) ∧
    Acts (.wfi h) h {} (fun _ s s' o => s' = s ∧ o = { park := some (.wfi s.cycle) }) (sel := lowestOnly))

/-- MSET installs the entries of its table as the context's must-save set and writes their charge, or, as MSET.t, writes
0x8000_0000 plus the reason and leaves the old set; MSCLR withdraws the set; HCHK reads the reserve (R354, R356, R357). -/
def Obligations.MustSaveSets : Prop :=
  (∀ (h : Hdr) (t : Bool) (sel : HSel) (d : BitVec 8) (a b : Src),
    let n (e : Env) : Nat := (e.src32 b).toNat % 128
    let pt (e : Env) : Nat := (e.src64 a).toNat
    let word (e : Env) (i : Nat) : Ea :=
      { scratch := false, addr := pt e % 2 ^ 56 + 8 * i, tag := BitVec.ofNat 4 (pt e / 2 ^ 56), ro := false, xn := false }
    let table (e : Env) : List Byte := (List.range (32 * n e)).map fun i => e.byteAt false (pt e % 2 ^ 56 + i)
    let pre (e : Env) : Prop := pt e / 2 ^ 60 = 0 ∧ pt e % 2 ^ 56 % 64 = 0 ∧ pt e % 2 ^ 56 + 32 * n e ≤ 2 ^ 56 ∧ e.wholeWords ∧
      (∀ i < 4 * n e, e.allows (word e i) 8 { reads := true, writes := false }) ∧
      (∀ i < 32 * n e, e.outside (pt e % 2 ^ 56 + i)) ∧
      (t = true ∨ (e.taken (n e) (table e)).isRight = true)
    Acts (.mset h t d a b) h { reads := names64 a ++ names32 b, dests := [.g d.toNat] }
      (fun e s s' o => ∃ s1, SameMemory s s1 ∧ o = { writes := o.writes, clock := o.clock } ∧
        (∀ r, e.taken (n e) (table e) = .inl r → s' = s1 ∧ o.writes = [.g d.toNat (0x80000000 + BitVec.ofNat 32 r)]) ∧
        ∀ l, e.taken (n e) (table e) = .inr l → o.writes = [.g d.toNat (BitVec.ofNat 32 (l.map fun x => x.charge).sum)] ∧
          s' = (s1.updCtx e.t.desc fun x => { x with mset := some l }).freshTeams e.t.ctx l)
      pre (all := .elected) (sel := lowestOnly) ∧
    Acts (.msclr h) h {} (fun e s s' o => o = {} ∧ s' = s.updCtx e.t.desc fun x => { x with mset := none }) (sel := lowestOnly) ∧
    Acts (.hchk h sel d) h { dests := pairNames d.toNat }
      (fun e s s' o => s' = s ∧ ∃ v : DWord, o = { writes := pairWrites d.toNat v } ∧
        let x := e.s.ctxAt e.t.desc
        match sel with
        | .share => v = BitVec.ofNat 64 (x.share * 4096)
        | .used => v = BitVec.ofNat 64 x.charge
        | .free => v = BitVec.ofNat 64 (x.share * 4096 - x.charge)
        | .total => v = BitVec.ofNat 64 (e.s.ctxs.map Ctx.charge).sum
        | .energy => e.s.reserve.armed = true → 30000 ≤ v.toNat
        | .state => v = BitVec.ofNat 64 ((if e.s.reserve.armed then 1 else 0) + (if x.mset.isSome then 2 else 0) +
            (x.mset.getD []).length * 256 + sliceNat (amGetList 0 e.s.reserve.vault 0 64) 0 4 * 2 ^ 32))
      (post := fun _ s => s.fresh)) ∧
  ∀ (e : Env) (n : Nat) (table : List Byte),
    let entry (i : Nat) : List Byte := slice table (32 * i) 32
    (e.s.reserve.armed = false → e.taken n table = .inl 1) ∧
    (e.s.reserve.armed = true → n = 0 ∨ 64 < n → e.taken n table = .inl 2) ∧
    (e.s.reserve.armed = true → 0 < n → n ≤ 64 → ∀ i < n, ∀ r, e.admitEntry (entry i) = .inl r →
      (∀ j < i, ∃ x, e.admitEntry (entry j) = .inr x) → e.taken n table = .inl r) ∧
    (e.s.reserve.armed = true → 0 < n → n ≤ 64 → ∀ l : List SaveEntry, l.length = n →
      (∀ i x, l[i]? = some x → e.admitEntry (entry i) = .inr x) →
      e.taken n table = if (e.s.ctxAt e.t.desc).share * 4096 < (l.map fun x => x.charge).sum then .inl 6 else .inr l) ∧
    ∀ bytes : List Byte, saveOk bytes = true → (saveView bytes).ts = false → ∀ x, e.admitEntry bytes = .inr x →
      x.bytes = bytes ∧ x.charge = if (saveView bytes).be then 0 else
        128 + ((saveView bytes).len + 4095) / 4096 * 4160 + if (saveView bytes).rc then 262144 else 0

/-! ## The events of a core (R61, R62, R77, R78, R142, R156 to R160, R172 to R176, R184, R185, R319 to R322) -/

/-- The register writes of a result reach the thread: each register holds the last value written to it, and no other changes; the
write of an untagged result touches another thread only where it issued together with this one and stands at the same word (log 86).
An instruction line holds 32 words of 10 bytes; byte i of a word is its bits 8i + 7 to 8i (R61, R62). A bundle's threads
stand in distinct lanes at one PC, and none of them has exited, is parked or is held (R158 to R160). The slot of a group with a ready
thread forms a bundle; the thread of the group that issued least recently, the lowest lane of several, leads it, and every ready thread
of the group at the leader's PC is a member (R157 to R159). -/
def Obligations.ResultsAndFetch : Prop :=
 ((∀ (th : Thread) (n : Nat) (x : TagState), th.tags[n]? = some (some x) → x.bad = none →
    let th' := th.completeTag n
    th'.tags[n]? = some none ∧ th' = { th with regs := th'.regs, preds := th'.preds, tags := th'.tags, lost := th'.lost } ∧
    (∀ r, r ∈ th'.lost → r ∈ th.lost) ∧
    (∀ k < th.regs.length, th'.g k = (x.held.reverse.findSome? fun w => match w with
      | .g m v => if m = k then some v else none
      | _ => none).getD (th.g k)) ∧
    ∀ k < 7, k < th.preds.length → th'.p k = (x.held.reverse.findSome? fun w => match w with
      | .p m v => if m = k then some v else none
      | _ => none).getD (th.p k)) ∧
  (∀ (s : State) (t : ThreadRef) (n : Nat) (th : Thread) (x : TagState), s.thread? t = some th → th.tags[n]? = some (some x) →
    x.delivered = false → x.op = none → th.park = none →
    (∀ q ∈ s.fabric.reqs, ∀ sh, q.who ≠ .tagged t n sh) →
    exec (.resultDelivery t n) s = .next (s.updRef t fun y =>
      { y with tags := updAt y.tags n fun z => z.map fun w => { w with delivered := true } })) ∧
  ∀ (s : State) (t : ThreadRef) (i : Nat) (th : Thread) (w : Window), s.thread? t = some th → th.windows[i]? = some w → w.held ≠ [] →
    w.written = false → ∃ s' th', exec (.untaggedResultWrite t i) s = .next s' ∧ s'.thread? t = some th' ∧
      s' = { s with cores := s'.cores } ∧ (∀ c, c ≠ t.core → s'.core c = s.core c) ∧
      (∀ r y, r ≠ t → s.thread? r = some y → ∃ y', s'.thread? r = some y' ∧ (y' = y ∨ (r.core = t.core ∧ r.team = t.team ∧ y.pc = th.pc ∧
        y.lastIssue = th.lastIssue ∧ ∃ j x, y.windows[j]? = some x ∧ x.dests = w.dests ∧ y' = y.writeWindow j))) ∧
      th'.windows[i]? = some { w with written := true } ∧
      th' = { th with regs := th'.regs, preds := th'.preds, windows := th'.windows, lost := th'.lost } ∧
      (∀ r, r ∈ th'.lost → r ∈ th.lost) ∧
      ∀ k < th.regs.length, th'.g k = (w.held.reverse.findSome? fun w => match w with
        | .g m v => if m = k then some v else none
        | _ => none).getD (th.g k)) ∧
 ((∀ (s : State) (c ctx : Nat) (sup : Bool) (line : Nat), s.works = true → s.lineMisses c ctx line = [] → c < s.cores.length →
    ∃ s' x, exec (.instructionFetch c ctx sup line) s = .next s' ∧ x ∈ (s'.core c).ilines ∧ x.ctx = ctx ∧ x.sup = sup ∧ x.line = line ∧
      x.stamp = s.stamp ∧ x.words.length = 32 ∧ s'.mem = s.mem ∧
      ∀ j < 32, (∀ i < 10, ∃ l, s.translate c ctx (line * 320 + 10 * j + i) = .hit l ∧ (l.sup = true → sup = true) ∧ l.xn = false ∧
          inCtl (l.phys (line * 320 + 10 * j + i)) = false ∧ s.lostIn (l.phys (line * 320 + 10 * j + i)) 1 = none) →
        ∃ w : IWord, x.words[j]? = some (.word w) ∧ ∀ i < 10, ∀ l, s.translate c ctx (line * 320 + 10 * j + i) = .hit l →
          w.extractLsb' (8 * i) 8 = s.readByte (l.phys (line * 320 + 10 * j + i))) ∧
  (∀ (s : State) (c id g l : Nat) (t : Team) (th : Thread) (w : IWord), s.bundle = none → s.slotDue c = true →
    (let k := s.core c
     let b := k.bank k.active
     let x := if b.pointer = 0 ∨ b.rotation.length ≤ b.pointer then (k.newRound k.active).bank k.active else b
     x.rotation[x.pointer]? = some (id, g)) →
    s.team? c id = some t → t.halt = none → t.leaving = false → t.thread? g l = some th → s.fetchReady c t g l th w → s.freshIn c id g l →
    ∃ s' b, exec (.bundleFormation c) s = .next s' ∧ s'.mem = s.mem ∧ s'.bundle = some b ∧ b.core = c ∧ b.team = id ∧ b.group = g ∧
      b.slot = s.nextSlot c ∧ b.members ≠ [] ∧
      ((∀ l' x, t.thread? g l' = some x → x.exited = false → th.lastIssue < x.lastIssue ∨ th.lastIssue = x.lastIssue ∧ l ≤ l') →
        b.pc = th.pc ∧ b.fetch = .word w) ∧
      ∀ l' x v, t.thread? g l' = some x → s.fetchReady c t g l' x v → s.freshIn c id g l' → x.pc = b.pc → (g, l') ∈ b.members) ∧
  ∀ (s : State) (c : Nat), s.bundle = none → s.slotDue c = true → ∃ s', exec (.bundleFormation c) s = .next s' ∧ s'.mem = s.mem ∧
    ∀ b, s'.bundle = some b → b.core = c ∧ b.members ≠ [] ∧ (b.members.Pairwise fun x y => x.2 ≠ y.2) ∧
      ∀ m ∈ b.members, ∃ t th, s'.team? c b.team = some t ∧ t.thread? m.1 m.2 = some th ∧ th.pc = b.pc ∧ th.exited = false ∧
        th.park = none ∧ th.hold = none)

/-- A read event of a waiting CWAIT on its team's scratchpad lets it go on when the counter has reached the target, else sets
the time of the next one (R184); a push brings the read forward, and no read follows from one that is not due (R185). A watch
that meets its threshold sends its message once (R373); WFI ends within its bound (R319). The record of a halted team is
written behind the others of its trap queue, the halt block gives every thread's PC, and the producer counter is one higher
(R308 to R310). A stop by software halts with cause 0xA5 (R320), a lost team with 0xA4. What an error of a core's state hits, and its
marks, are the model's choice (log 48): a register, predicate, tile or
scratchpad byte that an error has destroyed is marked until it is written; a corrected error is counted and wakes WFI (R319, R322,
R323). -/
def Obligations.WaitingAndRecords : Prop :=
 ((∀ (s : State) (r : ThreadRef) (t : Team) (th : Thread) (w : Waiter), s.waiting r = true → s.team? r.core r.team = some t →
    t.thread? r.group r.lane = some th → th.park = some (.cwait w) → w.scratch = true →
    (∀ i, w.addr / 128 ≤ i → i ≤ (w.addr + 7) / 128 → (t.line i).present = true) → t.lostIn w.addr 8 = false →
    ∀ i ∈ ([.waiterPeriodicRead (.thread r)] ++ if w.pushed then [.waiterPushRead (.thread r)] else [] : List Instr),
      let v := bytesNat (t.scratchRead w.addr 8)
      ∃ s' t' th', exec i s = .next s' ∧ s'.team? r.core r.team = some t' ∧ t'.thread? r.group r.lane = some th' ∧
        t'.scratch = t.scratch ∧ s'.mem = s.mem ∧ th'.regs = th.regs ∧
        (w.target.toNat ≤ v → th'.park = none ∧ th'.pc = th.pc + 10) ∧
        (v < w.target.toNat → th'.park = some (.cwait { w with next := s.cycle + 2200, pushed := false }) ∧ th'.pc = th.pc)) ∧
  (∀ (s : State) (w : WaiterRef), s.isPushed w = false → exec (.waiterPushRead w) s = .next s) ∧
  (∀ (s : State) (w : Nat) (x : Watch), s.works = true → s.watches[w]? = some x → x.armed = true →
    memPart x.counter 8 = 8 → s.lostIn x.counter 8 = none → s.physHeld x.counter 8 = false → x.threshold.toNat ≤ s.read8 x.counter → ∃ s', exec (.waiterPeriodicRead (.watch w)) s = .next s' ∧ s'.mem = s.mem ∧
      s'.hostOut = s.hostOut ++ [.interrupt x.vector] ∧ s'.watches[w]? = some { x with armed := false, pushed := false }) ∧
  ∀ (s : State) (r : ThreadRef) (th : Thread) (since : Nat), s.thread? r = some th → th.park = some (.wfi since) →
    since + 2200 ≤ s.cycle → ∃ s', exec (.wfiTimeout r) s = .next s' ∧ s'.thread? r = some { th with park := none, pc := th.pc + 10 }) ∧
 ((∀ (s : State) (i c v idx : Nat) (t : Team) (h : Halt) (rest : List PendRec),
    let x := s.ctxAt i
    let prod := s.read8 x.tqprod
    let rec' := x.tqbase + 64 * (prod % 2 ^ x.tqsize)
    let blk := x.hbase + idx * 16384
    s.works = true → i < s.ctxs.length → x.valid = true → x.pending = .team c v :: rest →
    s.findTeam c x.id v = some t → t.halt = some h → x.freeEntry = some idx →
    s.recordReady c t = true → prod < s.read8 x.tqcons + 2 ^ x.tqsize →
    memPart blk 16384 = 16384 → memPart rec' 64 = 64 → memPart x.tqprod 8 = 8 → memPart x.tqcons 8 = 8 →
    s.lostIn x.tqprod 8 = none → s.lostIn x.tqcons 8 = none → s.roundHolds .device x.tqcons 8 = false →
    s.awaitAreas [(blk, 16384), (rec', 64), (x.tqprod, 8)] = none →
    (rec' + 64 ≤ blk ∨ blk + 16384 ≤ rec') → (rec' + 64 ≤ x.tqprod ∨ x.tqprod + 8 ≤ rec') →
    (blk + 16384 ≤ x.tqprod ∨ x.tqprod + 8 ≤ blk) →
    ∃ s', exec (.trapRecordWrite i) s = .next s' ∧
      (s'.ctxAt i).pending = rest ∧ (s'.ctxAt i).seq = (x.seq + 1) % 2 ^ 32 ∧
      (s'.ctxAt i).halts = x.halts ++ [{ idx := idx, core := c, vtid := t.vtid, cause := h.cause, pc := h.pc, who := h.who }] ∧
      s'.read8 x.tqprod = min (prod + 1) (2 ^ 64 - 1) ∧
      s'.readByte rec' = BitVec.ofNat 8 h.cause ∧ bytesNat (s'.readBytes (rec' + 2) 2) = x.id % 2 ^ 16 ∧
      bytesNat (s'.readBytes (rec' + 16) 8) = h.addr % 2 ^ 64 ∧ bytesNat (s'.readBytes (rec' + 28) 4) = idx % 2 ^ 32 ∧
      bytesNat (s'.readBytes (rec' + 44) 4) = x.seq % 2 ^ 32 ∧ bytesNat (s'.readBytes (rec' + 56) 8) = h.extra % 2 ^ 64 ∧
      (∀ g l, h.who = some (g, l) → s'.readByte (rec' + 5) = BitVec.ofNat 8 g ∧ s'.readByte (rec' + 6) = BitVec.ofNat 8 l ∧
        bytesNat (s'.readBytes (rec' + 8) 8) = h.pc.toNat) ∧
      (∀ g l th, g < 32 → l < 64 → t.thread? g l = some th →
        bytesNat (s'.readBytes (blk + 8 * (64 * g + l)) 8) = th.pc.toNat + h.skids.getD g 0 % 8 * 2 ^ 56 +
          (if th.exited then 2 ^ 59 else 0) + if h.who = some (g, l) then 2 ^ 60 else 0) ∧
      ∀ a, (a < blk ∨ blk + 16384 ≤ a) → (a < rec' ∨ rec' + 64 ≤ a) → (a < x.tqprod ∨ x.tqprod + 8 ≤ a) →
        s'.readByte a = s.readByte a) ∧
  (∀ (s : State) (c ctx vtid : Nat) (t : Team), s.works = true → s.findTeam c ctx vtid = some t → s.spilled c ctx vtid = false →
    s.team? c t.id = some t → t.halt = none →
    ∃ s' t' h, exec (.teamStop c ctx vtid) s = .next s' ∧ s'.team? c t.id = some t' ∧ t'.halt = some h ∧ h.cause = 0xA5 ∧
      h.who = none ∧ h.cf = s.cycle ∧ s'.mem = s.mem) ∧
  (∀ (s : State) (c id : Nat) (t : Team), s.works = true → s.team? c id = some t → s.spilled c t.ctx t.vtid = false → t.halt = none →
    ∃ s' t' h, exec (.coreStateLoss c (.team id)) s = .next s' ∧ s'.team? c id = some t' ∧ t'.halt = some h ∧ h.cause = 0xA4 ∧
      t'.stopped = true ∧ s'.mem = s.mem) ∧
  (∀ (s : State) (c : Nat), s.works = true → ∃ s', exec (.coreStateLoss c .shared) s = .next s' ∧ s'.mem = s.mem ∧
    ∀ x ∈ s'.sites, x.v = s.siteOf c → x.failed = true) ∧
  ∀ (s : State) (c : Nat), s.works = true → c < s.cores.length →
    (∃ s', exec (.coreStateLoss c .corrected) s = .next s' ∧ s'.mem = s.mem ∧ s'.core c = { s.core c with
      errs := updAt (s.core c).errs 0 fun n => min (n + 1) (2 ^ 64 - 1)
      teams := (s.core c).teams.map fun t => t.mapThreads fun _ _ th => match th.park with
        | some (.wfi _) => { th with park := none, pc := th.pc + 10 }
        | _ => th }) ∧
    ∀ (id : Nat) (t : Team), s.team? c id = some t →
      (∀ g l n th, n < t.nregs → t.thread? g l = some th →
        ∃ s' t', exec (.coreStateLoss c (.reg id g l n)) s = .next s' ∧ s'.team? c id = some t' ∧
          t'.thread? g l = some { th with lost := .g n :: th.lost } ∧ s'.mem = s.mem) ∧
      (∀ g l n th, n < 7 → t.thread? g l = some th →
        ∃ s' t', exec (.coreStateLoss c (.pred id g l n)) s = .next s' ∧ s'.team? c id = some t' ∧
          t'.thread? g l = some { th with lost := .p n :: th.lost } ∧ s'.mem = s.mem) ∧
      (∀ g n gr, n < 64 → t.groups[g]? = some gr →
        ∃ s' t', exec (.coreStateLoss c (.uniform id g n)) s = .next s' ∧ s'.team? c id = some t' ∧
          t'.groups[g]? = some { gr with lost := n :: gr.lost } ∧ s'.mem = s.mem) ∧
      (∀ n i x, t.tiles[n]? = some i → (s.core c).tiles[i]? = some x →
        ∃ s', exec (.coreStateLoss c (.tile id n)) s = .next s' ∧ (s'.core c).tiles[i]? = some { x with lost := true } ∧
          s'.team? c id = some t ∧ s'.mem = s.mem) ∧
      ∀ o, o < t.bytes → ∃ s', exec (.coreStateLoss c (.scratch id o)) s = .next s' ∧
        s'.team? c id = some { t with lost := o :: t.lost } ∧ s'.mem = s.mem)

/-- A switch or pre-emption asked for is accepted in a core that stands still in no other: from then on the core has the
other context's bank, or waits for its image, and no matrix operation of the outgoing context runs on (R173, R174, R176). A
slice asks for the switch of every two-context core of its pool whose two banks hold teams (R340). The image of a quiet bank
holds its teams, its rotation and its matrix operations, and the bank is empty; loading it gives them back as they were
(R175, R176). A spill writes nothing outside the image's area; what the area holds is the device's own (log 11). -/
def Obligations.BankSwitches : Prop :=
 ((∀ (s : State) (c ctx : Nat), (s.core c).switch = some ctx → s.movingCore c = false → s.works = true →
    let k := s.core c
    (∀ x ∈ k.teams, ∀ y ∈ k.teams, x.id = y.id ∨ (x.ctx = y.ctx ∧ x.vtid = y.vtid) → x = y) →
    ((k.twoCtx = true → k.bankCtx (1 - k.active) ctx = true → s.switching c = false →
      ∃ s', exec (.bankSwitch c) s = .next s' ∧ s'.mem = s.mem ∧ (s'.core c).active = 1 - k.active ∧ (s'.core c).switch = none ∧
        (s'.core c).switching = some { ctx := ctx, accepted := s.cycle } ∧
        (∀ c', c' ≠ c → s'.core c' = s.core c') ∧
        (∀ o ∈ (s'.core c).ops, ∀ t ∈ k.teams, o.of t = true → t.bank = k.active → o.state ≠ .queued ∧ o.state ≠ .leaseWait ∧ o.state ≠ .running) ∧
        ∀ id t, s.team? c id = some t → t.bank = k.active → t.halt = none → ∃ t', s'.team? c id = some t' ∧ t'.scratch = t.scratch ∧
          (∀ gr ∈ t'.groups, gr.lease = none) ∧
          ∀ g l th, t.thread? g l = some th → th.park ≠ some .lease →
            ∃ th', t'.thread? g l = some th' ∧ th' = th.writeWindows)) ∧
    (k.twoCtx = true → k.bankCtx (1 - k.active) ctx = false → exec (.bankSwitch c) s = .next s) ∧
    (k.twoCtx = false → k.switching = none → ∃ s', exec (.preEmption c) s = .next s' ∧ s'.mem = s.mem ∧ (s'.core c).switch = none ∧
      (s'.core c).switching = some { ctx := ctx, accepted := s.cycle } ∧
      (∀ o ∈ (s'.core c).ops, ∀ t ∈ k.teams, o.of t = true → o.state ≠ .queued ∧ o.state ≠ .leaseWait ∧ o.state ≠ .running) ∧
      ∀ t ∈ (s'.core c).teams, ∀ gr ∈ t.groups, gr.lease = none)) ∧
  ∀ (s : State) (cls : Nat), ∃ s', exec (.bankSwitchSlice cls) s = .next s' ∧ s'.mem = s.mem ∧
    ∀ c < 224, c < s.cores.length → s'.core c = if s.sliceDue cls c = true then
      { s.core c with switch := (((s.core c).bankTeams (1 - (s.core c).active)).head?).map fun t => t.ctx } else s.core c) ∧
 ((∀ (s : State) (c b : Nat) (t : Team), s.maySpill c b = true → ((s.core c).bankTeams b).head? = some t → c < s.cores.length →
    (∀ a ∈ (s.core c).allow, a.ctx ≠ t.ctx) →
    let k := s.core c
    let slot := (s.ctxAt t.desc).imgbase + c * 3276800 + b * 1638400
    let size := if k.twoCtx then 1638400 else 3211264
    ∃ s' img, exec (.imageSpill c b) s = .next s' ∧ (∀ a, a < slot ∨ slot + size ≤ a → s'.readByte a = s.readByte a) ∧
      s'.images = s.images ++ [img] ∧ img.core = c ∧ img.bank = b ∧ img.desc = t.desc ∧
      img.state = k.bank b ∧ img.teams = k.bankTeams b ∧ img.ops = (k.ops.filter fun o => (img.teams.any fun t => o.of t)) ∧
      (s'.core c).bankTeams b = [] ∧ (∀ x, x ≠ b → (s'.core c).bankTeams x = k.bankTeams x) ∧ (s'.core c).bars = k.bars ∧
      (s'.core c).tiles = k.tiles ∧ (∀ c', c' ≠ c → (s'.core c').teams = (s.core c').teams)) ∧
  ∀ (s : State) (c b ctx : Nat) (img : Image),
    s.images.find? (fun i => i.core == c && i.bank == b && i.teams.any fun t => t.ctx == ctx) = some img → s.mayLoad c b ctx = true →
    c < s.cores.length → b < (s.core c).banks.length → (∀ t ∈ img.teams, t.bank = b) →
    s.imageLost (imageSlot (s.ctxAt img.desc).imgbase c b) (imageBytes (s.core c).twoCtx) = false →
    ∃ s', exec (.imageLoad c b ctx) s = .next s' ∧ s'.mem = s.mem ∧ s'.images = s.images.erase img ∧
      (s'.core c).teams = (s.core c).teams ++ img.teams ∧ (s'.core c).bank b = img.state ∧
      ((s.core c).twoCtx = true → (s'.core c).ops = (s.core c).ops ++ img.ops) ∧
      ((s.core c).twoCtx = false → (s'.core c).switching = none) ∧
      ∀ c', c' ≠ c → s'.core c' = s.core c')

/-! ## Contexts, queues, the grid scheduler (R302, R327 to R330, R334 to R340, R344, R353, R373) -/

/-- Setting valid starts a context afresh unless its id is another valid context's; clearing it retires a context without
teams, with its set and share; both are ignored otherwise (R302, R353). A share is written within 1.5 GiB in all and not
below the admitted charge, and reads as written (R353); a pool while no team stands on the site (R327); the placement freeze, the power floor, which monitor
firmware alone writes (R379), an exposure word, a watch, and the fields of closed queues and invalid contexts take what is written. A closed queue of a valid
context opens with a valid size and no reserved bit, at the block that its consumer counter gives, once home lets the counter be read; a read that raises a cause
leaves it closed with reason 0x0A (R329, R330). The scheduler's read event is that of a counter at home. The host's accesses of other
widths read 0 and write nothing (R303). That a failed opening counts as a refusal (log 21), and the 64 bits of an exposure word and
their defaults (log 80), are the model's choices. -/
def Obligations.ControlRegion : Prop :=
 (∀ (s : State) (i : Nat), s.works = true → i < s.ctxs.length →
    let x := s.ctxAt i
    let twin : Prop := ∃ y ∈ s.ctxs, y.valid = true ∧ y.id = x.id
    let table := x.xword.toNat / 64 % 2 ^ 38 * 64
    (x.xword = 0 ∨ (memPart table 64 = 64 ∧ s.lostIn table 64 = none)) →
    (x.valid = true ∨ twin → exec (.contextCreate i) s = .next s) ∧
    (x.valid = false → ¬ twin → ∃ s' y, exec (.contextCreate i) s = .next s' ∧ s'.mem = s.mem ∧ s'.ctxAt i = y ∧
      y = { x with valid := true, seq := 1, vtids := 0, halts := [], pending := [], share := 0, cpri := 0, mset := none
                   xtable := if x.xword = 0 then [] else s.readBytes table 64, windowEnd := y.windowEnd } ∧
      (∀ j, j ≠ i → s'.ctxAt j = s.ctxAt j) ∧ s'.queues = s.queues ∧
      (∀ c, (∀ t ∈ (s'.core c).tlb, t.ctx ≠ x.id) ∧ (∀ a ∈ (s'.core c).allow, a.ctx ≠ x.id) ∧ (s'.core c).teams = (s.core c).teams)) ∧
    (x.valid = false ∨ s.ctxBusy x.id = true → exec (.contextRetire i) s = .next s) ∧
    (x.valid = true → s.ctxBusy x.id = false → ∃ s', exec (.contextRetire i) s = .next s' ∧ s'.mem = s.mem ∧
      s'.ctxAt i = { x with valid := false, mset := none, share := 0, cpri := 0 } ∧ (∀ j, j ≠ i → s'.ctxAt j = s.ctxAt j) ∧
      (∀ q ∈ s'.queues.getD i [], q.valid = false) ∧ s'.cores = s.cores)) ∧
 (∀ (s : State) (i j w n v0 : Nat) (v : DWord), s.works = true →
    let x := s.ctxAt i
    let share := v.toNat % 2 ^ 32
    let others := ((s.ctxs.map fun y => if y.valid then y.share else 0).sum) - x.share
    let charge := ((x.mset.getD []).map fun e => e.charge).sum
    let ok : Prop := x.valid = true ∧ others + share ≤ 393216 ∧ charge ≤ share * 4096
    let q := s.queueAt i j
    (ok → exec (.shareWrite i v) s = .next (s.updCtx i fun y => { y with share := share, cpri := (v.extractLsb' 48 8).toNat })) ∧
    (¬ ok → exec (.shareWrite i v) s = .next s) ∧
    (i < 64 → ctlRead s (0x8A000 + 8 * i) = if x.valid = true then x.cpri * 2 ^ 48 + x.share else 0) ∧
    (∃ s', exec (.poolWrite n v) s = .next s' ∧ s' = { s with sites := s'.sites } ∧ s'.sites = s.sites.map fun y =>
      if y.v = n ∧ y.relocating = false ∧ (∀ c, y.core = some c → (s.core c).teams = []) then { y with pool := (v.extractLsb' 56 2).toNat } else y) ∧
    exec (.placementFreeze v) s = .next { s with frozen := v.getLsbD 0 } ∧
    exec (.registerWrite (.firmware v) 0x8C010) s = .next { s with mgmt := { s.mgmt with floor := (v.extractLsb' 0 16).toNat } } ∧
    exec (.registerWrite (.hostWrite v) 0x8C010) s = .next s ∧
    exec (.registerWrite .hostRead n) s = .next { s with hostOut := s.hostOut ++ [.register n (BitVec.ofNat 64 (ctlRead s n))] } ∧
    exec (.registerWrite (.hostOther false) n) s = .next { s with hostOut := s.hostOut ++ [.register n 0] } ∧
    exec (.registerWrite (.hostOther true) n) s = .next s ∧
    (∀ acc ∈ [RegAccess.hostWrite v, RegAccess.firmware v],
      (i < 64 → exec (.registerWrite acc (0x89000 + 8 * i)) s = .next (s.updCtx i fun y => { y with xword := v })) ∧
      (i < 64 → x.valid = false → exec (.registerWrite acc (128 * i + 8)) s =
        .next (s.updCtx i fun y => { y with root := (v.extractLsb' 16 28).toNat * 2 ^ 16 })) ∧
      (i < 64 → x.valid = true → exec (.registerWrite acc (128 * i + 8)) s = .next s) ∧
      (i < 64 → j < 8 → q.valid = false → exec (.registerWrite acc (0x80000 + 512 * i + 64 * j + 16)) s =
        .next (s.updQueue i j fun y => { y with prod := v })) ∧
      (i < 64 → j < 8 → q.valid = true → exec (.registerWrite acc (0x80000 + 512 * i + 64 * j + 16)) s = .next s) ∧
      (0xF00000 ≤ n → exec (.registerWrite acc n) s = .next s)) ∧
    exec (.watchArm w v0) s = .next { s with watches := updAt s.watches w fun y =>
      { y with armed := true, vector := v0, next := s.cycle, pushed := false } }) ∧
 ((∀ (s : State) (i j : Nat) (v : DWord), s.works = true →
    let q := s.queueAt i j
    let n := v.toNat % 32
    let s1 := s.updQueue i j fun y => { y with dev := v.getLsbD 62, qs := v.getLsbD 61, qsize := n }
    let opens : Prop := v.getLsbD 63 = true ∧ 1 ≤ n ∧ n ≤ 12 ∧ v.toNat / 32 % 2 ^ 56 = 0 ∧ (s.ctxAt i).valid = true
    (q.valid = true → exec (.queueOpen i j v) s = .next s) ∧
    (q.valid = false → ¬ opens → exec (.queueOpen i j v) s = .next s1) ∧
    (q.valid = false → opens → s1.schedHeld i q.cons.toNat 8 = true → exec (.queueOpen i j v) s = .next (s1.updQueue i j fun y =>
      { y with valid := true, head := none, next := s.cycle, opening := true })) ∧
    (q.valid = false → opens → s1.schedHeld i q.cons.toNat 8 = false → i < s.queues.length → j < (s.queues.getD i []).length →
      (∀ c k s2, s1.schedRead i q.cons.toNat s.schedClock (v.getLsbD 61) = .ok (c, k, s2) →
        ∃ s', exec (.queueOpen i j v) s = .next s' ∧ s'.mem = s.mem ∧ s'.queueAt i j = { q with
          valid := true, dev := v.getLsbD 62, qs := v.getLsbD 61, qsize := n, head := none, nextBlock := c, produced := c, finished := []
          finishedTo := c, next := s.cycle, pushed := false, opening := false }) ∧
      ∀ k, s1.schedRead i q.cons.toNat s.schedClock (v.getLsbD 61) = .error k →
        ∃ s', exec (.queueOpen i j v) s = .next s' ∧ s'.mem = s.mem ∧ (s'.queueAt i j).valid = false ∧
          (s'.queueAt i j).reason = 0x0A ∧ (s'.queueAt i j).refused = (q.refused + 1) % 2 ^ 32)) ∧
  ∀ (s : State) (i p k : Nat) (sup : Bool) (l : Leaf), (s.ctxAt i).valid = true → p / 2 ^ 60 = 0 → p % 2 ^ 56 % 8 = 0 →
    s.checkNow (s.ctxAt i).id sup (p % 2 ^ 56) false = .ok l →
    let pa := l.phys (p % 2 ^ 56)
    inCtl pa = false →
    (s.gtag pa ≠ BitVec.ofNat 4 (p / 2 ^ 56) → s.schedRead i p k sup = .error 0x28) ∧
    (s.gtag pa = BitVec.ofNat 4 (p / 2 ^ 56) → s.lostIn pa 8 = none →
      ∃ k' s', s.schedRead i p k sup = .ok (s.read8 pa, k', s') ∧ k ≤ k' ∧ SameMemory s s'))

/-- A refused head leaves its queue with the reason and is finished; when every earlier block is finished, the consumer counter counts
it and the later finished blocks behind it, one addition for each (R330). The taken head is an eligible one of the highest
priority, the next in turn among those, and becomes a grid (R334, R335). The head cluster of a pool's placement list is
placed in the first rectangle that it fits: one team on each site, by rank, with the registers, granules and identity that
R12, R25 and R339 give it. With no such rectangle it waits. A grid completes when its teams have left and its copies have
retired; an addition to its done counter that raises a cause leaves reason 0x09, and the queue counts no refusal (R332, R335,
R336, R338, R339). The consumer's and the done counter's additions are made at supervisor level where the queue or the block
says so (R334). That reason 0x09 is not counted (log 21), the zeros of a new team's scratchpad (log 10) and the one clock of the
scheduler (log 79) are the model's choices. -/
def Obligations.GridScheduler : Prop :=
 ((∀ (s : State) (i j r : Nat) (h : Head), (s.queueAt i j).head = some h → s.headReason i h = some r → s.works = true →
    s.awaitPtr i (s.queueAt i j).cons.toNat = none → i < s.queues.length → j < (s.queues.getD i []).length →
    let q := s.queueAt i j
    let gone : Queue := { q with
      head := none, nextBlock := h.n + 1, refused := (q.refused + 1) % 2 ^ 32, rslot := h.n % 2 ^ 32, reason := r, next := s.cycle }
    (q.finishedTo < h.n → (∀ x ∈ q.finished, x.1 ≠ q.finishedTo) → ∃ s', exec (.blockRefusal i j) s = .next s' ∧ s'.mem = s.mem ∧
      s'.queueAt i j = { gone with finished := insertOnce q.finished (h.n, q.supFor h.bytes) } ∧ s'.grids = s.grids) ∧
    (q.finishedTo = h.n → q.finished = [] →
      let s1 := s.updQueue i j fun _ => { gone with finishedTo := h.n + 1 }
      ∀ k s2, s1.schedAdd i q.cons.toNat s.schedClock (q.qs || (launchView h.bytes).sup) = .ok (k, s2) →
        exec (.blockRefusal i j) s = .next (s2.setSchedClock k)) ∧
    ∀ l s', q.finishedTo = h.n → (∀ x ∈ q.finished, x.1 ≠ h.n ∧ x.1 ≠ h.n + (l.length + 1)) →
      (∀ n x, l[n]? = some x → x.1 = h.n + (n + 1) ∧ q.finished.find? (fun y => y.1 == x.1) = some x) →
      (s.updQueue i j fun _ => { gone with finished := insertOnce q.finished (h.n, q.supFor h.bytes) }).Counts i j
        ((h.n, q.supFor h.bytes) :: l) s' →
      exec (.blockRefusal i j) s = .next s') ∧
  (∀ (s : State) (i p k : Nat) (sup : Bool) (l : Leaf), p / 2 ^ 60 = 0 → p % 2 ^ 56 % 8 = 0 →
    s.checkNow (s.ctxAt i).id sup (p % 2 ^ 56) true = .ok l →
    let pa := l.phys (p % 2 ^ 56)
    inCtl pa = false → plain pa 8 → Memory.wf s = true → s.gtag pa = BitVec.ofNat 4 (p / 2 ^ 56) → s.lostIn pa 8 = none →
    ∃ k' s', s.schedAdd i p k sup = .ok (k', s') ∧ k ≤ k' ∧ Memory.wf s' = true ∧ (∀ x, s'.gtag x = s.gtag x) ∧
      ∀ x, s'.readByte x = if pa ≤ x ∧ x < pa + 8 then (natBytes (min (s.read8 pa + 1) (2 ^ 64 - 1)) 8).getD (x - pa) 0
        else s.readByte x) ∧
  (∀ (s : State) (i j : Nat) (h : Head), s.works = true → s.chosen = some (i, j, h) → i < s.queues.length → j < (s.queues.getD i []).length →
    let pri (x : Nat × Nat × Head) : Nat := (launchView x.2.2.bytes).pri
    let last := s.served.getD (pri (i, j, h)) (63, 7)
    (i, j, h) ∈ s.eligible ∧ (∀ e ∈ s.eligible, pri e ≤ pri (i, j, h) ∧
      (pri e = pri (i, j, h) → turn last (i, j) ≤ turn last (e.1, e.2.1))) ∧
    ∃ s' g, exec .blockTake s = .next s' ∧ s'.mem = s.mem ∧ s'.grids = s.grids ++ [g] ∧ s'.placement = s.placement ++ [(g.id, 0)] ∧
      g.id = s.nextGrid ∧ s'.nextGrid = s.nextGrid + 1 ∧ g.desc = i ∧ g.queue = j ∧ g.n = h.n ∧ g.bytes = h.bytes ∧
      g.left = (launchView h.bytes).nteam ∧ (s'.queueAt i j).head = none ∧ (s'.queueAt i j).nextBlock = h.n + 1) ∧
  ∀ (s : State) (i j : Nat) (h : Head), (i, j, h) ∈ s.eligible ↔ i < 64 ∧ j < 8 ∧ (s.queueAt i j).head = some h ∧
    (s.queueAt i j).valid = true ∧ (∀ b ∈ h.met, b = true) ∧ s.headReason i h = none) ∧
 ((∀ (s : State) (pool cl : Nat) (g : Grid), s.works = true → s.pruneClusters.placeHead pool = some (g, cl) →
    let v := launchView g.bytes
    let ctx := (s.ctxAt g.desc).id
    ((∀ l ∈ rects v.cw v.ch, s.pruneClusters.fitsRect ctx v l = none) → exec (.clusterPlacement pool) s = .next s) ∧
    ∀ seats, (rects v.cw v.ch).findSome? (fun l => s.pruneClusters.fitsRect ctx v l) = some seats →
      (seats.Pairwise fun x y => x.1 ≠ y.1) → (∀ x ∈ seats, x.1 < s.cores.length) →
      ∃ s', exec (.clusterPlacement pool) s = .next s' ∧ s'.mem = s.mem ∧
        (∀ c, (∀ x ∈ seats, x.1 ≠ c) → s'.core c = s.core c) ∧
        (s'.placement = s.placement.filterMap fun p =>
          if p.1 = g.id then (if (cl + 1) * v.size < v.nteam then some (p.1, cl + 1) else none) else some p) ∧
        ∀ r c b, seats[r]? = some (c, b) → ∃ t, (s'.core c).teams = (s.core c).teams ++ [t] ∧ t.bank = b ∧ t.desc = g.desc ∧ t.ctx = ctx ∧
          t.sup = v.sup ∧ t.grid = g.id ∧ t.index = cl * v.size + r ∧ t.cluster = cl ∧ t.cx = r % v.cw ∧ t.cy = r / v.cw ∧
          t.nregs = v.nreg ∧ t.bytes = v.scr ∧ t.l1 = v.lsh ∧ t.tiles = (s.core c).freeTiles.take v.ntile ∧ t.scratch = [] ∧
          t.halt = none ∧ t.carve = none ∧ t.groups.length = v.ngrp ∧
          ∀ n gr, t.groups[n]? = some gr → gr.slot = (((s.core c).freeSlots b).take v.ngrp).getD n 0 ∧
            gr.k = BitVec.ofNat 64 v.kparam :: g.slot :: List.replicate 62 0 ∧ gr.rcv = List.replicate 16 Rcv.reset ∧
            gr.threads = List.replicate v.gsz
              { regs := List.replicate v.nreg 0, preds := List.replicate 7 false, pc := BitVec.ofNat 56 v.entry
                fmt := BitVec.ofNat 32 v.fmt, tags := List.replicate 8 none, windows := [], exited := false, park := none, hold := none
                lastIssue := s.cycle, yielded := false, clock := g.clock, fence := 0, fabWrites := [], fabBad := none, fabDone := [], awaits := [], lost := [] }) ∧
  ∀ (s : State) (g : Grid), s.gridAt g.id = some g → s.works = true →
    let v := launchView g.bytes
    let q := s.queueAt g.desc g.queue
    (s.gridDone g = false → exec (.gridCompletion g.id) s = .next s) ∧
    (s.gridDone g = true → s.awaitPtr g.desc q.cons.toNat = none → (v.done ≠ 0 → s.awaitPtr g.desc v.done = none) →
      q.finishedTo < g.n → (∀ x ∈ q.finished, x.1 ≠ q.finishedTo) → g.desc < s.queues.length → g.queue < (s.queues.getD g.desc []).length →
      ∃ s', exec (.gridCompletion g.id) s = .next s' ∧ s'.grids = s.grids.filter (fun y => y.id != g.id) ∧
        (s'.queueAt g.desc g.queue).finished = insertOnce q.finished (g.n, q.supFor g.bytes) ∧
        (v.done = 0 → s'.mem = s.mem) ∧
        (∀ t s1, v.done ≠ 0 → s.schedAdd g.desc v.done (max s.schedClock g.clock) (q.qs || v.sup) = .ok (t, s1) → s'.mem = s1.mem) ∧
        ∀ e, v.done ≠ 0 → s.schedAdd g.desc v.done (max s.schedClock g.clock) (q.qs || v.sup) = .error e →
          s'.mem = s.mem ∧ (s'.queueAt g.desc g.queue).reason = 0x09 ∧ (s'.queueAt g.desc g.queue).refused = q.refused))

/-! ## Translation, copies at home, placement, the host (R258 to R273, R281, R304 to R307, R341 to R343, R371, R372) -/

/-- The oldest miss of a die's queue completes its walk: every core that waits holds the leaf that the context's tables give,
or the answer that they give none (R307). A leaf covers the address and names an aligned page of the physical map (R304 to
R306). A fill that no invalidation met is kept by its core, in place of the copies it overlaps; one that an invalidation met
is not kept (R264, R267). Of a line that a slice writes back, memory keeps the record that the Developer makes of its bytes, and none when
its page does not permit one, when some of it is lost or when it makes none (R271); no byte changes its value (R273). -/
def Obligations.PagesAndLines : Prop :=
 ((∀ (s : State) (d : Nat) (m : Miss) (rest : List Miss), s.power ≠ .down → d < s.dies.length → (s.die d).misses = m :: rest →
    let w := s.walk m.ctx (m.page * 65536)
    ∃ s', exec (.pageWalk d) s = .next s' ∧ s'.mem = s.mem ∧ (s'.die d).misses = rest ∧ (∀ x ∈ (s.die d).tlb, x ∈ (s'.die d).tlb) ∧
      (∀ c, c ∉ m.cores → s'.core c = s.core c) ∧
      ∀ c ∈ m.cores, c < s.cores.length → match w with
        | .leaf x => s'.core c = (s.core c).addXlat x ∧ x ∈ (s'.core c).tlb ∧ x ∈ (s'.die d).tlb
        | .bad y => s'.core c = (s.core c).addBad { ctx := m.ctx, page := m.page, why := y }) ∧
  (∀ (s : State) (ctx va : Nat) (x : Xlat), s.walk ctx va = .leaf x →
    let l := leafOf x
    let e := x.leaf.toNat
    x.covers ctx va = true ∧ x.va % x.size = 0 ∧ (x.size = 65536 ∨ x.size = 2097152 ∨ x.size = 2 ^ 30) ∧
      l.pa % x.size = 0 ∧ physOk l.pa x.size = true ∧ bitOf e 63 = true ∧ bitOf e 62 = true ∧ fld e 44 2 = 0 ∧ fld e 0 8 = 0 ∧
      (l.grain = 32 ∨ l.grain = 128 ∨ l.grain = 512)) ∧
  ∀ (s : State) (c ctx va : Nat) (l : Leaf), s.translate c ctx va = .hit l → l.va ≤ va ∧ va < l.va + l.size) ∧
 (∀ (s : State) (c unit : Nat) (x : L1Copy), s.works = true → c < s.cores.length → (s.core c).fills.find? (fun x => x.base == unit) = some x →
    ∃ s', exec (.l1Fill c unit) s = .next s' ∧ s' = { s with cores := s'.cores } ∧ (∀ d, d ≠ c → s'.core d = s.core d) ∧
      s'.core c = { s.core c with fills := (s.core c).fills.erase x, l1 := (s'.core c).l1 } ∧
      ∀ y, y ∈ (s'.core c).l1 ↔ if x.dead = true then y ∈ (s.core c).l1
        else y = x ∨ y ∈ (s.core c).l1 ∧ (y.base + y.size ≤ x.base ∨ x.base + x.size ≤ y.base)) ∧
 (∀ (s : State) (ctx va : Nat) (x : Xlat), s.works = true → s.walk ctx va = .leaf x →
    let l := leafOf x
    let line := l.phys va / 128
    (l.cp = false → exec (.l2WriteBack ctx va) s = .next s) ∧
    (l.cp = true → inCtl (line * 128) = false → ∃ s', exec (.l2WriteBack ctx va) s = .next s' ∧
      (∀ f, writeBackFmt l.efmt = some f → amWf [] 0 s.compact = true → s' = { s with compact := s'.compact } ∧
        amWf [] 0 s'.compact = true ∧ ∀ i, amGet [] s'.compact i = if i = line then
          (if s.lostIn (line * 128) 128 = none then (compactLine f (s.readBytes (line * 128) 128) []).getD [] else []) else amGet [] s.compact i) ∧
      (writeBackFmt l.efmt = none → s' = s)))

/-- A core that an invalidation reaches keeps no copy of the unit and no fill of it, and its report is at least its greatest
clock; when the last report is in, the unit's read time stamp is at least every report, and a write of the host that waited
for no other unit is performed (R261, R267, R281). The host reads 64 bytes of memory, with poison where a granule is lost, and
holds the line from then on; the gap between the ranges reads ones. It writes 64 bytes at once when no core holds a unit of
them untracked, else after a round of each unit held. A request waits while home holds the line.
Outside the decoder's range a request is none (R281, R321, R325, R372). That a host read leaves the line held and a host write waits
for the rounds of the cores alone is the model's reading (log 54), the page of an access by physical address its choice (log 74). -/
def Obligations.RoundsAndHost : Prop :=
 ((∀ (s : State) (c unit : Nat) (r : Round), s.power ≠ .down → c < s.cores.length →
    s.rounds.find? (fun r => r.base == unit && r.toDrop.contains c) = some r →
    ∃ s' r', exec (.l1Invalidation c unit) s = .next s' ∧ s'.mem = s.mem ∧ s'.gtags = s.gtags ∧ (∀ d, d ≠ c → s'.core d = s.core d) ∧
      s'.core c = (s.core c).dropL1 r.base r.size ∧
      (∀ y ∈ (s'.core c).l1, y.base + y.size ≤ r.base ∨ r.base + r.size ≤ y.base) ∧
      (∀ y ∈ (s'.core c).fills, y.dead = true ∨ y.base + y.size ≤ r.base ∨ r.base + r.size ≤ y.base) ∧
      r' ∈ s'.rounds ∧ r' = { r with toDrop := r.toDrop.erase c, report := max r.report (s.coreClock c) }) ∧
  ∀ (s : State) (c unit : Nat) (r : Round), s.serves = true →
    s.rounds.find? (fun r => r.base == unit && r.toReport.contains c && !r.toDrop.contains c) = some r →
    let top := if c = 224 then max r.report s.hostClock else r.report
    let left := r.toReport.erase c
    (left ≠ [] → ∃ s', exec (.invalidationReport c unit) s = .next s' ∧ s'.mem = s.mem ∧ s'.stamps = s.stamps ∧
      { r with toReport := left, report := top } ∈ s'.rounds) ∧
    (left = [] → r.size ≠ 0 → r.base % 32 = 0 → r.size % 32 = 0 → amWf Stamp.reset 0 s.stamps = true →
      (∀ h d, r.writer ≠ .host h d) → ∃ s', exec (.invalidationReport c unit) s = .next s' ∧ s'.mem = s.mem ∧ s'.cores = s.cores ∧
        top ≤ (s'.unitStamp r.base r.size).rts ∧ (s'.unitStamp r.base r.size).wts = (s.unitStamp r.base r.size).wts ∧
        (c = 224 → ∀ h ∈ s'.hostLines, h + 64 ≤ r.base ∨ r.base + r.size ≤ h)) ∧
    ∀ h d, left = [] → r.writer = .host h d →
      ((∃ x ∈ s.rounds, x ≠ r ∧ x.writer = r.writer ∧ x.toReport ≠ []) →
        ∃ s', exec (.invalidationReport c unit) s = .next s' ∧ s'.mem = s.mem ∧ s'.hostOut = s.hostOut) ∧
      ((∀ x ∈ s.rounds, x ≠ r → x.writer = r.writer → x.toReport = []) → h + 64 ≤ Config.hbmEnd → Memory.wf s = true →
      ∃ s', exec (.invalidationReport c unit) s = .next s' ∧ Memory.wf s' = true ∧ s'.hostOut = s.hostOut ++ [.written h] ∧
        (∀ x, s'.gtag x = s.gtag x) ∧ ∀ x, s'.readByte x = if h ≤ x ∧ x < h + 64 then d.extractLsb' (8 * (x - h)) 8 else s.readByte x)) ∧
 (∀ (s : State) (h0 : Nat) (d : BitVec 512), s.serves = true →
    let h := h0 / 64 * 64
    (0x30000000000 < h + 64 → exec (.hostMemRead h0) s = .next s ∧ exec (.hostMemWrite h0 d) s = .next s) ∧
    (h + 64 ≤ 0x30000000000 → physOk h 64 = false →
      (∃ s', exec (.hostMemRead h0) s = .next s' ∧ s' = { s with hostOut := s'.hostOut } ∧ ∃ v, s'.hostOut = s.hostOut ++ [.line h v false] ∧
        ∀ i < 512, v.getLsbD i = true) ∧
      exec (.hostMemWrite h0 d) s = .next { s with hostOut := s.hostOut ++ [.written h] }) ∧
    (h + 64 ≤ 0x30000000000 → physOk h 64 = true → s.readHeld none h 64 = false →
      (∃ s' v, exec (.hostMemRead h0) s = .next s' ∧ s'.mem = s.mem ∧ s'.gtags = s.gtags ∧ h ∈ s'.hostLines ∧ s.hostClock ≤ s'.hostClock ∧
        s'.hostOut = s.hostOut ++ [.line h v (s.lostIn h 64).isSome] ∧ ∀ i < 64, v.extractLsb' (8 * i) 8 = s.readByte (h + i)) ∧
      ((∀ u ∈ unitsOf (s.leafAt h).grain h 64, holdersOf s u (s.leafAt h).grain = []) → Memory.wf s = true →
        ∃ s', exec (.hostMemWrite h0 d) s = .next s' ∧ Memory.wf s' = true ∧ s'.hostOut = s.hostOut ++ [.written h] ∧ s.hostClock ≤ s'.hostClock ∧
          (∀ x, s'.gtag x = s.gtag x) ∧
          ∀ x, s'.readByte x = if h ≤ x ∧ x < h + 64 then d.extractLsb' (8 * (x - h)) 8 else s.readByte x) ∧
      (s.clsOf (s.leafAt h) ≠ 0 → (∃ u ∈ unitsOf (s.leafAt h).grain h 64, holdersOf s u (s.leafAt h).grain ≠ []) →
        ∃ s', exec (.hostMemWrite h0 d) s = .next s' ∧ s' = { s with rounds := s'.rounds, hostIn := s'.hostIn } ∧
          ∀ u ∈ unitsOf (s.leafAt h).grain h 64, holdersOf s u (s.leafAt h).grain ≠ [] → ∃ r ∈ s'.rounds, r.base = u ∧
            r.size = (s.leafAt h).grain ∧ r.writer = .host h d ∧ r.toDrop = holdersOf s u r.size ∧ r.toReport = r.toDrop)) ∧
    (h + 64 ≤ 0x30000000000 → physOk h 64 = true → s.readHeld none h 64 = true →
      (∃ s', exec (.hostMemRead h0) s = .next s' ∧ s' = { s with hostIn := s'.hostIn } ∧ (h, none) ∈ s'.hostIn) ∧
      ∃ s', exec (.hostMemWrite h0 d) s = .next s' ∧ s' = { s with hostIn := s'.hostIn } ∧ (h, some d) ∈ s'.hostIn))

/-- At the end of a window a leased page that two or more cores wrote share times or more becomes near, and a near page, by
its leaf or by an override, goes back to leased after calm windows; a page that an operation pins, a frozen device and a context without switches change none.
No byte and no tag changes (R343). The placement engine exchanges two pages of one size only to one of the two aims of R342,
and never a page that is pinned, held or not to be moved: every byte and tag then stands at the other page, and each leaf
names the other page. That a page near by its leaf goes back too is the model's reading (log 46), that a move is one event its choice
(log 52). -/
def Obligations.PagePlacement : Prop :=
 (∀ (s : State) (i : Nat) (p : PageRec) (va : Nat) (y : Xlat), s.works = true → i < s.ctxs.length →
    let x := s.ctxAt i
    x.valid = true → x.watched = true → x.windowEnd ≤ s.cycle → s.pages.filter (fun p => match p.mapped.head? with | some (c, _) => c == x.id | none => false) = [p] →
    (∀ q ∈ s.pages, q ≠ p → q.base ≠ p.base) → p.mapped.head? = some (x.id, va) → s.walk x.id va = .leaf y →
    let cls := s.clsOf (leafOf y)
    let n := (p.writers.map fun w => w.2).foldl (· + ·) 0
    let calm := if p.writers.length ≤ 1 then p.calm + 1 else 0
    let held : Prop := x.switchesOn = false ∨ s.frozen = true ∨ s.pagePinned p.base = true
    ∃ s' q, exec (.observationWindow i) s = .next s' ∧ s'.mem = s.mem ∧ s'.gtags = s.gtags ∧ q ∈ s'.pages ∧
      (s'.ctxAt i).windowEnd = s.cycle + x.tab 8 8 1100000 ∧
      q = { p with cls := q.cls, calm := q.calm, acc0 := 0, acc1 := 0, last0 := p.acc0, last1 := p.acc1, writers := [] } ∧
      (held → q.cls = p.cls) ∧
      (¬ held → cls = 2 → q.cls = if x.tab 28 4 64 ≤ n ∧ 2 ≤ p.writers.length then some 3 else p.cls) ∧
      (¬ held → cls = 3 → q.cls = if x.tab 32 1 8 ≤ calm then some 2 else p.cls) ∧ (¬ held → cls ≠ 2 → cls ≠ 3 → q.cls = p.cls) ∧
      (q.cls ≠ p.cls → ∀ c, ∀ z ∈ (s'.core c).l1, z.base + z.size ≤ p.base ∨ p.base + p.size ≤ z.base)) ∧
 (∀ (s : State) (cA vA cB vB : Nat) (x y : Movable), s.works = true → Memory.wf s = true → s.movable cA vA = some x → s.movable cB vB = some y →
    let n := x.l.size
    let ok : Prop := s.frozen = false ∧ x.l.size = y.l.size ∧ x.l.pa ≠ y.l.pa ∧ worthMoving x y = true ∧ s.pageBusy x.l.pa n = false ∧
      s.pageBusy y.l.pa n = false ∧ s.unmovable x.l.pa n = false ∧ s.unmovable y.l.pa n = false
    (¬ ok → exec (.pageMove cA vA cB vB) s = .next s) ∧
    (ok → ∃ s', exec (.pageMove cA vA cB vB) s = .next s' ∧ Memory.wf s' = true ∧
      let swap (a : Nat) : Nat := if x.l.pa ≤ a ∧ a < x.l.pa + n then a - x.l.pa + y.l.pa
        else if y.l.pa ≤ a ∧ a < y.l.pa + n then a - y.l.pa + x.l.pa else a
      (∀ a, ¬ (x.slot ≤ a ∧ a < x.slot + 8) → ¬ (y.slot ≤ a ∧ a < y.slot + 8) → s'.readByte a = s.readByte (swap a)) ∧
      (∀ a, s'.gtag a = s.gtag (swap a)) ∧
      (inCtl x.slot = false → inCtl y.slot = false → x.slot + 8 ≤ y.slot ∨ y.slot + 8 ≤ x.slot →
        (s'.read8 x.slot / 2 ^ 44 = s.read8 x.slot / 2 ^ 44 ∧ fld (s'.read8 x.slot) 8 36 * 256 = y.l.pa) ∧
        s'.read8 y.slot / 2 ^ 44 = s.read8 y.slot / 2 ^ 44 ∧ fld (s'.read8 y.slot) 8 36 * 256 = x.l.pa) ∧
      (∀ c, ∀ z ∈ (s'.core c).tlb ++ (s'.die 0).tlb ++ (s'.die 1).tlb, (leafOf z).pa ≠ x.l.pa ∧ (leafOf z).pa ≠ y.l.pa) ∧
      ∀ c, (s'.core c).teams = (s.core c).teams) ∧
    (worthMoving x y = true →
      (inTier x.l.pa = true ∧ inTier y.l.pa = false ∧ x.hot = true ∧ y.cold = true) ∨
      (inTier y.l.pa = false ∧ y.cold = true ∧ x.l.tier ≠ 2)))

/-! ## Heat, relocation, spares (R322, R324, R328, R345 to R350) -/

/-- A site is hot from the relocation temperature of its pool's class on, until a reading falls to the cool temperature; a
site that becomes hot while its core holds teams asks for a relocation (R345, R350). The site that R346 chooses: the named
one where it can be registered, else the nearest spare site of the die that is neither failed, hot nor relocating, else the
nearest free enabled one of the same pool; ties go to the lower column, then the lower row. What a forwarding entry holds is
applied in arrival order at the target, and the entry closes when nothing is left in it (R348). A spare takes the place of a
failed unit, and what was lost stays lost (R321, R324); a page of memory counts as retired or as exhausted (R326). A spare
column of the site takes the place of one whose residue fails in the block that a row runs: the block runs again, with its words
read again, the operation pauses, at most for the cycles that R223 allows, and the replay counts as an error (R323); with no
spare left the operation stops before that block and the core has failed. That UNIT_SPARING of a term column is R223's mismatch, its
pause operand, and the stop without a spare column are the model's choices (log 49). -/
def Obligations.HeatAndTargets : Prop :=
 (∀ (s : State) (v temp : Nat) (x : Site), s.power = .on → temp < 256 → s.sites.find? (fun y => y.v == v) = some x →
    let hot : Bool := decide (s.clsField x.pool 24 1 95 ≤ temp) || (x.hot && decide (s.clsField x.pool 25 1 85 < temp))
    ∃ s', exec (.sensorReading v temp) s = .next s' ∧ s'.mem = s.mem ∧ s'.cores = s.cores ∧
      (∃ y, s'.siteAt v = some y ∧ y.temp = temp ∧ y.hot = hot ∧ y.core = x.core ∧ y.failed = x.failed ∧ y.pool = x.pool) ∧
      (∀ u, u ≠ v → (s'.siteAt u).map (fun y => y.hot) = (s.siteAt u).map (fun y => y.hot)) ∧
      (hot = false ∨ x.core = none → s'.relocs = s.relocs) ∧
      ∀ c, x.core = some c → s.coreBusy c = true → hot = true → x.hot = false → ∃ r ∈ s'.relocs, r.core = c ∧
        ((∀ q ∈ s.relocs, q.core ≠ c) → r.trigger = 1 ∧ r.step = 1 ∧ (∀ y, s'.siteAt (s.siteOf c) = some y → y.relocating = true) ∧
          ∀ u y, r.target = some u → s'.siteAt u = some y → y.relocating = true)) ∧
 (∀ (s : State) (c : Nat) (me : Site), s.sites.find? (fun x => x.core == some c) = some me →
    let near (x y : Site) : Prop :=
      let far (z : Site) : Nat := (z.v / 16 % 16 - me.v / 16 % 16) + (me.v / 16 % 16 - z.v / 16 % 16) + ((z.v % 16 - me.v % 16) + (me.v % 16 - z.v % 16))
      far x < far y ∨ far x = far y ∧ x.v % 256 ≤ y.v % 256
    let free (x : Site) : Prop := x ∈ s.sites ∧ x.failed = false ∧ x.hot = false ∧ x.relocating = false ∧ x.v / 256 = me.v / 256 ∧ x.v ≠ me.v
    let spare (x : Site) : Prop := free x ∧ x.core = none
    let enabled (x : Site) : Prop := free x ∧ x.pool = me.pool ∧ ∃ d, x.core = some d ∧ (s.core d).teams = []
    (∀ v, (∃ x ∈ s.sites, x.v = v ∧ s.siteFree x = true) → s.target c (some v) = some v) ∧
    (∀ n v, (∀ u, n = some u → ∀ x ∈ s.sites, x.v = u → s.siteFree x = false) → s.target c n = some v →
      (∃ x, spare x ∧ x.v = v ∧ ∀ y, spare y → near x y) ∨
      ((∀ y, ¬ spare y) ∧ ∃ x, enabled x ∧ x.v = v ∧ ∀ y, enabled y → near x y)) ∧
    (s.target c none = none → ∀ y, ¬ spare y ∧ ¬ enabled y)) ∧
 ((∀ (s : State) (c : Nat) (r : Reloc) (h : HeldItem) (rest : List HeldItem) (t : Team), c < s.cores.length →
    s.relocs.find? (fun r => r.core == c && decide (5 ≤ r.step)) = some r → r.held = h :: rest → s.findTeam c h.ctx h.vtid = some t →
    amWf 0 0 t.scratch = true →
    (∀ off d k, h.what = .write off d k → ∃ s' t', exec (.forwardedWrite c) s = .next s' ∧ s'.mem = s.mem ∧ s'.findTeam c h.ctx h.vtid = some t' ∧
      t'.groups = t.groups ∧ (∀ x ∈ s'.relocs, x.core = c → 5 ≤ x.step → x.held = rest ∧ rest ≠ []) ∧
      ∀ x, amGet 0 t'.scratch x = if off ≤ x ∧ x < off + d.length ∧ x < t.bytes then d.getD (x - off) 0 else amGet 0 t.scratch x) ∧
    (∀ off n k, h.what = .add off n k → t.lostIn off 8 = false → ∃ s' t', exec (.forwardedWrite c) s = .next s' ∧ s'.mem = s.mem ∧ s'.findTeam c h.ctx h.vtid = some t' ∧
      ∀ x, amGet 0 t'.scratch x = if off ≤ x ∧ x < off + 8 then
        (natBytes (min (bytesNat (t.scratchRead off 8) + n) (2 ^ 64 - 1)) 8).getD (x - off) 0 else amGet 0 t.scratch x) ∧
    (∀ i, h.what = .lines [i] → ∃ s' t', exec (.forwardedWrite c) s = .next s' ∧ s'.mem = s.mem ∧ s'.findTeam c h.ctx h.vtid = some t' ∧
      t'.scratch = t.scratch ∧ (amWf Line.reset 0 t.lines = true → (t'.line i).pending = (t.line i).pending - 1))) ∧
  (∀ (s : State) (c : Nat) (r : Reloc), s.relocs.find? (fun r => r.core == c && decide (5 ≤ r.step)) = some r → r.held = [] →
    exec (.forwardedWrite c) s = .next { s with relocs := s.relocs.filter fun x => !(x.core == c && decide (5 ≤ x.step)) }) ∧
  (∀ (s : State) (u : SpareUnit) (lost : List Nat), s.power = .on → (∀ c r p, u ≠ .termColumn c r p) →
    ∃ s', exec (.unitSparing u lost) s = .next s' ∧ s' = { s with lost := s'.lost, retired := s'.retired, exhausted := s'.exhausted } ∧
    (∀ p, p ∈ s'.retired ↔ p ∈ s.retired ∨ ∃ pa, u = .page pa true ∧ p = pa / 65536) ∧
    (∀ p, p ∈ s'.exhausted ↔ p ∈ s.exhausted ∨ ∃ pa, u = .page pa false ∧ p = pa / 65536) ∧
    ∀ g, g ∈ s'.lost ↔ g ∈ s.lost ∨ g ∈ lost ∧ physOk (32 * g) 32 = true ∧ inCtl (32 * g) = false) ∧
  ∀ (s : State) (c row pause : Nat) (o : MatOp), s.power = .on → c < s.cores.length → (s.core c).headOp = some o →
    (∀ r, o.rows[row]? = some r → r.next.isSome = true → o.state = .running ∨ o.state = .stopping →
      (0 < s.spareCols c → ∃ s' n, exec (.unitSparing (.termColumn c row pause) []) s = .next s' ∧ s'.mem = s.mem ∧
        s'.spareCols c + 1 = s.spareCols c ∧ (s'.core c).errs = updAt (s.core c).errs 1 (fun n => min (n + 1) (2 ^ 64 - 1)) ∧ n ≤ pause ∧
        n ≤ o.replayBound ∧ { o with
          since := s.cycle, replays := o.replays + 1, began := o.began + n, words := o.words.filter fun w => w.1 != r.done
          rows := updAt o.rows row fun r => { r with next := none, costs := r.costs.take (32 * r.done) } } ∈ (s'.core c).ops) ∧
      (s.spareCols c = 0 → ∃ s', exec (.unitSparing (.termColumn c row pause) []) s = .next s' ∧ s'.mem = s.mem ∧
        { o with state := .stopping, target := some (min r.done (o.target.getD (o.stopTarget s.cycle))) } ∈ (s'.core c).ops ∧
        ∀ x ∈ s'.sites, x.v = s.siteOf c → x.failed = true)) ∧
    ((∀ r, o.rows[row]? = some r → r.next = none) → exec (.unitSparing (.termColumn c row pause) []) s = .next s))

/-- Steps 1 to 4 of a relocation: the target registered is kept while it is good, else one is chosen anew and marked; the core's
matrix operations and leases stop, and the image moves when every operation stands at a block boundary and the forwarding entry
of an earlier move has closed (R347, R348). With no target, heat holds the pass counts of the core's clusters and raises them a
step at a time, and a failure halts the core's teams, those of its images too (R249, R346). The commit exchanges the entries of
the two sites: the core keeps its number and its state, and every team of the core counts one more move; a target that is good
no longer is replaced (R20, R328, R347, R349). That the commit empties the core's L1, fills, TLB and instruction lines is the model's
reading (log 53). -/
def Obligations.Relocations : Prop :=
 (∀ (s : State) (c : Nat) (r : Reloc), s.works = true → s.relocs.find? (fun r => r.core == c && decide (r.step < 4)) = some r →
    let pick : Option Nat := match r.target.filter s.targetGood with
      | some v => some v
      | none => (s.markSite r.target false).target c r.named
    (r.step = 1 → s.switching c = true → exec (.relocationStop c) s = .next s) ∧
    (∀ v, r.step = 1 → s.switching c = false → pick = some v → c < s.cores.length →
      (∀ x ∈ (s.core c).teams, ∀ y ∈ (s.core c).teams, x.id = y.id → x = y) →
      ∃ s', exec (.relocationStop c) s = .next s' ∧ s'.mem = s.mem ∧ { r with target := some v, step := 3 } ∈ s'.relocs ∧
        (r.target.filter s.targetGood = none → ∀ x, s'.siteAt v = some x → x.relocating = true) ∧
        (∀ o ∈ (s'.core c).ops, (s.core c).teams.any (fun t => o.of t) = true →
          o.state ≠ .queued ∧ o.state ≠ .leaseWait ∧ o.state ≠ .running ∧ o.drawn = 0 ∧ o.granted = none) ∧
        (∀ t ∈ (s'.core c).teams, ∀ gr ∈ t.groups, gr.lease = none) ∧ ∀ d, d ≠ c → s'.core d = s.core d) ∧
    (∀ v, r.step ≠ 1 → r.target = some v → (∀ o ∈ (s.core c).ops, o.state = .stopped ∨ o.state = .faulted) → s.targetGood v = true →
      (∀ x ∈ s.relocs, x.core = c → x.step < 5) →
      exec (.relocationStop c) s = .next { s with relocs := s.relocs.map fun x => if x.core = c ∧ x.step ≤ 4 then { x with step := 4 } else x }) ∧
    (∀ o, r.step ≠ 1 → o ∈ (s.core c).ops → o.state = .running ∨ o.state = .stopping → exec (.relocationStop c) s = .next s) ∧
    (r.step ≠ 1 → (∃ x ∈ s.relocs, x.core = c ∧ 5 ≤ x.step) → exec (.relocationStop c) s = .next s) ∧
    (r.step = 1 → s.switching c = false → pick = none → r.held = [] → ∃ s', exec (.relocationStop c) s = .next s' ∧ s'.mem = s.mem ∧
      (∀ x ∈ s'.relocs, x ≠ r) ∧
      (r.trigger = 1 → ∀ y ∈ s.clusters, y.cores.contains c = true → ∃ x ∈ s'.clusters, x.id = y.id ∧ x.heat = true ∧
        x.q = if y.q < 4 ∧ y.changed + 1100 ≤ s.cycle then 2 * y.q else y.q) ∧
      (r.trigger ≠ 2 → (∀ o ∈ (s.core c).ops, o.state ≠ .stopped) → s'.cores = s.cores) ∧
      (r.trigger = 2 → c < s.cores.length → (∀ x ∈ (s.core c).teams, ∀ y ∈ (s.core c).teams, x.id = y.id → x = y) →
        ∀ t ∈ s'.teamsOf c, t.halt ≠ none))) ∧
 (∀ (s : State) (c v : Nat) (r : Reloc) (me tgt : Site), s.works = true → c < s.cores.length →
    s.relocs.find? (fun r => r.core == c && r.step == 4) = some r → r.target = some v → s.siteAt (s.siteOf c) = some me → me.core = some c →
    s.siteAt v = some tgt → (s.sites.Pairwise fun x y => x.v ≠ y.v ∧ (x.core = y.core → x.core = none)) → me.v ≠ v →
    (s.targetGood v = true → ∃ s', exec (.relocationCommit c) s = .next s' ∧ s'.mem = s.mem ∧ s'.gtags = s.gtags ∧ s'.siteOf c = v ∧
      (∃ x, s'.siteAt v = some x ∧ x.core = some c ∧ x.pool = me.pool ∧ x.relocating = false) ∧
      (∃ x, s'.siteAt me.v = some x ∧ x.core = tgt.core ∧ x.pool = tgt.pool ∧ x.relocating = false) ∧
      (∀ u, u ≠ v → u ≠ me.v → s'.siteAt u = s.siteAt u) ∧
      s'.core c = { s.core c with
        teams := (s.core c).teams.map fun t => { t with relocs := t.relocs + 1 }
        ops := (s'.core c).ops, l1 := [], fills := [], tlb := [], ilines := [] } ∧
      s'.images = s.images.map (fun x => if x.core = c then { x with teams := x.teams.map fun t => { t with relocs := t.relocs + 1 } } else x) ∧
      (∀ o ∈ (s'.core c).ops, ∃ p ∈ (s.core c).ops, o = p ∨ p.state = .stopped ∧ o = { p with state := .queued, target := none }) ∧
      ∀ d, d ≠ c → s'.core d = s.core d) ∧
    (∀ w, s.targetGood v = false →
      ({ s with sites := s.sites.map fun x => if x.v = v then { x with relocating := false } else x } : State).target c r.named = some w →
      ∃ s', exec (.relocationCommit c) s = .next s' ∧ s'.cores = s.cores ∧ s'.mem = s.mem ∧ { r with target := some w } ∈ s'.relocs) ∧
    (s.targetGood v = false →
      ({ s with sites := s.sites.map fun x => if x.v = v then { x with relocating := false } else x } : State).target c r.named = none →
      ∃ s', exec (.relocationCommit c) s = .next s' ∧ s'.mem = s.mem ∧ ∀ x ∈ s'.relocs, x ≠ r))

/-! ## The management controller (R374 to R380) -/

/-- A stage is admitted when it is the next one, its signature verifies, its key is the one of the mask ROM or of an admitted
stage, and its version is not below the fused one; it extends its measurement register. One that is refused stops the boot:
no core issues from then on, and no request of the host's for memory or of the fabric is served (R374, R375). The image of a staged boot stands in for the one presented (R376). Monitor firmware
extends m4 to m7 alone, by the rule of R375; a report carries the nonce, the measurement registers, the fused versions and
the epoch, with the module's signature (R375). A staged image waits for the next boot, in place of an earlier one for its
stage (R376); telemetry reports the cap, the fallback flag, the last sequence number, each cluster's mean reading, each site's temperature,
and how many pages are retired and how many could not be (R326, R377); the time message sets rack time (R378). The layout of a
report's bytes (log 59) and what a refused boot stops (log 60) are the model's readings. -/
def Obligations.BootAndTelemetry : Prop :=
 ((∀ (s : State) (img : BootImage), s.power = .on → s.mgmt.refused = false →
    let m := s.mgmt
    let x := (m.installed.find? fun i => i.stage == img.stage).getD img
    let good : Prop := x.key.length = 32 ∧ x.sig.length = 7856 ∧ Config.signatureVerifies x.key x.bytes x.sig = true ∧
      (sha256 x.key = Config.maskRomDigest ∨ x.key ∈ m.keys) ∧ m.fuses.getD (x.stage - 1) 0 ≤ x.version
    (x.stage ≠ m.stage + 1 ∨ 3 < x.stage → exec (.bootStageAdmit img) s = .next s) ∧
    (x.stage = m.stage + 1 → x.stage ≤ 3 → good → m.meas.length = 8 → ∃ s', exec (.bootStageAdmit img) s = .next s' ∧
      s' = { s with mgmt := s'.mgmt } ∧ s'.mgmt.stage = x.stage ∧ s'.mgmt.keys = m.keys ++ [x.key] ∧ s'.mgmt.refused = false ∧
      (s'.mgmt.meas.getD (x.stage - 1) [] = sha256 (m.meas.getD (x.stage - 1) [] ++ sha256 x.bytes)) ∧
      ∀ i, i ≠ x.stage - 1 → s'.mgmt.meas[i]? = m.meas[i]?) ∧
    (x.stage = m.stage + 1 → x.stage ≤ 3 → ¬ good →
      exec (.bootStageAdmit img) s = .next { s with mgmt := { m with refused := true } })) ∧
  ∀ (s : State) (c : Nat), s.mgmt.refused = true → s.slotDue c = false ∧ s.works = false ∧ s.serves = false) ∧
 (∀ (s : State) (n : Nat) (image nonce : List Byte), s.power = .on →
    let m := s.mgmt
    (n < 4 ∨ 7 < n → exec (.measurementExtend n image) s = .next s) ∧
    (4 ≤ n → n ≤ 7 → m.meas.length = 8 → ∃ s', exec (.measurementExtend n image) s = .next s' ∧ s' = { s with mgmt := { m with meas := s'.mgmt.meas } } ∧
      s'.mgmt.meas.getD n [] = sha256 (m.meas.getD n [] ++ sha256 image) ∧ ∀ i, i ≠ n → s'.mgmt.meas[i]? = m.meas[i]?) ∧
    (nonce.length = 32 → ∃ s' b, exec (.attestationRequest nonce) s = .next s' ∧ s' = { s with hostOut := s'.hostOut } ∧
      s'.hostOut = s.hostOut ++ [.report b (Config.identitySign b)] ∧ b.take 32 = nonce ∧
      ((∀ r ∈ m.meas, r.length = 32) → m.meas.length = 8 → (b.drop 32).take 256 = m.meas.flatten ∧
        (b.drop 288).drop (4 * m.fuses.length) = amGetList 0 s.reserve.vault 0 8))) ∧
 (∀ (s : State) (img : BootImage) (power t : Nat), s.power = .on →
    (∃ s', exec (.firmwareStaging img) s = .next s' ∧ s' = { s with mgmt := { s.mgmt with staged := s'.mgmt.staged } } ∧
      img ∈ s'.mgmt.staged ∧ (∀ x ∈ s'.mgmt.staged, x.stage = img.stage → x = img) ∧
      ∀ x ∈ s.mgmt.staged, x.stage ≠ img.stage → x ∈ s'.mgmt.staged) ∧
    (∃ s' y, exec (.telemetrySample power) s = .next s' ∧ s'.mem = s.mem ∧ s'.cores = s.cores ∧ s'.mgmt = { s.mgmt with sample := some y } ∧
      s'.hostOut = s.hostOut ++ [.telemetry y] ∧ y.pages = (s.retired.length, s.exhausted.length) ∧
      y.power = power ∧ y.cap = s.mgmt.cap ∧ y.fallback = s.mgmt.fallback ∧ y.last = s.mgmt.last ∧
      y.temps = s.sites.map (fun x => x.temp) ∧
      (∀ x ∈ s.clusters, (x.id, if x.readings = 0 then x.reading else x.sum / x.readings) ∈ y.meters) ∧
      ∀ x ∈ s'.clusters, x.sum = 0 ∧ x.readings = 0) ∧
    exec (.rackTimeSet t) s = .next { s with mgmt := { s.mgmt with time := some (t % 2 ^ 64) } })

/-- Receipt of a token of 32 bytes: it is discarded when it breaks R378's table, when it comes before rack time is set, as a duplicate or
stale, or late; before its window it waits, the highest sequence number alone; within it, it is applied (R378, R379). Each
millisecond, once its tokens have come, a pending token whose window has begun is applied or discarded, and then, when exp has come, the
cap falls to the floor; monitor firmware alone writes the floor (R379). -/
def Obligations.PowerTokens : Prop :=
 (∀ (s : State) (b : List Byte), (s.power ≠ .on ∨ b.length ≠ 32 → exec (.tokenReceipt b) s = .next s) ∧ (s.power = .on → b.length = 32 →
    let t : Token := { seq := sliceNat b 0 8, cap := sliceNat b 8 2, rsvd := sliceNat b 10 6, nb := sliceNat b 16 8, na := sliceNat b 24 8 }
    let m := s.mgmt
    let good : Prop := 600 ≤ t.cap ∧ t.cap ≤ 2400 ∧ t.rsvd = 0 ∧ t.nb < t.na
    (m.time = none ∨ ¬ good → exec (.tokenReceipt b) s = .next s) ∧
    ∀ now, m.time = some now → good →
      (t.seq ≤ m.last ∨ t.na ≤ now → exec (.tokenReceipt b) s = .next s) ∧
      (m.last < t.seq → now < t.na → now < t.nb →
        ((∀ p, m.pending = some p → p.seq < t.seq) → exec (.tokenReceipt b) s = .next { s with mgmt := { m with pending := some t } }) ∧
        (∀ p, m.pending = some p → t.seq ≤ p.seq → exec (.tokenReceipt b) s = .next s)) ∧
      (m.last < t.seq → now < t.na → t.nb ≤ now → exec (.tokenReceipt b) s =
        .next { s with mgmt := { m with cap := t.cap, last := t.seq, exp := t.na, fallback := false
                                        pending := m.pending.filter fun p => decide (t.seq < p.seq) } }))) ∧
 ((∀ (s : State) (v : DWord), ctlWrite s false 0x8C010 v = s ∧ (s.power = .on →
    exec (.registerWrite (.hostWrite v) 0x8C010) s = .next s ∧
    exec (.registerWrite (.firmware v) 0x8C010) s = .next { s with mgmt := { s.mgmt with floor := (v.extractLsb' 0 16).toNat } })) ∧
  (State.reset.mgmt.cap = State.reset.mgmt.floor ∧ State.reset.mgmt.floor = 1200 ∧ State.reset.mgmt.last = 0 ∧ State.reset.mgmt.fallback = true) ∧
  ∀ (s : State), s.power = .on →
    let m := s.mgmt
    (m.time = none → exec .tokenTick s = .next s) ∧
    ∀ t, m.time = some t →
      let now := (t + 1) % 2 ^ 64
      let live (p : Token) : Prop := p.nb ≤ t ∧ t < p.na ∧ m.last < p.seq
      let quiet : Prop := m.fallback = true ∨ t < m.exp
      ((∀ p, m.pending = some p → t < p.nb) → quiet → exec .tokenTick s = .next { s with mgmt := { m with time := some now } }) ∧
      ((∀ p, m.pending = some p → t < p.nb) → ¬ quiet →
        exec .tokenTick s = .next { s with mgmt := { m with time := some now, cap := m.floor, fallback := true } }) ∧
      (∀ p, m.pending = some p → live p → exec .tokenTick s =
        .next { s with mgmt := { m with time := some now, cap := p.cap, last := p.seq, exp := p.na, fallback := false, pending := none } }) ∧
      ∀ p, m.pending = some p → p.nb ≤ t → ¬ live p →
        (quiet → exec .tokenTick s = .next { s with mgmt := { m with time := some now, pending := none } }) ∧
        (¬ quiet → exec .tokenTick s = .next { s with mgmt := { m with time := some now, cap := m.floor, fallback := true, pending := none } }))

/-! ## The hold-up reserve (R351, R359 to R370) -/

/-- The power-fail trap halts every team, those of images too, in one cycle with no skid, and it prevails over a cause that a team
took in the same cycle (R312); requests of the host and of the fabric that have arrived stay: no thread waits, every untagged result is written, no
matrix operation runs on, leases and queued grows are gone, and no word issues from then on; memory is untouched (R359,
R360). Power returns: the package is reset, and the Negative, the fuses and the staged images stay. A vault whose
header is valid and holds an epoch gives a report and stays unreleased; sets are not kept, and the reserve is not armed (R366 to R370,
R375, R379). That requests that have arrived stay (log 56), and what survives a power cycle (log 58), are the model's readings. -/
def Obligations.PowerFailure : Prop :=
 ((∀ (s : State), s.power = .on → ∃ s', exec .powerFail s = .next s' ∧ s'.power = .failing ∧ s'.bundle = none ∧ s'.mem = s.mem ∧ s'.gtags = s.gtags ∧
    s'.lost = s.lost ∧ s'.ctxs = s.ctxs ∧ s'.queues = s.queues ∧ s'.relocs = [] ∧
    (∀ o ∈ s'.alObjects, o.queue = []) ∧ (∀ x ∈ s'.clusters, x.queue = []) ∧
    s'.hostIn = s.hostIn ∧ s'.fabric.inbox = s.fabric.inbox ∧ (∀ i ∈ s'.images, ∀ t ∈ i.teams, t.halt ≠ none) ∧
    (∀ k ∈ s'.cores, (∀ b ∈ k.banks, b.grow = []) ∧ (∀ o ∈ k.ops, o.state ≠ .queued ∧ o.state ≠ .leaseWait ∧ o.state ≠ .running) ∧
      ∀ t ∈ k.teams, (∃ h, t.halt = some h ∧ (∀ b ∈ h.stops, b = true)) ∧ ∀ gr ∈ t.groups, gr.lease = none ∧
        ∀ th ∈ gr.threads, th.park = none ∧ ∀ w ∈ th.windows, w.written = true) ∧
    ∀ c id t, s.team? c id = some t → (t.halt = none ∨ ∃ h, t.halt = some h ∧ h.cf = s.cycle ∧ h.recorded = false) →
      (∀ k ∈ s.cores, k.alops = []) → (∀ r ∈ s.relocs, r.held = []) →
      ∃ t' h, s'.team? c id = some t' ∧ t'.halt = some h ∧ h.cause = 0xA0 ∧ h.cf = s.cycle ∧ h.who = none ∧ (∀ k ∈ h.skids, k = 0) ∧
        t'.scratch = t.scratch ∧ ∀ g l th, t.halt = none → t.thread? g l = some th → ∃ th', t'.thread? g l = some th' ∧ th'.pc = th.pc ∧
          (th.windows = [] → (∀ y ∈ th.tags, y = none) → th'.regs = th.regs ∧ th'.preds = th.preds)) ∧
  ∀ (s : State) (c : Nat), s.power ≠ .on → s.slotDue c = false ∧ exec (.bundleFormation c) s = .next s) ∧
 (∀ (s : State),
    (s.power ≠ .down → exec .powerOn s = .next s) ∧
    (s.power = .down → ∃ s', exec .powerOn s = .next s' ∧ s'.power = .on ∧ s'.mem = [] ∧ s'.cores = State.reset.cores ∧ s'.ctxs = State.reset.ctxs ∧
      s'.queues = State.reset.queues ∧ s'.reserve.vault = s.reserve.vault ∧ s'.reserve.saved = s.reserve.saved ∧ s'.reserve.armed = false ∧
      s'.mgmt.cap = 1200 ∧ s'.mgmt.last = 0 ∧ s'.mgmt.fallback = true ∧ s'.mgmt.meas = List.replicate 8 (List.replicate 32 0) ∧
      s'.mgmt.fuses = s.mgmt.fuses ∧ (∀ i ∈ s.mgmt.staged, i ∈ s'.mgmt.installed) ∧
      (s'.reserve.released = true ↔ s'.reserve.report = none) ∧
      (let v := amGetList 0 s.reserve.vault 0 64
       s'.reserve.report ≠ none ↔ sha256 (v.take 32) = v.drop 32 ∧ bytesNat (v.take 8) ≠ 0) ∧
      ∀ r, s'.reserve.report = some r → r.epoch.toNat = bytesNat (amGetList 0 s.reserve.vault 0 8) ∧ r.count = 0 ∧
        ∀ e ∈ r.entries, e.cls ≤ 2 ∧ (e.cls = 0 → e.reason = 0) ∧ (e.cls = 2 → e.chunks = 0 ∧ e.offset = 0)) ∧
    (s.power = .on → exec .reserveArmed s = .next { s with reserve := { s.reserve with charged := true } } ∧
      exec .vaultRelease s = .next { s with reserve := { s.reserve with released := true } }) ∧
    (s.reserve.armed = true ↔ s.reserve.charged = true ∧ s.reserve.released = true))

/-- A save of one charged region whose pages can all be read, with no lost granule and no failing write, in a vault that its
record fits, is reported as whole
at the next power-on, and the Negative holds the bytes that memory held at the halt, with the epoch raised by 1 (R360 to
R368). -/
def Obligations.SavedThenReported : Prop :=
  ∀ (s : State) (x : SaveItem) (n : Nat), s.halted = true → s.reserve.released = true → amWf 0 0 s.reserve.vault = true → s.saveItems = [x] →
    x.view.be = false → x.view.ts = false → x.view.rc = false → s.skipReason x = none → s.lost = [] → 0 < x.view.len →
    let ctx := (s.ctxAt x.desc).id
    let epoch := bytesNat (amGetList 0 s.reserve.vault 0 8)
    ctx < 2 ^ 16 → x.idx < 256 → epoch < 2 ^ 64 - 1 → 0x2000 + recordBytes x.view.len ≤ 0x80000000 →
    ∃ s1 s2 r e, exec (.saveSequence n []) s = .next s1 ∧ s1.power = .down ∧ s1.mem = s.mem ∧ exec .powerOn s1 = .next s2 ∧ s2.power = .on ∧
      s2.reserve.report = some r ∧ r.epoch.toNat = epoch + 1 ∧ r.entries = [e] ∧ e.cls = 0 ∧ e.reason = 0 ∧ e.x = x.view.len ∧
      e.chunks = (x.view.len + 4095) / 4096 ∧ e.offset = 0x2000 ∧
      ∀ i pa, i < x.view.len → s.physOf ctx (fld x.view.ptr 0 56 + i) = some pa → inCtl pa = false →
        amGet 0 s1.reserve.vault (e.offset + 64 + 4160 * (i / 4096) + i % 4096) = s.readByte pa

/-- The Fixer starts only after the halt. While the vault is unreleased the module just powers down (R370); else the vault
header is sealed with an epoch one higher and counts the entries of every set, charged ones first (R361, R362, R365). A data
restore copies the valid bytes of a region's entry to the physical destination with granule tags 0; it is refused for an
absent entry and for a team's. Every command counts (R369). A team restore is accepted for a whole team-state entry into a
valid context with a free halt entry and a site that fits: the team joins that core halted with cause 0xA0, with its saved
registers, scratchpad and progress, no lease, no pending copy and every clock at the package's largest. Any other is refused
(R369). That a restored team keeps its slots, and is refused where they are not free (log 76), is the model's choice; the raw
writes' effects (log 64) and the save's operands (log 57) are its readings. -/
def Obligations.SavesAndRestores : Prop :=
 (∀ (s : State) (n : Nat) (bad : List (Nat × Nat)),
    (s.halted = false → exec (.saveSequence n bad) s = .next s) ∧
    (s.halted = true → s.reserve.released = false → exec (.saveSequence n bad) s = .next { s with power := .down }) ∧
    (s.halted = true → s.reserve.released = true → amWf 0 0 s.reserve.vault = true →
      ∃ s', exec (.saveSequence n bad) s = .next s' ∧ s'.power = .down ∧ amWf 0 0 s'.reserve.vault = true ∧
        amGetList 0 s'.reserve.vault 0 64 = vaultHeader ((bytesNat (amGetList 0 s.reserve.vault 0 8) + 1) % 2 ^ 64) 1 s.saveItems.length ∧
        (∀ i, 64 ≤ i → i < 4096 → amGet 0 s'.reserve.vault i = 0) ∧ s'.reserve.reasons.length = s.saveItems.length ∧
        s'.ctxs = s.ctxs ∧ s'.queues = s.queues) ∧
    (∀ x y, x ∈ s.charged → y ∈ s.bestEffort → x.view.be = false ∧ y.view.be = true) ∧
    (s.bestEffort.Pairwise fun x y => y.view.pri ≤ x.view.pri) ∧
    s.charged.Pairwise fun x y => (s.ctxAt y.desc).cpri ≤ (s.ctxAt x.desc).cpri) ∧
 (∀ (s : State) (k pa : Nat) (r : Report), s.power = .on → s.reserve.report = some r →
    (r.entries[k]? = none ∨ (∃ e, r.entries[k]? = some e ∧ (e.cls = 2 ∨ entryTs e = true)) →
      exec (.dataRestore k pa) s = .next { s with reserve := { s.reserve with report := some { r with refused := true, count := r.count + 1 } } }) ∧
    ∀ e, r.entries[k]? = some e → e.cls ≠ 2 → entryTs e = false → Memory.wf s = true →
      let n := if e.cls = 0 then e.x else min e.x (4096 * e.chunks)
      pa + n ≤ Config.hbmEnd →
      ∃ s', exec (.dataRestore k pa) s = .next s' ∧ Memory.wf s' = true ∧
        s'.reserve = { s.reserve with report := some { r with refused := false, count := r.count + 1 } } ∧
        (∀ x, s'.readByte x = if pa ≤ x ∧ x < pa + n then
          amGet 0 s.reserve.vault (e.offset + 64 + 4160 * ((x - pa) / 4096) + (x - pa) % 4096) else s.readByte x) ∧
        (0 < n → ∀ x, s'.gtag x = if pa / 32 ≤ x / 32 ∧ x / 32 ≤ (pa + n - 1) / 32 then 0 else s.gtag x) ∧
        ∀ c, (s'.core c).teams = (s.core c).teams) ∧
 ((∀ (s : State) (k cls i : Nat) (r : Report), s.power = .on → s.reserve.report = some r →
    (r.entries[k]? = none ∨ (∃ e, r.entries[k]? = some e ∧ (e.cls ≠ 0 ∨ entryTs e = false)) ∨ (s.ctxAt i).valid = false ∨
      (s.ctxAt i).freeEntry = none →
      ∃ s', exec (.teamRestore k cls i) s = .next s' ∧ s'.mem = s.mem ∧ s'.cores = s.cores ∧ s'.ctxs = s.ctxs ∧
        s'.reserve.report = some { r with refused := true, count := r.count + 1 }) ∧
    ∀ e sv hidx c b, r.entries[k]? = some e → e.cls = 0 → entryTs e = true → (s.ctxAt i).valid = true → i < s.ctxs.length →
      s.reserve.saved.find? (fun x => x.offset == e.offset) = some sv → (s.ctxAt i).freeEntry = some hidx →
      s.pruneClusters.seatFor sv.team cls (s.ctxAt i).id = some (c, b) → sv.bars.length ≤ (s.core c).freeBars.length → c < s.cores.length →
      ∃ s' t, exec (.teamRestore k cls i) s = .next s' ∧ (s'.core c).teams = (s.core c).teams ++ [t] ∧ t.bank = b ∧ t.ctx = (s.ctxAt i).id ∧
        t.desc = i ∧ t.relocs = sv.team.relocs + 1 ∧ t.nregs = sv.team.nregs ∧ t.bytes = sv.team.bytes ∧ t.scratch = sv.team.scratch ∧
        t.cluster = 0 ∧ t.cx = 0 ∧ t.cy = 0 ∧ t.index = sv.team.index ∧
        (t.groups.map fun gr => gr.slot) = (sv.team.groups.map fun gr => gr.slot) ∧ t.tiles.length ≤ sv.team.tiles.length ∧
        (∃ h, t.halt = some h ∧ h.cause = 0xA0 ∧ h.entry = some hidx ∧ h.recorded = true ∧ ∀ x ∈ h.stops, x = true) ∧
        (∀ x ∈ t.lines, x.2.pending = 0 ∧ x.2.held = false) ∧ (∀ gr ∈ t.groups, gr.lease = none) ∧
        (∀ g l th, sv.team.thread? g l = some th → ∃ th', t.thread? g l = some th' ∧ th'.regs = th.regs ∧ th'.preds = th.preds ∧
          th'.pc = th.pc ∧ th'.clock = s.maxClock ∧
          th'.tags.map (fun y => y.map fun x => { x with op := none }) = th.tags.map (fun y => y.map fun x => { x with op := none }) ∧
          ∀ (n j : Nat) (o : MatOp) (x : TagState), (sv.ops.Pairwise fun a b => a.id ≠ b.id) → sv.ops[n]? = some o → th.tags[j]? = some (some x) →
            x.op = some o.id → th'.tags[j]? = some (some { x with op := some (s.nextOp + n) })) ∧
        (∀ (n : Nat) (o : MatOp), sv.ops[n]? = some o → ∃ o' ∈ (s'.core c).ops, o'.id = s.nextOp + n ∧ o'.p = o.p ∧ o'.rows = o.rows ∧
          o'.state = o.state ∧ o'.team = t.id) ∧
        (∃ x ∈ (s'.ctxAt i).halts, x.idx = hidx ∧ x.core = c ∧ x.vtid = t.vtid ∧ x.cause = 0xA0) ∧
        s'.reserve.report = some { r with refused := false, count := r.count + 1, haltIdx := hidx } ∧
        ∀ d, d ≠ c → (s'.core d).teams = (s.core d).teams))

/-! ## The fabric (R381 to R389) -/

/-- An access through a window of the thread's context sends one request to the peer, with the peer's address (that of the 8 aligned
bytes for a narrower access), the pointer's tag, the context, the thread's privilege and a station of the mask (R381, R384). An
untagged load or atomic of a thread alone in its bundle waits at the word; a tagged one goes on with its tag outstanding; a store, a
RED and a counter addition go on (R386). Through a read-only window a store raises cause 0x27 (R384). A window of a context
is put in force unless its station mask is 0 (R383), a reduction window unless its operation is reserved (R388); a station
that trains comes up when it is enabled, and one that goes down hands its requests to a station of their window (R382, R384).
An answer ends its request: a load's bytes reach the thread that waits, a tagged load's reach its tag, a write is no longer
outstanding; an error is cause 0x88, and none within 110,000 cycles cause 0x89, whatever comes later: precise for a load, at the tag's
completion for a tagged load, and kept for the thread's next CADD, CADDT or EXIT for a write (R386). -/
def Obligations.FabricAccesses : Prop :=
 (∀ (h : Hdr) (ty : MemTy) (pair : Bool) (sz : TupSize) (op : Aop) (aty : IntTy) (d : BitVec 8) (m : MemArg) (m10 : MemArg10),
    let asks (e : Env) (a : Ea) (w : FabWindow) (n : Nat) (s s' : State) (r : FabReq) : Prop :=
      s' = { s with fabric := { s.fabric with nextId := s.fabric.nextId + 1, reqs := s.fabric.reqs ++ [r] } } ∧ r.id = s.fabric.nextId ∧
      r.peer = w.peer ∧ r.pctx = w.pctx ∧ r.tag = a.tag ∧ r.sup = e.t.sup ∧ r.sent = s.cycle ∧ r.lva = a.addr + a.tag.toNat * 2 ^ 56 ∧
      r.va = w.pbase + ((if n < 8 then a.addr / 8 * 8 else a.addr) - w.base) ∧ (w.smask ≠ 0 → w.smask.getLsbD r.station = true)
    let opens (ea : Except Trap Ea) (e : Env) (a : Ea) (w : FabWindow) : Prop :=
      e.th.fabDone = [] ∧ ea = .ok a ∧ a.scratch = false ∧ e.s.fabWindow e.t.desc a.addr = some w
    let writable (ea : Except Trap Ea) (e : Env) : Prop := ∃ a w, opens ea e a w ∧ w.ro = false ∧ a.ro = false
    let new (e : Env) : FabOp := .atom op aty (e.srcTy aty (.g d)) (match op with
      | .cas => if aty.wide then e.th.pair (d.toNat + 2) else (e.th.g (d.toNat + 1)).zeroExtend 64
      | _ => 0)
    let one : LoadShape := .scalar ty pair d.toNat
    let tup : LoadShape := .tuple d.toNat (tupRegs sz)
    let uni : LoadShape := .uniform ty d.toNat
    let an := if aty.wide then 8 else 4
    let old : LoadShape := .scalar (if aty.wide then .n64 else .n32) aty.wide d.toNat
    let usesA (l : List RName) : Uses := { reads := memNames10 m10 ++ atomNames op aty d, dests := l }
    (∀ (i : Instr) (sh : LoadShape) (sel : List Env → List Env) (u : Uses) (ea : Env → Except Trap Ea) (ask : Env → FabOp) (n : Nat),
      (i, sh, sel, u, ea, ask, n) ∈
        [(Instr.ld h ty pair d m, one, (fun l => l), { reads := memNames m, dests := one.dests }, (fun e => e.ea m one.bytes),
          (fun _ => FabOp.read (max one.bytes 8)), one.bytes),
         (.ldb h ty pair d m, one, (fun l => l), { reads := memNames m, dests := one.dests }, (fun e => e.ea m one.bytes),
          (fun _ => .read (max one.bytes 8)), one.bytes),
         (.ldx h sz d m, tup, (fun l => l), { reads := memNames m, dests := tup.dests }, (fun e => e.ea m tup.bytes),
          (fun _ => .read (max tup.bytes 8)), tup.bytes),
         (.ldk h ty d m, uni, lowestPerGroup, { reads := memNames m, dests := uni.dests }, (fun e => e.ea m uni.bytes),
          (fun _ => .read (max uni.bytes 8)), uni.bytes),
         (.atom h op aty d m10, old, (fun l => l), usesA (dstTy aty d), (fun e => e.ea10 m10 an), new, 8)] →
      (∀ s b t e a w, issues s h u .named sel b t = true → s.unstaged.views h .named sel b t = [e] → s.unstaged.doers h .named sel b t = [e] →
        h.av = false → opens (ea e) e a w → (∀ x, i = .atom h op aty d x → w.ro = false ∧ a.ro = false) →
        ∃ s' r th', exec i s = .next s' ∧ s'.mem = s.mem ∧
          s'.fabric = { s.fabric with nextId := s.fabric.nextId + 1, reqs := s.fabric.reqs ++ [r] } ∧
          asks e a w n s.unstaged { s.unstaged with fabric := s'.fabric } r ∧ r.op = ask e ∧ r.who = .load e.ref ∧
          s'.thread? e.ref = some th' ∧ th'.hold = some (.fabric [r.id]) ∧ th'.pc = e.th.pc ∧ th'.regs = e.th.regs ∧ th'.windows = e.th.windows) ∧
      (h.av = true → Acts i h u
        (fun e s s' o => ∀ a w, opens (ea e) e a w → o = {} ∧ ∃ r, asks e a w n s s' r ∧ r.op = ask e ∧ r.who = .tagged e.ref h.tag.toNat sh)
        (fun e => (∃ a w, opens (ea e) e a w) ∧ ∀ x, i = .atom h op aty d x → writable (ea e) e) (sel := sel))) ∧
    (let data (e : Env) : List Byte := if pair then lowBytes (e.th.pair d.toNat) (memWidth ty pair)
       else lowBytes ((e.th.g d.toNat).zeroExtend 64) (memWidth ty pair)
     let tuple (e : Env) : List Byte := ((List.range (tupRegs sz)).map fun i => lowBytes (e.th.g (d.toNat + i)) 4).flatten
     let puts (ea : Env → Except Trap Ea) (n : Nat) (op : Env → Ea → FabOp → Prop) (e : Env) (s s' : State) (o : Out) : Prop :=
       ∀ a w, opens (ea e) e a w → ∃ r, asks e a w n s s' r ∧ o = { fabWrites := [r.id] } ∧ r.who = .write e.ref ∧ op e a r.op
     let stores (n : Nat) (data : Env → List Byte) (e : Env) (a : Ea) (op : FabOp) : Prop := ∃ x mask, op = .write x mask ∧
       (8 ≤ n → x = data e ∧ mask = List.replicate n true) ∧
       (n < 8 → x.length = 8 ∧ mask.length = 8 ∧ ∀ i < 8, mask.getD i false = decide (a.addr % 8 ≤ i ∧ i < a.addr % 8 + n) ∧
         (a.addr % 8 ≤ i → i < a.addr % 8 + n → x.getD i 0 = (data e).getD (i - a.addr % 8) 0))
     let uSt : Uses := { reads := memNames m ++ if pair then pairNames d.toNat else [.g d.toNat] }
     let ea (n : Nat) (e : Env) : Except Trap Ea := e.ea m n
     let pre (n : Nat) (e : Env) : Prop := writable (e.ea m n) e
     let free (e : Env) : Prop := e.fabOpen = [] ∧ e.th.fabBad = none ∧ writable (e.ea m 8) e
     (∀ i ∈ [Instr.st h ty pair d m, .stb h ty pair d m],
       Acts i h uSt (puts (ea (memWidth ty pair)) (memWidth ty pair) (stores (memWidth ty pair) data)) (pre (memWidth ty pair))) ∧
     Acts (.stx h sz d m) h { reads := memNames m ++ tupleNames d.toNat (tupRegs sz) }
       (puts (ea (4 * tupRegs sz)) (4 * tupRegs sz) (stores (4 * tupRegs sz) tuple)) (pre (4 * tupRegs sz)) ∧
     Acts (.red h op aty d m10) h (usesA []) (puts (fun e => e.ea10 m10 an) 8 (fun e _ x => x = new e)) (fun e => writable (e.ea10 m10 an) e) ∧
     Acts (.cadd h d m) h { reads := memNames m ++ [.g d.toNat] }
       (puts (ea 8) 8 (fun e _ x => x = .cadd (e.th.g d.toNat).toNat none)) free ∧
     Acts (.caddt h d m) h { reads := memNames m ++ [.g d.toNat] ++ pairNames (d.toNat + 2) }
       (puts (ea 8) 8 (fun e _ x => x = .cadd (e.th.g d.toNat).toNat (some (e.th.pair (d.toNat + 2)).toNat))) free ∧
     ∀ s b t e a w, issues s h uSt .named (fun l => l) b t = true →
       s.unstaged.views h .named (fun l => l) b t = [e] → s.unstaged.doers h .named (fun l => l) b t = [e] →
       opens (e.ea m (memWidth ty pair)) e a w → w.ro = true →
       exec (.st h ty pair d m) s = .next ((s.unstaged.usedWalks b t).takeTrap b e.g e.l { cause := 0x27, addr := a.tagged }))) ∧
 (∀ (s : State) (i w r st : Nat), s.works = true →
    let win (s : State) (i w : Nat) : FabWindow := (s.fabric.windows.getD i []).getD w FabWindow.reset
    let red (s : State) (r : Nat) : RedWindow := s.fabric.reductions.getD r RedWindow.reset
    ((win s i w).smask = 0 → exec (.fabricWindowEnable i w) s = .next s) ∧
    ((win s i w).smask ≠ 0 → ∃ s', exec (.fabricWindowEnable i w) s = .next s' ∧
      s' = { s with fabric := { s.fabric with windows := s'.fabric.windows } } ∧ win s' i w = { win s i w with en := true } ∧
      ∀ j v, j ≠ i ∨ v ≠ w → win s' j v = win s j v) ∧
    (r < s.fabric.reductions.length → ∃ s', exec (.reductionWindowEnable r) s = .next s' ∧
      s' = { s with fabric := { s.fabric with reductions := s'.fabric.reductions } } ∧
      red s' r = (if (red s r).op = 3 then red s r else { red s r with en := true }) ∧ ∀ j, j ≠ r → red s' j = red s j) ∧
    (s.fabric.enable.getLsbD st = false → exec (.stationUp st) s = .next s) ∧
    (s.fabric.enable.getLsbD st = true → st < 32 → ∃ s', exec (.stationUp st) s = .next s' ∧ s' = { s with fabric := { s.fabric with trained := s'.fabric.trained } } ∧
      s'.fabric.up.getLsbD st = true ∧ ∀ j, j ≠ st → s'.fabric.up.getLsbD j = s.fabric.up.getLsbD j) ∧
    ∃ s', exec (.stationDown st) s = .next s' ∧ s' = { s with fabric := { s.fabric with
        trained := s'.fabric.trained, inbox := s'.fabric.inbox, reqs := s'.fabric.reqs } } ∧ s'.fabric.up.getLsbD st = false ∧
      (∀ j, j ≠ st → s'.fabric.up.getLsbD j = s.fabric.up.getLsbD j) ∧ (∀ q, q ∈ s'.fabric.inbox ↔ (q ∈ s.fabric.inbox ∧ q.station ≠ st)) ∧
      s'.fabric.reqs.length = s.fabric.reqs.length ∧
      ∀ (n : Nat) (x : FabReq), s.fabric.reqs[n]? = some x → ∃ y : FabReq, s'.fabric.reqs[n]? = some y ∧ y = { x with station := y.station } ∧ (x.station ≠ st → y = x)) ∧
 (∀ (s : State) (r : FabReq) (data : List Byte), s.works = true → s.fabric.reqs.find? (fun x => x.id == r.id) = some r →
    (s.fabric.reqs.Pairwise fun x y => x.id ≠ y.id) →
    let f := s.fabric
    let rest := f.reqs.filter fun x => x.id != r.id
    (s.cycle < r.sent + 110000 → exec (.fabricTimeout r.id) s = .next s) ∧
    (∀ x th, r.who = .load x → s.thread? x = some th → x.core < s.cores.length → s.cycle < r.sent + 110000 →
      ∃ s', exec (.fabricResponse r.id true data) s = .next s' ∧ s'.mem = s.mem ∧ s'.fabric = { f with reqs := rest } ∧
        s'.thread? x = some { th with fabDone := th.fabDone ++ [(r.id, slice data 0 r.dataLen)] }) ∧
    (∀ x t, r.who = .load x → s.team? x.core x.team = some t → t.halt = none → x.core < s.cores.length →
      let halts (cause : Nat) (i : Instr) (f' : Fabric) : Prop := ∃ s' t' h, exec i s = .next s' ∧ s'.mem = s.mem ∧ s'.fabric = f' ∧
        s'.team? x.core x.team = some t' ∧ t'.halt = some h ∧ h.cause = cause ∧ h.addr = r.lva ∧ h.who = some (x.group, x.lane)
      (s.cycle < r.sent + 110000 → halts 0x88 (.fabricResponse r.id false data) { f with reqs := rest }) ∧
      (r.sent + 110000 ≤ s.cycle → (∀ ok, halts 0x89 (.fabricResponse r.id ok data) { f with reqs := rest }) ∧
        halts 0x89 (.fabricTimeout r.id) { f with reqs := rest, timedOut := (f.timedOut + 1) % 2 ^ 64 })) ∧
    (∀ x th tag sh y, r.who = .tagged x tag sh → s.thread? x = some th → x.core < s.cores.length → th.tags[tag]? = some (some y) →
      let ends (i : Instr) (held : List RWrite) (bad : Option (Nat × Nat)) : Prop := ∃ s' th', exec i s = .next s' ∧ s'.mem = s.mem ∧
        s'.thread? x = some th' ∧ th' = { th with tags := th'.tags } ∧ th'.tags[tag]? = some (some { y with held := held, bad := bad })
      (s.cycle < r.sent + 110000 →
        ends (.fabricResponse r.id true data) ((r.results sh (slice data 0 r.dataLen)).filter RWrite.kept) none ∧
        ends (.fabricResponse r.id false data) [] (some (0x88, r.lva))) ∧
      (r.sent + 110000 ≤ s.cycle → (∀ ok, ends (.fabricResponse r.id ok data) [] (some (0x89, r.lva))) ∧
        ends (.fabricTimeout r.id) [] (some (0x89, r.lva)))) ∧
    ∀ x th, r.who = .write x → s.thread? x = some th → x.core < s.cores.length → r.id ∈ th.fabWrites →
      let ends (i : Instr) (bad : Option (Nat × Nat)) : Prop := ∃ s', exec i s = .next s' ∧ s'.mem = s.mem ∧
        s'.thread? x = some { th with fabWrites := th.fabWrites.erase r.id, fabBad := bad }
      (s.cycle < r.sent + 110000 → ends (.fabricResponse r.id true data) th.fabBad ∧
        ends (.fabricResponse r.id false data) (some (th.fabBad.getD (0x88, r.lva)))) ∧
      (r.sent + 110000 ≤ s.cycle → (∀ ok, ends (.fabricResponse r.id ok data) (some (th.fabBad.getD (0x89, r.lva)))) ∧
        ends (.fabricTimeout r.id) (some (th.fabBad.getD (0x89, r.lva)))))

/-- A request that arrives at a station that is up is answered in order: a read with the bytes at home, a masked write by
writing the bytes that the mask names, an atomic with the old value, a counter addition saturating; a closed import entry or
a failed check by an error, with nothing performed. A station that is down gives no answer, and a request
that comes once the device has stopped its work is neither performed nor answered (R381, R385). A write into a
reduction window merges each element that its mask covers: integers add modulo 2^32 or take the signed minimum or maximum,
floating elements as the window's operation and rounding say; a mask that covers an element in part is answered with an error
and changes nothing (R389). -/
def Obligations.RequestsServed : Prop :=
 (∀ (s : State) (q : FabIn), s.serves = true →
    let f := s.fabric
    let sane (write : Bool) (p : Nat × Nat) : Prop := ∃ l, s.checkNow q.ctx q.sup p.1 write = .ok l ∧ plain (l.phys p.1) p.2 ∧
      s.gtag (l.phys p.1) = q.tag ∧ (write = false → s.lostIn (l.phys p.1) p.2 = none ∧ s.readHeld none (l.phys p.1) p.2 = false) ∧
      (write = true → s.awaitRound l (l.phys p.1) p.2 .device = none)
    let answers (s' : State) (e : Bool) (d : List Byte) : Prop := s'.fabric = { f with
      out := f.out ++ [{ station := q.station, error := e, data := d }], errorsSent := if e then (f.errorsSent + 1) % 2 ^ 64 else f.errorsSent
      inbox := f.inbox.erase q }
    let first : Prop := (s.works = true ∨ q ∈ f.inbox) ∧ ∀ x ∈ f.inbox, x.station = q.station → x = q
    (s.works = false → q ∉ f.inbox → exec (.fabricRequestReceive q) s = .next s) ∧
    (f.up.getLsbD q.station = false → exec (.fabricRequestReceive q) s = .next s) ∧
    (f.up.getLsbD q.station = true → first → s.fabOpen q = false →
      ∃ s', exec (.fabricRequestReceive q) s = .next s' ∧ answers s' true [] ∧ s' = { s with fabric := s'.fabric }) ∧
    (f.up.getLsbD q.station = true → first → s.fabOpen q = true →
      (∀ n, q.op = .read n → 8 ≤ n → n ≤ 256 → (∀ p ∈ pieces q.va n, sane false p) →
        ∃ s' d, exec (.fabricRequestReceive q) s = .next s' ∧ SameMemory { s with fabric := s'.fabric, stationClocks := s'.stationClocks } s' ∧
          answers s' false d ∧ d.length = n ∧
          ∀ i < n, ∃ l, s.checkNow q.ctx q.sup (q.va + i) false = .ok l ∧ d[i]? = some (s.readByte (l.phys (q.va + i)))) ∧
      (∀ data mask, q.op = .write data mask → 8 ≤ mask.length → mask.length ≤ 256 → (∀ p ∈ pieces q.va mask.length, sane true p) →
        (∀ i, s.redAt q.ctx (q.va + i) = none) → Memory.wf s = true →
        ∃ s', exec (.fabricRequestReceive q) s = .next s' ∧ answers s' false [] ∧ Memory.wf s' = true ∧ (∀ x, s'.gtag x = s.gtag x) ∧
          let at' (i : Nat) : Option Nat := if i < mask.length then match s.checkNow q.ctx q.sup (q.va + i) true with
            | .ok l => some (l.phys (q.va + i))
            | _ => none else none
          (∀ i x, mask.getD i false = true → at' i = some x → s'.readByte x = data.getD i 0) ∧
          ∀ x, (∀ i, mask.getD i false = true → at' i ≠ some x) → s'.readByte x = s.readByte x) ∧
      (∀ n l, q.op = .cadd n none → q.va % 8 = 0 → sane false (q.va, 8) → sane true (q.va, 8) → s.checkNow q.ctx q.sup q.va true = .ok l →
        Memory.wf s = true → ∃ s', exec (.fabricRequestReceive q) s = .next s' ∧ answers s' false [] ∧ Memory.wf s' = true ∧
          (∀ x, s'.gtag x = s.gtag x) ∧
          let pa := l.phys q.va
          ∀ x, s'.readByte x = if pa ≤ x ∧ x < pa + 8 then (natBytes (min (s.read8 pa + n) (2 ^ 64 - 1)) 8).getD (x - pa) 0 else s.readByte x) ∧
      (∀ op ty v swp l, q.op = .atom op ty v swp → q.va % (ty.width / 8) = 0 → sane false (q.va, ty.width / 8) → sane true (q.va, ty.width / 8) →
        s.checkNow q.ctx q.sup q.va true = .ok l → Memory.wf s = true →
        let pa := l.phys q.va
        let w := ty.width / 8
        let old := bytesNat (s.readBytes pa w)
        ∃ s', exec (.fabricRequestReceive q) s = .next s' ∧ answers s' false (natBytes old w) ∧ Memory.wf s' = true ∧
          ∀ x, s'.readByte x = if pa ≤ x ∧ x < pa + w then
            (natBytes ((atomNew op ty (BitVec.ofNat 64 old) v swp).getD old) w).getD (x - pa) 0 else s.readByte x) ∧
      (q.op = .other → ∃ s', exec (.fabricRequestReceive q) s = .next s' ∧ answers s' true [] ∧ s' = { s with fabric := s'.fabric }))) ∧
 (∀ (s : State) (q : FabIn) (data : List Byte) (r : RedWindow) (l : Leaf), s.serves = true → (s.works = true ∨ q ∈ s.fabric.inbox) → s.fabric.up.getLsbD q.station = true →
    (∀ x ∈ s.fabric.inbox, x.station = q.station → x = q) → s.fabOpen q = true → q.va % 8 = 0 → (∀ i < 8, s.redAt q.ctx (q.va + i) = some r) →
    s.checkNow q.ctx q.sup q.va true = .ok l → plain (l.phys q.va) 8 → s.gtag (l.phys q.va) = q.tag → s.lostIn (l.phys q.va) 8 = none →
    s.awaitRound l (l.phys q.va) 8 .device = none → Memory.wf s = true →
    let w := r.width
    let pa := l.phys q.va
    let old := BitVec.ofNat 32 (bytesNat (s.readBytes pa w))
    let y := BitVec.ofNat 32 (sliceNat data 0 w)
    (q.op = .write data ((List.range 8).map fun i => decide (i < w)) →
      ∃ s' v, exec (.fabricRequestReceive q) s = .next s' ∧ Memory.wf s' = true ∧ s'.fabric.out = s.fabric.out ++ [{ station := q.station, error := false, data := [] }] ∧
        (∀ x, s'.readByte x = if pa ≤ x ∧ x < pa + w then (natBytes v w).getD (x - pa) 0 else s.readByte x) ∧
        v = r.apply old.toNat y.toNat ∧
        (r.ty = 3 → r.op = 0 → v = (old + y).toNat) ∧ (r.ty = 3 → r.op = 1 → v = if old.toInt ≤ y.toInt then old.toNat else y.toNat) ∧
        (r.ty = 3 → r.op = 2 → v = if old.toInt ≤ y.toInt then y.toNat else old.toNat) ∧
        (r.ty = 0 → r.op = 0 → v = f32.write r.rm ((f32.read old.toNat).add r.rm (f32.read y.toNat)))) ∧
    (q.op = .write data ((List.range 8).map fun i => decide (i = 0)) →
      ∃ s', exec (.fabricRequestReceive q) s = .next s' ∧ s'.mem = s.mem ∧ s'.fabric.out = s.fabric.out ++ [{ station := q.station, error := true, data := [] }]))

/-! ## The machine as a whole -/

/-- A step runs the word of the bundle in the issue stage: when its bytes decode to i, the step is exec of i; when they do
not, the lowest lane takes the cause of the reserved encoding or of the failed fetch (R14, R62). With no bundle there, the
next event of the agenda is run and leaves it (log 3), and when the device has nothing to do either a cycle passes. No form and
no step stops: each answers a next state in every state. -/
def Obligations.StepRunsTheWord : Prop :=
  ∀ (s : State) (b : Bundle),
    (∀ w i, s.bundle = some b → b.fetch = .word w → decode w = .ok i → step s = exec i s) ∧
    (∀ w e m rest, s.bundle = some b → b.fetch = .word w → decode w = .error e → b.members = m :: rest →
      step s = .next (({ s with bundle := none } : State).takeTrap b m.1 m.2
        { cause := match e with | .reservedOpcode => 0x01 | .reservedModifier => 0x02 | .reservedOperand => 0x03 })) ∧
    (∀ k a m rest, s.bundle = some b → b.fetch = .bad k a → b.members = m :: rest → ∃ ls,
      step s = .next (({ s.updCore b.core (fun c => { c with ilines := ls }) with bundle := none } : State).takeTrap b m.1 m.2 { cause := k, addr := a })) ∧
    (∀ i rest, s.bundle = none → s.agenda = i :: rest → step s = exec i { s with agenda := rest }) ∧
    (s.bundle = none → s.agenda = [] → s.nextEvent = none → ∃ s', step s = .next s' ∧ s'.cycle = s.cycle + 1 ∧ s'.mem = s.mem ∧ s'.cores = s.cores) ∧
    (∀ i : Instr, ∃ s', exec i s = .next s') ∧ ∃ s', step s = .next s'

/-- After reset no context is valid, no team is resident, no store has been made, every lease of a unit is 16 cycles, the
barrier table is free, the cap is the floor of 1,200 W, every measurement register is zero, and no L1, TLB or queue holds
anything (R264, R302, R328, R329, R375, R379). The tags, losses and lease lengths of memory (log 4), the registers without a given value
(log 7), the reserve's first state (log 8) and the engines' and tiles' first state (log 9) are the model's choices. -/
def Obligations.ResetValues : Prop :=
  let s := State.reset
  Memory.wf s = true ∧ s.mem = [] ∧ s.gtags = [] ∧ s.power = .on ∧ s.bundle = none ∧ s.cores.length = 224 ∧
    (∀ k ∈ s.cores, k.teams = [] ∧ k.tlb = [] ∧ k.l1 = [] ∧ k.ops = [] ∧ k.allow = [] ∧ k.bars.length = 64 ∧ k.tiles.length = 16 ∧
      k.engines.length = 4 ∧ ∀ e ∈ k.bars, e.valid = false) ∧
    s.ctxs.length = 64 ∧ (∀ x ∈ s.ctxs, x.valid = false) ∧ (∀ l ∈ s.queues, l.length = 8 ∧ ∀ q ∈ l, q.valid = false) ∧
    (∀ base n, 0 < n → (s.unitStamp base n).wts = 0 ∧ (s.unitStamp base n).rts = 0 ∧ (s.unitStamp base n).lease = 16) ∧
    s.mgmt.cap = 1200 ∧ s.mgmt.floor = 1200 ∧ s.mgmt.last = 0 ∧ s.mgmt.fallback = true ∧
    s.mgmt.meas = List.replicate 8 (List.replicate 32 0) ∧ s.reserve.armed = false ∧ s.works = true ∧ s.images = [] ∧ s.lost = [] ∧
    s.retired = [] ∧ s.exhausted = [] ∧ s.relocs = [] ∧ s.clusters = [] ∧ s.grids = [] ∧ s.sites.length = 240

/-- Memory and its tags keep their canonical form through every step: each byte and each tag has one entry at most, in rising
order, and none that holds what an unlisted address reads as. -/
def Obligations.MemoryStaysCanonical : Prop :=
  ∀ s s' : State, Memory.wf s = true → step s = .next s' → Memory.wf s' = true
end

