-- ==== Sys2Proof/Laws/Lists.lean ====
section
/-! SUPPORT. Laws of indexed updates and maps of lists. -/

namespace Sys2Proof.Machine

@[simp] theorem mapIdxFrom_getElem? {α β : Type} (f : Nat → α → β) (l : List α) : ∀ i n : Nat,
    (mapIdxFrom f i l)[n]? = (l[n]?).map (f (i + n)) := by
  induction l with
  | nil => intro i n; simp [mapIdxFrom]
  | cons x r ih =>
    intro i n
    cases n with
    | zero => simp [mapIdxFrom]
    | succ n => simp [mapIdxFrom, ih, Nat.add_assoc, Nat.add_comm 1 n]

@[simp] theorem mapIdxFrom_length {α β : Type} (f : Nat → α → β) (l : List α) : ∀ i : Nat,
    (mapIdxFrom f i l).length = l.length := by
  induction l with
  | nil => intro i; rfl
  | cons x r ih => intro i; simp [mapIdxFrom, ih]

@[simp] theorem updAt_length {α : Type} (l : List α) (f : α → α) : ∀ i : Nat, (updAt l i f).length = l.length := by
  induction l with
  | nil => intro i; rfl
  | cons x r ih =>
    intro i
    cases i with
    | zero => rfl
    | succ i => simp [updAt, ih]

theorem updAt_getElem? {α : Type} (l : List α) (f : α → α) : ∀ i n : Nat,
    (updAt l i f)[n]? = if n = i then (l[n]?).map f else l[n]? := by
  induction l with
  | nil => intro i n; simp [updAt]
  | cons x r ih =>
    intro i n
    cases i with
    | zero =>
      cases n with
      | zero => simp [updAt]
      | succ n => simp [updAt]
    | succ i =>
      cases n with
      | zero => simp [updAt]
      | succ n => simp [updAt, ih]

@[simp] theorem updAt_getElem?_self {α : Type} (l : List α) (f : α → α) (i : Nat) :
    (updAt l i f)[i]? = (l[i]?).map f := by simp [updAt_getElem?]

theorem updAt_getElem?_ne {α : Type} (l : List α) (f : α → α) {i n : Nat} (h : n ≠ i) :
    (updAt l i f)[n]? = l[n]? := by simp [updAt_getElem?, h]

theorem updAt_getD_self {α : Type} (l : List α) (f : α → α) (d : α) {i : Nat} (h : i < l.length) :
    (updAt l i f).getD i d = f (l.getD i d) := by
  simp [List.getD_eq_getElem?_getD, List.getElem?_eq_getElem h]

theorem updAt_getD_ne {α : Type} (l : List α) (f : α → α) (d : α) {i n : Nat} (h : n ≠ i) :
    (updAt l i f).getD n d = l.getD n d := by
  simp [List.getD_eq_getElem?_getD, updAt_getElem?_ne l f h]

@[simp] theorem updAt_updAt {α : Type} (l : List α) (f g : α → α) : ∀ i : Nat,
    updAt (updAt l i f) i g = updAt l i fun x => g (f x) := by
  induction l with
  | nil => intro i; rfl
  | cons x r ih =>
    intro i
    cases i with
    | zero => rfl
    | succ i => simp [updAt, ih]

theorem updAt_comm {α : Type} (l : List α) (f g : α → α) : ∀ i j : Nat, i ≠ j →
    updAt (updAt l i f) j g = updAt (updAt l j g) i f := by
  induction l with
  | nil => intro i j _; rfl
  | cons x r ih =>
    intro i j h
    cases i with
    | zero =>
      cases j with
      | zero => exact absurd rfl h
      | succ j => rfl
    | succ i =>
      cases j with
      | zero => rfl
      | succ j => simp [updAt, ih i j (fun e => h (by rw [e]))]

@[simp] theorem updAt_id {α : Type} (l : List α) : ∀ i : Nat, updAt l i (fun x => x) = l := by
  induction l with
  | nil => intro i; rfl
  | cons x r ih =>
    intro i
    cases i with
    | zero => rfl
    | succ i => simp [updAt, ih]

theorem updAt_congr {α : Type} (l : List α) (f g : α → α) : ∀ i : Nat, (∀ x, l[i]? = some x → f x = g x) →
    updAt l i f = updAt l i g := by
  induction l with
  | nil => intro i _; rfl
  | cons x r ih =>
    intro i h
    cases i with
    | zero => simp [updAt, h x (by simp)]
    | succ i => simp [updAt, ih i (fun y hy => h y (by simpa using hy))]

end Sys2Proof.Machine
end

