-- ==== Sys2Proof/Laws/Memory.lean ====
section
/-! SUPPORT. Laws of the maps that hold memory, its tags, scratchpads and lines: a read after a write, the frame of a write, and
the canonical form that every write keeps. -/

namespace Sys2Proof.Machine

variable {α : Type} [DecidableEq α]

theorem amWf_mono {d : α} {lo hi : Nat} (h : lo ≤ hi) : ∀ {m : List (Nat × α)}, amWf d hi m = true → amWf d lo m = true
  | [], _ => rfl
  | (k, v) :: r, hm => by
    simp only [amWf, Bool.and_eq_true, decide_eq_true_eq] at hm ⊢
    exact ⟨⟨by omega, hm.1.2⟩, hm.2⟩

theorem amGet_below {d : α} {lo a : Nat} (h : a < lo) : ∀ {m : List (Nat × α)}, amWf d lo m = true → amGet d m a = d
  | [], _ => rfl
  | (k, v) :: r, hm => by
    simp only [amWf, Bool.and_eq_true, decide_eq_true_eq] at hm
    simp [amGet, show a < k by omega]

theorem amSet_wf {d : α} {lo a : Nat} (h : lo ≤ a) (v : α) : ∀ {m : List (Nat × α)}, amWf d lo m = true →
    amWf d lo (amSet d m a v) = true
  | [], _ => by by_cases hv : v = d <;> simp [amSet, amWf, hv, h]
  | (k, w) :: r, hm => by
    simp only [amWf, Bool.and_eq_true, decide_eq_true_eq] at hm
    unfold amSet
    split
    · split
      · simp [amWf, hm]
      · rename_i h1 h2; simp [amWf, h, h2, hm, Nat.succ_le_of_lt h1]
    · split
      · rename_i h1 h2
        subst h2
        split
        · exact amWf_mono (by omega) hm.2
        · rename_i h3; simp [amWf, h, h3, hm]
      · rename_i h1 h2
        have hka : k + 1 ≤ a := by omega
        simp [amWf, hm, amSet_wf hka v hm.2]

theorem amGet_amSet {d : α} {lo : Nat} (a : Nat) (v : α) (x : Nat) : ∀ {m : List (Nat × α)}, amWf d lo m = true →
    amGet d (amSet d m a v) x = if x = a then v else amGet d m x
  | [], _ => by
    by_cases hv : v = d <;> simp [amSet, amGet, hv]
    intro h; omega
  | (k, w) :: r, hm => by
    simp only [amWf, Bool.and_eq_true, decide_eq_true_eq] at hm
    have hb : ∀ y, y ≤ k → amGet d r y = d := fun y hy => amGet_below (lo := k + 1) (by omega) hm.2
    unfold amSet
    split
    · rename_i h1
      split
      · rename_i h2
        by_cases hx : x = a
        · simp [hx, amGet, h1, h2]
        · simp [hx]
      · by_cases hx : x = a
        · simp [hx, amGet]
        · by_cases hl : x < a
          · simp [amGet, hx, hl, show x < k by omega]
          · simp [amGet, hx, hl]
    · split
      · rename_i h1 h2
        subst h2
        split
        · rename_i h3
          by_cases hx : x = a
          · subst hx; simp [hb x (Nat.le_refl x), h3]
          · by_cases hl : x < a
            · simp [amGet, hx, hl, hb x (by omega)]
            · simp [amGet, hx, hl]
        · by_cases hx : x = a
          · simp [amGet, hx]
          · simp [amGet, hx]
      · rename_i h1 h2
        by_cases hl : x < k
        · have : x ≠ a := by omega
          simp [amGet, hl, this]
        · by_cases hk : x = k
          · have : k ≠ a := by omega
            simp [amGet, hk, this]
          · simp [amGet, hl, hk, amGet_amSet a v x hm.2]

theorem amWf_append {d : α} {lo mid : Nat} : ∀ {m n : List (Nat × α)}, amWf d lo m = true → (∀ e ∈ m, e.1 < mid) → lo ≤ mid →
    amWf d mid n = true → amWf d lo (m ++ n) = true
  | [], _, _, _, hl, hn => amWf_mono hl hn
  | (k, v) :: r, n, hm, hlt, hl, hn => by
    simp only [amWf, Bool.and_eq_true, decide_eq_true_eq] at hm
    have hk : k < mid := hlt (k, v) (by simp)
    simp only [List.cons_append, amWf, Bool.and_eq_true, decide_eq_true_eq]
    exact ⟨hm.1, amWf_append hm.2 (fun e he => hlt e (by simp [he])) (by omega) hn⟩

theorem amGet_append {d : α} {lo mid : Nat} (x : Nat) : ∀ {m n : List (Nat × α)}, amWf d lo m = true → (∀ e ∈ m, e.1 < mid) →
    amWf d mid n = true → amGet d (m ++ n) x = if x < mid then amGet d m x else amGet d n x
  | [], n, _, _, hn => by
    by_cases h : x < mid
    · simp [h, amGet, amGet_below h hn]
    · simp [h]
  | (k, v) :: r, n, hm, hlt, hn => by
    simp only [amWf, Bool.and_eq_true, decide_eq_true_eq] at hm
    have hk : k < mid := hlt (k, v) (by simp)
    have ih := amGet_append x hm.2 (fun e he => hlt e (by simp [he])) hn
    simp only [List.cons_append, amGet, ih]
    by_cases h1 : x < k
    · simp [h1, show x < mid by omega]
    · by_cases h2 : x = k
      · simp [h2, hk]
      · simp [h1, h2]

theorem amWf_filter {d : α} (p : Nat × α → Bool) : ∀ {lo : Nat} {m : List (Nat × α)}, amWf d lo m = true →
    amWf d lo (m.filter p) = true
  | _, [], _ => rfl
  | lo, (k, v) :: r, hm => by
    simp only [amWf, Bool.and_eq_true, decide_eq_true_eq] at hm
    by_cases hp : p (k, v) = true
    · simp [List.filter, hp, amWf, hm, amWf_filter p hm.2]
    · simp [List.filter, hp]
      exact amWf_mono (by omega) (amWf_filter p hm.2)

theorem amWf_filter_ge {d : α} {lo : Nat} (c : Nat) : ∀ {m : List (Nat × α)}, amWf d lo m = true →
    amWf d c (m.filter fun e => decide (c ≤ e.1)) = true
  | [], _ => rfl
  | (k, v) :: r, hm => by
    simp only [amWf, Bool.and_eq_true, decide_eq_true_eq] at hm
    by_cases hp : c ≤ k
    · simp [List.filter, hp, amWf, hm]
      exact amWf_filter _ hm.2
    · simp [List.filter, hp]
      exact amWf_filter_ge c hm.2

theorem amGet_filter {d : α} {lo : Nat} (p : Nat → Bool) (x : Nat) : ∀ {m : List (Nat × α)}, amWf d lo m = true →
    amGet d (m.filter fun e => p e.1) x = if p x then amGet d m x else d
  | [], _ => by simp [amGet]
  | (k, v) :: r, hm => by
    simp only [amWf, Bool.and_eq_true, decide_eq_true_eq] at hm
    have ih := amGet_filter p x hm.2
    have hb : x ≤ k → amGet d r x = d := fun hx => amGet_below (lo := k + 1) (by omega) hm.2
    by_cases hp : p k = true
    · simp only [List.filter, hp, amGet, ih]
      by_cases h1 : x < k
      · simp [h1]
      · by_cases h2 : x = k
        · simp [h2, hp]
        · simp [h1, h2]
    · have hpf : p k = false := by simpa using hp
      simp only [List.filter, hpf, amGet, ih]
      by_cases h1 : x < k
      · simp [h1, hb (by omega)]
      · by_cases h2 : x = k
        · simp [h2, hpf]
        · simp [h1, h2]

theorem amEntries_wf (d : α) : ∀ (l : List α) (a lo : Nat), lo ≤ a → amWf d lo (amEntries d a l) = true
  | [], _, _, _ => rfl
  | v :: r, a, lo, h => by
    unfold amEntries
    split
    · exact amEntries_wf d r (a + 1) lo (by omega)
    · rename_i hv; simp [amWf, h, hv, amEntries_wf d r (a + 1) (a + 1) (by omega)]

theorem amEntries_lt (d : α) : ∀ (l : List α) (a : Nat), ∀ e ∈ amEntries d a l, e.1 < a + l.length
  | [], _, e, he => by simp [amEntries] at he
  | v :: r, a, e, he => by
    unfold amEntries at he
    split at he
    · have := amEntries_lt d r (a + 1) e he; simp; omega
    · rcases List.mem_cons.mp he with rfl | he
      · simp
      · have := amEntries_lt d r (a + 1) e he; simp; omega

theorem amGet_amEntries (d : α) : ∀ (l : List α) (a x : Nat), amGet d (amEntries d a l) x =
    if a ≤ x ∧ x < a + l.length then l.getD (x - a) d else d
  | [], a, x => by simp [amEntries, amGet]
  | v :: r, a, x => by
    have ih := amGet_amEntries d r (a + 1) x
    unfold amEntries
    split
    · rename_i hv
      rw [ih]
      by_cases h1 : x = a
      · subst h1; simp [hv]
      · by_cases h2 : a ≤ x
        · have h3 : x - a = (x - (a + 1)) + 1 := by omega
          simp [h3, h2, show a + 1 ≤ x by omega, Nat.add_comm 1, Nat.add_assoc]
        · simp [h2, show ¬ (a + 1 ≤ x) by omega]
    · simp only [amGet, ih]
      by_cases h1 : x = a
      · subst h1; simp
      · by_cases h2 : a ≤ x
        · have h3 : x - a = (x - (a + 1)) + 1 := by omega
          simp [h3, h1, h2, show a + 1 ≤ x by omega, show ¬ x < a by omega, Nat.add_comm 1, Nat.add_assoc]
        · simp [h2, show x < a by omega]

theorem amSetList_wf {d : α} {lo a : Nat} (h : lo ≤ a) (l : List α) {m : List (Nat × α)} (hm : amWf d lo m = true) :
    amWf d lo (amSetList d m a l) = true := by
  unfold amSetList
  rw [List.append_assoc]
  refine amWf_append (mid := a) (amWf_filter _ hm) (by simp) h ?_
  exact amWf_append (mid := a + l.length) (amEntries_wf d l a a (Nat.le_refl a)) (amEntries_lt d l a) (by omega)
    (amWf_filter_ge _ hm)

/-- A read after a write, and the frame of a write. -/
theorem amGet_amSetList {d : α} {lo : Nat} (a : Nat) (l : List α) (x : Nat) {m : List (Nat × α)} (hm : amWf d lo m = true) :
    amGet d (amSetList d m a l) x = if a ≤ x ∧ x < a + l.length then l.getD (x - a) d else amGet d m x := by
  have hlow := amWf_filter (fun e : Nat × α => decide (e.1 < a)) hm
  have hend := amWf_append (mid := a + l.length) (amEntries_wf d l a a (Nat.le_refl a)) (amEntries_lt d l a) (by omega)
    (amWf_filter_ge (a + l.length) hm)
  unfold amSetList
  rw [List.append_assoc, amGet_append (mid := a) x hlow (by simp) hend,
    amGet_append (mid := a + l.length) x (amEntries_wf d l a a (Nat.le_refl a)) (amEntries_lt d l a) (amWf_filter_ge _ hm),
    amGet_filter (fun k => decide (k < a)) x hm, amGet_filter (fun k => decide (a + l.length ≤ k)) x hm, amGet_amEntries]
  by_cases h1 : x < a
  · simp [h1, show ¬ a ≤ x by omega]
  · by_cases h2 : x < a + l.length
    · simp [h1, h2, show a ≤ x by omega]
    · simp [h1, h2, show a + l.length ≤ x by omega]

omit [DecidableEq α] in
@[simp] theorem amGetList_length (d : α) (m : List (Nat × α)) : ∀ n a : Nat, (amGetList d m a n).length = n
  | 0, _ => rfl
  | n + 1, a => by simp [amGetList, amGetList_length d m n (a + 1)]

omit [DecidableEq α] in
theorem amGetList_getD (d : α) (m : List (Nat × α)) : ∀ n a i : Nat, i < n → (amGetList d m a n).getD i d = amGet d m (a + i)
  | 0, _, _, h => by omega
  | n + 1, a, 0, _ => by simp [amGetList]
  | n + 1, a, i + 1, h => by
    have := amGetList_getD d m n (a + 1) i (by omega)
    simp only [amGetList, List.getD_cons_succ, this]
    congr 1; omega

omit [DecidableEq α] in
theorem amGetList_eq (d : α) (m : List (Nat × α)) : ∀ n a : Nat, amGetList d m a n = (List.range n).map fun i => amGet d m (a + i)
  | 0, _ => rfl
  | n + 1, a => by
    rw [List.range_succ_eq_map]
    simp only [amGetList, amGetList_eq d m n (a + 1), List.map_cons, List.map_map]
    congr 1
    apply List.map_congr_left
    intro i _
    simp; congr 1; omega

/-! ## Memory and its tags (R131, R257, R264, R342, R369) -/

theorem wf_mem {s : State} (h : Memory.wf s = true) : amWf 0 0 s.mem = true := by
  simp only [Memory.wf, Bool.and_eq_true] at h; exact h.1
theorem wf_gtags {s : State} (h : Memory.wf s = true) : amWf 0 0 s.gtags = true := by
  simp only [Memory.wf, Bool.and_eq_true] at h; exact h.2
theorem wf_of {s : State} (h : amWf 0 0 s.mem = true) (g : amWf 0 0 s.gtags = true) : Memory.wf s = true := by
  simp only [Memory.wf, Bool.and_eq_true]; exact ⟨h, g⟩
/-- Memory's form rests on its two maps alone. -/
theorem wf_congr {s s' : State} (hm : s'.mem = s.mem) (hg : s'.gtags = s.gtags) (h : Memory.wf s = true) : Memory.wf s' = true :=
  wf_of (hm ▸ wf_mem h) (hg ▸ wf_gtags h)

theorem reset_wf : Memory.wf State.reset = true := rfl

theorem writeBytes_wf {s : State} (h : Memory.wf s = true) (pa : Nat) (l : List Byte) : Memory.wf (s.writeBytes pa l) = true :=
  wf_of (amSetList_wf (Nat.zero_le _) l (wf_mem h)) (wf_gtags (s := s) h)
/-- A read after a write. -/
theorem readByte_writeBytes {s : State} (h : Memory.wf s = true) (pa : Nat) (l : List Byte) (x : Nat) :
    (s.writeBytes pa l).readByte x = if pa ≤ x ∧ x < pa + l.length then l.getD (x - pa) 0 else s.readByte x :=
  amGet_amSetList pa l x (wf_mem h)

theorem setGtag_wf {s : State} (h : Memory.wf s = true) (g : Nat) (t : BitVec 4) : Memory.wf (s.setGtag g t) = true :=
  wf_of (wf_mem (s := s) h) (amSet_wf (Nat.zero_le _) t (wf_gtags h))
theorem gtag_setGtag {s : State} (h : Memory.wf s = true) (g : Nat) (t : BitVec 4) (x : Nat) (hx : inCtl x = false) :
    (s.setGtag g t).gtag x = if x / 32 = g then t else s.gtag x := by
  simp only [State.gtag, State.setGtag, hx, Bool.false_eq_true, if_false]
  exact amGet_amSet g t (x / 32) (wf_gtags h)

/-- Time stamps and page records are no part of memory's bytes. -/
theorem writeEvent_mem (s : State) (l : Leaf) (pa clock : Nat) :
    (s.writeEvent l pa clock).2.mem = s.mem ∧ (s.writeEvent l pa clock).2.gtags = s.gtags := ⟨rfl, rfl⟩
theorem readEvent_mem (s : State) (l : Leaf) (pa clock : Nat) :
    (s.readEvent l pa clock).2.mem = s.mem ∧ (s.readEvent l pa clock).2.gtags = s.gtags := by
  unfold State.readEvent
  split <;> exact ⟨rfl, rfl⟩
theorem updPage_mem (s : State) (l : Leaf) (f : PageRec → PageRec) : (s.updPage l f).mem = s.mem ∧ (s.updPage l f).gtags = s.gtags := by
  unfold State.updPage
  split <;> exact ⟨rfl, rfl⟩
theorem demote_mem (s : State) (p : PageRec) : (s.demote p).mem = s.mem ∧ (s.demote p).gtags = s.gtags := by
  unfold State.demote
  cases p.owner <;> exact ⟨rfl, rfl⟩
theorem claim_mem (s : State) (l : Leaf) (a : Option Nat) : (s.claim l a).mem = s.mem ∧ (s.claim l a).gtags = s.gtags := by
  unfold State.claim
  split
  · split
    · split
      · split
        · exact ⟨rfl, rfl⟩
        · exact demote_mem _ _
      · exact updPage_mem _ _ _
    · split
      · exact ⟨rfl, rfl⟩
      · exact demote_mem _ _
    · exact updPage_mem _ _ _
    · exact ⟨(demote_mem _ _).1.trans (updPage_mem _ _ _).1, (demote_mem _ _).2.trans (updPage_mem _ _ _).2⟩
  · exact ⟨rfl, rfl⟩
theorem note_mem (s : State) (ctx : Nat) (l : Leaf) (a : Option Nat) (w : Bool) :
    (s.note ctx l a w).mem = s.mem ∧ (s.note ctx l a w).gtags = s.gtags := by
  unfold State.note
  split
  · split
    · exact updPage_mem _ _ _
    · exact ⟨rfl, rfl⟩
  · exact ⟨rfl, rfl⟩

/-- A store at home: memory takes the bytes, tags stay (R131, R264). -/
theorem storeHome_mem (s : State) (l : Leaf) (pa : Nat) (d : List Byte) (clock : Nat) (a : Option Nat) :
    (s.storeHome l pa d clock a).2.mem = amSetList 0 s.mem pa d ∧ (s.storeHome l pa d clock a).2.gtags = s.gtags := by
  unfold State.storeHome
  cases a <;> exact ⟨rfl, rfl⟩
theorem storeHome_wf {s : State} (h : Memory.wf s = true) (l : Leaf) (pa : Nat) (d : List Byte) (clock : Nat) (a : Option Nat) :
    Memory.wf (s.storeHome l pa d clock a).2 = true := by
  have e := storeHome_mem s l pa d clock a
  exact wf_of (e.1 ▸ amSetList_wf (Nat.zero_le _) d (wf_mem h)) (e.2 ▸ wf_gtags h)

/-- What every step of a fold leaves of memory, the fold leaves. -/
theorem foldl_mem {β : Type} (f : State → β → State) (hf : ∀ s x, (f s x).mem = s.mem ∧ (f s x).gtags = s.gtags) :
    ∀ (l : List β) (s : State), (l.foldl f s).mem = s.mem ∧ (l.foldl f s).gtags = s.gtags
  | [], _ => ⟨rfl, rfl⟩
  | x :: r, s => ⟨(foldl_mem f hf r (f s x)).1.trans (hf s x).1, (foldl_mem f hf r (f s x)).2.trans (hf s x).2⟩
theorem foldl_wf {β : Type} (f : State → β → State) (hf : ∀ s x, Memory.wf s = true → Memory.wf (f s x) = true) :
    ∀ (l : List β) {s : State}, Memory.wf s = true → Memory.wf (l.foldl f s) = true
  | [], _, h => h
  | x :: r, s, h => foldl_wf f hf r (hf s x h)

/-- One event over units stamps them only (R264). -/
theorem writeUnits_mem (s : State) (l : Leaf) (clock : Nat) (us : List Nat) :
    (s.writeUnits l clock us).2.mem = s.mem ∧ (s.writeUnits l clock us).2.gtags = s.gtags :=
  foldl_mem _ (fun s u => writeEvent_mem s l u _) us s
theorem readUnits_mem (s : State) (l : Leaf) (clock : Nat) (us : List Nat) :
    (s.readUnits l clock us).2.mem = s.mem ∧ (s.readUnits l clock us).2.gtags = s.gtags :=
  foldl_mem _ (fun s u => readEvent_mem s l u _) us s

/-- A write by physical address (R281, R310): memory takes the bytes that lie in it, tags stay. -/
theorem physWrite_mem (s : State) (pa : Nat) (d : List Byte) (clock : Nat) (hn : memPart pa d.length ≠ 0) :
    (s.physWrite pa d clock).2.mem = amSetList 0 s.mem pa (d.take (memPart pa d.length)) ∧
      (s.physWrite pa d clock).2.gtags = s.gtags := by
  have hw := writeUnits_mem (s.claim (s.leafAt pa) none) (s.leafAt pa) clock (unitsOf (s.leafAt pa).grain pa (memPart pa d.length))
  have hc := claim_mem s (s.leafAt pa) none
  simp only [State.physWrite, if_neg hn]
  exact ⟨congrArg (fun m => amSetList 0 m pa _) (hw.1.trans hc.1), hw.2.trans hc.2⟩
theorem physWrite_wf {s : State} (h : Memory.wf s = true) (pa : Nat) (d : List Byte) (clock : Nat) :
    Memory.wf (s.physWrite pa d clock).2 = true := by
  by_cases hn : memPart pa d.length = 0
  · simpa only [State.physWrite, if_pos hn] using h
  · have e := physWrite_mem s pa d clock hn
    exact wf_of (e.1 ▸ amSetList_wf (Nat.zero_le _) _ (wf_mem h)) (e.2 ▸ wf_gtags h)

theorem foldl_updCore_mem (f : Core → Core) (l : List Nat) (s : State) :
    (l.foldl (fun s c => s.updCore c f) s).mem = s.mem ∧ (l.foldl (fun s c => s.updCore c f) s).gtags = s.gtags :=
  foldl_mem (fun s c => s.updCore c f) (fun _ _ => ⟨rfl, rfl⟩) l s
/-- An invalidation leaves memory alone. -/
theorem dropUnit_mem (s : State) (l : Leaf) (u : Nat) : (s.dropUnit l u).mem = s.mem ∧ (s.dropUnit l u).gtags = s.gtags :=
  foldl_updCore_mem _ _ _
theorem physPut_wf {s : State} (h : Memory.wf s = true) (pa : Nat) (d : List Byte) (clock : Nat) :
    Memory.wf (s.physPut pa d clock).2 = true :=
  physWrite_wf (foldl_wf _ (fun s u h => wf_congr (dropUnit_mem s _ u).1 (dropUnit_mem s _ u).2 h) _ h) _ _ _
theorem physPutAll_wf {s : State} (h : Memory.wf s = true) (pa : Nat) (d : List Byte) (clock : Nat) :
    Memory.wf (s.physPutAll pa d clock) = true :=
  foldl_wf _ (fun _ _ h => physPut_wf h _ _ _) _ h

theorem foldl_amSet_wf {t : BitVec 4} : ∀ (l : List Nat) {m : List (Nat × BitVec 4)}, amWf 0 0 m = true →
    amWf 0 0 (l.foldl (fun m g => amSet 0 m g t) m) = true
  | [], _, h => h
  | _ :: r, _, h => foldl_amSet_wf r (amSet_wf (Nat.zero_le _) t h)
/-- A write of the hold-up reserve's restore (R369). -/
theorem rawWrite_wf {s : State} (h : Memory.wf s = true) (pa : Nat) (d : List Byte) : Memory.wf (s.rawWrite pa d) = true :=
  wf_of (wf_mem (s := s.physPutAll pa d 0) (physPutAll_wf h pa d 0)) (foldl_amSet_wf _ (wf_gtags (physPutAll_wf h pa d 0)))

/-- The home value of an allowance object (R285). -/
theorem alStore_wf {s : State} (h : Memory.wf s = true) (obj home : Nat) : Memory.wf (s.alStore obj home) = true := by
  unfold State.alStore
  split
  · unfold State.alSnap
    split
    · exact h
    · have hw := writeUnits_mem s
      exact writeBytes_wf (writeBytes_wf (wf_congr (hw _ _ _).1 (hw _ _ _).2 h) _ _) _ _
  · exact h

/-! ## The exchange of two ranges (R342) -/

section

variable {α : Type} [DecidableEq α]

/-- Keys from b on, moved to a. -/
theorem amWf_move {d : α} (a b : Nat) : ∀ {lo : Nat} {m : List (Nat × α)}, b ≤ lo → amWf d lo m = true →
    amWf d (lo - b + a) (m.map fun e => (e.1 - b + a, e.2)) = true
  | _, [], _, _ => rfl
  | lo, (k, v) :: r, hb, hm => by
    simp only [amWf, Bool.and_eq_true, decide_eq_true_eq] at hm
    have ih := amWf_move (d := d) a b (lo := k + 1) (by omega) hm.2
    simp only [List.map_cons, amWf, Bool.and_eq_true, decide_eq_true_eq]
    exact ⟨⟨by omega, hm.1.2⟩, amWf_mono (by omega) ih⟩
theorem amGet_move {d : α} (a b x : Nat) : ∀ {lo : Nat} {m : List (Nat × α)}, b ≤ lo → amWf d lo m = true →
    amGet d (m.map fun e => (e.1 - b + a, e.2)) x = if a ≤ x then amGet d m (x - a + b) else d
  | _, [], _, _ => by simp [amGet]
  | lo, (k, v) :: r, hb, hm => by
    simp only [amWf, Bool.and_eq_true, decide_eq_true_eq] at hm
    have ih := amGet_move (d := d) a b x (lo := k + 1) (by omega) hm.2
    simp only [List.map_cons, amGet, ih]
    by_cases h0 : a ≤ x
    · by_cases h1 : x - a + b < k
      · simp [h0, h1, show x < k - b + a by omega]
      · by_cases h2 : x - a + b = k
        · have e : x = k - b + a := by omega
          rw [if_neg (by omega), if_pos e, if_pos h0, if_neg h1, if_pos h2]
        · simp [h0, h1, h2, show ¬ x < k - b + a by omega, show x ≠ k - b + a by omega]
    · simp [h0, show x < k - b + a by omega]

/-- Keys of a range. -/
theorem amWf_part {d : α} {m : List (Nat × α)} (h : amWf d 0 m = true) (lo hi : Nat) :
    amWf d lo (m.filter fun e => decide (lo ≤ e.1) && decide (e.1 < hi)) = true := by
  rw [show (fun e : Nat × α => decide (lo ≤ e.1) && decide (e.1 < hi)) = fun e => decide (e.1 < hi) && decide (lo ≤ e.1) by
    funext e; exact Bool.and_comm _ _, ← List.filter_filter]
  exact amWf_filter _ (amWf_filter_ge lo h)
theorem part_lt {α : Type} (m : List (Nat × α)) (lo hi : Nat) : ∀ e ∈ m.filter fun e => decide (lo ≤ e.1) && decide (e.1 < hi), e.1 < hi := by
  simp

variable {d : α} {m : List (Nat × α)} {a b n : Nat}

theorem swap_tail (h : amWf d 0 m = true) :
    amWf d b (((m.filter fun e => decide (a ≤ e.1) && decide (e.1 < a + n)).map fun e => (e.1 - a + b, e.2)) ++
      m.filter fun e => decide (b + n ≤ e.1)) = true ∧
    ∀ e ∈ (m.filter fun e => decide (a ≤ e.1) && decide (e.1 < a + n)).map fun e => (e.1 - a + b, e.2), e.1 < b + n := by
  have hlt : ∀ e ∈ (m.filter fun e => decide (a ≤ e.1) && decide (e.1 < a + n)).map fun e => (e.1 - a + b, e.2), e.1 < b + n := by
    simp only [List.mem_map, List.mem_filter, Bool.and_eq_true, decide_eq_true_eq]
    rintro e ⟨y, ⟨-, hy⟩, rfl⟩
    simp only; omega
  refine ⟨amWf_append (mid := b + n) ?_ hlt (by omega) (amWf_filter_ge _ h), hlt⟩
  have := amWf_move (d := d) b a (Nat.le_refl a) (amWf_part h a (a + n))
  simpa using this

/-- The exchange keeps the canonical form. -/
theorem swapRange_wf (h : amWf d 0 m = true) (hab : a + n ≤ b) : amWf d 0 (swapRange m a b n) = true := by
  unfold swapRange
  simp only [List.append_assoc]
  have ht := swap_tail (a := a) (b := b) (n := n) h
  have hm := amWf_append (mid := b) (amWf_part h (a + n) b) (part_lt m (a + n) b) hab ht.1
  refine amWf_append (mid := a) (amWf_filter _ h) (by simp) (Nat.zero_le _) ?_
  refine amWf_append (mid := a + n) ?_ ?_ (by omega) hm
  · have := amWf_move (d := d) a b (Nat.le_refl b) (amWf_part h b (b + n))
    simpa using this
  · simp only [List.mem_map, List.mem_filter, Bool.and_eq_true, decide_eq_true_eq]
    rintro e ⟨y, ⟨-, hy⟩, rfl⟩
    simp only; omega

theorem amGet_part (h : amWf d 0 m = true) (lo hi x : Nat) :
    amGet d (m.filter fun e => decide (lo ≤ e.1) && decide (e.1 < hi)) x = if lo ≤ x ∧ x < hi then amGet d m x else d := by
  rw [amGet_filter (fun k => decide (lo ≤ k) && decide (k < hi)) x h]
  simp

/-- The exchange reads the other range. -/
theorem amGet_swapRange (h : amWf d 0 m = true) (hab : a + n ≤ b) (x : Nat) :
    amGet d (swapRange m a b n) x = amGet d m (if a ≤ x ∧ x < a + n then x - a + b else if b ≤ x ∧ x < b + n then x - b + a else x) := by
  have ht := swap_tail (a := a) (b := b) (n := n) h
  have hm := amWf_append (mid := b) (amWf_part h (a + n) b) (part_lt m (a + n) b) hab ht.1
  have hB := amWf_move (d := d) a b (Nat.le_refl b) (amWf_part h b (b + n))
  have hA := amWf_move (d := d) b a (Nat.le_refl a) (amWf_part h a (a + n))
  simp only [Nat.sub_self, Nat.zero_add] at hA hB
  have hBlt : ∀ e ∈ (m.filter fun e => decide (b ≤ e.1) && decide (e.1 < b + n)).map fun e => (e.1 - b + a, e.2), e.1 < a + n := by
    simp only [List.mem_map, List.mem_filter, Bool.and_eq_true, decide_eq_true_eq]
    rintro e ⟨y, ⟨-, hy⟩, rfl⟩
    simp only; omega
  unfold swapRange
  simp only [List.append_assoc]
  rw [amGet_append (mid := a) x (amWf_filter _ h) (by simp) (amWf_append (mid := a + n) hB hBlt (by omega) hm),
    amGet_append (mid := a + n) x hB hBlt hm, amGet_append (mid := b) x (amWf_part h (a + n) b) (part_lt m (a + n) b) ht.1,
    amGet_append (mid := b + n) x hA ht.2 (amWf_filter_ge _ h), amGet_filter (fun k => decide (k < a)) x h,
    amGet_move a b x (Nat.le_refl b) (amWf_part h b (b + n)), amGet_move b a x (Nat.le_refl a) (amWf_part h a (a + n)),
    amGet_part h, amGet_part h, amGet_part h, amGet_filter (fun k => decide (b + n ≤ k)) x h]
  by_cases h1 : x < a
  · simp [h1, show ¬ a ≤ x by omega, show ¬ b ≤ x by omega]
  · by_cases h2 : x < a + n
    · simp [h1, h2, show a ≤ x by omega, show x - a + b < b + n by omega]
    · by_cases h3 : x < b
      · simp [h1, h2, h3, show a ≤ x by omega, show a + n ≤ x by omega, show ¬ b ≤ x by omega]
      · by_cases h4 : x < b + n
        · simp [h1, h2, h3, h4, show a ≤ x by omega, show b ≤ x by omega, show x - b + a < a + n by omega]
        · simp [h1, h2, h3, h4, show a ≤ x by omega, show b ≤ x by omega, show b + n ≤ x by omega]

end

theorem exchange_wf {s : State} (h : Memory.wf s = true) {a b n : Nat} (ha : 32 ∣ a) (hb : 32 ∣ b) (hab : a + n ≤ b) :
    Memory.wf (s.exchange a b n) = true :=
  wf_of (swapRange_wf (wf_mem h) hab) (swapRange_wf (wf_gtags h) (by omega))

end Sys2Proof.Machine
end

