-- ==== Sys2Proof/Laws/PerInstr.lean ====
section
/-! SUPPORT. For every constructor of Instr: it has a word exactly if it is an instruction, and bits [66:47] of that word
are its header (R63); one lemma per constructor. -/

namespace Sys2Proof

/-- Bits [66:47] of an instruction's word; an event has none. -/
def Instr.hdr : Instr → Option Hdr
  | .nop h => some h
  | .mov h .. => some h
  | .movi h .. => some h
  | .srd h .. => some h
  | .swr h .. => some h
  | .leaF0 h .. => some h
  | .leaF1 h .. => some h
  | .isel h .. => some h
  | .pcomb h .. => some h
  | .yield h => some h
  | .iaddF0 h .. => some h
  | .iaddF1 h .. => some h
  | .isubF0 h .. => some h
  | .isubF1 h .. => some h
  | .imulF0 h .. => some h
  | .imulF1 h .. => some h
  | .imulhF0 h .. => some h
  | .imulhF1 h .. => some h
  | .imad h .. => some h
  | .iminF0 h .. => some h
  | .iminF1 h .. => some h
  | .imaxF0 h .. => some h
  | .imaxF1 h .. => some h
  | .iabs h .. => some h
  | .isad h .. => some h
  | .icmpF0 h .. => some h
  | .icmpF1 h .. => some h
  | .andF0 h .. => some h
  | .andF1 h .. => some h
  | .orF0 h .. => some h
  | .orF1 h .. => some h
  | .xorF0 h .. => some h
  | .xorF1 h .. => some h
  | .andnF0 h .. => some h
  | .andnF1 h .. => some h
  | .not h .. => some h
  | .shlF0 h .. => some h
  | .shlF1 h .. => some h
  | .shrF0 h .. => some h
  | .shrF1 h .. => some h
  | .sarF0 h .. => some h
  | .sarF1 h .. => some h
  | .rolF0 h .. => some h
  | .rolF1 h .. => some h
  | .fshlF0 h .. => some h
  | .fshlF1 h .. => some h
  | .clz h .. => some h
  | .popc h .. => some h
  | .brev h .. => some h
  | .bfxF0 h .. => some h
  | .bfxF1 h .. => some h
  | .bfiF0 h .. => some h
  | .bfiF1 h .. => some h
  | .bselF0 h .. => some h
  | .bselF1 h .. => some h
  | .vadd h .. => some h
  | .vsub h .. => some h
  | .vmin h .. => some h
  | .vmax h .. => some h
  | .vshl h .. => some h
  | .fadd h .. => some h
  | .fsub h .. => some h
  | .fmul h .. => some h
  | .fma h .. => some h
  | .fmin h .. => some h
  | .fmax h .. => some h
  | .fabs h .. => some h
  | .fneg h .. => some h
  | .fcmp h .. => some h
  | .pkfma h .. => some h
  | .pkadd h .. => some h
  | .frcp h .. => some h
  | .frsq h .. => some h
  | .fexp2 h .. => some h
  | .flog2 h .. => some h
  | .fsin h .. => some h
  | .fcos h .. => some h
  | .ftanh h .. => some h
  | .cvt h .. => some h
  | .qntElement h .. => some h
  | .qntScale h .. => some h
  | .dqnt h .. => some h
  | .trcd h .. => some h
  | .bra h .. => some h
  | .brx h .. => some h
  | .call h .. => some h
  | .ret h .. => some h
  | .exit h => some h
  | .rcvSet h .. => some h
  | .rcvWait h .. => some h
  | .vote h .. => some h
  | .xlane h .. => some h
  | .redx h .. => some h
  | .ld h .. => some h
  | .st h .. => some h
  | .ldx h .. => some h
  | .stx h .. => some h
  | .ldb h .. => some h
  | .stb h .. => some h
  | .ldk h .. => some h
  | .pref h .. => some h
  | .tags h .. => some h
  | .tagg h .. => some h
  | .atom h .. => some h
  | .red h .. => some h
  | .cadd h .. => some h
  | .caddt h .. => some h
  | .cwait h .. => some h
  | .cpoll h .. => some h
  | .alinit h .. => some h
  | .altake h .. => some h
  | .altakeT h .. => some h
  | .altakeW h .. => some h
  | .algive h .. => some h
  | .alread h .. => some h
  | .alpeek h .. => some h
  | .bara h .. => some h
  | .barw h .. => some h
  | .carve h .. => some h
  | .cpyk h .. => some h
  | .presGet h .. => some h
  | .presHold h .. => some h
  | .presRelease h .. => some h
  | .tcfg h .. => some h
  | .tld h .. => some h
  | .tst h .. => some h
  | .tzero h .. => some h
  | .mmt h .. => some h
  | .mmtC h .. => some h
  | .mmts h .. => some h
  | .tbnd h .. => some h
  | .lease h .. => some h
  | .lrel h => some h
  | .lnch h .. => some h
  | .trap h .. => some h
  | .sysc h .. => some h
  | .eretResume h .. => some h
  | .eretRemove h .. => some h
  | .tlbiVa h .. => some h
  | .tlbiCtx h .. => some h
  | .tlbiAll h => some h
  | .fenceI h => some h
  | .ctxsw h .. => some h
  | .migr h .. => some h
  | .wfi h => some h
  | .mset h .. => some h
  | .msclr h => some h
  | .hchk h .. => some h
  | .growQueueGrant .. | .carveOutDeadlock .. | .wfiTimeout .. | .bundleFormation .. | .resultDelivery .. |
    .untaggedResultWrite .. | .trapRecordWrite .. | .waiterPeriodicRead .. | .waiterPushRead .. | .copyElement .. |
    .backReferenceToken .. | .arrivalAddition .. | .retire .. | .engineContextRestart .. | .engineContextCancel .. |
    .leaseRequest .. | .leaseGrant .. | .leaseExpiry .. | .fold .. | .matrixDelivery .. | .operationStop .. |
    .matrixCancel .. | .lightMeterReading .. | .passCountFall .. | .bankSwitch .. | .bankSwitchSlice .. |
    .preEmption .. | .imageSpill .. | .imageLoad .. | .barrierEntryFree .. | .barrierEntryFill .. |
    .barrierCountWrite .. | .barrierKeyWrite .. | .spillMaskWrite .. | .teamStop .. | .teamDeparture .. |
    .coreModeWrite .. | .contextCreate .. | .contextRetire .. | .queueOpen .. | .blockTake | .blockRefusal .. |
    .clusterPlacement .. | .gridCompletion .. | .poolWrite .. | .shareWrite .. | .placementFreeze .. |
    .registerWrite .. | .pageWalk .. | .l1Fill .. | .l1Invalidation .. | .invalidationReport .. |
    .observationWindow .. | .pageMove .. | .sensorReading .. | .relocationStop .. | .relocationCommit .. |
    .forwardedWrite .. | .coreStateLoss .. | .unitSparing .. | .allowanceTakeRequest | .allowanceHomeGive |
    .allowanceReply .. | .recallAnswer .. | .powerFail | .saveSequence .. | .powerOn | .reserveArmed |
    .dataRestore .. | .teamRestore .. | .vaultRelease | .hostMemRead .. | .hostMemWrite .. | .watchArm .. |
    .bootStageAdmit .. | .measurementExtend .. | .attestationRequest .. | .firmwareStaging .. |
    .telemetrySample .. | .rackTimeSet .. | .tokenReceipt .. | .tokenTick | .fabricWindowEnable .. |
    .reductionWindowEnable .. | .fabricRequestReceive .. | .fabricResponse .. | .fabricTimeout .. |
    .stationDown .. | .l2WriteBack .. | .stationUp .. | .instructionFetch .. => none

namespace Laws

/-- A bit of the lower part of a concatenation, and one of the upper part. -/
theorem bit_low {m n : Nat} (a : BitVec m) (b : BitVec n) (i : Nat) (h : i < n) : (a ++ b).getLsbD i = b.getLsbD i := by
  rw [BitVec.getLsbD_append, if_pos h]
theorem bit_high {m n : Nat} (a : BitVec m) (b : BitVec n) (i : Nat) : (a ++ b).getLsbD (n + i) = a.getLsbD i := by
  rw [BitVec.getLsbD_append, if_neg (by omega), Nat.add_sub_cancel_left]
theorem ofBool_bit (x : Bool) : (BitVec.ofBool x).getLsbD 0 = x := by cases x <;> rfl
theorem field {n k : Nat} {x : BitVec n} {s : Nat} {y : BitVec k} (h : ∀ i, i < k → x.getLsbD (s + i) = y.getLsbD i) :
    x.extractLsb' s k = y := by
  apply BitVec.eq_of_getLsbD_eq
  intro i hi
  rw [BitVec.getLsbD_extractLsb', decide_eq_true hi, Bool.true_and, h i hi]

theorem pack_bit (r : Raw) (i : Nat) (h : i < 20) : r.pack.getLsbD (47 + i) = r.h.pack.getLsbD i := by
  show ((r.op ++ r.m ++ r.h.pack) ++ r.body).getLsbD (47 + i) = _
  rw [bit_high, bit_low _ _ _ h]

/-- Unpacking a packed word gives its header. -/
theorem unpack_pack_hdr (r : Raw) : (Raw.unpack r.pack).h = r.h := by
  obtain ⟨op, m, ⟨la, av, tag, wait, gn, gp⟩, body⟩ := r
  simp only [Raw.unpack, Hdr.mk.injEq, bitAt]
  refine ⟨field fun i hi => ?_, ?_, field fun i hi => ?_, field fun i hi => ?_, ?_, field fun i hi => ?_⟩
  · rw [show 63 + i = 47 + (3 + (1 + (8 + (3 + (1 + i))))) from by omega, pack_bit _ _ (by omega)]
    simp only [Hdr.pack, bit_high]
  · rw [show 62 = 47 + (3 + (1 + (8 + (3 + 0)))) from by omega, pack_bit _ _ (by omega)]
    simp only [Hdr.pack, bit_high, bit_low _ _ 0 Nat.zero_lt_one, ofBool_bit]
  · rw [show 59 + i = 47 + (3 + (1 + (8 + i))) from by omega, pack_bit _ _ (by omega)]
    simp only [Hdr.pack, bit_high, bit_low _ _ _ hi]
  · rw [show 51 + i = 47 + (3 + (1 + i)) from by omega, pack_bit _ _ (by omega)]
    simp only [Hdr.pack, bit_high, bit_low _ _ _ hi]
  · rw [show 50 = 47 + (3 + 0) from by omega, pack_bit _ _ (by omega)]
    simp only [Hdr.pack, bit_high, bit_low _ _ 0 Nat.zero_lt_one, ofBool_bit]
  · rw [pack_bit _ _ (by omega)]
    simp only [Hdr.pack, bit_low _ _ _ hi]

end Laws

namespace Laws.Encodes

/-- Instruction i has a word exactly if it has a header, and the word carries that header. -/
def Statement (i : Instr) : Prop :=
  (encode i).isSome = i.hdr.isSome ∧ ∀ w h, encode i = some w → i.hdr = some h → (Raw.unpack w).h = h

theorem of_word {i : Instr} {h : Hdr} {op : Nat} {m : BitVec 4} {body : BitVec 47} (he : encode i = mkWord op m h body)
    (hh : i.hdr = some h) : Statement i := by
  refine ⟨by rw [he, hh]; rfl, ?_⟩
  intro w h' hw hh'
  rw [he] at hw
  rw [hh] at hh'
  simp only [mkWord, Option.some.injEq] at hw hh'
  rw [← hw, unpack_pack_hdr, ← hh']

theorem of_event {i : Instr} (he : encode i = none) (hh : i.hdr = none) : Statement i := by
  refine ⟨by rw [he, hh]; rfl, ?_⟩
  intro w h hw
  rw [he] at hw
  cases hw

theorem nop (h : Hdr) : Statement (.nop h) :=
  of_word rfl rfl
theorem mov (h : Hdr) (kd : Bool) (ty : IntTy) (d : BitVec 8) (a : Src) : Statement (.mov h kd ty d a) :=
  of_word rfl rfl
theorem movi (h : Hdr) (kd : Bool) (ty : IntTy) (d : BitVec 8) (imm : BitVec 39) : Statement (.movi h kd ty d imm) :=
  of_word rfl rfl
theorem srd (h : Hdr) (pair : Bool) (d : BitVec 8) (idx : BitVec 8) : Statement (.srd h pair d idx) :=
  of_word rfl rfl
theorem swr (h : Hdr) (idx : BitVec 8) (a : Src) : Statement (.swr h idx a) :=
  of_word rfl rfl
theorem leaF0 (h : Hdr) (d : BitVec 8) (base : Src) (b : BitVec 8) (iw : BitVec 2) (signed : Bool) (sc : BitVec 3) (pq : Option (BitVec 3)) :
    Statement (.leaF0 h d base b iw signed sc pq) :=
  of_word rfl rfl
theorem leaF1 (h : Hdr) (d a : BitVec 8) (imm : BitVec 31) : Statement (.leaF1 h d a imm) :=
  of_word rfl rfl
theorem isel (h : Hdr) (ty : IntTy) (d : BitVec 8) (a b : Src) (c : BitVec 3) : Statement (.isel h ty d a b c) :=
  of_word rfl rfl
theorem pcomb (h : Hdr) (d a b c : BitVec 3) (fn : BitVec 8) : Statement (.pcomb h d a b c fn) :=
  of_word rfl rfl
theorem yield (h : Hdr) : Statement (.yield h) :=
  of_word rfl rfl
theorem iaddF0 (h : Hdr) (ty : IntTy) (sat : Bool) (d : BitVec 8) (a b : Src) (pq : Option (BitVec 3)) :
    Statement (.iaddF0 h ty sat d a b pq) :=
  of_word rfl rfl
theorem iaddF1 (h : Hdr) (ty : IntTy) (sat : Bool) (d a : BitVec 8) (imm : BitVec 31) :
    Statement (.iaddF1 h ty sat d a imm) :=
  of_word rfl rfl
theorem isubF0 (h : Hdr) (ty : IntTy) (sat : Bool) (d : BitVec 8) (a b : Src) (pq : Option (BitVec 3)) :
    Statement (.isubF0 h ty sat d a b pq) :=
  of_word rfl rfl
theorem isubF1 (h : Hdr) (ty : IntTy) (sat : Bool) (d a : BitVec 8) (imm : BitVec 31) :
    Statement (.isubF1 h ty sat d a imm) :=
  of_word rfl rfl
theorem imulF0 (h : Hdr) (ty : IntTy) (sat : Bool) (d : BitVec 8) (a b : Src) (pq : Option (BitVec 3)) :
    Statement (.imulF0 h ty sat d a b pq) :=
  of_word rfl rfl
theorem imulF1 (h : Hdr) (ty : IntTy) (sat : Bool) (d a : BitVec 8) (imm : BitVec 31) :
    Statement (.imulF1 h ty sat d a imm) :=
  of_word rfl rfl
theorem imulhF0 (h : Hdr) (ty : IntTy) (d : BitVec 8) (a b : Src) : Statement (.imulhF0 h ty d a b) :=
  of_word rfl rfl
theorem imulhF1 (h : Hdr) (ty : IntTy) (d a : BitVec 8) (imm : BitVec 31) : Statement (.imulhF1 h ty d a imm) :=
  of_word rfl rfl
theorem imad (h : Hdr) (ty : IntTy) (sat : Bool) (d : BitVec 8) (a b c : Src) (pq : Option (BitVec 3)) :
    Statement (.imad h ty sat d a b c pq) :=
  of_word rfl rfl
theorem iminF0 (h : Hdr) (ty : IntTy) (d : BitVec 8) (a b : Src) : Statement (.iminF0 h ty d a b) :=
  of_word rfl rfl
theorem iminF1 (h : Hdr) (ty : IntTy) (d a : BitVec 8) (imm : BitVec 31) : Statement (.iminF1 h ty d a imm) :=
  of_word rfl rfl
theorem imaxF0 (h : Hdr) (ty : IntTy) (d : BitVec 8) (a b : Src) : Statement (.imaxF0 h ty d a b) :=
  of_word rfl rfl
theorem imaxF1 (h : Hdr) (ty : IntTy) (d a : BitVec 8) (imm : BitVec 31) : Statement (.imaxF1 h ty d a imm) :=
  of_word rfl rfl
theorem iabs (h : Hdr) (wide : Bool) (sat : Bool) (d : BitVec 8) (a : Src) (pq : Option (BitVec 3)) :
    Statement (.iabs h wide sat d a pq) :=
  of_word rfl rfl
theorem isad (h : Hdr) (ty : IntTy) (sat : Bool) (d : BitVec 8) (a b c : Src) (pq : Option (BitVec 3)) :
    Statement (.isad h ty sat d a b c pq) :=
  of_word rfl rfl
theorem icmpF0 (h : Hdr) (cond : ICond) (ty : IntTy) (d : BitVec 3) (a b : Src) (pq : Option (BitVec 3)) :
    Statement (.icmpF0 h cond ty d a b pq) :=
  of_word rfl rfl
theorem icmpF1 (h : Hdr) (cond : ICond) (ty : IntTy) (d : BitVec 3) (a : BitVec 8) (imm : BitVec 31) :
    Statement (.icmpF1 h cond ty d a imm) :=
  of_word rfl rfl
theorem andF0 (h : Hdr) (ty : IntTy) (d : BitVec 8) (a b : Src) : Statement (.andF0 h ty d a b) :=
  of_word rfl rfl
theorem andF1 (h : Hdr) (ty : IntTy) (d a : BitVec 8) (imm : BitVec 31) : Statement (.andF1 h ty d a imm) :=
  of_word rfl rfl
theorem orF0 (h : Hdr) (ty : IntTy) (d : BitVec 8) (a b : Src) : Statement (.orF0 h ty d a b) :=
  of_word rfl rfl
theorem orF1 (h : Hdr) (ty : IntTy) (d a : BitVec 8) (imm : BitVec 31) : Statement (.orF1 h ty d a imm) :=
  of_word rfl rfl
theorem xorF0 (h : Hdr) (ty : IntTy) (d : BitVec 8) (a b : Src) : Statement (.xorF0 h ty d a b) :=
  of_word rfl rfl
theorem xorF1 (h : Hdr) (ty : IntTy) (d a : BitVec 8) (imm : BitVec 31) : Statement (.xorF1 h ty d a imm) :=
  of_word rfl rfl
theorem andnF0 (h : Hdr) (ty : IntTy) (d : BitVec 8) (a b : Src) : Statement (.andnF0 h ty d a b) :=
  of_word rfl rfl
theorem andnF1 (h : Hdr) (ty : IntTy) (d a : BitVec 8) (imm : BitVec 31) : Statement (.andnF1 h ty d a imm) :=
  of_word rfl rfl
theorem not (h : Hdr) (ty : IntTy) (d : BitVec 8) (a : Src) : Statement (.not h ty d a) :=
  of_word rfl rfl
theorem shlF0 (h : Hdr) (ty : IntTy) (d : BitVec 8) (a b : Src) : Statement (.shlF0 h ty d a b) :=
  of_word rfl rfl
theorem shlF1 (h : Hdr) (ty : IntTy) (d a : BitVec 8) (imm : BitVec 31) : Statement (.shlF1 h ty d a imm) :=
  of_word rfl rfl
theorem shrF0 (h : Hdr) (ty : IntTy) (d : BitVec 8) (a b : Src) : Statement (.shrF0 h ty d a b) :=
  of_word rfl rfl
theorem shrF1 (h : Hdr) (ty : IntTy) (d a : BitVec 8) (imm : BitVec 31) : Statement (.shrF1 h ty d a imm) :=
  of_word rfl rfl
theorem sarF0 (h : Hdr) (ty : IntTy) (d : BitVec 8) (a b : Src) : Statement (.sarF0 h ty d a b) :=
  of_word rfl rfl
theorem sarF1 (h : Hdr) (ty : IntTy) (d a : BitVec 8) (imm : BitVec 31) : Statement (.sarF1 h ty d a imm) :=
  of_word rfl rfl
theorem rolF0 (h : Hdr) (ty : IntTy) (d : BitVec 8) (a b : Src) : Statement (.rolF0 h ty d a b) :=
  of_word rfl rfl
theorem rolF1 (h : Hdr) (ty : IntTy) (d a : BitVec 8) (imm : BitVec 31) : Statement (.rolF1 h ty d a imm) :=
  of_word rfl rfl
theorem fshlF0 (h : Hdr) (ty : IntTy) (d : BitVec 8) (a b c : Src) : Statement (.fshlF0 h ty d a b c) :=
  of_word rfl rfl
theorem fshlF1 (h : Hdr) (ty : IntTy) (d a : BitVec 8) (amt : BitVec 8) : Statement (.fshlF1 h ty d a amt) :=
  of_word rfl rfl
theorem clz (h : Hdr) (ty : IntTy) (d : BitVec 8) (a : Src) : Statement (.clz h ty d a) :=
  of_word rfl rfl
theorem popc (h : Hdr) (ty : IntTy) (d : BitVec 8) (a : Src) : Statement (.popc h ty d a) :=
  of_word rfl rfl
theorem brev (h : Hdr) (ty : IntTy) (d : BitVec 8) (a : Src) : Statement (.brev h ty d a) :=
  of_word rfl rfl
theorem bfxF0 (h : Hdr) (ty : IntTy) (d : BitVec 8) (a b : Src) : Statement (.bfxF0 h ty d a b) :=
  of_word rfl rfl
theorem bfxF1 (h : Hdr) (ty : IntTy) (d a : BitVec 8) (pos len : BitVec 8) : Statement (.bfxF1 h ty d a pos len) :=
  of_word rfl rfl
theorem bfiF0 (h : Hdr) (ty : IntTy) (d : BitVec 8) (a b c : Src) : Statement (.bfiF0 h ty d a b c) :=
  of_word rfl rfl
theorem bfiF1 (h : Hdr) (ty : IntTy) (d a : BitVec 8) (pos len : BitVec 8) : Statement (.bfiF1 h ty d a pos len) :=
  of_word rfl rfl
theorem bselF0 (h : Hdr) (d : BitVec 8) (a b c : Src) : Statement (.bselF0 h d a b c) :=
  of_word rfl rfl
theorem bselF1 (h : Hdr) (d a : BitVec 8) (sel : BitVec 31) : Statement (.bselF1 h d a sel) :=
  of_word rfl rfl
theorem vadd (h : Hdr) (pk : Pack) (uns sat : Bool) (d : BitVec 8) (a b : Src) :
    Statement (.vadd h pk uns sat d a b) :=
  of_word rfl rfl
theorem vsub (h : Hdr) (pk : Pack) (uns sat : Bool) (d : BitVec 8) (a b : Src) :
    Statement (.vsub h pk uns sat d a b) :=
  of_word rfl rfl
theorem vmin (h : Hdr) (pk : Pack) (uns : Bool) (d : BitVec 8) (a b : Src) : Statement (.vmin h pk uns d a b) :=
  of_word rfl rfl
theorem vmax (h : Hdr) (pk : Pack) (uns : Bool) (d : BitVec 8) (a b : Src) : Statement (.vmax h pk uns d a b) :=
  of_word rfl rfl
theorem vshl (h : Hdr) (pk : Pack) (uns sat : Bool) (d : BitVec 8) (a b : Src) :
    Statement (.vshl h pk uns sat d a b) :=
  of_word rfl rfl
theorem fadd (h : Hdr) (rm : Rm) (d : BitVec 8) (a b : Src) : Statement (.fadd h rm d a b) :=
  of_word rfl rfl
theorem fsub (h : Hdr) (rm : Rm) (d : BitVec 8) (a b : Src) : Statement (.fsub h rm d a b) :=
  of_word rfl rfl
theorem fmul (h : Hdr) (rm : Rm) (d : BitVec 8) (a b : Src) : Statement (.fmul h rm d a b) :=
  of_word rfl rfl
theorem fma (h : Hdr) (rm : Rm) (d : BitVec 8) (a b c : Src) : Statement (.fma h rm d a b c) :=
  of_word rfl rfl
theorem fmin (h : Hdr) (d : BitVec 8) (a b : Src) : Statement (.fmin h d a b) :=
  of_word rfl rfl
theorem fmax (h : Hdr) (d : BitVec 8) (a b : Src) : Statement (.fmax h d a b) :=
  of_word rfl rfl
theorem fabs (h : Hdr) (d : BitVec 8) (a : Src) : Statement (.fabs h d a) :=
  of_word rfl rfl
theorem fneg (h : Hdr) (d : BitVec 8) (a : Src) : Statement (.fneg h d a) :=
  of_word rfl rfl
theorem fcmp (h : Hdr) (cond : FCond) (d : BitVec 3) (a b : Src) (pq : Option (BitVec 3)) :
    Statement (.fcmp h cond d a b pq) :=
  of_word rfl rfl
theorem pkfma (h : Hdr) (rm : Rm) (d : BitVec 8) (a b c : Src) : Statement (.pkfma h rm d a b c) :=
  of_word rfl rfl
theorem pkadd (h : Hdr) (rm : Rm) (d : BitVec 8) (a b : Src) : Statement (.pkadd h rm d a b) :=
  of_word rfl rfl
theorem frcp (h : Hdr) (rm : Rm) (d : BitVec 8) (a : Src) : Statement (.frcp h rm d a) :=
  of_word rfl rfl
theorem frsq (h : Hdr) (rm : Rm) (d : BitVec 8) (a : Src) : Statement (.frsq h rm d a) :=
  of_word rfl rfl
theorem fexp2 (h : Hdr) (rm : Rm) (d : BitVec 8) (a : Src) : Statement (.fexp2 h rm d a) :=
  of_word rfl rfl
theorem flog2 (h : Hdr) (rm : Rm) (d : BitVec 8) (a : Src) : Statement (.flog2 h rm d a) :=
  of_word rfl rfl
theorem fsin (h : Hdr) (rm : Rm) (d : BitVec 8) (a : Src) : Statement (.fsin h rm d a) :=
  of_word rfl rfl
theorem fcos (h : Hdr) (rm : Rm) (d : BitVec 8) (a : Src) : Statement (.fcos h rm d a) :=
  of_word rfl rfl
theorem ftanh (h : Hdr) (rm : Rm) (d : BitVec 8) (a : Src) : Statement (.ftanh h rm d a) :=
  of_word rfl rfl
theorem cvt (h : Hdr) (rm : Rm) (dst src : CvtTy) (d : BitVec 8) (a : Src) (pq : Option (BitVec 3)) :
    Statement (.cvt h rm dst src d a pq) :=
  of_word rfl rfl
theorem qntElement (h : Hdr) (d : BitVec 8) (a b : Src) (pq : Option (BitVec 3)) :
    Statement (.qntElement h d a b pq) :=
  of_word rfl rfl
theorem qntScale (h : Hdr) (d : BitVec 8) (a b : Src) (pq : Option (BitVec 3)) : Statement (.qntScale h d a b pq) :=
  of_word rfl rfl
theorem dqnt (h : Hdr) (dst : DqTy) (rm : Rm) (d : BitVec 8) (a b : Src) (i : BitVec 3) :
    Statement (.dqnt h dst rm d a b i) :=
  of_word rfl rfl
theorem trcd (h : Hdr) (fmt : ElemFmt) (nib : Bool) (d : BitVec 8) (a b c : Src) :
    Statement (.trcd h fmt nib d a b c) :=
  of_word rfl rfl
theorem bra (h : Hdr) (off : BitVec 39) : Statement (.bra h off) :=
  of_word rfl rfl
theorem brx (h : Hdr) (a : Src) : Statement (.brx h a) :=
  of_word rfl rfl
theorem call (h : Hdr) (d : BitVec 8) (off : BitVec 39) : Statement (.call h d off) :=
  of_word rfl rfl
theorem ret (h : Hdr) (a : Src) : Statement (.ret h a) :=
  of_word rfl rfl
theorem exit (h : Hdr) : Statement (.exit h) :=
  of_word rfl rfl
theorem rcvSet (h : Hdr) (n : BitVec 8) (off : BitVec 39) : Statement (.rcvSet h n off) :=
  of_word rfl rfl
theorem rcvWait (h : Hdr) (n : BitVec 8) : Statement (.rcvWait h n) :=
  of_word rfl rfl
theorem vote (h : Hdr) (mode : VoteMode) (cnt : Bool) (d : BitVec 8) (neg : Bool) (a : BitVec 3) :
    Statement (.vote h mode cnt d neg a) :=
  of_word rfl rfl
theorem xlane (h : Hdr) (mode : LaneMode) (pair : Bool) (d a : BitVec 8) (b : Src) (pq : Option (BitVec 3)) :
    Statement (.xlane h mode pair d a b pq) :=
  of_word rfl rfl
theorem redx (h : Hdr) (op : RedOp) (rm : Rm) (ty : RedTy) (d a : BitVec 8) : Statement (.redx h op rm ty d a) :=
  of_word rfl rfl
theorem ld (h : Hdr) (ty : MemTy) (pair : Bool) (d : BitVec 8) (m : MemArg) : Statement (.ld h ty pair d m) :=
  of_word rfl rfl
theorem st (h : Hdr) (ty : MemTy) (pair : Bool) (d : BitVec 8) (m : MemArg) : Statement (.st h ty pair d m) :=
  of_word rfl rfl
theorem ldx (h : Hdr) (sz : TupSize) (d : BitVec 8) (m : MemArg) : Statement (.ldx h sz d m) :=
  of_word rfl rfl
theorem stx (h : Hdr) (sz : TupSize) (d : BitVec 8) (m : MemArg) : Statement (.stx h sz d m) :=
  of_word rfl rfl
theorem ldb (h : Hdr) (ty : MemTy) (pair : Bool) (d : BitVec 8) (m : MemArg) : Statement (.ldb h ty pair d m) :=
  of_word rfl rfl
theorem stb (h : Hdr) (ty : MemTy) (pair : Bool) (d : BitVec 8) (m : MemArg) : Statement (.stb h ty pair d m) :=
  of_word rfl rfl
theorem ldk (h : Hdr) (ty : MemTy) (d : BitVec 8) (m : MemArg) : Statement (.ldk h ty d m) :=
  of_word rfl rfl
theorem pref (h : Hdr) (kind : PrefKind) (m : MemArg) : Statement (.pref h kind m) :=
  of_word rfl rfl
theorem tags (h : Hdr) (len : TagLen) (z : Bool) (m : MemArg) : Statement (.tags h len z m) :=
  of_word rfl rfl
theorem tagg (h : Hdr) (d : BitVec 8) (m : MemArg) : Statement (.tagg h d m) :=
  of_word rfl rfl
theorem atom (h : Hdr) (op : Aop) (ty : IntTy) (d : BitVec 8) (m : MemArg10) : Statement (.atom h op ty d m) :=
  of_word rfl rfl
theorem red (h : Hdr) (op : Aop) (ty : IntTy) (d : BitVec 8) (m : MemArg10) : Statement (.red h op ty d m) :=
  of_word rfl rfl
theorem cadd (h : Hdr) (d : BitVec 8) (m : MemArg) : Statement (.cadd h d m) :=
  of_word rfl rfl
theorem caddt (h : Hdr) (d : BitVec 8) (m : MemArg) : Statement (.caddt h d m) :=
  of_word rfl rfl
theorem cwait (h : Hdr) (d : BitVec 8) (m : MemArg) : Statement (.cwait h d m) :=
  of_word rfl rfl
theorem cpoll (h : Hdr) (p : BitVec 3) (d : BitVec 8) (m : MemArg) : Statement (.cpoll h p d m) :=
  of_word rfl rfl
theorem alinit (h : Hdr) (d : BitVec 8) (m : MemArg) : Statement (.alinit h d m) :=
  of_word rfl rfl
theorem altake (h : Hdr) (d : BitVec 8) (m : MemArg10) : Statement (.altake h d m) :=
  of_word rfl rfl
theorem altakeT (h : Hdr) (pq : BitVec 3) (d : BitVec 8) (m : MemArg10) : Statement (.altakeT h pq d m) :=
  of_word rfl rfl
theorem altakeW (h : Hdr) (d : BitVec 8) (m : MemArg10) : Statement (.altakeW h d m) :=
  of_word rfl rfl
theorem algive (h : Hdr) (d : BitVec 8) (m : MemArg) : Statement (.algive h d m) :=
  of_word rfl rfl
theorem alread (h : Hdr) (d : BitVec 8) (m : MemArg) : Statement (.alread h d m) :=
  of_word rfl rfl
theorem alpeek (h : Hdr) (d : BitVec 8) (m : MemArg) : Statement (.alpeek h d m) :=
  of_word rfl rfl
theorem bara (h : Hdr) (one : Bool) (r : Bool) (n : BitVec 4) (d : BitVec 8) (a : Src) :
    Statement (.bara h one r n d a) :=
  of_word rfl rfl
theorem barw (h : Hdr) (n : BitVec 4) (a : Src) : Statement (.barw h n a) :=
  of_word rfl rfl
theorem carve (h : Hdr) (t : Bool) (a b c : Src) (pq : Option (BitVec 3)) : Statement (.carve h t a b c pq) :=
  of_word rfl rfl
theorem growQueueGrant (core bank : Nat) : Statement (.growQueueGrant core bank) :=
  of_event rfl rfl
theorem carveOutDeadlock (core bank : Nat) : Statement (.carveOutDeadlock core bank) :=
  of_event rfl rfl
theorem cpyk (h : Hdr) (t : Bool) (d : BitVec 3) (ec : BitVec 2) (a : Src) : Statement (.cpyk h t d ec a) :=
  of_word rfl rfl
theorem presGet (h : Hdr) (d : BitVec 8) (m : MemArg) : Statement (.presGet h d m) :=
  of_word rfl rfl
theorem presHold (h : Hdr) (m : MemArg) : Statement (.presHold h m) :=
  of_word rfl rfl
theorem presRelease (h : Hdr) (m : MemArg) : Statement (.presRelease h m) :=
  of_word rfl rfl
theorem tcfg (h : Hdr) (t : BitVec 4) (a : Src) : Statement (.tcfg h t a) :=
  of_word rfl rfl
theorem tld (h : Hdr) (t : BitVec 4) (scratch : Bool) (base : Src) (off : BitVec 13) (p : BitVec 8) :
    Statement (.tld h t scratch base off p) :=
  of_word rfl rfl
theorem tst (h : Hdr) (t : BitVec 4) (scratch : Bool) (base : Src) (off : BitVec 13) (p : BitVec 8) :
    Statement (.tst h t scratch base off p) :=
  of_word rfl rfl
theorem tzero (h : Hdr) (t : BitVec 4) : Statement (.tzero h t) :=
  of_word rfl rfl
theorem mmt (h : Hdr) (d : BitVec 8) (m : MatArg) : Statement (.mmt h d m) :=
  of_word rfl rfl
theorem mmtC (h : Hdr) (d : BitVec 8) (m : MatArg) : Statement (.mmtC h d m) :=
  of_word rfl rfl
theorem mmts (h : Hdr) (d : BitVec 8) (n : BitVec 3) : Statement (.mmts h d n) :=
  of_word rfl rfl
theorem tbnd (h : Hdr) (d : BitVec 8) (m : MatArg) : Statement (.tbnd h d m) :=
  of_word rfl rfl
theorem lease (h : Hdr) (t : Bool) (d : BitVec 8) (m : MatArg) : Statement (.lease h t d m) :=
  of_word rfl rfl
theorem lrel (h : Hdr) : Statement (.lrel h) :=
  of_word rfl rfl
theorem lnch (h : Hdr) (t : Bool) (d : BitVec 3) (q : BitVec 3) (a : Src) : Statement (.lnch h t d q a) :=
  of_word rfl rfl
theorem trap (h : Hdr) (imm : BitVec 31) : Statement (.trap h imm) :=
  of_word rfl rfl
theorem sysc (h : Hdr) (a : BitVec 8) (imm : BitVec 31) : Statement (.sysc h a imm) :=
  of_word rfl rfl
theorem eretResume (h : Hdr) (a b : Src) : Statement (.eretResume h a b) :=
  of_word rfl rfl
theorem eretRemove (h : Hdr) (a b : Src) : Statement (.eretRemove h a b) :=
  of_word rfl rfl
theorem tlbiVa (h : Hdr) (a b : Src) : Statement (.tlbiVa h a b) :=
  of_word rfl rfl
theorem tlbiCtx (h : Hdr) (b : Src) : Statement (.tlbiCtx h b) :=
  of_word rfl rfl
theorem tlbiAll (h : Hdr) : Statement (.tlbiAll h) :=
  of_word rfl rfl
theorem fenceI (h : Hdr) : Statement (.fenceI h) :=
  of_word rfl rfl
theorem ctxsw (h : Hdr) (a b : BitVec 8) : Statement (.ctxsw h a b) :=
  of_word rfl rfl
theorem migr (h : Hdr) (a b : BitVec 8) : Statement (.migr h a b) :=
  of_word rfl rfl
theorem wfi (h : Hdr) : Statement (.wfi h) :=
  of_word rfl rfl
theorem wfiTimeout (t : ThreadRef) : Statement (.wfiTimeout t) :=
  of_event rfl rfl
theorem mset (h : Hdr) (t : Bool) (d : BitVec 8) (a b : Src) : Statement (.mset h t d a b) :=
  of_word rfl rfl
theorem msclr (h : Hdr) : Statement (.msclr h) :=
  of_word rfl rfl
theorem hchk (h : Hdr) (sel : HSel) (d : BitVec 8) : Statement (.hchk h sel d) :=
  of_word rfl rfl
theorem bundleFormation (core : Nat) : Statement (.bundleFormation core) :=
  of_event rfl rfl
theorem resultDelivery (t : ThreadRef) (tag : Nat) : Statement (.resultDelivery t tag) :=
  of_event rfl rfl
theorem untaggedResultWrite (t : ThreadRef) (i : Nat) : Statement (.untaggedResultWrite t i) :=
  of_event rfl rfl
theorem trapRecordWrite (ctx : Nat) : Statement (.trapRecordWrite ctx) :=
  of_event rfl rfl
theorem waiterPeriodicRead (w : WaiterRef) : Statement (.waiterPeriodicRead w) :=
  of_event rfl rfl
theorem waiterPushRead (w : WaiterRef) : Statement (.waiterPushRead w) :=
  of_event rfl rfl
theorem copyElement (core ec i : Nat) : Statement (.copyElement core ec i) :=
  of_event rfl rfl
theorem backReferenceToken (core ec i : Nat) : Statement (.backReferenceToken core ec i) :=
  of_event rfl rfl
theorem arrivalAddition (core ec i n : Nat) : Statement (.arrivalAddition core ec i n) :=
  of_event rfl rfl
theorem retire (core ec : Nat) : Statement (.retire core ec) :=
  of_event rfl rfl
theorem engineContextRestart (core ec : Nat) : Statement (.engineContextRestart core ec) :=
  of_event rfl rfl
theorem engineContextCancel (core ec : Nat) : Statement (.engineContextCancel core ec) :=
  of_event rfl rfl
theorem leaseRequest (core : Nat) : Statement (.leaseRequest core) :=
  of_event rfl rfl
theorem leaseGrant (cluster : Nat) : Statement (.leaseGrant cluster) :=
  of_event rfl rfl
theorem leaseExpiry (core team group : Nat) : Statement (.leaseExpiry core team group) :=
  of_event rfl rfl
theorem fold (core row : Nat) : Statement (.fold core row) :=
  of_event rfl rfl
theorem matrixDelivery (core : Nat) : Statement (.matrixDelivery core) :=
  of_event rfl rfl
theorem operationStop (core i : Nat) : Statement (.operationStop core i) :=
  of_event rfl rfl
theorem matrixCancel (core ctx vtid group lane tag : Nat) : Statement (.matrixCancel core ctx vtid group lane tag) :=
  of_event rfl rfl
theorem lightMeterReading (cluster reading : Nat) : Statement (.lightMeterReading cluster reading) :=
  of_event rfl rfl
theorem passCountFall (cluster : Nat) : Statement (.passCountFall cluster) :=
  of_event rfl rfl
theorem bankSwitch (core : Nat) : Statement (.bankSwitch core) :=
  of_event rfl rfl
theorem bankSwitchSlice (cls : Nat) : Statement (.bankSwitchSlice cls) :=
  of_event rfl rfl
theorem preEmption (core : Nat) : Statement (.preEmption core) :=
  of_event rfl rfl
theorem imageSpill (core bank : Nat) : Statement (.imageSpill core bank) :=
  of_event rfl rfl
theorem imageLoad (core bank ctx : Nat) : Statement (.imageLoad core bank ctx) :=
  of_event rfl rfl
theorem barrierEntryFree (core e : Nat) : Statement (.barrierEntryFree core e) :=
  of_event rfl rfl
theorem barrierEntryFill (core e : Nat) : Statement (.barrierEntryFill core e) :=
  of_event rfl rfl
theorem barrierCountWrite (core e : Nat) (v : DWord) : Statement (.barrierCountWrite core e v) :=
  of_event rfl rfl
theorem barrierKeyWrite (core e : Nat) (v : DWord) : Statement (.barrierKeyWrite core e v) :=
  of_event rfl rfl
theorem spillMaskWrite (core j : Nat) (v : DWord) : Statement (.spillMaskWrite core j v) :=
  of_event rfl rfl
theorem teamStop (core ctx vtid : Nat) : Statement (.teamStop core ctx vtid) :=
  of_event rfl rfl
theorem teamDeparture (core team : Nat) : Statement (.teamDeparture core team) :=
  of_event rfl rfl
theorem coreModeWrite (core : Nat) (v : DWord) : Statement (.coreModeWrite core v) :=
  of_event rfl rfl
theorem contextCreate (i : Nat) : Statement (.contextCreate i) :=
  of_event rfl rfl
theorem contextRetire (i : Nat) : Statement (.contextRetire i) :=
  of_event rfl rfl
theorem queueOpen (i j : Nat) (v : DWord) : Statement (.queueOpen i j v) :=
  of_event rfl rfl
theorem blockTake : Statement .blockTake :=
  of_event rfl rfl
theorem blockRefusal (i j : Nat) : Statement (.blockRefusal i j) :=
  of_event rfl rfl
theorem clusterPlacement (pool : Nat) : Statement (.clusterPlacement pool) :=
  of_event rfl rfl
theorem gridCompletion (grid : Nat) : Statement (.gridCompletion grid) :=
  of_event rfl rfl
theorem poolWrite (site : Nat) (v : DWord) : Statement (.poolWrite site v) :=
  of_event rfl rfl
theorem shareWrite (i : Nat) (v : DWord) : Statement (.shareWrite i v) :=
  of_event rfl rfl
theorem placementFreeze (v : DWord) : Statement (.placementFreeze v) :=
  of_event rfl rfl
theorem registerWrite (acc : RegAccess) (off : Nat) : Statement (.registerWrite acc off) :=
  of_event rfl rfl
theorem pageWalk (die : Nat) : Statement (.pageWalk die) :=
  of_event rfl rfl
theorem l1Fill (core unit : Nat) : Statement (.l1Fill core unit) :=
  of_event rfl rfl
theorem l1Invalidation (core unit : Nat) : Statement (.l1Invalidation core unit) :=
  of_event rfl rfl
theorem invalidationReport (core unit : Nat) : Statement (.invalidationReport core unit) :=
  of_event rfl rfl
theorem observationWindow (ctx : Nat) : Statement (.observationWindow ctx) :=
  of_event rfl rfl
theorem pageMove (ctxA vaA ctxB vaB : Nat) : Statement (.pageMove ctxA vaA ctxB vaB) :=
  of_event rfl rfl
theorem sensorReading (site temp : Nat) : Statement (.sensorReading site temp) :=
  of_event rfl rfl
theorem relocationStop (core : Nat) : Statement (.relocationStop core) :=
  of_event rfl rfl
theorem relocationCommit (core : Nat) : Statement (.relocationCommit core) :=
  of_event rfl rfl
theorem forwardedWrite (core : Nat) : Statement (.forwardedWrite core) :=
  of_event rfl rfl
theorem coreStateLoss (core : Nat) (what : CoreLoss) : Statement (.coreStateLoss core what) :=
  of_event rfl rfl
theorem unitSparing (u : SpareUnit) (lost : List Nat) : Statement (.unitSparing u lost) :=
  of_event rfl rfl
theorem allowanceTakeRequest : Statement .allowanceTakeRequest :=
  of_event rfl rfl
theorem allowanceHomeGive : Statement .allowanceHomeGive :=
  of_event rfl rfl
theorem allowanceReply (core : Nat) : Statement (.allowanceReply core) :=
  of_event rfl rfl
theorem recallAnswer (core obj : Nat) : Statement (.recallAnswer core obj) :=
  of_event rfl rfl
theorem powerFail : Statement .powerFail :=
  of_event rfl rfl
theorem saveSequence (beChunks : Nat) (bad : List (Nat × Nat)) : Statement (.saveSequence beChunks bad) :=
  of_event rfl rfl
theorem powerOn : Statement .powerOn :=
  of_event rfl rfl
theorem reserveArmed : Statement .reserveArmed :=
  of_event rfl rfl
theorem dataRestore (k pa : Nat) : Statement (.dataRestore k pa) :=
  of_event rfl rfl
theorem teamRestore (k cls i : Nat) : Statement (.teamRestore k cls i) :=
  of_event rfl rfl
theorem vaultRelease : Statement .vaultRelease :=
  of_event rfl rfl
theorem hostMemRead (h : Nat) : Statement (.hostMemRead h) :=
  of_event rfl rfl
theorem hostMemWrite (h : Nat) (data : BitVec 512) : Statement (.hostMemWrite h data) :=
  of_event rfl rfl
theorem watchArm (w vector : Nat) : Statement (.watchArm w vector) :=
  of_event rfl rfl
theorem bootStageAdmit (img : BootImage) : Statement (.bootStageAdmit img) :=
  of_event rfl rfl
theorem measurementExtend (m : Nat) (image : List Byte) : Statement (.measurementExtend m image) :=
  of_event rfl rfl
theorem attestationRequest (nonce : List Byte) : Statement (.attestationRequest nonce) :=
  of_event rfl rfl
theorem firmwareStaging (img : BootImage) : Statement (.firmwareStaging img) :=
  of_event rfl rfl
theorem telemetrySample (power : Nat) : Statement (.telemetrySample power) :=
  of_event rfl rfl
theorem rackTimeSet (t : Nat) : Statement (.rackTimeSet t) :=
  of_event rfl rfl
theorem tokenReceipt (bytes : List Byte) : Statement (.tokenReceipt bytes) :=
  of_event rfl rfl
theorem tokenTick : Statement .tokenTick :=
  of_event rfl rfl
theorem fabricWindowEnable (i w : Nat) : Statement (.fabricWindowEnable i w) :=
  of_event rfl rfl
theorem reductionWindowEnable (r : Nat) : Statement (.reductionWindowEnable r) :=
  of_event rfl rfl
theorem fabricRequestReceive (q : FabIn) : Statement (.fabricRequestReceive q) :=
  of_event rfl rfl
theorem fabricResponse (id : Nat) (ok : Bool) (data : List Byte) : Statement (.fabricResponse id ok data) :=
  of_event rfl rfl
theorem fabricTimeout (id : Nat) : Statement (.fabricTimeout id) :=
  of_event rfl rfl
theorem stationDown (st : Nat) : Statement (.stationDown st) :=
  of_event rfl rfl
theorem l2WriteBack (ctx va : Nat) : Statement (.l2WriteBack ctx va) :=
  of_event rfl rfl
theorem stationUp (st : Nat) : Statement (.stationUp st) :=
  of_event rfl rfl
theorem instructionFetch (core ctx : Nat) (sup : Bool) (line : Nat) :
    Statement (.instructionFetch core ctx sup line) :=
  of_event rfl rfl

end Laws.Encodes

end Sys2Proof
end

