-- ==== Sys2Proof/Laws/Run.lean ====
section
/-! SUPPORT. What a bundle that issues does, said once: teams of a changed core, the views of a bundle, and the outcome of a
word all of whose checks pass. -/

namespace Sys2Proof.Machine

/-! ## A team of a state with that team replaced -/

theorem find?_map_id (l : List Team) (id : Nat) (f : Team → Team) (hf : ∀ t, t.id = id → (f t).id = id) :
    (l.map fun t => if t.id = id then f t else t).find? (fun t => t.id == id) =
      (l.find? fun t => t.id == id).map f := by
  induction l with
  | nil => rfl
  | cons x r ih =>
    by_cases h : x.id = id
    · simp [h, hf x h]
    · simp [h, ih]

theorem updTeam_team? {s : State} {c id : Nat} {t : Team} (h : s.team? c id = some t) {f : Team → Team}
    (hf : ∀ t, t.id = id → (f t).id = id) : (s.updTeam c id f).team? c id = some (f t) := by
  have hc : c < s.cores.length := by
    rcases Nat.lt_or_ge c s.cores.length with h' | h'
    · exact h'
    · simp [State.team?, State.core, List.getD_eq_getElem?_getD, List.getElem?_eq_none h', Core.team?, Core.reset] at h
  simp only [State.team?, State.updTeam, State.updCore, State.core] at h ⊢
  rw [updAt_getD_self _ _ _ hc]
  simp only [Core.updTeam, Core.team?] at h ⊢
  rw [find?_map_id _ _ _ hf, h]
  rfl

theorem team?_id {s : State} {c id : Nat} {t : Team} (h : s.team? c id = some t) : t.id = id := by
  have := List.find?_some h
  simpa using this

theorem updTeam_updTeam (s : State) (c id : Nat) (f g : Team → Team) (hf : ∀ t, t.id = id → (f t).id = id) :
    (s.updTeam c id f).updTeam c id g = s.updTeam c id fun t => g (f t) := by
  simp only [State.updTeam, State.updCore, updAt_updAt]
  congr 1
  apply updAt_congr
  intro k _
  simp only [Core.updTeam, List.map_map]
  congr 1
  apply List.map_congr_left
  intro t _
  by_cases h : t.id = id
  · simp [h, hf t h]
  · simp [h]

/-! ## The team as a word finds it -/

theorem mapThreads_thread? (t : Team) (f : Nat → Nat → Thread → Thread) (g l : Nat) :
    (t.mapThreads f).thread? g l = (t.thread? g l).map (f g l) := by
  simp only [Team.thread?, Team.mapThreads, mapIdxFrom_getElem?, Nat.zero_add]
  cases t.groups[g]? <;> simp

@[simp] theorem mapThreads_id (t : Team) (f : Nat → Nat → Thread → Thread) : (t.mapThreads f).id = t.id := rfl
@[simp] theorem mapThreads_halt (t : Team) (f : Nat → Nat → Thread → Thread) : (t.mapThreads f).halt = t.halt := rfl
@[simp] theorem wordTeam_id (s : State) (h : Hdr) (all : TagUse) (sel : List Env → List Env) (b : Bundle) (t : Team) :
    (s.wordTeam h all sel b t).id = t.id := rfl
@[simp] theorem wordTeam_halt (s : State) (h : Hdr) (all : TagUse) (sel : List Env → List Env) (b : Bundle) (t : Team) :
    (s.wordTeam h all sel b t).halt = t.halt := rfl

/-! ## The views of a bundle -/

/-- What a view says of its thread. -/
theorem views_mem {s : State} {h : Hdr} {all : TagUse} {sel : List Env → List Env} {b : Bundle} {t : Team} {e : Env}
    (he : e ∈ s.views h all sel b t) :
    e.s = s.wordState h all sel b t ∧ e.b = b ∧ e.t = s.wordTeam h all sel b t ∧ (e.g, e.l) ∈ b.members ∧
      (s.wordTeam h all sel b t).groups[e.g]? = some e.gr ∧ e.gr.threads[e.l]? = some e.th ∧
      (s.wordTeam h all sel b t).thread? e.g e.l = some e.th := by
  simp only [State.views, withPeers, List.mem_map] at he
  obtain ⟨x, hx, rfl⟩ := he
  simp only [envsOf, List.mem_filterMap] at hx
  obtain ⟨m, hm, hx⟩ := hx
  split at hx
  · rename_i gr old h1 h2
    split at hx
    · rename_i th h3
      simp only [Option.some.injEq] at hx
      subst hx
      exact ⟨rfl, rfl, rfl, hm, h1, h3, by simp [Team.thread?, h1, h3]⟩
    · simp at hx
  · simp at hx

theorem doers_sub {s : State} {h : Hdr} {all : TagUse} {sel : List Env → List Env} {b : Bundle} {t : Team} {e : Env}
    (he : e ∈ s.doers h all sel b t) : e ∈ s.views h all sel b t := List.mem_of_mem_filter he

theorem doers_performers {s : State} {h : Hdr} {all : TagUse} {sel : List Env → List Env} {b : Bundle} {t : Team} {e : Env}
    (he : e ∈ s.doers h all sel b t) : performers h all sel s b t e.g e.l = true := by
  have := List.of_mem_filter he
  simpa using this

/-- No two views are of one thread when the members are distinct. -/
theorem views_unique {s : State} {h : Hdr} {all : TagUse} {sel : List Env → List Env} {b : Bundle} {t : Team}
    (hn : b.members.Nodup) : (s.views h all sel b t).Pairwise fun x y => ¬ (x.g = y.g ∧ x.l = y.l) := by
  simp only [State.views, withPeers, List.pairwise_map]
  simp only [envsOf]
  generalize s.wordState h all sel b t = s1
  generalize s.wordTeam h all sel b t = t1
  generalize b.members = ms at hn
  induction hn with
  | nil => simp
  | @cons m r hm _ ih =>
    rw [List.filterMap_cons]
    have key : ∀ (x : Env) (m' : Nat × Nat),
        (match t1.groups[m'.1]?, t.thread? m'.1 m'.2 with
          | some gr, some old => match gr.threads[m'.2]? with
            | some th => some ({ s := s1, b := b, t := t1, gr := gr, th := th, g := m'.1, l := m'.2, exec := old.execs h all, peers := [], crew := [] } : Env)
            | none => none
          | _, _ => none) = some x → x.g = m'.1 ∧ x.l = m'.2 := by
      intro x m' hx
      split at hx
      · split at hx
        · simp only [Option.some.injEq] at hx; subst hx; exact ⟨rfl, rfl⟩
        · simp at hx
      · simp at hx
    split
    · exact ih
    · rename_i x hx
      rw [List.pairwise_cons]
      refine ⟨?_, ih⟩
      intro y hy
      simp only [List.mem_filterMap] at hy
      obtain ⟨m', hm', hy⟩ := hy
      have h1 := key x m hx
      have h2 := key y m' hy
      intro hxy
      apply hm m' hm'
      apply Prod.ext
      · rw [← h1.1, ← h2.1, hxy.1]
      · rw [← h1.2, ← h2.2, hxy.2]

/-! ## What issues comes to -/

theorem issues_bundle {s : State} {h : Hdr} {u : Uses} {all : TagUse} {sel : List Env → List Env} {b : Bundle} {t : Team}
    (hi : issues s h u all sel b t = true) : s.bundle = some b ∧ s.team? b.core b.team = some t ∧ t.halt = none ∧
      b.members.Nodup := by
  simp only [issues, Bool.and_eq_true, decide_eq_true_eq, Option.isNone_iff_eq_none] at hi
  exact ⟨hi.1.1.1.1.1, hi.1.1.1.1.2, hi.1.1.1.2, hi.1.1.2⟩

theorem unstaged_team? (s : State) (c id : Nat) : s.unstaged.team? c id = s.team? c id := rfl

theorem missPages_nil {l : List (Env × Chk)} (h : ∀ x ∈ l, x.2 = .ok) : missPages l = [] := by
  induction l with
  | nil => rfl
  | cons x r ih =>
    simp only [missPages, List.map_cons, List.flatten_cons] at ih ⊢
    rw [ih fun y hy => h y (List.mem_cons_of_mem _ hy), h x List.mem_cons_self]
    rfl

theorem firstTrap_none {l : List (Env × Chk)} (h : ∀ x ∈ l, x.2 = .ok) : firstTrap l = none := by
  simp only [firstTrap, List.findSome?_eq_none_iff]
  intro x hx
  rw [h x hx]

theorem firstHold_none {l : List (Env × Chk)} (h : ∀ x ∈ l, x.2 = .ok) : firstHold l = none := by
  simp only [firstHold, List.findSome?_eq_none_iff]
  intro x hx
  rw [h x hx]

theorem absentLines_nil {l : List (Env × Chk)} (h : ∀ x ∈ l, x.2 = .ok) : absentLines l = [] := by
  simp only [absentLines, List.filterMap_eq_nil_iff]
  intro x hx
  rw [h x hx]

theorem roundUnits_nil {l : List (Env × Chk)} (h : ∀ x ∈ l, x.2 = .ok) : roundUnits l = [] := by
  simp only [roundUnits, List.flatten_eq_nil_iff, List.mem_map]
  rintro _ ⟨x, hx, rfl⟩
  rw [h x hx]

/-- Completing tags that raise nothing leave no register without its result. -/
theorem missed_none {th : Thread} {l : List Nat} (h : th.badTag l = none) (r : RName) : th.missed l r = false := by
  simp only [Thread.badTag, List.findSome?_eq_none_iff] at h
  simp only [Thread.missed, List.any_eq_false]
  intro i hi
  have := h i hi
  cases ht : th.tags.getD i none with
  | none => simp
  | some x =>
    rw [ht] at this
    cases hb : x.bad with
    | none => simp [hb]
    | some y => simp [hb] at this

/-- A thread of the bundle at the time at which it would act is a thread of the bundle at some time. -/
theorem mem_laneTimes {act : Env → State → State × Out} {p : Env → Bool} {x : Env} :
    ∀ (l : List Env) (k : Nat) (s : State), x ∈ laneTimes act p k l s → ∃ e ∈ l, ∃ j, x = e.at j := by
  intro l
  induction l with
  | nil => intro k s hx; simp [laneTimes] at hx
  | cons e r ih =>
    intro k s hx
    simp only [laneTimes, List.mem_cons] at hx
    rcases hx with rfl | hx
    · exact ⟨e, by simp, k, rfl⟩
    · split at hx
      · obtain ⟨y, hy, j, rfl⟩ := ih _ _ hx
        exact ⟨y, List.mem_cons_of_mem _ hy, j, rfl⟩
      · obtain ⟨y, hy, j, rfl⟩ := ih _ _ hx
        exact ⟨y, List.mem_cons_of_mem _ hy, j, rfl⟩

theorem aloneTraps_nil {l : List (Env × Chk)} (h : ∀ x ∈ l, x.2 = .ok) : aloneTraps l = [] := by
  simp only [aloneTraps, List.filterMap_eq_nil_iff]
  intro x hx
  rw [h x hx]

@[simp] theorem withTag_none (c : Chk) : c.withTag none = c := by cases c <;> rfl

/-- A bundle none of whose members meets a cause alone executes its word. -/
theorem runBundle_word {h : Hdr} {m : Sem} {s : State} {b : Bundle} {t : Team} (hb : s.bundle = some b)
    (ht : s.team? b.core b.team = some t) (ha : aloneTraps (s.unstaged.bundleChks h m b t) = []) : runBundle h m s = runWord h m s := by
  simp only [runBundle, hb, ht]
  simp only [State.unstaged] at ha
  rw [ha]

/-- The driver when nothing stands in the way: the threads that perform the word act in lane order, the bundle commits, and
what follows the bundle is done (R139, R140). -/
theorem runBundle_issues {h : Hdr} {m : Sem} {s : State} {b : Bundle} {t : Team}
    (hi : issues s h m.uses m.allTags m.sel b t = true) (hw : m.whole = none)
    (he : ∀ e ∈ s.unstaged.doers h m.allTags m.sel b t, ∀ k, m.early (e.at k) = none ∧ m.chk (e.at k) = .ok)
    (hy : ∀ e ∈ s.unstaged.views h m.allTags m.sel b t, performers h m.allTags m.sel s.unstaged b t e.g e.l = false → e.exec = true →
      ∀ k, m.bystander (e.at k) = .ok) :
    runBundle h m s =
      m.post b ((((runActs m.act (s.unstaged.slotStart b) (s.unstaged.doers h m.allTags m.sel b t)
        (s.unstaged.wordState h m.allTags m.sel b t)).1.slotTime b.core (lastTime (runActs m.act (s.unstaged.slotStart b)
          (s.unstaged.doers h m.allTags m.sel b t) (s.unstaged.wordState h m.allTags m.sel b t)).2)).commit
        h m.uses b (runActs m.act (s.unstaged.slotStart b) (s.unstaged.doers h m.allTags m.sel b t)
          (s.unstaged.wordState h m.allTags m.sel b t)).2).countSkid b) := by
  obtain ⟨hb, ht, _, _⟩ := issues_bundle hi
  have hall : ∀ e ∈ s.unstaged.views h m.allTags m.sel b t, ∀ j,
      memberChk h m t (performers h m.allTags m.sel s.unstaged b t) (e.at j) = .ok := by
    intro e hv j
    have hi' := hi
    simp only [issues, Bool.and_eq_true, List.all_eq_true] at hi'
    obtain ⟨⟨⟨h1, h2⟩, h4⟩, h3⟩ := hi'.2 e hv
    have h4' : (e.at j).lostReg (guardName h) = false := by
      have : e.lostReg (guardName h) = false := by simpa using h4
      exact this
    have h2' : (e.at j).th.inWindow (guardName h) = false := by
      have : e.th.inWindow (guardName h) = false := by simpa using h2
      exact this
    have hg : ∀ (gone : RName → Bool), (∀ r, gone r = (e.at j).lostReg [r]) → (guardName h).any gone = false := by
      intro gone hgone
      rw [List.any_eq_false]
      intro r hr
      rw [hgone r]
      simp only [guardName] at hr h4'
      split at hr
      · simp at hr
      · rename_i hn
        simp only [if_neg hn] at h4'
        rw [List.mem_singleton] at hr
        subst hr
        simpa using h4'
    have ee : (e.at j).exec = e.exec := rfl
    have eg : (e.at j).g = e.g := rfl
    have el : (e.at j).l = e.l := rfl
    obtain ⟨gone, hm⟩ : ∃ gone : RName → Bool, memberChk h m t (performers h m.allTags m.sel s.unstaged b t) (e.at j) =
        if performers h m.allTags m.sel s.unstaged b t e.g e.l = true then (e.at j).checks h m gone none
        else if e.exec = true then m.bystander (e.at j) else .ok := by
      revert h1
      cases ht : t.thread? e.g e.l with
      | none =>
        intro _
        refine ⟨fun r => (e.at j).lostReg [r], ?_⟩
        simp only [memberChk, h2', eg, el, ee, ht, Bool.false_eq_true, if_false, Bool.or_false, hg (fun r => (e.at j).lostReg [r]) (fun _ => rfl), Option.filter_none, withTag_none]
        split
        · rfl
        · split <;> rename_i hb _ <;> first | rfl | (cases hx : (if e.exec = true then m.bystander (e.at j) else Chk.ok) <;> simp_all)
      | some th =>
        intro h1
        have h1' : th.badTag (Thread.tagsDone h m.allTags (performers h m.allTags m.sel s.unstaged b t e.g e.l)) = none := by simpa using h1
        refine ⟨fun r => (e.at j).lostReg [r], ?_⟩
        simp only [memberChk, h2', eg, el, ee, ht, h1', missed_none h1', Bool.false_eq_true, if_false, Bool.or_false,
          hg (fun r => (e.at j).lostReg [r]) (fun _ => rfl), Option.filter_none, withTag_none]
        split
        · rfl
        · split <;> rename_i hb _ <;> first | rfl | (cases hx : (if e.exec = true then m.bystander (e.at j) else Chk.ok) <;> simp_all)
    rw [hm]
    cases hp : performers h m.allTags m.sel s.unstaged b t e.g e.l with
    | false =>
      simp only [Bool.false_eq_true, if_false]
      cases hx : e.exec with
      | false => simp
      | true => simp [hy e hv hp hx j]
    | true =>
      simp only [if_true]
      rw [hp] at h3
      have hc : (e.at j).clear h m.uses = true := by
        have : e.clear h m.uses = true := by simpa using h3
        exact this
      have hd : e ∈ s.unstaged.doers h m.allTags m.sel b t := by
        simp only [State.doers, List.mem_filter]
        exact ⟨hv, hp⟩
      obtain ⟨he1, he2⟩ := he e hd j
      simp only [Env.clear, Bool.and_eq_true, Bool.not_eq_true'] at hc
      obtain ⟨⟨⟨⟨⟨c1, c2⟩, c3⟩, c4⟩, c6⟩, c5⟩ := hc
      simp [Env.checks, Env.hazards, lowerTrap, c1, c2, c3, c4, c5, c6, he1, he2]
  have hcs : ∀ x ∈ s.unstaged.bundleChks h m b t, x.2 = .ok := by
    intro x hx
    simp only [State.bundleChks, List.mem_map] at hx
    obtain ⟨y, hy', rfl⟩ := hx
    obtain ⟨e, hv, j, rfl⟩ := mem_laneTimes _ _ _ hy'
    exact hall e hv j
  have ht' : s.team? b.core b.team = some t := ht
  rw [runBundle_word hb ht' (aloneTraps_nil hcs)]
  simp only [runWord, hb, ht']
  have e0 : ({ s with bundle := none } : State) = s.unstaged := rfl
  rw [e0, missPages_nil hcs, firstTrap_none hcs, absentLines_nil hcs, roundUnits_nil hcs, firstHold_none hcs, hw]
  simp

/-- Acts that leave the state alone. -/
theorem runActs_const {act : Env → State → State × Out} {val : Env → Out} {s : State} :
    ∀ (l : List Env) (k : Nat), (∀ e ∈ l, ∀ j, act (e.at j) s = (s, val e)) → runActs act k l s = (s, l.map fun e => (e.g, e.l, val e)) := by
  intro l
  induction l with
  | nil => intro _ _; rfl
  | cons e r ih =>
    intro k h
    simp only [runActs, h e List.mem_cons_self, List.map_cons]
    rw [ih _ fun x hx => h x (List.mem_cons_of_mem _ hx)]

theorem maxList_zero : ∀ l : List Nat, (∀ x ∈ l, x = 0) → maxList l = 0 := by
  intro l
  induction l with
  | nil => intro _; rfl
  | cons x r ih =>
    intro h
    have h1 : x = 0 := h x (by simp)
    have h2 := ih fun y hy => h y (by simp [hy])
    simp_all [maxList]

/-! ## What a bundle's commit does to its team -/

/-- The team after a bundle with the outcomes outs. -/
def commitTeam (h : Hdr) (u : Uses) (b : Bundle) (cycle : Nat) (outs : List (Nat × Nat × Out)) (t : Team) : Team :=
  let t1 := t.mapThreads fun g l th =>
    if isMember b g l then
      match outs.find? fun o => o.1 == g && o.2.1 == l with
      | some o => if o.2.2.stay then th.stays u cycle o.2.2 else th.issue h u b.pc cycle o.2.2
      | none =>
        match outs.find? fun o => o.1 == g && o.2.2.stayAll with
        | some o => th.stays u cycle o.2.2
        | none => th.pass b.pc cycle
    else th
  { t1 with groups := mapIdxFrom (fun g gr => (kWrites outs g).foldl Group.writeK gr) 0 t1.groups }

theorem commit_eq (s : State) (h : Hdr) (u : Uses) (b : Bundle) (outs : List (Nat × Nat × Out)) :
    s.commit h u b outs = s.updTeam b.core b.team (commitTeam h u b s.cycle outs) := rfl

theorem writeK_foldl (ws : List RWrite) : ∀ gr : Group, ws.foldl Group.writeK gr =
    { gr with k := ws.foldl (fun k w => match w with
      | .k n v => updAt k n fun _ => v
      | _ => k) gr.k
              lost := ws.foldl (fun l w => match w with
      | .k n _ => l.filter fun i => i != n
      | _ => l) gr.lost } := by
  induction ws with
  | nil => intro gr; rfl
  | cons w r ih =>
    intro gr
    rw [List.foldl_cons, List.foldl_cons, List.foldl_cons, ih]
    cases w <;> rfl

/-! ### An exit writes registers only (R26) -/

@[simp] theorem write_clock (th : Thread) (w : RWrite) : (th.write w).clock = th.clock := by
  cases w <;> simp only [Thread.write]
  split <;> rfl
@[simp] theorem writes_clock (l : List RWrite) : ∀ th : Thread, (th.writes l).clock = th.clock := by
  induction l with
  | nil => intro _; rfl
  | cons w r ih => intro th; exact (ih (th.write w)).trans (write_clock th w)
@[simp] theorem windowsFold_clock (l : List Window) :
    ∀ th : Thread, (l.foldl (fun t w => if w.written then t else t.writes w.held) th).clock = th.clock := by
  induction l with
  | nil => intro _; rfl
  | cons w r ih => intro th; rw [List.foldl_cons, ih]; split <;> simp
@[simp] theorem retire_clock (th : Thread) (e : Bool) : (th.retire e).clock = th.clock := by
  cases e
  · rfl
  · exact windowsFold_clock _ _
@[simp] theorem write_fmt (th : Thread) (w : RWrite) : (th.write w).fmt = th.fmt := by
  cases w <;> simp only [Thread.write]
  split <;> rfl
@[simp] theorem writes_fmt (l : List RWrite) : ∀ th : Thread, (th.writes l).fmt = th.fmt := by
  induction l with
  | nil => intro _; rfl
  | cons w r ih => intro th; exact (ih (th.write w)).trans (write_fmt th w)
@[simp] theorem windowsFold_fmt (l : List Window) :
    ∀ th : Thread, (l.foldl (fun t w => if w.written then t else t.writes w.held) th).fmt = th.fmt := by
  induction l with
  | nil => intro _; rfl
  | cons w r ih => intro th; rw [List.foldl_cons, ih]; split <;> simp
@[simp] theorem retire_fmt (th : Thread) (e : Bool) : (th.retire e).fmt = th.fmt := by
  cases e
  · rfl
  · exact windowsFold_fmt _ _
@[simp] theorem write_fence (th : Thread) (w : RWrite) : (th.write w).fence = th.fence := by
  cases w <;> simp only [Thread.write]
  split <;> rfl
@[simp] theorem writes_fence (l : List RWrite) : ∀ th : Thread, (th.writes l).fence = th.fence := by
  induction l with
  | nil => intro _; rfl
  | cons w r ih => intro th; exact (ih (th.write w)).trans (write_fence th w)
@[simp] theorem windowsFold_fence (l : List Window) :
    ∀ th : Thread, (l.foldl (fun t w => if w.written then t else t.writes w.held) th).fence = th.fence := by
  induction l with
  | nil => intro _; rfl
  | cons w r ih => intro th; rw [List.foldl_cons, ih]; split <;> simp
@[simp] theorem retire_fence (th : Thread) (e : Bool) : (th.retire e).fence = th.fence := by
  cases e
  · rfl
  · exact windowsFold_fence _ _
@[simp] theorem write_fabWrites (th : Thread) (w : RWrite) : (th.write w).fabWrites = th.fabWrites := by
  cases w <;> simp only [Thread.write]
  split <;> rfl
@[simp] theorem writes_fabWrites (l : List RWrite) : ∀ th : Thread, (th.writes l).fabWrites = th.fabWrites := by
  induction l with
  | nil => intro _; rfl
  | cons w r ih => intro th; exact (ih (th.write w)).trans (write_fabWrites th w)
@[simp] theorem windowsFold_fabWrites (l : List Window) :
    ∀ th : Thread, (l.foldl (fun t w => if w.written then t else t.writes w.held) th).fabWrites = th.fabWrites := by
  induction l with
  | nil => intro _; rfl
  | cons w r ih => intro th; rw [List.foldl_cons, ih]; split <;> simp
@[simp] theorem retire_fabWrites (th : Thread) (e : Bool) : (th.retire e).fabWrites = th.fabWrites := by
  cases e
  · rfl
  · exact windowsFold_fabWrites _ _

theorem issue_after (th : Thread) (h : Hdr) (u : Uses) (pc : VAddr) (cycle : Nat) (o : Out) :
    th.issue h u pc cycle o = th.after h u pc cycle o := by
  simp only [Thread.issue, Thread.after, Out.kept]
  by_cases ha : (h.av && !o.tagless) = true
  · simp [ha, Thread.countIssue]
  · have ha' : (h.av && !o.tagless) = false := by simpa using ha
    by_cases hl : ((o.writes.filter RWrite.kept).isEmpty && !(o.late && !u.dests.isEmpty)) = true
    · simp only [ha', hl, Thread.countIssue, Bool.false_or, Bool.false_eq_true, if_false, if_true, List.append_nil, retire_clock,
        retire_fmt, retire_fence, retire_fabWrites]
    · have hl' : ((o.writes.filter RWrite.kept).isEmpty && !(o.late && !u.dests.isEmpty)) = false := by simpa using hl
      simp only [ha', hl', Thread.countIssue, Bool.false_or, Bool.false_eq_true, if_false, retire_clock, retire_fmt, retire_fence,
        retire_fabWrites]

theorem commitTeam_groups (h : Hdr) (u : Uses) (b : Bundle) (cycle : Nat) (outs : List (Nat × Nat × Out)) (t : Team) (g : Nat) :
    (commitTeam h u b cycle outs t).groups[g]? = (t.groups[g]?).map fun gr =>
      { gr with
        k := (kWrites outs g).foldl (fun k w => match w with
          | .k n v => updAt k n fun _ => v
          | _ => k) gr.k
        lost := (kWrites outs g).foldl (fun l w => match w with
          | .k n _ => l.filter fun i => i != n
          | _ => l) gr.lost
        threads := mapIdxFrom (fun l th =>
          if isMember b g l then
            match outs.find? fun o => o.1 == g && o.2.1 == l with
            | some o => if o.2.2.stay then th.stays u cycle o.2.2 else th.issue h u b.pc cycle o.2.2
            | none =>
              match outs.find? fun o => o.1 == g && o.2.2.stayAll with
              | some o => th.stays u cycle o.2.2
              | none => th.pass b.pc cycle
          else th) 0 gr.threads } := by
  simp only [commitTeam, mapIdxFrom_getElem?, Nat.zero_add, Team.mapThreads, Option.map_map]
  cases t.groups[g]? with
  | none => rfl
  | some gr => simp only [Option.map_some, Function.comp_apply, writeK_foldl]

theorem commitTeam_only (h : Hdr) (u : Uses) (b : Bundle) (cycle : Nat) (outs : List (Nat × Nat × Out)) (t : Team) :
    OnlyMembers t (commitTeam h u b cycle outs t) b := by
  refine ⟨rfl, ?_, ?_⟩
  · simp [commitTeam, Team.mapThreads]
  · intro g gr hg
    rw [commitTeam_groups, hg]
    refine ⟨_, rfl, rfl, ?_, ?_⟩
    · simp
    · intro l hl
      simp only [mapIdxFrom_getElem?, Nat.zero_add, hl, Bool.false_eq_true, if_false]
      cases gr.threads[l]? <;> rfl

theorem commitTeam_thread? (h : Hdr) (u : Uses) (b : Bundle) (cycle : Nat) (outs : List (Nat × Nat × Out)) (t : Team) (g l : Nat) :
    (commitTeam h u b cycle outs t).thread? g l = (t.thread? g l).map fun th =>
      if isMember b g l then
        match outs.find? fun o => o.1 == g && o.2.1 == l with
        | some o => if o.2.2.stay then th.stays u cycle o.2.2 else th.issue h u b.pc cycle o.2.2
        | none =>
          match outs.find? fun o => o.1 == g && o.2.2.stayAll with
          | some o => th.stays u cycle o.2.2
          | none => th.pass b.pc cycle
      else th := by
  simp only [Team.thread?, commitTeam_groups]
  cases t.groups[g]? with
  | none => rfl
  | some gr => simp only [Option.map_some, mapIdxFrom_getElem?, Nat.zero_add]

/-- Outcomes of threads that are pairwise different: the one of a thread of the list is found. -/
theorem find?_outcome (val : Env → Out) : ∀ (ps : List Env), ps.Pairwise (fun x y => ¬ (x.g = y.g ∧ x.l = y.l)) → ∀ e ∈ ps,
    (ps.map fun e => (e.g, e.l, val e)).find? (fun o => o.1 == e.g && o.2.1 == e.l) = some (e.g, e.l, val e) := by
  intro ps hp e he
  induction hp with
  | nil => simp at he
  | @cons x r hx _ ih =>
    rw [List.map_cons, List.find?_cons]
    by_cases hxe : x.g = e.g ∧ x.l = e.l
    · rcases List.mem_cons.mp he with rfl | hr
      · simp
      · exact absurd hxe (hx e hr)
    · have hf : ((x.g == e.g) && (x.l == e.l)) = false := by
        simp only [Bool.and_eq_false_iff, beq_eq_false_iff_ne, ne_eq]
        rcases Classical.em (x.g = e.g) with h1 | h1
        · exact Or.inr fun h2 => hxe ⟨h1, h2⟩
        · exact Or.inl h1
      simp only [hf]
      rcases List.mem_cons.mp he with rfl | hr
      · exact absurd ⟨rfl, rfl⟩ hxe
      · exact ih hr

theorem find?_outcome_none (val : Env → Out) (ps : List Env) (g l : Nat) (h : ∀ p ∈ ps, ¬ (p.g = g ∧ p.l = l)) :
    (ps.map fun e => (e.g, e.l, val e)).find? (fun o => o.1 == g && o.2.1 == l) = none := by
  simp only [List.find?_eq_none, List.mem_map, Bool.and_eq_true, beq_iff_eq]
  rintro o ⟨e, he, rfl⟩
  exact h e he

theorem find?_stayAll (val : Env → Out) (ps : List Env) (g : Nat) (h : ∀ p ∈ ps, (val p).stayAll = false) :
    (ps.map fun e => (e.g, e.l, val e)).find? (fun o => o.1 == g && o.2.2.stayAll) = none := by
  simp only [List.find?_eq_none, List.mem_map, Bool.and_eq_true, beq_iff_eq]
  rintro o ⟨e, he, rfl⟩
  simp [h e he]

theorem kWrites_eq (val : Env → Out) (ps : List Env) (g : Nat) (k : List DWord) :
    (kWrites (ps.map fun e => (e.g, e.l, val e)) g).foldl (fun k w => match w with
      | .k n v => updAt k n fun _ => v
      | _ => k) k = kAfter ps val g k := by
  induction ps with
  | nil => rfl
  | cons e r ih =>
    simp only [kWrites, kAfter, List.map_cons, List.find?_cons] at ih ⊢
    cases hg : (e.g == g) with
    | true => rfl
    | false => exact ih

theorem kLost_eq (val : Env → Out) (ps : List Env) (g : Nat) (l : List Nat) :
    (kWrites (ps.map fun e => (e.g, e.l, val e)) g).foldl (fun l w => match w with
      | .k n _ => l.filter fun i => i != n
      | _ => l) l = kLost ps val g l := by
  induction ps with
  | nil => rfl
  | cons e r ih =>
    simp only [kWrites, kLost, List.map_cons, List.find?_cons] at ih ⊢
    cases hg : (e.g == g) with
    | true => rfl
    | false => exact ih

/-- The commit of outcomes that no thread stays for (R76 to R78). -/
theorem commitTeam_performed {s : State} {h : Hdr} {u : Uses} {all : TagUse} {sel : List Env → List Env} {b : Bundle} {t : Team}
    (hn : b.members.Nodup) (val : Env → Out) (cycle : Nat)
    (hv : ∀ e ∈ s.doers h all sel b t, (val e).stay = false ∧ (val e).stayAll = false) (t1 : Team) :
    Performed t1 (commitTeam h u b cycle ((s.doers h all sel b t).map fun e => (e.g, e.l, val e)) t1)
      b h u cycle (s.views h all sel b t) (s.doers h all sel b t) val := by
  have hmem : ∀ e ∈ s.views h all sel b t, isMember b e.g e.l = true := by
    intro e he
    obtain ⟨_, _, _, hm, _⟩ := views_mem he
    simp only [isMember, List.any_eq_true, Bool.and_eq_true, beq_iff_eq]
    exact ⟨_, hm, rfl, rfl⟩
  have hpw : (s.doers h all sel b t).Pairwise fun x y => ¬ (x.g = y.g ∧ x.l = y.l) :=
    (views_unique hn).sublist List.filter_sublist
  refine ⟨commitTeam_only _ _ _ _ _ _, ?_, ?_, ?_⟩
  · intro e he
    have hev := doers_sub he
    rw [commitTeam_thread?, hmem e hev, find?_outcome val _ hpw e he]
    simp [(hv e he).1, issue_after]
  · intro e hev hno
    rw [commitTeam_thread?, hmem e hev, find?_outcome_none val _ _ _ hno, find?_stayAll val _ _ fun p hp => (hv p hp).2]
    rfl
  · intro g gr gr' hg hg'
    rw [commitTeam_groups, hg, Option.map_some, Option.some.injEq] at hg'
    rw [← hg']
    exact ⟨kWrites_eq val _ g gr.k, kLost_eq val _ g gr.lost⟩

/-- A bundle of a running team counts no skid. -/
theorem countSkid_running {s : State} {b : Bundle} {t : Team} (ht : s.team? b.core b.team = some t) (hh : t.halt = none) :
    s.countSkid b = s := by
  simp [State.countSkid, ht, hh]

/-- With every executing thread selected, the threads that perform a word are those whose guards are true. -/
theorem performers_all {s : State} {h : Hdr} {u : Uses} {all : TagUse} {b : Bundle} {t : Team} {e : Env}
    (hi : issues s h u all (fun l => l) b t = true) (he : e ∈ s.unstaged.views h all (fun l => l) b t) (hex : e.exec = true) :
    performers h all (fun l => l) s.unstaged b t e.g e.l = true := by
  simp only [issues, Bool.and_eq_true, List.all_eq_true] at hi
  have hsome := hi.1.2
  simp only [performers, List.any_eq_true, List.mem_filter, Bool.and_eq_true, beq_iff_eq]
  simp only [State.views, withPeers, List.mem_map] at he
  obtain ⟨x, hx, rfl⟩ := he
  simp only [envsOf, List.mem_filterMap] at hx
  obtain ⟨mm, hm, hx⟩ := hx
  obtain ⟨old, hold⟩ := Option.isSome_iff_exists.mp (hsome mm hm)
  rw [hold] at hx
  split at hx
  · rename_i gr old' h1 h2
    simp only [Option.some.injEq] at h2
    subst h2
    split at hx
    · rename_i th h3
      simp only [Option.some.injEq] at hx
      subst hx
      have hold' := hold
      simp only [Team.thread?] at hold'
      split at hold'
      · rename_i gr0 hgr0
        refine ⟨{ s := s.unstaged, b := b, t := t, gr := gr0, th := old, g := mm.1, l := mm.2, exec := old.execs h all, peers := [], crew := [] }, ⟨?_, hex⟩, rfl, rfl⟩
        simp only [envsOf, List.mem_filterMap]
        exact ⟨mm, hm, by simp only [hold, hgr0, hold']⟩
      · simp at hold'
    · simp at hx
  · simp at hx

/-- The commit after acts that left the state alone, as one change of the team. -/
theorem commit_word {s : State} {h : Hdr} {u : Uses} {all : TagUse} {sel : List Env → List Env} {b : Bundle} {t : Team}
    (ht : s.team? b.core b.team = some t) (outs : List (Nat × Nat × Out)) :
    (s.wordState h all sel b t).commit h u b outs =
      s.updTeam b.core b.team fun _ => commitTeam h u b s.cycle outs (s.wordTeam h all sel b t) := by
  rw [commit_eq]
  exact updTeam_updTeam s b.core b.team (fun _ => s.wordTeam h all sel b t) (commitTeam h u b s.cycle outs)
    fun _ _ => (wordTeam_id s h all sel b t).trans (team?_id ht)

@[simp] theorem commitTeam_id (h : Hdr) (u : Uses) (b : Bundle) (cycle : Nat) (outs : List (Nat × Nat × Out)) (t : Team) :
    (commitTeam h u b cycle outs t).id = t.id := rfl
@[simp] theorem commitTeam_halt (h : Hdr) (u : Uses) (b : Bundle) (cycle : Nat) (outs : List (Nat × Nat × Out)) (t : Team) :
    (commitTeam h u b cycle outs t).halt = t.halt := rfl
@[simp] theorem unstaged_cycle (s : State) : s.unstaged.cycle = s.cycle := rfl

theorem commit_running {s : State} {h : Hdr} {u : Uses} {all : TagUse} {sel : List Env → List Env} {b : Bundle} {t : Team}
    (ht : s.team? b.core b.team = some t) (hh : t.halt = none) (outs : List (Nat × Nat × Out)) :
    ((s.wordState h all sel b t).commit h u b outs).countSkid b =
      s.updTeam b.core b.team fun _ => commitTeam h u b s.cycle outs (s.wordTeam h all sel b t) := by
  rw [commit_word ht]
  exact countSkid_running (updTeam_team? ht fun _ _ => (commitTeam_id ..).trans ((wordTeam_id s h all sel b t).trans (team?_id ht)))
    ((commitTeam_halt ..).trans hh)

/-- An instruction whose meaning only acts on its own threads. -/
theorem does_of_run {i : Instr} {h : Hdr} {m : Sem} {val : Env → Out} {pre : Env → Prop} {u : Uses} {all : TagUse}
    {sel : List Env → List Env} (hx : ∀ s, exec i s = .next (runBundle h m s)) (hu : m.uses = u) (ha : m.allTags = all)
    (hs : m.sel = sel) (hw : m.whole = none) (hpost : m.post = fun _ s => s)
    (hact : ∀ e s, m.act e s = (s, val e)) (hstay : ∀ e, (val e).stay = false ∧ (val e).stayAll = false)
    (hpre : ∀ e, pre e → m.early e = none ∧ m.chk e = .ok) (hby : ∀ e, m.bystander e = .ok)
    (hval : ∀ e k, val (e.at k) = val e := by intros; rfl) (hclock : ∀ e, (val e).clock = 0 := by intros; rfl)
    (hany : ∀ e k, pre e → pre (e.at k) := by intros; assumption) :
    Does i h u val pre all sel := by
  subst hu ha hs
  intro s b t hi hp
  obtain ⟨hb, ht, hh, hn⟩ := issues_bundle hi
  have h2 := commitTeam_performed (s := s.unstaged) (h := h) (u := m.uses) (all := m.allTags) (sel := m.sel) (b := b) (t := t) hn val
    s.cycle (fun e _ => hstay e) (s.unstaged.wordTeam h m.allTags m.sel b t)
  have h1 := runBundle_issues hi hw (fun e he k => hpre _ (hany e k (hp e he))) (fun e _ _ _ k => hby _)
  have hr : runActs m.act (s.unstaged.slotStart b) (s.unstaged.doers h m.allTags m.sel b t) (s.unstaged.wordState h m.allTags m.sel b t) =
      (s.unstaged.wordState h m.allTags m.sel b t, (s.unstaged.doers h m.allTags m.sel b t).map fun e => (e.g, e.l, val e)) :=
    runActs_const _ _ fun e _ k => (hact (e.at k) _).trans (by rw [hval])
  have hz : lastTime ((s.unstaged.doers h m.allTags m.sel b t).map fun e => (e.g, e.l, val e)) = 0 := by
    apply maxList_zero
    simp only [List.mem_map]
    rintro x ⟨o, ⟨e, _, rfl⟩, rfl⟩
    exact hclock e
  have hc := commit_running (s := s.unstaged) (h := h) (u := m.uses) (all := m.allTags) (sel := m.sel) (b := b) ht hh
    ((s.unstaged.doers h m.allTags m.sel b t).map fun e => (e.g, e.l, val e))
  rw [hr, hpost, hz] at h1
  simp only [State.slotTime, if_true] at h1
  rw [hc] at h1
  refine ⟨_, ?_, h2⟩
  rw [hx, h1, unstaged_cycle]

/-- A meaning that only computes in registers. -/
theorem computes_of_pure {i : Instr} {h : Hdr} {u : Uses} {val : Env → List RWrite}
    (hx : ∀ s, exec i s = .next (runBundle h (pureSem u val) s)) (hval : ∀ e k, val (e.at k) = val e := by intros; rfl) :
    Computes i h u val :=
  does_of_run (m := pureSem u val) hx rfl rfl rfl rfl rfl (fun _ _ => rfl) (fun _ => ⟨rfl, rfl⟩) (fun _ _ => ⟨rfl, rfl⟩) (fun _ => rfl)
    (fun e k => by rw [hval e k])

/-- Threads that act one after another: each has the effect, none stays, and their team goes on running. -/
theorem runActs_runs {act : Env → State → State × Out} {Eff : Env → State → State → Out → Prop} {c id : Nat} {cyc : Nat} :
    ∀ (l : List Env), l.Pairwise (fun x y => ¬ (x.g = y.g ∧ x.l = y.l)) → ∀ (k : Nat) (s : State) (t : Team), s.team? c id = some t →
    t.halt = none → s.cycle = cyc →
    (∀ e ∈ l, ∀ k s t, s.team? c id = some t → s.cycle = cyc → Eff (e.at k) s (act (e.at k) s).1 (act (e.at k) s).2 ∧
      (act (e.at k) s).2.stay = false ∧ (act (e.at k) s).2.stayAll = false ∧ (act (e.at k) s).1.cycle = cyc ∧
      ∃ t', (act (e.at k) s).1.team? c id = some t' ∧ t'.halt = t.halt) →
    ∃ val : Env → Out, (runActs act k l s).2 = l.map (fun e => (e.g, e.l, val e)) ∧ Runs Eff val k l s (runActs act k l s).1 ∧
      (∀ e ∈ l, (val e).stay = false ∧ (val e).stayAll = false) ∧ (runActs act k l s).1.cycle = cyc ∧
      ∃ t1, (runActs act k l s).1.team? c id = some t1 ∧ t1.halt = none := by
  intro l hp
  induction hp with
  | nil =>
    intro k s t ht hh hc _
    exact ⟨fun _ => {}, rfl, .nil k s, by simp, hc, t, ht, hh⟩
  | @cons e r hne _ ih =>
    intro k s t ht hh hc hact
    obtain ⟨h1, h2, h3, h4, t', h5, h6⟩ := hact e List.mem_cons_self k s t ht hc
    obtain ⟨val, v1, v2, v3, v4, v5⟩ := ih (Nat.max k (act (e.at k) s).2.clock) (act (e.at k) s).1 t' h5 (h6.trans hh) h4
      (fun x hx => hact x (List.mem_cons_of_mem _ hx))
    let val' : Env → Out := fun x => if x.g = e.g ∧ x.l = e.l then (act (e.at k) s).2 else val x
    have hv : ∀ x ∈ r, val' x = val x := by
      intro x hx
      have : ¬ (x.g = e.g ∧ x.l = e.l) := fun hxe => hne x hx ⟨hxe.1.symm, hxe.2.symm⟩
      simp [val', this]
    have he : val' e = (act (e.at k) s).2 := by simp [val']
    have hcongr : ∀ (l : List Env) (k : Nat) (s1 s2 : State), (∀ x ∈ l, val' x = val x) → Runs Eff val k l s1 s2 →
        Runs Eff val' k l s1 s2 := by
      intro l k s1 s2 hx hr
      induction hr with
      | nil k s => exact .nil k s
      | @cons k x r s s1 s2 hxe _ ih =>
        have h1 := hx x List.mem_cons_self
        refine .cons (s1 := s1) ?_ ?_
        · rw [h1]; exact hxe
        · rw [h1]; exact ih fun y hy => hx y (List.mem_cons_of_mem _ hy)
    refine ⟨val', ?_, ?_, ?_, v4, v5⟩
    · simp only [runActs, v1, List.map_cons, he]
      congr 1
      exact List.map_congr_left fun x hx => by rw [hv x hx]
    · simp only [runActs]
      exact .cons (he ▸ h1) (by rw [he]; exact hcongr _ _ _ _ hv v2)
    · intro x hx
      rcases List.mem_cons.mp hx with rfl | hr
      · rw [he]; exact ⟨h2, h3⟩
      · rw [hv x hr]; exact v3 x hr

theorem wordState_team? {s : State} {h : Hdr} {all : TagUse} {sel : List Env → List Env} {b : Bundle} {t : Team}
    (ht : s.team? b.core b.team = some t) : (s.wordState h all sel b t).team? b.core b.team = some (s.wordTeam h all sel b t) :=
  updTeam_team? ht fun _ _ => (wordTeam_id ..).trans (team?_id ht)

@[simp] theorem slotTime_cycle (s : State) (c k : Nat) : (s.slotTime c k).cycle = s.cycle := by
  simp only [State.slotTime]; split <;> rfl
@[simp] theorem slotTime_team? (s : State) (c k d id : Nat) : (s.slotTime c k).team? d id = s.team? d id := by
  simp only [State.slotTime]
  split
  · rfl
  · simp only [State.team?, State.core, State.updCore, List.getD_eq_getElem?_getD, updAt_getElem?]
    cases s.cores[d]? with
    | none => split <;> rfl
    | some x => simp only [Option.map_some, Option.getD_some]; split <;> rfl
theorem lastTime_map (val : Env → Out) (l : List Env) :
    lastTime (l.map fun e => (e.g, e.l, val e)) = maxList (l.map fun e => (val e).clock) := by
  simp [lastTime, List.map_map, Function.comp_def]

/-- An instruction whose meaning acts on the state. -/
theorem acts_of_run {i : Instr} {h : Hdr} {m : Sem} {Eff : Env → State → State → Out → Prop} {pre look : Env → Prop} {u : Uses}
    {all : TagUse} {sel : List Env → List Env} {post : Bundle → State → State} (hx : ∀ s, exec i s = .next (runBundle h m s))
    (hu : m.uses = u) (ha : m.allTags = all) (hs : m.sel = sel) (hpost : m.post = post) (hw : m.whole = none)
    (hpre : ∀ e, pre e → m.early e = none ∧ m.chk e = .ok) (hby : ∀ e, look e → m.bystander e = .ok)
    (hact : ∀ e s t, pre e → s.team? e.b.core e.b.team = some t → s.cycle = e.s.cycle → Eff e s (m.act e s).1 (m.act e s).2 ∧
      (m.act e s).2.stay = false ∧ (m.act e s).2.stayAll = false ∧ (m.act e s).1.cycle = s.cycle ∧
      ∃ t', (m.act e s).1.team? e.b.core e.b.team = some t' ∧ t'.halt = t.halt) :
    Acts i h u Eff pre all sel look post := by
  subst hu ha hs hpost
  intro s b t hi hp hl
  obtain ⟨hb, ht, hh, hn⟩ := issues_bundle hi
  have h1 := runBundle_issues hi hw (fun e he k => hpre _ (hp e he k)) (fun e he h2 h3 k => hby _ (hl e he h2 h3 k))
  have ht0 : s.unstaged.team? b.core b.team = some t := ht
  have hpw : (s.unstaged.doers h m.allTags m.sel b t).Pairwise fun x y => ¬ (x.g = y.g ∧ x.l = y.l) :=
    (views_unique hn).sublist List.filter_sublist
  obtain ⟨val, v1, v2, v3, v4, t1, v5, v6⟩ := runActs_runs (act := m.act) (Eff := Eff) (c := b.core) (id := b.team) (cyc := s.cycle) _ hpw
    (s.unstaged.slotStart b) (s.unstaged.wordState h m.allTags m.sel b t) _ (wordState_team? ht0) ((wordTeam_halt ..).trans hh) rfl (by
      intro e he k s2 t2 h2 h3
      obtain ⟨q1, q2, _⟩ := views_mem (doers_sub he)
      have hc : e.s.cycle = s.cycle := by rw [q1]; rfl
      have := hact (e.at k) s2 t2 (hp e he k) (by rw [show (e.at k).b = b from q2]; exact h2) (h3.trans hc.symm)
      rw [show (e.at k).b = b from q2, h3] at this
      exact this)
  generalize hR : runActs m.act (s.unstaged.slotStart b) (s.unstaged.doers h m.allTags m.sel b t)
    (s.unstaged.wordState h m.allTags m.sel b t) = R at h1 v1 v2 v4 v5
  have hs : (((R.1.slotTime b.core (lastTime R.2)).commit h m.uses b R.2).countSkid b) =
      (R.1.slotTime b.core (maxList ((s.unstaged.doers h m.allTags m.sel b t).map fun e => (val e).clock))).updTeam b.core b.team
        (commitTeam h m.uses b s.cycle ((s.unstaged.doers h m.allTags m.sel b t).map fun e => (e.g, e.l, val e))) := by
    rw [commit_eq, v1, lastTime_map, slotTime_cycle, v4]
    exact countSkid_running (updTeam_team? ((slotTime_team? ..).trans v5) fun _ h => (commitTeam_id ..).trans h)
      ((commitTeam_halt ..).trans v6)
  rw [hs] at h1
  exact ⟨_, val, t1, _, v2, v5, by rw [hx, h1], commitTeam_performed hn val s.cycle v3 t1⟩

/-- At most one thread performs a word that only the lowest executing lane performs. -/
theorem doers_lowest {s : State} {h : Hdr} {all : TagUse} {b : Bundle} {t : Team} (hn : b.members.Nodup) :
    s.doers h all lowestOnly b t = [] ∨ ∃ e, s.doers h all lowestOnly b t = [e] := by
  rcases hd : s.doers h all lowestOnly b t with _ | ⟨x, _ | ⟨y, r⟩⟩
  · exact .inl rfl
  · exact .inr ⟨x, rfl⟩
  · exfalso
    have hp : (s.doers h all lowestOnly b t).Pairwise fun x y => ¬ (x.g = y.g ∧ x.l = y.l) :=
      (views_unique hn).sublist List.filter_sublist
    have hx : ∀ z ∈ s.doers h all lowestOnly b t, performers h all lowestOnly s b t z.g z.l = true :=
      fun z hz => (List.mem_filter.mp hz).2
    rw [hd] at hp hx
    have h1 := hx x (by simp)
    have h2 := hx y (by simp)
    simp only [performers, lowestOnly] at h1 h2
    generalize ((envsOf s b h all t t).filter fun e => e.exec) = l at h1 h2
    cases l with
    | nil => simp at h1
    | cons z _ =>
      simp at h1 h2
      have := List.rel_of_pairwise_cons hp (a' := y) (by simp)
      exact this ⟨h1.1.symm.trans h2.1, h1.2.symm.trans h2.2⟩

/-- An instruction whose meaning acts on the state by the lowest executing lane: the lane acts on the state it sees. -/
theorem acts_of_first {i : Instr} {h : Hdr} {m : Sem} {Eff : Env → State → State → Out → Prop} {pre look : Env → Prop} {u : Uses}
    {all : TagUse} {post : Bundle → State → State} (hx : ∀ s, exec i s = .next (runBundle h m s))
    (hu : m.uses = u) (ha : m.allTags = all) (hs : m.sel = lowestOnly) (hpost : m.post = post) (hw : m.whole = none)
    (hpre : ∀ e, pre e → m.early e = none ∧ m.chk e = .ok) (hby : ∀ e, look e → m.bystander e = .ok)
    (hact : ∀ e t, pre e → e.s.team? e.b.core e.b.team = some t → t = e.t → Eff e e.s (m.act e e.s).1 (m.act e e.s).2 ∧
      (m.act e e.s).2.stay = false ∧ (m.act e e.s).2.stayAll = false ∧ (m.act e e.s).1.cycle = e.s.cycle ∧
      ∃ t', (m.act e e.s).1.team? e.b.core e.b.team = some t' ∧ t'.halt = t.halt) :
    Acts i h u Eff pre all lowestOnly look post := by
  subst hu ha hpost
  intro s b t hi hp hl
  obtain ⟨hb, ht, hh, hn⟩ := issues_bundle hi
  rw [← hs] at hi hp hl
  have h1 := runBundle_issues hi hw (fun e he k => hpre _ (hp e he k)) (fun e he h2 h3 k => hby _ (hl e he h2 h3 k))
  have ht0 : s.unstaged.team? b.core b.team = some t := ht
  generalize hR : runActs m.act (s.unstaged.slotStart b) (s.unstaged.doers h m.allTags m.sel b t)
    (s.unstaged.wordState h m.allTags m.sel b t) = R at h1
  obtain ⟨val, v1, v2, v3, v4, t1, v5, v6⟩ : ∃ val : Env → Out,
      R.2 = (s.unstaged.doers h m.allTags m.sel b t).map (fun e => (e.g, e.l, val e)) ∧
      Runs Eff val (s.unstaged.slotStart b) (s.unstaged.doers h m.allTags m.sel b t) (s.unstaged.wordState h m.allTags m.sel b t) R.1 ∧
      (∀ e ∈ s.unstaged.doers h m.allTags m.sel b t, (val e).stay = false ∧ (val e).stayAll = false) ∧
      R.1.cycle = s.cycle ∧ ∃ t1, R.1.team? b.core b.team = some t1 ∧ t1.halt = none := by
    have hd := doers_lowest (s := s.unstaged) (h := h) (all := m.allTags) (t := t) hn
    rw [← hs] at hd
    rcases hd with hd | ⟨e, hd⟩
    · rw [hd] at hR ⊢
      rw [← hR]
      exact ⟨fun _ => {}, rfl, .nil _ _, by simp, rfl, _, wordState_team? ht0, (wordTeam_halt ..).trans hh⟩
    · have he : e ∈ s.unstaged.doers h m.allTags m.sel b t := by rw [hd]; simp
      obtain ⟨q1, q2, q3, _⟩ := views_mem (doers_sub he)
      have q4 := hact (e.at (s.unstaged.slotStart b)) (s.unstaged.wordTeam h m.allTags m.sel b t) (hp e he _)
        (by rw [show (e.at (s.unstaged.slotStart b)).s = _ from q1, show (e.at (s.unstaged.slotStart b)).b = b from q2]
            exact wordState_team? ht0) q3.symm
      rw [show (e.at (s.unstaged.slotStart b)).s = _ from q1, show (e.at (s.unstaged.slotStart b)).b = b from q2] at q4
      obtain ⟨w1, w2, w3, w4, t', w5, w6⟩ := q4
      rw [hd] at hR ⊢
      rw [← hR]
      exact ⟨fun _ => (m.act (e.at (s.unstaged.slotStart b)) (s.unstaged.wordState h m.allTags m.sel b t)).2, rfl, .cons w1 (.nil _ _),
        by simpa using ⟨w2, w3⟩, w4, t', w5, w6.trans ((wordTeam_halt ..).trans hh)⟩
  have hc : (((R.1.slotTime b.core (lastTime R.2)).commit h m.uses b R.2).countSkid b) =
      (R.1.slotTime b.core (maxList ((s.unstaged.doers h m.allTags m.sel b t).map fun e => (val e).clock))).updTeam b.core b.team
        (commitTeam h m.uses b s.cycle ((s.unstaged.doers h m.allTags m.sel b t).map fun e => (e.g, e.l, val e))) := by
    rw [commit_eq, v1, lastTime_map, slotTime_cycle, v4]
    exact countSkid_running (updTeam_team? ((slotTime_team? ..).trans v5) fun _ h => (commitTeam_id ..).trans h)
      ((commitTeam_halt ..).trans v6)
  rw [hc] at h1
  rw [← hs]
  exact ⟨_, val, t1, _, v2, v5, by rw [hx, h1], commitTeam_performed hn val s.cycle v3 t1⟩

end Sys2Proof.Machine
end

