-- ==== Sys2Proof/Laws/State.lean ====
section
/-! SUPPORT. What each named update of the state leaves as it was, field by field. -/

namespace Sys2Proof.Machine

variable (s : State) (c id g l : Nat)

/-! ## updCore -/

@[simp] theorem State.updCore_cycle (f : Core → Core) : (s.updCore c f).cycle = s.cycle := rfl
@[simp] theorem State.updCore_stamp (f : Core → Core) : (s.updCore c f).stamp = s.stamp := rfl
@[simp] theorem State.updCore_free (f : Core → Core) : (s.updCore c f).free = s.free := rfl
@[simp] theorem State.updCore_power (f : Core → Core) : (s.updCore c f).power = s.power := rfl
@[simp] theorem State.updCore_bundle (f : Core → Core) : (s.updCore c f).bundle = s.bundle := rfl
@[simp] theorem State.updCore_agenda (f : Core → Core) : (s.updCore c f).agenda = s.agenda := rfl
@[simp] theorem State.updCore_dies (f : Core → Core) : (s.updCore c f).dies = s.dies := rfl
@[simp] theorem State.updCore_mem (f : Core → Core) : (s.updCore c f).mem = s.mem := rfl
@[simp] theorem State.updCore_gtags (f : Core → Core) : (s.updCore c f).gtags = s.gtags := rfl
@[simp] theorem State.updCore_lost (f : Core → Core) : (s.updCore c f).lost = s.lost := rfl
@[simp] theorem State.updCore_retired (f : Core → Core) : (s.updCore c f).retired = s.retired := rfl
@[simp] theorem State.updCore_exhausted (f : Core → Core) : (s.updCore c f).exhausted = s.exhausted := rfl
@[simp] theorem State.updCore_compact (f : Core → Core) : (s.updCore c f).compact = s.compact := rfl
@[simp] theorem State.updCore_stamps (f : Core → Core) : (s.updCore c f).stamps = s.stamps := rfl
@[simp] theorem State.updCore_floor (f : Core → Core) : (s.updCore c f).floor = s.floor := rfl
@[simp] theorem State.updCore_pages (f : Core → Core) : (s.updCore c f).pages = s.pages := rfl
@[simp] theorem State.updCore_rounds (f : Core → Core) : (s.updCore c f).rounds = s.rounds := rfl
@[simp] theorem State.updCore_hostLines (f : Core → Core) : (s.updCore c f).hostLines = s.hostLines := rfl
@[simp] theorem State.updCore_hostClock (f : Core → Core) : (s.updCore c f).hostClock = s.hostClock := rfl
@[simp] theorem State.updCore_stationClocks (f : Core → Core) : (s.updCore c f).stationClocks = s.stationClocks := rfl
@[simp] theorem State.updCore_schedClocks (f : Core → Core) : (s.updCore c f).schedClocks = s.schedClocks := rfl
@[simp] theorem State.updCore_ctxs (f : Core → Core) : (s.updCore c f).ctxs = s.ctxs := rfl
@[simp] theorem State.updCore_queues (f : Core → Core) : (s.updCore c f).queues = s.queues := rfl
@[simp] theorem State.updCore_classes (f : Core → Core) : (s.updCore c f).classes = s.classes := rfl
@[simp] theorem State.updCore_frozen (f : Core → Core) : (s.updCore c f).frozen = s.frozen := rfl
@[simp] theorem State.updCore_watches (f : Core → Core) : (s.updCore c f).watches = s.watches := rfl
@[simp] theorem State.updCore_sites (f : Core → Core) : (s.updCore c f).sites = s.sites := rfl
@[simp] theorem State.updCore_grids (f : Core → Core) : (s.updCore c f).grids = s.grids := rfl
@[simp] theorem State.updCore_nextGrid (f : Core → Core) : (s.updCore c f).nextGrid = s.nextGrid := rfl
@[simp] theorem State.updCore_placement (f : Core → Core) : (s.updCore c f).placement = s.placement := rfl
@[simp] theorem State.updCore_served (f : Core → Core) : (s.updCore c f).served = s.served := rfl
@[simp] theorem State.updCore_clusters (f : Core → Core) : (s.updCore c f).clusters = s.clusters := rfl
@[simp] theorem State.updCore_nextCluster (f : Core → Core) : (s.updCore c f).nextCluster = s.nextCluster := rfl
@[simp] theorem State.updCore_railSince (f : Core → Core) : (s.updCore c f).railSince = s.railSince := rfl
@[simp] theorem State.updCore_railRecover (f : Core → Core) : (s.updCore c f).railRecover = s.railRecover := rfl
@[simp] theorem State.updCore_railLog (f : Core → Core) : (s.updCore c f).railLog = s.railLog := rfl
@[simp] theorem State.updCore_powerLog (f : Core → Core) : (s.updCore c f).powerLog = s.powerLog := rfl
@[simp] theorem State.updCore_relocs (f : Core → Core) : (s.updCore c f).relocs = s.relocs := rfl
@[simp] theorem State.updCore_alObjects (f : Core → Core) : (s.updCore c f).alObjects = s.alObjects := rfl
@[simp] theorem State.updCore_alReqs (f : Core → Core) : (s.updCore c f).alReqs = s.alReqs := rfl
@[simp] theorem State.updCore_alReplies (f : Core → Core) : (s.updCore c f).alReplies = s.alReplies := rfl
@[simp] theorem State.updCore_images (f : Core → Core) : (s.updCore c f).images = s.images := rfl
@[simp] theorem State.updCore_nextOp (f : Core → Core) : (s.updCore c f).nextOp = s.nextOp := rfl
@[simp] theorem State.updCore_reserve (f : Core → Core) : (s.updCore c f).reserve = s.reserve := rfl
@[simp] theorem State.updCore_mgmt (f : Core → Core) : (s.updCore c f).mgmt = s.mgmt := rfl
@[simp] theorem State.updCore_fabric (f : Core → Core) : (s.updCore c f).fabric = s.fabric := rfl
@[simp] theorem State.updCore_hostIn (f : Core → Core) : (s.updCore c f).hostIn = s.hostIn := rfl
@[simp] theorem State.updCore_hostOut (f : Core → Core) : (s.updCore c f).hostOut = s.hostOut := rfl

/-! ## updTeam -/

@[simp] theorem State.updTeam_cycle (f : Team → Team) : (s.updTeam c id f).cycle = s.cycle := rfl
@[simp] theorem State.updTeam_stamp (f : Team → Team) : (s.updTeam c id f).stamp = s.stamp := rfl
@[simp] theorem State.updTeam_free (f : Team → Team) : (s.updTeam c id f).free = s.free := rfl
@[simp] theorem State.updTeam_power (f : Team → Team) : (s.updTeam c id f).power = s.power := rfl
@[simp] theorem State.updTeam_bundle (f : Team → Team) : (s.updTeam c id f).bundle = s.bundle := rfl
@[simp] theorem State.updTeam_agenda (f : Team → Team) : (s.updTeam c id f).agenda = s.agenda := rfl
@[simp] theorem State.updTeam_dies (f : Team → Team) : (s.updTeam c id f).dies = s.dies := rfl
@[simp] theorem State.updTeam_mem (f : Team → Team) : (s.updTeam c id f).mem = s.mem := rfl
@[simp] theorem State.updTeam_gtags (f : Team → Team) : (s.updTeam c id f).gtags = s.gtags := rfl
@[simp] theorem State.updTeam_lost (f : Team → Team) : (s.updTeam c id f).lost = s.lost := rfl
@[simp] theorem State.updTeam_retired (f : Team → Team) : (s.updTeam c id f).retired = s.retired := rfl
@[simp] theorem State.updTeam_exhausted (f : Team → Team) : (s.updTeam c id f).exhausted = s.exhausted := rfl
@[simp] theorem State.updTeam_compact (f : Team → Team) : (s.updTeam c id f).compact = s.compact := rfl
@[simp] theorem State.updTeam_stamps (f : Team → Team) : (s.updTeam c id f).stamps = s.stamps := rfl
@[simp] theorem State.updTeam_floor (f : Team → Team) : (s.updTeam c id f).floor = s.floor := rfl
@[simp] theorem State.updTeam_pages (f : Team → Team) : (s.updTeam c id f).pages = s.pages := rfl
@[simp] theorem State.updTeam_rounds (f : Team → Team) : (s.updTeam c id f).rounds = s.rounds := rfl
@[simp] theorem State.updTeam_hostLines (f : Team → Team) : (s.updTeam c id f).hostLines = s.hostLines := rfl
@[simp] theorem State.updTeam_hostClock (f : Team → Team) : (s.updTeam c id f).hostClock = s.hostClock := rfl
@[simp] theorem State.updTeam_stationClocks (f : Team → Team) : (s.updTeam c id f).stationClocks = s.stationClocks := rfl
@[simp] theorem State.updTeam_schedClocks (f : Team → Team) : (s.updTeam c id f).schedClocks = s.schedClocks := rfl
@[simp] theorem State.updTeam_ctxs (f : Team → Team) : (s.updTeam c id f).ctxs = s.ctxs := rfl
@[simp] theorem State.updTeam_queues (f : Team → Team) : (s.updTeam c id f).queues = s.queues := rfl
@[simp] theorem State.updTeam_classes (f : Team → Team) : (s.updTeam c id f).classes = s.classes := rfl
@[simp] theorem State.updTeam_frozen (f : Team → Team) : (s.updTeam c id f).frozen = s.frozen := rfl
@[simp] theorem State.updTeam_watches (f : Team → Team) : (s.updTeam c id f).watches = s.watches := rfl
@[simp] theorem State.updTeam_sites (f : Team → Team) : (s.updTeam c id f).sites = s.sites := rfl
@[simp] theorem State.updTeam_grids (f : Team → Team) : (s.updTeam c id f).grids = s.grids := rfl
@[simp] theorem State.updTeam_nextGrid (f : Team → Team) : (s.updTeam c id f).nextGrid = s.nextGrid := rfl
@[simp] theorem State.updTeam_placement (f : Team → Team) : (s.updTeam c id f).placement = s.placement := rfl
@[simp] theorem State.updTeam_served (f : Team → Team) : (s.updTeam c id f).served = s.served := rfl
@[simp] theorem State.updTeam_clusters (f : Team → Team) : (s.updTeam c id f).clusters = s.clusters := rfl
@[simp] theorem State.updTeam_nextCluster (f : Team → Team) : (s.updTeam c id f).nextCluster = s.nextCluster := rfl
@[simp] theorem State.updTeam_railSince (f : Team → Team) : (s.updTeam c id f).railSince = s.railSince := rfl
@[simp] theorem State.updTeam_railRecover (f : Team → Team) : (s.updTeam c id f).railRecover = s.railRecover := rfl
@[simp] theorem State.updTeam_railLog (f : Team → Team) : (s.updTeam c id f).railLog = s.railLog := rfl
@[simp] theorem State.updTeam_powerLog (f : Team → Team) : (s.updTeam c id f).powerLog = s.powerLog := rfl
@[simp] theorem State.updTeam_relocs (f : Team → Team) : (s.updTeam c id f).relocs = s.relocs := rfl
@[simp] theorem State.updTeam_alObjects (f : Team → Team) : (s.updTeam c id f).alObjects = s.alObjects := rfl
@[simp] theorem State.updTeam_alReqs (f : Team → Team) : (s.updTeam c id f).alReqs = s.alReqs := rfl
@[simp] theorem State.updTeam_alReplies (f : Team → Team) : (s.updTeam c id f).alReplies = s.alReplies := rfl
@[simp] theorem State.updTeam_images (f : Team → Team) : (s.updTeam c id f).images = s.images := rfl
@[simp] theorem State.updTeam_nextOp (f : Team → Team) : (s.updTeam c id f).nextOp = s.nextOp := rfl
@[simp] theorem State.updTeam_reserve (f : Team → Team) : (s.updTeam c id f).reserve = s.reserve := rfl
@[simp] theorem State.updTeam_mgmt (f : Team → Team) : (s.updTeam c id f).mgmt = s.mgmt := rfl
@[simp] theorem State.updTeam_fabric (f : Team → Team) : (s.updTeam c id f).fabric = s.fabric := rfl
@[simp] theorem State.updTeam_hostIn (f : Team → Team) : (s.updTeam c id f).hostIn = s.hostIn := rfl
@[simp] theorem State.updTeam_hostOut (f : Team → Team) : (s.updTeam c id f).hostOut = s.hostOut := rfl

/-! ## updThread -/

@[simp] theorem State.updThread_cycle (f : Thread → Thread) : (s.updThread c id g l f).cycle = s.cycle := rfl
@[simp] theorem State.updThread_stamp (f : Thread → Thread) : (s.updThread c id g l f).stamp = s.stamp := rfl
@[simp] theorem State.updThread_free (f : Thread → Thread) : (s.updThread c id g l f).free = s.free := rfl
@[simp] theorem State.updThread_power (f : Thread → Thread) : (s.updThread c id g l f).power = s.power := rfl
@[simp] theorem State.updThread_bundle (f : Thread → Thread) : (s.updThread c id g l f).bundle = s.bundle := rfl
@[simp] theorem State.updThread_agenda (f : Thread → Thread) : (s.updThread c id g l f).agenda = s.agenda := rfl
@[simp] theorem State.updThread_dies (f : Thread → Thread) : (s.updThread c id g l f).dies = s.dies := rfl
@[simp] theorem State.updThread_mem (f : Thread → Thread) : (s.updThread c id g l f).mem = s.mem := rfl
@[simp] theorem State.updThread_gtags (f : Thread → Thread) : (s.updThread c id g l f).gtags = s.gtags := rfl
@[simp] theorem State.updThread_lost (f : Thread → Thread) : (s.updThread c id g l f).lost = s.lost := rfl
@[simp] theorem State.updThread_retired (f : Thread → Thread) : (s.updThread c id g l f).retired = s.retired := rfl
@[simp] theorem State.updThread_exhausted (f : Thread → Thread) : (s.updThread c id g l f).exhausted = s.exhausted := rfl
@[simp] theorem State.updThread_compact (f : Thread → Thread) : (s.updThread c id g l f).compact = s.compact := rfl
@[simp] theorem State.updThread_stamps (f : Thread → Thread) : (s.updThread c id g l f).stamps = s.stamps := rfl
@[simp] theorem State.updThread_floor (f : Thread → Thread) : (s.updThread c id g l f).floor = s.floor := rfl
@[simp] theorem State.updThread_pages (f : Thread → Thread) : (s.updThread c id g l f).pages = s.pages := rfl
@[simp] theorem State.updThread_rounds (f : Thread → Thread) : (s.updThread c id g l f).rounds = s.rounds := rfl
@[simp] theorem State.updThread_hostLines (f : Thread → Thread) : (s.updThread c id g l f).hostLines = s.hostLines := rfl
@[simp] theorem State.updThread_hostClock (f : Thread → Thread) : (s.updThread c id g l f).hostClock = s.hostClock := rfl
@[simp] theorem State.updThread_stationClocks (f : Thread → Thread) : (s.updThread c id g l f).stationClocks = s.stationClocks := rfl
@[simp] theorem State.updThread_schedClocks (f : Thread → Thread) : (s.updThread c id g l f).schedClocks = s.schedClocks := rfl
@[simp] theorem State.updThread_ctxs (f : Thread → Thread) : (s.updThread c id g l f).ctxs = s.ctxs := rfl
@[simp] theorem State.updThread_queues (f : Thread → Thread) : (s.updThread c id g l f).queues = s.queues := rfl
@[simp] theorem State.updThread_classes (f : Thread → Thread) : (s.updThread c id g l f).classes = s.classes := rfl
@[simp] theorem State.updThread_frozen (f : Thread → Thread) : (s.updThread c id g l f).frozen = s.frozen := rfl
@[simp] theorem State.updThread_watches (f : Thread → Thread) : (s.updThread c id g l f).watches = s.watches := rfl
@[simp] theorem State.updThread_sites (f : Thread → Thread) : (s.updThread c id g l f).sites = s.sites := rfl
@[simp] theorem State.updThread_grids (f : Thread → Thread) : (s.updThread c id g l f).grids = s.grids := rfl
@[simp] theorem State.updThread_nextGrid (f : Thread → Thread) : (s.updThread c id g l f).nextGrid = s.nextGrid := rfl
@[simp] theorem State.updThread_placement (f : Thread → Thread) : (s.updThread c id g l f).placement = s.placement := rfl
@[simp] theorem State.updThread_served (f : Thread → Thread) : (s.updThread c id g l f).served = s.served := rfl
@[simp] theorem State.updThread_clusters (f : Thread → Thread) : (s.updThread c id g l f).clusters = s.clusters := rfl
@[simp] theorem State.updThread_nextCluster (f : Thread → Thread) : (s.updThread c id g l f).nextCluster = s.nextCluster := rfl
@[simp] theorem State.updThread_railSince (f : Thread → Thread) : (s.updThread c id g l f).railSince = s.railSince := rfl
@[simp] theorem State.updThread_railRecover (f : Thread → Thread) : (s.updThread c id g l f).railRecover = s.railRecover := rfl
@[simp] theorem State.updThread_railLog (f : Thread → Thread) : (s.updThread c id g l f).railLog = s.railLog := rfl
@[simp] theorem State.updThread_powerLog (f : Thread → Thread) : (s.updThread c id g l f).powerLog = s.powerLog := rfl
@[simp] theorem State.updThread_relocs (f : Thread → Thread) : (s.updThread c id g l f).relocs = s.relocs := rfl
@[simp] theorem State.updThread_alObjects (f : Thread → Thread) : (s.updThread c id g l f).alObjects = s.alObjects := rfl
@[simp] theorem State.updThread_alReqs (f : Thread → Thread) : (s.updThread c id g l f).alReqs = s.alReqs := rfl
@[simp] theorem State.updThread_alReplies (f : Thread → Thread) : (s.updThread c id g l f).alReplies = s.alReplies := rfl
@[simp] theorem State.updThread_images (f : Thread → Thread) : (s.updThread c id g l f).images = s.images := rfl
@[simp] theorem State.updThread_nextOp (f : Thread → Thread) : (s.updThread c id g l f).nextOp = s.nextOp := rfl
@[simp] theorem State.updThread_reserve (f : Thread → Thread) : (s.updThread c id g l f).reserve = s.reserve := rfl
@[simp] theorem State.updThread_mgmt (f : Thread → Thread) : (s.updThread c id g l f).mgmt = s.mgmt := rfl
@[simp] theorem State.updThread_fabric (f : Thread → Thread) : (s.updThread c id g l f).fabric = s.fabric := rfl
@[simp] theorem State.updThread_hostIn (f : Thread → Thread) : (s.updThread c id g l f).hostIn = s.hostIn := rfl
@[simp] theorem State.updThread_hostOut (f : Thread → Thread) : (s.updThread c id g l f).hostOut = s.hostOut := rfl

/-! ## updCtx -/

@[simp] theorem State.updCtx_cycle (f : Ctx → Ctx) : (s.updCtx c f).cycle = s.cycle := rfl
@[simp] theorem State.updCtx_stamp (f : Ctx → Ctx) : (s.updCtx c f).stamp = s.stamp := rfl
@[simp] theorem State.updCtx_free (f : Ctx → Ctx) : (s.updCtx c f).free = s.free := rfl
@[simp] theorem State.updCtx_power (f : Ctx → Ctx) : (s.updCtx c f).power = s.power := rfl
@[simp] theorem State.updCtx_bundle (f : Ctx → Ctx) : (s.updCtx c f).bundle = s.bundle := rfl
@[simp] theorem State.updCtx_agenda (f : Ctx → Ctx) : (s.updCtx c f).agenda = s.agenda := rfl
@[simp] theorem State.updCtx_cores (f : Ctx → Ctx) : (s.updCtx c f).cores = s.cores := rfl
@[simp] theorem State.updCtx_dies (f : Ctx → Ctx) : (s.updCtx c f).dies = s.dies := rfl
@[simp] theorem State.updCtx_mem (f : Ctx → Ctx) : (s.updCtx c f).mem = s.mem := rfl
@[simp] theorem State.updCtx_gtags (f : Ctx → Ctx) : (s.updCtx c f).gtags = s.gtags := rfl
@[simp] theorem State.updCtx_lost (f : Ctx → Ctx) : (s.updCtx c f).lost = s.lost := rfl
@[simp] theorem State.updCtx_retired (f : Ctx → Ctx) : (s.updCtx c f).retired = s.retired := rfl
@[simp] theorem State.updCtx_exhausted (f : Ctx → Ctx) : (s.updCtx c f).exhausted = s.exhausted := rfl
@[simp] theorem State.updCtx_compact (f : Ctx → Ctx) : (s.updCtx c f).compact = s.compact := rfl
@[simp] theorem State.updCtx_stamps (f : Ctx → Ctx) : (s.updCtx c f).stamps = s.stamps := rfl
@[simp] theorem State.updCtx_floor (f : Ctx → Ctx) : (s.updCtx c f).floor = s.floor := rfl
@[simp] theorem State.updCtx_pages (f : Ctx → Ctx) : (s.updCtx c f).pages = s.pages := rfl
@[simp] theorem State.updCtx_rounds (f : Ctx → Ctx) : (s.updCtx c f).rounds = s.rounds := rfl
@[simp] theorem State.updCtx_hostLines (f : Ctx → Ctx) : (s.updCtx c f).hostLines = s.hostLines := rfl
@[simp] theorem State.updCtx_hostClock (f : Ctx → Ctx) : (s.updCtx c f).hostClock = s.hostClock := rfl
@[simp] theorem State.updCtx_stationClocks (f : Ctx → Ctx) : (s.updCtx c f).stationClocks = s.stationClocks := rfl
@[simp] theorem State.updCtx_schedClocks (f : Ctx → Ctx) : (s.updCtx c f).schedClocks = s.schedClocks := rfl
@[simp] theorem State.updCtx_queues (f : Ctx → Ctx) : (s.updCtx c f).queues = s.queues := rfl
@[simp] theorem State.updCtx_classes (f : Ctx → Ctx) : (s.updCtx c f).classes = s.classes := rfl
@[simp] theorem State.updCtx_frozen (f : Ctx → Ctx) : (s.updCtx c f).frozen = s.frozen := rfl
@[simp] theorem State.updCtx_watches (f : Ctx → Ctx) : (s.updCtx c f).watches = s.watches := rfl
@[simp] theorem State.updCtx_sites (f : Ctx → Ctx) : (s.updCtx c f).sites = s.sites := rfl
@[simp] theorem State.updCtx_grids (f : Ctx → Ctx) : (s.updCtx c f).grids = s.grids := rfl
@[simp] theorem State.updCtx_nextGrid (f : Ctx → Ctx) : (s.updCtx c f).nextGrid = s.nextGrid := rfl
@[simp] theorem State.updCtx_placement (f : Ctx → Ctx) : (s.updCtx c f).placement = s.placement := rfl
@[simp] theorem State.updCtx_served (f : Ctx → Ctx) : (s.updCtx c f).served = s.served := rfl
@[simp] theorem State.updCtx_clusters (f : Ctx → Ctx) : (s.updCtx c f).clusters = s.clusters := rfl
@[simp] theorem State.updCtx_nextCluster (f : Ctx → Ctx) : (s.updCtx c f).nextCluster = s.nextCluster := rfl
@[simp] theorem State.updCtx_railSince (f : Ctx → Ctx) : (s.updCtx c f).railSince = s.railSince := rfl
@[simp] theorem State.updCtx_railRecover (f : Ctx → Ctx) : (s.updCtx c f).railRecover = s.railRecover := rfl
@[simp] theorem State.updCtx_railLog (f : Ctx → Ctx) : (s.updCtx c f).railLog = s.railLog := rfl
@[simp] theorem State.updCtx_powerLog (f : Ctx → Ctx) : (s.updCtx c f).powerLog = s.powerLog := rfl
@[simp] theorem State.updCtx_relocs (f : Ctx → Ctx) : (s.updCtx c f).relocs = s.relocs := rfl
@[simp] theorem State.updCtx_alObjects (f : Ctx → Ctx) : (s.updCtx c f).alObjects = s.alObjects := rfl
@[simp] theorem State.updCtx_alReqs (f : Ctx → Ctx) : (s.updCtx c f).alReqs = s.alReqs := rfl
@[simp] theorem State.updCtx_alReplies (f : Ctx → Ctx) : (s.updCtx c f).alReplies = s.alReplies := rfl
@[simp] theorem State.updCtx_images (f : Ctx → Ctx) : (s.updCtx c f).images = s.images := rfl
@[simp] theorem State.updCtx_nextOp (f : Ctx → Ctx) : (s.updCtx c f).nextOp = s.nextOp := rfl
@[simp] theorem State.updCtx_reserve (f : Ctx → Ctx) : (s.updCtx c f).reserve = s.reserve := rfl
@[simp] theorem State.updCtx_mgmt (f : Ctx → Ctx) : (s.updCtx c f).mgmt = s.mgmt := rfl
@[simp] theorem State.updCtx_fabric (f : Ctx → Ctx) : (s.updCtx c f).fabric = s.fabric := rfl
@[simp] theorem State.updCtx_hostIn (f : Ctx → Ctx) : (s.updCtx c f).hostIn = s.hostIn := rfl
@[simp] theorem State.updCtx_hostOut (f : Ctx → Ctx) : (s.updCtx c f).hostOut = s.hostOut := rfl

/-! ## updQueue -/

@[simp] theorem State.updQueue_cycle (f : Queue → Queue) : (s.updQueue c id f).cycle = s.cycle := rfl
@[simp] theorem State.updQueue_stamp (f : Queue → Queue) : (s.updQueue c id f).stamp = s.stamp := rfl
@[simp] theorem State.updQueue_free (f : Queue → Queue) : (s.updQueue c id f).free = s.free := rfl
@[simp] theorem State.updQueue_power (f : Queue → Queue) : (s.updQueue c id f).power = s.power := rfl
@[simp] theorem State.updQueue_bundle (f : Queue → Queue) : (s.updQueue c id f).bundle = s.bundle := rfl
@[simp] theorem State.updQueue_agenda (f : Queue → Queue) : (s.updQueue c id f).agenda = s.agenda := rfl
@[simp] theorem State.updQueue_cores (f : Queue → Queue) : (s.updQueue c id f).cores = s.cores := rfl
@[simp] theorem State.updQueue_dies (f : Queue → Queue) : (s.updQueue c id f).dies = s.dies := rfl
@[simp] theorem State.updQueue_mem (f : Queue → Queue) : (s.updQueue c id f).mem = s.mem := rfl
@[simp] theorem State.updQueue_gtags (f : Queue → Queue) : (s.updQueue c id f).gtags = s.gtags := rfl
@[simp] theorem State.updQueue_lost (f : Queue → Queue) : (s.updQueue c id f).lost = s.lost := rfl
@[simp] theorem State.updQueue_retired (f : Queue → Queue) : (s.updQueue c id f).retired = s.retired := rfl
@[simp] theorem State.updQueue_exhausted (f : Queue → Queue) : (s.updQueue c id f).exhausted = s.exhausted := rfl
@[simp] theorem State.updQueue_compact (f : Queue → Queue) : (s.updQueue c id f).compact = s.compact := rfl
@[simp] theorem State.updQueue_stamps (f : Queue → Queue) : (s.updQueue c id f).stamps = s.stamps := rfl
@[simp] theorem State.updQueue_floor (f : Queue → Queue) : (s.updQueue c id f).floor = s.floor := rfl
@[simp] theorem State.updQueue_pages (f : Queue → Queue) : (s.updQueue c id f).pages = s.pages := rfl
@[simp] theorem State.updQueue_rounds (f : Queue → Queue) : (s.updQueue c id f).rounds = s.rounds := rfl
@[simp] theorem State.updQueue_hostLines (f : Queue → Queue) : (s.updQueue c id f).hostLines = s.hostLines := rfl
@[simp] theorem State.updQueue_hostClock (f : Queue → Queue) : (s.updQueue c id f).hostClock = s.hostClock := rfl
@[simp] theorem State.updQueue_stationClocks (f : Queue → Queue) : (s.updQueue c id f).stationClocks = s.stationClocks := rfl
@[simp] theorem State.updQueue_schedClocks (f : Queue → Queue) : (s.updQueue c id f).schedClocks = s.schedClocks := rfl
@[simp] theorem State.updQueue_ctxs (f : Queue → Queue) : (s.updQueue c id f).ctxs = s.ctxs := rfl
@[simp] theorem State.updQueue_classes (f : Queue → Queue) : (s.updQueue c id f).classes = s.classes := rfl
@[simp] theorem State.updQueue_frozen (f : Queue → Queue) : (s.updQueue c id f).frozen = s.frozen := rfl
@[simp] theorem State.updQueue_watches (f : Queue → Queue) : (s.updQueue c id f).watches = s.watches := rfl
@[simp] theorem State.updQueue_sites (f : Queue → Queue) : (s.updQueue c id f).sites = s.sites := rfl
@[simp] theorem State.updQueue_grids (f : Queue → Queue) : (s.updQueue c id f).grids = s.grids := rfl
@[simp] theorem State.updQueue_nextGrid (f : Queue → Queue) : (s.updQueue c id f).nextGrid = s.nextGrid := rfl
@[simp] theorem State.updQueue_placement (f : Queue → Queue) : (s.updQueue c id f).placement = s.placement := rfl
@[simp] theorem State.updQueue_served (f : Queue → Queue) : (s.updQueue c id f).served = s.served := rfl
@[simp] theorem State.updQueue_clusters (f : Queue → Queue) : (s.updQueue c id f).clusters = s.clusters := rfl
@[simp] theorem State.updQueue_nextCluster (f : Queue → Queue) : (s.updQueue c id f).nextCluster = s.nextCluster := rfl
@[simp] theorem State.updQueue_railSince (f : Queue → Queue) : (s.updQueue c id f).railSince = s.railSince := rfl
@[simp] theorem State.updQueue_railRecover (f : Queue → Queue) : (s.updQueue c id f).railRecover = s.railRecover := rfl
@[simp] theorem State.updQueue_railLog (f : Queue → Queue) : (s.updQueue c id f).railLog = s.railLog := rfl
@[simp] theorem State.updQueue_powerLog (f : Queue → Queue) : (s.updQueue c id f).powerLog = s.powerLog := rfl
@[simp] theorem State.updQueue_relocs (f : Queue → Queue) : (s.updQueue c id f).relocs = s.relocs := rfl
@[simp] theorem State.updQueue_alObjects (f : Queue → Queue) : (s.updQueue c id f).alObjects = s.alObjects := rfl
@[simp] theorem State.updQueue_alReqs (f : Queue → Queue) : (s.updQueue c id f).alReqs = s.alReqs := rfl
@[simp] theorem State.updQueue_alReplies (f : Queue → Queue) : (s.updQueue c id f).alReplies = s.alReplies := rfl
@[simp] theorem State.updQueue_images (f : Queue → Queue) : (s.updQueue c id f).images = s.images := rfl
@[simp] theorem State.updQueue_nextOp (f : Queue → Queue) : (s.updQueue c id f).nextOp = s.nextOp := rfl
@[simp] theorem State.updQueue_reserve (f : Queue → Queue) : (s.updQueue c id f).reserve = s.reserve := rfl
@[simp] theorem State.updQueue_mgmt (f : Queue → Queue) : (s.updQueue c id f).mgmt = s.mgmt := rfl
@[simp] theorem State.updQueue_fabric (f : Queue → Queue) : (s.updQueue c id f).fabric = s.fabric := rfl
@[simp] theorem State.updQueue_hostIn (f : Queue → Queue) : (s.updQueue c id f).hostIn = s.hostIn := rfl
@[simp] theorem State.updQueue_hostOut (f : Queue → Queue) : (s.updQueue c id f).hostOut = s.hostOut := rfl

/-! ## updDie -/

@[simp] theorem State.updDie_cycle (f : Die → Die) : (s.updDie c f).cycle = s.cycle := rfl
@[simp] theorem State.updDie_stamp (f : Die → Die) : (s.updDie c f).stamp = s.stamp := rfl
@[simp] theorem State.updDie_free (f : Die → Die) : (s.updDie c f).free = s.free := rfl
@[simp] theorem State.updDie_power (f : Die → Die) : (s.updDie c f).power = s.power := rfl
@[simp] theorem State.updDie_bundle (f : Die → Die) : (s.updDie c f).bundle = s.bundle := rfl
@[simp] theorem State.updDie_agenda (f : Die → Die) : (s.updDie c f).agenda = s.agenda := rfl
@[simp] theorem State.updDie_cores (f : Die → Die) : (s.updDie c f).cores = s.cores := rfl
@[simp] theorem State.updDie_mem (f : Die → Die) : (s.updDie c f).mem = s.mem := rfl
@[simp] theorem State.updDie_gtags (f : Die → Die) : (s.updDie c f).gtags = s.gtags := rfl
@[simp] theorem State.updDie_lost (f : Die → Die) : (s.updDie c f).lost = s.lost := rfl
@[simp] theorem State.updDie_retired (f : Die → Die) : (s.updDie c f).retired = s.retired := rfl
@[simp] theorem State.updDie_exhausted (f : Die → Die) : (s.updDie c f).exhausted = s.exhausted := rfl
@[simp] theorem State.updDie_compact (f : Die → Die) : (s.updDie c f).compact = s.compact := rfl
@[simp] theorem State.updDie_stamps (f : Die → Die) : (s.updDie c f).stamps = s.stamps := rfl
@[simp] theorem State.updDie_floor (f : Die → Die) : (s.updDie c f).floor = s.floor := rfl
@[simp] theorem State.updDie_pages (f : Die → Die) : (s.updDie c f).pages = s.pages := rfl
@[simp] theorem State.updDie_rounds (f : Die → Die) : (s.updDie c f).rounds = s.rounds := rfl
@[simp] theorem State.updDie_hostLines (f : Die → Die) : (s.updDie c f).hostLines = s.hostLines := rfl
@[simp] theorem State.updDie_hostClock (f : Die → Die) : (s.updDie c f).hostClock = s.hostClock := rfl
@[simp] theorem State.updDie_stationClocks (f : Die → Die) : (s.updDie c f).stationClocks = s.stationClocks := rfl
@[simp] theorem State.updDie_schedClocks (f : Die → Die) : (s.updDie c f).schedClocks = s.schedClocks := rfl
@[simp] theorem State.updDie_ctxs (f : Die → Die) : (s.updDie c f).ctxs = s.ctxs := rfl
@[simp] theorem State.updDie_queues (f : Die → Die) : (s.updDie c f).queues = s.queues := rfl
@[simp] theorem State.updDie_classes (f : Die → Die) : (s.updDie c f).classes = s.classes := rfl
@[simp] theorem State.updDie_frozen (f : Die → Die) : (s.updDie c f).frozen = s.frozen := rfl
@[simp] theorem State.updDie_watches (f : Die → Die) : (s.updDie c f).watches = s.watches := rfl
@[simp] theorem State.updDie_sites (f : Die → Die) : (s.updDie c f).sites = s.sites := rfl
@[simp] theorem State.updDie_grids (f : Die → Die) : (s.updDie c f).grids = s.grids := rfl
@[simp] theorem State.updDie_nextGrid (f : Die → Die) : (s.updDie c f).nextGrid = s.nextGrid := rfl
@[simp] theorem State.updDie_placement (f : Die → Die) : (s.updDie c f).placement = s.placement := rfl
@[simp] theorem State.updDie_served (f : Die → Die) : (s.updDie c f).served = s.served := rfl
@[simp] theorem State.updDie_clusters (f : Die → Die) : (s.updDie c f).clusters = s.clusters := rfl
@[simp] theorem State.updDie_nextCluster (f : Die → Die) : (s.updDie c f).nextCluster = s.nextCluster := rfl
@[simp] theorem State.updDie_railSince (f : Die → Die) : (s.updDie c f).railSince = s.railSince := rfl
@[simp] theorem State.updDie_railRecover (f : Die → Die) : (s.updDie c f).railRecover = s.railRecover := rfl
@[simp] theorem State.updDie_railLog (f : Die → Die) : (s.updDie c f).railLog = s.railLog := rfl
@[simp] theorem State.updDie_powerLog (f : Die → Die) : (s.updDie c f).powerLog = s.powerLog := rfl
@[simp] theorem State.updDie_relocs (f : Die → Die) : (s.updDie c f).relocs = s.relocs := rfl
@[simp] theorem State.updDie_alObjects (f : Die → Die) : (s.updDie c f).alObjects = s.alObjects := rfl
@[simp] theorem State.updDie_alReqs (f : Die → Die) : (s.updDie c f).alReqs = s.alReqs := rfl
@[simp] theorem State.updDie_alReplies (f : Die → Die) : (s.updDie c f).alReplies = s.alReplies := rfl
@[simp] theorem State.updDie_images (f : Die → Die) : (s.updDie c f).images = s.images := rfl
@[simp] theorem State.updDie_nextOp (f : Die → Die) : (s.updDie c f).nextOp = s.nextOp := rfl
@[simp] theorem State.updDie_reserve (f : Die → Die) : (s.updDie c f).reserve = s.reserve := rfl
@[simp] theorem State.updDie_mgmt (f : Die → Die) : (s.updDie c f).mgmt = s.mgmt := rfl
@[simp] theorem State.updDie_fabric (f : Die → Die) : (s.updDie c f).fabric = s.fabric := rfl
@[simp] theorem State.updDie_hostIn (f : Die → Die) : (s.updDie c f).hostIn = s.hostIn := rfl
@[simp] theorem State.updDie_hostOut (f : Die → Die) : (s.updDie c f).hostOut = s.hostOut := rfl

/-! ## updFabric -/

@[simp] theorem State.updFabric_cycle (f : Fabric → Fabric) : (s.updFabric f).cycle = s.cycle := rfl
@[simp] theorem State.updFabric_stamp (f : Fabric → Fabric) : (s.updFabric f).stamp = s.stamp := rfl
@[simp] theorem State.updFabric_free (f : Fabric → Fabric) : (s.updFabric f).free = s.free := rfl
@[simp] theorem State.updFabric_power (f : Fabric → Fabric) : (s.updFabric f).power = s.power := rfl
@[simp] theorem State.updFabric_bundle (f : Fabric → Fabric) : (s.updFabric f).bundle = s.bundle := rfl
@[simp] theorem State.updFabric_agenda (f : Fabric → Fabric) : (s.updFabric f).agenda = s.agenda := rfl
@[simp] theorem State.updFabric_cores (f : Fabric → Fabric) : (s.updFabric f).cores = s.cores := rfl
@[simp] theorem State.updFabric_dies (f : Fabric → Fabric) : (s.updFabric f).dies = s.dies := rfl
@[simp] theorem State.updFabric_mem (f : Fabric → Fabric) : (s.updFabric f).mem = s.mem := rfl
@[simp] theorem State.updFabric_gtags (f : Fabric → Fabric) : (s.updFabric f).gtags = s.gtags := rfl
@[simp] theorem State.updFabric_lost (f : Fabric → Fabric) : (s.updFabric f).lost = s.lost := rfl
@[simp] theorem State.updFabric_retired (f : Fabric → Fabric) : (s.updFabric f).retired = s.retired := rfl
@[simp] theorem State.updFabric_exhausted (f : Fabric → Fabric) : (s.updFabric f).exhausted = s.exhausted := rfl
@[simp] theorem State.updFabric_compact (f : Fabric → Fabric) : (s.updFabric f).compact = s.compact := rfl
@[simp] theorem State.updFabric_stamps (f : Fabric → Fabric) : (s.updFabric f).stamps = s.stamps := rfl
@[simp] theorem State.updFabric_floor (f : Fabric → Fabric) : (s.updFabric f).floor = s.floor := rfl
@[simp] theorem State.updFabric_pages (f : Fabric → Fabric) : (s.updFabric f).pages = s.pages := rfl
@[simp] theorem State.updFabric_rounds (f : Fabric → Fabric) : (s.updFabric f).rounds = s.rounds := rfl
@[simp] theorem State.updFabric_hostLines (f : Fabric → Fabric) : (s.updFabric f).hostLines = s.hostLines := rfl
@[simp] theorem State.updFabric_hostClock (f : Fabric → Fabric) : (s.updFabric f).hostClock = s.hostClock := rfl
@[simp] theorem State.updFabric_stationClocks (f : Fabric → Fabric) : (s.updFabric f).stationClocks = s.stationClocks := rfl
@[simp] theorem State.updFabric_schedClocks (f : Fabric → Fabric) : (s.updFabric f).schedClocks = s.schedClocks := rfl
@[simp] theorem State.updFabric_ctxs (f : Fabric → Fabric) : (s.updFabric f).ctxs = s.ctxs := rfl
@[simp] theorem State.updFabric_queues (f : Fabric → Fabric) : (s.updFabric f).queues = s.queues := rfl
@[simp] theorem State.updFabric_classes (f : Fabric → Fabric) : (s.updFabric f).classes = s.classes := rfl
@[simp] theorem State.updFabric_frozen (f : Fabric → Fabric) : (s.updFabric f).frozen = s.frozen := rfl
@[simp] theorem State.updFabric_watches (f : Fabric → Fabric) : (s.updFabric f).watches = s.watches := rfl
@[simp] theorem State.updFabric_sites (f : Fabric → Fabric) : (s.updFabric f).sites = s.sites := rfl
@[simp] theorem State.updFabric_grids (f : Fabric → Fabric) : (s.updFabric f).grids = s.grids := rfl
@[simp] theorem State.updFabric_nextGrid (f : Fabric → Fabric) : (s.updFabric f).nextGrid = s.nextGrid := rfl
@[simp] theorem State.updFabric_placement (f : Fabric → Fabric) : (s.updFabric f).placement = s.placement := rfl
@[simp] theorem State.updFabric_served (f : Fabric → Fabric) : (s.updFabric f).served = s.served := rfl
@[simp] theorem State.updFabric_clusters (f : Fabric → Fabric) : (s.updFabric f).clusters = s.clusters := rfl
@[simp] theorem State.updFabric_nextCluster (f : Fabric → Fabric) : (s.updFabric f).nextCluster = s.nextCluster := rfl
@[simp] theorem State.updFabric_railSince (f : Fabric → Fabric) : (s.updFabric f).railSince = s.railSince := rfl
@[simp] theorem State.updFabric_railRecover (f : Fabric → Fabric) : (s.updFabric f).railRecover = s.railRecover := rfl
@[simp] theorem State.updFabric_railLog (f : Fabric → Fabric) : (s.updFabric f).railLog = s.railLog := rfl
@[simp] theorem State.updFabric_powerLog (f : Fabric → Fabric) : (s.updFabric f).powerLog = s.powerLog := rfl
@[simp] theorem State.updFabric_relocs (f : Fabric → Fabric) : (s.updFabric f).relocs = s.relocs := rfl
@[simp] theorem State.updFabric_alObjects (f : Fabric → Fabric) : (s.updFabric f).alObjects = s.alObjects := rfl
@[simp] theorem State.updFabric_alReqs (f : Fabric → Fabric) : (s.updFabric f).alReqs = s.alReqs := rfl
@[simp] theorem State.updFabric_alReplies (f : Fabric → Fabric) : (s.updFabric f).alReplies = s.alReplies := rfl
@[simp] theorem State.updFabric_images (f : Fabric → Fabric) : (s.updFabric f).images = s.images := rfl
@[simp] theorem State.updFabric_nextOp (f : Fabric → Fabric) : (s.updFabric f).nextOp = s.nextOp := rfl
@[simp] theorem State.updFabric_reserve (f : Fabric → Fabric) : (s.updFabric f).reserve = s.reserve := rfl
@[simp] theorem State.updFabric_mgmt (f : Fabric → Fabric) : (s.updFabric f).mgmt = s.mgmt := rfl
@[simp] theorem State.updFabric_hostIn (f : Fabric → Fabric) : (s.updFabric f).hostIn = s.hostIn := rfl
@[simp] theorem State.updFabric_hostOut (f : Fabric → Fabric) : (s.updFabric f).hostOut = s.hostOut := rfl

/-! ## updMgmt -/

@[simp] theorem State.updMgmt_cycle (f : Mgmt → Mgmt) : (s.updMgmt f).cycle = s.cycle := rfl
@[simp] theorem State.updMgmt_stamp (f : Mgmt → Mgmt) : (s.updMgmt f).stamp = s.stamp := rfl
@[simp] theorem State.updMgmt_free (f : Mgmt → Mgmt) : (s.updMgmt f).free = s.free := rfl
@[simp] theorem State.updMgmt_power (f : Mgmt → Mgmt) : (s.updMgmt f).power = s.power := rfl
@[simp] theorem State.updMgmt_bundle (f : Mgmt → Mgmt) : (s.updMgmt f).bundle = s.bundle := rfl
@[simp] theorem State.updMgmt_agenda (f : Mgmt → Mgmt) : (s.updMgmt f).agenda = s.agenda := rfl
@[simp] theorem State.updMgmt_cores (f : Mgmt → Mgmt) : (s.updMgmt f).cores = s.cores := rfl
@[simp] theorem State.updMgmt_dies (f : Mgmt → Mgmt) : (s.updMgmt f).dies = s.dies := rfl
@[simp] theorem State.updMgmt_mem (f : Mgmt → Mgmt) : (s.updMgmt f).mem = s.mem := rfl
@[simp] theorem State.updMgmt_gtags (f : Mgmt → Mgmt) : (s.updMgmt f).gtags = s.gtags := rfl
@[simp] theorem State.updMgmt_lost (f : Mgmt → Mgmt) : (s.updMgmt f).lost = s.lost := rfl
@[simp] theorem State.updMgmt_retired (f : Mgmt → Mgmt) : (s.updMgmt f).retired = s.retired := rfl
@[simp] theorem State.updMgmt_exhausted (f : Mgmt → Mgmt) : (s.updMgmt f).exhausted = s.exhausted := rfl
@[simp] theorem State.updMgmt_compact (f : Mgmt → Mgmt) : (s.updMgmt f).compact = s.compact := rfl
@[simp] theorem State.updMgmt_stamps (f : Mgmt → Mgmt) : (s.updMgmt f).stamps = s.stamps := rfl
@[simp] theorem State.updMgmt_floor (f : Mgmt → Mgmt) : (s.updMgmt f).floor = s.floor := rfl
@[simp] theorem State.updMgmt_pages (f : Mgmt → Mgmt) : (s.updMgmt f).pages = s.pages := rfl
@[simp] theorem State.updMgmt_rounds (f : Mgmt → Mgmt) : (s.updMgmt f).rounds = s.rounds := rfl
@[simp] theorem State.updMgmt_hostLines (f : Mgmt → Mgmt) : (s.updMgmt f).hostLines = s.hostLines := rfl
@[simp] theorem State.updMgmt_hostClock (f : Mgmt → Mgmt) : (s.updMgmt f).hostClock = s.hostClock := rfl
@[simp] theorem State.updMgmt_stationClocks (f : Mgmt → Mgmt) : (s.updMgmt f).stationClocks = s.stationClocks := rfl
@[simp] theorem State.updMgmt_schedClocks (f : Mgmt → Mgmt) : (s.updMgmt f).schedClocks = s.schedClocks := rfl
@[simp] theorem State.updMgmt_ctxs (f : Mgmt → Mgmt) : (s.updMgmt f).ctxs = s.ctxs := rfl
@[simp] theorem State.updMgmt_queues (f : Mgmt → Mgmt) : (s.updMgmt f).queues = s.queues := rfl
@[simp] theorem State.updMgmt_classes (f : Mgmt → Mgmt) : (s.updMgmt f).classes = s.classes := rfl
@[simp] theorem State.updMgmt_frozen (f : Mgmt → Mgmt) : (s.updMgmt f).frozen = s.frozen := rfl
@[simp] theorem State.updMgmt_watches (f : Mgmt → Mgmt) : (s.updMgmt f).watches = s.watches := rfl
@[simp] theorem State.updMgmt_sites (f : Mgmt → Mgmt) : (s.updMgmt f).sites = s.sites := rfl
@[simp] theorem State.updMgmt_grids (f : Mgmt → Mgmt) : (s.updMgmt f).grids = s.grids := rfl
@[simp] theorem State.updMgmt_nextGrid (f : Mgmt → Mgmt) : (s.updMgmt f).nextGrid = s.nextGrid := rfl
@[simp] theorem State.updMgmt_placement (f : Mgmt → Mgmt) : (s.updMgmt f).placement = s.placement := rfl
@[simp] theorem State.updMgmt_served (f : Mgmt → Mgmt) : (s.updMgmt f).served = s.served := rfl
@[simp] theorem State.updMgmt_clusters (f : Mgmt → Mgmt) : (s.updMgmt f).clusters = s.clusters := rfl
@[simp] theorem State.updMgmt_nextCluster (f : Mgmt → Mgmt) : (s.updMgmt f).nextCluster = s.nextCluster := rfl
@[simp] theorem State.updMgmt_railSince (f : Mgmt → Mgmt) : (s.updMgmt f).railSince = s.railSince := rfl
@[simp] theorem State.updMgmt_railRecover (f : Mgmt → Mgmt) : (s.updMgmt f).railRecover = s.railRecover := rfl
@[simp] theorem State.updMgmt_railLog (f : Mgmt → Mgmt) : (s.updMgmt f).railLog = s.railLog := rfl
@[simp] theorem State.updMgmt_powerLog (f : Mgmt → Mgmt) : (s.updMgmt f).powerLog = s.powerLog := rfl
@[simp] theorem State.updMgmt_relocs (f : Mgmt → Mgmt) : (s.updMgmt f).relocs = s.relocs := rfl
@[simp] theorem State.updMgmt_alObjects (f : Mgmt → Mgmt) : (s.updMgmt f).alObjects = s.alObjects := rfl
@[simp] theorem State.updMgmt_alReqs (f : Mgmt → Mgmt) : (s.updMgmt f).alReqs = s.alReqs := rfl
@[simp] theorem State.updMgmt_alReplies (f : Mgmt → Mgmt) : (s.updMgmt f).alReplies = s.alReplies := rfl
@[simp] theorem State.updMgmt_images (f : Mgmt → Mgmt) : (s.updMgmt f).images = s.images := rfl
@[simp] theorem State.updMgmt_nextOp (f : Mgmt → Mgmt) : (s.updMgmt f).nextOp = s.nextOp := rfl
@[simp] theorem State.updMgmt_reserve (f : Mgmt → Mgmt) : (s.updMgmt f).reserve = s.reserve := rfl
@[simp] theorem State.updMgmt_fabric (f : Mgmt → Mgmt) : (s.updMgmt f).fabric = s.fabric := rfl
@[simp] theorem State.updMgmt_hostIn (f : Mgmt → Mgmt) : (s.updMgmt f).hostIn = s.hostIn := rfl
@[simp] theorem State.updMgmt_hostOut (f : Mgmt → Mgmt) : (s.updMgmt f).hostOut = s.hostOut := rfl

/-! ## writeBytes -/

@[simp] theorem State.writeBytes_cycle (d : List Byte) : (s.writeBytes c d).cycle = s.cycle := rfl
@[simp] theorem State.writeBytes_stamp (d : List Byte) : (s.writeBytes c d).stamp = s.stamp := rfl
@[simp] theorem State.writeBytes_free (d : List Byte) : (s.writeBytes c d).free = s.free := rfl
@[simp] theorem State.writeBytes_power (d : List Byte) : (s.writeBytes c d).power = s.power := rfl
@[simp] theorem State.writeBytes_bundle (d : List Byte) : (s.writeBytes c d).bundle = s.bundle := rfl
@[simp] theorem State.writeBytes_agenda (d : List Byte) : (s.writeBytes c d).agenda = s.agenda := rfl
@[simp] theorem State.writeBytes_cores (d : List Byte) : (s.writeBytes c d).cores = s.cores := rfl
@[simp] theorem State.writeBytes_dies (d : List Byte) : (s.writeBytes c d).dies = s.dies := rfl
@[simp] theorem State.writeBytes_gtags (d : List Byte) : (s.writeBytes c d).gtags = s.gtags := rfl
@[simp] theorem State.writeBytes_retired (d : List Byte) : (s.writeBytes c d).retired = s.retired := rfl
@[simp] theorem State.writeBytes_exhausted (d : List Byte) : (s.writeBytes c d).exhausted = s.exhausted := rfl
@[simp] theorem State.writeBytes_stamps (d : List Byte) : (s.writeBytes c d).stamps = s.stamps := rfl
@[simp] theorem State.writeBytes_floor (d : List Byte) : (s.writeBytes c d).floor = s.floor := rfl
@[simp] theorem State.writeBytes_pages (d : List Byte) : (s.writeBytes c d).pages = s.pages := rfl
@[simp] theorem State.writeBytes_rounds (d : List Byte) : (s.writeBytes c d).rounds = s.rounds := rfl
@[simp] theorem State.writeBytes_hostLines (d : List Byte) : (s.writeBytes c d).hostLines = s.hostLines := rfl
@[simp] theorem State.writeBytes_hostClock (d : List Byte) : (s.writeBytes c d).hostClock = s.hostClock := rfl
@[simp] theorem State.writeBytes_stationClocks (d : List Byte) : (s.writeBytes c d).stationClocks = s.stationClocks := rfl
@[simp] theorem State.writeBytes_schedClocks (d : List Byte) : (s.writeBytes c d).schedClocks = s.schedClocks := rfl
@[simp] theorem State.writeBytes_ctxs (d : List Byte) : (s.writeBytes c d).ctxs = s.ctxs := rfl
@[simp] theorem State.writeBytes_queues (d : List Byte) : (s.writeBytes c d).queues = s.queues := rfl
@[simp] theorem State.writeBytes_classes (d : List Byte) : (s.writeBytes c d).classes = s.classes := rfl
@[simp] theorem State.writeBytes_frozen (d : List Byte) : (s.writeBytes c d).frozen = s.frozen := rfl
@[simp] theorem State.writeBytes_watches (d : List Byte) : (s.writeBytes c d).watches = s.watches := rfl
@[simp] theorem State.writeBytes_sites (d : List Byte) : (s.writeBytes c d).sites = s.sites := rfl
@[simp] theorem State.writeBytes_grids (d : List Byte) : (s.writeBytes c d).grids = s.grids := rfl
@[simp] theorem State.writeBytes_nextGrid (d : List Byte) : (s.writeBytes c d).nextGrid = s.nextGrid := rfl
@[simp] theorem State.writeBytes_placement (d : List Byte) : (s.writeBytes c d).placement = s.placement := rfl
@[simp] theorem State.writeBytes_served (d : List Byte) : (s.writeBytes c d).served = s.served := rfl
@[simp] theorem State.writeBytes_clusters (d : List Byte) : (s.writeBytes c d).clusters = s.clusters := rfl
@[simp] theorem State.writeBytes_nextCluster (d : List Byte) : (s.writeBytes c d).nextCluster = s.nextCluster := rfl
@[simp] theorem State.writeBytes_railSince (d : List Byte) : (s.writeBytes c d).railSince = s.railSince := rfl
@[simp] theorem State.writeBytes_railRecover (d : List Byte) : (s.writeBytes c d).railRecover = s.railRecover := rfl
@[simp] theorem State.writeBytes_railLog (d : List Byte) : (s.writeBytes c d).railLog = s.railLog := rfl
@[simp] theorem State.writeBytes_powerLog (d : List Byte) : (s.writeBytes c d).powerLog = s.powerLog := rfl
@[simp] theorem State.writeBytes_relocs (d : List Byte) : (s.writeBytes c d).relocs = s.relocs := rfl
@[simp] theorem State.writeBytes_alObjects (d : List Byte) : (s.writeBytes c d).alObjects = s.alObjects := rfl
@[simp] theorem State.writeBytes_alReqs (d : List Byte) : (s.writeBytes c d).alReqs = s.alReqs := rfl
@[simp] theorem State.writeBytes_alReplies (d : List Byte) : (s.writeBytes c d).alReplies = s.alReplies := rfl
@[simp] theorem State.writeBytes_images (d : List Byte) : (s.writeBytes c d).images = s.images := rfl
@[simp] theorem State.writeBytes_nextOp (d : List Byte) : (s.writeBytes c d).nextOp = s.nextOp := rfl
@[simp] theorem State.writeBytes_reserve (d : List Byte) : (s.writeBytes c d).reserve = s.reserve := rfl
@[simp] theorem State.writeBytes_mgmt (d : List Byte) : (s.writeBytes c d).mgmt = s.mgmt := rfl
@[simp] theorem State.writeBytes_fabric (d : List Byte) : (s.writeBytes c d).fabric = s.fabric := rfl
@[simp] theorem State.writeBytes_hostIn (d : List Byte) : (s.writeBytes c d).hostIn = s.hostIn := rfl
@[simp] theorem State.writeBytes_hostOut (d : List Byte) : (s.writeBytes c d).hostOut = s.hostOut := rfl

/-! ## setGtag -/

@[simp] theorem State.setGtag_cycle (t : BitVec 4) : (s.setGtag c t).cycle = s.cycle := rfl
@[simp] theorem State.setGtag_stamp (t : BitVec 4) : (s.setGtag c t).stamp = s.stamp := rfl
@[simp] theorem State.setGtag_free (t : BitVec 4) : (s.setGtag c t).free = s.free := rfl
@[simp] theorem State.setGtag_power (t : BitVec 4) : (s.setGtag c t).power = s.power := rfl
@[simp] theorem State.setGtag_bundle (t : BitVec 4) : (s.setGtag c t).bundle = s.bundle := rfl
@[simp] theorem State.setGtag_agenda (t : BitVec 4) : (s.setGtag c t).agenda = s.agenda := rfl
@[simp] theorem State.setGtag_cores (t : BitVec 4) : (s.setGtag c t).cores = s.cores := rfl
@[simp] theorem State.setGtag_dies (t : BitVec 4) : (s.setGtag c t).dies = s.dies := rfl
@[simp] theorem State.setGtag_mem (t : BitVec 4) : (s.setGtag c t).mem = s.mem := rfl
@[simp] theorem State.setGtag_lost (t : BitVec 4) : (s.setGtag c t).lost = s.lost := rfl
@[simp] theorem State.setGtag_retired (t : BitVec 4) : (s.setGtag c t).retired = s.retired := rfl
@[simp] theorem State.setGtag_exhausted (t : BitVec 4) : (s.setGtag c t).exhausted = s.exhausted := rfl
@[simp] theorem State.setGtag_stamps (t : BitVec 4) : (s.setGtag c t).stamps = s.stamps := rfl
@[simp] theorem State.setGtag_floor (t : BitVec 4) : (s.setGtag c t).floor = s.floor := rfl
@[simp] theorem State.setGtag_pages (t : BitVec 4) : (s.setGtag c t).pages = s.pages := rfl
@[simp] theorem State.setGtag_rounds (t : BitVec 4) : (s.setGtag c t).rounds = s.rounds := rfl
@[simp] theorem State.setGtag_hostLines (t : BitVec 4) : (s.setGtag c t).hostLines = s.hostLines := rfl
@[simp] theorem State.setGtag_hostClock (t : BitVec 4) : (s.setGtag c t).hostClock = s.hostClock := rfl
@[simp] theorem State.setGtag_stationClocks (t : BitVec 4) : (s.setGtag c t).stationClocks = s.stationClocks := rfl
@[simp] theorem State.setGtag_schedClocks (t : BitVec 4) : (s.setGtag c t).schedClocks = s.schedClocks := rfl
@[simp] theorem State.setGtag_ctxs (t : BitVec 4) : (s.setGtag c t).ctxs = s.ctxs := rfl
@[simp] theorem State.setGtag_queues (t : BitVec 4) : (s.setGtag c t).queues = s.queues := rfl
@[simp] theorem State.setGtag_classes (t : BitVec 4) : (s.setGtag c t).classes = s.classes := rfl
@[simp] theorem State.setGtag_frozen (t : BitVec 4) : (s.setGtag c t).frozen = s.frozen := rfl
@[simp] theorem State.setGtag_watches (t : BitVec 4) : (s.setGtag c t).watches = s.watches := rfl
@[simp] theorem State.setGtag_sites (t : BitVec 4) : (s.setGtag c t).sites = s.sites := rfl
@[simp] theorem State.setGtag_grids (t : BitVec 4) : (s.setGtag c t).grids = s.grids := rfl
@[simp] theorem State.setGtag_nextGrid (t : BitVec 4) : (s.setGtag c t).nextGrid = s.nextGrid := rfl
@[simp] theorem State.setGtag_placement (t : BitVec 4) : (s.setGtag c t).placement = s.placement := rfl
@[simp] theorem State.setGtag_served (t : BitVec 4) : (s.setGtag c t).served = s.served := rfl
@[simp] theorem State.setGtag_clusters (t : BitVec 4) : (s.setGtag c t).clusters = s.clusters := rfl
@[simp] theorem State.setGtag_nextCluster (t : BitVec 4) : (s.setGtag c t).nextCluster = s.nextCluster := rfl
@[simp] theorem State.setGtag_railSince (t : BitVec 4) : (s.setGtag c t).railSince = s.railSince := rfl
@[simp] theorem State.setGtag_railRecover (t : BitVec 4) : (s.setGtag c t).railRecover = s.railRecover := rfl
@[simp] theorem State.setGtag_railLog (t : BitVec 4) : (s.setGtag c t).railLog = s.railLog := rfl
@[simp] theorem State.setGtag_powerLog (t : BitVec 4) : (s.setGtag c t).powerLog = s.powerLog := rfl
@[simp] theorem State.setGtag_relocs (t : BitVec 4) : (s.setGtag c t).relocs = s.relocs := rfl
@[simp] theorem State.setGtag_alObjects (t : BitVec 4) : (s.setGtag c t).alObjects = s.alObjects := rfl
@[simp] theorem State.setGtag_alReqs (t : BitVec 4) : (s.setGtag c t).alReqs = s.alReqs := rfl
@[simp] theorem State.setGtag_alReplies (t : BitVec 4) : (s.setGtag c t).alReplies = s.alReplies := rfl
@[simp] theorem State.setGtag_images (t : BitVec 4) : (s.setGtag c t).images = s.images := rfl
@[simp] theorem State.setGtag_nextOp (t : BitVec 4) : (s.setGtag c t).nextOp = s.nextOp := rfl
@[simp] theorem State.setGtag_reserve (t : BitVec 4) : (s.setGtag c t).reserve = s.reserve := rfl
@[simp] theorem State.setGtag_mgmt (t : BitVec 4) : (s.setGtag c t).mgmt = s.mgmt := rfl
@[simp] theorem State.setGtag_fabric (t : BitVec 4) : (s.setGtag c t).fabric = s.fabric := rfl
@[simp] theorem State.setGtag_hostIn (t : BitVec 4) : (s.setGtag c t).hostIn = s.hostIn := rfl
@[simp] theorem State.setGtag_hostOut (t : BitVec 4) : (s.setGtag c t).hostOut = s.hostOut := rfl

/-! ## setStamp -/

@[simp] theorem State.setStamp_cycle (st : Stamp) : (s.setStamp c id st).cycle = s.cycle := rfl
@[simp] theorem State.setStamp_stamp (st : Stamp) : (s.setStamp c id st).stamp = s.stamp := rfl
@[simp] theorem State.setStamp_free (st : Stamp) : (s.setStamp c id st).free = s.free := rfl
@[simp] theorem State.setStamp_power (st : Stamp) : (s.setStamp c id st).power = s.power := rfl
@[simp] theorem State.setStamp_bundle (st : Stamp) : (s.setStamp c id st).bundle = s.bundle := rfl
@[simp] theorem State.setStamp_agenda (st : Stamp) : (s.setStamp c id st).agenda = s.agenda := rfl
@[simp] theorem State.setStamp_cores (st : Stamp) : (s.setStamp c id st).cores = s.cores := rfl
@[simp] theorem State.setStamp_dies (st : Stamp) : (s.setStamp c id st).dies = s.dies := rfl
@[simp] theorem State.setStamp_mem (st : Stamp) : (s.setStamp c id st).mem = s.mem := rfl
@[simp] theorem State.setStamp_gtags (st : Stamp) : (s.setStamp c id st).gtags = s.gtags := rfl
@[simp] theorem State.setStamp_lost (st : Stamp) : (s.setStamp c id st).lost = s.lost := rfl
@[simp] theorem State.setStamp_retired (st : Stamp) : (s.setStamp c id st).retired = s.retired := rfl
@[simp] theorem State.setStamp_exhausted (st : Stamp) : (s.setStamp c id st).exhausted = s.exhausted := rfl
@[simp] theorem State.setStamp_compact (st : Stamp) : (s.setStamp c id st).compact = s.compact := rfl
@[simp] theorem State.setStamp_floor (st : Stamp) : (s.setStamp c id st).floor = s.floor := rfl
@[simp] theorem State.setStamp_pages (st : Stamp) : (s.setStamp c id st).pages = s.pages := rfl
@[simp] theorem State.setStamp_rounds (st : Stamp) : (s.setStamp c id st).rounds = s.rounds := rfl
@[simp] theorem State.setStamp_hostLines (st : Stamp) : (s.setStamp c id st).hostLines = s.hostLines := rfl
@[simp] theorem State.setStamp_hostClock (st : Stamp) : (s.setStamp c id st).hostClock = s.hostClock := rfl
@[simp] theorem State.setStamp_stationClocks (st : Stamp) : (s.setStamp c id st).stationClocks = s.stationClocks := rfl
@[simp] theorem State.setStamp_schedClocks (st : Stamp) : (s.setStamp c id st).schedClocks = s.schedClocks := rfl
@[simp] theorem State.setStamp_ctxs (st : Stamp) : (s.setStamp c id st).ctxs = s.ctxs := rfl
@[simp] theorem State.setStamp_queues (st : Stamp) : (s.setStamp c id st).queues = s.queues := rfl
@[simp] theorem State.setStamp_classes (st : Stamp) : (s.setStamp c id st).classes = s.classes := rfl
@[simp] theorem State.setStamp_frozen (st : Stamp) : (s.setStamp c id st).frozen = s.frozen := rfl
@[simp] theorem State.setStamp_watches (st : Stamp) : (s.setStamp c id st).watches = s.watches := rfl
@[simp] theorem State.setStamp_sites (st : Stamp) : (s.setStamp c id st).sites = s.sites := rfl
@[simp] theorem State.setStamp_grids (st : Stamp) : (s.setStamp c id st).grids = s.grids := rfl
@[simp] theorem State.setStamp_nextGrid (st : Stamp) : (s.setStamp c id st).nextGrid = s.nextGrid := rfl
@[simp] theorem State.setStamp_placement (st : Stamp) : (s.setStamp c id st).placement = s.placement := rfl
@[simp] theorem State.setStamp_served (st : Stamp) : (s.setStamp c id st).served = s.served := rfl
@[simp] theorem State.setStamp_clusters (st : Stamp) : (s.setStamp c id st).clusters = s.clusters := rfl
@[simp] theorem State.setStamp_nextCluster (st : Stamp) : (s.setStamp c id st).nextCluster = s.nextCluster := rfl
@[simp] theorem State.setStamp_railSince (st : Stamp) : (s.setStamp c id st).railSince = s.railSince := rfl
@[simp] theorem State.setStamp_railRecover (st : Stamp) : (s.setStamp c id st).railRecover = s.railRecover := rfl
@[simp] theorem State.setStamp_railLog (st : Stamp) : (s.setStamp c id st).railLog = s.railLog := rfl
@[simp] theorem State.setStamp_powerLog (st : Stamp) : (s.setStamp c id st).powerLog = s.powerLog := rfl
@[simp] theorem State.setStamp_relocs (st : Stamp) : (s.setStamp c id st).relocs = s.relocs := rfl
@[simp] theorem State.setStamp_alObjects (st : Stamp) : (s.setStamp c id st).alObjects = s.alObjects := rfl
@[simp] theorem State.setStamp_alReqs (st : Stamp) : (s.setStamp c id st).alReqs = s.alReqs := rfl
@[simp] theorem State.setStamp_alReplies (st : Stamp) : (s.setStamp c id st).alReplies = s.alReplies := rfl
@[simp] theorem State.setStamp_images (st : Stamp) : (s.setStamp c id st).images = s.images := rfl
@[simp] theorem State.setStamp_nextOp (st : Stamp) : (s.setStamp c id st).nextOp = s.nextOp := rfl
@[simp] theorem State.setStamp_reserve (st : Stamp) : (s.setStamp c id st).reserve = s.reserve := rfl
@[simp] theorem State.setStamp_mgmt (st : Stamp) : (s.setStamp c id st).mgmt = s.mgmt := rfl
@[simp] theorem State.setStamp_fabric (st : Stamp) : (s.setStamp c id st).fabric = s.fabric := rfl
@[simp] theorem State.setStamp_hostIn (st : Stamp) : (s.setStamp c id st).hostIn = s.hostIn := rfl
@[simp] theorem State.setStamp_hostOut (st : Stamp) : (s.setStamp c id st).hostOut = s.hostOut := rfl

/-! ## fresh -/

@[simp] theorem State.fresh_cycle : s.fresh.cycle = s.cycle := rfl
@[simp] theorem State.fresh_stamp : s.fresh.stamp = s.stamp := rfl
@[simp] theorem State.fresh_power : s.fresh.power = s.power := rfl
@[simp] theorem State.fresh_bundle : s.fresh.bundle = s.bundle := rfl
@[simp] theorem State.fresh_agenda : s.fresh.agenda = s.agenda := rfl
@[simp] theorem State.fresh_cores : s.fresh.cores = s.cores := rfl
@[simp] theorem State.fresh_dies : s.fresh.dies = s.dies := rfl
@[simp] theorem State.fresh_mem : s.fresh.mem = s.mem := rfl
@[simp] theorem State.fresh_gtags : s.fresh.gtags = s.gtags := rfl
@[simp] theorem State.fresh_lost : s.fresh.lost = s.lost := rfl
@[simp] theorem State.fresh_retired : s.fresh.retired = s.retired := rfl
@[simp] theorem State.fresh_exhausted : s.fresh.exhausted = s.exhausted := rfl
@[simp] theorem State.fresh_compact : s.fresh.compact = s.compact := rfl
@[simp] theorem State.fresh_stamps : s.fresh.stamps = s.stamps := rfl
@[simp] theorem State.fresh_floor : s.fresh.floor = s.floor := rfl
@[simp] theorem State.fresh_pages : s.fresh.pages = s.pages := rfl
@[simp] theorem State.fresh_rounds : s.fresh.rounds = s.rounds := rfl
@[simp] theorem State.fresh_hostLines : s.fresh.hostLines = s.hostLines := rfl
@[simp] theorem State.fresh_hostClock : s.fresh.hostClock = s.hostClock := rfl
@[simp] theorem State.fresh_stationClocks : s.fresh.stationClocks = s.stationClocks := rfl
@[simp] theorem State.fresh_schedClocks : s.fresh.schedClocks = s.schedClocks := rfl
@[simp] theorem State.fresh_ctxs : s.fresh.ctxs = s.ctxs := rfl
@[simp] theorem State.fresh_queues : s.fresh.queues = s.queues := rfl
@[simp] theorem State.fresh_classes : s.fresh.classes = s.classes := rfl
@[simp] theorem State.fresh_frozen : s.fresh.frozen = s.frozen := rfl
@[simp] theorem State.fresh_watches : s.fresh.watches = s.watches := rfl
@[simp] theorem State.fresh_sites : s.fresh.sites = s.sites := rfl
@[simp] theorem State.fresh_grids : s.fresh.grids = s.grids := rfl
@[simp] theorem State.fresh_nextGrid : s.fresh.nextGrid = s.nextGrid := rfl
@[simp] theorem State.fresh_placement : s.fresh.placement = s.placement := rfl
@[simp] theorem State.fresh_served : s.fresh.served = s.served := rfl
@[simp] theorem State.fresh_clusters : s.fresh.clusters = s.clusters := rfl
@[simp] theorem State.fresh_nextCluster : s.fresh.nextCluster = s.nextCluster := rfl
@[simp] theorem State.fresh_railSince : s.fresh.railSince = s.railSince := rfl
@[simp] theorem State.fresh_railRecover : s.fresh.railRecover = s.railRecover := rfl
@[simp] theorem State.fresh_railLog : s.fresh.railLog = s.railLog := rfl
@[simp] theorem State.fresh_powerLog : s.fresh.powerLog = s.powerLog := rfl
@[simp] theorem State.fresh_relocs : s.fresh.relocs = s.relocs := rfl
@[simp] theorem State.fresh_alObjects : s.fresh.alObjects = s.alObjects := rfl
@[simp] theorem State.fresh_alReqs : s.fresh.alReqs = s.alReqs := rfl
@[simp] theorem State.fresh_alReplies : s.fresh.alReplies = s.alReplies := rfl
@[simp] theorem State.fresh_images : s.fresh.images = s.images := rfl
@[simp] theorem State.fresh_nextOp : s.fresh.nextOp = s.nextOp := rfl
@[simp] theorem State.fresh_reserve : s.fresh.reserve = s.reserve := rfl
@[simp] theorem State.fresh_mgmt : s.fresh.mgmt = s.mgmt := rfl
@[simp] theorem State.fresh_fabric : s.fresh.fabric = s.fabric := rfl
@[simp] theorem State.fresh_hostIn : s.fresh.hostIn = s.hostIn := rfl
@[simp] theorem State.fresh_hostOut : s.fresh.hostOut = s.hostOut := rfl

variable (t : Team)

/-! ## Teams and cores -/

@[simp] theorem Team.updThread_id (f : Thread → Thread) : (t.updThread g l f).id = t.id := rfl
@[simp] theorem Team.mapThreads_id (f : Nat → Nat → Thread → Thread) : (t.mapThreads f).id = t.id := rfl
@[simp] theorem Team.updThread_bank (f : Thread → Thread) : (t.updThread g l f).bank = t.bank := rfl
@[simp] theorem Team.mapThreads_bank (f : Nat → Nat → Thread → Thread) : (t.mapThreads f).bank = t.bank := rfl
@[simp] theorem Team.updThread_desc (f : Thread → Thread) : (t.updThread g l f).desc = t.desc := rfl
@[simp] theorem Team.mapThreads_desc (f : Nat → Nat → Thread → Thread) : (t.mapThreads f).desc = t.desc := rfl
@[simp] theorem Team.updThread_ctx (f : Thread → Thread) : (t.updThread g l f).ctx = t.ctx := rfl
@[simp] theorem Team.mapThreads_ctx (f : Nat → Nat → Thread → Thread) : (t.mapThreads f).ctx = t.ctx := rfl
@[simp] theorem Team.updThread_vtid (f : Thread → Thread) : (t.updThread g l f).vtid = t.vtid := rfl
@[simp] theorem Team.mapThreads_vtid (f : Nat → Nat → Thread → Thread) : (t.mapThreads f).vtid = t.vtid := rfl
@[simp] theorem Team.updThread_sup (f : Thread → Thread) : (t.updThread g l f).sup = t.sup := rfl
@[simp] theorem Team.mapThreads_sup (f : Nat → Nat → Thread → Thread) : (t.mapThreads f).sup = t.sup := rfl
@[simp] theorem Team.updThread_grid (f : Thread → Thread) : (t.updThread g l f).grid = t.grid := rfl
@[simp] theorem Team.mapThreads_grid (f : Nat → Nat → Thread → Thread) : (t.mapThreads f).grid = t.grid := rfl
@[simp] theorem Team.updThread_index (f : Thread → Thread) : (t.updThread g l f).index = t.index := rfl
@[simp] theorem Team.mapThreads_index (f : Nat → Nat → Thread → Thread) : (t.mapThreads f).index = t.index := rfl
@[simp] theorem Team.updThread_cluster (f : Thread → Thread) : (t.updThread g l f).cluster = t.cluster := rfl
@[simp] theorem Team.mapThreads_cluster (f : Nat → Nat → Thread → Thread) : (t.mapThreads f).cluster = t.cluster := rfl
@[simp] theorem Team.updThread_cx (f : Thread → Thread) : (t.updThread g l f).cx = t.cx := rfl
@[simp] theorem Team.mapThreads_cx (f : Nat → Nat → Thread → Thread) : (t.mapThreads f).cx = t.cx := rfl
@[simp] theorem Team.updThread_cy (f : Thread → Thread) : (t.updThread g l f).cy = t.cy := rfl
@[simp] theorem Team.mapThreads_cy (f : Nat → Nat → Thread → Thread) : (t.mapThreads f).cy = t.cy := rfl
@[simp] theorem Team.updThread_nregs (f : Thread → Thread) : (t.updThread g l f).nregs = t.nregs := rfl
@[simp] theorem Team.mapThreads_nregs (f : Nat → Nat → Thread → Thread) : (t.mapThreads f).nregs = t.nregs := rfl
@[simp] theorem Team.updThread_bytes (f : Thread → Thread) : (t.updThread g l f).bytes = t.bytes := rfl
@[simp] theorem Team.mapThreads_bytes (f : Nat → Nat → Thread → Thread) : (t.mapThreads f).bytes = t.bytes := rfl
@[simp] theorem Team.updThread_l1 (f : Thread → Thread) : (t.updThread g l f).l1 = t.l1 := rfl
@[simp] theorem Team.mapThreads_l1 (f : Nat → Nat → Thread → Thread) : (t.mapThreads f).l1 = t.l1 := rfl
@[simp] theorem Team.updThread_tiles (f : Thread → Thread) : (t.updThread g l f).tiles = t.tiles := rfl
@[simp] theorem Team.mapThreads_tiles (f : Nat → Nat → Thread → Thread) : (t.mapThreads f).tiles = t.tiles := rfl
@[simp] theorem Team.updThread_scratch (f : Thread → Thread) : (t.updThread g l f).scratch = t.scratch := rfl
@[simp] theorem Team.mapThreads_scratch (f : Nat → Nat → Thread → Thread) : (t.mapThreads f).scratch = t.scratch := rfl
@[simp] theorem Team.updThread_lost (f : Thread → Thread) : (t.updThread g l f).lost = t.lost := rfl
@[simp] theorem Team.mapThreads_lost (f : Nat → Nat → Thread → Thread) : (t.mapThreads f).lost = t.lost := rfl
@[simp] theorem Team.updThread_lines (f : Thread → Thread) : (t.updThread g l f).lines = t.lines := rfl
@[simp] theorem Team.mapThreads_lines (f : Nat → Nat → Thread → Thread) : (t.mapThreads f).lines = t.lines := rfl
@[simp] theorem Team.updThread_spill (f : Thread → Thread) : (t.updThread g l f).spill = t.spill := rfl
@[simp] theorem Team.mapThreads_spill (f : Nat → Nat → Thread → Thread) : (t.mapThreads f).spill = t.spill := rfl
@[simp] theorem Team.updThread_relocs (f : Thread → Thread) : (t.updThread g l f).relocs = t.relocs := rfl
@[simp] theorem Team.mapThreads_relocs (f : Nat → Nat → Thread → Thread) : (t.mapThreads f).relocs = t.relocs := rfl
@[simp] theorem Team.updThread_halt (f : Thread → Thread) : (t.updThread g l f).halt = t.halt := rfl
@[simp] theorem Team.mapThreads_halt (f : Nat → Nat → Thread → Thread) : (t.mapThreads f).halt = t.halt := rfl
@[simp] theorem Team.updThread_carve (f : Thread → Thread) : (t.updThread g l f).carve = t.carve := rfl
@[simp] theorem Team.mapThreads_carve (f : Nat → Nat → Thread → Thread) : (t.mapThreads f).carve = t.carve := rfl
@[simp] theorem Team.updThread_leaving (f : Thread → Thread) : (t.updThread g l f).leaving = t.leaving := rfl
@[simp] theorem Team.mapThreads_leaving (f : Nat → Nat → Thread → Thread) : (t.mapThreads f).leaving = t.leaving := rfl
@[simp] theorem Team.updThread_stale (f : Thread → Thread) : (t.updThread g l f).stale = t.stale := rfl
@[simp] theorem Team.mapThreads_stale (f : Nat → Nat → Thread → Thread) : (t.mapThreads f).stale = t.stale := rfl
@[simp] theorem Core.updTeam_twoCtx (k : Core) (f : Team → Team) : (k.updTeam id f).twoCtx = k.twoCtx := rfl
@[simp] theorem Core.updTeam_active (k : Core) (f : Team → Team) : (k.updTeam id f).active = k.active := rfl
@[simp] theorem Core.updTeam_banks (k : Core) (f : Team → Team) : (k.updTeam id f).banks = k.banks := rfl
@[simp] theorem Core.updTeam_slotNo (k : Core) (f : Team → Team) : (k.updTeam id f).slotNo = k.slotNo := rfl
@[simp] theorem Core.updTeam_issued (k : Core) (f : Team → Team) : (k.updTeam id f).issued = k.issued := rfl
@[simp] theorem Core.updTeam_switch (k : Core) (f : Team → Team) : (k.updTeam id f).switch = k.switch := rfl
@[simp] theorem Core.updTeam_switching (k : Core) (f : Team → Team) : (k.updTeam id f).switching = k.switching := rfl
@[simp] theorem Core.updTeam_bars (k : Core) (f : Team → Team) : (k.updTeam id f).bars = k.bars := rfl
@[simp] theorem Core.updTeam_tiles (k : Core) (f : Team → Team) : (k.updTeam id f).tiles = k.tiles := rfl
@[simp] theorem Core.updTeam_tilesKept (k : Core) (f : Team → Team) : (k.updTeam id f).tilesKept = k.tilesKept := rfl
@[simp] theorem Core.updTeam_ops (k : Core) (f : Team → Team) : (k.updTeam id f).ops = k.ops := rfl
@[simp] theorem Core.updTeam_engines (k : Core) (f : Team → Team) : (k.updTeam id f).engines = k.engines := rfl
@[simp] theorem Core.updTeam_tlb (k : Core) (f : Team → Team) : (k.updTeam id f).tlb = k.tlb := rfl
@[simp] theorem Core.updTeam_bad (k : Core) (f : Team → Team) : (k.updTeam id f).bad = k.bad := rfl
@[simp] theorem Core.updTeam_ilines (k : Core) (f : Team → Team) : (k.updTeam id f).ilines = k.ilines := rfl
@[simp] theorem Core.updTeam_l1 (k : Core) (f : Team → Team) : (k.updTeam id f).l1 = k.l1 := rfl
@[simp] theorem Core.updTeam_fills (k : Core) (f : Team → Team) : (k.updTeam id f).fills = k.fills := rfl
@[simp] theorem Core.updTeam_allow (k : Core) (f : Team → Team) : (k.updTeam id f).allow = k.allow := rfl
@[simp] theorem Core.updTeam_alops (k : Core) (f : Team → Team) : (k.updTeam id f).alops = k.alops := rfl
@[simp] theorem Core.updTeam_errs (k : Core) (f : Team → Team) : (k.updTeam id f).errs = k.errs := rfl
@[simp] theorem Core.updTeam_pass (k : Core) (f : Team → Team) : (k.updTeam id f).pass = k.pass := rfl
@[simp] theorem Core.updTeam_slotClock (k : Core) (f : Team → Team) : (k.updTeam id f).slotClock = k.slotClock := rfl
@[simp] theorem Core.updTeam_past (k : Core) (f : Team → Team) : (k.updTeam id f).past = k.past := rfl
@[simp] theorem Core.updTeam_mcKey (k : Core) (f : Team → Team) : (k.updTeam id f).mcKey = k.mcKey := rfl

end Sys2Proof.Machine
end

