-- ==== Sys2Proof/Laws/Traps.lean ====
section
/-! SUPPORT. Taking an exception and resuming touch no memory, and no core but their own. -/

namespace Sys2Proof.Machine

/-- Memory, tags, losses and every core but c are as before. -/
def OnlyCore (c : Nat) (s s' : State) : Prop :=
  s'.mem = s.mem ∧ s'.gtags = s.gtags ∧ s'.lost = s.lost ∧ ∀ d, d ≠ c → s'.core d = s.core d

theorem OnlyCore.refl (c : Nat) (s : State) : OnlyCore c s s := ⟨rfl, rfl, rfl, fun _ _ => rfl⟩
theorem OnlyCore.trans {c : Nat} {s t u : State} (h : OnlyCore c s t) (k : OnlyCore c t u) : OnlyCore c s u :=
  ⟨k.1.trans h.1, k.2.1.trans h.2.1, k.2.2.1.trans h.2.2.1, fun d hd => (k.2.2.2 d hd).trans (h.2.2.2 d hd)⟩
theorem OnlyCore.wf {c : Nat} {s s' : State} (h : OnlyCore c s s') (w : Memory.wf s = true) : Memory.wf s' = true :=
  wf_congr h.1 h.2.1 w

theorem onlyCore_updCore (s : State) (c : Nat) (f : Core → Core) : OnlyCore c s (s.updCore c f) :=
  ⟨rfl, rfl, rfl, fun _ hd => updAt_getD_ne s.cores f Core.reset hd⟩
theorem onlyCore_updTeam (s : State) (c id : Nat) (f : Team → Team) : OnlyCore c s (s.updTeam c id f) := onlyCore_updCore s c _

theorem onlyCore_stopGroup (s : State) (c id g : Nat) : OnlyCore c s (s.stopGroup c id g) := by
  refine ⟨rfl, rfl, rfl, fun d hd => ?_⟩
  exact (updAt_getD_ne _ _ Core.reset hd).trans (updAt_getD_ne s.cores _ Core.reset hd)
theorem onlyCore_stopOps (s : State) (c : Nat) (p : MatOp → Bool) : OnlyCore c s (s.stopOps c p) :=
  (onlyCore_updCore s c _).trans ⟨rfl, rfl, rfl, fun _ _ => rfl⟩
/-- A core after a change of every team. -/
theorem mapTeams_core (s : State) (f : Nat → Team → Team) (d : Nat) :
    (s.mapTeams f).core d = { s.core d with teams := (s.core d).teams.map (f d) } := by
  simp only [State.core, State.mapTeams, List.getD_eq_getElem?_getD, mapIdxFrom_getElem?, Nat.zero_add]
  cases s.cores[d]? <;> rfl
theorem onlyCore_wakeCore (s : State) (c : Nat) : OnlyCore c s (s.wakeCore c) := by
  refine ⟨rfl, rfl, rfl, fun d hd => ?_⟩
  simp [State.wakeCore, mapTeams_core, hd]
theorem onlyCore_noteError (s : State) (c : Nat) : OnlyCore c s (s.noteError c) :=
  (onlyCore_updCore s c _).trans (onlyCore_wakeCore _ c)

theorem onlyCore_stopGroups (c id : Nat) : ∀ (l : List Nat) (s : State), OnlyCore c s (l.foldl (fun s g => s.stopGroup c id g) s)
  | [], s => OnlyCore.refl c s
  | g :: r, s => (onlyCore_stopGroup s c id g).trans (onlyCore_stopGroups c id r _)
theorem onlyCore_haltTeam (s : State) (c id : Nat) (h : Halt) (now : List Nat) : OnlyCore c s (s.haltTeam c id h now) := by
  have k := (onlyCore_updTeam s c id fun t => { t with halt := some h }).trans (onlyCore_stopGroups c id now _)
  unfold State.haltTeam
  simp only
  split
  · exact (k.trans (onlyCore_stopOps _ c _)).trans ⟨rfl, rfl, rfl, fun _ _ => rfl⟩
  · exact k

/-- Taking an exception (R27, R169, R308). -/
theorem onlyCore_takeTrap (s : State) (b : Bundle) (g l : Nat) (tr : Trap) : OnlyCore b.core s (s.takeTrap b g l tr) := by
  unfold State.takeTrap
  split
  · exact OnlyCore.refl _ _
  · split
    · exact onlyCore_stopGroup s b.core b.team b.group
    · simp only
      refine OnlyCore.trans ?_ (onlyCore_haltTeam _ _ _ _ _)
      refine OnlyCore.trans ?_ (onlyCore_updTeam _ _ _ _)
      split
      · exact onlyCore_noteError s b.core
      · exact OnlyCore.refl _ _
theorem onlyCore_raiseTrap (s : State) (r : ThreadRef) (tr : Trap) (mx : Option (Nat × Nat)) : OnlyCore r.core s (s.raiseTrap r tr mx) := by
  unfold State.raiseTrap
  split
  · exact OnlyCore.refl _ _
  · split
    · exact onlyCore_stopGroup s r.core r.team r.group
    · simp only
      refine OnlyCore.trans ?_ (onlyCore_haltTeam _ _ _ _ _)
      split
      · exact onlyCore_noteError s r.core
      · exact OnlyCore.refl _ _
/-- The return from an exception (R315). -/
theorem onlyCore_updNamed (s : State) (c ctx vtid : Nat) (f : Team → Team) : OnlyCore c s (s.updNamed c ctx vtid f) :=
  (onlyCore_updCore s c _).trans ⟨rfl, rfl, rfl, fun _ _ => rfl⟩
theorem onlyCore_resumeTeam (s : State) (c : Nat) (t : Team) (pcs : List (Nat × Nat × VAddr)) : OnlyCore c s (s.resumeTeam c t pcs) := by
  refine (onlyCore_updNamed s c t.ctx t.vtid fun x => x.resumed pcs).trans ?_
  simp only [State.resumeTeam]
  split
  · exact ⟨rfl, rfl, rfl, fun _ _ => rfl⟩
  · exact onlyCore_updCore _ c _

end Sys2Proof.Machine
end

