-- ==== Sys2Proof/Tests/Slice0.lean ====
section
/-! SUPPORT. The model's own tests: a word of every encoded constructor, ill-formed terms, states that meet the hypotheses of
every statement, and results that the manual works out. -/

namespace Sys2Proof.Tests
-- The kernel evaluates the tests one after the other, which keeps the memory that a build needs small.
set_option Elab.async false
open Machine

/-- A header whose fields are all set (R63). -/
def hd : Hdr := { la := 1, av := false, tag := 2, wait := 0x24, gn := true, gp := 3 }

/-! Words written out from the encodings, one for each constructor that has one, and what the decoder reads. -/

theorem test_decode_row00_a :
    ([0x809125800000000000, 0x1309125848a00000000, 0x188912583fffffffffe, 0x208912585000000000b, 0x280912580060040000a, 0x3009125820304000d3c, 0x3809125810240000001, 0x4089125818202a0c000] : List Nat).map (decodeTableWord 80) =
      [some (.nop hd), some (.mov hd true .s64 9 (.g 20)), some (.movi hd false .n32 7 0x7FFFFFFFFE), some (.srd hd true 10 0x0B), some (.swr hd 0x0A (.k 12)), some (.leaF0 hd 4 (.g 6) 8 3 true 4 (some 5)), some (.leaF1 hd 2 4 0x40000001), some (.isel hd .n32 3 (.g 4) (.k 5) 6)] := by decide

theorem test_decode_row00_b :
    ([0x48091258081018080ca, 0x5009125800000000000] : List Nat).map (decodeTableWord 80) =
      [some (.pcomb hd 1 2 3 4 0xCA), some (.yield hd)] := by decide

theorem test_decode_row01_a :
    ([0x8509125820304200f00, 0x8889125820304200000, 0x9009125820304200000, 0x9989125820304200000, 0xa409125820304414900, 0xa909125820304200000, 0xb089125820304200000, 0xbd09125820300000a00] : List Nat).map (decodeTableWord 80) =
      [some (.iaddF0 hd .s64 true 4 (.g 6) (.k 8) (some 7)), some (.isubF0 hd .n32 false 4 (.g 6) (.k 8) none), some (.imulF0 hd .s32 false 4 (.g 6) (.k 8) none), some (.imulhF0 hd .n64 4 (.g 6) (.k 8)), some (.imad hd .s32 true 4 (.k 6) (.g 8) (.g 10) (some 1)), some (.iminF0 hd .s64 4 (.g 6) (.k 8)), some (.imaxF0 hd .n32 4 (.g 6) (.k 8)), some (.iabs hd true true 4 (.g 6) (some 2))] := by decide

theorem test_decode_row01_b :
    ([0xc189125820304015000, 0xcd09125828304000b00] : List Nat).map (decodeTableWord 80) =
      [some (.isad hd .n64 false 4 (.g 6) (.g 8) (.k 10) none), some (.icmpF0 hd .lt .s64 5 (.g 6) (.g 8) (some 3))] := by decide

theorem test_decode_row02 :
    ([0x1040912582037fffffff, 0x1088912582037fffffff, 0x1110912582037fffffff, 0x1198912582037fffffff, 0x1280912582037fffffff, 0x1308912582037fffffff, 0x14e89125828300000009] : List Nat).map (decodeTableWord 80) =
      [some (.iaddF1 hd .s32 true 4 6 0x7FFFFFFF), some (.isubF1 hd .n32 false 4 6 0x7FFFFFFF), some (.imulF1 hd .s64 false 4 6 0x7FFFFFFF), some (.imulhF1 hd .n64 4 6 0x7FFFFFFF), some (.iminF1 hd .s32 4 6 0x7FFFFFFF), some (.imaxF1 hd .n32 4 6 0x7FFFFFFF), some (.icmpF1 hd .le .n32 5 6 9)] := by decide

theorem test_decode_row03_a :
    ([0x18109125820304200000, 0x18809125820304200000, 0x19089125820304200000, 0x19989125820304200000, 0x1a109125820300400000, 0x1a909125820304200000, 0x1b089125820304200000, 0x1b809125820304200000] : List Nat).map (decodeTableWord 80) =
      [some (.andF0 hd .s64 4 (.g 6) (.k 8)), some (.orF0 hd .s32 4 (.g 6) (.k 8)), some (.xorF0 hd .n32 4 (.g 6) (.k 8)), some (.andnF0 hd .n64 4 (.g 6) (.k 8)), some (.not hd .s64 4 (.k 6)), some (.shlF0 hd .s64 4 (.g 6) (.k 8)), some (.shrF0 hd .n32 4 (.g 6) (.k 8)), some (.sarF0 hd .s32 4 (.g 6) (.k 8))] := by decide

theorem test_decode_row03_b :
    ([0x1c189125820304200000, 0x1c909125820304214000, 0x1d109125820300400000, 0x1d889125820300400000, 0x1e009125820300400000, 0x1e909125820304200000, 0x1f089125820304214000, 0x1f809125820304214000] : List Nat).map (decodeTableWord 80) =
      [some (.rolF0 hd .n64 4 (.g 6) (.k 8)), some (.fshlF0 hd .s64 4 (.g 6) (.k 8) (.g 10)), some (.clz hd .s64 4 (.k 6)), some (.popc hd .n32 4 (.k 6)), some (.brev hd .s32 4 (.k 6)), some (.bfxF0 hd .s64 4 (.g 6) (.k 8)), some (.bfiF0 hd .n32 4 (.g 6) (.k 8) (.g 10)), some (.bselF0 hd 4 (.g 6) (.k 8) (.g 10))] := by decide

theorem test_decode_row04_a :
    ([0x20009125820300000055, 0x20889125820300000055, 0x21109125820300000055, 0x21989125820300000055, 0x22809125820300000055, 0x23089125820300000055, 0x23909125820300000055, 0x24189125820300000055] : List Nat).map (decodeTableWord 80) =
      [some (.andF1 hd .s32 4 6 0x55), some (.orF1 hd .n32 4 6 0x55), some (.xorF1 hd .s64 4 6 0x55), some (.andnF1 hd .n64 4 6 0x55), some (.shlF1 hd .s32 4 6 0x55), some (.shrF1 hd .n32 4 6 0x55), some (.sarF1 hd .s64 4 6 0x55), some (.rolF1 hd .n64 4 6 0x55)] := by decide

theorem test_decode_row04_b :
    ([0x24809125820300000055, 0x26889125820300000c05, 0x27009125820300000c05, 0x2780912582031f1e1d1c] : List Nat).map (decodeTableWord 80) =
      [some (.fshlF1 hd .s32 4 6 0x55), some (.bfxF1 hd .n32 4 6 5 12), some (.bfiF1 hd .s32 4 6 5 12), some (.bselF1 hd 4 6 0x1F1E1D1C)] := by decide

theorem test_decode_row05 :
    ([0x28489125820304200000, 0x28a09125820304200000, 0x29289125820304200000, 0x29809125820304200000, 0x2a609125820304200000] : List Nat).map (decodeTableWord 80) =
      [some (.vadd hd .x16 false true 4 (.g 6) (.k 8)), some (.vsub hd .x8 true false 4 (.g 6) (.k 8)), some (.vmin hd .x16 true 4 (.g 6) (.k 8)), some (.vmax hd .x8 false 4 (.g 6) (.k 8)), some (.vshl hd .x8 true true 4 (.g 6) (.k 8))] := by decide

theorem test_decode_row06_a :
    ([0x30089125820304200000, 0x30909125820304200000, 0x31189125820304200000, 0x31809125820304214000, 0x32009125820304200000, 0x32809125820304200000, 0x33009125820300000000, 0x33809125820300400000] : List Nat).map (decodeTableWord 80) =
      [some (.fadd hd .rtz 4 (.g 6) (.k 8)), some (.fsub hd .rup 4 (.g 6) (.k 8)), some (.fmul hd .rdn 4 (.g 6) (.k 8)), some (.fma hd .rne 4 (.g 6) (.k 8) (.g 10)), some (.fmin hd 4 (.g 6) (.k 8)), some (.fmax hd 4 (.g 6) (.k 8)), some (.fabs hd 4 (.g 6)), some (.fneg hd 4 (.k 6))] := by decide

theorem test_decode_row06_b :
    ([0x34289125810304000c00, 0x34889125820304214000, 0x35009125820304200000] : List Nat).map (decodeTableWord 80) =
      [some (.fcmp hd .ge 2 (.g 6) (.g 8) (some 4)), some (.pkfma hd .rtz 4 (.g 6) (.k 8) (.g 10)), some (.pkadd hd .rne 4 (.g 6) (.k 8))] := by decide

theorem test_decode_row07 :
    ([0x38009125820300000000, 0x38889125820300000000, 0x39109125820300000000, 0x39989125820300000000, 0x3a009125820300000000, 0x3a889125820300000000, 0x3b109125820300000000] : List Nat).map (decodeTableWord 80) =
      [some (.frcp hd .rne 4 (.g 6)), some (.frsq hd .rtz 4 (.g 6)), some (.fexp2 hd .rup 4 (.g 6)), some (.flog2 hd .rdn 4 (.g 6)), some (.fsin hd .rne 4 (.g 6)), some (.fcos hd .rtz 4 (.g 6)), some (.ftanh hd .rup 4 (.g 6))] := by decide

theorem test_decode_row08 :
    ([0x40089125820300000ec8, 0x40809125820304200000, 0x40889125820304200000, 0x41589125820304000005, 0x4180912582030401404c] : List Nat).map (decodeTableWord 80) =
      [some (.cvt hd .rtz .e5m2 .f32 4 (.g 6) (some 6)), some (.qntElement hd 4 (.g 6) (.k 8) none), some (.qntScale hd 4 (.g 6) (.k 8) none), some (.dqnt hd .bf16 .rdn 4 (.g 6) (.g 8) 5), some (.trcd hd .b4 true 4 (.g 6) (.g 8) (.g 10))] := by decide

theorem test_decode_row09 :
    ([0x48009125807ffffffffe, 0x48809125800300000000, 0x49009125820000012345, 0x49809125800300400000, 0x4a009125800000000000, 0x4a809125878000000016, 0x4b009125800780000000] : List Nat).map (decodeTableWord 80) =
      [some (.bra hd 0x7FFFFFFFFE), some (.brx hd (.g 6)), some (.call hd 4 0x12345), some (.ret hd (.k 6)), some (.exit hd), some (.rcvSet hd 15 0x16), some (.rcvWait hd 15)] := by decide

theorem test_decode_row0a :
    ([0x50089125820300000001, 0x50309125828300000000, 0x50e89125820304200900, 0x51409125820300000002, 0x51189125820300000000] : List Nat).map (decodeTableWord 80) =
      [some (.vote hd .every false 4 true 6), some (.vote hd .bits true 5 false 6), some (.xlane hd .mirror true 4 6 (.k 8) (some 1)), some (.redx hd .max .rne .n32 4 6), some (.redx hd .add .rdn .f32 4 6)] := by decide

theorem test_decode_row0c_a :
    ([0x607091258203041f5ff8, 0x60a09125820304aa6008, 0x611891258203041f5ff8, 0x61909125820380400010, 0x62289125820380400010, 0x62909125820380400010, 0x633891258203041f5ff8, 0x638891258003041f5ff8] : List Nat).map (decodeTableWord 80) =
      [some (.ld hd .s64 true 4 ⟨false, .k 6, .scaled 8 3 true 2, 0x1FF8⟩), some (.st hd .s32 false 4 ⟨false, .k 6, .buffer 9 1 false 3, 8⟩), some (.ldx hd .w128 4 ⟨false, .k 6, .scaled 8 3 true 2, 0x1FF8⟩), some (.stx hd .w64 4 ⟨true, .g 7, .none, 0x10⟩), some (.ldb hd .n32 false 4 ⟨true, .g 7, .none, 0x10⟩), some (.stb hd .s16 false 4 ⟨true, .g 7, .none, 0x10⟩), some (.ldk hd .n64 4 ⟨false, .k 6, .scaled 8 3 true 2, 0x1FF8⟩), some (.pref hd .l2 ⟨false, .k 6, .scaled 8 3 true 2, 0x1FF8⟩)] := by decide

theorem test_decode_row0c_b :
    ([0x643891258003041f5ff8, 0x648091258203041f5ff8] : List Nat).map (decodeTableWord 80) =
      [some (.tags hd .g64 true ⟨false, .k 6, .scaled 8 3 true 2, 0x1FF8⟩), some (.tagg hd 4 ⟨false, .k 6, .scaled 8 3 true 2, 0x1FF8⟩)] := by decide

theorem test_decode_row0d :
    ([0x68109125820300001ff8, 0x68889125820300401408] : List Nat).map (decodeTableWord 80) =
      [some (.atom hd .cas .s64 4 ⟨false, .g 6, .none, 0x3F8⟩), some (.red hd .xor .n32 4 ⟨true, .g 6, .none, 8⟩)] := by decide

theorem test_decode_row0e :
    ([0x70009125820380400010, 0x708091258203041f5ff8, 0x710091258203041f5ff8, 0x71b091258203041f5ff8] : List Nat).map (decodeTableWord 80) =
      [some (.cadd hd 4 ⟨true, .g 7, .none, 0x10⟩), some (.caddt hd 4 ⟨false, .k 6, .scaled 8 3 true 2, 0x1FF8⟩), some (.cwait hd 4 ⟨false, .k 6, .scaled 8 3 true 2, 0x1FF8⟩), some (.cpoll hd 6 4 ⟨false, .k 6, .scaled 8 3 true 2, 0x1FF8⟩)] := by decide

theorem test_decode_row0f :
    ([0x78009125820300000040, 0x78809125820300000040, 0x78889125820300001440, 0x78909125820300000040, 0x79009125820300000040, 0x79809125820300000040, 0x7a009125820300000040] : List Nat).map (decodeTableWord 80) =
      [some (.alinit hd 4 ⟨false, .g 6, .none, 0x40⟩), some (.altake hd 4 ⟨false, .g 6, .none, 0x40⟩), some (.altakeT hd 5 4 ⟨false, .g 6, .none, 0x40⟩), some (.altakeW hd 4 ⟨false, .g 6, .none, 0x40⟩), some (.algive hd 4 ⟨false, .g 6, .none, 0x40⟩), some (.alread hd 4 ⟨false, .g 6, .none, 0x40⟩), some (.alpeek hd 4 ⟨false, .g 6, .none, 0x40⟩)] := by decide

theorem test_decode_row10 :
    ([0x80089125820300000009, 0x80109125800000000003, 0x80809125800300000009, 0x81089125800304013a00, 0x81889125828300180000, 0x82009125820380400010, 0x82089125800380400010, 0x82109125800380400010] : List Nat).map (decodeTableWord 80) =
      [some (.bara hd false true 9 4 (.g 6)), some (.bara hd true false 3 0 (.g 0)), some (.barw hd 9 (.g 6)), some (.carve hd true (.g 6) (.g 8) (.k 9) (some 2)), some (.cpyk hd true 5 3 (.g 6)), some (.presGet hd 4 ⟨true, .g 7, .none, 0x10⟩), some (.presHold hd ⟨true, .g 7, .none, 0x10⟩), some (.presRelease hd ⟨true, .g 7, .none, 0x10⟩)] := by decide

theorem test_decode_row11_a :
    ([0x88009125878300000000, 0x88809125870310800020, 0x89009125868311480020, 0x89809125860000000000, 0x8a009125838304a00001, 0x8a809125838304a00001, 0x8b009125838000000005, 0x8b809125838304a00001] : List Nat).map (decodeTableWord 80) =
      [some (.tcfg hd 15 (.g 6)), some (.tld hd 14 false (.g 6) 0x20 33), some (.tst hd 13 true (.k 6) 0x20 34), some (.tzero hd 12), some (.mmt hd 7 ⟨true, .g 6, .k 9⟩), some (.mmtC hd 7 ⟨true, .g 6, .k 9⟩), some (.mmts hd 7 5), some (.tbnd hd 7 ⟨true, .g 6, .k 9⟩)] := by decide

theorem test_decode_row11_b :
    ([0x8c089125838304a00001, 0x8c809125800000000000] : List Nat).map (decodeTableWord 80) =
      [some (.lease hd true 7 ⟨true, .g 6, .k 9⟩), some (.lrel hd)] := by decide

theorem test_decode_row12 :
    ([0x90089125828300400007] : List Nat).map (decodeTableWord 80) =
      [some (.lnch hd true 5 7 (.k 6))] := by decide

theorem test_decode_row13_a :
    ([0x98009125800012345678, 0x98809125800300000005, 0x99009125800303800000, 0x99089125800303800000, 0x99809125800303a00000, 0x99889125800003800000, 0x99909125800000000000, 0x9a009125800000000000] : List Nat).map (decodeTableWord 80) =
      [some (.trap hd 0x12345678), some (.sysc hd 6 5), some (.eretResume hd (.g 6) (.g 7)), some (.eretRemove hd (.g 6) (.g 7)), some (.tlbiVa hd (.g 6) (.k 7)), some (.tlbiCtx hd (.g 7)), some (.tlbiAll hd), some (.fenceI hd)] := by decide

theorem test_decode_row13_b :
    ([0x9a809125800303800000, 0x9b009125800303800000, 0x9b809125800000000000, 0x9c089125820303c00000, 0x9c809125800000000000, 0x9d209125820000000000] : List Nat).map (decodeTableWord 80) =
      [some (.ctxsw hd 6 7), some (.migr hd 6 7), some (.wfi hd), some (.mset hd true 4 (.k 6) (.g 7)), some (.msclr hd), some (.hchk hd .energy 4)] := by decide

/-! Ill-formed instructions, one or more for each check of WellFormed.lean, each of them refused. -/

/-- Register fields: an odd pair, a k register above k63, a k destination above k63 (R13, R65). -/
theorem test_wf_registers : ([.iaddF0 hd .s64 false 5 (.g 6) (.g 8) none, .iaddF0 hd .s64 false 4 (.g 7) (.g 8) none,
    .iaddF0 hd .s32 false 4 (.k 64) (.g 8) none, .iaddF0 hd .n64 false 4 (.g 6) (.k 64) none,
    .iaddF1 hd .s64 false 4 7 0, .mov hd true .s32 64 (.g 1), .movi hd true .s32 64 0, .mov hd false .n64 3 (.g 4),
    .srd hd true 3 0, .iabs hd true false 5 (.g 6) none, .icmpF0 hd .eq .s64 1 (.g 3) (.g 4) none,
    .icmpF1 hd .eq .s64 1 3 0, .shlF0 hd .s32 4 (.g 6) (.k 64), .fshlF0 hd .s64 4 (.g 6) (.g 7) (.g 9),
    .leaF1 hd 3 4 0, .leaF1 hd 4 3 0, .call hd 3 0, .brx hd (.g 3), .ret hd (.k 64), .hchk hd .used 3,
    .barw hd 0 (.g 3), .tcfg hd 0 (.g 3), .cvt hd .rne .s64 .f32 3 (.g 4) none, .cvt hd .rne .f32 .n64 3 (.g 5) none,
    .trcd hd .s8 false 3 (.g 1) (.g 1) (.g 1), .fadd hd .rne 1 (.k 64) (.g 1), .frcp hd .rne 1 (.k 255),
    .bselF0 hd 1 (.g 1) (.g 1) (.k 64), .vadd hd .x8 false false 1 (.k 64) (.g 1)] : List Instr).map Instr.wf =
    List.replicate 29 false := by decide

/-- Numbers an operand field may not hold: a special register, a reserved selector bit, a receiver, a predicate, a
format without nibble order, an XLANE pair, a lease predicate (R87, R108, R122, R119, R123, R126, R251). -/
theorem test_wf_numbers : ([.srd hd false 4 12, .swr hd 12 (.g 1), .bselF1 hd 4 6 0x20, .bselF1 hd 4 6 0x2000,
    .bselF1 hd 4 6 0x200000, .bselF1 hd 4 6 0x20000000, .rcvSet hd 16 0, .rcvWait hd 16, .vote hd .some false 8 false 1,
    .vote hd .every false 8 false 1, .vote hd .bits false 5 false 1, .vote hd .live true 5 false 1,
    .trcd hd .f16 true 4 (.g 1) (.g 1) (.g 1), .xlane hd .at true 5 6 (.g 1) none, .xlane hd .at true 4 7 (.g 1) none,
    .lease hd true 8 ⟨false, .g 6, .g 8⟩] : List Instr).map Instr.wf = List.replicate 16 false := by decide

/-- Addresses: an odd base pair, an odd 64-bit index pair, a scale above 4, a buffer descriptor that is scratchpad, a
g register, odd or above k62, and the spaces an instruction does not have (R70, R92, R132, R133, R148 to R150). -/
theorem test_wf_addresses : ([.ld hd .s32 false 4 ⟨false, .g 7, .none, 0⟩, .ld hd .s32 false 4 ⟨false, .k 64, .none, 0⟩,
    .ld hd .s32 false 4 ⟨false, .g 6, .scaled 9 3 false 0, 0⟩, .ld hd .s32 false 4 ⟨false, .g 6, .scaled 8 0 false 5, 0⟩,
    .ld hd .s32 false 4 ⟨true, .k 6, .buffer 8 0 false 0, 0⟩, .ld hd .s32 false 4 ⟨false, .g 6, .buffer 8 0 false 0, 0⟩,
    .ld hd .s32 false 4 ⟨false, .k 7, .buffer 8 0 false 0, 0⟩, .ld hd .s32 false 4 ⟨false, .k 63, .buffer 8 0 false 0, 0⟩,
    .ld hd .s32 true 5 ⟨false, .g 6, .none, 0⟩, .st hd .s64 true 5 ⟨false, .g 6, .none, 0⟩,
    .ldx hd .w16 6 ⟨false, .g 6, .none, 0⟩, .stx hd .w16 6 ⟨false, .g 6, .none, 0⟩,
    .ldk hd .s32 64 ⟨false, .g 6, .none, 0⟩, .pref hd .l1 ⟨true, .g 6, .none, 0⟩, .tags hd .g1 false ⟨true, .g 6, .none, 0⟩,
    .tagg hd 4 ⟨true, .g 6, .none, 0⟩, .leaF0 hd 3 (.g 4) 6 0 false 0 none, .leaF0 hd 4 (.g 4) 6 0 false 5 none,
    .leaF0 hd 4 (.g 4) 7 3 false 0 none, .tld hd 0 false (.g 7) 0 0, .tst hd 0 true (.k 64) 0 0,
    .ldb hd .s32 false 4 ⟨true, .k 64, .none, 0⟩] : List Instr).map Instr.wf = List.replicate 22 false := by decide

/-- Atomics, counters, allowances, barriers, carve-outs, copies, matrices, launches (R151, R152, R166, R181 to R184,
R162, R173, R191, R205, R288, R333, R355). -/
theorem test_wf_units : ([.atom hd .cas .s32 5 ⟨false, .g 6, .none, 0⟩, .atom hd .cas .s64 6 ⟨false, .g 6, .none, 0⟩,
    .atom hd .add .n64 5 ⟨false, .g 6, .none, 0⟩, .red hd .xchg .s32 4 ⟨false, .g 6, .none, 0⟩,
    .red hd .cas .s32 4 ⟨false, .g 6, .none, 0⟩, .caddt hd 6 ⟨false, .g 6, .none, 0⟩, .cwait hd 5 ⟨false, .g 6, .none, 0⟩,
    .cpoll hd 1 5 ⟨false, .g 6, .none, 0⟩, .alinit hd 6 ⟨false, .g 6, .none, 0⟩, .alinit hd 4 ⟨true, .g 6, .none, 0⟩,
    .altake hd 4 ⟨true, .g 6, .none, 0⟩, .altakeT hd 1 4 ⟨true, .g 6, .none, 0⟩, .altakeW hd 4 ⟨true, .g 6, .none, 0⟩,
    .algive hd 4 ⟨true, .g 6, .none, 0⟩, .alread hd 5 ⟨false, .g 6, .none, 0⟩, .alpeek hd 5 ⟨false, .g 6, .none, 0⟩,
    .bara hd false true 0 5 (.g 1), .bara hd false false 0 4 (.g 1), .bara hd true false 0 0 (.g 1),
    .carve hd true (.g 1) (.g 2) (.g 3) none, .cpyk hd false 1 0 (.g 2), .presGet hd 4 ⟨false, .g 6, .none, 0⟩,
    .presHold hd ⟨false, .g 6, .none, 0⟩, .presRelease hd ⟨false, .g 6, .none, 0⟩, .mmt hd 1 ⟨true, .g 7, .g 8⟩,
    .mmtC hd 1 ⟨true, .g 6, .k 64⟩, .tbnd hd 1 ⟨true, .k 64, .g 8⟩, .lnch hd false 1 0 (.g 2), .lnch hd true 1 0 (.g 3),
    .mset hd false 1 (.g 3) (.g 4), .tlbiVa hd (.g 3) (.g 4), .tlbiCtx hd (.k 64), .eretResume hd (.k 64) (.g 1)] :
    List Instr).map Instr.wf = List.replicate 33 false := by decide

/-- Events that name an agent or a place the machine does not have (R5). -/
theorem test_wf_events : ([.bundleFormation 224, .resultDelivery ⟨224, 0, 0, 0⟩ 0, .resultDelivery ⟨0, 32, 0, 0⟩ 0,
    .resultDelivery ⟨0, 0, 32, 0⟩ 0, .resultDelivery ⟨0, 0, 0, 64⟩ 0, .resultDelivery ⟨0, 0, 0, 0⟩ 8, .trapRecordWrite 64,
    .waiterPeriodicRead (.producer 64 0), .waiterPushRead (.waitEntry 0 8 0), .waiterPushRead (.watch 32), .copyElement 0 4 0,
    .growQueueGrant 0 2, .barrierEntryFree 0 64, .spillMaskWrite 0 32 0, .teamDeparture 0 32, .leaseExpiry 0 32 0,
    .fold 0 128, .bankSwitchSlice 4, .contextCreate 64, .queueOpen 0 8 0, .clusterPlacement 4, .poolWrite 0x0C0 0,
    .registerWrite .hostRead 4, .pageWalk 2, .unitSparing (.l2slice 2 0) [], .dataRestore 4096 0, .teamRestore 0 4 0,
    .hostMemRead 32, .watchArm 32 0, .bootStageAdmit ⟨4, [], [], [], 0⟩, .measurementExtend 3 [], .attestationRequest [],
    .fabricWindowEnable 0 8, .reductionWindowEnable 4, .stationUp 32] : List Instr).map Instr.wf =
    List.replicate 35 false := by decide

/-! A small machine for the tests: one core with one team of one thread, one page of memory, the word's bundle in the issue
stage. -/

/-- The header of a word with no availability, tag, wait or guard (R63). -/
def hw : Hdr := { la := 0, av := false, tag := 0, wait := 0, gn := false, gp := 7 }
/-- One that allocates tag 1 (R78). -/
def ht : Hdr := { hw with av := true, tag := 1 }

/-- A page of 64 KiB at virtual address 0x10000, physical address 0x20000, coherence class 1 (R258, R305). -/
def page : Xlat := { ctx := 0, va := 0x10000, size := 65536, leaf := 0xC200_0000_0002_0000 }

def regs : List Word :=
  [0, 1, 0x10100, 0, 0x10200, 0, 6, 0, 20, 0, 0x80, 0, 0, 0, 0, 0, 0x3F800000, 0x40000000, 3, 4, 8, 0, 0, 0]

def thread : Thread := { Thread.launch 24 0 0 0 0 with regs := regs }
def group : Group := Group.launch 0 0x10000 0x10000 [thread]
def team : Team :=
  { id := 0, bank := 0, desc := 0, ctx := 0, vtid := 0, sup := true, grid := 0, index := 0, cluster := 0, cx := 0, cy := 0
    nregs := 24, bytes := 4096, l1 := 0, tiles := [0, 1], scratch := [], lost := [], lines := [], spill := 0, relocs := 0
    groups := [group], halt := none, carve := none, leaving := false, stale := false }
def core : Core := { Core.reset with teams := [team], tlb := [page] }
def bundle : Bundle := { core := 0, team := 0, group := 0, pc := 0, slot := 0, members := [(0, 0)], fetch := .word 0 }
def ctx : Ctx := { Ctx.reset with valid := true, sup := true }
/-- The machine with the word's bundle; its first site carries core 0. -/
def small : State :=
  { State.reset with
    cores := [core], ctxs := [ctx], queues := [[Queue.reset]], sites := [Site.reset 0 0], bundle := some bundle
    stationClocks := [], schedClocks := [], watches := [] }
/-- The same with the issue stage empty. -/
def idle : State := { small with bundle := none }

/-- The word of the machine's bundle can issue, some thread performs it, and ok holds of every thread that does. -/
def meets (s : State) (h : Hdr) (u : Uses) (ok : Env → Bool := fun _ => true) (all : TagUse := .named)
    (sel : List Env → List Env := fun l => l) : Bool :=
  match s.bundle with
  | some b => match s.team? b.core b.team with
    | some t => issues s h u all sel b t && (s.unstaged.doers h all sel b t).all ok && !(s.unstaged.doers h all sel b t).isEmpty
    | none => false
  | none => false

theorem meets_spec {s : State} {h : Hdr} {u : Uses} {ok : Env → Bool} {all : TagUse} {sel : List Env → List Env}
    (x : meets s h u ok all sel = true) :
    ∃ b t, issues s h u all sel b t = true ∧ (∀ e ∈ s.unstaged.doers h all sel b t, ok e = true) ∧
      s.unstaged.doers h all sel b t ≠ [] := by
  unfold meets at x
  split at x
  · split at x
    · simp only [Bool.and_eq_true, List.all_eq_true, Bool.not_eq_true', List.isEmpty_eq_false_iff] at x
      exact ⟨_, _, x.1.1, x.1.2, x.2⟩
    · cases x
  · cases x

/-- Env.allows as a check. -/
def allowsB (e : Env) (a : Ea) (n : Nat) (m : Mode) : Bool :=
  match e.s.translate e.b.core e.t.ctx a.addr with
  | .hit l =>
    let pa := l.phys a.addr
    decide (l.sup = true → e.t.sup = true) && decide (m.writes = true → l.ro = false ∧ a.ro = false) &&
      ((e.s.unitSteps e.b.core l (m.l1 && decide (e.s.clsOf l ≠ 3)) (unitPieces l.grain pa n) e.th.clock).all fun (p, k, clock, copy) =>
        decide ((m.notag = false → ∀ g ∈ granulesOf p k, e.s.seenTag e.b.core (Nat.max p (g * 32)) clock copy = a.tag) ∧
          (m.reads = true → m.tagged = false → copy = false → e.s.lostIn p k = none) ∧
          (m.writes = false → copy = false → e.s.roundHolds (.thread e.b.core e.b.team) p k = false))) &&
      decide (m.writes = true → e.s.roundHolds (.thread e.b.core e.b.team) pa n = false ∧ e.s.needsRound l pa n = false)
  | _ => false
theorem allows_of_check {e : Env} {a : Ea} {n : Nat} {m : Mode} (x : allowsB e a n m = true) : e.allows a n m := by
  unfold allowsB at x
  split at x
  · rename_i l h
    simp only [Bool.and_eq_true, decide_eq_true_eq, List.all_eq_true] at x
    exact ⟨l, h, x.1.1.1, x.1.1.2, fun pc hp => x.1.2 pc hp, x.2⟩
  · cases x
/-- An address that a thread may access, from its checks: global memory or present lines of the scratchpad. -/
def mayB (e : Env) (x : Except Trap Ea) (n : Nat) (m : Mode) : Bool :=
  match x with
  | .ok a => decide (e.th.fabDone = []) &&
      if a.scratch then ((List.range ((a.addr + n - 1) / 128 + 1)).all fun i => (e.t.line i).present) &&
        (!m.reads || !e.t.lostIn a.addr n)
      else (e.s.fabWindow e.t.desc a.addr).isNone && allowsB e a n m
  | .error _ => false
theorem may_of_check {e : Env} {x : Except Trap Ea} {n : Nat} {m : Mode} (h : mayB e x n m = true) :
    ∃ a, x = .ok a ∧ e.mayAccess a n m := by
  unfold mayB at h
  split at h
  · rename_i a
    simp only [Bool.and_eq_true, decide_eq_true_eq] at h
    refine ⟨a, rfl, h.1, ?_⟩
    have h2 := h.2
    split
    · rename_i hs
      simp only [hs, if_true, Bool.and_eq_true, List.all_eq_true, List.mem_range] at h2
      exact ⟨fun i _ hi => h2.1 i (by omega), fun hr => by simpa [hr] using h2.2⟩
    · rename_i hs
      simp only [hs, Bool.false_eq_true, if_false, Bool.and_eq_true, Option.isNone_iff_eq_none] at h2
      exact ⟨h2.1, allows_of_check h2.2⟩
  · cases h

/-! The hypotheses of the statements about computing words: words of every shape of operands can issue. -/

theorem test_meets_computing : ∀ u ∈ ([uses1 .s64 4 (.g 2), uses1 .s32 4 (.k 1), uses2 .n64 4 (.g 2) (.k 1), usesN .s64 4 (.g 2) (.k 3),
    uses32 4 [.g 1], uses32 4 [.g 1, .g 2], uses32 4 [.g 1, .k 2, .g 3], { reads := namesTy .s64 (.g 2), dests := [.k 63] },
    { dests := dstTy .n64 22 }, { reads := predDst 1 ++ predDst 7, dests := predDst 0 }, { reads := names64 (.g 2), dests := [.g 4, .g 5, .p 6] },
    { reads := [.g 23], dests := [.g 23] }, {}] : List Uses), meets small hw u = true := by decide

/-- BSEL's selector without reserved bits, XLANE's lanes, the targets of branches, and what RCV.SET, RCV.WAIT and EXIT ask. -/
theorem test_meets_control :
    meets small hw (uses32 4 [.g 1, .g 2, .g 6]) (fun e => decide (e.src32 (.g 6) &&& 0xE0E0E0E0 = 0)) = true ∧
    meets small hw { reads := [.g 2] ++ names32 (.g 6), dests := [.g 4, .p 1] } (fun e => decide (e.l < 64) &&
      [LaneMode.at, .below, .above, .mirror].all fun m => !e.laneLost m true 2 (.g 6)) = true ∧
    meets small hw {} (fun e => decide ((branchTarget e.b.pc 1).toNat % 10 = 0)) = true ∧
    meets small hw {} (fun e => decide ((branchTarget e.b.pc (-1)).toNat % 10 ≠ 0)) = true ∧
    meets small hw { reads := names64 (.g 8) } (fun e => decide (((e.src64 (.g 8)).truncate 56 : VAddr).toNat % 10 = 0)) = true ∧
    meets small hw {} (fun e => decide ((e.gr.rcv.getD 15 Rcv.reset).members = 0)) = true ∧
    meets small hw {} (fun e => decide (e.th.fabBad = none ∧ e.th.fabWrites = [])) (all := .every) = true := by decide

/-! The hypotheses of the statements about memory (the scratchpad at its last bytes, and a page of global memory). -/

def glob : MemArg := ⟨false, .g 2, .none, 0⟩
def last (n : Nat) : MemArg := ⟨true, .k 2, .none, BitVec.ofNat 13 (4096 - n)⟩
def glob10 : MemArg10 := ⟨false, .g 2, .none, 0⟩
/-- R133 and R134 where their checks meet: the last scratchpad bytes are addressed, the next ones not; address 2^56 − 4 is
addressed, 2^56 not. -/
def env0 : Env := { s := idle, b := bundle, t := team, gr := group, th := thread, g := 0, l := 0, exec := true, peers := [0], crew := [] }
theorem test_meets_addresses :
    (env0.eaOf true (.k 2) .none 4092 4 4 = .ok { scratch := true, addr := 4092, tag := 0, ro := false, xn := false }) ∧
    (env0.eaOf true (.k 2) .none 4096 4 4 = .error { cause := 0x23, addr := 4096 }) ∧
    (env0.eaOf true (.k 2) .none (-4) 4 4 = .error { cause := 0x23, addr := 2 ^ 64 - 4 }) ∧
    (env0.eaOf true (.k 2) .none 2 4 4 = .error { cause := 0x24, addr := 2 }) ∧
    (env0.eaOf false (.k 2) .none (2 ^ 56 - 4) 4 4 = .ok { scratch := false, addr := 2 ^ 56 - 4, tag := 0, ro := false, xn := false }) ∧
    (env0.eaOf false (.k 2) .none (2 ^ 56) 4 4 = .error { cause := 0x20, addr := 0 }) ∧
    (env0.eaOf false (.k 2) (.buffer 0 2 false 0) 4 4 4 = .error { cause := 0x22, addr := 4 }) ∧
    (env0.eaOf false (.k 0) (.buffer 0 2 false 0) (0x10000 - 4) 4 4 =
      .ok { scratch := false, addr := 0x1FFFC, tag := 0, ro := false, xn := false }) := by decide

theorem test_meets_loads : ∀ x ∈ ([(.s8, glob, 1), (.n64, glob, 8), (.s32, last 4, 4), (.s64, last 8, 8)] : List (MemTy × MemArg × Nat)),
    memWidth x.1 false = x.2.2 ∧
    meets small hw { reads := memNames x.2.1, dests := [.g 4] } (fun e =>
      mayB e (e.ea x.2.1 x.2.2) x.2.2 { reads := true, writes := false, l1 := true }) = true ∧
    meets small ht { reads := memNames x.2.1, dests := pairNames 22 } (fun e =>
      mayB e (e.ea x.2.1 x.2.2) x.2.2 { reads := true, writes := false, tagged := true, l1 := true }) = true ∧
    meets small hw { reads := memNames x.2.1, dests := [.k 63] } (fun e =>
      mayB e (e.ea x.2.1 x.2.2) x.2.2 { reads := true, writes := false, l1 := true }) (sel := lowestPerGroup) = true := by decide
theorem test_meets_tuples : ∀ m ∈ [glob, last 16],
    meets small hw { reads := memNames m, dests := tupleNames 20 4 } (fun e =>
      mayB e (e.ea m 16) 16 { reads := true, writes := false, l1 := true }) = true ∧
    meets small hw { reads := memNames m ++ tupleNames 20 4 } (fun e => mayB e (e.ea m 16) 16 { reads := false, writes := true }) = true := by
  decide
theorem test_meets_stores : ∀ m ∈ [glob, last 8],
    meets small hw { reads := memNames m ++ [.g 4] } (fun e => mayB e (e.ea m 4) 4 { reads := false, writes := true }) = true ∧
    meets small hw { reads := memNames m ++ pairNames 4 } (fun e => mayB e (e.ea m 8) 8 { reads := false, writes := true }) = true ∧
    meets small hw { reads := memNames m ++ [.g 4] } (fun e => mayB e (e.ea m 8) 8 { reads := true, writes := true }) = true ∧
    meets small hw { reads := memNames m ++ [.g 4] ++ pairNames 6 } (fun e => mayB e (e.ea m 8) 8 { reads := true, writes := true }) = true ∧
    meets small hw { reads := memNames m ++ pairNames 4 } (fun e => mayB e (e.ea m 8) 8 { reads := true, writes := false }) = true ∧
    meets small hw { reads := memNames m ++ pairNames 4, dests := predDst 1 } (fun e =>
      mayB e (e.ea m 8) 8 { reads := true, writes := false, tagged := false }) = true := by decide
theorem test_meets_atomics : ∀ x ∈ ([(.add, .s32, 4), (.cas, .n64, 8), (.xchg, .n32, 4)] : List (Aop × IntTy × Nat)),
    meets small hw { reads := memNames10 glob10 ++ atomNames x.1 x.2.1 4, dests := dstTy x.2.1 4 } (fun e =>
      mayB e (e.ea10 glob10 x.2.2) x.2.2 { reads := true, writes := true }) = true := by decide
/-- TAGS on the granule at 0x10100, TAGG on a byte, PRES on the last line. -/
theorem test_meets_tags :
    meets small hw { reads := memNames glob } (fun e => match e.ea glob 32 with
      | .ok a => !a.scratch && (e.s.fabWindow e.t.desc a.addr).isNone && a.addr % 32 == 0 &&
          allowsB e a 32 { reads := false, writes := true, notag := true }
      | _ => false) = true ∧
    meets small hw { reads := memNames glob, dests := [.g 4] } (fun e => match e.ea glob 1 with
      | .ok a => !a.scratch && (e.s.fabWindow e.t.desc a.addr).isNone && allowsB e a 1 { reads := false, writes := false, notag := true }
      | _ => false) = true ∧
    meets small hw { reads := memNames (last 128), dests := [.g 4] } (fun e => match e.ea (last 128) 128 with
      | .ok a => a.addr == 3968
      | _ => false) = true ∧
    Memory.wf small = true ∧ amWf Line.reset 0 team.lines = true ∧ amWf 0 0 team.scratch = true ∧
    inCtl ((leafOf page).phys 0x10100) = false := by decide
/-- A thread alone in its bundle with an unanswered write into a window, before an addition that the memory allows (R282). -/
theorem test_meets_held_additions :
    let s : State := { small with cores := [{ core with teams := [{ team with groups := [{ group with threads := [{ thread with fabWrites := [5] }] }] }] }] }
    ∀ u ∈ ([{ reads := memNames glob ++ [.g 4] }, { reads := memNames glob ++ [.g 4] ++ pairNames 6 }] : List Uses),
      meets s hw u (fun e => let x := e.at (s.unstaged.slotStart bundle)
        !x.fabOpen.isEmpty && mayB x (x.ea glob 8) 8 { reads := true, writes := true }) = true ∧
      ∀ t ∈ (s.core 0).teams, (s.unstaged.views hw .named (fun l => l) bundle t).length = 1 := by decide
/-- The waiting thread of R185's push, and a thread that waits for another word. -/
def waiter (scratch : Bool) (a : Nat) : Waiter := { scratch := scratch, addr := a, tag := 0, target := 1, next := 9, pushed := false }
def parked (p : Park) : State := { idle with cores := [{ core with teams := [{ team with groups := [{ group with threads := [{ thread with
  park := some p }] }] }] }] }
theorem test_meets_pushes :
    (((parked (.cwait (waiter true 8))).team? 0 0).bind fun t => t.thread? 0 0) = some { thread with park := some (.cwait (waiter true 8)) } ∧
    (((parked (.cwait (waiter false 8))).team? 0 0).bind fun t => t.thread? 0 0) = some { thread with park := some (.cwait (waiter false 8)) } ∧
    (parked (.cwait (waiter true 8))).waiting ⟨0, 0, 0, 0⟩ = true := by decide

/-! The hypotheses of the statements about teams and copies. -/

/-- The machine with a team, a bank, an engine or a thread changed. -/
def withTeam (t : Team) : State := { idle with cores := [{ core with teams := [t] }] }
def withCore (k : Core) : State := { idle with cores := [k] }
def withThread (th : Thread) : State := withTeam { team with groups := [{ group with threads := [th] }] }

/-- A barrier with a free entry, a full table without the team's, and the counts of R166 at their ends. -/
def bar (n : Nat) : BarEntry := { BarEntry.reset with valid := true, number := 3, count := n }
def barred (n : Nat) : State :=
  withCore { core with bars := [bar n], teams := [{ team with groups := [{ group with threads := [{ thread with park := some (.barw 3 2) }] }] }] }
theorem test_meets_barriers :
    meets small hw { reads := names32 (.g 1), dests := pairNames 4 }
      (fun e => !e.t.spill.getLsbD 3 && ((e.s.core e.b.core).barOf e.t 3).isNone && (e.s.core e.b.core).freeBars != []) = true ∧
    meets { small with cores := [{ core with bars := [bar 7] }] } hw { reads := names64 (.g 2) }
      (fun e => !e.t.spill.getLsbD 3 && ((e.s.core e.b.core).barOf e.t 3).isSome && (e.s.core e.b.core).freeBars == []) = true ∧
    (∀ n ∈ [1, 2], ((barred n).core 0).barOf team 3 = some 0 ∧ ((barred n).barAt 0 0).count = n ∧ ((barred n).team? 0 0).isSome = true) := by
  decide

/-- A complete rendezvous that shrinks, one that grows within the pool, and one that the pool cannot give. -/
def asks (n bytes l1 : Nat) (trying : Bool) : Rendezvous :=
  { n := n, bytes := bytes, l1 := l1, trying := trying, arrivals := [(0, 0, some 1)], differs := none, queued := false, granting := false }
def carving (r : Rendezvous) (grow : List Nat) : State :=
  withCore { core with
    banks := [{ Bank.reset with grow := grow }, Bank.reset]
    teams := [{ team with carve := some r, groups := [{ group with threads := [{ thread with park := some .carve }] }] }] }
theorem test_meets_carve :
    meets small hw { reads := [.g 20, .g 21, .g 22], dests := [.p 1] } (all := .every) = true ∧
    (∀ r ∈ [asks 24 4096 0 false, asks 32 8192 1 true], team.allArrived r = true ∧ (carving r []).carveInvalid 0 team r = false ∧
      team.newGranules r ≤ team.granules + ((carving r []).core 0).freePool 0 ∧ team.bytes ≤ r.bytes) ∧
    (let r := asks 24 4096 100 true
     let s := withCore { core with teams := ({ team with id := 5, l1 := 120 } : Team) :: ((carving r []).core 0).teams }
     s.carveInvalid 0 team r = false ∧ team.granules + (s.core 0).freePool 0 < team.newGranules r) ∧
    (∀ n ∈ [1, 200], let r := { asks 24 4096 n false with queued := true }
      ((carving r [0]).core 0).active = 0 ∧ (((carving r [0]).core 0).bank 0).grow = [0] ∧
      (team.newGranules r ≤ team.granules + ((carving r [0]).core 0).freePool 0 ↔ n = 1)) ∧
    (let s := withThread { thread with exited := true }
     ∀ t ∈ (s.core 0).teams, s.mayDepart 0 t = true ∧ s.movingCore 0 = false) := by decide

/-- Requests that remove scratchpad from 4,096 bytes down: with the lines free, with a copy pending on the last one, and granted and
waiting with the lines free by now (R163). -/
def shrinking (r : Rendezvous) (grow : List Nat) (lines : List (Nat × Line)) : State :=
  withCore { core with
    banks := [{ Bank.reset with grow := grow }, Bank.reset]
    teams := [{ team with carve := some r, lines := lines, groups := [{ group with threads := [{ thread with park := some .carve }] }] }] }
theorem test_meets_shrinks :
    (∀ x ∈ [([], true), ([(31, { Line.reset with pending := 1 })], false), ([(15, { Line.reset with pending := 1 })], true)],
      let r := asks 16 2048 0 false
      let s := shrinking r [] x.1
      ∀ t ∈ (s.core 0).teams, t.carve = some r ∧ t.allArrived r = true ∧ s.carveInvalid 0 t r = false ∧ ((s.core 0).bank 0).grow = [] ∧
        t.newGranules r ≤ t.granules + (s.core 0).freePool 0 ∧ r.bytes < t.bytes ∧
        amWf 0 0 t.scratch = true ∧ amWf Line.reset 0 t.lines = true ∧ (∀ i < 32, 16 ≤ i → (t.line i).pending = 0 ∨ x.2 = false)) ∧
    (let r := { asks 32 2048 0 false with queued := true }
     let s := shrinking r [0] []
     ∀ t ∈ (s.core 0).teams, ((s.core 0).bank 0).grow = [0] ∧ t.newGranules r ≤ t.granules + (s.core 0).freePool 0 ∧ r.bytes < t.bytes ∧
       ∀ y, t.carve = some y → y.granting = false) ∧
    (let r := { asks 16 2048 0 false with granting := true }
     let s := shrinking r [] [(15, { Line.reset with pending := 1 })]
     ((s.core 0).cutDue 0).map (fun t => t.id) = some 0 ∧ ∀ t ∈ (s.core 0).teams, t.carve = some r) := by
  refine ⟨?_, by decide, by decide⟩
  intro x hx
  simp only [List.mem_cons, List.not_mem_nil, or_false] at hx
  rcases hx with rfl | rfl | rfl <;> decide

/-- Barrier entries that are in use, free with count and key written, and free without. -/
theorem test_meets_entries :
    (∀ e ∈ [bar 1, { bar 1 with valid := false, counted := true, keyed := true }, BarEntry.reset],
      let s := withCore { core with bars := [e], teams := [] }
      s.power = .on ∧ (s.core 0).bars.length = 1 ∧ s.hasWaiters 0 e = false ∧ (s.core 0).teams = [] ∧ s.images = []) ∧
    (barred 1).hasWaiters 0 (bar 1) = true := by decide

/-- A copy of two elements of 4 bytes from 0x100 to 0x200 with a scratchpad arrival counter at 0x300, and a stream at 0x100
of a literal, a match and the stop token, expanded to 4 bytes at 0x200 (R188, R189, R194, R199). -/
def record (b0 b1 b5 : Byte) (src dst arr tl : Nat) (ext side : Nat) : List Byte :=
  [b0, b1, 0, 0, 0, b5, 0, 0] ++ natBytes src 8 ++ natBytes dst 8 ++ natBytes arr 8 ++ natBytes tl 8 ++
    natBytes (2 ^ 36 + 2 ^ 16 + ext) 7 ++ List.replicate 77 0 ++ natBytes side 4
def plainRec : List Byte := record 0x00 0x46 0x01 0x100 0x200 0x300 0 1 0
def streamRec : List Byte := record 0x50 0x06 0x00 0x100 0x200 0 0 3 5
def copy (r : List Byte) : CopyOp :=
  { id := 7, record := r, team := 0, vtid := 0, group := 0, lane := 0, slot := 0, desc := 0, ctx := 0, teamIndex := 0, grid := 0, sup := true
    recoff := 0, peer := none, pos := 0, srcPos := 0, delivered := 0, counted := 0, ended := false, cancelled := false, lines := [4]
    saved := [], vals := [], fab := none, fetched := [], acked := [], adding := none, clock := 0 }
def copying (o : CopyOp) (scratch : List (Nat × Byte)) : State :=
  withCore { core with teams := [{ team with scratch := scratch, lines := [(4, { Line.reset with pending := 1 })] }]
                       engines := [{ Engine.reset with queue := [o] }] }
theorem test_meets_kick :
    meets { small with cores := [{ core with teams := [{ team with scratch := amEntries 0 0 plainRec }] }] } hw { reads := [.g 0] } (fun e =>
      decide (recordOff e.t 0 0 (.g 0) = 0 ∧ e.recordCauses (e.t.scratchRead 0 128) = none) && (e.t.line 0).present &&
        !e.t.lostIn 0 128 && decide (e.crew.length + ((e.s.core e.b.core).engine 0).queue.length ≤ 16 ∧ (recordOff e.t 0 0 (.g 0)) % 128 = 0 ∧
          e.t.bytes ≥ 128 ∧ e.s.team? 0 0 = some e.t)) = true ∧
    spanLines (sideBase true (cview plainRec).dst) (cview plainRec).dfoot = [4] ∧
    ((withTeam team).core 0).engines.length = 4 ∧ (cview plainRec).dsp = true ∧ (cview plainRec).dpeer = false := by decide
theorem test_meets_element :
    let o := copy plainRec
    let s := copying o [(0x100, 0xAB)]
    let v := cview o.record
    s.opAt 0 0 0 = some o ∧ v.kind ≤ 1 ∧ v.sbits / 8 = 4 ∧ v.ssp = true ∧ v.dsp = true ∧ v.total = 2 ∧ (s.engineAt 0 0).stopped = none ∧
      s.engineHeld 0 = false ∧ s.forwarding 0 = false ∧ amWf 0 0 [(0x100, (0xAB : Byte))] = true ∧
      (∀ t ∈ (s.core 0).teams, t.lost = [] ∧ ∀ j ∈ [2], (t.line j).held = false ∧ (t.line j).pending = 0) := by decide
/-- The literal, the match behind it, the stop token, and a match before the start. -/
theorem test_meets_tokens :
    let bytes : List (Nat × Byte) := [(0x101, 0x41), (0x102, 0x80), (0x104, 0xFF)]
    (∀ o ∈ [copy streamRec, { copy streamRec with pos := 1, delivered := 1, srcPos := 2, saved := [(0x200, 0x41)] },
        { copy streamRec with pos := 4, delivered := 4, srcPos := 4, saved := [(0, 0x41), (1, 0x41), (2, 0x41), (3, 0x41)] },
        { copy streamRec with srcPos := 2 }],
      let s := copying o bytes
      let v := cview o.record
      s.opAt 0 0 0 = some o ∧ v.kind = 5 ∧ v.ssp = true ∧ v.dsp = true ∧ o.saved.length = o.pos ∧ (s.engineAt 0 0).stopped = none ∧
        s.engineHeld 0 = false ∧ s.forwarding 0 = false ∧ v.side = 5 ∧ v.total = 4 ∧ o.srcPos < v.side ∧ o.settled = true) ∧
    amWf 0 0 bytes = true := by decide
/-- An operation with delivered bytes to count, one that has ended, and a stopped context. -/
def globRec : List Byte := record 0x00 0x46 0x00 0x100 0x200 0x10100 0 1 0
theorem test_meets_counting :
    (let o := { copy plainRec with pos := 2, delivered := 8 }
     let s := copying o []
     s.opAt 0 0 0 = some o ∧ (cview o.record).asp = true ∧ o.counted + 8 ≤ o.delivered ∧ s.power = .on ∧ (s.engineAt 0 0).stopped = none ∧
       s.engineHeld 0 = false ∧ s.forwarding 0 = false) ∧
    (let o := { copy globRec with pos := 2, delivered := 8 }
     let s := copying o []
     let l := leafOf page
     s.opAt 0 0 0 = some o ∧ (cview o.record).asp = false ∧ (cview o.record).arr = 0x10100 ∧ s.fabWindow o.desc 0x10100 = none ∧
       s.engPage 0 o 0x10100 0x10100 8 true = .ok l ∧ inCtl (l.phys 0x10100) = false ∧ s.lostIn (l.phys 0x10100) 8 = none ∧
       s.awaitRound l (l.phys 0x10100) 8 (.engine 0 0) = none ∧ Memory.wf s = true) ∧
    (let o := { copy plainRec with pos := 2, delivered := 8, counted := 8, ended := true, lines := [] }
     let s := copying o []
     s.opAt 0 0 0 = some o ∧ (cview o.record).hasTl = false ∧ o.settled = true ∧ s.heldOfOp o.id = false ∧ s.engineHeld 0 = false) ∧
    (let o := { copy (record 0x00 0x46 0x02 0x100 0x200 0 0x300 1 0) with pos := 2, delivered := 8, counted := 0, ended := true, lines := [] }
     let s := copying o []
     s.opAt 0 0 0 = some o ∧ (cview o.record).tsp = true ∧ o.settled = true ∧ s.heldOfOp o.id = false) ∧
    (let o := { copy (record 0x00 0x46 0x00 0x100 0x200 0 0x10100 1 0) with pos := 2, delivered := 8, ended := true, lines := [] }
     let s := copying o []
     let l := leafOf page
     s.opAt 0 0 0 = some o ∧ (cview o.record).tsp = false ∧ (cview o.record).tl = 0x10100 ∧ o.settled = true ∧ s.fabWindow o.desc 0x10100 = none ∧
       s.engPage 0 o 0x10100 0x10100 8 true = .ok l ∧ inCtl (l.phys 0x10100) = false ∧ s.lostIn (l.phys 0x10100) 8 = none ∧
       s.awaitRound l (l.phys 0x10100) 8 (.engine 0 0) = none ∧ s.heldOfOp o.id = false ∧ s.engineHeld 0 = false ∧ Memory.wf s = true) ∧
    (let s := withCore { core with engines := [{ Engine.reset with queue := [copy plainRec], stopped := some 0x83 }] }
     (s.engineAt 0 0).stopped = some 0x83 ∧ 0 < s.cores.length ∧ 0 < (s.core 0).engines.length) := by decide
/-- A read of memory by the engine, and the element that the scratchpad copy moves. -/
theorem test_meets_engine_read :
    let s := copying (copy globRec) []
    (∀ p ∈ blocks256 0x10100 16, s.fabWindow 0 p.1 = none) ∧ (∀ p ∈ pieces 0x10100 16, ∃ l, s.engPage 0 (copy globRec) 0x10100 p.1 p.2 false = .ok l ∧
      inCtl (l.phys p.1) = false ∧ s.roundHolds (.engine 0 0) (l.phys p.1) p.2 = false) := by
  refine ⟨by decide, fun p hp => ⟨leafOf page, ?_⟩⟩
  revert p; decide
theorem test_meets_move :
    (let s := copying (copy plainRec) [(0x100, 0xAB)]
    match s.nextMove 0 0 (copy plainRec) with
    | .move m s1 => match State.engMayAll 0 0 m.writes s1 m.o with
      | .ok [] _ _ => ((State.engWriteAll 0 0 m.writes s1 m.o).1.opAt 0 0 0).map (fun x => x.id) == some 7
      | _ => false
    | _ => false) = true := by decide

/-! The hypotheses of the statements about allowances and the matrix engine. -/

/-- An allowance object at virtual address 0x10100 in a leased page: 10 at home, minimum 1, maximum 12, two holders at most. -/
def leasedPage : Xlat := { page with leaf := 0xC400_0000_0002_0000 }
def object : List (Nat × Byte) := [(0x20100, 10), (0x20108, 1), (0x2010C, 12), (0x20110, 2), (0x20111, 0x80)]
def allowing (l : List Allowance) : State := { small with cores := [{ core with tlb := [leasedPage], allow := l }], mem := object }
def held (n : Nat) : List Allowance := [{ obj := 0x20100, ctx := 0, amount := n, maxc := 12 }]
def sees (s : State) (u : Uses) (write : Bool) (kind : AlKind) (n : Nat) : Bool :=
  meets s hw u (fun e => match e.ea glob 64 with
    | .ok a => decide (e.chkAl (.ok a) write = .ok ∧ (e.alReq (.ok a) kind n).obj = 0x20100 ∧ (e.s.core 0).alops = []) && (e.th.g 6).toNat == 6
    | _ => false)
/-- Takes of 6 from allowances of 6 and 5, gives of 6 to 6 and 7, and operations that always go to home. -/
theorem test_meets_allowances :
    (∀ n ∈ [0, 5, 6], sees (allowing (if n = 0 then [] else held n)) { reads := memNames10 glob10 ++ [.g 6], dests := [.p 1] } true .take 6 = true ∧
      ((allowing (if n = 0 then [] else held n)).core 0).amountOf 0x20100 0 = n) ∧
    (∀ n ∈ [6, 7], sees (allowing (held n)) { reads := memNames glob ++ [.g 6] } true .give 6 = true) ∧
    sees (allowing []) { reads := memNames glob ++ tupleNames 16 5 } true (.init 0x400000003F800000 3 4 8) 0 = true ∧
    ({ home := 0x400000003F800000, minc := 3, maxc := 4, hlim := 8, valid := true } : AlParams).fit = true ∧
    sees (allowing []) { reads := memNames glob, dests := pairNames 4 } true .read 0 = true ∧
    sees (allowing []) { reads := memNames glob, dests := pairNames 4 } false .peek 0 = true := by decide
/-- Home with a take within it, at it and beyond it, with and without holders and waiters. -/
def request (kind : AlKind) (n : Nat) : AlReq :=
  { core := 0, team := 0, vtid := 0, group := 0, lane := 0, ctx := 0, obj := 0x20100, va := 0x10100, page := leasedPage, kind := kind, n := n
    carried := 0, clock := 0 }
def homing (r : AlReq) (l : List Allowance) (queue : List AlReq) : State :=
  { allowing l with bundle := none, alReqs := [r], alObjects := [{ AlObject.fresh 0x20100 leasedPage 0 with queue := queue }] }
theorem test_meets_home_takes : ∀ k ∈ [.take, .takeT, .takeW], ∀ n ∈ [9, 10, 11], ∀ l ∈ [[], held 3], ∀ q ∈ [[], [request .takeW 40]],
    let r := request k n
    let s := homing r l q
    (s.alReqs.find? fun x => !isGive x && (s.alReady x || s.alShares x)) = some r ∧ s.awaitRound (leafOf r.page) r.obj 64 .device = none ∧
      inCtl r.obj = false ∧ (s.alParams r.obj).ok = true ∧ (s.alParams r.obj).home = 10 ∧ Memory.wf s = true ∧
      s.alLost r.obj = false ∧ (∀ o ∈ s.alObjects, o.raised = false) ∧ r.carried < 2 ^ 63 ∧
      (s.alHolders r.obj).length = l.length := by decide
theorem test_meets_home_gives :
    (∀ n ∈ [2 ^ 63 - 11, 2 ^ 63 - 10],
      let r := request .give n
      let s := homing r [] [request .takeW 10]
      (s.alReqs.find? fun x => isGive x && (s.alReady x || s.alShares x)) = some r ∧ s.alReady r = true ∧
        s.awaitRound (leafOf r.page) r.obj 64 .device = none ∧ (s.alParams r.obj).ok = true ∧ s.alLost r.obj = false ∧
        (∀ o ∈ s.alObjects, o.raised = false) ∧ Memory.wf s = true) ∧
    (∀ h ∈ [[(0, 0)], [(0, 0), (1, 0)]],
      let o : AlObject := { AlObject.fresh 0x20100 leasedPage 0 with round := some h }
      let s := { homing (request .take 11) (held 3) [] with alObjects := [o] }
      s.alObj? 0x20100 = some o ∧ (h.any fun x => x.1 == 0) = true ∧ s.awaitRound (leafOf o.page) 0x20100 64 .device = none ∧
        s.movingCore 0 = false ∧ s.read8 0x20100 + 3 < 2 ^ 64 ∧ o.rounds + 1 < 2 ^ 64) := by decide
/-- A waiting lane and each of home's replies. -/
theorem test_meets_home_replies : ∀ k ∈ [.take, .takeT], ∀ a ∈ ([.done 0 12, .value 9 0, .queued, .failed] : List AlReply),
    let r := request k 6
    let x : AlBundle := { h := hw, b := bundle, dests := [.p 1], lanes := [r], acted := [], sent := true }
    let s : State := { idle with
      cores := [{ core with alops := [x], teams := [{ team with groups := [{ group with threads := [{ thread with hold := some .allowance }] }] }] }]
      alReplies := [(0, r, a)] }
    (s.alReplies.find? fun y => y.1 == 0) = some (0, r, a) ∧ (s.core 0).alops = [x] ∧ x.sent = true ∧ x.lanes = [r] ∧ x.acted = [] ∧
      x.b.members = [(r.group, r.lane)] ∧ (s.team? 0 0).isSome = true := by decide

/-- Two tiles of the team: 1 by 32 and 32 by 1 elements .s8 (R202). -/
def tileA : Tile := { ctl := 0x11F00, elems := [(0, 3), (1, 255)], scales := [] }
def tileB : Tile := { ctl := 0x1001F, elems := [(0, 5), (256, 1)], scales := [] }
/-- A parameter block for 1 by 1 by 32 with both operands in tiles and accumulators from g8 on; and one with A streamed from
0x10100 (R211, R212). -/
def block : List Byte := [0, 0, 31, 0x01, 0, 0, 0, 0, 0, 0, 8, 0, 0, 0, 0, 0] ++ List.replicate 48 0
def streamBlock : List Byte := [0x80, 0, 31, 0x01, 0, 0, 0, 0, 0, 0, 8, 0, 0, 0, 0, 0] ++ natBytes 0x10100 8 ++ natBytes 32 4 ++ List.replicate 36 0
def bigThread : Thread := { Thread.launch 136 0 0 0 0 with regs := [0, 0, 0x10100, 0, 0, 0, 0x01050000, 0] ++ List.replicate 128 7 }
def bigTeam (b : List Byte) : Team := { team with nregs := 136, groups := [{ group with threads := [bigThread] }], scratch := amEntries 0 0 b }
def tiled (b : List Byte) (ops : List MatOp) : State :=
  { small with cores := [{ core with teams := [bigTeam b], tiles := [tileA, tileB], ops := ops }], classes := [natBytes 2 64] }
def mat : MatArg := ⟨true, .g 0, .g 6⟩
def blockB (e : Env) (m : MatArg) : Bool := match e.blockEa m with
  | .ok a => a.scratch && ((List.range ((a.addr + 63) / 128 + 1)).all fun i => (e.t.line i).present) && !e.t.lostIn a.addr 64
  | _ => false
/-- What MMT, MMT.C, TBND and LEASE ask; with A in a tile and with A a stream whose pages may be read. -/
def matOk (pin : Bool) (e : Env) : Bool :=
  let x := e.matNow mat
  blockB e mat && !e.voteFails mat.b && (e.matCauses x).isNone && decide (e.gr.matTags < 2) && !e.claimClash x.v 4 && !x.v.cs && decide (e.chkStart x = .ok) &&
    (!pin || x.streams.all fun y => y.spans.all fun sp => (pieces sp.1 sp.2).all fun p =>
      allowsB e { scratch := false, addr := p.1, tag := BitVec.ofNat 4 (fld y.ptr 56 4), ro := false, xn := false } p.2
        { reads := false, writes := false })
theorem test_meets_matrix :
    (∀ b ∈ [block, streamBlock],
      meets (tiled b []) ht { reads := matNames mat, dests := [.g 4], matrix := true } (matOk true) (sel := lowestOnly) = true ∧
      meets (tiled b []) hw { reads := matNames mat, dests := [.g 4] } (matOk false) = true ∧
      meets (tiled b []) hw { reads := matNames mat, dests := [.p 1] } (matOk false) (sel := lowestOnly) = true) ∧
    meets (tiled block []) hw { reads := names64 (.g 0) } (fun e => (e.tile 1).isSome && tileOk 0x11F00 && (e.s.core 0).ops.isEmpty)
      (sel := lowestOnly) = true ∧
    meets (tiled block []) hw { dests := [.g 4] } (fun e => (e.tagOp 1).isNone) = true := by decide
/-- TLD and TST of tile 1, rows of one byte at a pitch of 8 bytes, in the scratchpad and in memory. -/
def pitched (scratch : Bool) (e : Env) : Bool :=
  match e.tile 1, e.tileEa scratch (if scratch then .g 0 else .g 2) 0 with
  | some x, .ok a =>
    decide (x.fmt = some .s8 ∧ a.addr % 8 = 0 ∧ (e.th.g 20).toNat = 8 ∧ rowBytes .s8 x.cols ≤ 8 ∧ x.term = false) && !e.tileBusy 1 &&
      (tileSpans x .s8 a.addr 8).all fun r => if scratch then decide (r.1 + r.2 ≤ e.t.bytes) && (e.t.line (r.1 / 128)).present
        else allowsB e { a with addr := r.1 } r.2 { reads := true, writes := true } && !inCtl ((leafOf page).phys r.1)
  | _, _ => false
theorem test_meets_tiles : ∀ sp ∈ [true, false],
    meets { small with cores := [{ core with tiles := [tileA, tileB] }] } hw
      { reads := tileNames sp (if sp then .g 0 else .g 2) 20 } (pitched sp) (sel := lowestOnly) = true := by decide

/-- An operation of one row and one block in each stage of its life (R216, R221). -/
def row (done : Nat) (next : Option (List (Nat × Nat) × List (List (Nat × Nat)))) (costs : List Nat) : OpRow :=
  { done := done, next := next, history := if done = 0 then [[7]] else [[9], [7]], costs := costs }
def operation (st : OpState) (r : OpRow) : MatOp :=
  { id := 3, team := 0, vtid := 0, group := 0, lane := 0, tag := 1, desc := 0, ctx := 0, sup := true, block := block, fw := 0x01050000, start := [[7]]
    rows := [r], p := 0, began := 0, base := 0, state := st, target := none, fault := none, tileA := some tileA, tileB := some tileB
    pins := [], pinned := false, demand := 0, drawn := 0, granted := none, replays := 0, cancelOnly := false, cancelled := false
    words := [], since := 0, grid := 0, cluster := 0, wrank := 0, ccnt := none, clock := 0 }
def ones : List Nat := List.replicate 32 1
theorem test_meets_array :
    (∀ st ∈ [.queued, .running],
      let o := operation st (row 0 none [])
      let s := tiled block [o]
      (s.core 0).headOp = some o ∧ (o.begin s.cycle).state = .running ∧ (o.begin s.cycle).limit = 1 ∧ o.view.pw = false) ∧
    (∀ now ∈ [47, 48],
      let o := operation .running (row 0 (some ([], [])) ones)
      o.due now 0 = decide (now = 48)) ∧
    (let o := operation .running (row 1 none ones)
     let s := { tiled block [o] with cycle := 16 }
     (s.core 0).deliverable s.cycle = some o ∧ o.view.cs = false ∧ o.n = 1 ∧ (s.team? 0 0).isSome = true) ∧
    (let o := { operation .stopping (row 1 none ones) with target := some 0 }
     ((tiled block [o]).core 0).ops[0]? = some o ∧ o.reached = true ∧ o.limit = 0) := by decide +kernel

/-- A block whose A is a stream of words that can be read, where a round holds none of them; a split operation at its delivery, with its
counter in the scratchpad of rank 0 and in memory; and a stopping operation whose team may run (R210, R221, R242, R244). -/
def splitBlock (csp : Bool) : List Byte :=
  patch (patch (patch block 13 [0x04]) 43 [if csp then 1 else 0]) 48 (natBytes (if csp then 0x300 else 0x10100) 8)
theorem test_meets_array_streams :
    (let o := { operation .running (row 0 none []) with tileA := none, block := streamBlock }
     let s := tiled streamBlock [o]
     let v := o.view
     let x := v.streamA o.fmtA o.wrank
     s.folds = true ∧ (s.core 0).headOp = some o ∧ v.pw = false ∧ x.rowSpan 0 0 32 = (0, 32) ∧
       ∀ i < 32, ((s.streamLeaf 0 o ((fld x.ptr 0 56 + x.disp + i) / 8 * 8)).map fun l =>
         let pa := l.phys ((fld x.ptr 0 56 + x.disp + i) / 8 * 8)
         ((List.range 8).all fun j => !inCtl (pa + j)) && (s.lostIn pa 8).isNone && !s.readHeld (some 0) pa 8 && s.gtag pa == 0 &&
           (s.keptWord 0 o 0 false ((fld x.ptr 0 56 + x.disp + i) / 8 * 8)).isNone) = some true) := by decide +kernel
theorem test_meets_split_delivery :
    (∀ csp ∈ [true, false],
      let o := { operation .running (row 1 none ones) with block := splitBlock csp, ccnt := if csp then none else some page }
      let s := { tiled block [o] with cycle := 16, clusters := [{ id := 1, cores := [0], carries := [{ grid := 0, index := 0, ranks := [0] }], pool := 0, reading := 0, sum := 0, readings := 0, q := 1, changed := 0, below := none, heat := false, queue := [] }] }
      (s.core 0).deliverable s.cycle = some o ∧ o.view.cs = true ∧ o.view.csp = csp ∧
        (csp = true → ((s.peerOf o.grid o.cluster o.view.crank).map fun p => (p.1, p.2.id)) = some (0, 0) ∧ fld o.view.ccnt 0 24 = 0x300) ∧
        (csp = false → (leafOf page).phys (fld o.view.ccnt 0 56) = 0x20100 ∧ inCtl 0x20100 = false ∧ s.lostIn 0x20100 8 = none ∧
          s.awaitRound (leafOf page) 0x20100 8 (.array 0) = none ∧ Memory.wf s = true)) ∧
    (let o := { operation .stopping (row 1 none ones) with target := some 0 }
     let s := tiled block [o]
     s.works = true ∧ o.fault = none ∧ o.reached = true ∧ (((s.core 0).teams.find? o.of).map fun t => s.opsRun 0 t) = some true) := by decide +kernel

/-- A replay takes one of the two spare columns of the site and counts; the row reads its block again (R223, R322 to R324). -/
theorem test_replay :
    (match execUnitSparing (.termColumn 0 0 9) [] (tiled block [operation .running (row 0 (some ([], [])) ones)]) with
     | .next s => s.spareCols 0 == 1 && (s.core 0).errs == [0, 1, 2, 0] &&
         ((s.core 0).ops.map fun o => (o.replays, o.began, o.rows.map fun r => r.next.isSome)) == [(1, 9, [false])]
     | _ => false) = true := by decide
/-- A lost register is marked, and its next write ends that (R322). -/
theorem test_register_loss :
    (match execCoreStateLoss 0 (.reg 0 0 0 4) small with
     | .next s => (s.thread? ⟨0, 0, 0, 0⟩).map (fun th => (th.lost, (th.write (.g 4 5)).lost, (th.write (.g 5 5)).lost)) ==
         some ([.g 4], [], [.g 4])
     | _ => false) = true := by decide

/-- A cluster with a lease request that its pool covers and one that it does not (R252 to R254), and its readings (R249). -/
def cluster (q : List LeaseReq) : Cluster :=
  { id := 1, cores := [0], carries := [{ grid := 0, index := 0, ranks := [0] }], pool := 0, reading := 0, sum := 0, readings := 0, q := 1, changed := 0, below := none, heat := false, queue := q }
def leasing (ops : List MatOp) (q : List LeaseReq) (c : Cluster → Cluster) : State :=
  { tiled block ops with
    bundle := none, clusters := [c (cluster q)], cycle := 1100, classes := [natBytes (100 * 2 ^ 96 + 400 * 2 ^ 112 + 50 * 2 ^ 128 + 200 * 2 ^ 144) 64] }
theorem test_meets_lease_request :
    let o := { operation .queued (row 0 none []) with demand := 100 }
    let s := leasing [o] [] id
    (s.core 0).headOp = some o ∧ s.clusterOf o.grid o.cluster = some (cluster []) ∧ o.granted = none ∧ o.drawn = 0 ∧ s.works = true := by decide
def leaseFits (q d : Nat) : Bool :=
  let r : LeaseReq := { who := .op 0 3, q := q, at_ := 0, rank := 0, cap := 16777216, life := 0 }
  let s := leasing [{ operation .leaseWait (row 0 none []) with demand := 100, drawn := d }] [r] id
  let x := cluster [r]
  decide (s.clusters.find? (fun y => y.id == x.id) = some x ∧
    r.at_ < s.cycle ∧ (r.q + s.heldOf x ≤ r.cap ∨ (r.cap < r.q ∧ s.heldOf x = 0)) ∧ s.railAllows r.q (s.requestW r) = true ∧
    s.capacityOf x.pool = r.cap)
/-- Requests of the whole pool, of one more (granted alone), and the two while something is held. -/
theorem test_meets_lease_grant : leaseFits 16777216 0 = true ∧ leaseFits 16777217 0 = true ∧ leaseFits 16777216 1 = false ∧
    leaseFits 16777215 1 = true := by decide +kernel
theorem test_meets_readings : ∀ x ∈ [cluster [], { cluster [] with q := 2, below := some 0 }, { cluster [] with q := 4, changed := 1 }],
    (leasing [] [] fun _ => x).clusters.find? (fun y => y.id == x.id) = some x := by decide

/-! The hypotheses of the statements about launches, exceptions and system instructions. -/

/-- A context whose page tables map the first gigabyte onto itself (R304, R305). -/
def tables : List (Nat × Byte) := [(0x1000002, 1), (0x1000003, 1), (0x1000007, 0x80), (0x1010007, 0xC2)]
def giga : Xlat := { ctx := 0, va := 0, size := 2 ^ 30, leaf := 0xC200_0000_0000_0000 }
def rooted : Ctx := { ctx with root := 0x1000000, tqbase := 0x30000, tqsize := 4, tqprod := 0x40000, tqcons := 0x40008, hbase := 0x50000
                               hcount := 2 }
def mapped : State := { idle with ctxs := [rooted], mem := tables, cores := [{ core with tlb := [giga] }] }
theorem test_maps : mapped.walk 0 0x12345 = .leaf giga ∧ Memory.wf mapped = true ∧ giga.covers 0 0x12345 = true := by decide +kernel

/-- A queue of two slots at 0x20000, empty and full, and a launch block of one team at 0x10100 (R329, R330, R331). -/
def queue : Queue := { Queue.reset with valid := true, dev := true, qsize := 1, base := 0x20000, prod := 0x40010, cons := 0x40018 }
def launchBlock : List (Nat × Byte) := [(0x10110, 1), (0x10117, 2)]
def launching (full : Bool) : State :=
  { mapped with
    bundle := some bundle, queues := [[queue]]
    mem := launchBlock ++ (if full then [(0x40010, 2)] else []) ++ tables }
def ptrB (e : Env) (p al w : Nat) (m : Mode) : Bool :=
  decide (p / 2 ^ 60 = 0 ∧ p % 2 ^ 56 % al = 0) &&
    allowsB e { scratch := false, addr := p % 2 ^ 56, tag := BitVec.ofNat 4 (p / 2 ^ 56), ro := false, xn := false } w m
def launchB (full : Bool) (e : Env) : Bool :=
  let rd : Mode := { reads := true, writes := false }
  let wr : Mode := { reads := false, writes := true }
  ptrB e 0x10100 256 256 rd && (e.s.queueAt 0 0).valid && (e.s.queueAt 0 0).dev &&
    (blockReason (e.peekPtr 0x10100 256) (e.s.ctxAt 0).sup).isNone && ptrB e 0x40010 8 8 rd && ptrB e 0x40018 8 8 rd &&
    decide (bytesNat (e.peekPtr 0x40010 8) = if full then 2 else 0) && (full || (ptrB e 0x20000 8 256 wr && ptrB e 0x40010 8 8 wr))
theorem test_meets_launches : ∀ full ∈ [true, false],
    meets (launching full) hw { reads := names64 (.g 2), dests := predDst 1 } (launchB full) = true := by decide +kernel

/-- A word at user level, one that names a register beyond the team's, one in an open window, and one with a tag but no
destination (R13, R77, R81, R83). -/
def userTeam : Team := { team with sup := false }
def staged (t : Team) : State := { small with cores := [{ core with teams := [t] }] }
def alone (s : State) (h : Hdr) (u : Uses) (cause : Nat) : Bool :=
  match s.team? 0 0 with
  | some t => match s.unstaged.views h .named (fun l => l) bundle t with
    | [e] => performers h .named (fun l => l) s.unstaged bundle t e.g e.l && !e.th.inWindow (guardName h) && !e.lostReg (guardName h) &&
        (cause == if beyond e.t.nregs (u.reads ++ u.dests) then 0x04
          else if e.th.inWindow (u.reads ++ u.dests) || e.th.inTags u.dests then 0x07 else if misuse h u then 0x08
          else if e.lostReg u.reads then 0xA1 else 0)
    | _ => false
  | none => false
def windowed : Team :=
  { team with groups := [{ group with threads := [{ thread with windows := [{ dests := [.g 4], held := [.g 4 1], left := 2, written := false }] }] }] }
/-- A thread whose g4 an error has destroyed (R322). -/
def holed : Team := { team with groups := [{ group with threads := [{ thread with lost := [.g 4] }] }] }
theorem test_meets_traps :
    meets (staged userTeam) hw { reads := names32 (.g 1) ++ names32 (.g 2) } (fun e => !e.t.sup) (sel := lowestOnly) = true ∧
    meets small hw { reads := [.g 1] } = true ∧
    meets small hw { reads := memNames glob ++ [.g 4] } (fun e => match e.ea ⟨false, .g 2, .none, 2⟩ 4 with | .error _ => true | .ok _ => false) = true ∧
    alone small hw { reads := [.g 24], dests := [.g 4] } 0x04 = true ∧ alone small hw { reads := [.g 23], dests := [.g 4] } 0 = true ∧
    alone (staged windowed) hw { reads := [.g 4], dests := [.g 5] } 0x07 = true ∧
    alone (staged holed) hw { reads := [.g 4], dests := [.g 5] } 0xA1 = true ∧ alone (staged holed) hw { dests := [.g 4] } 0 = true ∧
    alone small { hw with av := true } {} 0x08 = true ∧ alone small { hw with av := true } { dests := [.g 1] } 0 = true := by decide
/-- A trap at a thread of a running team, and of a halting one (R27, R169). -/
def halt : Halt :=
  { cause := 0x0A, addr := 5, extra := 0, cf := 0, who := some (0, 0), pc := 10, skids := [0], stops := [true], mx := none, entry := none
    recorded := false }
def halted : Team := { team with halt := some halt }
theorem test_meets_exceptions : small.team? 0 0 = some team ∧ team.halt = none ∧ (team.thread? 0 0).isSome = true ∧ team.desc < small.ctxs.length ∧
    (staged halted).team? 0 0 = some halted := by decide
/-- A team that a supervisor's ERET finds halted, with halt block PCs 0 (R309, R315). -/
def eretting : State :=
  { mapped with
    bundle := some bundle
    ctxs := [{ rooted with halts := [{ idx := 1, core := 0, vtid := 9, cause := 0x0A, pc := 10, who := some (0, 0) }] }]
    cores := [{ core with tlb := [giga], teams := [team, { halted with id := 4, vtid := 9 }] }] }
theorem test_meets_eret :
    meets eretting hw { reads := names32 (.g 0) ++ names32 (.g 1) } (fun e => e.t.sup && match e.s.eretTarget 0 1 with
      | some (i, x, t) => decide (i = 0 ∧ x.idx = 1 ∧ t.id = 4) && (e.s.haltPcs (e.s.ctxAt i).hbase x.idx t).all (fun p => p.2.2.toNat % 10 == 0) &&
          !resumeBlocked x (e.s.haltPcs (e.s.ctxAt i).hbase x.idx t)
      | none => false) (sel := lowestOnly) = true ∧ memPart (0x50000 + 16384) 8 = 8 ∧ eretting.physHeld (0x50000 + 16384) 8 = false ∧
      eretting.lostIn (0x50000 + 16384) 8 = none := by decide +kernel
/-- TLBI, CTXSW and MIGR of what exists; a fetched line that serves a thread (R316 to R319, R349). -/
def twoSites : State := { small with sites := [Site.reset 0 0, { Site.reset 0 1 with core := none }] }
theorem test_meets_system :
    meets small hw { reads := names64 (.g 2) ++ names32 (.g 0) } (fun e => e.t.sup && (e.s.ctxById 0).isSome) (sel := lowestOnly) = true ∧
    meets small hw { reads := [.g 0, .g 0] } (fun e => e.t.sup && (e.s.ctxById 0).isSome && e.s.onCore 0 0) (sel := lowestOnly) = true ∧
    meets twoSites hw { reads := [.g 0, .g 1] } (fun e => e.s.namedOk 1 && (e.s.nearTarget 0).isSome) (sel := lowestOnly) = true ∧
    (let x : ILine := { ctx := 0, sup := true, line := 0, stamp := 3, fetched := 0, words := [] }
     let k : Core := { core with ilines := [x] }
     k.lineFor 0 true 310 3 = some x ∧ k.lineFor 0 true 310 4 = none) := by decide
/-- Must-save tables of one entry: in an armed reserve, in a dark one, and with no entry (R354, R355). -/
def savable (charged : Bool) (n : Byte) : State :=
  { mapped with
    bundle := some bundle, mem := [(0x10100, 1), (0x10117, n)] ++ tables
    ctxs := [{ rooted with share := 100 }], reserve := { Reserve.reset with charged := charged } }
theorem test_meets_mset : ∀ charged ∈ [true, false],
    meets (savable charged 0) hw { reads := names64 (.g 2) ++ names32 (.g 1), dests := [.g 4] } (fun e =>
      (List.range 4).all (fun i => allowsB e { scratch := false, addr := 0x10100 + 8 * i, tag := 0, ro := false, xn := false } 8
        { reads := true, writes := false }) &&
      (List.range 32).all (fun i => match e.s.hitLeaf 0 0 (0x10100 + i) with | some l => !inCtl (l.phys (0x10100 + i)) | none => false) &&
      decide ((e.taken 1 ((List.range 32).map fun i => e.byteAt false (0x10100 + i))).isLeft = true)) (sel := lowestOnly) = true := by
  decide +kernel

/-! The hypotheses of the statements about the events of a core, of contexts, of the scheduler and of the host. -/

/-- A delivered tag, one whose result is still on its way, and an untagged result not yet written. -/
def tagState (delivered : Bool) : TagState := { dests := [.g 4], held := [.g 4 9, .p 1 true], delivered := delivered, pc := 0, bad := none, op := none }
def pending : Thread :=
  { thread with
    tags := [some (tagState true), some (tagState false)]
    windows := [{ dests := [.g 5], held := [.g 5 3], left := 2, written := false }] }
def rotating : State := withCore { core with banks := [{ Bank.reset with rotation := [(0, 0)] }, Bank.reset], ilines := [
  { ctx := 0, sup := true, line := 0, stamp := 0, fetched := 0, words := [.word 0] }] }
theorem test_meets_results :
    (pending.tags[0]? = some (some (tagState true)) ∧ 4 < pending.regs.length ∧ 1 < pending.preds.length) ∧
    (let s := withThread pending
     s.thread? ⟨0, 0, 0, 0⟩ = some pending ∧ pending.tags[1]? = some (some (tagState false)) ∧ pending.park = none ∧ s.fabric.reqs = [] ∧
       pending.windows[0]? = some { dests := [.g 5], held := [.g 5 3], left := 2, written := false }) ∧
    (idle.lineMisses 0 0 205 = [] ∧ ∀ i ∈ [0, 9], ∃ l, idle.translate 0 0 (205 * 320 + i) = .hit l ∧ l.xn = false ∧ inCtl (l.phys (205 * 320 + i)) = false) ∧
    rotating.bundle = none ∧ rotating.slotDue 0 = true ∧ (match exec (.bundleFormation 0) rotating with | .next s => decide (s.bundle.map (fun b => b.members) = some [(0, 0)]) | _ => false) = true := by
  refine ⟨by decide, by decide, ⟨by decide, fun i hi => ⟨leafOf page, ?_⟩⟩, by decide⟩
  revert i; decide

/-- A group's lone thread is ready with the word at its PC, in the first slot of an issue cycle. -/
theorem test_meets_formation :
    let s := rotating
    s.bundle = none ∧ s.slotDue 0 = true ∧ (let b := (s.core 0).bank 0; b.rotation[b.pointer]? = some (0, 0)) ∧ s.team? 0 0 = some team ∧
      s.fetchReady 0 team 0 0 thread 0 ∧ s.freshIn 0 0 0 0 := by
  refine ⟨by decide, by decide, by decide, by decide, ⟨by decide, by decide, by decide, by decide, by decide, ?_, ⟨group, by decide⟩, ?_⟩, Or.inl (by decide)⟩
  · have : ∀ x ∈ thread.tags, x = none := by decide
    intro x hx y hy
    rw [this x hx] at hy
    cases hy
  · exact ⟨_, rfl, rfl⟩
/-- A scratchpad waiter below its target and at it, a watch, a lane in WFI. -/
theorem test_meets_waiting :
    (∀ pushed ∈ [true, false], ∀ n ∈ [(0 : Byte), 1],
      let w : Waiter := { waiter true 8 with pushed := pushed }
      let t : Team := { team with scratch := if n = 0 then [] else [(8, n)], groups := [{ group with threads := [{ thread with park := some (.cwait w) }] }] }
      let s := withTeam t
      s.waiting ⟨0, 0, 0, 0⟩ = true ∧ s.team? 0 0 = some t ∧ (t.line 0).present = true ∧ t.lostIn 8 8 = false ∧ bytesNat (t.scratchRead 8 8) = n.toNat) ∧
    (let x : Watch := { Watch.reset with armed := true, counter := 0x20000, threshold := 3 }
     let s : State := { idle with watches := [x], mem := [(0x20000, 3)] }
     s.watches[0]? = some x ∧ x.threshold.toNat ≤ s.read8 x.counter ∧ s.works = true ∧ memPart x.counter 8 = 8 ∧
       s.lostIn x.counter 8 = none ∧ s.physHeld x.counter 8 = false) ∧
    (let s : State := { parked (.wfi 0) with cycle := 2200 }
     (s.thread? ⟨0, 0, 0, 0⟩).map (fun th => th.park) = some (some (.wfi 0))) ∧
    idle.isPushed (.thread ⟨0, 0, 0, 0⟩) = false := by decide
/-- A halted team whose record can be written. -/
def recording : State :=
  { mapped with
    cycle := 1, ctxs := [{ rooted with pending := [.team 0 0] }]
    cores := [{ core with tlb := [giga], teams := [{ halted with groups := [{ group with threads := [{ thread with pc := 10 }] }] }] }] }
theorem test_meets_record :
    let x := recording.ctxAt 0
    let t := ((recording.core 0).teams.headD team)
    recording.findTeam 0 x.id 0 = some t ∧ t.halt = some halt ∧ x.freeEntry = some 0 ∧ recording.works = true ∧
      memPart 0x50000 16384 = 16384 ∧ memPart 0x30000 64 = 64 ∧ memPart x.tqprod 8 = 8 ∧ memPart x.tqcons 8 = 8 ∧
      recording.lostIn x.tqprod 8 = none ∧ recording.lostIn x.tqcons 8 = none ∧ recording.roundHolds .device x.tqcons 8 = false ∧
      recording.recordReady 0 t = true ∧ recording.read8 x.tqprod = 0 ∧ recording.read8 x.tqcons = 0 ∧
      recording.awaitAreas [(0x50000, 16384), (0x30000, 64), (0x40000, 8)] = none ∧ x.valid = true := by decide +kernel

/-- A two-context core whose other bank holds context 1, one that waits for its image, and a core of one context. -/
def second : Team := { team with id := 4, bank := 1, ctx := 1, desc := 1, vtid := 1, tiles := [] }
def banked (two : Bool) (switch : Option Nat) (switching : Option Switch) (teams : List Team) : State :=
  { idle with cores := [{ core with twoCtx := two, switch := switch, switching := switching, teams := teams }]
              ctxs := [ctx, { ctx with id := 1 }], classes := [List.replicate 28 0 ++ natBytes 100 4], cycle := 1000 }
theorem test_meets_switches :
    (let s := banked true (some 1) none [team, second]
     (s.core 0).bankCtx 1 1 = true ∧ s.switching 0 = false ∧ s.movingCore 0 = false ∧ s.sliceDue 0 0 = false) ∧
    ((banked true (some 1) none [team]).core 0).bankCtx 1 1 = false ∧
    (banked true none none [team, second]).sliceDue 0 0 = true ∧
    (let s := banked false (some 1) none [team]
     (s.core 0).switching = none ∧ s.movingCore 0 = false) := by decide
theorem test_meets_images :
    (∀ s ∈ [banked false none (some { ctx := 1, accepted := 10 }) [team], banked true (some 2) none [{ second with id := 0, bank := 0 }, { team with id := 4, bank := 1 }]],
      let b := if (s.core 0).twoCtx then 1 else 0
      s.maySpill 0 b = true ∧ (((s.core 0).bankTeams b).head?).isSome = true ∧ (s.core 0).allow = []) ∧
    (∀ two ∈ [true, false],
      let img : Image := { core := 0, bank := 1, desc := 1, state := Bank.reset, teams := [second], ops := [] }
      let s : State := { banked two none (if two then none else some { ctx := 1, accepted := 10 }) [] with images := [img] }
      s.images.find? (fun i => i.core == 0 && i.bank == 1 && i.teams.any fun t => t.ctx == 1) = some img ∧ s.mayLoad 0 1 1 = true) := by decide

/-- A descriptor that becomes valid and one that may retire; shares at their bounds; a queue that opens, and one whose
consumer counter has no translation. -/
theorem test_meets_control_region :
    (let s : State := { idle with ctxs := [{ Ctx.reset with id := 5 }, ctx], cores := [{ core with teams := [] }] }
     (s.ctxAt 0).valid = false ∧ (∀ y ∈ s.ctxs, ¬ (y.valid = true ∧ y.id = 5)) ∧ (s.ctxAt 1).valid = true ∧ s.ctxBusy 0 = false) ∧
    (idle.ctxAt 0).valid = true ∧ idle.ctxBusy 0 = true ∧
    (∀ k ∈ [0x40000, 0x40000000],
      let q : Queue := { Queue.reset with cons := BitVec.ofNat 64 k }
      let s : State := { mapped with queues := [[q]] }
      (s.queueAt 0 0).valid = false ∧ (match (s.updQueue 0 0 fun y => { y with dev := true, qs := true, qsize := 12 }).schedRead 0 k 0 true with
        | .ok (c, _, _) => k == 0x40000 && c == 0
        | .error c => k == 0x40000000 && c == 0x25) = true) ∧
    (match mapped.checkNow 0 true 0x40000 false with | .ok l => l.phys 0x40000 == 0x40000 && !inCtl 0x40000 | _ => false) = true := by decide +kernel

/-- A block that is refused, one that is taken, a grid whose cluster is placed, and one that completes. -/
def emptySite : State :=
  { mapped with cores := [{ core with teams := [], tlb := [giga] }], queues := [[{ queue with cons := 0x40018 }]] }
def headed (b : List Byte) (n done : Nat) (fin : List Nat) : State :=
  let h : Head := { n := n, bytes := b, met := [], clock := 0, next := [], pushed := [] }
  { emptySite with queues := [[{ queue with cons := 0x40018, head := some h, nextBlock := n, produced := n + 1, finished := fin, finishedTo := done }]] }
def launch : List Byte := (List.range 256).map fun i => if i = 16 then 1 else if i = 23 then 2 else 0
def gridOf (left : Nat) : Grid := { id := 3, desc := 0, queue := 0, n := 1, slot := 0, bytes := launch, left := left, clock := 0 }
theorem test_meets_scheduler :
    (∀ done ∈ [0, 1],
      let s := headed (patch launch 16 [0]) 1 done []
      (match (s.queueAt 0 0).head with | some h => decide (s.headReason 0 h = some 3) | none => false) = true ∧
        s.awaitPtr 0 (s.queueAt 0 0).cons.toNat = none ∧
        (match s.schedAdd 0 0x40018 0 false with | .ok _ => true | .error _ => false) = true) ∧
    ((headed launch 1 1 []).chosen.map fun x => (x.1, x.2.1)) = some (0, 0) ∧
    (let s : State := { emptySite with grids := [gridOf 1], placement := [(3, 0)] }
     s.pruneClusters.placeHead 0 = some (gridOf 1, 0) ∧ s.pruneClusters.fitsRect 0 (launchView launch) [0] = some [(0, 0)] ∧
       s.gridDone (gridOf 1) = false) ∧
    (let s : State := { headed launch 2 0 [] with grids := [gridOf 0] }
     s.gridAt 3 = some (gridOf 0) ∧ s.gridDone (gridOf 0) = true ∧ s.awaitPtr 0 (s.queueAt 0 0).cons.toNat = none) := by decide +kernel
/-- A refusal of block 1 behind which block 2 has finished: home counts both in turn. -/
theorem test_meets_prefix :
    let s := headed (patch launch 16 [0]) 1 1 []
    let s0 : State := { s with queues := s.queues.map fun l => l.map fun q => { q with finished := [(2, true)] } }
    let q := s0.queueAt 0 0
    q.finished.find? (fun y => y.1 == 2) = some (2, true) ∧ q.finishedTo = 1 ∧ (∀ x ∈ q.finished, x.1 ≠ 1 ∧ x.1 ≠ 1 + 2) ∧
      (match s0.schedAdd 0 0x40018 s0.schedClock true with
        | .ok (k, s1) => (match (s1.setSchedClock k).schedAdd 0 0x40018 (s1.setSchedClock k).schedClock true with | .ok _ => true | .error _ => false)
        | .error _ => false) = true := by decide +kernel
theorem test_meets_no_room :
    let s : State := { emptySite with grids := [gridOf 1], placement := [(3, 0)], sites := [] }
    s.pruneClusters.placeHead 0 = some (gridOf 1, 0) ∧ ∀ l ∈ rects 1 1, s.pruneClusters.fitsRect 0 (launchView launch) l = none := by decide +kernel

/-- A miss whose walk finds a leaf and one that finds none; an allocated fill; a line of a page that may be compact. -/
theorem test_meets_pages :
    (∀ p ∈ [1, 0x7000],
      let m : Miss := { ctx := 0, page := p, cores := [0] }
      let s : State := { mapped with dies := [{ tlb := [], misses := [m] }, { tlb := [], misses := [] }] }
      (s.die 0).misses = [m] ∧ (match s.walk 0 (p * 65536) with | .leaf x => p == 1 && x == giga | .bad w => p == 0x7000 && w == .invalid) = true) ∧
    (∀ dead ∈ [true, false],
      let x : L1Copy := { base := 0x20000, size := 128, data := List.replicate 128 0, tags := [0, 0, 0, 0], wts := 0, rts := 10, leased := true, dead := dead }
      let s := withCore { core with fills := [x], l1 := [{ x with base := 0x20080 }] }
      (s.core 0).fills.find? (fun x => x.base == 0x20000) = some x) ∧
    (let s : State := { mapped with mem := [(0x1000002, 1), (0x1000003, 1), (0x1000007, 0x80), (0x1010006, 0x41), (0x1010007, 0xC2)] }
     match s.walk 0 0x40000 with
     | .leaf x => (leafOf x).cp && (writeBackFmt (leafOf x).efmt).isSome && !inCtl 0x40000
     | _ => false) = true := by decide +kernel

/-- Rounds of one core and of the host, the last report of each; host accesses in the map, in its gap and above it. -/
def oneRound (drop report : List Nat) (w : Writer) : Round := { base := 0x20000, size := 128, writer := w, toDrop := drop, toReport := report, report := 5 }
theorem test_meets_rounds :
    (∀ r ∈ [oneRound [0] [0, 224] .device, oneRound [] [0, 224] .device, oneRound [] [0] .device, oneRound [] [0] (.host 0x20000 7)],
      let s : State := { idle with rounds := [r] }
      s.rounds.find? (fun x => x.base == 0x20000 && if r.toDrop = [] then x.toReport.contains 0 && !x.toDrop.contains 0 else x.toDrop.contains 0) = some r ∧
        r.size % 32 = 0 ∧ amWf Stamp.reset 0 s.stamps = true) ∧
    (physOk 0x20000 64 = true ∧ idle.readHeld none 0x20000 64 = false ∧ ∀ u ∈ unitsOf (idle.leafAt 0x20000).grain 0x20000 64, holdersOf idle u (idle.leafAt 0x20000).grain = []) ∧
    (let x : L1Copy := { base := 0x20000, size := 128, data := List.replicate 128 0, tags := [0, 0, 0, 0], wts := 0, rts := 10, leased := false, dead := false }
     let s : State := { withCore { core with l1 := [x] } with pages := [{ PageRec.fresh 0x20000 65536 with mapped := [(0, 0x10000)] }] }
     s.clsOf (s.leafAt 0x20000) ≠ 0 ∧ (∃ u ∈ unitsOf (s.leafAt 0x20000).grain 0x20000 64, holdersOf s u (s.leafAt 0x20000).grain ≠ []) ∧
       s.readHeld none 0x20000 64 = false ∧ s.serves = true) ∧
    (physOk 0x9000000000 64 = false ∧ 0x9000000000 + 64 ≤ 0x30000000000) ∧ 0x30000000000 < 0x30000000000 - 63 + 64 ∧
    ({ idle with rounds := [oneRound [0] [0] .device] } : State).readHeld none 0x20000 64 = true := by decide +kernel

/-! The hypotheses of the statements about placement, relocation, boot, power and the reserve. -/

/-- A window of one page that two cores wrote 64 times, and 63 times; a near page in its eighth calm window; a page held. -/
def windowed1 (frozen : Bool) (p : PageRec) : State :=
  { mapped with
    ctxs := [{ rooted with xtable := [3], windowEnd := 0 }], frozen := frozen, pages := [{ p with base := 0, size := 2 ^ 30, mapped := [(0, 0x10000)] }]
    mem := [(0x1000002, 1), (0x1000003, 1), (0x1000007, 0x80), (0x1010007, 0xC4)] }
theorem test_meets_windows : ∀ frozen ∈ [true, false], ∀ p ∈ [{ PageRec.fresh 0 0 with writers := [(0, 40), (1, 24)] },
    { PageRec.fresh 0 0 with writers := [(0, 40), (1, 23)] }, { PageRec.fresh 0 0 with cls := some 3, calm := 7 }],
    let s := windowed1 frozen p
    let x := s.ctxAt 0
    x.valid = true ∧ x.watched = true ∧ x.windowEnd ≤ s.cycle ∧ x.switchesOn = true ∧ s.pagePinned 0 = false ∧
      (s.pages.filter fun p => match p.mapped.head? with | some (c, _) => c == x.id | none => false).length = 1 ∧
      (match s.walk 0 0x10000 with | .leaf y => s.clsOf (leafOf y) == if p.cls = none then 2 else 3 | _ => false) = true := by decide +kernel

/-- A hot page of the tier and a cold page of HBM4, of 1 GiB each (R342). -/
def exchanging : State :=
  { mapped with
    ctxs := [{ rooted with xtable := [1] }], pages := [{ PageRec.fresh (2 ^ 40) (2 ^ 30) with last0 := 4096 }]
    mem := [(0x1000002, 1), (0x1000003, 1), (0x1000007, 0x80), (0x1010007, 0xC2), (0x101000D, 1), (0x101000F, 0xC2), (0x1010013, 0x40), (0x1010017, 0xC2)] }
def pageX : Movable :=
  { x := exchanging.ctxAt 0, l := leafOf { ctx := 0, va := 2 ^ 30, size := 2 ^ 30, leaf := 0xC200_0100_0000_0000 }, va := 2 ^ 30, slot := 0x1010008
    pg := { PageRec.fresh (2 ^ 40) (2 ^ 30) with last0 := 4096 } }
def pageY : Movable :=
  { x := exchanging.ctxAt 0, l := leafOf { ctx := 0, va := 2 ^ 31, size := 2 ^ 30, leaf := 0xC200_0000_4000_0000 }, va := 2 ^ 31, slot := 0x1010010
    pg := PageRec.fresh (2 ^ 30) (2 ^ 30) }
theorem test_meets_exchange :
    Memory.wf exchanging = true ∧ exchanging.movable 0 (2 ^ 30) = some pageX ∧ exchanging.movable 0 (2 ^ 31) = some pageY ∧
      exchanging.frozen = false ∧ worthMoving pageX pageY = true ∧ worthMoving pageY pageX = false ∧ exchanging.pageBusy (2 ^ 40) (2 ^ 30) = false ∧
      exchanging.pageBusy (2 ^ 30) (2 ^ 30) = false ∧ pageX.l.size = pageY.l.size ∧ pageX.l.pa ≠ pageY.l.pa := by decide +kernel

/-- Readings at R350's two bounds; the named site, the nearest spare one and the nearest free enabled one; a forwarding entry
with each kind of item, and an empty one. -/
def sited (f : Site → Site) : State :=
  { idle with sites := [f (Site.reset 0 0), { Site.reset 0 11 with core := none }, { Site.reset 0 1 with core := some 1 }]
              cores := [core, { core with teams := [] }] }
theorem test_meets_readings2 :
    (∀ hot ∈ [true, false], let s := sited fun x => { x with hot := hot }
      (s.sites.find? (fun y => y.v == 0)).isSome = true ∧ s.coreBusy 0 = true ∧ s.clsField 0 24 1 95 = 95 ∧ s.clsField 0 25 1 85 = 85) ∧
    (let s := sited id
     s.sites.find? (fun x => x.core == some 0) = some (Site.reset 0 0) ∧ (∃ x ∈ s.sites, x.v = 1 ∧ s.siteFree x = true) ∧
       s.target 0 none = some 17 ∧ ({ s with sites := [Site.reset 0 0, { Site.reset 0 1 with core := some 1 }] } : State).target 0 none = some 1 ∧
       ({ s with sites := [Site.reset 0 0] } : State).target 0 none = none) := by decide
def reloc (step : Nat) (target : Option Nat) (held : List HeldItem) : Reloc :=
  { core := 0, named := none, trigger := 0, target := target, step := step, held := held }
def moving (r : Reloc) (ops : List MatOp) : State :=
  { sited id with relocs := [r], cores := [{ core with ops := ops, teams := [{ team with lines := [(0, { Line.reset with pending := 1 })] }] }, { core with teams := [] }] }
theorem test_meets_forwarding : ∀ what ∈ ([.write 8 [1, 2] 0, .add 8 5 0, .lines [0]] : List Aimed),
    let h : HeldItem := { op := 7, ctx := 0, vtid := 0, grid := 0, what := what }
    let s := moving (reloc 5 (some 17) [h]) []
    s.relocs.find? (fun r => r.core == 0 && decide (5 ≤ r.step)) = some (reloc 5 (some 17) [h]) ∧ (s.findTeam 0 h.ctx h.vtid).isSome = true ∧
      (∀ t ∈ (s.core 0).teams, amWf Line.reset 0 t.lines = true ∧ amWf 0 0 t.scratch = true ∧ (t.line 0).pending = 1 ∧ t.lostIn 8 8 = false) := by decide
theorem test_meets_relocations :
    (let s := moving (reloc 1 none []) []
     s.relocs.find? (fun r => r.core == 0 && decide (r.step < 4)) = some (reloc 1 none []) ∧ s.switching 0 = false ∧ s.target 0 none = some 17) ∧
    (∀ st ∈ [.stopped, .running],
      let o := operation st (row 0 none [])
      let s := moving (reloc 3 (some 17) []) [o]
      s.relocs.find? (fun r => r.core == 0 && decide (r.step < 4)) = some (reloc 3 (some 17) []) ∧ s.targetGood 17 = true ∧ (s.core 0).ops = [o]) ∧
    (let s : State := { moving (reloc 1 none []) [] with sites := [Site.reset 0 0] }
     s.target 0 none = none) ∧
    (∀ failed ∈ [true, false],
      let s0 := moving (reloc 4 (some 17) []) []
      let s : State := { s0 with sites := s0.sites.map fun x => if x.v = 17 then { x with failed := failed } else x }
      s.relocs.find? (fun r => r.core == 0 && r.step == 4) = some (reloc 4 (some 17) []) ∧ s.siteOf 0 = 0 ∧ s.siteAt 0 = some (Site.reset 0 0) ∧
        (s.siteAt 17).isSome = true ∧ s.targetGood 17 = !failed ∧ (s.sites.Pairwise fun x y => x.v ≠ y.v ∧ (x.core = y.core → x.core = none)) ∧
        (failed = true → ({ s with sites := s.sites.map fun x => if x.v = 17 then { x with relocating := false } else x } : State).target 0 none = some 1)) := by
  decide

/-- Stages that are next and not next, and one whose version is too low; tokens in each of R379's cases. -/
def image (stage version : Nat) : BootImage := { stage := stage, bytes := [], key := [], sig := [], version := version }
theorem test_meets_boot : State.reset.mgmt.refused = false ∧ (image 1 0).stage = State.reset.mgmt.stage + 1 ∧ State.reset.mgmt.installed = [] ∧
    State.reset.mgmt.meas.length = 8 ∧ (∀ r ∈ State.reset.mgmt.meas, r.length = 32) ∧
    (let m : Mgmt := { Mgmt.reset with fuses := [1, 0, 0] }
     ¬ m.fuses.getD ((image 1 0).stage - 1) 0 ≤ (image 1 0).version ∧ m.fuses.getD ((image 1 1).stage - 1) 0 ≤ (image 1 1).version) := by decide
def token (seq nb na : Nat) : Token := { seq := seq, cap := 2000, rsvd := 0, nb := nb, na := na }
theorem test_meets_tokens2 :
    (∀ t ∈ [token 1 0 100, token 1 50 100, token 0 0 100, token 1 0 10], 600 ≤ t.cap ∧ t.cap ≤ 2400 ∧ t.rsvd = 0 ∧ t.nb < t.na) ∧
    (let m : Mgmt := { Mgmt.reset with time := some 11, pending := some (token 3 11 20), exp := 11, fallback := false, last := 2 }
     m.time = some 11 ∧ (∀ p, m.pending = some p → p.nb ≤ 11 ∧ 11 < p.na ∧ m.last < p.seq) ∧ ¬ 11 < m.exp) := by
  refine ⟨by decide, rfl, ?_, by decide⟩
  rintro p ⟨⟩
  decide

/-- A running package, one whose halt is complete, with the reserve released and not, and one entry to save. -/
def region : SaveEntry := { bytes := natBytes 0x10100 8 ++ natBytes 64 4 ++ List.replicate 20 0, charge := 4288, vtid := 0, size := 0 }
def failing (released : Bool) : State :=
  { mapped with
    power := .failing, ctxs := [{ rooted with mset := some [region], share := 100, hbase := 0, imgbase := 0 }]
    reserve := { Reserve.reset with charged := true, released := released } }
theorem test_meets_save : ∀ released ∈ [true, false],
    let s := failing released
    let x : SaveItem := { desc := 0, idx := 0, e := region }
    s.halted = true ∧ s.reserve.released = released ∧ amWf 0 0 s.reserve.vault = true ∧ s.saveItems = [x] ∧ x.view.be = false ∧ x.view.ts = false ∧
      x.view.rc = false ∧ s.skipReason x = none ∧ s.lost = [] ∧ 0 < x.view.len ∧ (s.ctxAt x.desc).id < 2 ^ 16 ∧
      bytesNat (amGetList 0 s.reserve.vault 0 8) < 2 ^ 64 - 1 ∧ s.physOf 0 0x10100 = some 0x10100 ∧ inCtl 0x10100 = false := by decide +kernel
theorem test_meets_power : idle.power = .on ∧ ({ idle with power := .down } : State).power = .down ∧ idle.halted = false ∧
    idle.team? 0 0 = some team ∧ team.halt = none ∧ (∀ k ∈ idle.cores, k.alops = []) ∧ idle.relocs = [] := by decide
/-- A report with a whole region, an absent one and a whole team; a core that takes the team back. -/
def reported (cls flags : Nat) : State :=
  let e : ReportEntry := { manifest := [0, 0, 0] ++ natBytes flags 1 ++ List.replicate 28 0, x := 64, cls := cls, reason := 0, chunks := 1, offset := 0x2000 }
  { emptySite with
    power := .on
    reserve := { Reserve.reset with
      report := some { epoch := 1, entries := [e], refused := false, haltIdx := 0, count := 0 }
      saved := [{ offset := 0x2000, team := { team with lines := [], groups := [{ group with threads := [thread] }], tiles := [] }, ops := [], bars := [], tiles := [] }] } }
theorem test_meets_restores :
    (∀ cls ∈ [0, 1, 2], ∀ flags ∈ [0, 1], ∃ r e, (reported cls flags).reserve.report = some r ∧ r.entries[0]? = some e ∧ e.cls = cls ∧
      entryTs e = (flags == 1)) ∧
    (let s := reported 0 1
     (s.ctxAt 0).valid = true ∧ (s.ctxAt 0).freeEntry = some 0 ∧ (s.reserve.saved.find? (fun x => x.offset == 0x2000)).isSome = true ∧
       s.pruneClusters.seatFor { team with tiles := [] } 0 0 = some (0, 0)) ∧
    ({ reported 0 1 with ctxs := [{ rooted with hcount := 0 }] } : State).reserve.report ≠ none ∧ ({ rooted with hcount := 0 } : Ctx).freeEntry = none := by
  refine ⟨fun cls hc flags hf => ⟨_, _, rfl, rfl, rfl, ?_⟩, by decide +kernel, by decide, by decide⟩
  revert cls flags; decide

/-- A byte that is not listed reads 0 (log 4). -/
theorem unlisted (a : Nat) : ∀ (l : List (Nat × Byte)), (∀ e ∈ l, e.1 ≠ a) → amGet 0 l a = 0
  | [], _ => rfl
  | (k, v) :: r, h => by
    rw [amGet, if_neg (fun x : a = k => h (k, v) (by simp) x.symm), unlisted a r fun e he => h e (by simp [he])]
    exact ite_self 0
/-- A table whose entries from n on are not listed, and the earlier ones of which lead nowhere. -/
theorem tables_miss (s : State) (lo hi k table n a b : Nat) (hd : ¬ (table < hi ∧ lo < table + 8 * 2 ^ lvBits (k + 1)))
    (hm : s.mem.all (fun e => decide (e.1 < a) || decide (b ≤ e.1)) = true) (ha : a ≤ table + 8 * n) (hb : table + 8 * 2 ^ lvBits (k + 1) ≤ b)
    (hs : ∀ i < n, (let e := s.read8 (table + 8 * i)
      bitOf e 63 && !entryBad (k + 1) e && !bitOf e 62 && s.tablesMeet lo hi k (fld e 8 36 * 256)) = false) :
    s.tablesMeet lo hi (k + 1) table = false := by
  have hd' : (decide (table < hi) && decide (lo < table + lvTable (k + 1))) = false := by
    rw [Bool.and_eq_false_iff, decide_eq_false_iff_not, decide_eq_false_iff_not, lvTable]
    omega
  rw [State.tablesMeet, hd', Bool.false_or, List.any_eq_false]
  intro i hi2
  rw [List.mem_range] at hi2
  rw [Bool.not_eq_true]
  by_cases h : i < n
  · exact hs i h
  · have z : ∀ x, table + 8 * i ≤ x → x < table + 8 * i + 8 → amGet 0 s.mem x = 0 := fun x h1 h2 => unlisted x _ fun e he => by
      have := List.all_eq_true.mp hm e he
      simp only [Bool.or_eq_true, decide_eq_true_eq] at this
      omega
    have : s.read8 (table + 8 * i) = 0 := by
      simp only [State.read8, State.readBytes, amGetList, bytesNat]
      rw [z _ (by omega) (by omega), z _ (by omega) (by omega), z _ (by omega) (by omega), z _ (by omega) (by omega), z _ (by omega) (by omega),
        z _ (by omega) (by omega), z _ (by omega) (by omega), z _ (by omega) (by omega)]
      rfl
    simp only [this]
    rfl
theorem exchange_tables (lo : Nat) (h : 2 ^ 30 ≤ lo) : exchanging.tablesMeet lo (lo + 2 ^ 30) 3 0x1000000 = false := by
  have below : exchanging.tablesMeet lo (lo + 2 ^ 30) 2 0x1010000 = false :=
    tables_miss exchanging lo _ 1 0x1010000 3 0x1010018 0x1020000 (by simp only [lvBits]; omega) (by decide +kernel) (by omega) (by decide) (by
      intro i hi
      have : ∀ i < 3, (let e := exchanging.read8 (0x1010000 + 8 * i); bitOf e 63 && !entryBad 2 e && !bitOf e 62) = false := by decide +kernel
      have := this i hi
      simp only at this ⊢
      rw [this, Bool.false_and])
  refine tables_miss exchanging lo _ 2 0x1000000 1 0x1000008 0x1010000 (by simp only [lvBits]; omega) (by decide +kernel) (by omega) (by decide) ?_
  intro i hi
  obtain rfl : i = 0 := by omega
  have e0 : exchanging.read8 (0x1000000 + 8 * 0) = 0x8000000001010000 := by decide +kernel
  simp only [e0]
  rw [show fld 0x8000000001010000 8 36 * 256 = 0x1010000 from by decide, below, Bool.and_false]
theorem test_meets_movable : exchanging.unmovable (2 ^ 40) (2 ^ 30) = false ∧ exchanging.unmovable (2 ^ 30) (2 ^ 30) = false := by
  have h : ∀ lo, 2 ^ 30 ≤ lo → (∀ x ∈ exchanging.ctxs, exchanging.tablesMeet lo (lo + 2 ^ 30) 3 x.root = false) := fun lo hl x hx => by
    obtain rfl : x = { rooted with xtable := [1] } := by simpa [exchanging] using hx
    exact exchange_tables lo hl
  constructor <;>
  · rw [State.unmovable, Bool.or_eq_false_iff, List.any_eq_false]
    refine ⟨by decide +kernel, fun x hx => ?_⟩
    rw [h _ (by norm_num) x hx]
    obtain rfl : x = { rooted with xtable := [1] } := by simpa [exchanging] using hx
    decide +kernel

/-! The hypotheses of the statements about the fabric, the step, numbers and words. -/

/-- A table whose one entry is admitted. -/
theorem test_meets_mset_admits :
    let s : State := { savable true 0 with mem := [(0x10102, 1), (0x10108, 64)] ++ tables }
    meets s hw { reads := names64 (.g 2) ++ names32 (.g 1), dests := [.g 4] } (fun e =>
      decide (saveOk ((List.range 32).map fun i => e.byteAt false (0x10100 + i)) = true) &&
        (e.taken 1 ((List.range 32).map fun i => e.byteAt false (0x10100 + i))).isRight) (sel := lowestOnly) = true := by decide +kernel

/-- A window over the thread's address, open and read-only; an import entry open and closed; a reduction window. -/
def window (ro : Bool) : FabWindow := { FabWindow.reset with en := true, size := 1, peer := 1, smask := 3, ro := ro }
def fabric (f : Fabric → Fabric) : State :=
  { small with fabric := f { Fabric.reset with enable := 1, trained := 1, windows := [[window false, FabWindow.reset]] }
               mem := [], cores := [{ core with tlb := [page] }] }
theorem test_meets_windows2 :
    (∀ ro ∈ [true, false], ∀ u ∈ ([{ reads := memNames glob, dests := [.g 4] }, { reads := memNames glob ++ [.g 4] }] : List Uses),
      let s := fabric fun f => { f with windows := [[window ro]] }
      meets s hw u (fun e => match e.ea glob 4 with
        | .ok a => !a.scratch && !a.ro && !a.xn && decide (e.th.fabDone = [] ∧ e.s.fabWindow e.t.desc a.addr = some (window ro))
        | _ => false) = true ∧
      (s.unstaged.views hw .named (fun l => l) bundle team).length = 1) ∧
    (∀ av ∈ [true, false], ∀ x ∈ ([({ reads := memNames glob, dests := pairNames 4 }, 8), ({ reads := memNames glob, dests := tupleNames 8 4 }, 16),
        ({ reads := memNames glob, dests := [.k 5] }, 4), ({ reads := memNames glob ++ pairNames 4 }, 8),
        ({ reads := memNames glob ++ [.g 4] ++ pairNames 6 }, 8)] : List (Uses × Nat)),
      meets (fabric id) (if av && !x.1.dests.isEmpty && x.2 != 4 then ht else hw) x.1 (fun e => match e.ea glob x.2 with
        | .ok a => !a.scratch && !a.ro && decide (e.th.fabDone = [] ∧ e.th.fabBad = none ∧ e.fabOpen = [] ∧
            e.s.fabWindow e.t.desc a.addr = some (window false))
        | _ => false) (sel := if x.1.dests = [.k 5] then lowestPerGroup else fun l => l) = true) ∧
    (∀ h ∈ [hw, ht], meets (fabric id) h { reads := memNames10 glob10 ++ atomNames .cas .n32 4, dests := dstTy .n32 4 } (fun e => match e.ea10 glob10 4 with
        | .ok a => !a.scratch && !a.ro && decide (e.th.fabDone = [] ∧ e.s.fabWindow e.t.desc a.addr = some (window false))
        | _ => false) = true) ∧
    (∀ i ∈ [0, 1], (((fabric id).fabric.windows.getD 0 []).getD i FabWindow.reset).smask = if i = 0 then 3 else 0) ∧
    (fabric id).fabric.enable.getLsbD 0 = true ∧ (fabric id).fabric.enable.getLsbD 1 = false ∧ (fabric id).fabric.reductions.length = 4 := by decide
def sent (who : FabWho) : FabReq :=
  { id := 5, who := who, lva := 0x10100, station := 0, peer := 1, pctx := 0, va := 0x10100, tag := 0, sup := true, op := .read 8, sent := 100 }
theorem test_meets_responses :
    (∀ who ∈ ([.load ⟨0, 0, 0, 0⟩, .tagged ⟨0, 0, 0, 0⟩ 1 (.scalar .n32 false 4), .write ⟨0, 0, 0, 0⟩] : List FabWho),
      let r := sent who
      let s : State := { withThread pending with fabric := { Fabric.reset with reqs := [r] }, cycle := 110100 }
      s.fabric.reqs.find? (fun x => x.id == r.id) = some r ∧ (s.fabric.reqs.Pairwise fun x y => x.id ≠ y.id) ∧ (s.thread? ⟨0, 0, 0, 0⟩).isSome = true ∧
        r.sent + 110000 ≤ s.cycle ∧ s.team? 0 0 = some { team with groups := [{ group with threads := [pending] }] }) ∧
    (let s : State := { idle with cycle := 110099 }
     s.cycle < (sent (.load ⟨0, 0, 0, 0⟩)).sent + 110000) := by decide
def incoming (op : FabOp) : FabIn := { station := 0, ctx := 0, va := 0x10100, tag := 0, sup := true, op := op }
def serving (openTo : Bool) (red : List RedWindow) : State :=
  { mapped with fabric := { Fabric.reset with enable := 1, trained := 1, imports := [(openTo, true)], reductions := red } }
/-- The checks that a request of n bytes at 0x10100 passes: the page, its tag, no lost granule, no round. -/
def sane (s : State) (n : Nat) : Bool := (pieces 0x10100 n).all fun p => [true, false].all fun w =>
  match s.checkNow 0 true p.1 w with
  | .ok l => decide ((∀ i < p.2, inCtl (l.phys p.1 + i) = false) ∧ s.gtag (l.phys p.1) = 0 ∧ s.lostIn (l.phys p.1) p.2 = none ∧
      s.readHeld none (l.phys p.1) p.2 = false ∧ s.awaitRound l (l.phys p.1) p.2 .device = none)
  | _ => false
theorem test_meets_requests :
    (∀ o ∈ [true, false], let s := serving o []
      s.fabric.up.getLsbD 0 = true ∧ s.fabric.up.getLsbD 1 = false ∧ (∀ x ∈ s.fabric.inbox, x.station ≠ 0) ∧ s.fabOpen (incoming .other) = o ∧
        Memory.wf s = true ∧ (∀ i < 8, s.redAt 0 (0x10100 + i) = none)) ∧
    (serving true []).works = true ∧ (serving true []).serves = true ∧
    (let s : State := { serving true [] with power := .failing, cores := [{ core with tlb := [giga], ops := [operation .stopping (row 1 none ones)] }], fabric := { (serving true []).fabric with inbox := [incoming .other] } }
     s.works = false ∧ s.serves = true ∧ incoming .other ∈ s.fabric.inbox) ∧
    sane (serving true []) 8 = true ∧ sane (serving true []) 256 = true ∧ sane (serving true []) 4 = true ∧
    (let r : RedWindow := { RedWindow.reset with en := true, vbase := 0x10100, len := 8, ty := 3 }
     let s := serving true [r]
     (∀ i < 8, s.redAt 0 (0x10100 + i) = some r) ∧ sane s 8 = true) := by decide +kernel

/-- A bundle with a word, with a word that does not decode, and with a failed fetch; an event of the agenda. -/
theorem test_meets_step :
    small.bundle = some bundle ∧ bundle.members = (0, 0) :: [] ∧
    decode 0x0080_0003_8000_0000_0000 = .ok (.nop hw) ∧ decode 0 = .error .reservedOpcode ∧
    ({ bundle with fetch := .bad 0x21 0 } : Bundle).fetch = .bad 0x21 0 ∧ ({ idle with agenda := [.powerFail] } : State).agenda = .powerFail :: [] := by decide
/-- The other hypotheses of the statements about switches, losses, contexts, saves, relocations, requests and restores. -/
theorem test_meets_teams :
    (∀ s ∈ [banked true (some 1) none [team, second], banked false (some 1) none [team]], s.works = true ∧
      ∀ x ∈ (s.core 0).teams, ∀ y ∈ (s.core 0).teams, x.id = y.id ∨ (x.ctx = y.ctx ∧ x.vtid = y.vtid) → x = y) ∧
    (banked true none none []).imageLost 1638400 (imageBytes true) = false ∧
    (idle.works = true ∧ idle.findTeam 0 0 0 = some team ∧ idle.spilled 0 0 0 = false ∧ (team.thread? 0 0).isSome = true ∧ 4 < team.nregs ∧
      8 < team.bytes ∧ idle.coreBusy 0 = true) ∧
    (let t := { team with tiles := [0, 1] }
     t.tiles[0]? = some 0 ∧ ((tiled block []).core 0).tiles[0]? = some tileA) := by decide
theorem test_meets_contexts :
    ({ idle with ctxs := [Ctx.reset] } : State).works = true ∧ Ctx.reset.xword = 0 ∧ memPart 64 64 = 64 ∧ idle.lostIn 64 64 = none ∧
    mapped.schedHeld 0 0x40000 8 = false ∧
    ({ mapped with rounds := [{ base := 0x40000, size := 128, writer := .device, toDrop := [0], toReport := [0], report := 0 }] } : State).schedHeld 0 0x40000 8 = true ∧
    mapped.serves = true ∧ mapped.works = true := by decide +kernel
theorem test_meets_saved :
    (let x : SaveItem := { desc := 0, idx := 0, e := region }
     x.idx < 256 ∧ 0x2000 + recordBytes x.view.len ≤ 0x80000000) ∧
    (let th : Thread := { pending with fabWrites := [5] }
     (withThread th).thread? ⟨0, 0, 0, 0⟩ = some th ∧ (sent (.write ⟨0, 0, 0, 0⟩)).id ∈ th.fabWrites) ∧
    (let h : Halt := { halt with cf := idle.cycle }
     (withTeam { team with halt := some h }).team? 0 0 = some { team with halt := some h } ∧ h.recorded = false) ∧
    (let s := moving (reloc 1 none []) []
     s.works = true ∧ s.target 0 none = some 17 ∧ (reloc 1 none []).held = [] ∧ s.pruneClusters.works = true) ∧
    (∀ n ∈ [0, 1], let s : State := { tiled block [operation .running (row 0 (some ([], [])) ones)] with sites := [{ Site.reset 0 0 with spareCols := n }] }
      s.power = .on ∧ (s.core 0).headOp = some (operation .running (row 0 (some ([], [])) ones)) ∧ s.spareCols 0 = n) := by decide +kernel
/-- Words for both round trips; finite values within a format's range; votes of a whole group. -/
theorem test_meets_words :
    (Instr.nop hw).wf = true ∧ encode (.nop hw) = some 0x0080_0003_8000_0000_0000 ∧ decode 0x0080_0003_8000_0000_0000 = .ok (.nop hw) ∧
    opcodeSlots.contains ((0 : IWord).extractLsb' 71 9).toNat = false ∧
    (∀ f ∈ floatFormats, (f.read 0).isNan = false ∧ (f.read f.maxc).isNan = false) ∧ 127 < 256 ∧ 127 % 64 = 63 ∧ 126 % 64 ≠ 63 ∧
    ((List.range 64).map fun i => if i = 3 then some (1 : Word) else none).any Option.isSome = true := by decide
theorem test_meets_numbers : |(FVal.fin true 1 0).rat| ≤ (f16.read f16.maxc).rat := by
  rw [show f16.read f16.maxc = .fin false 2047 5 from rfl]
  norm_num [FVal.rat]

/-! ## Results that the manual works out -/

/-- What a word of a lane with registers r, p1 true and k9 = 3 leaves in register n, or in predicate n: the value held until its
window closes. -/
def results (r : List Word) (w : IWord) : List RWrite :=
  let th : Thread := { thread with regs := r, preds := [false, true, false, false, false, false, false] }
  let s : State := { staged { team with groups := [{ group with k := (List.replicate 64 0).set 9 3, threads := [th] }] } with
    bundle := some { bundle with fetch := .word w } }
  match step s with
  | .next s' => match s'.thread? ⟨0, 0, 0, 0⟩ with
    | some th => (th.windows.map fun x => x.held).flatten
    | none => []
  | _ => []
def gives (r : List Word) (w : IWord) (n : Nat) : Option Word :=
  (results r w).findSome? fun y => match y with | .g m v => if m = n then some v else none | _ => none
def givesP (r : List Word) (w : IWord) (n : Nat) : Option Bool :=
  (results r w).findSome? fun y => match y with | .p m v => if m = n then some v else none | _ => none
/-- R108's examples: BSEL g4, g0, g1, g2. -/
theorem test_bsel :
    gives [0x44332211, 0x88776655, 0x0F070400, 0, 0, 0, 0, 0] 0x1F80_0003_8200_0080_4000 4 = some 0xFF885511 ∧
    gives [0x44332211, 0x88776655, 0x18000C05, 0, 0, 0, 0, 0] 0x1F80_0003_8200_0080_4000 4 = some 0xFF110066 := by decide +kernel
/-- R104's example: (p1) ICMP.lt.s32 p2|p3, g4, k9 with g4 = −5 and k9 = 3; and with g4 = 3. -/
theorem test_icmp :
    (let r : List Word := [0, 0, 0, 0, 0xFFFFFFFB, 0, 0, 0]
     givesP r 0x0CC0_0000_8102_04A0_0B00 2 = some true ∧ givesP r 0x0CC0_0000_8102_04A0_0B00 3 = some false) ∧
    givesP [0, 0, 0, 0, 3, 0, 0, 0] 0x0CC0_0000_8102_04A0_0B00 2 = some false := by decide +kernel
/-- R103: 32-bit addition wraps: IADD.n32 g4, g0, g1 with 0xFFFFFFFF and 2. -/
theorem test_iadd_wraps : gives [0xFFFFFFFF, 2, 0, 0, 0, 0, 0, 0] 0x0801_0003_8200_0080_0000 4 = some 1 := by decide +kernel
/-- R48's table: an element of a block with scale byte 0x5E, and the tie rule of the other types. -/
theorem test_quantise :
    b4Quant (.fin false 5 (-3)) 0x5E = 0b0100 ∧ b4Quant (.fin true 5 (-2)) 0x5E = 0b1110 ∧ b4Quant (.fin false 2 0) 0x5E = 0b0111 ∧
    b4Quant (f32.read 0x3DCCCCCD) 0x5E = 0b0001 ∧ b4Quant (f32.read 0xBD4CCCCD) 0x5E = 0b0000 ∧ b4Quant .nan 0x5E = 0 ∧
    b4Quant (.fin true 5 (-2)) 0x5F = 0b1100 ∧ b4Scale 1 (.fin false 3 0) = 0x5F := by decide +kernel
/-- R60's example: three steps with weights 2^60, 2^36 and 1.0, then −1.0, then two steps. -/
def one (w : Nat) : KStep := kStep .s8 .f32 (1, 0) (w, 0)
theorem test_fold :
    foldFloat 0 (blockFloat [one 0x5D800000, one 0x51800000, one 0x3F800000]) = 0x5D800001 ∧
    foldFloat 0 (blockFloat [one 0x5D800000, one 0x51800000, one 0xBF800000]) = 0x5D800000 ∧
    foldFloat 0 (blockFloat [one 0x5D800000, one 0x51800000]) = 0x5D800000 := by decide +kernel
/-- R38 and R57 at the edge half-way between the largest .f32 value and 2^128. -/
theorem test_overflow :
    foldFloat 0x7F7FFFFF (.fin 1 103 false) = 0x7F800000 ∧ foldFloat 0x7F7FFFFF (.fin 1 102 true) = 0x7F7FFFFF ∧
    foldFloat 0xFF7FFFFF (.fin (-1) 103 true) = 0xFF7FFFFF ∧ foldFloat 0xFF7FFFFF (.fin (-1) 103 false) = 0xFF800000 ∧
    f32.write .rtz (.fin false 1 200) = 0x7F7FFFFF ∧ f32.write .rup (.fin true 1 200) = 0xFF7FFFFF ∧ f32.write .rdn (.fin true 1 200) = 0xFF800000 ∧
    e4m3.read (e4m3.write .rne (.fin true 1 20)) = e4m3.read (e4m3.write .rtz (.fin true 449 0)) := by decide +kernel
/-- R219's example: D = 1, 0 and 15; R220's bounds. -/
theorem test_model_time :
    let costs := [[1, 2, 0, 0, 3, 1, 0, 4], [2, 0, 1, 1, 0, 0, 4, 3]]
    modelTime 1 2 8 costs = 29 ∧ modelTime 0 2 8 costs = 34 ∧ modelTime 15 2 8 costs = 27 ∧ boundW .s8 false 8 false 0 = 50 ∧
    boundW .e4m3 false 100 true 12 = 337 ∧ boundW .bf16 false 128 false 0 = 664 := by decide +kernel
/-- R271's example of a compact line, and the line of 128 elements of −85 that stays dense. -/
theorem test_compact_line :
    compactLine .s8 ([3, 0, 0, 0, 0, 0xFF, 0, 0, 0, 0x64] ++ List.replicate 118 0) [] =
      some ([1, 0x10, 6, 0, 0, 0, 0, 0, 0x21, 2] ++ List.replicate 14 0 ++ [0x21, 0x82, 0x78, 0x2D, 0, 0, 0, 0]) ∧
    compactLine .s8 (List.replicate 128 0xAB) [] = none := by decide +kernel
/-- R124's example: the tree gives 1.0, where a sum from left to right gives 0; with lane 2 out, +0. -/
theorem test_redx_tree :
    let l : List (Option Word) := [some 0x3F800000, some 0x4B800000, some 0x3F800000, some 0xCB800000] ++ List.replicate 60 none
    tree64 (redxOp .add .rne .f32) l = some 0x3F800000 ∧ tree64 (redxOp .add .rne .f32) (l.set 2 none) = some 0 := by decide +kernel
/-- R379: a token applied in the millisecond of an earlier one's expiry takes effect before the expiry test. -/
theorem test_token_before_expiry :
    let m : Mgmt := { Mgmt.reset with time := some 11, pending := some (token 3 11 20), exp := 11, fallback := false, last := 2, cap := 700 }
    (match exec .tokenTick { idle with mgmt := m } with | .next s => (s.mgmt.cap, s.mgmt.fallback, s.mgmt.exp) | _ => (0, true, 0)) = (2000, false, 20) := by
  decide +kernel
/-- R379: a pending token that is past its end is discarded in the millisecond in which the cap falls to the floor. -/
theorem test_token_too_late :
    let m : Mgmt := { Mgmt.reset with time := some 11, pending := some (token 3 5 8), exp := 11, fallback := false, last := 2, cap := 700 }
    (match exec .tokenTick { idle with mgmt := m } with | .next s => (s.mgmt.cap, s.mgmt.fallback, s.mgmt.pending) | _ => (0, false, none)) =
      (1200, true, none) := by decide +kernel
/-- R14's order: an unknown opcode takes cause 0x01 (R74). -/
theorem test_reserved_opcode : (match step { small with bundle := some { bundle with fetch := .word 0 } } with
    | .next s => (s.team? 0 0).bind fun t => t.halt.map fun h => h.cause
    | _ => none) = some 1 := by decide +kernel
/-- The first instruction after reset, placed where step fetches it: the examples of spec 04 (ICMP), 05 (LD) and 14 (LNCH). -/
theorem test_first_word : ∀ w ∈ [0x0CC0_0000_8102_04A0_0B00, 0x6028_5003_8301_049C_4010, 0x9000_0003_8006_0040_0002],
    (decodeTableWord 80 w).isSome = true ∧ (match step (State.reset.withFetchWord 80 w) with | .next s => s.bundle.isNone | _ => false) = true := by
  decide +kernel

end Sys2Proof.Tests
end

/-! PROOF. Loads (O17): what a read leaves of the state, the elements of an access, its checks, a lane's load and its register
image. -/

namespace Sys2Proof.Machine

/-! ## What a read leaves of the state (R264) -/

/-- The step from s to s' only reads memory: nothing but what the memory system keeps of it has changed, and no core has got an L1
copy that it did not have. -/
def Reads (s s' : State) : Prop := SameMemory s s' ∧ ∀ c, ∀ x ∈ (s'.core c).l1, x ∈ (s.core c).l1

theorem Reads.refl (s : State) : Reads s s := ⟨⟨rfl, rfl, rfl, rfl⟩, fun _ _ hx => hx⟩

theorem Reads.trans {s t u : State} (h : Reads s t) (k : Reads t u) : Reads s u := by
  obtain ⟨⟨hs, hm, hg, hl⟩, hc⟩ := h
  obtain ⟨⟨ks, km, kg, kl⟩, kc⟩ := k
  exact ⟨⟨ks.trans hs, km.trans hm, kg.trans hg, kl.trans hl⟩, fun c x hx => hc c x (kc c x hx)⟩

theorem Reads.machine {s s' : State} (h : Reads s s') : SameMachine s s' := h.1.1
theorem Reads.mem {s s' : State} (h : Reads s s') : s'.mem = s.mem := h.1.2.1
theorem Reads.lost {s s' : State} (h : Reads s s') : s'.lost = s.lost := h.1.2.2.2

/-- A state that agrees with s but for its time stamps and page records. -/
theorem reads_stamps_pages (s : State) (st : List (Nat × Stamp)) (pg : List PageRec) : Reads s { s with stamps := st, pages := pg } :=
  ⟨⟨rfl, rfl, rfl, rfl⟩, fun _ _ hx => hx⟩

/-- A change of one core that touches its copies of memory only, and adds none to its L1. -/
theorem reads_updCore (s : State) (c : Nat) {f : Core → Core} (hf : ∀ k, (f k).sansCopies = k.sansCopies)
    (hl : ∀ k, ∀ x ∈ (f k).l1, x ∈ k.l1) : Reads s (s.updCore c f) := by
  have hcores : (updAt s.cores c f).map Core.sansCopies = s.cores.map Core.sansCopies := by
    apply List.ext_getElem?
    intro n
    rw [List.getElem?_map, List.getElem?_map, updAt_getElem?]
    split
    · cases s.cores[n]? <;> simp [hf]
    · rfl
  refine ⟨⟨?_, rfl, rfl, rfl⟩, fun d x hx => ?_⟩
  · simp only [SameMachine, State.sansMemory, State.updCore, hcores]
  · simp only [State.core, State.updCore, List.getD_eq_getElem?_getD, updAt_getElem?] at hx ⊢
    split at hx
    · cases hk : s.cores[d]? with
      | none => simpa [hk] using hx
      | some k =>
        rw [hk] at hx
        exact hl k x hx
    · exact hx

theorem reads_updPage (s : State) (l : Leaf) (f : PageRec → PageRec) : Reads s (s.updPage l f) := by
  unfold State.updPage
  split <;> exact reads_stamps_pages s s.stamps _

theorem reads_demote (s : State) (p : PageRec) : Reads s (s.demote p) := by
  unfold State.demote
  cases p.owner with
  | none => exact reads_stamps_pages s s.stamps _
  | some o =>
    have hdrop := reads_updCore s o (f := fun k => k.dropL1 p.base p.size) (fun _ => rfl) fun _ _ hx => (List.mem_filter.mp hx).1
    exact hdrop.trans (reads_stamps_pages _ _ _)

theorem reads_claim (s : State) (l : Leaf) (c : Nat) : Reads s (s.claim l (some c)) := by
  unfold State.claim
  split
  · split
    · split
      · split
        · exact Reads.refl s
        · exact reads_demote s _
      · exact reads_updPage s l _
    · split
      · exact Reads.refl s
      · exact reads_demote s _
    · exact reads_updPage s l _
    · exact (reads_updPage s l _).trans (reads_demote _ _)
  · exact Reads.refl s

theorem reads_note (s : State) (ctx : Nat) (l : Leaf) (a : Option Nat) (w : Bool) : Reads s (s.note ctx l a w) := by
  unfold State.note
  split
  · split
    · exact reads_updPage s l _
    · exact reads_stamps_pages s s.stamps _
  · exact reads_stamps_pages s s.stamps _

theorem reads_readEvent (s : State) (l : Leaf) (pa clock : Nat) : Reads s (s.readEvent l pa clock).2 := by
  unfold State.readEvent
  split
  · exact reads_stamps_pages s _ s.pages
  · exact reads_stamps_pages s _ s.pages
  · exact Reads.refl s

theorem reads_renew (s : State) (c : Nat) (l : Leaf) (pa clock : Nat) : Reads s (s.renew c l pa clock) := by
  unfold State.renew
  simp only
  split
  · exact reads_stamps_pages s _ s.pages
  · exact Reads.refl s

theorem reads_loadAt (s : State) (c ctx : Nat) (l : Leaf) (pa n whole clock : Nat) (l1 keep : Bool) :
    Reads s (s.loadAt c ctx l pa n whole clock l1 keep).2.2 := by
  have hnote := (reads_claim s l c).trans (reads_note _ ctx l (some c) false)
  unfold State.loadAt
  split
  · exact Reads.refl s
  · generalize (s.claim l (some c)).note ctx l (some c) false = s1 at hnote ⊢
    have hread := hnote.trans (reads_readEvent s1 l pa clock)
    simp only
    generalize (s1.readEvent l pa clock).2 = s2 at hread ⊢
    have hrenew := hread.trans (reads_renew s2 c l pa clock)
    generalize s2.renew c l pa clock = s3 at hrenew ⊢
    split
    · exact hread
    · split
      · exact hrenew.trans (reads_updCore _ c (fun _ => rfl) fun _ _ hx => hx)
      · exact hrenew

/-! ### What a state that a read leaves still says -/

theorem SameMachine.core {s s' : State} (h : SameMachine s s') (c : Nat) : (s'.core c).sansCopies = (s.core c).sansCopies := by
  have hcores : s'.cores.map Core.sansCopies = s.cores.map Core.sansCopies := (congrArg State.cores h :)
  calc (s'.core c).sansCopies = (s'.cores.map Core.sansCopies).getD c Core.reset.sansCopies := (List.getD_map _ _ _).symm
    _ = (s.cores.map Core.sansCopies).getD c Core.reset.sansCopies := by rw [hcores]
    _ = (s.core c).sansCopies := List.getD_map _ _ _

theorem SameMachine.cycle {s s' : State} (h : SameMachine s s') : s'.cycle = s.cycle := (congrArg State.cycle h :)

theorem SameMachine.team? {s s' : State} (h : SameMachine s s') (c id : Nat) : s'.team? c id = s.team? c id := by
  have hteams : (s'.core c).teams = (s.core c).teams := (congrArg Core.teams (h.core c) :)
  simp only [State.team?, Core.team?, hteams]

/-- A translation that a TLB holds is found again after a read (R307). -/
theorem SameMachine.hitLeaf {s s' : State} (h : SameMachine s s') (c ctx va : Nat) : s'.hitLeaf c ctx va = s.hitLeaf c ctx va := by
  have htlb : (s'.core c).tlb = (s.core c).tlb := (congrArg Core.tlb (h.core c) :)
  have hbad : (s'.core c).bad = (s.core c).bad := (congrArg Core.bad (h.core c) :)
  have hdies : s'.dies = s.dies := (congrArg State.dies h :)
  have hsites : s'.sites = s.sites := (congrArg State.sites h :)
  simp only [State.hitLeaf, State.translate, htlb, hbad, State.die, State.dieOf, State.siteOf, hdies, hsites]
  cases ((s.core c).tlb ++ _).find? _ with
  | some x => rfl
  | none =>
    cases (s.core c).bad.find? _ with
    | none => rfl
    | some b => cases s'.walk ctx va <;> cases s.walk ctx va <;> rfl

theorem Reads.uncopied {s s' : State} (h : Reads s s') {c pa n : Nat} (hu : s.uncopied c pa n) : s'.uncopied c pa n :=
  fun x hx => hu x (h.2 c x hx)

theorem uncopied_sub {s : State} {c pa n pa' n' : Nat} (hu : s.uncopied c pa n) (hlo : pa ≤ pa') (hhi : pa' + n' ≤ pa + n) :
    s.uncopied c pa' n' := by
  intro x hx
  have := hu x hx
  omega

theorem l1Copy_none_of_uncopied {s : State} {c pa n : Nat} (hu : s.uncopied c pa n) (hn : 0 < n) (clock : Nat) :
    s.l1Copy c pa clock = none := by
  simp only [State.l1Copy, List.find?_eq_none, Bool.and_eq_true, decide_eq_true_eq]
  rintro x hx ⟨⟨⟨hlo, hhi⟩, -⟩, -⟩
  have := hu x hx
  omega

theorem lostIn_none_iff {s : State} {pa n : Nat} : s.lostIn pa n = none ↔ ∀ g ∈ granulesOf pa n, g ∉ s.lost := by
  simp [State.lostIn, List.find?_eq_none]

theorem mem_granulesOf {pa n g : Nat} : g ∈ granulesOf pa n ↔ 0 < n ∧ pa / 32 ≤ g ∧ g ≤ (pa + n - 1) / 32 := by
  unfold granulesOf
  split
  · simp; omega
  · simp only [List.mem_map, List.mem_range]
    constructor
    · rintro ⟨i, hi, rfl⟩; omega
    · rintro ⟨_, hlo, hhi⟩; exact ⟨g - pa / 32, by omega, by omega⟩

theorem lostIn_none_sub {s : State} {pa n pa' n' : Nat} (h : s.lostIn pa n = none) (hlo : pa ≤ pa') (hhi : pa' + n' ≤ pa + n) :
    s.lostIn pa' n' = none := by
  rw [lostIn_none_iff] at h ⊢
  intro g hg
  rw [mem_granulesOf] at hg
  exact h g (mem_granulesOf.mpr (by omega))

theorem amGetList_add {α : Type} (d : α) (m : List (Nat × α)) (a k n : Nat) :
    amGetList d m a (k + n) = amGetList d m a k ++ amGetList d m (a + k) n := by
  simp [amGetList_eq, List.range_add, Nat.add_assoc]

/-! ### The bytes of one read event -/

theorem loadAt_uncopied {s : State} {c pa n : Nat} (hu : s.uncopied c pa n) (hn : 0 < n) (hctl : inCtl pa = false)
    (ctx : Nat) (l : Leaf) (whole clock : Nat) (l1 keep : Bool) :
    (s.loadAt c ctx l pa n whole clock l1 keep).1 = s.readBytes pa n := by
  have hread := ((reads_claim s l c).trans (reads_note _ ctx l (some c) false)).trans (reads_readEvent _ l pa clock)
  simp only [State.loadAt, l1Copy_none_of_uncopied hu hn, ite_self, hctl, Bool.false_eq_true, if_false]
  split <;> simp only [State.readBytes, hread.mem]

theorem loadAt_copied {s : State} {c pa clock : Nat} {l : Leaf} {x : L1Copy} (hx : s.l1Copy c pa clock = some x)
    (hcls : s.clsOf l ≠ 3) (ctx n whole : Nat) (keep : Bool) :
    (s.loadAt c ctx l pa n whole clock true keep).1 = slice x.data (pa - x.base) n := by
  simp only [State.loadAt, hx, Bool.true_and, decide_eq_true hcls, if_true]

/-! ## The elements of an access -/

section
variable {e : Env} {a : Ea} {w whole : Nat} {l1 keep : Bool}

theorem readElems_global {s : State} {l : Leaf} (ha : a.scratch = false) (hl : s.hitLeaf e.b.core e.t.ctx a.addr = some l)
    (n o k : Nat) :
    e.readElems a w whole l1 keep (n + 1) o s k =
      let x := s.loadAt e.b.core e.t.ctx l (l.phys a.addr + o) w whole k l1 keep
      let r := e.readElems a w whole l1 keep n (o + w) x.2.2 (Nat.max k x.2.1)
      (x.1 ++ r.1, r.2.1,
        ((s.lostIn (l.phys a.addr + o) w).isSome && !(l1 && decide (s.clsOf l ≠ 3) &&
          (s.l1Copy e.b.core (l.phys a.addr + o) k).isSome)) || r.2.2.1, r.2.2.2) := by
  simp only [Env.readElems, ha, hl, Bool.false_eq_true, if_false]

theorem readElems_unmapped {s : State} (ha : a.scratch = false) (hl : s.hitLeaf e.b.core e.t.ctx a.addr = none) (n o k : Nat) :
    e.readElems a w whole l1 keep (n + 1) o s k = e.readElems a w whole l1 keep n (o + w) s k := by
  simp only [Env.readElems, ha, hl, Bool.false_eq_true, if_false, List.nil_append, Bool.false_or]

theorem readElems_scratch {s : State} {t : Team} (ha : a.scratch = true) (ht : s.team? e.b.core e.b.team = some t) (n o k : Nat) :
    e.readElems a w whole l1 keep (n + 1) o s k =
      let x := t.scratchEvent (a.addr + o) w k false
      let r := e.readElems a w whole l1 keep n (o + w) (s.updTeam e.b.core e.b.team fun _ => x.2) (Nat.max k x.1)
      (t.scratchRead (a.addr + o) w ++ r.1, r.2.1, r.2.2.1, r.2.2.2) := by
  simp only [Env.readElems, ha, ht, if_true, Bool.false_or]

/-- Time does not run back while the elements are read (R140, R263). -/
theorem readElems_clock_le : ∀ (n o : Nat) (s : State) (k : Nat), k ≤ (e.readElems a w whole l1 keep n o s k).2.1
  | 0, _, _, k => Nat.le_refl k
  | n + 1, o, s, k => by
    unfold Env.readElems
    refine Nat.le_trans ?_ (readElems_clock_le n (o + w) _ _)
    split
    · cases s.team? e.b.core e.b.team with
      | none => exact Nat.le_refl k
      | some t => exact Nat.le_max_left _ _
    · cases s.hitLeaf e.b.core e.t.ctx a.addr with
      | none => exact Nat.le_refl k
      | some l => exact Nat.le_max_left _ _

theorem readElems_reads (ha : a.scratch = false) : ∀ (n o : Nat) (s : State) (k : Nat),
    Reads s (e.readElems a w whole l1 keep n o s k).2.2.2
  | 0, _, s, _ => Reads.refl s
  | n + 1, o, s, k => by
    cases hl : s.hitLeaf e.b.core e.t.ctx a.addr with
    | none =>
      rw [readElems_unmapped ha hl]
      exact readElems_reads ha n (o + w) s k
    | some l =>
      rw [readElems_global ha hl]
      exact (reads_loadAt ..).trans (readElems_reads ha n (o + w) _ _)

/-- Elements that no L1 copy serves come from memory, one after the other. -/
theorem readElems_uncopied {l : Leaf} (ha : a.scratch = false) (hw : 0 < w) : ∀ (n o : Nat) (s : State) (k : Nat),
    s.hitLeaf e.b.core e.t.ctx a.addr = some l → plain (l.phys a.addr + o) (w * n) →
    s.uncopied e.b.core (l.phys a.addr + o) (w * n) →
    (e.readElems a w whole l1 keep n o s k).1 = s.readBytes (l.phys a.addr + o) (w * n)
  | 0, _, _, _, _, _, _ => rfl
  | n + 1, o, s, k, hl, hp, hu => by
    rw [Nat.mul_succ, Nat.add_comm (w * n)] at hp hu ⊢
    have hread := reads_loadAt s e.b.core e.t.ctx l (l.phys a.addr + o) w whole k l1 keep
    have hctl : inCtl (l.phys a.addr + o) = false := hp 0 (by omega)
    have hp' : plain (l.phys a.addr + (o + w)) (w * n) := by
      intro i hi
      rw [show l.phys a.addr + (o + w) + i = l.phys a.addr + o + (w + i) by omega]
      exact hp (w + i) (by omega)
    have hhead := loadAt_uncopied (uncopied_sub hu (Nat.le_refl _) (by omega)) hw hctl e.t.ctx l whole k l1 keep
    have htail := readElems_uncopied ha hw n (o + w) _ (Nat.max k (s.loadAt e.b.core e.t.ctx l (l.phys a.addr + o) w whole k l1 keep).2.1)
      ((hread.machine.hitLeaf ..).trans hl) hp' (hread.uncopied (uncopied_sub hu (by omega) (by omega)))
    rw [readElems_global ha hl]
    simp only [hhead, htail, State.readBytes, hread.mem, amGetList_add, Nat.add_assoc]

/-- No byte of elements that lie in no lost granule is lost (R321). -/
theorem readElems_lost {l : Leaf} (ha : a.scratch = false) : ∀ (n o : Nat) (s : State) (k : Nat),
    s.hitLeaf e.b.core e.t.ctx a.addr = some l → s.lostIn (l.phys a.addr + o) (w * n) = none →
    (e.readElems a w whole l1 keep n o s k).2.2.1 = false
  | 0, _, _, _, _, _ => rfl
  | n + 1, o, s, k, hl, hno => by
    rw [Nat.mul_succ, Nat.add_comm (w * n)] at hno
    have hread := reads_loadAt s e.b.core e.t.ctx l (l.phys a.addr + o) w whole k l1 keep
    have hhead : s.lostIn (l.phys a.addr + o) w = none := lostIn_none_sub hno (Nat.le_refl _) (by omega)
    have hrest : s.lostIn (l.phys a.addr + (o + w)) (w * n) = none := lostIn_none_sub hno (by omega) (by omega)
    rw [readElems_global ha hl]
    simp only [hhead, Option.isSome_none, Bool.false_and, Bool.false_or]
    refine readElems_lost ha n (o + w) _ _ ((hread.machine.hitLeaf ..).trans hl) ?_
    simpa only [State.lostIn, hread.lost] using hrest

/-- A single element that an L1 copy serves comes from the copy (R177, R264). -/
theorem readElems_copied {s : State} {l : Leaf} {x : L1Copy} {k : Nat} (ha : a.scratch = false)
    (hl : s.hitLeaf e.b.core e.t.ctx a.addr = some l) (hcls : s.clsOf l ≠ 3)
    (hx : s.l1Copy e.b.core (l.phys a.addr) k = some x) :
    (e.readElems a w whole true keep 1 0 s k).1 = slice x.data (l.phys a.addr - x.base) w := by
  rw [readElems_global ha hl]
  simpa only [Env.readElems, List.append_nil, Nat.add_zero] using loadAt_copied hx hcls e.t.ctx w whole keep

/-! ### In the scratchpad -/

theorem scratchEvent_lines (t : Team) (o n clock : Nat) (write : Bool) :
    ∃ ls, (t.scratchEvent o n clock write).2 = { t with lines := ls } := by
  unfold Team.scratchEvent
  simp only
  generalize (List.range _).map _ = is
  generalize is.foldl _ clock = x
  induction is generalizing t with
  | nil => exact ⟨t.lines, rfl⟩
  | cons i r ih =>
    obtain ⟨ls, h⟩ := ih (t.setLine i _)
    exact ⟨ls, h⟩

/-- Elements of a team's scratchpad are its bytes; of the team only the stamps of its lines change. -/
theorem readElems_scratch_eq (ha : a.scratch = true) : ∀ (n o : Nat) (s : State) (t : Team) (k : Nat),
    s.team? e.b.core e.b.team = some t →
    ∃ ls, (e.readElems a w whole l1 keep (n + 1) o s k).1 = t.scratchRead (a.addr + o) (w * (n + 1)) ∧
      (e.readElems a w whole l1 keep (n + 1) o s k).2.2.1 = false ∧
      (e.readElems a w whole l1 keep (n + 1) o s k).2.2.2 = s.updTeam e.b.core e.b.team fun _ => { t with lines := ls }
  | 0, o, s, t, k, ht => by
    obtain ⟨ls, hls⟩ := scratchEvent_lines t (a.addr + o) w k false
    rw [readElems_scratch ha ht]
    simp only [Env.readElems, hls, List.append_nil, Nat.zero_add, Nat.mul_one]
    exact ⟨ls, trivial, trivial, rfl⟩
  | n + 1, o, s, t, k, ht => by
    obtain ⟨ls, hls⟩ := scratchEvent_lines t (a.addr + o) w k false
    have hid : t.id = e.b.team := team?_id ht
    have ht' : (s.updTeam e.b.core e.b.team fun _ => { t with lines := ls }).team? e.b.core e.b.team =
        some { t with lines := ls } := updTeam_team? ht (f := fun _ => { t with lines := ls }) fun _ _ => hid
    obtain ⟨ls', hbytes, hlost, hstate⟩ := readElems_scratch_eq ha n (o + w) _ _
      (Nat.max k (t.scratchEvent (a.addr + o) w k false).1) ht'
    refine ⟨ls', ?_⟩
    rw [readElems_scratch ha ht]
    simp only [hls, hbytes, hlost, hstate]
    refine ⟨?_, trivial, ?_⟩
    · rw [Nat.mul_succ w (n + 1), Nat.add_comm (w * (n + 1)) w]
      simp only [Team.scratchRead, amGetList_add, Nat.add_assoc]
    · exact updTeam_updTeam _ _ _ _ _ fun _ _ => hid

end

/-! ## The checks of an access that may be made -/

theorem chkScratch_ok {e : Env} {o n : Nat} {reads : Bool}
    (hpresent : ∀ i, o / 128 ≤ i → i ≤ (o + n - 1) / 128 → (e.t.line i).present = true)
    (hlost : reads = true → e.t.lostIn o n = false) : e.chkScratch o n reads = .ok := by
  have habsent : e.t.absentLine o n = none := by
    simp only [Team.absentLine, List.find?_eq_none, List.mem_map, List.mem_range]
    rintro _ ⟨i, hi, rfl⟩
    simp [hpresent (o / 128 + i) (by omega) (by omega)]
  simp only [Env.chkScratch, habsent]
  cases reads with
  | false => simp
  | true => simp [hlost rfl]

theorem checkPage_ok {s : State} {c ctx va : Nat} {sup write ro : Bool} {l : Leaf} (hl : s.translate c ctx va = .hit l)
    (hsup : l.sup = true → sup = true) (hro : write = true → l.ro = false ∧ ro = false) :
    s.checkPage c ctx sup va write ro = .ok l := by
  have h1 : (l.sup && !sup) = false := by
    cases h : l.sup with
    | false => rfl
    | true => simp [hsup h]
  have h2 : (write && (l.ro || ro)) = false := by
    cases h : write with
    | false => rfl
    | true => simp [hro h]
  simp only [State.checkPage, hl, permOf, h1, h2, Bool.false_eq_true, if_false]

theorem chkGlobal_ok {e : Env} {a : Ea} {n : Nat} {m : Mode} (h : e.allows a n m) : e.chkGlobal a n m = .ok := by
  obtain ⟨l, hl, hsup, hro, hsteps, hwrite⟩ := h
  simp only [Env.chkGlobal, checkPage_ok hl hsup hro]
  generalize e.s.unitSteps e.b.core l _ _ e.th.clock = steps at hsteps ⊢
  have htags : (!m.notag && steps.any fun x => e.s.tagsDiffer e.b.core x.1 x.2.1 x.2.2.1 x.2.2.2 a.tag) = false := by
    cases hm : m.notag with
    | true => rfl
    | false =>
      simp only [Bool.not_false, Bool.true_and, List.any_eq_false, State.tagsDiffer]
      intro x hx
      simpa using (hsteps x hx).1 hm
  have hlost : (m.reads && !m.tagged && steps.any fun x => !x.2.2.2 && (e.s.lostIn x.1 x.2.1).isSome) = false := by
    cases hr : m.reads with
    | false => rfl
    | true =>
      cases ht : m.tagged with
      | true => rfl
      | false =>
        simp only [Bool.not_false, Bool.true_and, List.any_eq_false]
        intro x hx
        cases hc : x.2.2.2 with
        | true => simp
        | false => simp [(hsteps x hx).2.1 hr ht hc]
  simp only [htags, hlost, Bool.false_eq_true, if_false]
  cases hw : m.writes with
  | true => simp [hwrite hw]
  | false =>
    have hheld : (steps.filter fun x => !x.2.2.2 && e.s.roundHolds (.thread e.b.core e.b.team) x.1 x.2.1) = [] := by
      rw [List.filter_eq_nil_iff]
      intro x hx
      cases hc : x.2.2.2 with
      | true => simp
      | false => simp [(hsteps x hx).2.2 hw hc]
    simp [hheld]

/-- An access that a thread may make is none to the fabric. -/
theorem window_none_of_mayAccess {e : Env} {a : Ea} {n : Nat} {m : Mode} (h : e.mayAccess a n m) : e.window a = none := by
  obtain ⟨-, h⟩ := h
  cases ha : a.scratch with
  | true => simp [Env.window, ha]
  | false =>
    simp only [ha, Bool.false_eq_true, if_false] at h
    simp [Env.window, ha, h.1]

theorem chkAccess_ok {e : Env} {a : Ea} {n : Nat} {m : Mode} (h : e.mayAccess a n m) : e.chkAccess (.ok a) n m = .ok := by
  have hwindow := window_none_of_mayAccess h
  obtain ⟨hdone, h⟩ := h
  cases ha : a.scratch with
  | true =>
    simp only [ha, if_true] at h
    obtain ⟨hpresent, hlost⟩ := h
    simp [Env.chkAccess, hdone, ha, chkScratch_ok hpresent hlost]
  | false =>
    simp only [ha, Bool.false_eq_true, if_false] at h
    simp [Env.chkAccess, hdone, ha, hwindow, chkGlobal_ok h.2]

/-! ## A load of a lane (R138 to R147) -/

/-- The bytes of a shape are one element of at most 8 bytes, or whole elements of 8 bytes (R141). -/
def LoadShape.WholeElems (sh : LoadShape) : Prop := 0 < sh.bytes ∧ (sh.bytes ≤ 8 ∨ 8 ∣ sh.bytes)

theorem wholeElems_count {sh : LoadShape} (hsh : sh.WholeElems) :
    ∃ n, sh.bytes / Nat.min sh.bytes 8 = n + 1 ∧ Nat.min sh.bytes 8 * (n + 1) = sh.bytes ∧ (sh.bytes ≤ 8 → n = 0) := by
  obtain ⟨hpos, hsmall | ⟨n, hn⟩⟩ := hsh
  · rw [show Nat.min sh.bytes 8 = sh.bytes from Nat.min_eq_left hsmall]
    exact ⟨0, Nat.div_self hpos, Nat.mul_one _, fun _ => rfl⟩
  · rw [show Nat.min sh.bytes 8 = 8 from Nat.min_eq_right (by omega)]
    exact ⟨n - 1, by omega, by omega, by omega⟩

theorem load_eq {e : Env} {a : Ea} (hdone : e.th.fabDone = []) (hwindow : e.window a = none) (tag : Option Nat) (sh : LoadShape)
    (l1 keep : Bool) (s : State) :
    e.load tag (.ok a) sh l1 keep s =
      let r := e.readElems a (Nat.min sh.bytes 8) sh.bytes l1 keep (sh.bytes / Nat.min sh.bytes 8) 0 s e.th.clock
      (r.2.2.2, { writes := sh.writes r.1, clock := r.2.1, bad := if r.2.2.1 then some (0xA1, a.tagged) else none }) := by
  simp only [Env.load, hdone, hwindow]

/-- r is what a lane's load comes to that does what R138 to R147 say: its thread does not stay at the word, its team goes on
as before, and no cycle passes. -/
def LoadStep (sh : LoadShape) (a : Ea) (e : Env) (s : State) (t : Team) (r : State × Out) : Prop :=
  Loads sh a e s r.1 r.2 ∧ r.2.stay = false ∧ r.2.stayAll = false ∧ r.1.cycle = s.cycle ∧
    ∃ t', r.1.team? e.b.core e.b.team = some t' ∧ t'.halt = t.halt

section
variable {e : Env} {a : Ea} {sh : LoadShape} {s : State} {t : Team} (hsh : sh.WholeElems) (hdone : e.th.fabDone = [])
  (hwindow : e.window a = none) (ht : s.team? e.b.core e.b.team = some t) (tag : Option Nat) (keep : Bool)
include hsh hdone hwindow ht

theorem loadStep_scratch (ha : a.scratch = true) : LoadStep sh a e s t (e.load tag (.ok a) sh true keep s) := by
  obtain ⟨n, hcount, hbytes, -⟩ := wholeElems_count hsh
  rw [load_eq hdone hwindow, hcount]
  have hclock := readElems_clock_le (e := e) (a := a) (w := Nat.min sh.bytes 8) (whole := sh.bytes) (l1 := true) (keep := keep)
    (n + 1) 0 s e.th.clock
  obtain ⟨ls, hdata, hlost, hstate⟩ := readElems_scratch_eq (w := Nat.min sh.bytes 8) (whole := sh.bytes) (l1 := true)
    (keep := keep) ha n 0 s t e.th.clock ht
  have hid : t.id = e.b.team := team?_id ht
  rw [hbytes, Nat.add_zero] at hdata
  refine ⟨⟨_, rfl, hclock, ?_⟩, rfl, rfl, ?_, ?_⟩
  · simp only [ha, if_true]
    intro t0 ht0
    obtain rfl : t = t0 := Option.some.inj (ht.symm.trans ht0)
    exact ⟨hdata, by simp only [hlost, Bool.false_eq_true, if_false], _, ⟨hstate, rfl⟩, rfl, rfl⟩
  · simp only [hstate, State.updTeam_cycle]
  · simp only [hstate]
    exact ⟨_, updTeam_team? ht fun _ _ => hid, rfl⟩

theorem loadStep_global (ha : a.scratch = false) : LoadStep sh a e s t (e.load tag (.ok a) sh true keep s) := by
  obtain ⟨n, hcount, hbytes, hone⟩ := wholeElems_count hsh
  rw [load_eq hdone hwindow, hcount]
  have hclock := readElems_clock_le (e := e) (a := a) (w := Nat.min sh.bytes 8) (whole := sh.bytes) (l1 := true) (keep := keep)
    (n + 1) 0 s e.th.clock
  have hread := readElems_reads (e := e) (w := Nat.min sh.bytes 8) (whole := sh.bytes) (l1 := true) (keep := keep) ha (n + 1) 0 s
    e.th.clock
  refine ⟨⟨_, rfl, hclock, ?_⟩, rfl, rfl, hread.machine.cycle, t, (hread.machine.team? ..).trans ht, rfl⟩
  simp only [ha, Bool.false_eq_true, if_false]
  intro l hl hplain
  refine ⟨hread.1, fun hno => ?_, fun hu => ?_, fun hsmall hcls x hx => ?_⟩
  · rw [readElems_lost ha (n + 1) 0 s _ hl (by rwa [Nat.add_zero, hbytes])]
    rfl
  · rw [readElems_uncopied ha (Nat.lt_min.mpr ⟨hsh.1, by decide⟩) (n + 1) 0 s _ hl (by rwa [Nat.add_zero, hbytes])
      (by rwa [Nat.add_zero, hbytes]), hbytes, Nat.add_zero]
  · rw [hone hsmall, readElems_copied ha hl hcls hx, show Nat.min sh.bytes 8 = sh.bytes from Nat.min_eq_left hsmall]

/-- A load that is no fabric access, in either space. -/
theorem loadStep_load : LoadStep sh a e s t (e.load tag (.ok a) sh true keep s) := by
  cases ha : a.scratch with
  | true => exact loadStep_scratch hsh hdone hwindow ht tag keep ha
  | false => exact loadStep_global hsh hdone hwindow ht tag keep ha

end

/-- What a load of a shape does: its bundle acts lane by lane, each lane as `Loads` says. -/
theorem acts_load {i : Instr} {h : Hdr} {sh : LoadShape} {m : MemArg} {keep : Bool} {sel : List Env → List Env}
    (hx : ∀ s, exec i s = .next (runBundle h { loadSem h sh m keep with sel := sel } s)) (hsh : sh.WholeElems) :
    Acts i h { reads := memNames m, dests := sh.dests } (fun e s s' o => ∀ a, e.ea m sh.bytes = .ok a → Loads sh a e s s' o)
      (fun e => ∃ a, e.ea m sh.bytes = .ok a ∧ e.mayAccess a sh.bytes (loadMode h)) (sel := sel) := by
  refine acts_of_run hx rfl rfl rfl rfl rfl ?_ (fun _ _ => rfl) ?_
  · rintro e ⟨a, hea, hmay⟩
    refine ⟨rfl, ?_⟩
    show e.chkAccess (e.ea m sh.bytes) sh.bytes (loadMode h) = .ok
    rw [hea, chkAccess_ok hmay]
  · rintro e s t ⟨a, hea, hmay⟩ ht -
    simp only [loadSem, hea]
    obtain ⟨hload, hrest⟩ := loadStep_load hsh hmay.1 (window_none_of_mayAccess hmay) ht (tagOf h) keep
    exact ⟨fun a' ha' => by cases ha'; exact hload, hrest⟩

theorem scalar_wholeElems (ty : MemTy) (pair : Bool) (d : Nat) : (LoadShape.scalar ty pair d).WholeElems := by
  have hwidth : 0 < memWidth ty pair ∧ memWidth ty pair ≤ 8 := by cases ty <;> cases pair <;> decide
  exact ⟨hwidth.1, .inl hwidth.2⟩
theorem uniform_wholeElems (ty : MemTy) (d : Nat) : (LoadShape.uniform ty d).WholeElems := by
  have hwidth : 0 < memBits ty / 8 ∧ memBits ty / 8 ≤ 8 := by cases ty <;> decide
  exact ⟨hwidth.1, .inl hwidth.2⟩
theorem tuple_wholeElems (sz : TupSize) (d : Nat) : (LoadShape.tuple d (tupRegs sz)).WholeElems := by
  have hwidth : 0 < 4 * tupRegs sz ∧ 8 ∣ 4 * tupRegs sz := by cases sz <;> decide
  exact ⟨hwidth.1, .inr hwidth.2⟩

/-! The words of row 0x0C that load, as bundles of `loadSem`. -/

theorem exec_ld (h : Hdr) (ty : MemTy) (pair : Bool) (d : BitVec 8) (m : MemArg) (s : State) :
    exec (.ld h ty pair d m) s = .next (runBundle h (loadSem h (.scalar ty pair d.toNat) m true) s) := rfl
theorem exec_ldb (h : Hdr) (ty : MemTy) (pair : Bool) (d : BitVec 8) (m : MemArg) (s : State) :
    exec (.ldb h ty pair d m) s = .next (runBundle h (loadSem h (.scalar ty pair d.toNat) m false) s) := rfl
theorem exec_ldx (h : Hdr) (sz : TupSize) (d : BitVec 8) (m : MemArg) (s : State) :
    exec (.ldx h sz d m) s = .next (runBundle h (loadSem h (.tuple d.toNat (tupRegs sz)) m true) s) := rfl
theorem exec_ldk (h : Hdr) (ty : MemTy) (d : BitVec 8) (m : MemArg) (s : State) :
    exec (.ldk h ty d m) s =
      .next (runBundle h { loadSem h (.uniform ty d.toNat) m true with sel := lowestPerGroup } s) := rfl

/-! ## The register image of a loaded element (R3, R30, R144 to R147) -/

theorem bytesNat_lt : ∀ l : List Byte, bytesNat l < 256 ^ l.length
  | [] => by decide
  | b :: r => by
    have := bytesNat_lt r
    have := b.isLt
    rw [bytesNat, List.length_cons, Nat.pow_succ]
    omega

theorem bytesNat_append (r : List Byte) : ∀ l : List Byte, bytesNat (l ++ r) = bytesNat l + 256 ^ l.length * bytesNat r
  | [] => by simp [bytesNat]
  | b :: l => by
    rw [List.cons_append, bytesNat, bytesNat, bytesNat_append r l, List.length_cons, Nat.pow_succ', Nat.mul_assoc, Nat.mul_add,
      Nat.add_assoc]

/-- The integer that w bits hold is the one of the bit vector (R30). -/
theorem valOf_eq (w : Nat) (signed : Bool) (x : Nat) :
    valOf w signed x = if signed then (BitVec.ofNat w x).toInt else ((BitVec.ofNat w x).toNat : Int) := by
  cases signed with
  | false => simp [valOf]
  | true =>
    simp only [valOf, sgn, if_true, BitVec.toInt_eq_toNat_cond, BitVec.toNat_ofNat]
    push_cast
    split <;> split <;> omega

theorem extend64_eq (ty : MemTy) (x : Nat) :
    extend64 ty x = BitVec.ofInt 64 (if memSigned ty then (BitVec.ofNat (memBits ty) x).toInt else (BitVec.ofNat (memBits ty) x).toNat) := by
  rw [extend64, valOf_eq]

theorem truncate_ofInt_64 (v : Int) : (BitVec.ofInt 64 v).truncate 32 = BitVec.ofInt 32 v := by
  apply BitVec.eq_of_toNat_eq
  simp only [BitVec.truncate_eq_setWidth, BitVec.toNat_setWidth, BitVec.toNat_ofInt]
  omega

/-- A pair of two words of 4 bytes takes them register by register. -/
theorem pairWrites_words {l : List Byte} (hl : l.length = 4) (r : List Byte) (d : Nat) :
    pairWrites d (BitVec.ofNat 64 (bytesNat (l ++ r))) =
      [.g d (BitVec.ofNat 32 (bytesNat l)), .g (d + 1) (BitVec.ofNat 32 (bytesNat r))] := by
  have hlow := bytesNat_lt l
  rw [hl] at hlow
  rw [bytesNat_append, hl, pairWrites]
  generalize bytesNat l = x at hlow ⊢
  generalize bytesNat r = y
  have hx : (BitVec.ofNat 64 (x + 256 ^ 4 * y)).truncate 32 = BitVec.ofNat 32 x := by
    apply BitVec.eq_of_toNat_eq
    simp only [BitVec.truncate_eq_setWidth, BitVec.toNat_setWidth, BitVec.toNat_ofNat]
    omega
  have hy : (BitVec.ofNat 64 (x + 256 ^ 4 * y) >>> 32).truncate 32 = BitVec.ofNat 32 y := by
    apply BitVec.eq_of_toNat_eq
    simp only [BitVec.truncate_eq_setWidth, BitVec.toNat_setWidth, BitVec.toNat_ushiftRight, BitVec.toNat_ofNat,
      Nat.shiftRight_eq_div_pow]
    omega
  rw [hx, hy]

/-- Settles O17: every lane of a load reads its elements one by one (`acts_load`), and a shape's register image is the element's
integer, extended (`extend64_eq`). -/
theorem loadResults : Obligations.LoadResults := by
  unfold Obligations.LoadResults
  refine ⟨fun h ty pair sz d m => ⟨?_, ?_, ?_, ?_⟩, fun ty d l => ?_⟩
  · exact acts_load (sh := .scalar ty pair d.toNat) (keep := true) (sel := fun l => l) (exec_ld h ty pair d m)
      (scalar_wholeElems ty pair d.toNat)
  · exact acts_load (sh := .scalar ty pair d.toNat) (keep := false) (sel := fun l => l) (exec_ldb h ty pair d m)
      (scalar_wholeElems ty pair d.toNat)
  · exact acts_load (sh := .tuple d.toNat (tupRegs sz)) (keep := true) (sel := fun l => l) (exec_ldx h sz d m)
      (tuple_wholeElems sz d.toNat)
  · exact acts_load (sh := .uniform ty d.toNat) (keep := true) (exec_ldk h ty d m) (uniform_wholeElems ty d.toNat)
  · intro n v hn
    refine ⟨?_, fun _ => ?_, fun h32 => ?_, fun r h32 _ => ?_, fun k => rfl⟩
    · rw [LoadShape.writes, extend64_eq]
    · rw [LoadShape.writes, extend64_eq, truncate_ofInt_64]
      rfl
    · simp only [LoadShape.writes, if_true, if_neg h32, extend64_eq, v]
    · have hl : l.length = 4 := by rw [hn, show n = memBits ty / 8 from rfl, h32]
      simp only [LoadShape.writes, if_true, h32, pairWrites_words hl r]

end Sys2Proof.Machine

/-! PROOF. Words and steps (O3, O58): which words the decoder refuses as a reserved opcode, and what a step runs. -/

namespace Sys2Proof.Machine

/-! ## Reserved opcodes (R14, R74) -/

section

@[simp] theorem modOk_reserved (b : Bool) (k : Dec) : modOk b k = .error .reservedOpcode ↔ b = true ∧ k = .error .reservedOpcode := by
  cases b <;> simp [modOk]
@[simp] theorem opndOk_reserved (b : Bool) (k : Dec) : opndOk b k = .error .reservedOpcode ↔ b = true ∧ k = .error .reservedOpcode := by
  cases b <;> simp [opndOk]
@[simp] theorem modSome_reserved {α : Type} (x : Option α) (k : α → Dec) :
    modSome x k = .error .reservedOpcode ↔ ∃ a, x = some a ∧ k a = .error .reservedOpcode := by
  cases x <;> simp [modSome]
@[simp] theorem opndSome_reserved {α : Type} (x : Option α) (k : α → Dec) :
    opndSome x k = .error .reservedOpcode ↔ ∃ a, x = some a ∧ k a = .error .reservedOpcode := by
  cases x <;> simp [opndSome]

/-! A row refuses a column as a reserved opcode exactly if R74's table has no slot there. -/

variable {col : Nat} (hcol : col < 16) (m : BitVec 4) (h : Hdr) (w : BitVec 47)
include hcol

theorem decodeRow00_reserved : decodeRow00 col m h w = .error .reservedOpcode ↔ opcodeSlots.contains (16 * 0x00 + col) = false := by
  interval_cases col <;> simp [decodeRow00, opcodeSlots]
theorem decodeRow01_reserved : decodeRow01 col m h w = .error .reservedOpcode ↔ opcodeSlots.contains (16 * 0x01 + col) = false := by
  interval_cases col <;> simp [decodeRow01, opcodeSlots]
theorem decodeRow02_reserved : decodeRow02 col m h w = .error .reservedOpcode ↔ opcodeSlots.contains (16 * 0x02 + col) = false := by
  interval_cases col <;> simp [decodeRow02, opcodeSlots]
theorem decodeRow03_reserved : decodeRow03 col m h w = .error .reservedOpcode ↔ opcodeSlots.contains (16 * 0x03 + col) = false := by
  interval_cases col <;> simp [decodeRow03, opcodeSlots]
theorem decodeRow04_reserved : decodeRow04 col m h w = .error .reservedOpcode ↔ opcodeSlots.contains (16 * 0x04 + col) = false := by
  interval_cases col <;> simp [decodeRow04, opcodeSlots]
theorem decodeRow05_reserved : decodeRow05 col m h w = .error .reservedOpcode ↔ opcodeSlots.contains (16 * 0x05 + col) = false := by
  interval_cases col <;> simp [decodeRow05, opcodeSlots]
theorem decodeRow06_reserved : decodeRow06 col m h w = .error .reservedOpcode ↔ opcodeSlots.contains (16 * 0x06 + col) = false := by
  interval_cases col <;> simp [decodeRow06, opcodeSlots]
theorem decodeRow07_reserved : decodeRow07 col m h w = .error .reservedOpcode ↔ opcodeSlots.contains (16 * 0x07 + col) = false := by
  interval_cases col <;> simp [decodeRow07, opcodeSlots]
theorem decodeRow08_reserved : decodeRow08 col m h w = .error .reservedOpcode ↔ opcodeSlots.contains (16 * 0x08 + col) = false := by
  interval_cases col <;> simp [decodeRow08, opcodeSlots]
  all_goals
    intros
    split <;> simp
theorem decodeRow09_reserved : decodeRow09 col m h w = .error .reservedOpcode ↔ opcodeSlots.contains (16 * 0x09 + col) = false := by
  interval_cases col <;> simp [decodeRow09, opcodeSlots]
theorem decodeRow0A_reserved : decodeRow0A col m h w = .error .reservedOpcode ↔ opcodeSlots.contains (16 * 0x0A + col) = false := by
  interval_cases col <;> simp [decodeRow0A, opcodeSlots]
theorem decodeRow0C_reserved : decodeRow0C col m h w = .error .reservedOpcode ↔ opcodeSlots.contains (16 * 0x0C + col) = false := by
  interval_cases col <;> simp [decodeRow0C, opcodeSlots]
theorem decodeRow0D_reserved : decodeRow0D col m h w = .error .reservedOpcode ↔ opcodeSlots.contains (16 * 0x0D + col) = false := by
  interval_cases col <;> simp [decodeRow0D, opcodeSlots]
theorem decodeRow0E_reserved : decodeRow0E col m h w = .error .reservedOpcode ↔ opcodeSlots.contains (16 * 0x0E + col) = false := by
  interval_cases col <;> simp [decodeRow0E, opcodeSlots]
theorem decodeRow0F_reserved : decodeRow0F col m h w = .error .reservedOpcode ↔ opcodeSlots.contains (16 * 0x0F + col) = false := by
  interval_cases col <;> simp [decodeRow0F, opcodeSlots]
  all_goals
    intros
    split <;> simp
theorem decodeRow10_reserved : decodeRow10 col m h w = .error .reservedOpcode ↔ opcodeSlots.contains (16 * 0x10 + col) = false := by
  interval_cases col <;> simp [decodeRow10, opcodeSlots]
  all_goals
    intros
    split <;> simp
theorem decodeRow11_reserved : decodeRow11 col m h w = .error .reservedOpcode ↔ opcodeSlots.contains (16 * 0x11 + col) = false := by
  interval_cases col <;> simp [decodeRow11, opcodeSlots]
theorem decodeRow12_reserved : decodeRow12 col m h w = .error .reservedOpcode ↔ opcodeSlots.contains (16 * 0x12 + col) = false := by
  interval_cases col <;> simp [decodeRow12, opcodeSlots]
theorem decodeRow13_reserved : decodeRow13 col m h w = .error .reservedOpcode ↔ opcodeSlots.contains (16 * 0x13 + col) = false := by
  interval_cases col <;> simp [decodeRow13, opcodeSlots]
  all_goals
    intros
    split <;> simp

omit hcol in
/-- The rows that R74's table leaves empty. -/
theorem emptyRow_reserved {row : Nat} (hrow : row < 32) (hempty : row = 0x0B ∨ 0x13 < row) (hcol : col < 16) :
    opcodeSlots.contains (16 * row + col) = false := by
  rw [List.contains_eq_mem, decide_eq_false_iff_not]
  simp only [opcodeSlots, List.mem_append, List.mem_range'_1, List.mem_cons, List.not_mem_nil, or_false]
  omega

end

theorem decodeRaw_reserved (r : Raw) : decodeRaw r = .error .reservedOpcode ↔ opcodeSlots.contains r.op.toNat = false := by
  have hrow : r.op.toNat / 16 < 32 := by have := r.op.isLt; omega
  have hcol : r.op.toNat % 16 < 16 := Nat.mod_lt _ (by decide)
  rw [decodeRaw, ← Nat.div_add_mod r.op.toNat 16]
  simp only [Nat.mul_add_mod, Nat.mul_add_div (show 0 < 16 by decide), Nat.mod_mod, Nat.div_eq_of_lt hcol, Nat.add_zero]
  generalize r.op.toNat / 16 = row at hrow
  generalize r.op.toNat % 16 = col at hcol
  split
  · exact decodeRow00_reserved hcol ..
  · exact decodeRow01_reserved hcol ..
  · exact decodeRow02_reserved hcol ..
  · exact decodeRow03_reserved hcol ..
  · exact decodeRow04_reserved hcol ..
  · exact decodeRow05_reserved hcol ..
  · exact decodeRow06_reserved hcol ..
  · exact decodeRow07_reserved hcol ..
  · exact decodeRow08_reserved hcol ..
  · exact decodeRow09_reserved hcol ..
  · exact decodeRow0A_reserved hcol ..
  · exact decodeRow0C_reserved hcol ..
  · exact decodeRow0D_reserved hcol ..
  · exact decodeRow0E_reserved hcol ..
  · exact decodeRow0F_reserved hcol ..
  · exact decodeRow10_reserved hcol ..
  · exact decodeRow11_reserved hcol ..
  · exact decodeRow12_reserved hcol ..
  · exact decodeRow13_reserved hcol ..
  · refine iff_of_true rfl (emptyRow_reserved hrow ?_ hcol)
    simp only [imp_false] at *
    omega

/-- Settles O3. -/
theorem reservedWords : Obligations.ReservedWords := by
  unfold Obligations.ReservedWords
  refine ⟨⟨rfl, rfl, rfl, rfl⟩, fun w => ?_⟩
  have hdecode : decode w = .error .reservedOpcode ↔ decodeRaw (Raw.unpack w) = .error .reservedOpcode := by
    unfold decode
    split
    · rename_i i hi
      split <;> simp [hi]
    · rename_i e he
      simp [he]
  exact hdecode.trans (decodeRaw_reserved _)

/-! ## What a step runs (R14, R62) -/

/-- The outcome is a next state. -/
def Answers (r : Res) : Prop := ∃ s', r = .next s'
theorem answers_next (s : State) : Answers (.next s) := ⟨s, rfl⟩

/-- Every form and every event answers a next state: of the events whose outcome has cases, each case does. -/
theorem exec_answers (i : Instr) (s : State) : Answers (exec i s) := by
  cases i
  case growQueueGrant | carveOutDeadlock | wfiTimeout | bundleFormation | resultDelivery | untaggedResultWrite | trapRecordWrite |
      instructionFetch | bankSwitch | preEmption | imageSpill | imageLoad | teamDeparture | copyElement | backReferenceToken |
      arrivalAddition | retire | leaseRequest | leaseGrant | matrixDelivery | blockTake | blockRefusal | clusterPlacement |
      gridCompletion | forwardedWrite | allowanceHomeGive | allowanceReply | recallAnswer | saveSequence | powerOn =>
    simp only [exec, execGrowQueueGrant, execCarveOutDeadlock, execWfiTimeout, execBundleFormation, execResultDelivery,
      execUntaggedResultWrite, execTrapRecordWrite, execCopyElement, execBackReferenceToken, execArrivalAddition, execRetire,
      execLeaseRequest, execLeaseGrant, execMatrixDelivery, execBankSwitch, execPreEmption, execImageSpill, execImageLoad,
      execTeamDeparture, execBlockTake, execBlockRefusal, execClusterPlacement, execGridCompletion, execForwardedWrite,
      execAllowanceHomeGive, execAllowanceReply, execRecallAnswer, execSaveSequence, execPowerOn, execInstructionFetch]
    repeat' split
    all_goals with_reducible exact answers_next _
  all_goals exact answers_next _

/-! The step, by what stands in the issue stage and in the agenda. -/

theorem step_bundle {s : State} {b : Bundle} {i : Instr} (hb : s.bundle = some b) (hi : b.instr = .ok i) : step s = exec i s := by
  simp only [step, hb, hi]
theorem step_badWord {s : State} {b : Bundle} {tr : Trap} (hb : s.bundle = some b) (hi : b.instr = .error tr) :
    step s = .next (s.refuseWord b tr) := by
  simp only [step, hb, hi]
theorem step_agenda {s : State} {i : Instr} {rest : List Instr} (hb : s.bundle = none) (ha : s.agenda = i :: rest) :
    step s = exec i { s with agenda := rest } := by
  simp only [step, hb, ha]
theorem step_idle {s : State} (hb : s.bundle = none) (ha : s.agenda = []) (hn : s.nextEvent = none) : step s = .next s.tick := by
  simp only [step, hb, ha, hn]

theorem step_answers (s : State) : Answers (step s) := by
  cases hb : s.bundle with
  | some b =>
    cases hi : b.instr with
    | ok i => exact (step_bundle hb hi).symm ▸ exec_answers i s
    | error tr => exact (step_badWord hb hi).symm ▸ answers_next _
  | none =>
    cases ha : s.agenda with
    | cons i rest => exact (step_agenda hb ha).symm ▸ exec_answers i _
    | nil =>
      cases hn : s.nextEvent with
      | none => exact (step_idle hb ha hn).symm ▸ answers_next _
      | some e =>
        simp only [step, hb, ha, hn]
        exact exec_answers e s

theorem badWord_cons {s : State} {b : Bundle} {m : Nat × Nat} {rest : List (Nat × Nat)} (hm : b.members = m :: rest) (tr : Trap) :
    s.badWord b tr = ({ s with bundle := none } : State).takeTrap b m.1 m.2 tr := by
  simp only [State.badWord, hm]

/-- A core after a change that gives its instruction lines. -/
theorem updCore_ilines (s : State) (c : Nat) (f : Core → List ILine) :
    s.updCore c (fun k => { k with ilines := f k }) = s.updCore c fun k => { k with ilines := f (s.core c) } := by
  refine congrArg (fun l => { s with cores := l }) (updAt_congr _ _ _ _ fun x hx => ?_)
  rw [State.core, List.getD_eq_getElem?_getD, hx, Option.getD_some]

theorem tick_frame (s : State) : s.tick.cycle = s.cycle + 1 ∧ s.tick.mem = s.mem ∧ s.tick.cores = s.cores := by
  unfold State.tick State.railKeep State.railUpdate
  repeat' split
  all_goals exact ⟨rfl, rfl, rfl⟩

/-- Settles O58. -/
theorem stepRunsTheWord : Obligations.StepRunsTheWord := by
  unfold Obligations.StepRunsTheWord
  intro s b
  refine ⟨fun w i hb hf hd => ?_, fun w e m rest hb hf hd hm => ?_, fun k a m rest hb hf hm => ?_, fun i rest hb ha => ?_,
    fun hb ha hn => ?_, fun i => exec_answers i s, step_answers s⟩
  · exact step_bundle hb (by simp only [Bundle.instr, hf, hd])
  · have hi : b.instr = .error { cause := decodeCause e } := by simp only [Bundle.instr, hf, hd]
    rw [step_badWord hb hi, State.refuseWord, hf]
    exact congrArg _ (badWord_cons hm _) |>.trans (by cases e <;> rfl)
  · have hi : b.instr = .error { cause := k, addr := a } := by simp only [Bundle.instr, hf]
    rw [step_badWord hb hi, State.refuseWord, hf]
    dsimp only
    rw [updCore_ilines s b.core fun x => x.ilines.filter fun y => y.line != b.pc.toNat / 320, badWord_cons hm]
    exact ⟨_, rfl⟩
  · exact step_agenda hb ha
  · exact ⟨_, step_idle hb ha hn, tick_frame s⟩

end Sys2Proof.Machine

/-! PROOF. Where a word traps (O8, O36): what a member of a bundle finds when no tag, window or lost register stands before its
word, and the exception of the first thread that finds a cause. -/

namespace Sys2Proof.Machine

/-! ## A thread at a time of its bundle (R140) -/

section
variable (e : Env) (k : Nat)
@[simp] theorem Env.at_b : (e.at k).b = e.b := rfl
@[simp] theorem Env.at_g : (e.at k).g = e.g := rfl
@[simp] theorem Env.at_l : (e.at k).l = e.l := rfl
@[simp] theorem Env.at_inWindow (l : List RName) : (e.at k).th.inWindow l = e.th.inWindow l := rfl
@[simp] theorem Env.at_lostReg (l : List RName) : (e.at k).lostReg l = e.lostReg l := rfl
end

/-! ## What one member finds (R28, R86, R311) -/

theorem lostReg_any (e : Env) (l : List RName) : (l.any fun r => e.lostReg [r]) = e.lostReg l := by
  simp only [Env.lostReg, List.any_cons, List.any_nil, Bool.or_false]

theorem lostReg_subset {e : Env} {l l' : List RName} (hsub : ∀ r ∈ l, r ∈ l') (h : e.lostReg l' = false) : e.lostReg l = false := by
  rw [← lostReg_any, List.any_eq_false] at h ⊢
  exact fun r hr => h r (hsub r hr)

/-- A member that completes no bad tag and whose guard is neither in a window nor lost. -/
theorem memberChk_untagged {h : Hdr} {m : Sem} {t : Team} {performs : Nat → Nat → Bool} {e : Env}
    (htag : ∀ th, t.thread? e.g e.l = some th → th.badTag (Thread.tagsDone h m.allTags (performs e.g e.l)) = none)
    (hwindow : e.th.inWindow (guardName h) = false) (hlost : e.lostReg (guardName h) = false) :
    memberChk h m t performs e =
      if performs e.g e.l then e.checks h m (fun r => e.lostReg [r]) none else if e.exec then m.bystander e else .ok := by
  have hrest : (if performs e.g e.l then e.checks h m (fun r => e.lostReg [r]) none
        else match (if e.exec then m.bystander e else .ok), (none : Option Trap) with
          | .trap t, _ => .trap t
          | .miss p, _ => .miss p
          | _, some t => .trap t
          | c, none => c) =
      if performs e.g e.l then e.checks h m (fun r => e.lostReg [r]) none else if e.exec then m.bystander e else .ok := by
    generalize (if e.exec = true then m.bystander e else Chk.ok) = c
    cases c <;> rfl
  cases ht : t.thread? e.g e.l with
  | none =>
    simp only [memberChk, ht, Bool.or_false, lostReg_any, hlost, hwindow, Bool.false_eq_true, if_false, Option.filter_none, withTag_none]
    exact hrest
  | some th =>
    have hok := htag th ht
    simp only [memberChk, ht, hok, missed_none hok, Bool.or_false, lostReg_any, hlost, hwindow, Bool.false_eq_true, if_false,
      Option.filter_none, withTag_none]
    exact hrest

section
variable {e : Env} {h : Hdr} {m : Sem} {tr : Trap}

theorem clear_hazards (hc : e.clear h m.uses = true) (hearly : m.early e = none) :
    e.hazards h m.uses m.early (fun r => e.lostReg [r]) = none := by
  simp only [Env.clear, Bool.and_eq_true, Bool.not_eq_true'] at hc
  obtain ⟨⟨⟨⟨⟨hbeyond, hwindow⟩, htags⟩, hmisuse⟩, -⟩, -⟩ := hc
  simp [Env.hazards, hbeyond, hwindow, htags, hmisuse, hearly]

/-- A cause of the first part of a meaning's checks: 0x05, 0x06 (R86). -/
theorem checks_early (hc : e.clear h m.uses = true) (hearly : m.early e = some tr) :
    e.checks h m (fun r => e.lostReg [r]) none = .trap tr := by
  simp only [Env.clear, Bool.and_eq_true, Bool.not_eq_true'] at hc
  obtain ⟨⟨⟨⟨⟨hbeyond, -⟩, -⟩, -⟩, hlost⟩, -⟩ := hc
  simp [Env.checks, Env.hazards, hbeyond, hearly, lostReg_any, hlost, Option.filter]

/-- A cause of the second part. -/
theorem checks_trap (hc : e.clear h m.uses = true) (hearly : m.early e = none) (hmute : m.mute e = false)
    (hneeds : ∀ r ∈ m.needs, r ∈ m.uses.reads) (hchk : m.chk e = .trap tr) :
    e.checks h m (fun r => e.lostReg [r]) none = .trap tr := by
  have hhaz := clear_hazards hc hearly
  simp only [Env.clear, Bool.and_eq_true, Bool.not_eq_true'] at hc
  obtain ⟨⟨-, hlost⟩, hclaim⟩ := hc
  have hn := lostReg_subset hneeds hlost
  simp [Env.checks, hhaz, hmute, lostReg_any, hn, hlost, hclaim, hchk, lowerTrap]

/-- The cause of a hazard, in the order of R28 and R86; the loss of a register that the word's other causes depend on comes last. -/
theorem checks_hazard {cause : Nat} (hearly : m.early e = none) (hmute : m.mute e = false)
    (hneeds : ∀ r ∈ m.needs, r ∈ m.uses.reads)
    (hcause : cause = if beyond e.t.nregs (m.uses.reads ++ m.uses.dests) then 0x04
      else if e.th.inWindow (m.uses.reads ++ m.uses.dests) || e.th.inTags m.uses.dests then 0x07 else if misuse h m.uses then 0x08
      else if e.lostReg m.needs && !e.claimed m.uses.dests then 0xA1 else 0) (h0 : cause ≠ 0) :
    e.checks h m (fun r => e.lostReg [r]) none = .trap { cause := cause, extra := if cause = 0xA1 then e.b.pc.toNat else 0 } := by
  simp only [Env.checks, Env.hazards, hearly, Option.filter_none, hmute, lostReg_any]
  split at hcause
  · next hbeyond => simp [hbeyond, hcause]
  next hbeyond =>
  split at hcause
  · next hopen => simp [hbeyond, hopen, hcause]
  next hopen =>
  split at hcause
  · next hmisuse => simp [hbeyond, hopen, hmisuse, hcause]
  next hmisuse =>
  split at hcause
  · next hl =>
    obtain ⟨hlost, hclaim⟩ : e.lostReg m.needs = true ∧ e.claimed m.uses.dests = false := by simpa using hl
    have hreads : e.lostReg m.uses.reads = true := by
      by_contra hno
      rw [lostReg_subset hneeds (Bool.not_eq_true _ ▸ hno)] at hlost
      cases hlost
    subst hcause
    simp [hbeyond, hopen, hmisuse, hlost, hreads, hclaim, lowerTrap, lossTrap]
  · exact absurd hcause h0

end

/-! ## The first thread that finds a cause (R139, R169) -/

/-- Checks that come to nothing or to a cause that the whole bundle meets. -/
def TrapsOnly (l : List (Env × Chk)) : Prop := ∀ x ∈ l, x.2 = .ok ∨ ∃ tr, x.2 = .trap tr

theorem trapsOnly_missPages {l : List (Env × Chk)} (h : TrapsOnly l) : missPages l = [] := by
  rw [missPages, List.flatten_eq_nil_iff, List.forall_mem_map]
  intro x hx
  obtain hok | ⟨tr, htr⟩ := h x hx
  · rw [hok]
  · rw [htr]
theorem trapsOnly_aloneTraps {l : List (Env × Chk)} (h : TrapsOnly l) : aloneTraps l = [] := by
  rw [aloneTraps, List.filterMap_eq_nil_iff]
  intro x hx
  obtain hok | ⟨tr, htr⟩ := h x hx
  · rw [hok]
  · rw [htr]

/-- A bundle whose members find nothing but causes: the first of them takes its exception. -/
theorem runBundle_traps {h : Hdr} {m : Sem} {s : State} {b : Bundle} {t : Team} {e : Env} {tr : Trap} (hb : s.bundle = some b)
    (ht : s.team? b.core b.team = some t) (honly : TrapsOnly (s.unstaged.bundleChks h m b t))
    (hfirst : firstTrap (s.unstaged.bundleChks h m b t) = some (e, tr)) :
    runBundle h m s = (s.unstaged.usedWalks b t).takeTrap b e.g e.l tr := by
  have hs : ({ s with bundle := none } : State) = s.unstaged := rfl
  rw [runBundle_word hb ht (trapsOnly_aloneTraps honly)]
  simp only [runWord, hb, ht, hs, trapsOnly_missPages honly, hfirst]
  rfl

/-- Of threads that check what holds of them at every time, those that p holds of find a cause, and the first of these is the first
that finds one. -/
theorem firstTrap_laneTimes {act : Env → State → State × Out} {p : Env → Bool} {f : Env → Chk} {tr : Env → Trap} {e : Env} :
    ∀ (l : List Env) (k : Nat) (s : State), (∀ x ∈ l, ∀ j, f (x.at j) = if p x then .trap (tr x) else .ok) →
      (l.filter p).head? = some e →
      ∃ j, firstTrap ((laneTimes act p k l s).map fun x => (x, f x)) = some (e.at j, tr e)
  | [], _, _, _, he => by simp at he
  | x :: r, k, s, hf, he => by
    have hx := hf x List.mem_cons_self k
    have hr := fun y hy => hf y (List.mem_cons_of_mem _ hy)
    cases hp : p x with
    | true =>
      obtain rfl : x = e := by simpa [hp] using he
      exact ⟨k, by simp [laneTimes, firstTrap, hx, hp]⟩
    | false =>
      obtain ⟨j, hj⟩ := firstTrap_laneTimes (act := act) r k s hr (by simpa [hp] using he)
      refine ⟨j, ?_⟩
      rw [← hj]
      simp [laneTimes, firstTrap, hx, hp]

/-- The members of a bundle whose word can issue (R13, R64, R76 to R86). -/
theorem memberChk_issues {s : State} {h : Hdr} {m : Sem} {b : Bundle} {t : Team} {e : Env}
    (hi : issues s h m.uses m.allTags m.sel b t = true) (hv : e ∈ s.unstaged.views h m.allTags m.sel b t) (j : Nat) :
    memberChk h m t (performers h m.allTags m.sel s.unstaged b t) (e.at j) =
      (if performers h m.allTags m.sel s.unstaged b t e.g e.l then (e.at j).checks h m (fun r => (e.at j).lostReg [r]) none
       else if e.exec then m.bystander (e.at j) else .ok) ∧
    (performers h m.allTags m.sel s.unstaged b t e.g e.l = true → (e.at j).clear h m.uses = true) := by
  simp only [issues, Bool.and_eq_true, List.all_eq_true] at hi
  obtain ⟨⟨⟨htag, hwindow⟩, hlost⟩, hclear⟩ := hi.2 e hv
  refine ⟨memberChk_untagged (fun th hth => ?_) (by simpa using hwindow) (by simpa using hlost), fun hp => ?_⟩
  · rw [Env.at_g, Env.at_l] at hth
    simpa [hth] using htag
  · show e.clear h m.uses = true
    simpa [hp] using hclear

/-- An instruction every performing thread of which finds a cause. -/
theorem traps_of_run {i : Instr} {h : Hdr} {m : Sem} {tr : Env → Trap} {pre : Env → Prop} {u : Uses} {all : TagUse}
    {sel : List Env → List Env} (hx : ∀ s, exec i s = .next (runBundle h m s)) (hu : m.uses = u) (ha : m.allTags = all)
    (hs : m.sel = sel) (hneeds : ∀ r ∈ m.needs, r ∈ m.uses.reads) (hmute : ∀ e, m.mute e = false)
    (hby : ∀ e, m.bystander e = .ok)
    (hfinds : ∀ e, pre e → m.early e = some (tr e) ∨ m.early e = none ∧ m.chk e = .trap (tr e))
    (htr : ∀ e k, tr (e.at k) = tr e := by intros; rfl) (hany : ∀ e k, pre e → pre (e.at k) := by intros; assumption) :
    Traps i h u tr pre all sel := by
  subst hu ha hs
  intro s b t e hi hhead hpre
  obtain ⟨hb, ht, -, -⟩ := issues_bundle hi
  have hfound : ∀ x ∈ s.unstaged.views h m.allTags m.sel b t, ∀ j,
      memberChk h m t (performers h m.allTags m.sel s.unstaged b t) (x.at j) =
        if performers h m.allTags m.sel s.unstaged b t x.g x.l then .trap (tr x) else .ok := by
    intro x hxv j
    obtain ⟨hchk, hclear⟩ := memberChk_issues hi hxv j
    rw [hchk]
    cases hp : performers h m.allTags m.sel s.unstaged b t x.g x.l with
    | false => simp [hby]
    | true =>
      have hxd : x ∈ s.unstaged.doers h m.allTags m.sel b t := List.mem_filter.mpr ⟨hxv, hp⟩
      simp only [if_true, ← htr x j]
      obtain hearly | ⟨hearly, hcause⟩ := hfinds _ (hany x j (hpre x hxd))
      · exact checks_early (hclear hp) hearly
      · exact checks_trap (hclear hp) hearly (hmute _) hneeds hcause
  have honly : TrapsOnly (s.unstaged.bundleChks h m b t) := by
    intro y hy
    simp only [State.bundleChks, List.mem_map] at hy
    obtain ⟨z, hz, rfl⟩ := hy
    obtain ⟨x, hxv, j, rfl⟩ := mem_laneTimes _ _ _ hz
    simp only [hfound x hxv j]
    split
    · exact .inr ⟨_, rfl⟩
    · exact .inl rfl
  obtain ⟨j, hfirst⟩ := firstTrap_laneTimes (act := m.act) (s.unstaged.views h m.allTags m.sel b t) (s.unstaged.slotStart b)
    (s.unstaged.wordState h m.allTags m.sel b t) hfound hhead
  rw [hx, runBundle_traps hb ht honly hfirst]
  rfl

/-- An instruction of the bundle driver that has no causes of the first part stops on its hazards. -/
theorem hazardTraps_of_run {i : Instr} {h : Hdr} {m : Sem} {u : Uses} {needs : List RName} {all : TagUse}
    {sel : List Env → List Env} (hx : ∀ s, exec i s = .next (runBundle h m s)) (hu : m.uses = u) (hn : m.needs = needs)
    (ha : m.allTags = all) (hs : m.sel = sel) (hearly : ∀ e, m.early e = none) (hmute : ∀ e, m.mute e = false) :
    HazardTraps i h u needs all sel := by
  subst hu hn ha hs
  intro s b t e cause hb ht hviews hp htag hwindow hlost hcause hneeds h0
  have heb : e.b = b := by
    obtain ⟨-, heb, -⟩ := views_mem (hviews ▸ List.mem_singleton_self e)
    exact heb
  have hchk : memberChk h m t (performers h m.allTags m.sel s.unstaged b t) (e.at (s.unstaged.slotStart b)) =
      .trap { cause := cause, extra := if cause = 0xA1 then b.pc.toNat else 0 } := by
    have hfound := checks_hazard (e := e.at (s.unstaged.slotStart b)) (hearly _) (hmute _) hneeds hcause h0
    rw [memberChk_untagged (by simpa [hp] using htag) (by simpa using hwindow) (by simpa using hlost), Env.at_g, Env.at_l, if_pos hp,
      hfound, Env.at_b, heb]
  have hchks : s.unstaged.bundleChks h m b t = [(e.at (s.unstaged.slotStart b),
      .trap { cause := cause, extra := if cause = 0xA1 then b.pc.toNat else 0 })] := by
    simp only [State.bundleChks, hviews, laneTimes, ite_self, List.map_cons, List.map_nil, hchk]
  rw [hx, runBundle_traps (e := e.at (s.unstaged.slotStart b)) hb ht]
  · rfl
  · rw [hchks]
    rintro x hx
    rw [List.mem_singleton.mp hx]
    exact .inr ⟨_, rfl⟩
  · rw [hchks]
    rfl

end Sys2Proof.Machine

namespace Sys2Proof.Machine

/-- Settles O8. -/
theorem specialRegisters : Obligations.SpecialRegisters := by
  unfold Obligations.SpecialRegisters
  refine ⟨fun h d idx a => ⟨?_, ?_, ?_, fun hidx => ?_⟩, fun e => ?_⟩
  · exact computes_of_pure fun _ => rfl
  · exact computes_of_pure fun _ => rfl
  · exact does_of_run (fun _ => rfl) rfl rfl rfl rfl rfl (fun _ _ => rfl) (fun _ => ⟨rfl, rfl⟩) (fun _ _ => ⟨rfl, rfl⟩) fun _ => rfl
  · have hearly : idx.toNat ≠ 0x0B := fun heq => hidx (BitVec.eq_of_toNat_eq heq)
    exact traps_of_run (fun _ => rfl) rfl rfl rfl (fun _ hr => hr) (fun _ => rfl) (fun _ => rfl) fun _ _ => .inl (if_neg hearly)
  · have hsup : b2n e.t.sup * 65536 = if e.t.sup then 2 ^ 16 else 0 := by cases e.t.sup <;> rfl
    refine ⟨rfl, rfl, rfl, rfl, rfl, rfl, rfl, ?_, rfl, rfl, rfl, rfl⟩
    rw [← hsup]
    rfl

/-! ## Supervisor instructions and failing addresses (R24, R133, R134) -/

/-- A supervisor instruction at user level. -/
theorem traps_of_supOnly {i : Instr} {h : Hdr} {m : Sem} {u : Uses} (hx : ∀ s, exec i s = .next (runBundle h m s)) (hu : m.uses = u)
    (ha : m.allTags = .named) (hs : m.sel = lowestOnly) (hneeds : m.needs = m.uses.reads) (hearly : m.early = Env.supOnly)
    (hmute : ∀ e, m.mute e = false) (hby : ∀ e, m.bystander e = .ok) :
    Traps i h u (fun _ => { cause := 0x05 }) (fun e => e.t.sup = false) (sel := lowestOnly) :=
  traps_of_run hx hu ha hs (fun _ hr => hneeds ▸ hr) hmute hby fun e hsup => .inl (by simp [hearly, Env.supOnly, hsup])

theorem chkAccess_error {e : Env} {a : Except Trap Ea} {tr : Trap} (hdone : e.th.fabDone = []) (ha : a = .error tr) (n : Nat) (m : Mode) :
    e.chkAccess a n m = .trap tr := by
  simp [Env.chkAccess, hdone, ha]

/-- An access whose address fails a check takes that check's cause. -/
theorem traps_of_address {i : Instr} {h : Hdr} {m : Sem} {u : Uses} {ea : Env → Except Trap Ea} {n : Nat} {mode : Mode}
    {of : Except Trap Ea → Trap} (hx : ∀ s, exec i s = .next (runBundle h m s)) (hu : m.uses = u) (ha : m.allTags = .named)
    (hs : m.sel = fun l => l) (hneeds : ∀ r ∈ m.needs, r ∈ m.uses.reads) (hearly : ∀ e, m.early e = none)
    (hchk : ∀ e, m.chk e = e.chkAccess (ea e) n mode) (hmute : ∀ e, m.mute e = false) (hby : ∀ e, m.bystander e = .ok)
    (hof : ∀ tr, of (.error tr) = tr) (hea : ∀ e k, ea (e.at k) = ea e := by intros; rfl) :
    Traps i h u (fun e => of (ea e)) fun e => e.th.fabDone = [] ∧ ∃ tr, ea e = .error tr := by
  refine traps_of_run hx hu ha hs hneeds hmute hby (fun e ⟨hdone, tr, htr⟩ => .inr ⟨hearly e, ?_⟩) (fun e k => by rw [hea])
    (fun e k ⟨hdone, tr, htr⟩ => ⟨hdone, tr, (hea e k).trans htr⟩)
  rw [hchk, chkAccess_error hdone htr, htr, hof]

theorem width_eight (ty : IntTy) : ty.width / 8 = if ty.wide then 8 else 4 := by cases ty <;> rfl

/-- Settles O36: each word is a meaning of the bundle driver, whose checks come to the stated cause (`traps_of_run`,
`hazardTraps_of_run`). -/
theorem whereWordsTrap : Obligations.WhereWordsTrap := by
  unfold Obligations.WhereWordsTrap
  refine ⟨fun h imm d r a b ty ity pair m m10 off => ?_, fun h ty sat mty pair d a b pq m => ?_⟩
  · intro of fails
    have hof : ∀ tr, of (.error tr) = tr := fun _ => rfl
    refine ⟨?_, ?_, ?_, ?_, ?_, ?_, ⟨?_, ?_⟩, ?_⟩
    · exact traps_of_run (fun _ => rfl) rfl rfl rfl (fun _ hr => hr) (fun _ => rfl) (fun _ => rfl) fun e hfar => .inl (if_neg hfar)
    · exact traps_of_run (fun _ => rfl) rfl rfl rfl (fun _ hr => hr) (fun _ => rfl) (fun _ => rfl) fun _ _ => .inr ⟨rfl, rfl⟩
    · exact does_of_run (fun _ => rfl) rfl rfl rfl rfl rfl (fun _ _ => rfl) (fun _ => ⟨rfl, rfl⟩) (fun _ h => h.elim) fun _ => rfl
    · exact traps_of_run (fun _ => rfl) rfl rfl rfl (fun _ hr => hr) (fun _ => rfl) (fun _ => rfl) fun _ _ => .inr ⟨rfl, rfl⟩
    · exact does_of_run (fun _ => rfl) rfl rfl rfl rfl rfl (fun _ _ => rfl) (fun _ => ⟨rfl, rfl⟩) (fun _ h => h.elim) fun _ => rfl
    · intro i u hiu
      simp only [List.mem_cons, Prod.mk.injEq, List.not_mem_nil, or_false] at hiu
      rcases hiu with ⟨rfl, rfl⟩ | ⟨rfl, rfl⟩ | ⟨rfl, rfl⟩ | ⟨rfl, rfl⟩ | ⟨rfl, rfl⟩ | ⟨rfl, rfl⟩ | ⟨rfl, rfl⟩
      all_goals exact traps_of_supOnly (fun _ => rfl) rfl rfl rfl rfl rfl (fun _ => rfl) fun _ => rfl
    · exact traps_of_address (fun _ => rfl) rfl rfl rfl (fun _ hr => hr) (fun _ => rfl) (fun _ => rfl) (fun _ => rfl) (fun _ => rfl) hof
    · exact traps_of_address (fun _ => rfl) rfl rfl rfl (fun _ hr => List.mem_append_left _ hr) (fun _ => rfl) (fun _ => rfl)
        (fun _ => rfl) (fun _ => rfl) hof
    · rw [← width_eight]
      exact traps_of_address (fun _ => rfl) rfl rfl rfl (fun _ hr => List.mem_append_left _ hr) (fun _ => rfl) (fun _ => rfl)
        (fun _ => rfl) (fun _ => rfl) hof
  · refine ⟨?_, ?_, ?_, ?_, ?_, ?_⟩
    all_goals exact hazardTraps_of_run (fun _ => rfl) rfl rfl rfl rfl (fun _ => rfl) fun _ => rfl

end Sys2Proof.Machine

/-! PROOF. Branches and reconvergence barriers (O15): what branches and RCV words do, and which barriers a release empties. -/

namespace Sys2Proof.Machine

/-! ## Branches, RCV.SET, RCV.WAIT and EXIT (R26, R120, R125, R126) -/

theorem misaligned_none {t : VAddr} (h : t.toNat % 10 = 0) : misaligned t = none := if_pos h

/-- A change of a group leaves its team there, and as it was halted or not. -/
theorem updGroup_team? {s : State} {c id : Nat} {t : Team} (h : s.team? c id = some t) (g : Nat) (f : Group → Group) :
    ∃ t', (s.updGroup c id g f).team? c id = some t' ∧ t'.halt = t.halt :=
  ⟨_, updTeam_team? h fun _ ht => ht, rfl⟩

/-- A branch whose meaning is a jump to a checked target. -/
theorem does_of_jump {i : Instr} {h : Hdr} {m : Sem} {u : Uses} {writes : Env → List RWrite} {target : Env → VAddr}
    (hx : ∀ s, exec i s = .next (runBundle h m s))
    (hm : m = { uses := u, early := fun e => misaligned (target e), act := fun e s => (s, { writes := writes e, pc := some (target e) }) })
    (htarget : ∀ e k, target (e.at k) = target e) (hwrites : ∀ e k, writes (e.at k) = writes e) :
    Does i h u (fun e => { writes := writes e, pc := some (target e) }) fun e => (target e).toNat % 10 = 0 := by
  subst hm
  exact does_of_run hx rfl rfl rfl rfl rfl (fun _ _ => rfl) (fun _ => ⟨rfl, rfl⟩) (fun _ hpre => ⟨misaligned_none hpre, rfl⟩)
    (fun _ => rfl) (fun e k => by rw [htarget, hwrites]) (fun _ => rfl) fun e k hpre => by rwa [htarget]

/-! ## The release (R127) -/

section
variable {gr : Group} {n : Nat}

theorem complete_iff (r : Rcv) (gr : Group) : r.complete gr = true ↔ r.members ≠ 0 ∧ ∀ i < 64, r.members.getLsbD i = true →
    r.arrived.getLsbD i = true ∨ ∀ x, gr.threads[i]? = some x → x.exited = true := by
  simp only [Rcv.complete, Bool.and_eq_true, bne_iff_ne, List.all_eq_true, List.mem_range, Bool.or_eq_true, Bool.not_eq_true']
  refine and_congr_right fun _ => forall₂_congr fun i _ => ?_
  cases r.members.getLsbD i <;> cases gr.threads[i]? <;> simp

/-- The barriers that a release empties. -/
theorem mem_release (hn : n < 16) : ((List.range 16).filter fun n => (gr.rcv.getD n Rcv.reset).complete gr).contains n =
    (gr.rcv.getD n Rcv.reset).complete gr := by
  rw [Bool.eq_iff_iff, List.contains_iff_mem, List.mem_filter, List.mem_range]
  exact and_iff_right hn

theorem release_rcv (hn : n < 16) (hlen : n < gr.rcv.length) : gr.release.rcv[n]? =
    some (if (gr.rcv.getD n Rcv.reset).complete gr then Rcv.reset else gr.rcv.getD n Rcv.reset) := by
  have hget : gr.rcv[n]? = some (gr.rcv.getD n Rcv.reset) := by
    rw [List.getD_eq_getElem?_getD, List.getElem?_eq_getElem hlen, Option.getD_some]
  simp only [Group.release, mapIdxFrom_getElem?, Nat.zero_add, mem_release hn]
  rw [hget, Option.map_some]

/-- A lane that is parked at a barrier goes on at the word after the join if the barrier is complete. -/
theorem release_thread {l : Nat} {th : Thread} (hth : gr.threads[l]? = some th) (hn : n < 16) (hpark : th.park = some (.rcv n)) :
    gr.release.threads[l]? = some (if (gr.rcv.getD n Rcv.reset).complete gr
      then { th with park := none, pc := (gr.rcv.getD n Rcv.reset).join + 10 } else th) := by
  simp only [Group.release, List.getElem?_map, hth, Option.map_some, hpark, mem_release hn]

end

/-- Settles O15. -/
theorem branchResults : Obligations.BranchResults := by
  unfold Obligations.BranchResults
  refine ⟨fun h d off a => ⟨?_, ?_, ?_, ?_⟩, ⟨fun h n off => ⟨?_, ?_, ?_⟩, fun gr n l th hth hn hlen => ⟨?_, fun hc => ⟨?_, ?_⟩, fun hc => ⟨?_, ?_⟩⟩⟩⟩
  · exact does_of_jump (writes := fun _ => []) (fun _ => rfl) rfl (fun _ _ => rfl) fun _ _ => rfl
  · exact does_of_jump (fun _ => rfl) rfl (fun _ _ => rfl) fun _ _ => rfl
  · exact does_of_jump (writes := fun _ => []) (fun _ => rfl) rfl (fun _ _ => rfl) fun _ _ => rfl
  · exact does_of_jump (writes := fun _ => []) (fun _ => rfl) rfl (fun _ _ => rfl) fun _ _ => rfl
  · exact acts_of_run (fun _ => rfl) rfl rfl rfl rfl rfl (fun e hfree => ⟨rfl, if_pos hfree⟩) (fun _ _ => rfl)
      fun e s t _ ht _ => ⟨⟨rfl, rfl⟩, rfl, rfl, rfl, updGroup_team? ht ..⟩
  · refine acts_of_run (fun _ => rfl) rfl rfl rfl rfl rfl (fun e hjoin => ⟨rfl, ?_⟩) (fun _ _ => rfl) fun e s t _ ht _ => ?_
    · cases hmem : (e.gr.rcv.getD n.toNat Rcv.reset).members.getLsbD e.l <;> simp_all
    · cases hmem : (e.gr.rcv.getD n.toNat Rcv.reset).members.getLsbD e.l with
      | true =>
        simp only [hmem, if_true, true_and]
        exact ⟨rfl, updGroup_team? ht ..⟩
      | false =>
        simp only [hmem, Bool.false_eq_true, if_false, and_self, true_and]
        exact ⟨t, ht, rfl⟩
  · refine acts_of_run (fun _ => rfl) rfl rfl rfl rfl rfl (fun e ⟨hbad, hwrites⟩ => ⟨rfl, ?_⟩) (fun _ _ => rfl)
      fun e s t _ ht _ => ⟨⟨rfl, rfl⟩, rfl, rfl, rfl, t, ht, rfl⟩
    simp [hbad, hwrites]
  · exact complete_iff _ gr
  · rw [release_rcv hn hlen, if_pos hc]
  · intro hpark
    rw [release_thread hth hn hpark, if_pos hc]
  · rw [release_rcv hn hlen, if_neg (Bool.eq_false_iff.mp hc)]
  · intro hpark
    rw [release_thread hth hn hpark, if_neg (Bool.eq_false_iff.mp hc)]

end Sys2Proof.Machine

/-! PROOF. Taking an exception (O37): what stopping groups, waking threads and halting do to the threads of the team. -/

namespace Sys2Proof.Machine

/-! ## Teams of a changed state -/

/-- What a change of a core keeps of every core it keeps of every core of the state. -/
theorem updCore_keeps {α : Type} (view : Core → α) (s : State) (c d : Nat) {f : Core → Core} (hf : ∀ k, view (f k) = view k) :
    view ((s.updCore c f).core d) = view (s.core d) := by
  simp only [State.core, State.updCore, List.getD_eq_getElem?_getD, updAt_getElem?]
  split
  · cases s.cores[d]? with
    | none => rfl
    | some k => exact hf k
  · rfl

theorem updCore_team? (s : State) (c d id : Nat) {f : Core → Core} (hf : ∀ k, (f k).teams = k.teams) :
    (s.updCore c f).team? d id = s.team? d id :=
  updCore_keeps (fun k => k.team? id) s c d fun k => by simp only [Core.team?, hf]

theorem updThread_thread? (t : Team) (g l : Nat) (f : Thread → Thread) (x y : Nat) :
    (t.updThread g l f).thread? x y = (t.thread? x y).map fun th => if x = g ∧ y = l then f th else th := by
  simp only [Team.thread?, Team.updThread, Team.updGroup, updAt_getElem?]
  by_cases hx : x = g
  · cases t.groups[x]? with
    | none => simp
    | some gr => by_cases hy : y = l <;> simp [hx, hy, Group.updThread, updAt_getElem?]
  · simp [hx]

/-! ## A thread that stops waiting, and one that wakes (R319, R320) -/

section
variable (th : Thread)

theorem dropLate_frame : th.dropLate = { th with windows := th.dropLate.windows, tags := th.dropLate.tags } := by
  unfold Thread.dropLate
  split <;> rfl
@[simp] theorem unpark_regs : th.unpark.regs = th.regs := by rw [Thread.unpark, dropLate_frame]
@[simp] theorem unpark_preds : th.unpark.preds = th.preds := by rw [Thread.unpark, dropLate_frame]
@[simp] theorem unpark_exited : th.unpark.exited = th.exited := by rw [Thread.unpark, dropLate_frame]
@[simp] theorem unpark_pc : th.unpark.pc = th.pc := by rw [Thread.unpark, dropLate_frame]
@[simp] theorem unpark_park : th.unpark.park = none := rfl
@[simp] theorem unpark_hold : th.unpark.hold = th.hold.filter Hold.stays := rfl

theorem wake_frame : th.wake = { th with park := th.wake.park, pc := th.wake.pc } := by
  unfold Thread.wake
  split <;> rfl
@[simp] theorem wake_regs : th.wake.regs = th.regs := by rw [wake_frame]
@[simp] theorem wake_preds : th.wake.preds = th.preds := by rw [wake_frame]
@[simp] theorem wake_exited : th.wake.exited = th.exited := by rw [wake_frame]
@[simp] theorem wake_hold : th.wake.hold = th.hold := by rw [wake_frame]
/-- Only a thread parked in WFI wakes. -/
theorem wake_pc {th : Thread} (hpark : ∀ c, th.park ≠ some (.wfi c)) : th.wake.pc = th.pc := by
  unfold Thread.wake
  split
  · next c hc => exact absurd hc (hpark c)
  · rfl

end

/-! ## A group that stops (R169) -/

/-- What a stop of group g does to its team. -/
def Team.quitGroup (t : Team) (g : Nat) : Team :=
  { t.updGroup g Group.quit with
    halt := t.halt.map fun h => { h with stops := updAt h.stops g fun _ => true }
    carve := none }

theorem stopGroup_team? {s : State} {c id : Nat} {t : Team} (h : s.team? c id = some t) (g : Nat) :
    (s.stopGroup c id g).team? c id = some (t.quitGroup g) := by
  have hteams : (s.stopGroup c id g).team? c id = ((s.updTeam c id fun t => t.quitGroup g).updCore c fun k =>
      { k with banks := k.banks.map fun b => { b with grow := b.grow.filter fun x => x != id } }).team? c id := rfl
  rw [hteams, updCore_team?]
  · exact updTeam_team? h fun _ ht => ht
  · exact fun _ => rfl

theorem stopGroups_team? {c id : Nat} : ∀ (now : List Nat) {s : State} {t : Team}, s.team? c id = some t →
    (now.foldl (fun s g => s.stopGroup c id g) s).team? c id = some (now.foldl Team.quitGroup t)
  | [], _, _, h => h
  | g :: r, _, _, h => stopGroups_team? r (stopGroup_team? h g)

theorem quitGroup_thread? (t : Team) (g x y : Nat) :
    (t.quitGroup g).thread? x y = (t.thread? x y).map fun th => if x = g then th.unpark else th := by
  simp only [Team.thread?, Team.quitGroup, Team.updGroup, updAt_getElem?]
  by_cases hx : x = g
  · cases t.groups[x]? <;> simp [hx, Group.quit, Group.unarrive]
  · simp [hx]

/-- th' is th but for what a stop ends: registers, PC and exit stay, and a thread of a stopped group waits no longer. -/
def Quit (stopped : Prop) (th th' : Thread) : Prop :=
  th'.regs = th.regs ∧ th'.preds = th.preds ∧ th'.exited = th.exited ∧ th'.pc = th.pc ∧
    (stopped → th'.park = none ∧ th'.hold = th.hold.filter Hold.stays)

theorem quitGroups_thread? {x y : Nat} : ∀ (now : List Nat), now.Nodup → ∀ {t : Team} {th : Thread}, t.thread? x y = some th →
    ∃ th', (now.foldl Team.quitGroup t).thread? x y = some th' ∧ Quit (x ∈ now) th th' ∧ (x ∉ now → th' = th)
  | [], _, _, th, h => ⟨th, h, ⟨rfl, rfl, rfl, rfl, fun hx => absurd hx List.not_mem_nil⟩, fun _ => rfl⟩
  | g :: r, hnd, t, th, h => by
    obtain ⟨hg, hr⟩ := List.nodup_cons.mp hnd
    have hstep : (t.quitGroup g).thread? x y = some (if x = g then th.unpark else th) := by rw [quitGroup_thread?, h, Option.map_some]
    obtain ⟨th', hth', ⟨hregs, hpreds, hexited, hpc, hquit⟩, hsame⟩ := quitGroups_thread? r hr hstep
    refine ⟨th', hth', ?_, fun hx => ?_⟩
    · by_cases hx : x = g
      · rw [hsame (hx ▸ hg), if_pos hx]
        exact ⟨unpark_regs th, unpark_preds th, unpark_exited th, unpark_pc th, fun _ => ⟨rfl, rfl⟩⟩
      · rw [if_neg hx] at hregs hpreds hexited hpc hquit
        exact ⟨hregs, hpreds, hexited, hpc, fun hm => hquit ((List.mem_cons.mp hm).resolve_left hx)⟩
    · obtain ⟨hxg, hxr⟩ := not_or.mp fun hm => hx (List.mem_cons.mpr hm)
      rw [hsame hxr, if_neg hxg]

theorem quitGroups_halt (now : List Nat) : ∀ t : Team, (now.foldl Team.quitGroup t).halt =
    t.halt.map fun h => { h with stops := now.foldl (fun l g => updAt l g fun _ => true) h.stops } := by
  induction now with
  | nil =>
    intro t
    rw [List.foldl_nil]
    cases t.halt <;> rfl
  | cons g r ih =>
    intro t
    rw [List.foldl_cons, ih, Team.quitGroup]
    cases t.halt <;> rfl

theorem stops_getElem? (now : List Nat) : ∀ (l : List Bool) (x : Nat),
    (now.foldl (fun l g => updAt l g fun _ => true) l)[x]? = (l[x]?).map fun b => decide (x ∈ now) || b := by
  induction now with
  | nil => intro l x; simp
  | cons g r ih =>
    intro l x
    rw [List.foldl_cons, ih, updAt_getElem?]
    by_cases hx : x = g <;> cases l[x]? <;> simp [hx]

/-! ## The exception (R27, R169, R308) -/

theorem mapTeams_team? (s : State) {f : Nat → Team → Team} (hf : ∀ d t, (f d t).id = t.id) (c id : Nat) :
    (s.mapTeams f).team? c id = (s.team? c id).map (f c) := by
  simp only [State.team?, mapTeams_core, Core.team?, List.find?_map, Function.comp_def, hf]

/-- The team with every thread awake that was parked in WFI. -/
def Team.woken (t : Team) : Team := t.mapThreads fun _ _ th => th.wake

theorem noteError_team? {s : State} {c id : Nat} {t : Team} (h : s.team? c id = some t) : (s.noteError c).team? c id = some t.woken := by
  rw [State.noteError, State.countError, State.wakeCore, mapTeams_team?, updCore_team?]
  · rw [h, Option.map_some, if_pos rfl]
    rfl
  · exact fun _ => rfl
  · intro d t
    split <;> rfl

/-- What the exception of thread (g, l) at address pc leaves of that thread before its group stops. -/
def Trap.thread (tr : Trap) (pc : VAddr) (th : Thread) : Thread :=
  { (if tr.done then th.countIssue else th) with
    pc := pc, fabBad := if th.fabBad = some (tr.cause, tr.addr) then none else th.fabBad }

/-- The halt that an exception begins. -/
def Trap.halt (tr : Trap) (s : State) (b : Bundle) (g l : Nat) (t : Team) : Halt :=
  { cause := tr.cause, addr := tr.addr, extra := tr.extra, cf := s.cycle, who := some (g, l), pc := if tr.done then b.pc + 10 else b.pc
    skids := skidList t, stops := stopList t true, mx := none, entry := none, recorded := false }

/-- The groups that an exception stops at once: the bundle's and the faulting thread's (log 25). -/
def Bundle.stopsAt (b : Bundle) (g : Nat) : List Nat := if b.group = g then [g] else [b.group, g]

/-- The team of a bundle after an exception of its thread (g, l). -/
def Team.trapped (t : Team) (s : State) (b : Bundle) (g l : Nat) (tr : Trap) : Team :=
  let t0 := if tr.cause = 0xA1 then t.woken else t
  (b.stopsAt g).foldl Team.quitGroup { t0.updThread g l (tr.thread (if tr.done then b.pc + 10 else b.pc)) with halt := some (tr.halt s b g l t) }

theorem stopOps_team? (s : State) (c : Nat) (p : MatOp → Bool) (d id : Nat) : (s.stopOps c p).team? d id = s.team? d id := by
  have hteams : (s.stopOps c p).team? d id =
      (s.updCore c fun k => { k with ops := k.ops.map fun o => if p o then o.stop s.cycle else o }).team? d id := rfl
  rw [hteams, updCore_team?]
  exact fun _ => rfl

theorem stopGroups_ctxs (c id : Nat) : ∀ (now : List Nat) (s : State), (now.foldl (fun s g => s.stopGroup c id g) s).ctxs = s.ctxs
  | [], _ => rfl
  | _ :: r, _ => (stopGroups_ctxs c id r _).trans rfl

theorem haltTeam_team? {s : State} {c id : Nat} {t : Team} (h : s.team? c id = some t) (hl : Halt) (now : List Nat) :
    (s.haltTeam c id hl now).team? c id = some (now.foldl Team.quitGroup { t with halt := some hl }) := by
  have hstops := stopGroups_team? now (updTeam_team? h (f := fun t => { t with halt := some hl }) fun _ ht => ht)
  simp only [State.haltTeam, h]
  exact (stopOps_team? ..).trans hstops

theorem haltTeam_ctxs {s : State} {c id : Nat} {t : Team} (h : s.team? c id = some t) (hl : Halt) (now : List Nat) :
    (s.haltTeam c id hl now).ctxs = updAt s.ctxs t.desc fun x => { x with pending := x.pending ++ [.team c t.vtid] } := by
  simp only [State.haltTeam, h]
  exact congrArg (fun l => updAt l t.desc _) (stopGroups_ctxs c id now _)

section
variable {s : State} {b : Bundle} {t : Team} (ht : s.team? b.core b.team = some t) (hh : t.halt = none) (g l : Nat) (tr : Trap)
include ht hh

/-- The state in which an exception halts its team. -/
theorem takeTrap_eq : ∃ s1 : State, s1.team? b.core b.team = some ((if tr.cause = 0xA1 then t.woken else t).updThread g l
      (tr.thread (if tr.done then b.pc + 10 else b.pc))) ∧ s1.ctxs = s.ctxs ∧
    s.takeTrap b g l tr = s1.haltTeam b.core b.team (tr.halt s b g l t) (b.stopsAt g) := by
  refine ⟨(if tr.cause = 0xA1 then s.noteError b.core else s).updThread b.core b.team g l
    (tr.thread (if tr.done then b.pc + 10 else b.pc)), ?_, ?_, ?_⟩
  · refine updTeam_team? ?_ fun _ ht => ht
    split
    · exact noteError_team? ht
    · exact ht
  · split <;> rfl
  · simp only [State.takeTrap, ht, hh]
    rfl

theorem takeTrap_team? : (s.takeTrap b g l tr).team? b.core b.team = some (t.trapped s b g l tr) := by
  obtain ⟨s1, hs1, -, heq⟩ := takeTrap_eq ht hh g l tr
  rw [heq, haltTeam_team? hs1]
  rfl

theorem takeTrap_pending (hdesc : t.desc < s.ctxs.length) :
    ((s.takeTrap b g l tr).ctxAt t.desc).pending = (s.ctxAt t.desc).pending ++ [.team b.core t.vtid] := by
  obtain ⟨s1, hs1, hctxs, heq⟩ := takeTrap_eq ht hh g l tr
  have hkept : ∀ f, ((if tr.cause = 0xA1 then t.woken else t).updThread g l f).desc = t.desc ∧
      ((if tr.cause = 0xA1 then t.woken else t).updThread g l f).vtid = t.vtid := by
    intro f
    split <;> exact ⟨rfl, rfl⟩
  rw [heq, State.ctxAt, haltTeam_ctxs hs1, (hkept _).1, (hkept _).2, hctxs, updAt_getD_self _ _ _ hdesc]
  rfl

end

/-! ## The threads and the halt of a team that takes an exception -/

theorem mem_stopsAt (b : Bundle) (g x : Nat) : x ∈ b.stopsAt g ↔ x = g ∨ x = b.group := by
  unfold Bundle.stopsAt
  split
  · next h => simp [h]
  · simp [or_comm]
theorem stopsAt_nodup (b : Bundle) (g : Nat) : (b.stopsAt g).Nodup := by
  unfold Bundle.stopsAt
  split
  · exact List.nodup_singleton g
  · next h => simpa using h

theorem trapped_halt (t : Team) (s : State) (b : Bundle) (g l : Nat) (tr : Trap) : (t.trapped s b g l tr).halt =
    some { tr.halt s b g l t with stops := (b.stopsAt g).foldl (fun l g => updAt l g fun _ => true) (stopList t true) } := by
  rw [Team.trapped, quitGroups_halt]
  rfl

@[simp] theorem trapThread_regs (tr : Trap) (pc : VAddr) (th : Thread) : (tr.thread pc th).regs = th.regs := by
  unfold Trap.thread; split <;> rfl
@[simp] theorem trapThread_preds (tr : Trap) (pc : VAddr) (th : Thread) : (tr.thread pc th).preds = th.preds := by
  unfold Trap.thread; split <;> rfl
@[simp] theorem trapThread_exited (tr : Trap) (pc : VAddr) (th : Thread) : (tr.thread pc th).exited = th.exited := by
  unfold Trap.thread; split <;> rfl
@[simp] theorem trapThread_hold (tr : Trap) (pc : VAddr) (th : Thread) : (tr.thread pc th).hold = th.hold := by
  unfold Trap.thread; split <;> rfl

/-- A thread of the team before its group stops: woken by an uncorrectable error, and the faulting one at its recorded PC. -/
def Trap.before (tr : Trap) (pc : VAddr) (faulting : Prop) [Decidable faulting] (th : Thread) : Thread :=
  let th0 := if tr.cause = 0xA1 then th.wake else th
  if faulting then tr.thread pc th0 else th0

section
variable (tr : Trap) (pc : VAddr) (faulting : Prop) [Decidable faulting] (th : Thread)
@[simp] theorem before_regs : (tr.before pc faulting th).regs = th.regs := by
  unfold Trap.before; split <;> split <;> simp
@[simp] theorem before_preds : (tr.before pc faulting th).preds = th.preds := by
  unfold Trap.before; split <;> split <;> simp
@[simp] theorem before_exited : (tr.before pc faulting th).exited = th.exited := by
  unfold Trap.before; split <;> split <;> simp
@[simp] theorem before_hold : (tr.before pc faulting th).hold = th.hold := by
  unfold Trap.before; split <;> split <;> simp
theorem before_pc_faulting {faulting : Prop} [Decidable faulting] (h : faulting) : (tr.before pc faulting th).pc = pc := by
  simp only [Trap.before, if_pos h]
  rfl
theorem before_pc_other {faulting : Prop} [Decidable faulting] (h : ¬ faulting) {th : Thread} (hpark : ∀ c, th.park ≠ some (.wfi c)) :
    (tr.before pc faulting th).pc = th.pc := by
  simp only [Trap.before, if_neg h]
  split
  · exact wake_pc hpark
  · rfl
end

theorem trapped_thread? {t : Team} {th : Thread} {x y : Nat} (hth : t.thread? x y = some th) (s : State) (b : Bundle) (g l : Nat) (tr : Trap) :
    ∃ th', (t.trapped s b g l tr).thread? x y = some th' ∧
      Quit (x ∈ b.stopsAt g) (tr.before (if tr.done then b.pc + 10 else b.pc) (x = g ∧ y = l) th) th' := by
  have hwoken : (if tr.cause = 0xA1 then t.woken else t).thread? x y = some (if tr.cause = 0xA1 then th.wake else th) := by
    split
    · rw [Team.woken, mapThreads_thread?, hth, Option.map_some]
    · exact hth
  obtain ⟨th', hth', hquit, -⟩ := quitGroups_thread? (x := x) (y := y) (b.stopsAt g) (stopsAt_nodup b g)
    (t := { (if tr.cause = 0xA1 then t.woken else t).updThread g l (tr.thread (if tr.done then b.pc + 10 else b.pc)) with
      halt := some (tr.halt s b g l t) })
    ((updThread_thread? _ g l _ x y).trans (by rw [hwoken, Option.map_some]))
  exact ⟨th', hth', hquit⟩

/-- Settles O37. -/
theorem takingAnException : Obligations.TakingAnException := by
  unfold Obligations.TakingAnException
  refine ⟨fun s b g l tr t ht hh _ hdesc => ⟨⟨_, _, takeTrap_team? ht hh g l tr, trapped_halt t s b g l tr, rfl, rfl, rfl, rfl, rfl, rfl,
      rfl, rfl, fun x gr hgr => ?_, fun x y th hth => ?_⟩, takeTrap_pending ht hh g l tr hdesc, ?_⟩, fun s b g l tr t h ht hh => ?_⟩
  · have hlist : (stopList t true)[x]? = some (gr.threads.all fun th => th.exited) := by simp [stopList, hgr]
    simp [stops_getElem?, hlist, mem_stopsAt]
  · obtain ⟨th', hth', hregs, hpreds, hexited, hpc, hquit⟩ := trapped_thread? hth s b g l tr
    rw [before_regs] at hregs
    rw [before_preds] at hpreds
    rw [before_exited] at hexited
    rw [before_hold] at hquit
    refine ⟨th', hth', hregs, hpreds, hexited, fun hxy => ?_, fun hxy hpark => ?_⟩
    · obtain ⟨hx, hy⟩ := Prod.mk.inj hxy
      exact ⟨hpc.trans (before_pc_faulting _ _ _ ⟨hx, hy⟩), hquit ((mem_stopsAt b g x).mpr (.inl hx))⟩
    · exact hpc.trans (before_pc_other _ _ (fun ⟨hx, hy⟩ => hxy (by rw [hx, hy])) hpark)
  · obtain ⟨hmem, htags, -, hcores⟩ := onlyCore_takeTrap s b g l tr
    exact ⟨hmem, htags, hcores⟩
  · simp only [State.takeTrap, ht, hh]
    exact ⟨_, stopGroup_team? ht b.group, by rw [Team.quitGroup, hh]; rfl⟩

end Sys2Proof.Machine

/-! PROOF. Relocations (O50): what stops on a core that moves, the target and its replacement, a relocation that is given up, and
the exchange of two sites. -/

namespace Sys2Proof.Machine

/-! ## Steps that leave memory, other cores, sites and relocations alone -/

/-- From s to s' nothing has happened to memory, to a core but c, to a site or to a relocation, and no cycle has passed. -/
def Local (c : Nat) (s s' : State) : Prop := OnlyCore c s s' ∧ s'.relocs = s.relocs ∧ s'.sites = s.sites ∧ s'.cycle = s.cycle

theorem Local.refl (c : Nat) (s : State) : Local c s s := ⟨OnlyCore.refl c s, rfl, rfl, rfl⟩
theorem Local.trans {c : Nat} {s t u : State} (h : Local c s t) (k : Local c t u) : Local c s u := by
  obtain ⟨hcore, hrelocs, hsites, hcycle⟩ := h
  obtain ⟨kcore, krelocs, ksites, kcycle⟩ := k
  exact ⟨hcore.trans kcore, krelocs.trans hrelocs, ksites.trans hsites, kcycle.trans hcycle⟩
theorem local_foldl {β : Type} {c : Nat} {f : State → β → State} (hf : ∀ s x, Local c s (f s x)) :
    ∀ (l : List β) (s : State), Local c s (l.foldl f s)
  | [], s => Local.refl c s
  | x :: r, s => (hf s x).trans (local_foldl hf r (f s x))

theorem local_updCore (s : State) (c : Nat) (f : Core → Core) : Local c s (s.updCore c f) := ⟨onlyCore_updCore s c f, rfl, rfl, rfl⟩
theorem local_stopGroup (s : State) (c id g : Nat) : Local c s (s.stopGroup c id g) := ⟨onlyCore_stopGroup s c id g, rfl, rfl, rfl⟩
theorem local_stopOps (s : State) (c : Nat) (p : MatOp → Bool) : Local c s (s.stopOps c p) := ⟨onlyCore_stopOps s c p, rfl, rfl, rfl⟩
theorem local_noteError (s : State) (c : Nat) : Local c s (s.noteError c) := ⟨onlyCore_noteError s c, rfl, rfl, rfl⟩
theorem local_updNamed (s : State) (c ctx vtid : Nat) (f : Team → Team) : Local c s (s.updNamed c ctx vtid f) :=
  ⟨onlyCore_updNamed s c ctx vtid f, rfl, rfl, rfl⟩

theorem local_haltTeam (s : State) (c id : Nat) (h : Halt) (now : List Nat) : Local c s (s.haltTeam c id h now) := by
  have hstops : Local c s (now.foldl (fun s g => s.stopGroup c id g) (s.updTeam c id fun t => { t with halt := some h })) :=
    (local_updCore s c _).trans (local_foldl (fun s g => local_stopGroup s c id g) now _)
  unfold State.haltTeam
  dsimp only
  split
  · exact hstops.trans ((local_stopOps _ c _).trans ⟨⟨rfl, rfl, rfl, fun _ _ => rfl⟩, rfl, rfl, rfl⟩)
  · exact hstops

/-! ## A core whose groups stand still (R221, R227, R347) -/

theorem local_stopHalting (s : State) (c : Nat) (p : Team → Bool) : Local c s (s.stopHalting c p) := by
  refine local_foldl (fun s t => local_foldl (fun s g => ?_) _ s) _ s
  split
  · exact Local.refl c s
  · exact local_stopGroup s c t.id g

theorem local_returnLeases (s : State) (c : Nat) (p : Team → Bool) : Local c s (s.returnLeases c p) := by
  unfold State.returnLeases
  exact (local_updCore s c _).trans ⟨⟨rfl, rfl, rfl, fun _ _ => rfl⟩, rfl, rfl, rfl⟩

theorem local_standStill (s : State) (c : Nat) (p : Team → Bool) : Local c s (s.standStill c p) := by
  have hstops := ((local_stopHalting s c p).trans (local_returnLeases _ c p)).trans (local_stopOps _ c ((s.core c).opOf p))
  have hrelease := local_updCore (((s.stopHalting c p).returnLeases c p).stopOps c ((s.core c).opOf p)) c fun k =>
    { k with ops := k.ops.map fun o => if (s.core c).opOf p o then o.release else o }
  exact (hstops.trans hrelease).trans ⟨⟨rfl, rfl, rfl, fun _ _ => rfl⟩, rfl, rfl, rfl⟩

theorem stopGroup_core (s : State) (c id g d : Nat) : (s.stopGroup c id g).core d =
    ((s.updTeam c id fun t => t.quitGroup g).updCore c fun k =>
      { k with banks := k.banks.map fun b => { b with grow := b.grow.filter fun x => x != id } }).core d := rfl

theorem stopGroup_ops (s : State) (c id g d : Nat) : ((s.stopGroup c id g).core d).ops = (s.core d).ops := by
  rw [stopGroup_core, updCore_keeps Core.ops, State.updTeam, updCore_keeps Core.ops]
  · exact fun _ => rfl
  · exact fun _ => rfl

/-- What every step of a fold keeps, the fold keeps. -/
theorem foldl_keeps {α β : Type} (view : State → α) {f : State → β → State} (hf : ∀ s x, view (f s x) = view s) :
    ∀ (l : List β) (s : State), view (l.foldl f s) = view s
  | [], _ => rfl
  | x :: r, s => (foldl_keeps view hf r (f s x)).trans (hf s x)

theorem stopHalting_ops (s : State) (c : Nat) (p : Team → Bool) (d : Nat) : ((s.stopHalting c p).core d).ops = (s.core d).ops := by
  have hstep : ∀ (s : State) (t : Team), (((List.range t.groups.length).foldl
      (fun s g => if t.groupStopped g then s else s.stopGroup c t.id g) s).core d).ops = (s.core d).ops := by
    refine fun s t => foldl_keeps (fun s => (s.core d).ops) (fun s g => ?_) _ s
    split
    · rfl
    · exact stopGroup_ops s c t.id g d
  exact foldl_keeps (fun s => (s.core d).ops) hstep _ s

/-- What a change of a core makes of a list of its own that is empty at reset. -/
theorem updCore_list {α : Type} (view : Core → List α) {s : State} {c : Nat} {f : Core → Core} (g : List α → List α)
    (hf : ∀ k, view (f k) = g (view k)) (hreset : view Core.reset = []) (hnil : g [] = []) :
    view ((s.updCore c f).core c) = g (view (s.core c)) := by
  simp only [State.core, State.updCore, List.getD_eq_getElem?_getD, updAt_getElem?_self]
  cases s.cores[c]? with
  | none => exact hreset.trans (hnil.symm.trans (congrArg g hreset.symm))
  | some k => exact hf k

theorem returnLeases_ops (s : State) (c : Nat) (p : Team → Bool) (d : Nat) : ((s.returnLeases c p).core d).ops = (s.core d).ops := by
  unfold State.returnLeases
  exact updCore_keeps Core.ops s c d fun _ => rfl

theorem stopOps_core (s : State) (c : Nat) (p : MatOp → Bool) (d : Nat) :
    (s.stopOps c p).core d = (s.updCore c fun k => { k with ops := k.ops.map fun o => if p o then o.stop s.cycle else o }).core d := rfl
theorem standStill_core (s : State) (c : Nat) (p : Team → Bool) (d : Nat) : (s.standStill c p).core d =
    ((((s.stopHalting c p).returnLeases c p).stopOps c ((s.core c).opOf p)).updCore c fun k =>
      { k with ops := k.ops.map fun o => if (s.core c).opOf p o then o.release else o }).core d := rfl

theorem standStill_ops (s : State) (c : Nat) (p : Team → Bool) : ((s.standStill c p).core c).ops =
    ((s.core c).ops.map fun o => if (s.core c).opOf p o then o.stop s.cycle else o).map fun o =>
      if (s.core c).opOf p o then o.release else o := by
  obtain ⟨-, -, -, hcycle⟩ := (local_stopHalting s c p).trans (local_returnLeases _ c p)
  rw [standStill_core, updCore_list Core.ops (List.map fun o => if (s.core c).opOf p o then o.release else o) (fun _ => rfl) rfl rfl,
    stopOps_core, updCore_list Core.ops (List.map fun o => if (s.core c).opOf p o then o.stop _ else o) (fun _ => rfl) rfl rfl, hcycle,
    returnLeases_ops, stopHalting_ops]

theorem stop_of (o : MatOp) (now : Nat) (t : Team) : (o.stop now).of t = o.of t := by
  unfold MatOp.stop
  split <;> rfl
theorem stop_state (o : MatOp) (now : Nat) :
    (o.stop now).state ≠ .queued ∧ (o.stop now).state ≠ .leaseWait ∧ (o.stop now).state ≠ .running := by
  unfold MatOp.stop
  split <;> simp_all

/-- No operation of a team that stands still waits or runs, and none holds a lease. -/
theorem standStill_stopped {s : State} {c : Nat} {p : Team → Bool} {o : MatOp} (ho : o ∈ ((s.standStill c p).core c).ops)
    (hmine : (s.core c).opOf p o = true) :
    o.state ≠ .queued ∧ o.state ≠ .leaseWait ∧ o.state ≠ .running ∧ o.drawn = 0 ∧ o.granted = none := by
  have hof : ∀ o : MatOp, (s.core c).opOf p (o.stop s.cycle) = (s.core c).opOf p o ∧ (s.core c).opOf p o.release = (s.core c).opOf p o := by
    intro o
    refine ⟨?_, rfl⟩
    simp only [Core.opOf, stop_of]
  rw [standStill_ops, List.map_map, List.mem_map] at ho
  obtain ⟨x, -, rfl⟩ := ho
  obtain ⟨hstop, hrelease⟩ := hof x
  cases hx : (s.core c).opOf p x with
  | true =>
    simp only [Function.comp_apply, hx, if_true, hstop]
    obtain ⟨hq, hl, hr⟩ := stop_state x s.cycle
    exact ⟨hq, hl, hr, rfl, rfl⟩
  | false =>
    simp only [Function.comp_apply, hx, Bool.false_eq_true, if_false] at hmine

/-- A team whose leases have returned (R173, R174). -/
def Team.unleased (t : Team) : Team :=
  let t1 := t.mapThreads fun _ _ th => if th.park = some .lease then th.unpark else th
  { t1 with groups := t1.groups.map fun g => { g with lease := none, threads := g.threads.map Thread.writeWindows } }

theorem returnLeases_core (s : State) (c : Nat) (p : Team → Bool) (d : Nat) : (s.returnLeases c p).core d =
    (s.updCore c fun k => { k with teams := k.teams.map fun t => if p t then t.unleased else t }).core d := rfl

theorem standStill_leases {s : State} {c : Nat} {t : Team} (ht : t ∈ ((s.standStill c fun _ => true).core c).teams) :
    ∀ gr ∈ t.groups, gr.lease = none := by
  have hteams : ((s.standStill c fun _ => true).core c).teams = ((s.stopHalting c fun _ => true).core c).teams.map Team.unleased := by
    rw [standStill_core, updCore_keeps Core.teams, stopOps_core, updCore_keeps Core.teams, returnLeases_core]
    · exact updCore_list Core.teams (List.map Team.unleased) (fun _ => rfl) rfl rfl
    · exact fun _ => rfl
    · exact fun _ => rfl
  rw [hteams, List.mem_map] at ht
  obtain ⟨x, -, rfl⟩ := ht
  intro gr hgr
  simp only [Team.unleased, List.mem_map] at hgr
  obtain ⟨y, -, rfl⟩ := hgr
  rfl

/-! ## The target of a relocation (R346, R347) -/

/-- The target that a relocation keeps or takes anew. -/
def State.nextTarget (s : State) (r : Reloc) : Option Nat :=
  match r.target.filter s.targetGood with
  | some v => some v
  | none => (s.markSite r.target false).target r.core r.named

theorem retarget_none {s : State} {r : Reloc} {step : Nat} (h : s.nextTarget r = none) : s.retarget r step = none := by
  unfold State.nextTarget at h
  unfold State.retarget
  cases hf : r.target.filter s.targetGood with
  | some v => simp [hf] at h
  | none =>
    rw [hf] at h
    simp only [h]

/-- A relocation whose target is kept or chosen anew stands at the step, with that target marked. -/
theorem retarget_some {s : State} {r : Reloc} {step v : Nat} (h : s.nextTarget r = some v) (hr : r ∈ s.relocs) (hstep : r.step ≤ 4) :
    ∃ s1 sites relocs, s.retarget r step = some s1 ∧ s1 = { s with sites := sites, relocs := relocs } ∧
      { r with target := some v, step := step } ∈ relocs ∧
      (r.target.filter s.targetGood = none → ∀ x, s1.siteAt v = some x → x.relocating = true) := by
  unfold State.nextTarget at h
  unfold State.retarget
  cases hf : r.target.filter s.targetGood with
  | some w =>
    simp only [hf, Option.some.injEq] at h
    subst h
    have hw : r.target = some w := (Option.filter_eq_some_iff.mp hf).1
    refine ⟨_, s.sites, _, rfl, rfl, List.mem_map.mpr ⟨r, hr, ?_⟩, fun hno => by cases hno⟩
    rw [if_pos ⟨rfl, hstep⟩, ← hw]
  | none =>
    rw [hf] at h
    simp only [h]
    refine ⟨_, (s.markSite r.target false).sites.map fun x => if x.v = v then { x with relocating := true } else x,
      s.relocs.map fun x => if x.core = r.core ∧ x.step ≤ 4 then { x with target := some v, step := step } else x, rfl,
      by cases r.target <;> rfl, List.mem_map.mpr ⟨r, hr, if_pos ⟨rfl, hstep⟩⟩, fun _ x hx => ?_⟩
    obtain ⟨y, -, rfl⟩ := List.mem_map.mp (List.mem_of_find?_eq_some hx)
    have hv := List.find?_some hx
    by_cases hy : y.v = v
    · rw [if_pos hy]
    · rw [if_neg hy] at hv
      exact absurd (eq_of_beq hv) hy

/-! ## A relocation that is given up (R249, R324, R346) -/

/-- What a forwarding entry holds takes effect in scratchpads alone (R348). -/
theorem applyHeld_frame (s : State) (c : Nat) (h : HeldItem) : (s.applyHeld c h).mem = s.mem ∧ (s.applyHeld c h).relocs = s.relocs := by
  have haimed : ∀ a, (s.applyAimed c h.ctx h.vtid a).2.mem = s.mem ∧ (s.applyAimed c h.ctx h.vtid a).2.relocs = s.relocs := by
    intro a
    cases a with
    | write off d k =>
      unfold State.applyAimed
      dsimp only
      split
      · exact ⟨rfl, rfl⟩
      · split <;> exact ⟨rfl, rfl⟩
    | add off n k =>
      unfold State.applyAimed State.countScratch
      dsimp only
      split <;> exact ⟨rfl, rfl⟩
    | lines l => exact ⟨rfl, rfl⟩
  exact haimed _

theorem dropMove_frame (s : State) (r : Reloc) : (s.dropMove r).mem = s.mem ∧ (s.dropMove r).relocs = s.relocs.filter fun x => decide (x ≠ r) := by
  have hheld : ∀ (l : List HeldItem) (s : State), (l.foldl (fun s h => s.applyHeld r.core h) s).mem = s.mem ∧
      (l.foldl (fun s h => s.applyHeld r.core h) s).relocs = s.relocs := fun l s =>
    ⟨foldl_keeps State.mem (fun s h => (applyHeld_frame s r.core h).1) l s, foldl_keeps State.relocs (fun s h => (applyHeld_frame s r.core h).2) l s⟩
  unfold State.dropMove
  dsimp only
  refine ⟨(hheld _ _).1.trans ?_, (hheld _ _).2.trans ?_⟩
  · cases r.target <;> rfl
  · cases r.target <;> rfl

/-- A relocation whose forwarding entry is empty leaves the core with its operations queued again. -/
theorem dropMove_empty {s : State} {r : Reloc} (h : r.held = []) : ∃ sites relocs, s.dropMove r =
    ({ s with sites := sites, relocs := relocs } : State).moveOn r.core := by
  unfold State.dropMove
  rw [h]
  cases ht : r.target with
  | none => exact ⟨_, _, rfl⟩
  | some v => exact ⟨_, _, rfl⟩

theorem requeueOps_cores {s : State} {c : Nat} {p : Team → Bool} (h : ∀ o ∈ (s.core c).ops, o.state ≠ .stopped) :
    (s.requeueOps c p).cores = s.cores := by
  refine (updAt_congr s.cores _ (fun k => k) c fun k hk => ?_).trans (updAt_id s.cores c)
  have hcore : s.core c = k := by simp only [State.core, List.getD_eq_getElem?_getD, hk, Option.getD_some]
  rw [hcore] at h
  have hmine : ∀ o ∈ k.ops, (k.opOf (fun t => p t && t.halt.isNone) o && decide (o.state = .stopped) && !o.cancelOnly && !o.cancelled) = false := by
    intro o ho
    simp [h o ho]
  dsimp only
  rw [List.filter_eq_self.mpr fun o ho => by rw [hmine o ho]; rfl, List.filter_eq_nil_iff.mpr fun o ho => by rw [hmine o ho]; exact Bool.false_ne_true]
  simp

/-! ## The halt of every team of a core -/

/-- t' is t, perhaps halted since. -/
def Kept (t t' : Team) : Prop := t'.id = t.id ∧ t'.ctx = t.ctx ∧ t'.vtid = t.vtid ∧ (t'.halt = none → t.halt = none)

theorem Kept.refl (t : Team) : Kept t t := ⟨rfl, rfl, rfl, id⟩
theorem Kept.trans {t u v : Team} (h : Kept t u) (k : Kept u v) : Kept t v := by
  obtain ⟨hid, hctx, hvtid, hhalt⟩ := h
  obtain ⟨kid, kctx, kvtid, khalt⟩ := k
  exact ⟨kid.trans hid, kctx.trans hctx, kvtid.trans hvtid, fun e => hhalt (khalt e)⟩
theorem kept_ite {b : Prop} [Decidable b] {t t' : Team} (h : Kept t t') : Kept t (if b then t' else t) := by
  split
  · exact h
  · exact Kept.refl t
theorem kept_quitGroup (t : Team) (g : Nat) : Kept t (t.quitGroup g) := ⟨rfl, rfl, rfl, fun h => by
  simpa [Team.quitGroup] using h⟩
theorem Kept.named {t t' : Team} (h : Kept t t') (ctx vtid : Nat) : t'.isNamed ctx vtid = t.isNamed ctx vtid := by
  obtain ⟨-, hctx, hvtid, -⟩ := h
  rw [Team.isNamed, hctx, hvtid]
  rfl

/-- From s to s' the teams of core c and of its images have stayed, and none of them runs that was halted. -/
def Stay (c : Nat) (s s' : State) : Prop :=
  (∃ f, (∀ t, Kept t (f t)) ∧ (s'.core c).teams = (s.core c).teams.map f) ∧
    ∀ i' ∈ s'.images, i'.core = c → ∃ i ∈ s.images, i.core = c ∧ ∀ t' ∈ i'.teams, ∃ t ∈ i.teams, Kept t t'

theorem Stay.refl (c : Nat) (s : State) : Stay c s s :=
  ⟨⟨id, Kept.refl, (List.map_id _).symm⟩, fun i hi hc => ⟨i, hi, hc, fun t ht => ⟨t, ht, Kept.refl t⟩⟩⟩
theorem Stay.trans {c : Nat} {s u v : State} (h : Stay c s u) (k : Stay c u v) : Stay c s v := by
  obtain ⟨⟨f, hf, hteams⟩, himages⟩ := h
  obtain ⟨⟨g, hg, kteams⟩, kimages⟩ := k
  refine ⟨⟨g ∘ f, fun t => (hf t).trans (hg _), by rw [kteams, hteams, List.map_map]⟩, fun i hi hc => ?_⟩
  obtain ⟨j, hj, hjc, hjt⟩ := kimages i hi hc
  obtain ⟨l, hl, hlc, hlt⟩ := himages j hj hjc
  refine ⟨l, hl, hlc, fun t ht => ?_⟩
  obtain ⟨x, hx, hxt⟩ := hjt t ht
  obtain ⟨y, hy, hyx⟩ := hlt x hx
  exact ⟨y, hy, hyx.trans hxt⟩
theorem stay_foldl {β : Type} {c : Nat} {f : State → β → State} (hf : ∀ s x, Stay c s (f s x)) :
    ∀ (l : List β) (s : State), Stay c s (l.foldl f s)
  | [], s => Stay.refl c s
  | x :: r, s => (hf s x).trans (stay_foldl hf r (f s x))

/-- A change that keeps the images and the teams of every core. -/
theorem stay_of_same {c : Nat} {s s' : State} (hteams : (s'.core c).teams = (s.core c).teams) (himages : s'.images = s.images) : Stay c s s' := by
  obtain ⟨hcore, hi⟩ := Stay.refl c s
  exact ⟨hteams ▸ hcore, himages ▸ hi⟩
theorem stay_updCore {s : State} {c : Nat} {f : Core → Core} (hf : ∀ k, (f k).teams = k.teams) : Stay c s (s.updCore c f) :=
  stay_of_same (updCore_keeps Core.teams s c c hf) rfl
theorem stay_updTeam {s : State} {c id : Nat} {f : Team → Team} (hf : ∀ t, Kept t (f t)) : Stay c s (s.updTeam c id f) := by
  obtain ⟨-, himages⟩ := Stay.refl c s
  exact ⟨⟨fun t => if t.id = id then f t else t, fun t => kept_ite (hf t), updCore_list Core.teams (List.map _) (fun _ => rfl) rfl rfl⟩, himages⟩
theorem stay_updNamed {s : State} {c ctx vtid : Nat} {f : Team → Team} (hf : ∀ t, Kept t (f t)) : Stay c s (s.updNamed c ctx vtid f) := by
  refine ⟨⟨fun t => if t.isNamed ctx vtid then f t else t, fun t => kept_ite (hf t),
    updCore_list Core.teams (List.map _) (fun _ => rfl) rfl rfl⟩, fun i' hi' hc => ?_⟩
  obtain ⟨i, hi, rfl⟩ := List.mem_map.mp hi'
  refine ⟨i, hi, ?_, fun t' ht' => ?_⟩
  · split at hc <;> exact hc
  · split at ht'
    · obtain ⟨t, ht, rfl⟩ := List.mem_map.mp ht'
      exact ⟨t, ht, kept_ite (hf t)⟩
    · exact ⟨t', ht', Kept.refl t'⟩
theorem stay_mapTeams {s : State} {c : Nat} {f : Nat → Team → Team} (hf : ∀ d t, Kept t (f d t)) : Stay c s (s.mapTeams f) := by
  refine ⟨⟨f c, hf c, by rw [mapTeams_core]⟩, fun i' hi' hc => ?_⟩
  obtain ⟨i, hi, rfl⟩ := List.mem_map.mp hi'
  refine ⟨i, hi, hc, fun t' ht' => ?_⟩
  obtain ⟨t, ht, rfl⟩ := List.mem_map.mp ht'
  exact ⟨t, ht, hf _ t⟩
theorem stay_noteError (s : State) (c : Nat) : Stay c s (s.noteError c) := by
  unfold State.noteError State.countError State.wakeCore
  refine (stay_updCore ?_).trans (stay_mapTeams fun d t => ?_)
  · exact fun _ => rfl
  · split
    · exact ⟨rfl, rfl, rfl, id⟩
    · exact Kept.refl t
theorem stay_stopGroup (s : State) (c id g : Nat) : Stay c s (s.stopGroup c id g) :=
  ((stay_updTeam fun t => kept_quitGroup t g).trans (stay_updCore (f := fun k =>
    { k with banks := k.banks.map fun b => { b with grow := b.grow.filter fun x => x != id } }) fun _ => rfl)).trans
    (stay_of_same (congrArg Core.teams (stopGroup_core s c id g c)) rfl)
theorem stay_stopOps (s : State) (c : Nat) (p : MatOp → Bool) : Stay c s (s.stopOps c p) :=
  (stay_updCore (f := fun k => { k with ops := k.ops.map fun o => if p o then o.stop s.cycle else o }) fun _ => rfl).trans
    (stay_of_same (congrArg Core.teams (stopOps_core s c p c)) rfl)

/-- The halt of a team: the teams with its number halt, and the others stay. -/
theorem stay_haltTeam (s : State) (c id : Nat) (h : Halt) (now : List Nat) :
    Stay c (s.updTeam c id fun t => { t with halt := some h }) (s.haltTeam c id h now) := by
  have hstops := stay_foldl (fun s g => stay_stopGroup s c id g) now (s.updTeam c id fun t => { t with halt := some h })
  unfold State.haltTeam
  dsimp only
  split
  · exact hstops.trans ((stay_stopOps _ c _).trans (stay_of_same rfl rfl))
  · exact hstops

/-- A team of core c or of one of its images. -/
def State.hasTeam (s : State) (c : Nat) (t : Team) : Prop := t ∈ (s.core c).teams ∨ ∃ i ∈ s.images, i.core = c ∧ t ∈ i.teams

theorem mem_teamsOf (s : State) (c : Nat) (t : Team) : t ∈ s.teamsOf c ↔ s.hasTeam c t := by
  simp only [State.teamsOf, State.hasTeam, List.mem_append, List.mem_flatten, List.mem_map, List.mem_filter, beq_iff_eq]
  refine or_congr_right ⟨?_, ?_⟩
  · rintro ⟨_, ⟨i, ⟨hi, hc⟩, rfl⟩, ht⟩
    exact ⟨i, hi, hc, ht⟩
  · rintro ⟨i, hi, hc, ht⟩
    exact ⟨_, ⟨i, ⟨hi, hc⟩, rfl⟩, ht⟩

theorem Stay.hasTeam {c : Nat} {s s' : State} (h : Stay c s s') {t' : Team} (ht' : s'.hasTeam c t') : ∃ t, s.hasTeam c t ∧ Kept t t' := by
  obtain ⟨⟨f, hf, hteams⟩, himages⟩ := h
  obtain ht' | ⟨i', hi', hc, ht'⟩ := ht'
  · rw [hteams] at ht'
    obtain ⟨t, ht, rfl⟩ := List.mem_map.mp ht'
    exact ⟨t, Or.inl ht, hf t⟩
  · obtain ⟨i, hi, hic, hit⟩ := himages i' hi' hc
    obtain ⟨t, ht, hk⟩ := hit t' ht'
    exact ⟨t, Or.inr ⟨i, hi, hic, ht⟩, hk⟩

/-- The numbers of a core's teams tell them apart. -/
def State.distinctTeams (s : State) (c : Nat) : Prop := ∀ x ∈ (s.core c).teams, ∀ y ∈ (s.core c).teams, x.id = y.id → x = y

theorem Stay.distinctTeams {c : Nat} {s s' : State} (h : Stay c s s') (hd : s.distinctTeams c) : s'.distinctTeams c := by
  obtain ⟨⟨f, hf, hteams⟩, -⟩ := h
  intro x hx y hy hid
  rw [hteams] at hx hy
  obtain ⟨x, hxs, rfl⟩ := List.mem_map.mp hx
  obtain ⟨y, hys, rfl⟩ := List.mem_map.mp hy
  obtain ⟨hxid, -⟩ := hf x
  obtain ⟨hyid, -⟩ := hf y
  rw [hd x hxs y hys (hxid.symm.trans (hid.trans hyid))]

/-- A team of an image that halts. -/
def Team.haltedBy (h : Halt) (t : Team) : Team := { t with halt := some h, groups := t.groups.map Group.quit, carve := none }
theorem kept_haltedBy (h : Halt) (t : Team) : Kept t (t.haltedBy h) := ⟨rfl, rfl, rfl, fun e => absurd e (Option.some_ne_none h)⟩

theorem haltSpilled_core (s : State) (c : Nat) (t : Team) (h : Halt) (d : Nat) :
    (s.haltSpilled c t h).core d = (s.updNamed c t.ctx t.vtid (Team.haltedBy h)).core d := rfl
theorem haltSpilled_images (s : State) (c : Nat) (t : Team) (h : Halt) :
    (s.haltSpilled c t h).images = (s.updNamed c t.ctx t.vtid (Team.haltedBy h)).images := rfl
theorem stay_haltSpilled (s : State) (c : Nat) (t : Team) (h : Halt) : Stay c s (s.haltSpilled c t h) :=
  (stay_updNamed (kept_haltedBy h)).trans (stay_of_same (congrArg Core.teams (haltSpilled_core s c t h c)) (haltSpilled_images s c t h))

/-- A halt of an image's team halts every team of its name. -/
theorem haltSpilled_named {s : State} {c : Nat} {t t' : Team} {h : Halt} (ht' : (s.haltSpilled c t h).hasTeam c t')
    (hname : t'.isNamed t.ctx t.vtid = true) : t'.halt ≠ none := by
  have hlist : ∀ l : List Team, t' ∈ l.map (fun x => if x.isNamed t.ctx t.vtid then x.haltedBy h else x) → t'.halt ≠ none := by
    intro l hl
    obtain ⟨x, -, rfl⟩ := List.mem_map.mp hl
    split at hname
    · next hx => rw [if_pos hx]; exact Option.some_ne_none h
    · next hx => exact absurd hname hx
  obtain ht' | ⟨i', hi', hc, ht'⟩ := ht'
  · rw [haltSpilled_core] at ht'
    refine hlist (s.core c).teams ?_
    rw [← updCore_list Core.teams (f := fun k => { k with teams := k.teams.map fun x => if x.isNamed t.ctx t.vtid then x.haltedBy h else x })
      (List.map _) (fun _ => rfl) rfl rfl]
    exact ht'
  · obtain ⟨i, -, rfl⟩ := List.mem_map.mp hi'
    by_cases hic : i.core = c
    · rw [if_pos hic] at ht'
      exact hlist i.teams ht'
    · rw [if_neg hic] at hc
      exact absurd hc hic

theorem haltTeam_halted {s : State} {c id : Nat} {h : Halt} {now : List Nat} {t' : Team}
    (ht' : t' ∈ ((s.haltTeam c id h now).core c).teams) (hid : t'.id = id) : t'.halt ≠ none := by
  obtain ⟨⟨f, hf, hteams⟩, -⟩ := stay_haltTeam s c id h now
  rw [hteams, State.updTeam, updCore_list Core.teams (List.map fun t : Team => if t.id = id then { t with halt := some h } else t)
    (fun _ => rfl) rfl rfl, List.map_map] at ht'
  obtain ⟨x, -, rfl⟩ := List.mem_map.mp ht'
  obtain ⟨hfid, -, -, hhalt⟩ := hf (if x.id = id then { x with halt := some h } else x)
  intro hnone
  have hx := hhalt hnone
  split at hx
  · exact nomatch hx
  · next hne =>
    simp only [Function.comp_apply, if_neg hne] at hid hfid
    exact hne (hfid.symm.trans hid)

theorem stay_stopTeam (s : State) (c id cause : Nat) (atOnce : Bool) : Stay c s (s.stopTeam c id cause atOnce) := by
  unfold State.stopTeam
  split
  · exact Stay.refl c s
  · split
    · exact Stay.refl c s
    · exact (stay_updTeam (f := fun t => { t with halt := some _ }) fun x => ⟨rfl, rfl, rfl, fun e => absurd e (Option.some_ne_none _)⟩).trans
        (stay_haltTeam s c id _ _)

theorem stopTeam_halts {s : State} {c id cause : Nat} {atOnce : Bool} {t' : Team} (hd : s.distinctTeams c)
    (ht' : t' ∈ ((s.stopTeam c id cause atOnce).core c).teams) (hid : t'.id = id) : t'.halt ≠ none := by
  unfold State.stopTeam at ht'
  split at ht'
  · next hnone => exact absurd (beq_iff_eq.mpr hid) (List.find?_eq_none.mp hnone t' ht')
  · next y hy =>
    split at ht'
    · next h hh =>
      have hyid : y.id = id := eq_of_beq (List.find?_some (p := fun t : Team => t.id == id) hy)
      rw [hd t' ht' y (List.mem_of_find?_eq_some hy) (hid.trans hyid.symm), hh]
      exact Option.some_ne_none h
    · exact haltTeam_halted ht' hid

theorem stay_loseTeam (s : State) (c : Nat) (t : Team) : Stay c s (s.loseTeam c t) := by
  unfold State.loseTeam
  split
  · split
    · unfold State.stopSpilled
      split
      · exact Stay.refl c s
      · exact stay_haltSpilled ..
    · exact stay_stopTeam ..
  · refine (stay_updNamed (f := fun t => { t with halt := t.halt.map Halt.lose }) fun x => ⟨rfl, rfl, rfl, ?_⟩).trans (stay_of_same rfl rfl)
    exact Option.map_eq_none_iff.mp

/-- The loss of a team that runs halts it. -/
theorem loseTeam_halts {s : State} {c : Nat} {t t' : Team} (hd : s.distinctTeams c) (ht : t.halt = none)
    (ht' : (s.loseTeam c t).hasTeam c t') (hk : Kept t t') : t'.halt ≠ none := by
  have hname : t'.isNamed t.ctx t.vtid = true := by
    rw [hk.named, Team.isNamed, beq_self_eq_true, beq_self_eq_true]
    rfl
  obtain ⟨hid, -⟩ := hk
  have hlose : s.loseTeam c t = if s.spilled c t.ctx t.vtid then s.stopSpilled c t 0xA4 else s.stopTeam c t.id 0xA4 true := by
    simp only [State.loseTeam, ht]
  rw [hlose] at ht'
  cases hsp : s.spilled c t.ctx t.vtid with
  | true =>
    simp only [hsp, if_true, State.stopSpilled, ht, Option.isSome_none, Bool.false_eq_true, if_false] at ht'
    exact haltSpilled_named ht' hname
  | false =>
    simp only [hsp, Bool.false_eq_true, if_false] at ht'
    obtain hmem | ⟨i', hi', hc, hmem⟩ := ht'
    · exact stopTeam_halts hd hmem hid
    · obtain ⟨-, himages⟩ := stay_stopTeam s c t.id 0xA4 true
      obtain ⟨i, hi, hic, hteams⟩ := himages i' hi' hc
      obtain ⟨x, hx, hk⟩ := hteams t' hmem
      refine absurd (List.any_eq_true.mpr ⟨i, hi, ?_⟩) (Bool.eq_false_iff.mp hsp)
      rw [hic, beq_self_eq_true, Bool.true_and]
      exact List.any_eq_true.mpr ⟨x, hx, (hk.named ..).symm.trans hname⟩

theorem local_loseTeam (s : State) (c : Nat) (t : Team) : Local c s (s.loseTeam c t) := by
  unfold State.loseTeam
  split
  · split
    · unfold State.stopSpilled
      split
      · exact Local.refl c s
      · exact (local_updNamed ..).trans ⟨⟨rfl, rfl, rfl, fun _ _ => rfl⟩, rfl, rfl, rfl⟩
    · unfold State.stopTeam
      split
      · exact Local.refl c s
      · split
        · exact Local.refl c s
        · exact local_haltTeam ..
  · exact (local_updNamed ..).trans ⟨⟨rfl, rfl, rfl, fun _ _ => rfl⟩, rfl, rfl, rfl⟩

theorem local_giveUp (s : State) (c : Nat) : Local c s (s.giveUp c) :=
  local_foldl (fun s t => (local_noteError s c).trans (local_loseTeam _ c t)) _ s

/-- Every team of core c that runs is one of the list. -/
def Running (c : Nat) (rem : List Team) (s : State) : Prop := ∀ t, s.hasTeam c t → t.halt = none → ∃ x ∈ rem, Kept x t

theorem running_foldl {c : Nat} : ∀ (rem : List Team) {s : State}, s.distinctTeams c → Running c rem s →
    Running c [] (rem.foldl (fun s t => (s.noteError c).loseTeam c t) s)
  | [], _, _, h => h
  | y :: rem, s, hd, h => by
    have hstay := (stay_noteError s c).trans (stay_loseTeam (s.noteError c) c y)
    refine running_foldl rem (hstay.distinctTeams hd) fun t' ht' hnone => ?_
    obtain ⟨t, ht, hk⟩ := hstay.hasTeam ht'
    have hk' := hk
    obtain ⟨-, -, -, hhalt⟩ := hk'
    obtain ⟨x, hx, hxt⟩ := h t ht (hhalt hnone)
    have hxt' := hxt.trans hk
    obtain rfl | hx := List.mem_cons.mp hx
    · have hxnone := hxt'
      obtain ⟨-, -, -, hxnone⟩ := hxnone
      exact absurd hnone (loseTeam_halts ((stay_noteError s c).distinctTeams hd) (hxnone hnone) ht' hxt')
    · exact ⟨x, hx, hxt'⟩

/-- A core that is given up has no team that runs, in its banks or in its images. -/
theorem giveUp_halts {s : State} {c : Nat} (hd : s.distinctTeams c) : ∀ t ∈ (s.giveUp c).teamsOf c, t.halt ≠ none := by
  intro t ht hnone
  obtain ⟨x, hx, -⟩ := running_foldl (s.teamsOf c) hd (fun t ht _ => ⟨t, (mem_teamsOf s c t).mpr ht, Kept.refl t⟩) t
    ((mem_teamsOf _ c t).mp ht) hnone
  exact absurd hx List.not_mem_nil

theorem noTarget_frame (s : State) (r : Reloc) : (s.noTarget r).mem = s.mem ∧ ∀ x ∈ (s.noTarget r).relocs, x ≠ r := by
  obtain ⟨hmem, hrelocs⟩ := dropMove_frame s r
  have hdrop : ∀ x ∈ (s.dropMove r).relocs, x ≠ r := by
    rw [hrelocs]
    exact fun x hx => of_decide_eq_true (List.mem_filter.mp hx).2
  unfold State.noTarget
  dsimp only
  split
  · exact ⟨hmem, hdrop⟩
  · obtain ⟨⟨gmem, -⟩, grelocs, -⟩ := local_giveUp (s.dropMove r) r.core
    exact ⟨gmem.trans hmem, grelocs.symm ▸ hdrop⟩
  · exact ⟨hmem, hdrop⟩

section
variable {s : State} {r : Reloc}

theorem noTarget_heat (htrigger : r.trigger = 1) : s.noTarget r = (s.dropMove r).heatHold r.core := by simp only [State.noTarget, htrigger]
theorem noTarget_failure (htrigger : r.trigger = 2) : s.noTarget r = (s.dropMove r).giveUp r.core := by simp only [State.noTarget, htrigger]

theorem noTarget_clusters (hheld : r.held = []) (htrigger : r.trigger = 1) {y : Cluster} (hy : y ∈ s.clusters)
    (hcore : y.cores.contains r.core = true) : ∃ x ∈ (s.noTarget r).clusters, x.id = y.id ∧ x.heat = true ∧
      x.q = if y.q < 4 ∧ y.changed + 1100 ≤ s.cycle then 2 * y.q else y.q := by
  obtain ⟨sites, relocs, hdrop⟩ := dropMove_empty (s := s) hheld
  rw [noTarget_heat htrigger, hdrop]
  refine ⟨({ y with heat := true } : Cluster).raise s.cycle, List.mem_map.mpr ⟨y, hy, if_pos hcore⟩, ?_⟩
  unfold Cluster.raise
  dsimp only
  split <;> exact ⟨rfl, rfl, rfl⟩

theorem noTarget_cores (hheld : r.held = []) (htrigger : r.trigger ≠ 2) (hops : ∀ o ∈ (s.core r.core).ops, o.state ≠ .stopped) :
    (s.noTarget r).cores = s.cores := by
  obtain ⟨sites, relocs, hdrop⟩ := dropMove_empty (s := s) hheld
  have hcores : (s.dropMove r).cores = s.cores := by
    rw [hdrop, State.moveOn, requeueOps_cores]
    exact hops
  unfold State.noTarget
  dsimp only
  split
  · exact hcores
  · next h => exact absurd h htrigger
  · exact hcores

theorem noTarget_halts (hheld : r.held = []) (htrigger : r.trigger = 2) (hd : s.distinctTeams r.core) :
    ∀ t ∈ (s.noTarget r).teamsOf r.core, t.halt ≠ none := by
  obtain ⟨sites, relocs, hdrop⟩ := dropMove_empty (s := s) hheld
  rw [noTarget_failure htrigger, hdrop]
  have hteams : ((({ s with sites := sites, relocs := relocs } : State).moveOn r.core).core r.core).teams = (s.core r.core).teams :=
    updCore_keeps Core.teams _ _ _ fun _ => rfl
  refine giveUp_halts ?_
  rw [State.distinctTeams, hteams]
  exact hd

end

/-! ## The step that stops the core (R347) -/

/-- The relocation found is one of the core's before its fourth step. -/
theorem relocation_found {s : State} {c : Nat} {r : Reloc}
    (hfind : s.relocs.find? (fun r => r.core == c && decide (r.step < 4)) = some r) : r ∈ s.relocs ∧ r.core = c ∧ r.step < 4 := by
  have hr := List.find?_some hfind
  rw [Bool.and_eq_true, beq_iff_eq, decide_eq_true_iff] at hr
  exact ⟨List.mem_of_find?_eq_some hfind, hr⟩

section
variable {s : State} {c : Nat} {r : Reloc} (hworks : s.works = true)
  (hfind : s.relocs.find? (fun r => r.core == c && decide (r.step < 4)) = some r)
include hworks hfind

theorem relocationStop_accept (hstep : r.step = 1) : exec (.relocationStop c) s = .next
    (if s.switching c then s else ((s.retarget r 3).map fun s1 => s1.standStill c fun _ => true).getD (s.noTarget r)) := by
  show execRelocationStop c s = _
  simp only [execRelocationStop, State.ifWorks, hworks, if_true, hfind, hstep]
  cases s.retarget r 3 <;> rfl

theorem relocationStop_move (hstep : r.step ≠ 1) : exec (.relocationStop c) s = .next
    (if ((s.core c).opsStill && !s.relocs.any fun x => x.core == c && decide (5 ≤ x.step)) then (s.retarget r 4).getD (s.noTarget r) else s) := by
  show execRelocationStop c s = _
  simp only [execRelocationStop, State.ifWorks, hworks, if_true, hfind, hstep, if_false]
  cases s.retarget r 4 <;> rfl

/-- Steps 1 to 3: the target is registered, and the core's groups, leases and operations stand still. -/
theorem relocationStop_stands {v : Nat} (hstep : r.step = 1) (hswitch : s.switching c = false) (hpick : s.nextTarget r = some v) :
    ∃ s', exec (.relocationStop c) s = .next s' ∧ s'.mem = s.mem ∧ { r with target := some v, step := 3 } ∈ s'.relocs ∧
      (r.target.filter s.targetGood = none → ∀ x, s'.siteAt v = some x → x.relocating = true) ∧
      (∀ o ∈ (s'.core c).ops, (s.core c).teams.any (fun t => o.of t) = true →
        o.state ≠ .queued ∧ o.state ≠ .leaseWait ∧ o.state ≠ .running ∧ o.drawn = 0 ∧ o.granted = none) ∧
      (∀ t ∈ (s'.core c).teams, ∀ gr ∈ t.groups, gr.lease = none) ∧ ∀ d, d ≠ c → s'.core d = s.core d := by
  obtain ⟨hmem, -, hlt⟩ := relocation_found hfind
  obtain ⟨s1, sites, relocs, hs1, heq, hreg, hmark⟩ := retarget_some (step := 3) hpick hmem (by omega)
  obtain ⟨⟨hlmem, -, -, hothers⟩, hrelocs, hsites, -⟩ := local_standStill s1 c fun _ => true
  have hcore : ∀ d, s1.core d = s.core d := fun d => by rw [heq]; rfl
  refine ⟨s1.standStill c fun _ => true, ?_, hlmem.trans (by rw [heq]), ?_, fun hnone x hx => hmark hnone x ?_, fun o ho hof => ?_,
    fun t ht => standStill_leases ht, fun d hd => (hothers d hd).trans (hcore d)⟩
  · rw [relocationStop_accept hworks hfind hstep, hswitch, hs1]
    rfl
  · rw [hrelocs, heq]
    exact hreg
  · rw [State.siteAt, hsites] at hx
    exact hx
  · exact standStill_stopped ho (by simpa only [Core.opOf, hcore, Bool.true_and] using hof)

/-- Step 4 begins once every operation stands at a block boundary and no earlier move's entry is open. -/
theorem relocationStop_moves {v : Nat} (hstep : r.step ≠ 1) (htarget : r.target = some v)
    (hstill : ∀ o ∈ (s.core c).ops, o.state = .stopped ∨ o.state = .faulted) (hgood : s.targetGood v = true)
    (hearlier : ∀ x ∈ s.relocs, x.core = c → x.step < 5) : exec (.relocationStop c) s =
      .next { s with relocs := s.relocs.map fun x => if x.core = c ∧ x.step ≤ 4 then { x with step := 4 } else x } := by
  obtain ⟨-, hcore, -⟩ := relocation_found hfind
  have hready : ((s.core c).opsStill && !s.relocs.any fun x => x.core == c && decide (5 ≤ x.step)) = true := by
    simp only [Core.opsStill, Bool.and_eq_true, List.all_eq_true, decide_eq_true_eq, Bool.not_eq_true', List.any_eq_false, beq_iff_eq, not_and]
    exact ⟨hstill, fun x hx hxc => Nat.not_le.mpr (hearlier x hx hxc)⟩
  rw [relocationStop_move hworks hfind hstep, if_pos hready, State.retarget, htarget, Option.filter_some, if_pos hgood, hcore]
  rfl

theorem relocationStop_waits (hstep : r.step ≠ 1)
    (hwait : (∃ o ∈ (s.core c).ops, o.state = .running ∨ o.state = .stopping) ∨ ∃ x ∈ s.relocs, x.core = c ∧ 5 ≤ x.step) :
    exec (.relocationStop c) s = .next s := by
  have hbusy : ¬ ((s.core c).opsStill && !s.relocs.any fun x => x.core == c && decide (5 ≤ x.step)) = true := by
    simp only [Core.opsStill, Bool.and_eq_true, List.all_eq_true, decide_eq_true_eq, Bool.not_eq_true', List.any_eq_false, beq_iff_eq, not_and]
    rintro hstill hnone
    obtain ⟨o, ho, hstate⟩ | ⟨x, hx, hxc, hxs⟩ := hwait
    · obtain h | h := hstill o ho <;> rw [h] at hstate <;> exact absurd hstate (by decide)
    · exact hnone x hx hxc hxs
  rw [relocationStop_move hworks hfind hstep, if_neg hbusy]

theorem relocationStop_noTarget (hstep : r.step = 1) (hswitch : s.switching c = false) (hpick : s.nextTarget r = none) :
    exec (.relocationStop c) s = .next (s.noTarget r) := by
  rw [relocationStop_accept hworks hfind hstep, hswitch, retarget_none hpick]
  rfl

end

/-! ## The exchange of two sites (R328, R347, R349) -/

theorem swapSites_v (a b x : Site) : (swapSites a b x).v = x.v := by
  unfold swapSites
  split
  · rfl
  · split <;> rfl

/-- The state after the exchange of a core's site me with its target's. -/
def State.exchanged (s : State) (c : Nat) (me tgt : Site) : State :=
  let s3 := ((({ s with sites := s.sites.map (swapSites me tgt) } : State).arrive c).updReloc c fun x => { x with step := 5 }).moveOn c
  { s3 with relocs := s3.relocs.filter fun x => !(x.core == c && x.step == 5 && x.held.isEmpty) }

theorem exchanged_siteAt (s : State) (c : Nat) (me tgt : Site) (u : Nat) :
    (s.exchanged c me tgt).siteAt u = (s.siteAt u).map (swapSites me tgt) := by
  have hsites : (s.exchanged c me tgt).sites = s.sites.map (swapSites me tgt) := rfl
  simp only [State.siteAt, hsites, List.find?_map, Function.comp_def, swapSites_v]

theorem siteAt_v {s : State} {u : Nat} {x : Site} (h : s.siteAt u = some x) : x.v = u :=
  eq_of_beq (List.find?_some (p := fun x : Site => x.v == u) h)

/-- Two sites of the table are of different value, and not of one core (R327). -/
def State.sitesApart (s : State) : Prop := s.sites.Pairwise fun x y => x.v ≠ y.v ∧ (x.core = y.core → x.core = none)

theorem State.sitesApart.eq {s : State} (h : s.sitesApart) {x y : Site} (hx : x ∈ s.sites) (hy : y ∈ s.sites) {c : Nat}
    (hxc : x.core = some c) (hyc : y.core = some c) : x = y := by
  by_contra hne
  have hsymm : Std.Symm fun x y : Site => x.v ≠ y.v ∧ (x.core = y.core → x.core = none) :=
    ⟨fun x y ⟨hv, hc⟩ => ⟨hv.symm, fun e => e.trans (hc e.symm)⟩⟩
  obtain ⟨-, hcore⟩ := List.Pairwise.forall h hx hy hne
  exact nomatch hxc.symm.trans (hcore (hxc.trans hyc.symm))

section
variable {s : State} {c v : Nat} {me tgt : Site}

/-- The core stands on its target. -/
theorem exchanged_siteOf (hme : s.siteAt (s.siteOf c) = some me) (hmecore : me.core = some c) (htgt : s.siteAt v = some tgt) (hne : me.v ≠ v)
    (hapart : s.sitesApart) : (s.exchanged c me tgt).siteOf c = v := by
  have hmem := List.mem_of_find?_eq_some hme
  have htmem := List.mem_of_find?_eq_some htgt
  have htv := siteAt_v htgt
  have honly : ∀ y ∈ s.sites, (swapSites me tgt y).core = some c → y.v = v := by
    intro y hy hcore
    unfold swapSites at hcore
    split at hcore
    · exact absurd (congrArg Site.v (hapart.eq hmem htmem hmecore hcore) |>.trans htv) hne
    · next hyme =>
      split at hcore
      · next hyt => exact hyt.trans htv
      · exact absurd (congrArg Site.v (hapart.eq hy hmem hcore hmecore)) hyme
  have hthere : (swapSites me tgt tgt).core = some c := by
    rw [swapSites, if_neg fun e => hne (e.symm.trans htv), if_pos rfl]
    exact hmecore
  have hsome : ((s.sites.map (swapSites me tgt)).find? fun x => x.core == some c).isSome := by
    rw [List.find?_isSome]
    exact ⟨_, List.mem_map.mpr ⟨tgt, htmem, rfl⟩, beq_iff_eq.mpr hthere⟩
  obtain ⟨z, hz⟩ := Option.isSome_iff_exists.mp hsome
  obtain ⟨y, hy, rfl⟩ := List.mem_map.mp (List.mem_of_find?_eq_some hz)
  have hsiteOf : (s.exchanged c me tgt).siteOf c = (swapSites me tgt y).v := by
    have hsites : (s.exchanged c me tgt).sites = s.sites.map (swapSites me tgt) := rfl
    simp only [State.siteOf, hsites, hz]
  rw [hsiteOf, swapSites_v]
  exact honly y hy (eq_of_beq (List.find?_some (p := fun x : Site => x.core == some c) hz))

theorem exchanged_target (htgt : s.siteAt v = some tgt) (hne : me.v ≠ v) :
    (s.exchanged c me tgt).siteAt v = some { tgt with core := me.core, pool := me.pool, relocating := false } := by
  have htv := siteAt_v htgt
  rw [exchanged_siteAt, htgt, Option.map_some, swapSites, if_neg fun e => hne (e.symm.trans htv), if_pos rfl]

theorem exchanged_source {u : Nat} (hme : s.siteAt u = some me) :
    (s.exchanged c me tgt).siteAt me.v = some { me with core := tgt.core, pool := tgt.pool, relocating := false } := by
  rw [exchanged_siteAt, show s.siteAt me.v = some me from (siteAt_v hme).symm ▸ hme, Option.map_some, swapSites, if_pos rfl]

theorem exchanged_elsewhere {u : Nat} (htgt : s.siteAt v = some tgt) (hu : u ≠ v) (hume : u ≠ me.v) : (s.exchanged c me tgt).siteAt u = s.siteAt u := by
  rw [exchanged_siteAt]
  cases hx : s.siteAt u with
  | none => rfl
  | some x =>
    have hxu := siteAt_v hx
    have htv := siteAt_v htgt
    rw [Option.map_some, swapSites, if_neg fun e => hume (hxu.symm.trans e), if_neg fun e => hu (hxu.symm.trans (e.trans htv))]

end

theorem exchanged_core (s : State) (c : Nat) (me tgt : Site) (d : Nat) : (s.exchanged c me tgt).core d =
    (((({ s with sites := s.sites.map (swapSites me tgt) } : State).arrive c).updReloc c fun x => { x with step := 5 }).moveOn c).core d := rfl

/-- Stopped operations that rejoin the queue: no other has changed, and nothing else of the core. -/
theorem requeueOps_core {s : State} {c : Nat} (p : Team → Bool) (hc : c < s.cores.length) :
    (s.requeueOps c p).core c = { s.core c with ops := ((s.requeueOps c p).core c).ops } := by
  simp only [State.requeueOps, State.core, State.updCore, updAt_getD_self _ _ _ hc]

theorem requeueOps_mem {s : State} {c : Nat} {p : Team → Bool} (hc : c < s.cores.length) {o : MatOp} (ho : o ∈ ((s.requeueOps c p).core c).ops) :
    ∃ q ∈ (s.core c).ops, o = q ∨ q.state = .stopped ∧ o = { q with state := .queued, target := none } := by
  simp only [State.requeueOps, State.core, State.updCore, updAt_getD_self _ _ _ hc, List.mem_append, List.mem_filter, List.mem_map,
    Bool.and_eq_true, decide_eq_true_eq] at ho
  obtain ⟨ho, -⟩ | ⟨q, ⟨hq, ⟨⟨-, hstop⟩, -⟩, -⟩, rfl⟩ := ho
  · exact ⟨o, ho, Or.inl rfl⟩
  · exact ⟨q, hq, Or.inr ⟨hstop, rfl⟩⟩

theorem arrive_core {s : State} {c : Nat} (hc : c < s.cores.length) : (s.arrive c).core c = { s.core c with
    teams := (s.core c).teams.map fun t => { t with relocs := t.relocs + 1 }, l1 := [], fills := [], tlb := [], ilines := [] } := by
  have hcore : (s.updCore c Core.arrive).core c = (s.core c).arrive := updAt_getD_self _ _ _ hc
  rw [State.arrive, mapTeams_core, hcore]
  simp only [if_true]
  rfl
theorem arrive_images (s : State) (c : Nat) : (s.arrive c).images = s.images.map fun x =>
    if x.core = c then { x with teams := x.teams.map fun t => { t with relocs := t.relocs + 1 } } else x := by
  refine List.map_congr_left fun x _ => ?_
  by_cases hx : x.core = c
  · simp only [hx, if_true]
  · simp only [hx, if_false, List.map_id']
theorem arrive_length (s : State) (c : Nat) : (s.arrive c).cores.length = s.cores.length :=
  (mapIdxFrom_length ..).trans (updAt_length ..)

theorem updReloc_core (s : State) (c : Nat) (f : Reloc → Reloc) (d : Nat) : (s.updReloc c f).core d = s.core d := rfl

/-- A core's own state after the exchange (R20, R347; log 53). -/
theorem exchanged_own {s : State} {c : Nat} (me tgt : Site) (hc : c < s.cores.length) : (s.exchanged c me tgt).core c = { s.core c with
    teams := (s.core c).teams.map fun t => { t with relocs := t.relocs + 1 }
    ops := ((s.exchanged c me tgt).core c).ops, l1 := [], fills := [], tlb := [], ilines := [] } := by
  have harrive := arrive_core (s := { s with sites := s.sites.map (swapSites me tgt) }) hc
  refine (requeueOps_core _ ((arrive_length ..).symm ▸ hc)).trans ?_
  rw [updReloc_core, harrive]
  rfl

theorem exchanged_ops {s : State} {c : Nat} {me tgt : Site} (hc : c < s.cores.length) {o : MatOp}
    (ho : o ∈ ((s.exchanged c me tgt).core c).ops) :
    ∃ q ∈ (s.core c).ops, o = q ∨ q.state = .stopped ∧ o = { q with state := .queued, target := none } := by
  rw [exchanged_core] at ho
  obtain ⟨q, hq, hor⟩ := requeueOps_mem ((arrive_length ..).symm ▸ hc) ho
  refine ⟨q, ?_, hor⟩
  have harrive := arrive_core (s := { s with sites := s.sites.map (swapSites me tgt) }) hc
  have hq' : q ∈ ((({ s with sites := s.sites.map (swapSites me tgt) } : State).arrive c).core c).ops := hq
  rw [harrive] at hq'
  exact hq'

theorem exchanged_others (s : State) (c : Nat) (me tgt : Site) {d : Nat} (hd : d ≠ c) : (s.exchanged c me tgt).core d = s.core d := by
  rw [exchanged_core, State.moveOn, State.requeueOps]
  refine (updAt_getD_ne _ _ _ hd).trans ((updReloc_core _ c _ d).trans ?_)
  rw [State.arrive, mapTeams_core]
  simp only [hd, if_false, List.map_id']
  exact updAt_getD_ne _ _ _ hd

theorem commit_found {s : State} {c : Nat} {r : Reloc} (hfind : s.relocs.find? (fun r => r.core == c && r.step == 4) = some r) :
    r ∈ s.relocs ∧ r.core = c ∧ r.step = 4 := by
  have hr := List.find?_some hfind
  rw [Bool.and_eq_true, beq_iff_eq, beq_iff_eq] at hr
  exact ⟨List.mem_of_find?_eq_some hfind, hr⟩

section
variable {s : State} {c v : Nat} {r : Reloc} (hworks : s.works = true)
  (hfind : s.relocs.find? (fun r => r.core == c && r.step == 4) = some r) (htarget : r.target = some v)
include hworks hfind htarget

theorem relocationCommit_exchanges {me tgt : Site} (hgood : s.targetGood v = true) (hme : s.siteAt (s.siteOf c) = some me)
    (htgt : s.siteAt v = some tgt) : exec (.relocationCommit c) s = .next (s.exchanged c me tgt) := by
  have hkeep : (r.target.filter s.targetGood).bind s.siteAt = some tgt := by rw [htarget, Option.filter_some, if_pos hgood]; exact htgt
  show execRelocationCommit c s = _
  simp only [execRelocationCommit, State.ifWorks, hworks, if_true, hfind, hkeep, hme]
  rfl

theorem relocationCommit_retargets (hgood : s.targetGood v = false) :
    exec (.relocationCommit c) s = .next ((s.retarget r 4).getD (s.noTarget r)) := by
  have hdrop : (r.target.filter s.targetGood).bind s.siteAt = none := by rw [htarget, Option.filter_some, hgood]; rfl
  show execRelocationCommit c s = _
  simp only [execRelocationCommit, State.ifWorks, hworks, if_true, hfind, hdrop]
  cases s.retarget r 4 <;> rfl

end

theorem nextTarget_anew {s : State} {r : Reloc} {v : Nat} (htarget : r.target = some v) (hgood : s.targetGood v = false) :
    s.nextTarget r = (s.markSite (some v) false).target r.core r.named := by
  have hnone : r.target.filter s.targetGood = none := by rw [htarget, Option.filter_some, hgood]; rfl
  rw [State.nextTarget, hnone, htarget]

/-- Settles O50: the steps of the stop, then the commit with its target good, replaced, or gone. -/
theorem relocations : Obligations.Relocations := by
  unfold Obligations.Relocations
  refine ⟨fun s c r hworks hfind => ?_, fun s c v r me tgt hworks hc hfind htarget hme hmecore htgt hapart hne => ⟨fun hgood => ?_, fun w hgood hw => ?_,
    fun hgood hw => ?_⟩⟩
  · obtain ⟨hmem, hcore, hlt⟩ := relocation_found hfind
    subst hcore
    refine ⟨fun hstep hswitch => ?_, fun v hstep hswitch hpick _ _ => relocationStop_stands hworks hfind hstep hswitch hpick,
      fun v hstep htarget hstill hgood hearlier => relocationStop_moves hworks hfind hstep htarget hstill hgood hearlier,
      fun o hstep ho hstate => relocationStop_waits hworks hfind hstep (Or.inl ⟨o, ho, hstate⟩),
      fun hstep hopen => relocationStop_waits hworks hfind hstep (Or.inr hopen), fun hstep hswitch hpick hheld => ?_⟩
    · rw [relocationStop_accept hworks hfind hstep, hswitch]
      rfl
    · obtain ⟨hnmem, hngone⟩ := noTarget_frame s r
      exact ⟨_, relocationStop_noTarget hworks hfind hstep hswitch hpick, hnmem, hngone, fun ht y hy hyc => noTarget_clusters hheld ht hy hyc,
        fun ht hops => noTarget_cores hheld ht hops, fun ht _ hd => noTarget_halts hheld ht hd⟩
  · exact ⟨_, relocationCommit_exchanges hworks hfind htarget hgood hme htgt, rfl, rfl, exchanged_siteOf hme hmecore htgt hne hapart,
      ⟨_, exchanged_target htgt hne, hmecore, rfl, rfl⟩, ⟨_, exchanged_source hme, rfl, rfl, rfl⟩,
      fun u hu hume => exchanged_elsewhere htgt hu hume, exchanged_own me tgt hc, arrive_images _ c, fun o ho => exchanged_ops hc ho,
      fun d hd => exchanged_others s c me tgt hd⟩
  · obtain ⟨hr, hcore, hstep⟩ := commit_found hfind
    subst hcore
    obtain ⟨s1, sites, relocs, hs1, heq, hreg, -⟩ := retarget_some (step := 4) ((nextTarget_anew htarget hgood).trans hw) hr (by omega)
    refine ⟨s1, ?_, by rw [heq], by rw [heq], ?_⟩
    · rw [relocationCommit_retargets hworks hfind htarget hgood, hs1]
      rfl
    · rw [heq, ← hstep] at *
      exact hreg
  · obtain ⟨hr, hcore, hstep⟩ := commit_found hfind
    subst hcore
    obtain ⟨hmem, hgone⟩ := noTarget_frame s r
    refine ⟨_, ?_, hmem, hgone⟩
    rw [relocationCommit_retargets hworks hfind htarget hgood, retarget_none ((nextTarget_anew htarget hgood).trans hw)]
    rfl

end Sys2Proof.Machine

/-! PROOF. The grid scheduler (O45): its queues and their counters, the head that is taken, the placement of a cluster and the
completion of a grid. -/

namespace Sys2Proof.Machine

/-! ## Queues of a changed state -/

/-- Queue j of descriptor i exists. -/
def State.hasQueue (s : State) (i j : Nat) : Prop := i < s.queues.length ∧ j < (s.queues.getD i []).length

theorem updQueue_queueAt {s : State} {i j : Nat} (h : s.hasQueue i j) (f : Queue → Queue) : (s.updQueue i j f).queueAt i j = f (s.queueAt i j) := by
  obtain ⟨hi, hj⟩ := h
  simp only [State.queueAt, State.updQueue, updAt_getD_self _ _ _ hi, updAt_getD_self _ _ _ hj]

theorem updQueue_hasQueue {s : State} {i j : Nat} (h : s.hasQueue i j) (f : Queue → Queue) : (s.updQueue i j f).hasQueue i j := by
  obtain ⟨hi, hj⟩ := h
  refine ⟨by rwa [State.updQueue, updAt_length], ?_⟩
  rw [State.updQueue, updAt_getD_self _ _ _ hi, updAt_length]
  exact hj

theorem updQueue_updQueue (s : State) (i j : Nat) (f g : Queue → Queue) :
    (s.updQueue i j f).updQueue i j g = s.updQueue i j fun q => g (f q) := by
  simp only [State.updQueue, updAt_updAt]

/-- What a change makes of the queue as it stands says all of it. -/
theorem updQueue_congr {s : State} {i j : Nat} {f g : Queue → Queue} (h : f (s.queueAt i j) = g (s.queueAt i j)) :
    s.updQueue i j f = s.updQueue i j g := by
  refine congrArg (fun l => { s with queues := l }) (updAt_congr _ _ _ i fun l hl => updAt_congr _ _ _ j fun q hq => ?_)
  have hat : s.queueAt i j = q := by
    simp only [State.queueAt, List.getD_eq_getElem?_getD, hl, hq, Option.getD_some]
  rw [hat] at h
  exact h

/-- A queue without what pushes and reasons change of it. -/
def Queue.blocks (q : Queue) : Queue := { q with pushed := false, head := none, rslot := 0, reason := 0 }

/-- From s to s' no queue has changed but for pushes of its waiters, its head and its reason, and no grid. -/
def QuietQueues (s s' : State) : Prop :=
  s'.grids = s.grids ∧ (∀ i j, s.hasQueue i j → s'.hasQueue i j) ∧ ∀ i j, (s'.queueAt i j).blocks = (s.queueAt i j).blocks

theorem quietQueues_of_same {s s' : State} (hgrids : s'.grids = s.grids) (hqueues : s'.queues = s.queues) : QuietQueues s s' :=
  ⟨hgrids, fun i j h => by rw [State.hasQueue, hqueues]; exact h, fun i j => by rw [State.queueAt, hqueues]; rfl⟩
theorem QuietQueues.trans {s t u : State} (h : QuietQueues s t) (k : QuietQueues t u) : QuietQueues s u := by
  obtain ⟨hgrids, hhas, hat⟩ := h
  obtain ⟨kgrids, khas, kat⟩ := k
  exact ⟨kgrids.trans hgrids, fun i j hij => khas i j (hhas i j hij), fun i j => (kat i j).trans (hat i j)⟩

theorem blocks_fields {q q' : Queue} (h : q'.blocks = q.blocks) :
    q'.finished = q.finished ∧ q'.finishedTo = q.finishedTo ∧ q'.qs = q.qs ∧ q'.refused = q.refused := by
  have hfinished := congrArg Queue.finished h
  have hto := congrArg Queue.finishedTo h
  have hqs := congrArg Queue.qs h
  have hrefused := congrArg Queue.refused h
  exact ⟨hfinished, hto, hqs, hrefused⟩

theorem quiet_updQueue (s : State) (i j : Nat) {f : Queue → Queue} (hf : ∀ q, (f q).blocks = q.blocks) : QuietQueues s (s.updQueue i j f) := by
  have hlength : ∀ i', ((s.updQueue i j f).queues.getD i' []).length = (s.queues.getD i' []).length := by
    intro i'
    simp only [State.updQueue, List.getD_eq_getElem?_getD, updAt_getElem?]
    split
    · cases s.queues[i']? with
      | none => rfl
      | some l => simp
    · rfl
  refine ⟨rfl, fun i' j' ⟨hi, hj⟩ => ⟨by rwa [State.updQueue, updAt_length], by rwa [hlength]⟩, fun i' j' => ?_⟩
  simp only [State.queueAt, State.updQueue, List.getD_eq_getElem?_getD, updAt_getElem?]
  split
  · cases s.queues[i']? with
    | none => rfl
    | some l =>
      simp only [Option.map_some, Option.getD_some, updAt_getElem?]
      split
      · cases l[j']? with
        | none => rfl
        | some q => exact hf q
      · rfl
  · rfl

theorem quiet_claim (s : State) (l : Leaf) (a : Option Nat) : QuietQueues s (s.claim l a) := by
  have hpage : ∀ (s : State) (f : PageRec → PageRec), (s.updPage l f).grids = s.grids ∧ (s.updPage l f).queues = s.queues := by
    intro s f
    unfold State.updPage
    split <;> exact ⟨rfl, rfl⟩
  have hdemote : ∀ (s : State) (p : PageRec), (s.demote p).grids = s.grids ∧ (s.demote p).queues = s.queues := by
    intro s p
    unfold State.demote
    cases p.owner <;> exact ⟨rfl, rfl⟩
  have hboth : (s.claim l a).grids = s.grids ∧ (s.claim l a).queues = s.queues := by
    unfold State.claim
    split
    · split
      · split
        · split
          · exact ⟨rfl, rfl⟩
          · exact hdemote _ _
        · exact hpage _ _
      · split
        · exact ⟨rfl, rfl⟩
        · exact hdemote _ _
      · exact hpage _ _
      · exact ⟨(hdemote _ _).1.trans (hpage _ _).1, (hdemote _ _).2.trans (hpage _ _).2⟩
    · exact ⟨rfl, rfl⟩
  obtain ⟨hgrids, hqueues⟩ := hboth
  exact quietQueues_of_same hgrids hqueues

theorem quiet_storeHome (s : State) (l : Leaf) (pa : Nat) (d : List Byte) (clock : Nat) (a : Option Nat) :
    QuietQueues s (s.storeHome l pa d clock a).2 := by
  unfold State.storeHome
  cases a <;> exact quietQueues_of_same rfl rfl

theorem quiet_pushWord (s : State) (pa : Nat) : QuietQueues s (s.pushWord pa) := by
  refine ⟨rfl, fun i j ⟨hi, hj⟩ => ?_, fun i j => ?_⟩
  · refine ⟨by simpa [State.pushWord] using hi, ?_⟩
    simp only [State.pushWord, List.getD_eq_getElem?_getD, mapIdxFrom_getElem?, Nat.zero_add] at hj ⊢
    cases hq : s.queues[i]? with
    | none => simp [hq] at hj
    | some l => simpa [hq] using hj
  · simp only [State.pushWord, State.queueAt, List.getD_eq_getElem?_getD, mapIdxFrom_getElem?, Nat.zero_add]
    cases hl : s.queues[i]? with
    | none => rfl
    | some l =>
      simp only [Option.map_some, Option.getD_some, List.getElem?_map]
      cases hq : l[j]? with
      | none => rfl
      | some q =>
        simp only [Option.map_some, Option.getD_some]
        split <;> rfl

theorem quiet_countGlobal (s : State) (l : Leaf) (pa amount clock : Nat) (a : Option Nat) :
    QuietQueues s (s.countGlobal l pa amount clock a).2 :=
  ((quiet_claim s l a).trans (quiet_storeHome ..)).trans (quiet_pushWord ..)
theorem quiet_endRounds (s : State) (w : Writer) (pa n : Nat) : QuietQueues s (s.endRounds w pa n) := quietQueues_of_same rfl rfl

/-- An addition of the scheduler's changes no queue but for pushes of its waiters. -/
theorem quiet_schedAdd {s s' : State} {desc ptr clock k : Nat} {sup : Bool} (h : s.schedAdd desc ptr clock sup = .ok (k, s')) :
    QuietQueues s s' := by
  unfold State.schedAdd at h
  dsimp only at h
  split at h
  · cases h
  · split at h
    · cases h
    · split at h
      · cases h
      · cases h
      · split at h
        · cases h
        · split at h
          · cases h
          · split at h
            · cases h
              exact quietQueues_of_same rfl rfl
            · cases h
              exact (quiet_countGlobal ..).trans (quiet_endRounds ..)

theorem quiet_setSchedClock (s : State) (k : Nat) : QuietQueues s (s.setSchedClock k) := quietQueues_of_same rfl rfl

/-! ## The finished blocks of a queue (R330) -/

section
variable {s : State} {i j : Nat}

/-- The counter waits while the first block that it has not counted is not finished. -/
theorem consume_waits (n : Nat) (h : ∀ x ∈ (s.queueAt i j).finished, x.1 ≠ (s.queueAt i j).finishedTo) : State.consume i j n s = s := by
  cases n with
  | zero => rfl
  | succ n =>
    have hnone : (s.queueAt i j).finished.find? (fun x => x.1 == (s.queueAt i j).finishedTo) = none :=
      List.find?_eq_none.mpr fun x hx => by simpa using h x hx
    simp only [State.consume, hnone]

/-- The queue once the counter has counted block n. -/
def Queue.counted (n : Nat) (q : Queue) : Queue := { q with finished := q.finished.filter (fun y => y.1 != n), finishedTo := n + 1 }

theorem consume_counts (n : Nat) {x : Nat × Bool} {k : Nat} {s2 : State}
    (hx : (s.queueAt i j).finished.find? (fun y => y.1 == (s.queueAt i j).finishedTo) = some x) (hfirst : x.1 = (s.queueAt i j).finishedTo)
    (hadd : (s.updQueue i j (Queue.counted x.1)).schedAdd i (s.queueAt i j).cons.toNat (s.updQueue i j (Queue.counted x.1)).schedClock x.2 =
      .ok (k, s2)) : State.consume i j (n + 1) s = State.consume i j n (s2.setSchedClock k) := by
  have hupd : s.updQueue i j (fun q => { q with finished := q.finished.filter (fun y => y.1 != q.finishedTo), finishedTo := q.finishedTo + 1 }) =
      s.updQueue i j (Queue.counted x.1) := updQueue_congr (by rw [Queue.counted, hfirst])
  simp only [State.consume, hx, hupd, hadd]

end

theorem find?_filter_ne {α : Type} (l : List (Nat × α)) {m n : Nat} (h : n ≠ m) :
    (l.filter fun y => y.1 != m).find? (fun y => y.1 == n) = l.find? fun y => y.1 == n := by
  rw [List.find?_filter]
  refine List.find?_congr fun y _ => ?_
  by_cases hy : y.1 = n
  · simp [hy, h]
  · simp [hy]

/-- Blocks finished in order are counted, each with its addition, and the counter then waits. -/
theorem consume_of_counts {i j : Nat} : ∀ (l : List (Nat × Bool)) (n : Nat) {s s' : State}, l.length ≤ n → s.hasQueue i j →
    (∀ m x, l[m]? = some x → x.1 = (s.queueAt i j).finishedTo + m ∧ (s.queueAt i j).finished.find? (fun y => y.1 == x.1) = some x) →
    (∀ x ∈ (s.queueAt i j).finished, x.1 ≠ (s.queueAt i j).finishedTo + l.length) → s.Counts i j l s' → State.consume i j n s = s'
  | [], n, s, s', _, _, _, hend, hcounts => (consume_waits n hend).trans hcounts.symm
  | x :: r, 0, _, _, hlen, _, _, _, _ => absurd hlen (by simp)
  | x :: r, n + 1, s, s', hlen, hq, hchain, hend, hcounts => by
    obtain ⟨k, s2, hadd, hrest⟩ := hcounts
    have hadd : (s.updQueue i j (Queue.counted x.1)).schedAdd i (s.queueAt i j).cons.toNat
      (s.updQueue i j (Queue.counted x.1)).schedClock x.2 = .ok (k, s2) := hadd
    obtain ⟨hfirst, hx⟩ := hchain 0 x rfl
    rw [Nat.add_zero] at hfirst
    have hx' := hx
    rw [hfirst] at hx'
    rw [consume_counts n hx' hfirst hadd]
    obtain ⟨-, hhas, hat⟩ := (quiet_schedAdd hadd).trans (quiet_setSchedClock s2 k)
    obtain ⟨hfin, hto, -, -⟩ := blocks_fields (hat i j)
    have hself : (s.updQueue i j (Queue.counted x.1)).queueAt i j = (s.queueAt i j).counted x.1 := updQueue_queueAt hq _
    rw [hself] at hfin hto
    simp only [Queue.counted] at hfin hto
    refine consume_of_counts r n (by simpa using hlen) (hhas i j (updQueue_hasQueue hq _)) (fun m y hy => ?_) (fun y hy => ?_) hrest
    · obtain ⟨hm, hfind⟩ := hchain (m + 1) y (by simpa using hy)
      rw [hto, hfin, find?_filter_ne _ (by omega)]
      exact ⟨by omega, hfind⟩
    · rw [hfin, List.mem_filter] at hy
      have := hend y hy.1
      rw [List.length_cons] at this
      rw [hto]
      omega

/-! ## A block that is finished, and a head that is refused (R330, R334) -/

theorem mem_insertOnce {α : Type} [DecidableEq α] {l : List α} {a x : α} : x ∈ insertOnce l a ↔ x ∈ l ∨ x = a := by
  unfold insertOnce
  split
  · next h => exact ⟨Or.inl, fun hx => hx.elim id fun e => e ▸ List.contains_iff_mem.mp h⟩
  · simp
theorem insertOnce_new {α : Type} [DecidableEq α] {l : List α} {a : α} (h : a ∉ l) : insertOnce l a = l ++ [a] :=
  if_neg fun hc => h (List.contains_iff_mem.mp hc)

/-- A queue with one more finished block. -/
def Queue.withBlock (x : Nat × Bool) (q : Queue) : Queue := { q with finished := insertOnce q.finished x }

theorem withBlock_reason (x : Nat × Bool) (q : Queue) : (q.withBlock x).reason = q.reason := rfl
theorem withBlock_refused (x : Nat × Bool) (q : Queue) : (q.withBlock x).refused = q.refused := rfl

section
variable {s : State} {i j n : Nat} {bytes : List Byte} (hto : (s.queueAt i j).finishedTo ≤ n)
include hto

theorem finishBlock_eq : s.finishBlock i j n bytes = State.consume i j ((s.queueAt i j).finished.length + 1)
    (s.updQueue i j (Queue.withBlock (n, (s.queueAt i j).supFor bytes))) := by
  unfold State.finishBlock
  dsimp only
  rw [if_neg (Nat.not_lt.mpr hto)]
  exact congrArg _ (updQueue_congr rfl)

/-- A block finished behind one that is not stays among the finished ones. -/
theorem finishBlock_waits (hq : s.hasQueue i j) (hne : (s.queueAt i j).finishedTo ≠ n)
    (hwait : ∀ x ∈ (s.queueAt i j).finished, x.1 ≠ (s.queueAt i j).finishedTo) :
    s.finishBlock i j n bytes = s.updQueue i j (Queue.withBlock (n, (s.queueAt i j).supFor bytes)) := by
  rw [finishBlock_eq hto, consume_waits]
  rw [updQueue_queueAt hq]
  intro x hx
  obtain hx | rfl := mem_insertOnce.mp hx
  · exact hwait x hx
  · exact hne.symm

end

/-- What the refusal of head h for a reason leaves of its queue. -/
def Queue.refuse (h : Head) (r cycle : Nat) (q : Queue) : Queue :=
  { q with head := none, nextBlock := h.n + 1, refused := (q.refused + 1) % 2 ^ 32, rslot := h.n % 2 ^ 32, reason := r, next := cycle }
/-- The same queue with that head among its finished blocks. -/
def Queue.refuseBlock (h : Head) (r cycle : Nat) (q : Queue) : Queue := (q.refuse h r cycle).withBlock (h.n, q.supFor h.bytes)

section
variable {s : State} {i j r : Nat} {h : Head} (hhead : (s.queueAt i j).head = some h) (hreason : s.headReason i h = some r)
  (hworks : s.works = true) (hawait : s.awaitPtr i (s.queueAt i j).cons.toNat = none)
include hhead hreason hworks hawait

theorem blockRefusal_eq : exec (.blockRefusal i j) s = .next ((s.updQueue i j (Queue.refuse h r s.cycle)).finishBlock i j h.n h.bytes) := by
  show execBlockRefusal i j s = _
  simp only [execBlockRefusal, hhead, hreason, hworks, if_true, State.refuseHead, hawait]
  rfl

theorem blockRefusal_waits (hq : s.hasQueue i j) (hlt : (s.queueAt i j).finishedTo < h.n)
    (hwait : ∀ x ∈ (s.queueAt i j).finished, x.1 ≠ (s.queueAt i j).finishedTo) :
    exec (.blockRefusal i j) s = .next (s.updQueue i j (Queue.refuseBlock h r s.cycle)) := by
  have hself : (s.updQueue i j (Queue.refuse h r s.cycle)).queueAt i j = (s.queueAt i j).refuse h r s.cycle := updQueue_queueAt hq _
  rw [blockRefusal_eq hhead hreason hworks hawait, finishBlock_waits, updQueue_updQueue, hself]
  · exact congrArg Host.Outcome.next (updQueue_congr rfl)
  · rw [hself]; exact hlt.le
  · exact updQueue_hasQueue hq _
  · rw [hself]; exact hlt.ne
  · rw [hself]; exact hwait

theorem blockRefusal_consumes (hq : s.hasQueue i j) (hto : (s.queueAt i j).finishedTo = h.n) : exec (.blockRefusal i j) s =
    .next (State.consume i j ((s.queueAt i j).finished.length + 1) (s.updQueue i j (Queue.refuseBlock h r s.cycle))) := by
  have hself : (s.updQueue i j (Queue.refuse h r s.cycle)).queueAt i j = (s.queueAt i j).refuse h r s.cycle := updQueue_queueAt hq _
  rw [blockRefusal_eq hhead hreason hworks hawait, finishBlock_eq, updQueue_updQueue, hself]
  · exact congrArg Host.Outcome.next (congrArg (State.consume i j _) (updQueue_congr rfl))
  · rw [hself]; exact hto.le

/-- A refused head that is the only finished block is counted at once. -/
theorem blockRefusal_counts (hq : s.hasQueue i j) (hto : (s.queueAt i j).finishedTo = h.n) (hnone : (s.queueAt i j).finished = []) {k : Nat}
    {s2 : State} (hadd : (s.updQueue i j fun _ => { (s.queueAt i j).refuse h r s.cycle with finishedTo := h.n + 1 }).schedAdd i
      (s.queueAt i j).cons.toNat s.schedClock ((s.queueAt i j).supFor h.bytes) = .ok (k, s2)) :
    exec (.blockRefusal i j) s = .next (s2.setSchedClock k) := by
  have hself := updQueue_queueAt hq (Queue.refuseBlock h r s.cycle)
  have hfin : ((s.queueAt i j).refuseBlock h r s.cycle).finished = [(h.n, (s.queueAt i j).supFor h.bytes)] := by
    show insertOnce (s.queueAt i j).finished _ = _
    rw [hnone]
    rfl
  have hcounted : (s.updQueue i j (Queue.refuseBlock h r s.cycle)).updQueue i j (Queue.counted h.n) =
      s.updQueue i j fun _ => { (s.queueAt i j).refuse h r s.cycle with finishedTo := h.n + 1 } := by
    rw [updQueue_updQueue]
    refine updQueue_congr ?_
    simp only [Queue.counted, hfin]
    simp [Queue.refuseBlock, Queue.withBlock, Queue.refuse, hnone]
  rw [blockRefusal_consumes hhead hreason hworks hawait hq hto, hnone]
  refine congrArg _ (consume_counts 0 (x := (h.n, (s.queueAt i j).supFor h.bytes)) ?_ ?_ ?_)
  · rw [hself, hfin]
    simp [Queue.refuseBlock, Queue.withBlock, Queue.refuse, hto]
  · rw [hself]
    exact hto.symm
  · rw [hself, hcounted]
    exact hadd

/-- A refused head is counted, and the finished blocks that follow it. -/
theorem blockRefusal_counts_all (hq : s.hasQueue i j) {l : List (Nat × Bool)} {s' : State} (hto : (s.queueAt i j).finishedTo = h.n)
    (hends : ∀ x ∈ (s.queueAt i j).finished, x.1 ≠ h.n ∧ x.1 ≠ h.n + (l.length + 1))
    (hchain : ∀ n x, l[n]? = some x → x.1 = h.n + (n + 1) ∧ (s.queueAt i j).finished.find? (fun y => y.1 == x.1) = some x)
    (hcounts : (s.updQueue i j (Queue.refuseBlock h r s.cycle)).Counts i j ((h.n, (s.queueAt i j).supFor h.bytes) :: l) s') :
    exec (.blockRefusal i j) s = .next s' := by
  have hself := updQueue_queueAt hq (Queue.refuseBlock h r s.cycle)
  have hfin : ((s.queueAt i j).refuseBlock h r s.cycle).finished = (s.queueAt i j).finished ++ [(h.n, (s.queueAt i j).supFor h.bytes)] :=
    insertOnce_new fun hm => (hends _ hm).1 rfl
  have hfirst : (s.queueAt i j).finished.find? (fun y => y.1 == h.n) = none :=
    List.find?_eq_none.mpr fun x hx => by simpa using (hends x hx).1
  have hlen : l.length ≤ (s.queueAt i j).finished.length := by
    have hnodup : l.Nodup := List.nodup_iff_getElem?_ne_getElem?.mpr fun m n hmn hn he => by
      have hm := hchain m l[n] (by rw [he, List.getElem?_eq_getElem hn])
      have hn := hchain n l[n] (List.getElem?_eq_getElem hn)
      omega
    refine (List.subperm_of_subset hnodup fun x hx => ?_).length_le
    obtain ⟨n, hn⟩ := List.mem_iff_getElem?.mp hx
    exact List.mem_of_find?_eq_some (hchain n x hn).2
  rw [blockRefusal_consumes hhead hreason hworks hawait hq hto]
  refine congrArg _ (consume_of_counts ((h.n, (s.queueAt i j).supFor h.bytes) :: l) _ (Nat.succ_le_succ hlen) (updQueue_hasQueue hq _) (fun n x hx => ?_) (fun x hx => ?_) hcounts)
  · rw [hself, hfin, List.find?_append]
    cases n with
    | zero =>
      obtain rfl := Option.some.inj hx
      rw [hfirst]
      simp [Queue.refuseBlock, Queue.withBlock, Queue.refuse, hto]
    | succ n =>
      obtain ⟨hnum, hfind⟩ := hchain n x (by simpa using hx)
      rw [hfind]
      exact ⟨hnum.trans (congrArg (· + (n + 1)) hto.symm), rfl⟩
  · rw [hself, hfin] at hx
    have hnum : ((s.queueAt i j).refuseBlock h r s.cycle).finishedTo = h.n := hto
    rw [hself, hnum]
    obtain hx | hx := List.mem_append.mp hx
    · exact (hends x hx).2
    · obtain rfl := List.mem_singleton.mp hx
      simp

end

/-! ## An addition of the scheduler's (R330) -/

theorem pushWord_mem (s : State) (pa : Nat) : (s.pushWord pa).mem = s.mem ∧ (s.pushWord pa).gtags = s.gtags := ⟨rfl, rfl⟩
theorem endRounds_mem (s : State) (w : Writer) (pa n : Nat) : (s.endRounds w pa n).mem = s.mem ∧ (s.endRounds w pa n).gtags = s.gtags := ⟨rfl, rfl⟩

/-- The value of a counter after an addition of 1, saturating. -/
def State.nextCount (s : State) (pa : Nat) : List Byte := natBytes (Nat.min (s.read8 pa + 1) (2 ^ 64 - 1)) 8

/-- The count takes its 8 bytes; tags stay. -/
theorem countGlobal_mem (s : State) (l : Leaf) (pa clock : Nat) (a : Option Nat) :
    (s.countGlobal l pa 1 clock a).2.mem = amSetList 0 s.mem pa (s.nextCount pa) ∧ (s.countGlobal l pa 1 clock a).2.gtags = s.gtags := by
  obtain ⟨hmem, htags⟩ := storeHome_mem (s.claim l a) l pa (s.nextCount pa) clock a
  obtain ⟨cmem, ctags⟩ := claim_mem s l a
  obtain ⟨pmem, ptags⟩ := pushWord_mem ((s.claim l a).storeHome l pa (s.nextCount pa) clock a).2 pa
  exact ⟨pmem.trans (hmem.trans (by rw [cmem])), ptags.trans (htags.trans ctags)⟩

theorem le_countGlobal (s : State) (l : Leaf) (pa amount clock : Nat) : clock ≤ (s.countGlobal l pa amount clock none).1 :=
  Nat.le_max_left _ _

/-- An addition through a pointer that meets every check is made at home, no earlier than its clock. -/
theorem schedAdd_adds {s : State} {i p k : Nat} {sup : Bool} {l : Leaf} (hhigh : fld p 60 4 = 0) (halign : fld p 0 56 % 8 = 0)
    (hleaf : s.checkNow (s.ctxAt i).id sup (fld p 0 56) true = .ok l) (hctl : inCtl (l.phys (fld p 0 56)) = false)
    (htag : s.gtag (l.phys (fld p 0 56)) = BitVec.ofNat 4 (fld p 56 4)) (hlost : s.lostIn (l.phys (fld p 0 56)) 8 = none) :
    ∃ k' s', s.schedAdd i p k sup = .ok (k', s') ∧ k ≤ k' ∧ s'.mem = amSetList 0 s.mem (l.phys (fld p 0 56)) (s.nextCount (l.phys (fld p 0 56))) ∧
      s'.gtags = s.gtags := by
  obtain ⟨hmem, htags⟩ := countGlobal_mem s l (l.phys (fld p 0 56)) k none
  obtain ⟨emem, etags⟩ := endRounds_mem (s.countGlobal l (l.phys (fld p 0 56)) 1 k none).2 .device (l.phys (fld p 0 56)) 8
  refine ⟨_, _, ?_, le_countGlobal s l (l.phys (fld p 0 56)) 1 k, emem.trans hmem, etags.trans htags⟩
  simp only [State.schedAdd, hhigh, halign, hleaf, htag, hlost, hctl, ne_eq, not_true_eq_false, if_false, Option.isSome_none, Bool.false_eq_true]

/-! ## The head that is taken (R334, R335) -/

theorem foldl_insertBy_head {α : Type} (key : α → Nat) : ∀ (l acc : List α) (x : α),
    (l.foldl (fun acc a => insertBy (fun a b => decide (key a < key b)) a acc) acc).head? = some x →
      (x ∈ l ∨ acc.head? = some x) ∧ (∀ y ∈ l, key x ≤ key y) ∧ ∀ z, acc.head? = some z → key x ≤ key z
  | [], acc, x, h => ⟨Or.inr h, fun _ hy => absurd hy List.not_mem_nil, fun z hz => by
      obtain rfl := Option.some.inj (h.symm.trans hz)
      exact Nat.le_refl _⟩
  | a :: r, acc, x, h => by
    obtain ⟨hmem, hr, hacc⟩ := foldl_insertBy_head key r _ x h
    have hhead : ∃ w, (insertBy (fun a b => decide (key a < key b)) a acc).head? = some w ∧ (w = a ∨ acc.head? = some w) ∧ key w ≤ key a ∧
        ∀ z, acc.head? = some z → key w ≤ key z := by
      cases acc with
      | nil => exact ⟨a, rfl, Or.inl rfl, Nat.le_refl _, fun z hz => nomatch hz⟩
      | cons z acc =>
        by_cases hlt : key a < key z
        · refine ⟨a, by simp [insertBy, hlt], Or.inl rfl, Nat.le_refl _, fun y hy => ?_⟩
          obtain rfl := Option.some.inj hy
          exact hlt.le
        · refine ⟨z, by simp [insertBy, hlt], Or.inr rfl, Nat.not_lt.mp hlt, fun y hy => ?_⟩
          obtain rfl := Option.some.inj hy
          exact Nat.le_refl _
    obtain ⟨w, hw, hwor, hwa, hwacc⟩ := hhead
    have hxw := hacc w hw
    refine ⟨?_, fun y hy => ?_, fun z hz => hxw.trans (hwacc z hz)⟩
    · obtain hx | hx := hmem
      · exact Or.inl (List.mem_cons_of_mem a hx)
      · obtain rfl := Option.some.inj (hw.symm.trans hx)
        exact hwor.imp (fun e => List.mem_cons.mpr (Or.inl e)) id
    · obtain rfl | hy := List.mem_cons.mp hy
      · exact hxw.trans hwa
      · exact hr y hy

/-- The first of a list sorted by a key is one of its elements with the least key. -/
theorem sortBy_head {α : Type} {key : α → Nat} {l : List α} {x : α} (h : (sortBy (fun a b => decide (key a < key b)) l).head? = some x) :
    x ∈ l ∧ ∀ y ∈ l, key x ≤ key y := by
  obtain ⟨hmem, hleast, -⟩ := foldl_insertBy_head key l [] x h
  exact ⟨hmem.resolve_right nofun, hleast⟩

theorem le_maxList {l : List Nat} {x : Nat} (hx : x ∈ l) : x ≤ maxList l := by
  have hfold : ∀ (l : List Nat) (a : Nat), a ≤ l.foldl Nat.max a ∧ ∀ x ∈ l, x ≤ l.foldl Nat.max a := by
    intro l
    induction l with
    | nil => exact fun a => ⟨Nat.le_refl a, fun _ hx => absurd hx List.not_mem_nil⟩
    | cons y r ih =>
      intro a
      obtain ⟨hacc, hr⟩ := ih (Nat.max a y)
      refine ⟨(Nat.le_max_left a y).trans hacc, fun x hx => ?_⟩
      obtain rfl | hx := List.mem_cons.mp hx
      · exact (Nat.le_max_right a x).trans hacc
      · exact hr x hx
  exact (hfold l 0).2 x hx

/-- The head that is taken is an eligible one of the highest priority, and the next in turn among those. -/
theorem chosen_spec {s : State} {x : Nat × Nat × Head} (h : s.chosen = some x) : x ∈ s.eligible ∧ ∀ e ∈ s.eligible,
    headPri e.2.2 ≤ headPri x.2.2 ∧ (headPri e.2.2 = headPri x.2.2 →
      turn (s.served.getD (headPri x.2.2) (63, 7)) (x.1, x.2.1) ≤ turn (s.served.getD (headPri x.2.2) (63, 7)) (e.1, e.2.1)) := by
  have htop : ∀ e ∈ s.eligible, headPri e.2.2 ≤ maxList (s.eligible.map fun x => headPri x.2.2) := fun e he =>
    le_maxList (List.mem_map.mpr ⟨e, he, rfl⟩)
  unfold State.chosen at h
  dsimp only at h
  generalize maxList (s.eligible.map fun x => headPri x.2.2) = top at h htop
  obtain ⟨hmem, hleast⟩ := sortBy_head (key := fun e : Nat × Nat × Head => turn (s.served.getD top (63, 7)) (e.1, e.2.1)) h
  obtain ⟨hel, hpri⟩ := List.mem_filter.mp hmem
  rw [beq_iff_eq] at hpri
  rw [hpri]
  exact ⟨hel, fun e he => ⟨htop e he, fun heq => hleast e (List.mem_filter.mpr ⟨he, beq_iff_eq.mpr heq⟩)⟩⟩

theorem mem_eligible (s : State) (i j : Nat) (h : Head) : (i, j, h) ∈ s.eligible ↔ i < 64 ∧ j < 8 ∧ (s.queueAt i j).head = some h ∧
    (s.queueAt i j).valid = true ∧ (∀ b ∈ h.met, b = true) ∧ s.headReason i h = none := by
  simp only [State.eligible, List.mem_flatten, List.mem_map, List.mem_range]
  constructor
  · rintro ⟨_, ⟨i', hi, rfl⟩, hm⟩
    obtain ⟨j', hj, hm⟩ := List.mem_filterMap.mp hm
    rw [List.mem_range] at hj
    split at hm
    · next h' hhead =>
      split at hm
      · next hgood =>
        obtain ⟨rfl, rfl, rfl⟩ := Prod.mk.inj (Option.some.inj hm) |>.imp id Prod.mk.inj
        simp only [Bool.and_eq_true, List.all_eq_true, Option.isNone_iff_eq_none] at hgood
        obtain ⟨⟨hvalid, hmet⟩, hreason⟩ := hgood
        exact ⟨hi, hj, hhead, hvalid, hmet, hreason⟩
      · exact nomatch hm
    · exact nomatch hm
  · rintro ⟨hi, hj, hhead, hvalid, hmet, hreason⟩
    refine ⟨_, ⟨i, hi, rfl⟩, List.mem_filterMap.mpr ⟨j, List.mem_range.mpr hj, ?_⟩⟩
    have hall : h.met.all (fun b => b) = true := List.all_eq_true.mpr hmet
    simp only [hhead, hvalid, hall, hreason, Option.isNone_none, Bool.and_self, if_true]

/-- The grid that the head h of queue j of descriptor i becomes. -/
def State.gridOf (s : State) (i j : Nat) (h : Head) : Grid :=
  { id := s.nextGrid, desc := i, queue := j, n := h.n, slot := BitVec.ofNat 64 ((s.queueAt i j).slotPtr h.n), bytes := h.bytes
    left := (launchView h.bytes).nteam, clock := h.clock }
/-- The state once that head is taken. -/
def State.taken (s : State) (i j : Nat) (h : Head) : State :=
  { s.updQueue i j fun q => { q with head := none, nextBlock := h.n + 1, next := s.cycle } with
    grids := s.grids ++ [s.gridOf i j h], nextGrid := s.nextGrid + 1, placement := s.placement ++ [(s.nextGrid, 0)]
    served := updAt s.served (headPri h) fun _ => (i, j) }

theorem taken_queueAt {s : State} {i j : Nat} (h : Head) (hq : s.hasQueue i j) :
    (s.taken i j h).queueAt i j = { s.queueAt i j with head := none, nextBlock := h.n + 1, next := s.cycle } :=
  updQueue_queueAt hq fun q => { q with head := none, nextBlock := h.n + 1, next := s.cycle }

theorem blockTake_takes {s : State} {i j : Nat} {h : Head} (hworks : s.works = true) (hchosen : s.chosen = some (i, j, h)) :
    exec .blockTake s = .next (s.taken i j h) := by
  show execBlockTake s = _
  simp only [execBlockTake, hworks, if_true, hchosen]
  rfl

/-! ## The placement of a cluster (R12, R25, R338, R339) -/

/-- The team that rank r of a cluster places on core c in bank b. -/
def State.teamFor (s : State) (g : Grid) (v : LaunchView) (cluster r c b : Nat) : Team :=
  (launchTeam g v (s.ctxAt g.desc).id (s.nextVtid g.desc) b cluster r s.cycle).seat (((s.core c).freeSlots b).take v.ngrp)
    ((s.core c).freeTiles.take v.ntile)
/-- The state once that team is placed. -/
def State.seated (s : State) (g : Grid) (v : LaunchView) (cluster r c b : Nat) : State :=
  ((s.joinTeam c (s.teamFor g v cluster r c b)).updCtx g.desc fun x => { x with vtids := (s.nextVtid g.desc + 1) % 2 ^ 24 }).updCore c fun k =>
    { k with tiles := mapIdxFrom (fun i x => if ((s.core c).freeTiles.take v.ntile).contains i then Tile.reset else x) 0 k.tiles }

theorem placeTeams_cons (g : Grid) (v : LaunchView) (cluster c b : Nat) (rest : List (Nat × Nat)) (r : Nat) (s : State) :
    placeTeams g v cluster ((c, b) :: rest) r s = placeTeams g v cluster rest (r + 1) (s.seated g v cluster r c b) := rfl

section
variable (s : State) (g : Grid) (v : LaunchView) (cluster r c b : Nat)

theorem seated_frame : (s.seated g v cluster r c b).mem = s.mem ∧ (s.seated g v cluster r c b).placement = s.placement ∧
    (s.seated g v cluster r c b).cycle = s.cycle ∧ (s.seated g v cluster r c b).cores.length = s.cores.length ∧
    ∀ d, d ≠ c → (s.seated g v cluster r c b).core d = s.core d := by
  refine ⟨rfl, rfl, rfl, ?_, fun d hd => ?_⟩
  · exact (updAt_length ..).trans (updAt_length ..)
  · exact (updAt_getD_ne _ _ _ hd).trans (updAt_getD_ne _ _ _ hd)

theorem seated_ctx : ((s.seated g v cluster r c b).ctxAt g.desc).id = (s.ctxAt g.desc).id := by
  have hctxs : (s.seated g v cluster r c b).ctxs = updAt s.ctxs g.desc fun x => { x with vtids := (s.nextVtid g.desc + 1) % 2 ^ 24 } := rfl
  rw [State.ctxAt, hctxs, State.ctxAt, List.getD_eq_getElem?_getD, List.getD_eq_getElem?_getD, updAt_getElem?_self]
  cases s.ctxs[g.desc]? <;> rfl

theorem seated_teams (hc : c < s.cores.length) :
    ((s.seated g v cluster r c b).core c).teams = (s.core c).teams ++ [s.teamFor g v cluster r c b] := by
  rw [State.seated, updCore_keeps Core.teams]
  · exact congrArg Core.teams (updAt_getD_self _ _ _ hc)
  · exact fun _ => rfl

end

theorem placeTeams_frame (g : Grid) (v : LaunchView) (cluster : Nat) : ∀ (seats : List (Nat × Nat)) (r : Nat) (s : State),
    (placeTeams g v cluster seats r s).mem = s.mem ∧ (placeTeams g v cluster seats r s).placement = s.placement ∧
      ∀ c, (∀ x ∈ seats, x.1 ≠ c) → (placeTeams g v cluster seats r s).core c = s.core c
  | [], _, _ => ⟨rfl, rfl, fun _ _ => rfl⟩
  | (c, b) :: rest, r, s => by
    obtain ⟨hmem, hplace, hcore⟩ := placeTeams_frame g v cluster rest (r + 1) (s.seated g v cluster r c b)
    obtain ⟨smem, splace, -, -, score⟩ := seated_frame s g v cluster r c b
    rw [placeTeams_cons]
    refine ⟨hmem.trans smem, hplace.trans splace, fun d hd => ?_⟩
    rw [hcore d fun x hx => hd x (List.mem_cons_of_mem _ hx), score d (hd (c, b) List.mem_cons_self).symm]

/-- Each seat receives the team of its rank. -/
theorem placeTeams_seat (g : Grid) (v : LaunchView) (cluster : Nat) : ∀ (seats : List (Nat × Nat)) (r : Nat) (s : State),
    (seats.Pairwise fun x y => x.1 ≠ y.1) → (∀ x ∈ seats, x.1 < s.cores.length) → ∀ n c b, seats[n]? = some (c, b) →
      ∃ vtid, ((placeTeams g v cluster seats r s).core c).teams = (s.core c).teams ++
        [(launchTeam g v (s.ctxAt g.desc).id vtid b cluster (r + n) s.cycle).seat (((s.core c).freeSlots b).take v.ngrp)
          ((s.core c).freeTiles.take v.ntile)]
  | [], _, _, _, _, _, _, _, h => nomatch h
  | (c, b) :: rest, r, s, hapart, hin, 0, _, _, h => by
    obtain ⟨rfl, rfl⟩ := Prod.mk.inj (Option.some.inj h)
    obtain ⟨hfirst, -⟩ := List.pairwise_cons.mp hapart
    obtain ⟨-, -, hcore⟩ := placeTeams_frame g v cluster rest (r + 1) (s.seated g v cluster r c b)
    refine ⟨s.nextVtid g.desc, ?_⟩
    rw [placeTeams_cons, hcore c fun x hx => (hfirst x hx).symm, seated_teams _ _ _ _ _ _ _ (hin (c, b) List.mem_cons_self)]
    rfl
  | (c0, b0) :: rest, r, s, hapart, hin, n + 1, c, b, h => by
    obtain ⟨hfirst, hrest⟩ := List.pairwise_cons.mp hapart
    obtain ⟨-, -, hcycle, hlength, hcore⟩ := seated_frame s g v cluster r c0 b0
    have hn : rest[n]? = some (c, b) := h
    obtain ⟨vtid, hteams⟩ := placeTeams_seat g v cluster rest (r + 1) (s.seated g v cluster r c0 b0) hrest
      (fun x hx => hlength.symm ▸ hin x (List.mem_cons_of_mem _ hx)) n c b hn
    rw [hcore c (hfirst (c, b) (List.mem_of_getElem? hn)).symm, seated_ctx, hcycle, Nat.add_right_comm, Nat.add_assoc] at hteams
    exact ⟨vtid, hteams⟩

theorem openCluster_frame (s : State) (grid cl : Nat) (cores : List Nat) (pool : Nat) :
    ∃ clusters next, s.openCluster grid cl cores pool = { s with clusters := clusters, nextCluster := next } := by
  unfold State.openCluster
  split
  · exact ⟨_, _, rfl⟩
  · exact ⟨_, _, rfl⟩

/-- The slots, registers and threads of a group at launch. -/
theorem seat_group {g : Grid} {v : LaunchView} {ctx vtid b cluster r cycle : Nat} {slots tiles : List Nat} {n : Nat} {gr : Group}
    (h : ((launchTeam g v ctx vtid b cluster r cycle).seat slots tiles).groups[n]? = some gr) :
    gr = { Group.launch 0 (BitVec.ofNat 64 v.kparam) g.slot
      (List.replicate v.gsz (Thread.launch v.nreg (BitVec.ofNat 56 v.entry) (BitVec.ofNat 32 v.fmt) cycle g.clock)) with slot := slots.getD n 0 } := by
  simp only [Team.seat, launchTeam, mapIdxFrom_getElem?, Nat.zero_add, Option.map_eq_some_iff, List.getElem?_replicate] at h
  obtain ⟨x, hx, rfl⟩ := h
  split at hx
  · obtain rfl := Option.some.inj hx
    rfl
  · exact nomatch hx

section
variable {s : State} {pool cl : Nat} {g : Grid} (hworks : s.works = true) (hhead : s.pruneClusters.placeHead pool = some (g, cl))
include hworks hhead

theorem clusterPlacement_waits (h : ∀ l ∈ rects (launchView g.bytes).cw (launchView g.bytes).ch,
    s.pruneClusters.fitsRect (s.ctxAt g.desc).id (launchView g.bytes) l = none) : exec (.clusterPlacement pool) s = .next s := by
  have hnone : (rects (launchView g.bytes).cw (launchView g.bytes).ch).findSome?
      (fun l => s.pruneClusters.fitsRect (s.pruneClusters.ctxAt g.desc).id (launchView g.bytes) l) = none := List.findSome?_eq_none_iff.mpr h
  show execClusterPlacement pool s = _
  simp only [execClusterPlacement, hworks, if_true, hhead, hnone]

/-- The state in which the seats of a cluster are filled. -/
theorem clusterPlacement_places {seats : List (Nat × Nat)} (h : (rects (launchView g.bytes).cw (launchView g.bytes).ch).findSome?
      (fun l => s.pruneClusters.fitsRect (s.ctxAt g.desc).id (launchView g.bytes) l) = some seats) :
    ∃ clusters next, let s1 := placeTeams g (launchView g.bytes) cl seats 0 { s with clusters := clusters, nextCluster := next }
      exec (.clusterPlacement pool) s = .next { s1 with placement := s1.placement.filterMap fun p =>
        if p.1 = g.id then (if (cl + 1) * (launchView g.bytes).size < (launchView g.bytes).nteam then some (p.1, cl + 1) else none) else some p } := by
  have hsome : (rects (launchView g.bytes).cw (launchView g.bytes).ch).findSome?
      (fun l => s.pruneClusters.fitsRect (s.pruneClusters.ctxAt g.desc).id (launchView g.bytes) l) = some seats := h
  obtain ⟨clusters, next, hopen⟩ := openCluster_frame s.pruneClusters g.id cl (seats.map fun x => x.1) pool
  refine ⟨clusters, next, ?_⟩
  show execClusterPlacement pool s = _
  simp only [execClusterPlacement, hworks, if_true, hhead, hsome, hopen]
  rfl

end

/-! ## The completion of a grid (R330, R332, R336) -/

/-- The state once the done counter of a grid has been counted, or has raised a cause. -/
def State.doneCounted (s : State) (g : Grid) : State :=
  let k := Nat.max s.schedClock g.clock
  if (launchView g.bytes).done = 0 then s.setSchedClock k
  else match s.schedAdd g.desc (launchView g.bytes).done k ((s.queueAt g.desc g.queue).supFor g.bytes) with
    | .ok (t, s1) => s1.setSchedClock t
    | .error _ => (s.setSchedClock k).updQueue g.desc g.queue fun q => { q with rslot := g.n % 2 ^ 32, reason := 0x09 }

section
variable {s : State} {g : Grid}

theorem doneCounted_none (h : (launchView g.bytes).done = 0) : s.doneCounted g = s.setSchedClock (Nat.max s.schedClock g.clock) := by
  simp only [State.doneCounted, if_pos h]
theorem doneCounted_ok (h : (launchView g.bytes).done ≠ 0) {t : Nat} {s1 : State} (hadd : s.schedAdd g.desc (launchView g.bytes).done
    (Nat.max s.schedClock g.clock) ((s.queueAt g.desc g.queue).supFor g.bytes) = .ok (t, s1)) : s.doneCounted g = s1.setSchedClock t := by
  simp only [State.doneCounted, if_neg h, hadd]
theorem doneCounted_error (h : (launchView g.bytes).done ≠ 0) {e : Nat} (hadd : s.schedAdd g.desc (launchView g.bytes).done
    (Nat.max s.schedClock g.clock) ((s.queueAt g.desc g.queue).supFor g.bytes) = .error e) : s.doneCounted g =
      (s.setSchedClock (Nat.max s.schedClock g.clock)).updQueue g.desc g.queue fun q => { q with rslot := g.n % 2 ^ 32, reason := 0x09 } := by
  simp only [State.doneCounted, if_neg h, hadd]

/-- The done counter's addition leaves the finished blocks of the queue, its level and its count of refusals. -/
theorem quiet_doneCounted (s : State) (g : Grid) : QuietQueues s (s.doneCounted g) := by
  by_cases hdone : (launchView g.bytes).done = 0
  · rw [doneCounted_none hdone]
    exact quiet_setSchedClock ..
  · cases hadd : s.schedAdd g.desc (launchView g.bytes).done (Nat.max s.schedClock g.clock) ((s.queueAt g.desc g.queue).supFor g.bytes) with
    | ok r =>
      rw [doneCounted_ok hdone hadd]
      exact (quiet_schedAdd hadd).trans (quiet_setSchedClock ..)
    | error e =>
      rw [doneCounted_error hdone hadd]
      exact (quiet_setSchedClock ..).trans (quiet_updQueue _ _ _ fun _ => rfl)

theorem removeGrid_queueAt (s : State) (id i j : Nat) : (s.removeGrid id).queueAt i j = s.queueAt i j := rfl
theorem removeGrid_mem (s : State) (id : Nat) : (s.removeGrid id).mem = s.mem := rfl
theorem removeGrid_grids (s : State) (id : Nat) : (s.removeGrid id).grids = s.grids.filter fun y => y.id != id := rfl
theorem setSchedClock_mem (s : State) (k : Nat) : (s.setSchedClock k).mem = s.mem := rfl
theorem removeGrid_hasQueue {s : State} {i j : Nat} (h : s.hasQueue i j) (id : Nat) : (s.removeGrid id).hasQueue i j := h

/-- The state once a grid has left and its block has joined the finished ones of its queue. -/
def State.gridFinished (s : State) (g : Grid) : State :=
  ((s.doneCounted g).removeGrid g.id).updQueue g.desc g.queue (Queue.withBlock (g.n, (s.queueAt g.desc g.queue).supFor g.bytes))

theorem gridFinished_mem (s : State) (g : Grid) : (s.gridFinished g).mem = (s.doneCounted g).mem := by
  rw [State.gridFinished, State.updQueue_mem, removeGrid_mem]
theorem gridFinished_grids (s : State) (g : Grid) : (s.gridFinished g).grids = s.grids.filter fun y => y.id != g.id := by
  obtain ⟨hgrids, -⟩ := quiet_doneCounted s g
  rw [State.gridFinished, State.updQueue_grids, removeGrid_grids, hgrids]
theorem gridFinished_queueAt (hq : s.hasQueue g.desc g.queue) : (s.gridFinished g).queueAt g.desc g.queue =
    ((s.doneCounted g).queueAt g.desc g.queue).withBlock (g.n, (s.queueAt g.desc g.queue).supFor g.bytes) := by
  obtain ⟨-, hhas, -⟩ := quiet_doneCounted s g
  rw [State.gridFinished, updQueue_queueAt (removeGrid_hasQueue (hhas _ _ hq) g.id), removeGrid_queueAt]

variable (hgrid : s.gridAt g.id = some g) (hworks : s.works = true)
include hgrid hworks

theorem gridCompletion_waits (hdone : s.gridDone g = false) : exec (.gridCompletion g.id) s = .next s := by
  show execGridCompletion g.id s = _
  simp only [execGridCompletion, hworks, if_true, hgrid, hdone, Bool.not_false]

theorem gridCompletion_eq (hdone : s.gridDone g = true) (hcons : s.awaitPtr g.desc (s.queueAt g.desc g.queue).cons.toNat = none)
    (hptr : (launchView g.bytes).done ≠ 0 → s.awaitPtr g.desc (launchView g.bytes).done = none) :
    exec (.gridCompletion g.id) s = .next (((s.doneCounted g).removeGrid g.id).finishBlock g.desc g.queue g.n g.bytes) := by
  show execGridCompletion g.id s = _
  by_cases hd : (launchView g.bytes).done = 0
  · simp only [execGridCompletion, hworks, if_true, hgrid, hdone, Bool.not_true, Bool.false_eq_true, if_false, if_pos hd, hcons,
      doneCounted_none hd]
  · simp only [execGridCompletion, hworks, if_true, hgrid, hdone, Bool.not_true, Bool.false_eq_true, if_false, if_neg hd, hptr hd, hcons]
    cases hadd : s.schedAdd g.desc (launchView g.bytes).done (Nat.max s.schedClock g.clock) ((s.queueAt g.desc g.queue).supFor g.bytes) with
    | ok r => simp only [doneCounted_ok hd hadd]
    | error e => simp only [doneCounted_error hd hadd]

/-- A grid that completes leaves, and its block joins the finished ones of its queue. -/
theorem gridCompletion_finishes (hdone : s.gridDone g = true) (hcons : s.awaitPtr g.desc (s.queueAt g.desc g.queue).cons.toNat = none)
    (hptr : (launchView g.bytes).done ≠ 0 → s.awaitPtr g.desc (launchView g.bytes).done = none)
    (hlt : (s.queueAt g.desc g.queue).finishedTo < g.n) (hwait : ∀ x ∈ (s.queueAt g.desc g.queue).finished, x.1 ≠ (s.queueAt g.desc g.queue).finishedTo)
    (hq : s.hasQueue g.desc g.queue) : exec (.gridCompletion g.id) s = .next (s.gridFinished g) := by
  obtain ⟨-, hhas, hblocks⟩ := quiet_doneCounted s g
  obtain ⟨hfin, hto, hqs, -⟩ := blocks_fields (hblocks g.desc g.queue)
  rw [gridCompletion_eq hgrid hworks hdone hcons hptr, finishBlock_waits, removeGrid_queueAt, State.gridFinished, Queue.supFor, Queue.supFor, hqs]
  · rw [removeGrid_queueAt, hto]; exact hlt.le
  · exact removeGrid_hasQueue (hhas g.desc g.queue hq) g.id
  · rw [removeGrid_queueAt, hto]; exact hlt.ne
  · rw [removeGrid_queueAt, hfin, hto]; exact hwait

end

/-- Settles O45: refused heads and the counter, an addition, the taken head, a cluster's seats, and a completed grid. -/
theorem gridScheduler : Obligations.GridScheduler := by
  unfold Obligations.GridScheduler
  refine ⟨⟨fun s i j r h hhead hreason hworks hawait hi hj => ?_, fun s i p k sup l hp halign hleaf hctl _ hwf htag hlost => ?_,
    fun s i j h hworks hchosen hi hj => ?_, mem_eligible⟩, fun s pool cl g hworks hhead => ?_, fun s g hgrid hworks => ?_⟩
  · have hq : s.hasQueue i j := ⟨hi, hj⟩
    refine ⟨fun hlt hwait => ⟨_, blockRefusal_waits hhead hreason hworks hawait hq hlt hwait, rfl, updQueue_queueAt hq _, rfl⟩,
      fun hto hnone k s2 hadd => blockRefusal_counts hhead hreason hworks hawait hq hto hnone hadd, fun l s' hto hends hchain hcounts => ?_⟩
    refine blockRefusal_counts_all hhead hreason hworks hawait hq hto hends hchain ?_
    have hstate : s.updQueue i j (Queue.refuseBlock h r s.cycle) = s.updQueue i j fun _ => (s.queueAt i j).refuseBlock h r s.cycle :=
      updQueue_congr rfl
    rw [hstate]
    exact hcounts
  · have hva : fld p 0 56 = p % 2 ^ 56 := by rw [fld, pow_zero, Nat.div_one]
    have hhigh : fld p 60 4 = 0 := by rw [fld, hp]; rfl
    have hnum : BitVec.ofNat 4 (p / 2 ^ 56) = BitVec.ofNat 4 (fld p 56 4) :=
      BitVec.eq_of_toNat_eq (by simp only [BitVec.toNat_ofNat, fld, Nat.mod_mod])
    rw [← hva] at halign hleaf hctl htag hlost
    obtain ⟨k', s', hadd, hk, hmem, htags⟩ := schedAdd_adds hhigh halign hleaf hctl (htag.trans hnum) hlost
    refine ⟨k', s', hadd, hk, wf_of (hmem ▸ amSetList_wf (Nat.zero_le _) _ (wf_mem hwf)) (htags ▸ wf_gtags hwf), fun x => ?_, fun x => ?_⟩
    · rw [State.gtag, htags]; rfl
    · rw [← hva]
      exact (congrArg (fun m => amGet 0 m x) hmem).trans (amGet_amSetList _ _ x (wf_mem hwf))
  · obtain ⟨hel, hleast⟩ := chosen_spec hchosen
    have hself := taken_queueAt h ⟨hi, hj⟩
    refine ⟨hel, hleast, s.taken i j h, s.gridOf i j h, blockTake_takes hworks hchosen, rfl, rfl, rfl, rfl, rfl, rfl, rfl, rfl, rfl, rfl, ?_, ?_⟩
    · rw [hself]
    · rw [hself]
  · refine ⟨fun hnone => clusterPlacement_waits hworks hhead hnone, fun seats hseats hapart hin => ?_⟩
    obtain ⟨clusters, next, hexec⟩ := clusterPlacement_places hworks hhead hseats
    obtain ⟨hmem, hplace, hcore⟩ := placeTeams_frame g (launchView g.bytes) cl seats 0 { s with clusters := clusters, nextCluster := next }
    refine ⟨_, hexec, hmem, hcore, congrArg _ hplace, fun r c b hseat => ?_⟩
    obtain ⟨vtid, hteams⟩ := placeTeams_seat g (launchView g.bytes) cl seats 0 { s with clusters := clusters, nextCluster := next } hapart hin r c b hseat
    rw [Nat.zero_add] at hteams
    refine ⟨_, hteams, rfl, rfl, rfl, rfl, rfl, rfl, rfl, rfl, rfl, rfl, rfl, rfl, rfl, rfl, rfl, rfl, ?_, fun n gr hgr => ?_⟩
    · simp [Team.seat, launchTeam]
    · obtain rfl := seat_group hgr
      exact ⟨rfl, rfl, rfl, rfl⟩
  · refine ⟨fun hdone => gridCompletion_waits hgrid hworks hdone, fun hdone hcons hptr hlt hwait hi hj => ?_⟩
    have hq : s.hasQueue g.desc g.queue := ⟨hi, hj⟩
    obtain ⟨-, -, hblocks⟩ := quiet_doneCounted s g
    obtain ⟨hfin, -, -, hrefused⟩ := blocks_fields (hblocks g.desc g.queue)
    have hqueue := gridFinished_queueAt hq
    refine ⟨s.gridFinished g, gridCompletion_finishes hgrid hworks hdone hcons hptr hlt hwait hq, gridFinished_grids s g, ?_, fun hd => ?_,
      fun t s1 hd hadd => ?_, fun e hd hadd => ⟨?_, ?_, ?_⟩⟩
    · rw [hqueue, Queue.withBlock, hfin]
    · rw [gridFinished_mem, doneCounted_none hd, setSchedClock_mem]
    · rw [gridFinished_mem, doneCounted_ok hd hadd, setSchedClock_mem]
    · rw [gridFinished_mem, doneCounted_error hd hadd, State.updQueue_mem, setSchedClock_mem]
    · obtain ⟨-, hclock, -⟩ := quiet_setSchedClock s (Nat.max s.schedClock g.clock)
      rw [hqueue, withBlock_reason, doneCounted_error hd hadd, updQueue_queueAt (hclock _ _ hq)]
    · rw [hqueue, withBlock_refused, hrefused]

end Sys2Proof.Machine

/-! PROOF. Logic, shifts, rotation and the funnel shift (O4): the model's numbers of w bits are the bit vectors of the statement. -/

namespace Sys2Proof.Machine

/-! ## Operands and results at the width of a type (R67, R98) -/

theorem writeTy_ofNat (ty : IntTy) (d : BitVec 8) (x : Nat) :
    writeTy ty d (BitVec.ofNat 64 x) = byWidth ty d (BitVec.ofNat 32 x) (BitVec.ofNat 64 x) := by
  have htrunc : (BitVec.ofNat 64 x).truncate 32 = BitVec.ofNat 32 x := by
    apply BitVec.eq_of_toNat_eq
    simp only [BitVec.truncate_eq_setWidth, BitVec.toNat_setWidth, BitVec.toNat_ofNat]
    omega
  cases hw : ty.wide
  · simp only [writeTy, byWidth, write32, hw, htrunc, Bool.false_eq_true, if_false]
  · simp only [writeTy, byWidth, write64, hw, if_true]

theorem width_eq (ty : IntTy) : ty.width = if ty.wide then 64 else 32 := by cases ty <;> rfl

/-- A number computed at the width of a type, as the two bit vectors of which the type takes one. -/
theorem writeTy_width (ty : IntTy) (d : BitVec 8) (f : Nat → Nat) :
    writeTy ty d (BitVec.ofNat 64 (f ty.width)) = byWidth ty d (BitVec.ofNat 32 (f 32)) (BitVec.ofNat 64 (f 64)) := by
  rw [writeTy_ofNat, byWidth, byWidth, width_eq]
  cases ty.wide <;> rfl

theorem nat_eq (e : Env) (ty : IntTy) (a : Src) : e.nat ty a = if ty.wide then (e.src64 a).toNat else (e.src32 a).toNat := by
  unfold Env.nat Env.srcTy
  split
  · rfl
  · exact BitVec.toNat_setWidth_of_le (by decide)

theorem immNat_eq (ty : IntTy) (imm : BitVec 31) :
    immNat ty imm = if ty.wide then (imm.signExtend 64).toNat else (imm.signExtend 32).toNat := by
  unfold immNat immTy
  split
  · rfl
  · exact BitVec.toNat_setWidth_of_le (by decide)

/-- The low byte of a word, as the amounts of R33 take it. -/
theorem toNat_extract_low {w : Nat} (x : BitVec w) (k : Nat) : (x.extractLsb' 0 k).toNat = x.toNat % 2 ^ k := by
  simp [BitVec.extractLsb'_toNat]

theorem amt_eq (e : Env) (b : Src) : e.amount b % 256 = e.amt b := (toNat_extract_low (e.src32 b) 8).symm

section
variable {i : Instr} {h : Hdr} {ty : IntTy} {d : BitVec 8}

/-- f computes on numbers below 2^w what g computes on w bits. -/
def Maps1 (f : Nat → Nat → Nat) (g : {w : Nat} → BitVec w → BitVec w) : Prop :=
  ∀ (w : Nat) (x : BitVec w), BitVec.ofNat w (f w x.toNat) = g x
def Maps2 (f : Nat → Nat → Nat → Nat) (g : {w : Nat} → BitVec w → BitVec w → BitVec w) : Prop :=
  ∀ (w : Nat) (x y : BitVec w), w ≤ 64 → BitVec.ofNat w (f w x.toNat y.toNat) = g x y

theorem writeTy_map1 {f : Nat → Nat → Nat} {g : {w : Nat} → BitVec w → BitVec w} (hf : Maps1 f @g) (e : Env) (a : Src) :
    writeTy ty d (BitVec.ofNat 64 (f ty.width (e.nat ty a))) = e.map1 ty d a g := by
  rw [writeTy_width ty d fun w => f w (e.nat ty a), Env.map1, ← hf _ (e.src32 a), ← hf _ (e.src64 a), nat_eq, byWidth, byWidth]
  cases ty.wide <;> rfl

theorem writeTy_map2 {f : Nat → Nat → Nat → Nat} {g : {w : Nat} → BitVec w → BitVec w → BitVec w} (hf : Maps2 f @g) (e : Env)
    (a b : Src) : writeTy ty d (BitVec.ofNat 64 (f ty.width (e.nat ty a) (e.nat ty b))) = e.map2 ty d a b g := by
  rw [writeTy_width ty d fun w => f w (e.nat ty a) (e.nat ty b), Env.map2, ← hf _ (e.src32 a) _ (by decide),
    ← hf _ (e.src64 a) _ (by decide), nat_eq, nat_eq,
    byWidth, byWidth]
  cases ty.wide <;> rfl

theorem writeTy_mapI {f : Nat → Nat → Nat → Nat} {g : {w : Nat} → BitVec w → BitVec w → BitVec w} (hf : Maps2 f @g) (e : Env)
    (r : BitVec 8) (imm : BitVec 31) :
    writeTy ty d (BitVec.ofNat 64 (f ty.width (e.nat ty (.g r)) (immNat ty imm))) = e.mapI ty d r imm g := by
  rw [writeTy_width ty d fun w => f w (e.nat ty (.g r)) (immNat ty imm), Env.mapI, ← hf _ (e.src32 _) _ (by decide),
    ← hf _ (e.src64 _) _ (by decide), nat_eq, immNat_eq, byWidth, byWidth]
  cases ty.wide <;> rfl

/-! ## The forms of rows 0x03 and 0x04 -/

theorem computes_unary {a : Src} {f : Nat → Nat → Nat} {g : {w : Nat} → BitVec w → BitVec w} (hf : Maps1 f @g)
    (hx : ∀ s, exec i s = .next (runBundle h (unary ty d a (f ty.width)) s)) :
    Computes i h (uses1 ty d a) fun e => e.map1 ty d a g :=
  computes_of_pure fun s => by rw [hx, unary]; simp only [writeTy_map1 hf]; rfl

theorem computes_logic2 {a b : Src} {f : Nat → Nat → Nat} {g : {w : Nat} → BitVec w → BitVec w → BitVec w}
    (hf : Maps2 (fun _ => f) @g) (hx : ∀ s, exec i s = .next (runBundle h (logic2 ty d a b f) s)) :
    Computes i h (uses2 ty d a b) fun e => e.map2 ty d a b g :=
  computes_of_pure fun s => by rw [hx, logic2]; simp only [writeTy_map2 hf]; rfl

theorem computes_logic1 {r : BitVec 8} {imm : BitVec 31} {f : Nat → Nat → Nat} {g : {w : Nat} → BitVec w → BitVec w → BitVec w}
    (hf : Maps2 (fun _ => f) @g) (hx : ∀ s, exec i s = .next (runBundle h (logic1 ty d r imm f) s)) :
    Computes i h (uses1 ty d (.g r)) fun e => e.mapI ty d r imm g :=
  computes_of_pure fun s => by rw [hx, logic1]; simp only [writeTy_mapI hf]; rfl

theorem computes_shift2 {a b : Src} {f : Nat → Nat → Nat → Nat} {g : Nat → {w : Nat} → BitVec w → BitVec w}
    (hf : ∀ n, Maps1 (fun w x => f w x n) (@g n)) (hx : ∀ s, exec i s = .next (runBundle h (shift2 ty d a b f) s)) :
    Computes i h (usesN ty d a b) fun e => e.map1 ty d a (g (e.amt b)) :=
  computes_of_pure fun s => by
    have hval (e : Env) : writeTy ty d (BitVec.ofNat 64 (f ty.width (e.nat ty a) (e.amount b % 256))) = e.map1 ty d a (g (e.amt b)) := by
      rw [amt_eq]
      exact writeTy_map1 (hf _) e a
    simp only [hx, shift2, hval]
    rfl

theorem computes_shift1 {r : BitVec 8} {imm : BitVec 31} {f : Nat → Nat → Nat → Nat} {g : Nat → {w : Nat} → BitVec w → BitVec w}
    (hf : ∀ n, Maps1 (fun w x => f w x n) (@g n)) (hx : ∀ s, exec i s = .next (runBundle h (shift1 ty d r imm f) s)) :
    Computes i h (uses1 ty d (.g r)) fun e => e.map1 ty d (.g r) (g (imm.extractLsb' 0 8).toNat) :=
  computes_of_pure fun s => by
    have hval (e : Env) : writeTy ty d (BitVec.ofNat 64 (f ty.width (e.nat ty (.g r)) (imm.toNat % 256))) =
        e.map1 ty d (.g r) (g (imm.extractLsb' 0 8).toNat) := by
      rw [toNat_extract_low]
      exact writeTy_map1 (hf _) e (.g r)
    simp only [hx, shift1, hval]
    rfl

end

/-! ## Logic (R105) -/

theorem ofNat_andN {w : Nat} (x y : BitVec w) : BitVec.ofNat w (andN x.toNat y.toNat) = x &&& y := by
  rw [andN, BitVec.ofNat_and, BitVec.ofNat_toNat, BitVec.ofNat_toNat, BitVec.setWidth_eq, BitVec.setWidth_eq]

theorem ofNat_orN {w : Nat} (x y : BitVec w) : BitVec.ofNat w (orN x.toNat y.toNat) = x ||| y := by
  rw [orN, BitVec.ofNat_or, BitVec.ofNat_toNat, BitVec.ofNat_toNat, BitVec.setWidth_eq, BitVec.setWidth_eq]

theorem ofNat_xorN {w : Nat} (x y : BitVec w) : BitVec.ofNat w (xorN x.toNat y.toNat) = x ^^^ y := by
  rw [xorN, BitVec.ofNat_xor, BitVec.ofNat_toNat, BitVec.ofNat_toNat, BitVec.setWidth_eq, BitVec.setWidth_eq]

theorem ofNat_complement {w n : Nat} (y : BitVec w) (hw : w ≤ n) : BitVec.ofNat w (2 ^ n - 1 - y.toNat) = ~~~y := by
  apply BitVec.eq_of_getLsbD_eq
  intro i hi
  have hy : y.toNat < 2 ^ n := y.isLt.trans_le (Nat.pow_le_pow_right (by decide) hw)
  rw [Nat.sub_sub, Nat.add_comm, BitVec.getLsbD_ofNat, Nat.testBit_two_pow_sub_succ hy, BitVec.getLsbD_not, BitVec.testBit_toNat]
  simp [hi, Nat.lt_of_lt_of_le hi hw]

theorem ofNat_andnN {w : Nat} (x y : BitVec w) (hw : w ≤ 64) : BitVec.ofNat w (andnN x.toNat y.toNat) = x &&& ~~~y := by
  rw [andnN, BitVec.ofNat_and, BitVec.ofNat_toNat, BitVec.setWidth_eq, ofNat_complement y hw]

/-! ## Shifts and rotation (R33, R105) -/

theorem ofNat_shlN {w : Nat} (x : BitVec w) (n : Nat) : BitVec.ofNat w (shlN w x.toNat n) = x <<< n := by
  apply BitVec.eq_of_toNat_eq
  rw [BitVec.toNat_ofNat, BitVec.toNat_shiftLeft, Nat.shiftLeft_eq, shlN]
  split
  · exact Nat.mod_mod _ _
  · rename_i hn
    rw [Nat.zero_mod, Nat.mod_eq_zero_of_dvd ((Nat.pow_dvd_pow 2 (Nat.le_of_not_lt hn)).mul_left _)]

theorem ofNat_shrN {w : Nat} (x : BitVec w) (n : Nat) : BitVec.ofNat w (shrN w x.toNat n) = x >>> n := by
  apply BitVec.eq_of_toNat_eq
  rw [BitVec.toNat_ofNat, BitVec.toNat_ushiftRight, Nat.shiftRight_eq_div_pow, shrN]
  split
  · exact Nat.mod_eq_of_lt ((Nat.div_le_self _ _).trans_lt x.isLt)
  · rename_i hn
    rw [Nat.zero_mod, Nat.div_eq_of_lt (x.isLt.trans_le (Nat.pow_le_pow_right (by decide) (Nat.le_of_not_lt hn)))]

theorem sgn_toNat {w : Nat} (x : BitVec w) : sgn w x.toNat = x.toInt := by
  rw [BitVec.toInt_eq_toNat_cond, sgn]
  push_cast
  split <;> split <;> omega

theorem ofNat_emod_toNat (w : Nat) (x : Int) : BitVec.ofNat w (x % 2 ^ w).toNat = BitVec.ofInt w x := by
  have hpow : (0 : Int) < 2 ^ w := by positivity
  apply BitVec.eq_of_toNat_eq
  rw [BitVec.toNat_ofNat, BitVec.toNat_ofInt, Nat.mod_eq_of_lt]
  · push_cast; rfl
  · have := Int.emod_lt_of_pos x hpow
    zify
    rw [Int.toNat_of_nonneg (Int.emod_nonneg _ hpow.ne')]
    exact this

theorem ofNat_sarN {w : Nat} (x : BitVec w) (n : Nat) : BitVec.ofNat w (sarN w x.toNat n) = x.sshiftRight n := by
  rw [sarN, ofNat_emod_toNat, sgn_toNat, BitVec.sshiftRight, Int.shiftRight_eq_div_pow]
  push_cast
  rfl

theorem ofNat_rolN {w : Nat} (x : BitVec w) (n : Nat) : BitVec.ofNat w (rolN w x.toNat n) = x.rotateLeft n := by
  rcases Nat.eq_zero_or_pos w with rfl | hw
  · exact Subsingleton.elim _ _
  have hn : n % w < w := Nat.mod_lt _ hw
  have hhigh : x.toNat / 2 ^ (w - n % w) < 2 ^ (n % w) := by
    rw [Nat.div_lt_iff_lt_mul (by positivity), ← pow_add, Nat.add_sub_cancel' hn.le]
    exact x.isLt
  have hlow : x.toNat * 2 ^ (n % w) % 2 ^ w = x.toNat % 2 ^ (w - n % w) * 2 ^ (n % w) := by
    rw [← Nat.mul_mod_mul_right, ← pow_add, Nat.sub_add_cancel hn.le]
  have hfit : x.toNat % 2 ^ (w - n % w) * 2 ^ (n % w) + x.toNat / 2 ^ (w - n % w) < 2 ^ w := by
    have hpos : x.toNat % 2 ^ (w - n % w) + 1 ≤ 2 ^ (w - n % w) := Nat.mod_lt _ (by positivity)
    calc _ < (x.toNat % 2 ^ (w - n % w) + 1) * 2 ^ (n % w) := by rw [Nat.add_one_mul]; omega
      _ ≤ 2 ^ (w - n % w) * 2 ^ (n % w) := Nat.mul_le_mul_right _ hpos
      _ = 2 ^ w := by rw [← pow_add, Nat.sub_add_cancel hn.le]
  apply BitVec.eq_of_toNat_eq
  rw [BitVec.toNat_ofNat, BitVec.toNat_rotateLeft, rolN, Nat.mod_mod, Nat.shiftLeft_eq, Nat.shiftRight_eq_div_pow, ← Nat.mod_add_mod,
    hlow, Nat.mod_eq_of_lt hfit, ← Nat.shiftLeft_eq, Nat.shiftLeft_add_eq_or_of_lt hhigh]

/-! ## The funnel shift (R106) -/

theorem toNat_funnel {w : Nat} (n : Nat) (x y : BitVec w) :
    (funnel n x y).toNat = (x.toNat * 2 ^ w + y.toNat) * 2 ^ n / 2 ^ w % 2 ^ w := by
  rw [funnel, BitVec.extractLsb'_toNat, BitVec.toNat_shiftLeft, BitVec.toNat_append, ← Nat.shiftLeft_add_eq_or_of_lt y.isLt,
    Nat.shiftLeft_eq, Nat.shiftLeft_eq, Nat.shiftRight_eq_div_pow, pow_add, Nat.mod_mul_right_div_self, Nat.mod_mod]

theorem fshlN_eq (w a c n : Nat) : fshlN w a c n = (a * 2 ^ w + c) * 2 ^ n / 2 ^ w % 2 ^ w := by
  rw [fshlN]
  split
  · rename_i hn
    have hdiv : (a * 2 ^ w + c) * 2 ^ n / 2 ^ w = c * 2 ^ (n - w) + a * 2 ^ (n - w) * 2 ^ w := by
      have hpow : 2 ^ n = 2 ^ (n - w) * 2 ^ w := by rw [← pow_add, Nat.sub_add_cancel hn]
      rw [hpow, ← Nat.mul_assoc, Nat.mul_div_cancel _ (by positivity)]
      ring
    rw [hdiv, Nat.add_mul_mod_self_right]
    split
    · rfl
    · rename_i hfar
      exact (Nat.mod_eq_zero_of_dvd ((Nat.pow_dvd_pow 2 (Nat.le_of_not_lt hfar)).mul_left _)).symm
  · rfl

theorem ofNat_fshlN {w : Nat} (x y : BitVec w) (n : Nat) : BitVec.ofNat w (fshlN w x.toNat y.toNat n) = funnel n x y := by
  apply BitVec.eq_of_toNat_eq
  rw [BitVec.toNat_ofNat, toNat_funnel, fshlN_eq, Nat.mod_mod]

/-- Settles O4: each word is one of the forms of its row, and its number of w bits is the bit vector named. -/
theorem logicAndShifts : Obligations.LogicAndShifts := by
  unfold Obligations.LogicAndShifts
  refine ⟨fun h ty d a b r imm => ⟨?_, ?_, ?_, ?_, ?_, ?_, ?_, ?_, ?_⟩, fun h ty d a b c r n imm => ⟨?_, ?_, ?_, ?_, ?_, ?_, ?_, ?_, ?_, ?_⟩⟩
  · exact computes_logic2 (fun _ x y _ => ofNat_andN x y) fun _ => rfl
  · exact computes_logic1 (fun _ x y _ => ofNat_andN x y) fun _ => rfl
  · exact computes_logic2 (fun _ x y _ => ofNat_orN x y) fun _ => rfl
  · exact computes_logic1 (fun _ x y _ => ofNat_orN x y) fun _ => rfl
  · exact computes_logic2 (fun _ x y _ => ofNat_xorN x y) fun _ => rfl
  · exact computes_logic1 (fun _ x y _ => ofNat_xorN x y) fun _ => rfl
  · exact computes_logic2 (fun _ => ofNat_andnN) fun _ => rfl
  · exact computes_logic1 (fun _ => ofNat_andnN) fun _ => rfl
  · exact computes_unary (fun _ x => ofNat_complement x le_rfl) fun _ => rfl
  · exact computes_shift2 (g := fun n _ x => x <<< n) (fun n _ x => ofNat_shlN x n) fun _ => rfl
  · exact computes_shift1 (g := fun n _ x => x <<< n) (fun n _ x => ofNat_shlN x n) fun _ => rfl
  · exact computes_shift2 (g := fun n _ x => x >>> n) (fun n _ x => ofNat_shrN x n) fun _ => rfl
  · exact computes_shift1 (g := fun n _ x => x >>> n) (fun n _ x => ofNat_shrN x n) fun _ => rfl
  · exact computes_shift2 (g := fun n _ x => x.sshiftRight n) (fun n _ x => ofNat_sarN x n) fun _ => rfl
  · exact computes_shift1 (g := fun n _ x => x.sshiftRight n) (fun n _ x => ofNat_sarN x n) fun _ => rfl
  · exact computes_shift2 (g := fun n _ x => x.rotateLeft n) (fun n _ x => ofNat_rolN x n) fun _ => rfl
  · exact computes_shift1 (g := fun n _ x => x.rotateLeft n) (fun n _ x => ofNat_rolN x n) fun _ => rfl
  · have hval (e : Env) : writeTy ty d (BitVec.ofNat 64 (fshlN ty.width (e.nat ty a) (e.nat ty c) (e.amount b % 256))) =
        e.map2 ty d a c fun x y => funnel (e.amt b) x y := by
      rw [amt_eq]
      exact writeTy_map2 (f := fun w x y => fshlN w x y (e.amt b)) (fun _ x y _ => ofNat_fshlN x y _) e a c
    exact computes_of_pure fun s => by simp only [← hval]; rfl
  · have hval (e : Env) : writeTy ty d (BitVec.ofNat 64 (fshlN ty.width (e.nat ty (.g r)) (e.nat ty (.g d)) n.toNat)) =
        e.map2 ty d (.g r) (.g d) fun x y => funnel n.toNat x y :=
      writeTy_map2 (f := fun w x y => fshlN w x y n.toNat) (fun _ x y _ => ofNat_fshlN x y _) e (.g r) (.g d)
    exact computes_of_pure fun s => by simp only [← hval]; rfl

end Sys2Proof.Machine

/-! PROOF. Integer arithmetic, comparison and packed integers (O6): the model's exact results, narrowed or clamped, are those of the
statement. -/

namespace Sys2Proof.Machine

/-! ## Ranges, narrowing and overflow (R30, R32, R103) -/

theorem leastOf_le_greatestOf (w : Nat) (signed : Bool) : leastOf w signed ≤ greatestOf w signed := by
  have hlow : (0 : Int) < 2 ^ (w - 1) := by positivity
  have hall : (0 : Int) < 2 ^ w := by positivity
  cases signed
  · simp only [leastOf, greatestOf, Bool.false_eq_true, if_false]; omega
  · simp only [leastOf, greatestOf, if_true]; omega

theorem clampInt_eq {lo hi : Int} (h : lo ≤ hi) (x : Int) : clampInt x lo hi = max lo (min hi x) := by
  unfold clampInt
  split
  · omega
  · split <;> omega

theorem clampInt_range (w : Nat) (signed : Bool) (x : Int) :
    clampInt x (loOf w signed) (hiOf w signed) = max (leastOf w signed) (min (greatestOf w signed) x) :=
  clampInt_eq (leastOf_le_greatestOf w signed) x

theorem ofNat_narrow (w : Nat) (signed sat : Bool) (x : Int) : BitVec.ofNat w (narrow w signed sat x) = fitTo w signed sat x := by
  rw [narrow, ofNat_emod_toNat, fitTo, clampInt_range]

theorem overflows_eq (w : Nat) (signed : Bool) (x : Int) : overflows w signed x = outside w signed x :=
  (Bool.decide_or (x < leastOf w signed) (greatestOf w signed < x)).symm

/-- The writes of an arithmetic word are those of the exact result (R103). -/
theorem arithWrites_eq (ty : IntTy) (sat : Bool) (d : BitVec 8) (pq : Option (BitVec 3)) (x : Int) :
    arithWrites ty sat d pq x = exactly ty sat d pq x := by
  rw [arithWrites, tyResult, writeTy_width ty d fun w => narrow w ty.signed sat x, exactly, ofNat_narrow, ofNat_narrow, overflows_eq,
    width_eq]
  cases ty.wide <;> rfl

/-! ## Sources as integers (R67, R98) -/

theorem valOf_toNat {w : Nat} (signed : Bool) (x : BitVec w) : valOf w signed x.toNat = intOf signed x := by
  rw [valOf_eq, BitVec.ofNat_toNat, BitVec.setWidth_eq, intOf]

theorem int_eq (e : Env) (ty : IntTy) (a : Src) : e.int ty a = e.value ty a := by
  have hnat := nat_eq e ty a
  rw [Env.nat] at hnat
  rw [Env.int, tyVal, hnat, Env.value, width_eq]
  cases ty.wide
  · exact valOf_toNat ty.signed (e.src32 a)
  · exact valOf_toNat ty.signed (e.src64 a)

theorem immInt_eq (ty : IntTy) (imm : BitVec 31) : immInt ty imm = immValue ty imm := by
  have hnat := immNat_eq ty imm
  rw [immNat] at hnat
  rw [immInt, tyVal, hnat, immValue, width_eq]
  cases ty.wide
  · exact valOf_toNat ty.signed (imm.signExtend 32)
  · exact valOf_toNat ty.signed (imm.signExtend 64)

/-! ## The forms of rows 0x01 and 0x02 -/

section
variable {i : Instr} {h : Hdr} {ty : IntTy} {sat : Bool} {d : BitVec 8} {pq : Option (BitVec 3)}

theorem computes_arith2 {a b : Src} (f : Int → Int → Int) (hx : ∀ s, exec i s = .next (runBundle h (arith2 ty sat d a b pq f) s)) :
    Computes i h { uses2 ty d a b with dests := (uses2 ty d a b).dests ++ secondDst pq }
      fun e => exactly ty sat d pq (f (e.value ty a) (e.value ty b)) :=
  computes_of_pure fun s => by simp only [hx, arith2, arithWrites_eq, int_eq]; rfl

/-- A word without a second destination. -/
theorem computes_arith2_alone {a b : Src} (f : Int → Int → Int)
    (hx : ∀ s, exec i s = .next (runBundle h (arith2 ty sat d a b none f) s)) :
    Computes i h (uses2 ty d a b) fun e => exactly ty sat d none (f (e.value ty a) (e.value ty b)) := by
  have hcomp := computes_arith2 f hx
  rwa [show (uses2 ty d a b).dests ++ secondDst none = (uses2 ty d a b).dests from List.append_nil _] at hcomp

theorem computes_arith1 {r : BitVec 8} {imm : BitVec 31} (f : Int → Int → Int)
    (hx : ∀ s, exec i s = .next (runBundle h (arith1 ty sat d r imm f) s)) :
    Computes i h (uses1 ty d (.g r)) fun e => exactly ty sat d none (f (e.value ty (.g r)) (immValue ty imm)) :=
  computes_of_pure fun s => by simp only [hx, arith1, arithWrites_eq, int_eq, immInt_eq]; rfl

theorem computes_arith3 {a b c : Src} (f : Int → Int → Int → Int)
    (hx : ∀ s, exec i s = .next (runBundle h (arith3 ty sat d a b c pq f) s)) :
    Computes i h { reads := namesTy ty a ++ namesTy ty b ++ namesTy ty c, dests := dstTy ty d ++ secondDst pq }
      fun e => exactly ty sat d pq (f (e.value ty a) (e.value ty b) (e.value ty c)) :=
  computes_of_pure fun s => by simp only [hx, arith3, arithWrites_eq, int_eq]

end

theorem mulHigh_eq (ty : IntTy) (x y : Int) :
    mulHigh ty.width x y = ⌊((x * y : Int) : ℚ) / 2 ^ (if ty.wide then 64 else 32 : Nat)⌋ := by
  have hfloor := Rat.floor_intCast_div_natCast (x * y) (2 ^ ty.width)
  push_cast at hfloor
  rw [mulHigh, ← width_eq]
  push_cast
  exact hfloor.symm

theorem intMin_eq (x y : Int) : intMin x y = min x y := (min_def x y).symm
theorem intMax_eq (x y : Int) : intMax x y = max x y := (max_def x y).symm
theorem intAbs_eq (x : Int) : intAbs x = |x| := by
  unfold intAbs
  split
  · exact (abs_of_neg ‹_›).symm
  · exact (abs_of_nonneg (not_lt.mp ‹_›)).symm

/-! ## Packed integers (R31, R109) -/

theorem laneBits_eq (w i : Nat) (x : Word) : laneBits w i x = (x.extractLsb' (w * i) w).toNat := by
  rw [laneBits, BitVec.extractLsb'_toNat, Nat.shiftRight_eq_div_pow]

theorem laneVal_eq (w : Nat) (uns : Bool) (i : Nat) (x : Word) : laneVal w uns i x = intOf (!uns) (x.extractLsb' (w * i) w) := by
  rw [laneVal, laneBits_eq, valOf_toNat]

theorem toNat_append_eq {m n : Nat} (x : BitVec m) (y : BitVec n) : (x ++ y).toNat = x.toNat * 2 ^ n + y.toNat := by
  rw [BitVec.toNat_append, ← Nat.shiftLeft_add_eq_or_of_lt y.isLt, Nat.shiftLeft_eq]

theorem packWord_bytes (f : Nat → Nat) :
    packWord 8 f = BitVec.ofNat 8 (f 3) ++ BitVec.ofNat 8 (f 2) ++ BitVec.ofNat 8 (f 1) ++ BitVec.ofNat 8 (f 0) := by
  have hsum (a b c d : Nat) : a * 2 ^ (8 * 0) + b * 2 ^ (8 * 1) + c * 2 ^ (8 * 2) + d * 2 ^ (8 * 3) =
      ((d * 2 ^ 8 + c) * 2 ^ 8 + b) * 2 ^ 8 + a := by ring
  refine Eq.trans ?_ ((BitVec.ofNat_toNat 32 _).trans (BitVec.setWidth_eq _))
  rw [packWord, show List.range (32 / 8) = [0, 1, 2, 3] from rfl, List.map_cons, List.map_cons, List.map_cons, List.map_cons,
    List.map_nil, sumList, List.foldl_cons, List.foldl_cons, List.foldl_cons, List.foldl_cons, List.foldl_nil, zero_add, hsum,
    toNat_append_eq, toNat_append_eq, toNat_append_eq, BitVec.toNat_ofNat, BitVec.toNat_ofNat, BitVec.toNat_ofNat, BitVec.toNat_ofNat]

theorem packWord_halves (f : Nat → Nat) : packWord 16 f = BitVec.ofNat 16 (f 1) ++ BitVec.ofNat 16 (f 0) := by
  have hsum (a b : Nat) : a * 2 ^ (16 * 0) + b * 2 ^ (16 * 1) = b * 2 ^ 16 + a := by ring
  refine Eq.trans ?_ ((BitVec.ofNat_toNat 32 _).trans (BitVec.setWidth_eq _))
  rw [packWord, show List.range (32 / 16) = [0, 1] from rfl, List.map_cons, List.map_cons, List.map_nil, sumList, List.foldl_cons,
    List.foldl_cons, List.foldl_nil, zero_add, hsum, toNat_append_eq, BitVec.toNat_ofNat, BitVec.toNat_ofNat]

/-- The exact result of each sub-element, narrowed by itself. -/
theorem packWord_parts (pk : Pack) (uns sat : Bool) (op : Int → Int → Nat → Int) (x y : Word) :
    (packWord (packWidth pk) fun i => narrow (packWidth pk) (!uns) sat
        (op (laneVal (packWidth pk) uns i x) (laneVal (packWidth pk) uns i y) (laneBits (packWidth pk) i y % 256))) =
      parts pk x y fun x y => partly uns sat op x y := by
  cases pk with
  | x8 => simp only [packWidth, packWord_bytes, ofNat_narrow, laneVal_eq, laneBits_eq]; rfl
  | x16 => simp only [packWidth, packWord_halves, ofNat_narrow, laneVal_eq, laneBits_eq]; rfl

theorem computes_packed {i : Instr} {h : Hdr} {pk : Pack} {uns sat : Bool} {d : BitVec 8} {a b : Src} (op : Int → Int → Nat → Int)
    (hx : ∀ s, exec i s = .next (runBundle h (packed pk uns sat d a b fun _ => op) s)) :
    Computes i h (uses32 d [a, b])
      fun e => write32 d (parts pk (e.src32 a) (e.src32 b) fun x y => partly uns sat op x y) :=
  computes_of_pure fun s => by simp only [hx, packed, packWord_parts]; rfl

/-- Settles O6: each word is one of the forms of its row, at the exact result named. -/
theorem integerResults : Obligations.IntegerResults := by
  unfold Obligations.IntegerResults
  refine ⟨fun h ty sat d a b c r imm pq => ?_, fun h cond ty d a b r imm pq => ⟨?_, ?_⟩, fun h pk uns sat d a b => ?_⟩
  · refine ⟨?_, ?_, ?_, ?_, ?_, ?_, ?_, ?_, ?_, ?_, ?_, ?_, ?_, fun wide => ?_, ?_⟩
    · exact computes_arith2 (fun x y => x + y) fun _ => rfl
    · exact computes_arith1 (fun x y => x + y) fun _ => rfl
    · exact computes_arith2 (fun x y => x - y) fun _ => rfl
    · exact computes_arith1 (fun x y => x - y) fun _ => rfl
    · exact computes_arith2 (fun x y => x * y) fun _ => rfl
    · exact computes_arith1 (fun x y => x * y) fun _ => rfl
    · simp only [← mulHigh_eq]
      exact computes_arith2_alone (mulHigh ty.width) fun _ => rfl
    · simp only [← mulHigh_eq]
      exact computes_arith1 (mulHigh ty.width) fun _ => rfl
    · exact computes_arith3 (fun x y z => x * y + z) fun _ => rfl
    · simp only [← intMin_eq]
      exact computes_arith2_alone intMin fun _ => rfl
    · simp only [← intMin_eq]
      exact computes_arith1 intMin fun _ => rfl
    · simp only [← intMax_eq]
      exact computes_arith2_alone intMax fun _ => rfl
    · simp only [← intMax_eq]
      exact computes_arith1 intMax fun _ => rfl
    · simp only [← intAbs_eq, ← arithWrites_eq, ← int_eq]
      exact computes_of_pure fun _ => rfl
    · simp only [← intAbs_eq]
      exact computes_arith3 (fun x y z => intAbs (x - y) + z) fun _ => rfl
  · simp only [← int_eq]
    exact computes_of_pure fun _ => rfl
  · simp only [← int_eq, ← immInt_eq]
    exact computes_of_pure fun _ => rfl
  · refine ⟨?_, ?_, ?_, ?_, ?_⟩
    · exact computes_packed (fun x y _ => x + y) fun _ => rfl
    · exact computes_packed (fun x y _ => x - y) fun _ => rfl
    · simp only [← intMin_eq]
      exact computes_packed (fun x y _ => intMin x y) fun _ => rfl
    · simp only [← intMax_eq]
      exact computes_packed (fun x y _ => intMax x y) fun _ => rfl
    · exact computes_packed (fun x _ n => x * 2 ^ n) fun _ => rfl

end Sys2Proof.Machine

/-! PROOF. Conversions (O12): CVT's four pairs of kinds, and QNT, DQNT and TRCD. -/

namespace Sys2Proof.Machine

/-! ## Register images (R31) -/

/-- A number whose low bits are those of an integer. -/
def ImageOf (r : Nat) (x : Int) : Prop := ∀ w ≤ 64, BitVec.ofNat w r = BitVec.ofInt w x

theorem imageOf_natCast (n : Nat) : ImageOf n n := fun w _ => (BitVec.ofInt_natCast w n).symm

theorem imageOf_intImage (x : Int) : ImageOf (intImage x) x := fun w hw => by
  have hnonneg : 0 ≤ x % 2 ^ 64 := Int.emod_nonneg _ (by positivity)
  have hdvd : (2 : Int) ^ w ∣ 2 ^ 64 := pow_dvd_pow 2 hw
  rw [intImage, ← BitVec.ofInt_natCast, Int.toNat_of_nonneg hnonneg]
  apply BitVec.eq_of_toNat_eq
  rw [BitVec.toNat_ofInt, BitVec.toNat_ofInt, Nat.cast_pow, Nat.cast_ofNat, Int.emod_emod_of_dvd _ hdvd]

/-! ## CVT (R40 to R43, R116) -/

section
variable {h : Hdr} {rm : Rm} {dst src : CvtTy} {d : BitVec 8} {a : Src} {pq : Option (BitVec 3)}

/-- The source of CVT as a register image. -/
def Env.cvtRaw (e : Env) (src : CvtTy) (a : Src) : DWord := if src.wide then e.src64 a else (e.src32 a).zeroExtend 64
/-- The writes of a result that is an integer's image, and of its invalid bit. -/
def cvtPut (dst : CvtTy) (d : BitVec 8) (pq : Option (BitVec 3)) (x : Int) (invalid : Bool) : List RWrite :=
  (if dst.wide then write64 d (BitVec.ofInt 64 x) else write32 d (BitVec.ofInt 32 x)) ++ writeSecond pq invalid

theorem cvtRaw_toNat (e : Env) (src : CvtTy) (a : Src) :
    (if src.wide then (e.src64 a).toNat else (e.src32 a).toNat) = (e.cvtRaw src a).toNat := by
  unfold Env.cvtRaw
  split
  · rfl
  · exact (BitVec.toNat_setWidth_of_le (by decide)).symm

theorem Computes.congr {i : Instr} {u : Uses} {val val' : Env → List RWrite} {pre : Env → Prop} (hc : Computes i h u val pre)
    (hval : ∀ e, val e = val' e) : Computes i h u val' pre := (funext hval : val = val') ▸ hc

/-- CVT writes the image of an integer, when its value is one. -/
theorem computes_cvt {x : Env → Int} {invalid : Env → Bool}
    (himage : ∀ e, ImageOf (cvtValue rm dst src (e.cvtRaw src a).toNat).1 (x e))
    (hinvalid : ∀ e, (cvtValue rm dst src (e.cvtRaw src a).toNat).2 = invalid e) :
    Computes (.cvt h rm dst src d a pq) h
      { reads := if src.wide then names64 a else names32 a
        dests := (if dst.wide then pairNames d.toNat else [.g d.toNat]) ++ secondDst pq }
      fun e => cvtPut dst d pq (x e) (invalid e) := by
  have hval (e : Env) : cvtPut dst d pq (x e) (invalid e) =
      let r := cvtValue rm dst src (if src.wide then (e.src64 a).toNat else (e.src32 a).toNat)
      (if dst.wide then write64 d (BitVec.ofNat 64 r.1) else write32 d (BitVec.ofNat 32 r.1)) ++ writeSecond pq r.2 := by
    simp only [cvtRaw_toNat, himage e 64 (by decide), himage e 32 (by decide), hinvalid e, cvtPut]
  simp only [hval]
  exact computes_of_pure fun _ => rfl

/-- The source of CVT as an integer of its type. -/
theorem valOf_cvtRaw (e : Env) (src : CvtTy) (a : Src) :
    valOf (cvtWidth src) (cvtSigned src) (e.cvtRaw src a).toNat =
      intOf (cvtSigned src) ((e.cvtRaw src a).truncate (cvtWidth src)) := by
  rw [valOf_eq, BitVec.ofNat_toNat, intOf]

/-- What CVT writes for a number of a format that becomes an integer of a type (R41, R43). -/
theorem cvtPut_toIntVal (v : FVal) :
    cvtPut dst d pq (toIntVal rm (cvtWidth dst) (cvtSigned dst) v) v.invalid = match v with
      | .nan => cvtPut dst d pq 0 true
      | .inf s => cvtPut dst d pq (if s then leastOf (cvtWidth dst) (cvtSigned dst) else greatestOf (cvtWidth dst) (cvtSigned dst)) true
      | .fin s m q => cvtPut dst d pq (max (leastOf (cvtWidth dst) (cvtSigned dst)) (min (greatestOf (cvtWidth dst) (cvtSigned dst))
          (if s then -(roundNat rm s m q : Int) else roundNat rm s m q))) false := by
  cases v with
  | nan => rfl
  | inf s => rfl
  | fin s m q => exact congrArg (cvtPut dst d pq · false) (clampInt_range _ _ _)

variable {f g : FFmt}

theorem cvtValue_float_float (hs : cvtFloat src = some f) (hd : cvtFloat dst = some g) (x : Nat) :
    cvtValue rm dst src x = (g.write rm (f.read x), false) := by
  simp only [cvtValue, hs, hd]

theorem cvtValue_float_int (hs : cvtFloat src = some f) (hd : cvtFloat dst = none) (x : Nat) :
    cvtValue rm dst src x = (intImage (toIntVal rm (cvtWidth dst) (cvtSigned dst) (f.read x)), (f.read x).invalid) := by
  simp only [cvtValue, hs, hd]

theorem cvtValue_int_float (hs : cvtFloat src = none) (hd : cvtFloat dst = some g) (x : Nat) :
    cvtValue rm dst src x = (g.write rm (.ofInt (valOf (cvtWidth src) (cvtSigned src) x)), false) := by
  simp only [cvtValue, hs, hd]

theorem cvtValue_int_int (hs : cvtFloat src = none) (hd : cvtFloat dst = none) (x : Nat) :
    cvtValue rm dst src x = (intImage (clampInt (valOf (cvtWidth src) (cvtSigned src) x) (loOf (cvtWidth dst) (cvtSigned dst))
      (hiOf (cvtWidth dst) (cvtSigned dst))), false) := by
  simp only [cvtValue, hs, hd]

end

/-! ## Fields of the operands of QNT, DQNT and TRCD (R117 to R119) -/

theorem trcdScale_eq (fmt : ElemFmt) (x : Nat) : (match fmt with | .b4 => x | _ => 0) = if fmt = .b4 then x else 0 := by
  cases fmt <;> rfl

theorem toNat_extract_field {w k n : Nat} (hn : 2 ^ k = n) (x : BitVec w) (o : Nat) :
    (x.extractLsb' o k).toNat = x.toNat / 2 ^ o % n := by
  rw [BitVec.extractLsb'_toNat, Nat.shiftRight_eq_div_pow, hn]

theorem toNat_extract_mod {w k n : Nat} (hn : 2 ^ k = n) (x : BitVec w) : (x.extractLsb' 0 k).toNat = x.toNat % n :=
  hn ▸ toNat_extract_low x k

/-- Settles O12: CVT by the kinds of its two types (`computes_cvt`); the other words are their meanings as they stand. -/
theorem conversionResults : Obligations.ConversionResults := by
  unfold Obligations.ConversionResults
  refine ⟨fun h rm dst src d a pq => ⟨fun f g hs hd => ?_, fun f hs hd => ?_, fun g hs hd => ?_, fun hs hd => ?_⟩,
    fun h dst rm d a b c i pq fmt nib => ⟨?_, ?_, ?_, ?_⟩⟩
  · refine computes_cvt (fun e => ?_) fun e => ?_
    · rw [cvtValue_float_float hs hd]
      exact imageOf_natCast _
    · rw [cvtValue_float_float hs hd]
  · refine (computes_cvt (x := fun e => toIntVal rm (cvtWidth dst) (cvtSigned dst) (f.read (e.cvtRaw src a).toNat))
      (invalid := fun e => (f.read (e.cvtRaw src a).toNat).invalid) (fun e => ?_) fun e => ?_).congr fun e => cvtPut_toIntVal _
    · rw [cvtValue_float_int hs hd]
      exact imageOf_intImage _
    · rw [cvtValue_float_int hs hd]
  · refine computes_cvt (fun e => ?_) fun e => ?_
    · rw [cvtValue_int_float hs hd, valOf_cvtRaw]
      exact imageOf_natCast _
    · rw [cvtValue_int_float hs hd]
  · refine computes_cvt (fun e => ?_) fun e => ?_
    · rw [cvtValue_int_int hs hd, valOf_cvtRaw, clampInt_range]
      exact imageOf_intImage _
    · rw [cvtValue_int_int hs hd]
  · simp only [toNat_extract_mod (show 2 ^ 8 = 256 by norm_num)]
    exact computes_of_pure fun _ => rfl
  · simp only [toNat_extract_mod (show 2 ^ 2 = 4 by norm_num)]
    exact computes_of_pure fun _ => rfl
  · simp only [toNat_extract_mod (show 2 ^ 8 = 256 by norm_num), toNat_extract_field (show 2 ^ 4 = 16 by norm_num)]
    cases dst <;> exact computes_of_pure fun _ => rfl
  · simp only [toNat_extract_mod (show 2 ^ 8 = 256 by norm_num), toNat_extract_mod (show 2 ^ 5 = 32 by norm_num), ← trcdScale_eq]
    exact computes_of_pure fun _ => rfl

end Sys2Proof.Machine

/-! PROOF. Numbers and rounding (O9): exact arithmetic, the encodable numbers of a format in their order, and the code that a mode
picks among them. -/

namespace Sys2Proof.Machine

/-! ## The numbers of exact values (R35, R110) -/

theorem signedNat_cast (s : Bool) (m : Nat) : (signedNat s m : ℚ) = (if s then -1 else 1) * (m : ℚ) := by
  cases s <;> simp [signedNat]

theorem rat_fin (s : Bool) (m : Nat) (e : Int) : (FVal.fin s m e).rat = signedNat s m * 2 ^ e := by
  rw [signedNat_cast]
  rfl

theorem zpow_split {q e : Int} (h : q ≤ e) : (2 : ℚ) ^ e = 2 ^ (e - q).toNat * 2 ^ q := by
  rw [← zpow_natCast, Int.toNat_of_nonneg (by omega), ← zpow_add₀ (by norm_num)]
  congr 1
  omega

/-- A value in units of a lower power of two. -/
theorem rat_units {q e : Int} (h : q ≤ e) (s : Bool) (m : Nat) :
    (FVal.fin s m e).rat = signedNat s (m * 2 ^ (e - q).toNat) * 2 ^ q := by
  rw [rat_fin, zpow_split h, signedNat_cast, signedNat_cast]
  push_cast
  ring

theorem rat_neg (s : Bool) (m : Nat) (e : Int) : (FVal.fin (!s) m e).rat = -(FVal.fin s m e).rat := by
  rw [rat_fin, rat_fin, signedNat_cast, signedNat_cast]
  cases s <;> simp

theorem rat_mul (s t : Bool) (m n : Nat) (e f : Int) :
    ((FVal.fin s m e).mul (.fin t n f)).rat = (FVal.fin s m e).rat * (FVal.fin t n f).rat := by
  rw [FVal.mul, rat_fin, rat_fin, rat_fin, signedNat_cast, signedNat_cast, signedNat_cast, zpow_add₀ (by norm_num)]
  cases s <;> cases t <;> push_cast <;> ring_nf <;> simp

theorem signedNat_natAbs (x : Int) : signedNat (decide (x < 0)) x.natAbs = x := by
  unfold signedNat
  split <;> rename_i hx <;> simp only [decide_eq_true_eq] at hx <;> omega

theorem rat_ofSum (x : Int) (q : Int) : (FVal.fin (decide (x < 0)) x.natAbs q).rat = x * 2 ^ q := by
  rw [rat_fin, signedNat_natAbs]

section
variable (rm : Rm) (s t : Bool) (m n : Nat) (e f : Int)

/-- The sum of two finite values in units of the lower exponent. -/
def unitSum : Int := signedNat s (m * 2 ^ (e - min e f).toNat) + signedNat t (n * 2 ^ (f - min e f).toNat)

theorem unitSum_rat : (unitSum s t m n e f : ℚ) * 2 ^ min e f = (FVal.fin s m e).rat + (FVal.fin t n f).rat := by
  rw [rat_units (min_le_left e f), rat_units (min_le_right e f), unitSum]
  push_cast
  ring

theorem unitSum_zero : unitSum s t m n e f = 0 ↔ (FVal.fin s m e).rat + (FVal.fin t n f).rat = 0 := by
  rw [← unitSum_rat, mul_eq_zero, Int.cast_eq_zero]
  exact ⟨.inl, fun h => h.resolve_right (by positivity)⟩

theorem add_fin : (FVal.fin s m e).add rm (.fin t n f) =
    if unitSum s t m n e f = 0 then (if m = 0 ∧ n = 0 ∧ s = t then .fin s 0 (min e f) else .fin (decide (rm = .rdn)) 0 (min e f))
    else .fin (decide (unitSum s t m n e f < 0)) (unitSum s t m n e f).natAbs (min e f) := rfl

theorem rat_add : ((FVal.fin s m e).add rm (.fin t n f)).rat = (FVal.fin s m e).rat + (FVal.fin t n f).rat := by
  rw [add_fin]
  split
  · rename_i hzero
    rw [(unitSum_zero s t m n e f).mp hzero]
    split <;> simp [FVal.rat]
  · rw [rat_ofSum, unitSum_rat]

theorem sign_add (hzero : (FVal.fin s m e).rat + (FVal.fin t n f).rat = 0) :
    ((FVal.fin s m e).add rm (.fin t n f)).sign = if m = 0 ∧ n = 0 ∧ s = t then s else decide (rm = .rdn) := by
  rw [add_fin, if_pos ((unitSum_zero s t m n e f).mpr hzero)]
  split <;> rfl

theorem rat_sub : ((FVal.fin s m e).sub rm (.fin t n f)).rat = (FVal.fin s m e).rat - (FVal.fin t n f).rat := by
  rw [FVal.sub]
  split
  · rename_i hzero
    simp [FVal.rat, hzero.1, hzero.2]
  · rw [FVal.neg, rat_add, rat_neg, sub_eq_add_neg]

theorem sign_sub (hzero : (FVal.fin s m e).rat - (FVal.fin t n f).rat = 0) :
    ((FVal.fin s m e).sub rm (.fin t n f)).sign = if m = 0 ∧ n = 0 ∧ s = t then s else decide (rm = .rdn) := by
  rw [FVal.sub]
  split
  · rename_i hmn
    simp only [FVal.sign, hmn, true_and]
  · rename_i hmn
    rw [FVal.neg, sign_add _ _ _ _ _ _ _ (by rw [rat_neg, ← sub_eq_add_neg, hzero]), if_neg fun h => hmn ⟨h.1, h.2.1⟩,
      if_neg fun h => hmn ⟨h.1, h.2.1⟩]

theorem lt_fin : (FVal.fin s m e).lt (.fin t n f) = true ↔ (FVal.fin s m e).rat < (FVal.fin t n f).rat := by
  have hpow : (0 : ℚ) < 2 ^ min e f := by positivity
  rw [rat_units (min_le_left e f), rat_units (min_le_right e f), mul_lt_mul_iff_left₀ hpow, Int.cast_lt]
  exact decide_eq_true_iff

theorem eq_fin : (FVal.fin s m e).eq (.fin t n f) = true ↔ (FVal.fin s m e).rat = (FVal.fin t n f).rat := by
  have hlt := lt_fin s t m n e f
  have hgt := lt_fin t s n m f e
  rw [le_antisymm_iff (α := ℚ), ← not_lt, ← not_lt, ← hlt, ← hgt]
  simp only [FVal.eq, FVal.isNan]
  cases (FVal.fin s m e).lt (.fin t n f) <;> cases (FVal.fin t n f).lt (.fin s m e) <;> decide

end

/-! ## The magnitude codes of a format (R34, R35)

A format's magnitude codes are numbers in rising order: code k · 2^fb + n has the significand n and the exponent k above the least. The
order goes on past the format's largest code, so that rounding needs no case of its own there. -/

/-- The exponent of the least significant bit of subnormal numbers. -/
def FFmt.qmin (f : FFmt) : Int := 1 - (f.bias : Int) - f.fb
/-- Significand and exponent of a magnitude code. -/
def FFmt.sig (f : FFmt) (c : Nat) : Nat := if c / 2 ^ f.fb = 0 then c % 2 ^ f.fb else 2 ^ f.fb + c % 2 ^ f.fb
def FFmt.exp (f : FFmt) (c : Nat) : Int := f.qmin + (c / 2 ^ f.fb - 1 : Nat)
/-- The number of a magnitude code. -/
def FFmt.mag (f : FFmt) (c : Nat) : ℚ := f.sig c * 2 ^ f.exp c

section
variable (f : FFmt)

theorem mag_zero : f.mag 0 = 0 := by simp [FFmt.mag, FFmt.sig]

/-- The code of significand n at the exponent k, with the first code of the next exponent as the significand 2^(fb + 1). -/
theorem mag_code {k n : Nat} (hn : n ≤ 2 ^ (f.fb + 1)) (hk : k = 0 ∨ 2 ^ f.fb ≤ n) :
    f.mag (k * 2 ^ f.fb + n) = n * 2 ^ (f.qmin + k) := by
  have hpos : 0 < 2 ^ f.fb := by positivity
  rw [pow_succ] at hn
  rcases lt_or_ge n (2 ^ f.fb) with hlow | hhigh
  · obtain rfl : k = 0 := hk.resolve_right (not_le.mpr hlow)
    rw [FFmt.mag, FFmt.sig, FFmt.exp, Nat.zero_mul, Nat.zero_add, Nat.div_eq_of_lt hlow, Nat.mod_eq_of_lt hlow]
    simp
  · obtain ⟨r, rfl⟩ := Nat.exists_eq_add_of_le hhigh
    rcases (show r < 2 ^ f.fb ∨ r = 2 ^ f.fb by omega) with hr | rfl
    · have hc : k * 2 ^ f.fb + (2 ^ f.fb + r) = r + (k + 1) * 2 ^ f.fb := by ring
      rw [FFmt.mag, FFmt.sig, FFmt.exp, hc, Nat.add_mul_div_right _ _ hpos, Nat.add_mul_mod_self_right, Nat.div_eq_of_lt hr,
        Nat.mod_eq_of_lt hr, if_neg (by omega), Nat.zero_add, Nat.add_sub_cancel]
    · have hc : k * 2 ^ f.fb + (2 ^ f.fb + 2 ^ f.fb) = (k + 2) * 2 ^ f.fb := by ring
      rw [FFmt.mag, FFmt.sig, FFmt.exp, hc, Nat.mul_div_cancel _ hpos, Nat.mul_mod_left, if_neg (by omega), Nat.add_zero,
        show k + 2 - 1 = k + 1 from rfl]
      push_cast
      rw [← add_assoc, zpow_add_one₀ (by norm_num)]
      ring

/-- Every code is the significand sig at its exponent. -/
theorem code_split (c : Nat) : ∃ k : Nat, f.exp c = f.qmin + k ∧ c = k * 2 ^ f.fb + f.sig c ∧ f.sig c < 2 ^ (f.fb + 1) ∧
    (k = 0 ∨ 2 ^ f.fb ≤ f.sig c) := by
  have hmod : c % 2 ^ f.fb < 2 ^ f.fb := Nat.mod_lt _ (by positivity)
  have hdiv := Nat.div_add_mod' c (2 ^ f.fb)
  refine ⟨c / 2 ^ f.fb - 1, rfl, ?_⟩
  rw [FFmt.sig, pow_succ]
  split
  · rename_i hz
    rw [hz] at hdiv ⊢
    exact ⟨by omega, by omega, .inl rfl⟩
  · obtain ⟨j, hj⟩ := Nat.exists_eq_succ_of_ne_zero ‹_›
    rw [hj, Nat.succ_mul] at hdiv
    rw [hj, Nat.succ_sub_one]
    exact ⟨by omega, by omega, .inr (by omega)⟩

/-- The next code is one unit of the last place above. -/
theorem mag_succ (c : Nat) : f.mag (c + 1) = (f.sig c + 1) * 2 ^ f.exp c := by
  obtain ⟨k, hexp, hc, hlt, hk⟩ := code_split f c
  have hnext := mag_code f (k := k) (n := f.sig c + 1) hlt (hk.imp_right fun h => h.trans (Nat.le_succ _))
  rw [← Nat.add_assoc, ← hc, ← hexp] at hnext
  rw [hnext]
  push_cast
  rfl

theorem mag_strictMono : StrictMono f.mag := by
  refine strictMono_nat_of_lt_succ fun c => ?_
  rw [mag_succ, FFmt.mag]
  exact mul_lt_mul_of_pos_right (by linarith) (by positivity)

theorem mag_nonneg (c : Nat) : 0 ≤ f.mag c := by
  rw [FFmt.mag]
  positivity

/-! ## Positive and negative codes in one order -/

/-- The number of a signed code. -/
def FFmt.point (n : Int) : ℚ := if n < 0 then -f.mag n.natAbs else f.mag n.natAbs

@[simp] theorem point_natCast (c : Nat) : f.point c = f.mag c := by simp [FFmt.point]

@[simp] theorem point_neg (n : Int) : f.point (-n) = -f.point n := by
  rcases lt_trichotomy n 0 with hn | rfl | hn
  · rw [FFmt.point, FFmt.point, if_neg (by omega), if_pos hn, Int.natAbs_neg, neg_neg]
  · simp [FFmt.point, mag_zero]
  · rw [FFmt.point, FFmt.point, if_pos (by omega), if_neg (by omega), Int.natAbs_neg]

theorem point_signedNat (s : Bool) (c : Nat) : f.point (signedNat s c) = if s then -f.mag c else f.mag c := by
  cases s
  · exact point_natCast f c
  · exact (point_neg f c).trans (congrArg _ (point_natCast f c))

theorem point_strictMono : StrictMono f.point := by
  refine strictMono_int_of_lt_succ fun n => ?_
  rcases le_or_gt 0 n with hn | hn
  · lift n to Nat using hn
    rw [← Nat.cast_succ, point_natCast, point_natCast]
    exact mag_strictMono f (Nat.lt_succ_self n)
  · obtain ⟨c, rfl⟩ : ∃ c : Nat, n = -((c + 1 : Nat) : Int) := ⟨(-n - 1).toNat, by omega⟩
    rw [show -((c + 1 : Nat) : Int) + 1 = -(c : Int) by omega, point_neg, point_neg, point_natCast, point_natCast, neg_lt_neg_iff]
    exact mag_strictMono f (Nat.lt_succ_self c)

theorem abs_point (n : Int) : |f.point n| = f.mag n.natAbs := by
  have hnonneg := mag_nonneg f n.natAbs
  rw [FFmt.point]
  split
  · rw [abs_neg, abs_of_nonneg hnonneg]
  · exact abs_of_nonneg hnonneg

theorem abs_point_le {m n : Int} : |f.point m| ≤ |f.point n| ↔ m.natAbs ≤ n.natAbs := by
  rw [abs_point, abs_point, (mag_strictMono f).le_iff_le]

end

/-! ## Reading encodings (R34 to R36) -/

/-- What the five formats of R34 have in common: sign, exponent and fraction fill the width, and infinity follows the largest finite
number. Where there is an infinity, that number's code is odd. -/
structure FFmt.Sound (f : FFmt) : Prop where
  width : f.w = f.fb + f.eb + 1
  fraction : 0 < f.fb
  room : f.maxc + 1 < 2 ^ (f.fb + f.eb)
  inf : ∀ i, f.inf = some i → i = f.maxc + 1 ∧ f.maxc % 2 = 1

theorem sound_of_mem {f : FFmt} (hf : f ∈ floatFormats) : f.Sound := by
  simp only [floatFormats, List.mem_cons, List.not_mem_nil, or_false] at hf
  rcases hf with rfl | rfl | rfl | rfl | rfl
  all_goals
    refine ⟨rfl, by decide, ?_, ?_⟩
    · norm_num [f32, f16, bf16, e5m2, e4m3]
    · simp [f32, f16, bf16, e5m2, e4m3]

section
variable {f : FFmt} (hf : f.Sound)
include hf

/-- The sign bit and the magnitude code of an encoding. -/
theorem read_eq (x : Nat) :
    f.read x = if f.maxc < fld x 0 (f.w - 1) then (if f.inf = some (fld x 0 (f.w - 1)) then .inf (bitOf x (f.w - 1)) else .nan)
      else .fin (bitOf x (f.w - 1)) (f.sig (fld x 0 (f.w - 1))) (f.exp (fld x 0 (f.w - 1))) := by
  have hcode : fld x 0 (f.w - 1) = x % 2 ^ (f.fb + f.eb) := by rw [fld, pow_zero, Nat.div_one, hf.width, Nat.add_sub_cancel]
  have hex : fld x 0 (f.w - 1) / 2 ^ f.fb = fld x f.fb f.eb := by rw [hcode, pow_add, Nat.mod_mul_right_div_self, fld]
  have hfr : fld x 0 (f.w - 1) % 2 ^ f.fb = fld x 0 f.fb := by
    rw [hcode, pow_add, Nat.mod_mul_right_mod, fld, pow_zero, Nat.div_one]
  rw [FFmt.sig, FFmt.exp, hex, hfr, FFmt.qmin]
  unfold FFmt.read
  simp only
  split
  · rfl
  · split
    · rename_i hz
      simp [hz]
    · congr 1
      omega

theorem encode_lt {c : Nat} (hc : c ≤ f.maxc + 1) (s : Bool) : (if s then 2 ^ (f.w - 1) else 0) + c < 2 ^ f.w := by
  have hroom := hf.room
  have hw : 2 ^ f.w = 2 * 2 ^ (f.fb + f.eb) := by rw [hf.width, pow_succ']
  rw [show f.w - 1 = f.fb + f.eb by rw [hf.width, Nat.add_sub_cancel], hw]
  split <;> omega

theorem fld_encode {c : Nat} (hc : c ≤ f.maxc + 1) (s : Bool) :
    fld ((if s then 2 ^ (f.w - 1) else 0) + c) 0 (f.w - 1) = c ∧ bitOf ((if s then 2 ^ (f.w - 1) else 0) + c) (f.w - 1) = s := by
  have hlt : c < 2 ^ (f.w - 1) := by
    rw [hf.width, Nat.add_sub_cancel]
    exact hc.trans_lt hf.room
  have hpos : 0 < 2 ^ (f.w - 1) := by positivity
  rw [fld, bitOf, pow_zero, Nat.div_one]
  cases s
  · simp [Nat.mod_eq_of_lt hlt, Nat.div_eq_of_lt hlt]
  · simp [Nat.mod_eq_of_lt hlt, Nat.div_eq_of_lt hlt, Nat.add_div_left _ hpos]

/-- A finite code reads as its number, with its sign. -/
theorem read_encode {c : Nat} (hc : c ≤ f.maxc) (s : Bool) :
    f.read ((if s then 2 ^ (f.w - 1) else 0) + c) = .fin s (f.sig c) (f.exp c) := by
  obtain ⟨hfld, hbit⟩ := fld_encode hf (hc.trans (Nat.le_succ _)) s
  rw [read_eq hf, hfld, hbit, if_neg (not_lt.mpr hc)]

theorem read_encode_inf {i : Nat} (hi : f.inf = some i) (s : Bool) : f.read ((if s then 2 ^ (f.w - 1) else 0) + i) = .inf s := by
  obtain ⟨hi', -⟩ := hf.inf i hi
  obtain ⟨hfld, hbit⟩ := fld_encode hf hi'.le s
  rw [read_eq hf, hfld, hbit, if_pos (by omega), if_pos hi]

omit hf in
theorem rat_code (s : Bool) (c : Nat) : (FVal.fin s (f.sig c) (f.exp c)).rat = f.point (signedNat s c) := by
  rw [rat_fin, point_signedNat, signedNat_cast, FFmt.mag]
  cases s <;> simp

theorem num_encode {c : Nat} (hc : c ≤ f.maxc) (s : Bool) :
    f.num? ((if s then 2 ^ (f.w - 1) else 0) + c) = some (f.point (signedNat s c)) := by
  rw [FFmt.num?, read_encode hf hc, ← rat_code]

theorem rat_maxc : (f.read f.maxc).rat = f.point f.maxc := by
  have hread := read_encode hf le_rfl false
  rw [if_neg Bool.false_ne_true, Nat.zero_add] at hread
  rw [hread, rat_code]
  rfl

/-- Every encoding is a sign and a code. -/
theorem encode_fld {x : Nat} (hx : x < 2 ^ f.w) : (if bitOf x (f.w - 1) then 2 ^ (f.w - 1) else 0) + fld x 0 (f.w - 1) = x := by
  have hw : 2 ^ f.w = 2 ^ (f.w - 1) * 2 := by rw [← pow_succ, hf.width, Nat.add_sub_cancel]
  have hdiv := Nat.div_add_mod x (2 ^ (f.w - 1))
  have hlt : x / 2 ^ (f.w - 1) < 2 := Nat.div_lt_of_lt_mul (hw ▸ hx)
  rw [bitOf, fld, pow_zero, Nat.div_one, Nat.mod_eq_of_lt hlt]
  interval_cases hq : x / 2 ^ (f.w - 1)
  · simpa using hdiv
  · simpa using hdiv

/-- The encodable numbers are the points up to the largest. -/
theorem encodable_iff (y : ℚ) : (∃ c, c < 2 ^ f.w ∧ f.num? c = some y) ↔ ∃ n : Int, n.natAbs ≤ f.maxc ∧ y = f.point n := by
  constructor
  · rintro ⟨x, -, hx⟩
    rw [FFmt.num?, read_eq hf] at hx
    split at hx
    · rename_i s m e hread
      split at hread
      · split at hread <;> cases hread
      · rename_i hc
        cases hread
        rw [rat_code] at hx
        cases hx
        refine ⟨signedNat (bitOf x (f.w - 1)) (fld x 0 (f.w - 1)), ?_, rfl⟩
        unfold signedNat
        split <;> omega
    · cases hx
  · rintro ⟨n, hn, rfl⟩
    refine ⟨_, encode_lt hf (hn.trans (Nat.le_succ _)) (decide (n < 0)), ?_⟩
    rw [num_encode hf hn, signedNat_natAbs]

end

/-! ## The modes (R37) -/

/-- A mode takes the higher of two neighbours for a number between them that is not negative. -/
def RoundsUp (rm : Rm) (odd : Prop) (lo x hi : ℚ) : Prop :=
  match rm with
  | .rne => lo + hi < 2 * x ∨ (lo + hi = 2 * x ∧ odd)
  | .rtz => False
  | .rup => lo < x
  | .rdn => False

/-- The mode of the magnitude of a negative number. -/
def mirrored : Rm → Rm
  | .rne => .rne
  | .rtz => .rtz
  | .rup => .rdn
  | .rdn => .rup

theorem roundsUp_scale {p : ℚ} (hp : 0 < p) (rm : Rm) (odd : Prop) (lo x hi : ℚ) :
    RoundsUp rm odd (lo * p) (x * p) (hi * p) ↔ RoundsUp rm odd lo x hi := by
  cases rm with
  | rne =>
    simp only [RoundsUp]
    rw [← add_mul, ← mul_assoc, mul_lt_mul_iff_left₀ hp, mul_left_inj' hp.ne']
  | rtz => exact Iff.rfl
  | rup => exact mul_lt_mul_iff_left₀ hp
  | rdn => exact Iff.rfl

theorem roundNat_true (rm : Rm) (m : Nat) (e : Int) : roundNat rm true m e = roundNat (mirrored rm) false m e := by
  cases rm <;> rfl

/-- What the model decides for n + r / p with r below p (R37). -/
def upBit (rm : Rm) (n r p : Nat) : Bool :=
  match rm with
  | .rne => decide (p < 2 * r) || (decide (2 * r = p) && n % 2 == 1)
  | .rtz => false
  | .rup => r != 0
  | .rdn => false

theorem roundNat_upBit (rm : Rm) (m : Nat) {e : Int} (he : e < 0) : roundNat rm false m e =
    if upBit rm (m / 2 ^ (-e).toNat) (m % 2 ^ (-e).toNat) (2 ^ (-e).toNat) then m / 2 ^ (-e).toNat + 1 else m / 2 ^ (-e).toNat := by
  rw [roundNat, if_neg (not_le.mpr he)]
  cases rm <;> rfl

theorem upBit_iff (rm : Rm) (n r : Nat) {p : Nat} (hp : 0 < p) :
    upBit rm n r p = true ↔ RoundsUp rm (n % 2 = 1) n (n + r / p) (n + 1) := by
  have hp' : (0 : ℚ) < p := by exact_mod_cast hp
  cases rm with
  | rne =>
    have hhalf : (n : ℚ) + (n + 1) < 2 * (n + r / p) ↔ p < 2 * r := by
      rw [← Nat.cast_lt (α := ℚ), Nat.cast_mul, Nat.cast_ofNat, ← one_lt_div hp', mul_div_assoc]
      constructor <;> intro h <;> linarith
    have htie : (n : ℚ) + (n + 1) = 2 * (n + r / p) ↔ 2 * r = p := by
      rw [← Nat.cast_inj (R := ℚ), Nat.cast_mul, Nat.cast_ofNat, ← div_eq_one_iff_eq hp'.ne', mul_div_assoc]
      constructor <;> intro h <;> linarith
    simp [upBit, RoundsUp, hhalf, htie]
  | rtz => simp [upBit, RoundsUp]
  | rup =>
    simp only [upBit, RoundsUp, bne_iff_ne, lt_add_iff_pos_right, div_pos_iff_of_pos_right hp', Nat.cast_pos, Nat.pos_iff_ne_zero]
  | rdn => simp [upBit, RoundsUp]

/-- A magnitude rounded to an integer is its floor or the next integer. -/
theorem roundNat_floor (rm : Rm) (m : Nat) (e : Int) : ∃ n : Nat, (n : ℚ) ≤ m * 2 ^ e ∧ (m : ℚ) * 2 ^ e < n + 1 ∧
    (RoundsUp rm (n % 2 = 1) n (m * 2 ^ e) (n + 1) → roundNat rm false m e = n + 1) ∧
    (¬ RoundsUp rm (n % 2 = 1) n (m * 2 ^ e) (n + 1) → roundNat rm false m e = n) := by
  rcases le_or_gt 0 e with he | he
  · have hx : (m : ℚ) * 2 ^ e = (m * 2 ^ e.toNat : Nat) := by
      rw [← Int.toNat_of_nonneg he, zpow_natCast, Int.toNat_natCast]
      push_cast
      rfl
    refine ⟨m * 2 ^ e.toNat, hx.ge, by rw [hx]; linarith, fun hup => ?_, fun _ => if_pos he⟩
    rw [hx] at hup
    cases rm <;> simp only [RoundsUp] at hup
    · rcases hup with hup | ⟨hup, -⟩ <;> linarith
    · exact absurd hup (lt_irrefl _)
  · have hx : (m : ℚ) * 2 ^ e = m / (2 ^ (-e).toNat : Nat) := by
      rw [show e = -((-e).toNat : Int) by omega, zpow_neg, zpow_natCast, div_eq_mul_inv, neg_neg, Int.toNat_natCast]
      push_cast
      rfl
    have hpos : 0 < 2 ^ (-e).toNat := by positivity
    rw [roundNat_upBit rm m he, hx]
    generalize 2 ^ (-e).toNat = p at hpos ⊢
    have hp : (0 : ℚ) < p := by exact_mod_cast hpos
    have hr : ((m % p : Nat) : ℚ) < p := by exact_mod_cast Nat.mod_lt m hpos
    have hfrac : (m : ℚ) / p = (m / p : Nat) + (m % p : Nat) / p := by
      have hm : (m : ℚ) = p * (m / p : Nat) + (m % p : Nat) := by exact_mod_cast (Nat.div_add_mod m p).symm
      field_simp
      linarith
    have hbelow : ((m % p : Nat) : ℚ) / p < 1 := (div_lt_one hp).mpr hr
    have habove : 0 ≤ ((m % p : Nat) : ℚ) / p := by positivity
    rw [hfrac]
    refine ⟨m / p, by linarith, by linarith, ?_⟩
    rw [← upBit_iff rm _ _ hpos]
    exact ⟨fun h => if_pos h, fun h => if_neg h⟩

/-! ## The code that a mode picks (R37, R38) -/

/-- A mode rounds x to the signed code n, among the codes of every size. -/
def FFmt.Rounds (f : FFmt) (rm : Rm) (x : ℚ) (n : Int) : Prop :=
  match rm with
  | .rne => f.point (n - 1) + f.point n ≤ 2 * x ∧ 2 * x ≤ f.point n + f.point (n + 1) ∧
      (f.point (n - 1) + f.point n = 2 * x ∨ 2 * x = f.point n + f.point (n + 1) → n % 2 = 0)
  | .rtz => (0 ≤ n ∧ f.point n ≤ x ∧ x < f.point (n + 1)) ∨ (n ≤ 0 ∧ f.point (n - 1) < x ∧ x ≤ f.point n)
  | .rup => f.point (n - 1) < x ∧ x ≤ f.point n
  | .rdn => f.point n ≤ x ∧ x < f.point (n + 1)

section
variable {f : FFmt} {rm : Rm} {x : ℚ} {n : Int}

theorem point_lt_succ (f : FFmt) (n : Int) : f.point n < f.point (n + 1) := point_strictMono f (Int.lt_succ n)
theorem point_pred_lt (f : FFmt) (n : Int) : f.point (n - 1) < f.point n := point_strictMono f (by omega)

/-- Every mode stays within one code. -/
theorem rounds_bracket (h : f.Rounds rm x n) : f.point (n - 1) < x ∧ x < f.point (n + 1) := by
  have hnext := point_lt_succ f n
  have hprev := point_pred_lt f n
  cases rm with
  | rne =>
    obtain ⟨hlow, hhigh, -⟩ := h
    exact ⟨by linarith, by linarith⟩
  | rtz =>
    rcases h with ⟨-, hlow, hhigh⟩ | ⟨-, hlow, hhigh⟩
    · exact ⟨hprev.trans_le hlow, hhigh⟩
    · exact ⟨hlow, hhigh.trans_lt hnext⟩
  | rup => exact ⟨h.1, h.2.trans_lt hnext⟩
  | rdn => exact ⟨hprev.trans_le h.1, h.2⟩

/-- A number that is a point is rounded to itself. -/
theorem rounds_point {k : Int} (h : f.Rounds rm (f.point k) n) : n = k := by
  obtain ⟨hlow, hhigh⟩ := rounds_bracket h
  rw [(point_strictMono f).lt_iff_lt] at hlow hhigh
  omega

theorem rounds_neg (h : f.Rounds (mirrored rm) x n) : f.Rounds rm (-x) (-n) := by
  have hpred : f.point (-n - 1) = -f.point (n + 1) := by rw [← point_neg]; congr 1; omega
  have hsucc : f.point (-n + 1) = -f.point (n - 1) := by rw [← point_neg]; congr 1; omega
  cases rm with
  | rne =>
    obtain ⟨hlow, hhigh, htie⟩ := h
    rw [FFmt.Rounds, hpred, hsucc, point_neg]
    refine ⟨by linarith, by linarith, fun heq => ?_⟩
    have := htie (heq.symm.imp (fun h => by linarith) fun h => by linarith)
    omega
  | rtz =>
    rw [FFmt.Rounds, hpred, hsucc, point_neg]
    rcases h with ⟨hn, hlow, hhigh⟩ | ⟨hn, hlow, hhigh⟩
    · exact .inr ⟨by omega, by linarith, by linarith⟩
    · exact .inl ⟨by omega, by linarith, by linarith⟩
  | rup =>
    rw [FFmt.Rounds, hpred, point_neg]
    exact ⟨neg_lt_neg h.2, neg_le_neg h.1⟩
  | rdn =>
    rw [FFmt.Rounds, hsucc, point_neg]
    exact ⟨neg_le_neg h.2, neg_lt_neg h.1⟩

/-- A number between two neighbouring codes is rounded to the higher or to the lower. -/
theorem rounds_up_of_cell {c : Nat} (hhigh : x < f.mag (c + 1))
    (hup : RoundsUp rm (c % 2 = 1) (f.mag c) x (f.mag (c + 1))) : f.Rounds rm x (c + 1 : Nat) := by
  have hlast := point_lt_succ f (c + 1 : Nat)
  have hpred : f.point (((c + 1 : Nat) : Int) - 1) = f.mag c := by rw [Nat.cast_succ, add_sub_cancel_right, point_natCast]
  rw [point_natCast] at hlast
  cases rm with
  | rne =>
    rw [FFmt.Rounds, hpred, point_natCast]
    refine ⟨?_, by linarith, fun heq => ?_⟩
    · rcases hup with hup | ⟨hup, -⟩ <;> linarith
    · rcases hup with hup | ⟨-, hodd⟩
      · rcases heq with heq | heq <;> linarith
      · omega
  | rtz => exact hup.elim
  | rup =>
    rw [FFmt.Rounds, hpred, point_natCast]
    exact ⟨hup, hhigh.le⟩
  | rdn => exact hup.elim

theorem rounds_down_of_cell {c : Nat} (hlow : f.mag c ≤ x) (hhigh : x < f.mag (c + 1))
    (hdown : ¬ RoundsUp rm (c % 2 = 1) (f.mag c) x (f.mag (c + 1))) : f.Rounds rm x c := by
  have hfirst := point_pred_lt f c
  have hsucc : f.point ((c : Int) + 1) = f.mag (c + 1) := point_natCast f (c + 1)
  rw [point_natCast] at hfirst
  cases rm with
  | rne =>
    simp only [RoundsUp, not_or, not_lt, not_and] at hdown
    rw [FFmt.Rounds, hsucc, point_natCast]
    refine ⟨by linarith, hdown.1, fun heq => ?_⟩
    rcases heq with heq | heq
    · linarith
    · have := hdown.2 heq.symm
      omega
  | rtz =>
    rw [FFmt.Rounds, hsucc, point_natCast]
    exact .inl ⟨Int.natCast_nonneg c, hlow, hhigh⟩
  | rup =>
    rw [FFmt.Rounds, point_natCast]
    exact ⟨hfirst.trans_le hlow, not_lt.mp hdown⟩
  | rdn =>
    rw [FFmt.Rounds, hsucc, point_natCast]
    exact ⟨hlow, hhigh⟩

end

section
variable (f : FFmt) (rm : Rm) (s : Bool) (m : Nat) (e : Int)

/-- The exponent at which a significand is rounded. -/
def FFmt.quantum : Int := max ((Nat.log2 m : Int) + e - f.fb) f.qmin
/-- The magnitude code that the model forms before it looks for overflow. -/
def FFmt.code : Nat :=
  if m = 0 then 0 else (f.quantum m e - f.qmin).toNat * 2 ^ f.fb + roundNat rm s m (e - f.quantum m e)

theorem round_eq : f.round rm s m e =
    (if s then 2 ^ (f.w - 1) else 0) + if f.maxc < f.code rm s m e then f.over rm s else f.code rm s m e := by
  unfold FFmt.round FFmt.code
  by_cases hm : m = 0
  · simp [hm]
  · simp only [if_neg hm, FFmt.quantum, FFmt.qmin]

theorem code_true : f.code rm true m e = f.code (mirrored rm) false m e := by rw [FFmt.code, FFmt.code, roundNat_true]

/-- The magnitude of a significand at its quantum: below twice the hidden bit, and at least the hidden bit above the least exponent. -/
theorem quantum_bounds {m : Nat} (hm : m ≠ 0) : (m : ℚ) * 2 ^ (e - f.quantum m e) < 2 ^ (f.fb + 1) ∧
    (f.quantum m e = f.qmin ∨ (2 : ℚ) ^ f.fb ≤ m * 2 ^ (e - f.quantum m e)) := by
  have hlow : ((2 : ℚ) ^ Nat.log2 m) ≤ m := by exact_mod_cast (Nat.log2_self_le hm)
  have hhigh : (m : ℚ) < 2 ^ (Nat.log2 m + 1) := by exact_mod_cast Nat.lt_log2_self
  have hpos : (0 : ℚ) < 2 ^ (e - f.quantum m e) := by positivity
  constructor
  · calc (m : ℚ) * 2 ^ (e - f.quantum m e) < 2 ^ (Nat.log2 m + 1) * 2 ^ (e - f.quantum m e) := mul_lt_mul_of_pos_right hhigh hpos
      _ = 2 ^ (((Nat.log2 m + 1 : Nat) : Int) + (e - f.quantum m e)) := by rw [zpow_add₀ (by norm_num), zpow_natCast]
      _ ≤ 2 ^ ((f.fb + 1 : Nat) : Int) := by
        apply zpow_le_zpow_right₀ (by norm_num)
        have := le_max_left ((Nat.log2 m : Int) + e - f.fb) f.qmin
        rw [FFmt.quantum]
        push_cast
        omega
      _ = 2 ^ (f.fb + 1) := zpow_natCast _ _
  · rcases le_total ((Nat.log2 m : Int) + e - f.fb) f.qmin with hq | hq
    · exact .inl (max_eq_right hq)
    · refine .inr ?_
      have hquantum : f.quantum m e = (Nat.log2 m : Int) + e - f.fb := max_eq_left hq
      calc (2 : ℚ) ^ f.fb = 2 ^ Nat.log2 m * 2 ^ (e - f.quantum m e) := by
            rw [← zpow_natCast, ← zpow_natCast, ← zpow_add₀ (by norm_num), hquantum]
            congr 1
            omega
        _ ≤ m * 2 ^ (e - f.quantum m e) := mul_le_mul_of_nonneg_right hlow hpos.le

/-- The code of a magnitude is the one below it or the next, as the mode says. -/
theorem code_cell (hf : 0 < f.fb) {m : Nat} (hm : m ≠ 0) : ∃ c : Nat, f.mag c ≤ m * 2 ^ e ∧ (m : ℚ) * 2 ^ e < f.mag (c + 1) ∧
    (RoundsUp rm (c % 2 = 1) (f.mag c) (m * 2 ^ e) (f.mag (c + 1)) → f.code rm false m e = c + 1) ∧
    (¬ RoundsUp rm (c % 2 = 1) (f.mag c) (m * 2 ^ e) (f.mag (c + 1)) → f.code rm false m e = c) := by
  obtain ⟨hbelow, habove⟩ := quantum_bounds f e hm
  obtain ⟨n, hlow, hhigh, hup, hdown⟩ := roundNat_floor rm m (e - f.quantum m e)
  have hcode : f.code rm false m e =
      (f.quantum m e - f.qmin).toNat * 2 ^ f.fb + roundNat rm false m (e - f.quantum m e) := by rw [FFmt.code, if_neg hm]
  have hquantum : f.quantum m e = f.qmin + (f.quantum m e - f.qmin).toNat := by
    have : f.qmin ≤ f.quantum m e := le_max_right _ _
    omega
  have hx : (m : ℚ) * 2 ^ e = m * 2 ^ (e - f.quantum m e) * 2 ^ f.quantum m e := by
    rw [mul_assoc, ← zpow_add₀ (by norm_num), sub_add_cancel]
  have hpos : (0 : ℚ) < 2 ^ f.quantum m e := by positivity
  generalize hk : (f.quantum m e - f.qmin).toNat = k at hcode hquantum
  generalize (m : ℚ) * 2 ^ (e - f.quantum m e) = y at *
  have hn : n < 2 ^ (f.fb + 1) := by
    rw [← Nat.cast_lt (α := ℚ)]
    push_cast
    linarith
  have hkn : k = 0 ∨ 2 ^ f.fb ≤ n := by
    rcases habove with hq | hy
    · left; omega
    · right
      have : ((2 ^ f.fb : Nat) : ℚ) < (n + 1 : Nat) := by push_cast; linarith
      exact Nat.lt_succ_iff.mp (by exact_mod_cast this)
  have hmag : f.mag (k * 2 ^ f.fb + n) = n * 2 ^ f.quantum m e := by rw [mag_code f hn.le hkn, ← hquantum]
  have hmag1 : f.mag (k * 2 ^ f.fb + n + 1) = (n + 1) * 2 ^ f.quantum m e := by
    rw [add_assoc, mag_code f hn (hkn.imp_right fun h => h.trans (Nat.le_succ _)), ← hquantum]
    push_cast
    rfl
  refine ⟨k * 2 ^ f.fb + n, ?_, ?_, ?_⟩
  · rw [hmag, hx]
    exact mul_le_mul_of_nonneg_right hlow hpos.le
  · rw [hmag1, hx]
    exact mul_lt_mul_of_pos_right hhigh hpos
  · have hodd : (k * 2 ^ f.fb + n) % 2 = n % 2 := by
      obtain ⟨j, hj⟩ := Nat.exists_eq_succ_of_ne_zero hf.ne'
      rw [hj, pow_succ, ← mul_assoc, Nat.mul_add_mod_self_right]
    rw [hmag, hmag1, hx, roundsUp_scale hpos, hcode, hodd]
    exact ⟨fun hr => by rw [hup hr, add_assoc], fun hr => by rw [hdown hr]⟩

theorem rounds_code_pos (hf : 0 < f.fb) {m : Nat} (hm : m ≠ 0) : f.Rounds rm (m * 2 ^ e) (f.code rm false m e) := by
  obtain ⟨c, hlow, hhigh, hup, hdown⟩ := code_cell f rm e hf hm
  by_cases hr : RoundsUp rm (c % 2 = 1) (f.mag c) (m * 2 ^ e) (f.mag (c + 1))
  · rw [hup hr]
    exact rounds_up_of_cell hhigh hr
  · rw [hdown hr]
    exact rounds_down_of_cell hlow hhigh hr

theorem rounds_zero : f.Rounds rm 0 0 := by
  have hzero : f.point 0 = 0 := (point_natCast f 0).trans (mag_zero f)
  have hnext := point_lt_succ f 0
  have hprev := point_pred_lt f 0
  rw [hzero] at hnext hprev
  cases rm <;> rw [FFmt.Rounds, hzero]
  · exact ⟨by linarith, by linarith, fun _ => rfl⟩
  · exact .inl ⟨le_rfl, le_rfl, hnext⟩
  · exact ⟨hprev, le_rfl⟩
  · exact ⟨le_rfl, hnext⟩

/-- The model's code, with its sign, is the one that the mode picks. -/
theorem rounds_code (hf : 0 < f.fb) : f.Rounds rm (FVal.fin s m e).rat (signedNat s (f.code rm s m e)) := by
  rcases Nat.eq_zero_or_pos m with rfl | hm
  · have hz : (FVal.fin s 0 e).rat = 0 := by simp [FVal.rat]
    rw [hz, FFmt.code, if_pos rfl]
    cases s <;> exact rounds_zero f rm
  · rw [rat_fin]
    cases s
    · exact rounds_code_pos f rm e hf hm.ne'
    · rw [code_true]
      have hneg := rounds_neg (rm := rm) (rounds_code_pos f (mirrored rm) e hf hm.ne')
      rw [← neg_mul] at hneg
      simpa [signedNat] using hneg

end

/-! ## Rounding among the encodable numbers (R37) -/

section
variable {f : FFmt} {rm : Rm} {x : ℚ} {n : Int}

/-- To nearest, no point is nearer than the one picked, and one as near leaves it even. -/
theorem rounds_nearest (h : f.Rounds .rne x n) (k : Int) :
    |x - f.point n| ≤ |x - f.point k| ∧ (f.point k ≠ f.point n → |x - f.point k| = |x - f.point n| → n % 2 = 0) := by
  obtain ⟨hlow, hhigh, htie⟩ := h
  have hprev := point_pred_lt f n
  have hnext := point_lt_succ f n
  rcases lt_trichotomy k n with hk | rfl | hk
  · have hkle : f.point k ≤ f.point (n - 1) := (point_strictMono f).monotone (by omega)
    have hnear : |x - f.point n| ≤ x - f.point (n - 1) := abs_le.mpr ⟨by linarith, by linarith⟩
    have hfar : x - f.point (n - 1) ≤ |x - f.point k| := le_trans (by linarith) (le_abs_self _)
    refine ⟨hnear.trans hfar, fun _ heq => htie (.inl ?_)⟩
    rcases abs_cases (x - f.point n) with ⟨habs, -⟩ | ⟨habs, -⟩ <;> linarith
  · exact ⟨le_rfl, fun hne => absurd rfl hne⟩
  · have hkge : f.point (n + 1) ≤ f.point k := (point_strictMono f).monotone (by omega)
    have hnear : |x - f.point n| ≤ f.point (n + 1) - x := abs_le.mpr ⟨by linarith, by linarith⟩
    have hfar : f.point (n + 1) - x ≤ |x - f.point k| := by
      rw [abs_sub_comm]
      exact le_trans (by linarith) (le_abs_self _)
    refine ⟨hnear.trans hfar, fun _ heq => htie (.inr ?_)⟩
    rcases abs_cases (x - f.point n) with ⟨habs, -⟩ | ⟨habs, -⟩ <;> linarith

/-- The code that a mode picks among all codes is the mode's rounding among any of them. -/
theorem isRounding_of_rounds (h : f.Rounds rm x n) {p : ℚ → Prop} (hp : ∀ y, p y → ∃ k, y = f.point k) :
    IsRounding p rm x (f.point n) := by
  have hmono := point_strictMono f
  have hzero : f.point 0 = 0 := (point_natCast f 0).trans (mag_zero f)
  cases rm with
  | rne =>
    intro y hy
    obtain ⟨k, rfl⟩ := hp y hy
    exact (rounds_nearest h k).1
  | rtz =>
    have habs {k : Int} : |f.point k| = f.point |k| := by rw [abs_point, Int.abs_eq_natAbs, point_natCast]
    rcases h with ⟨hn, hlow, hhigh⟩ | ⟨hn, hlow, hhigh⟩
    · have hn0 : 0 ≤ f.point n := hzero ▸ hmono.monotone hn
      rw [IsRounding, abs_of_nonneg hn0, abs_of_nonneg (hn0.trans hlow)]
      refine ⟨hlow, fun y hy hyx => ?_⟩
      obtain ⟨k, rfl⟩ := hp y hy
      rw [habs] at hyx ⊢
      exact hmono.monotone (Int.lt_add_one_iff.mp (hmono.lt_iff_lt.mp (hyx.trans_lt hhigh)))
    · have hn0 : f.point n ≤ 0 := hzero ▸ hmono.monotone hn
      rw [IsRounding, abs_of_nonpos hn0, abs_of_nonpos (hhigh.trans hn0)]
      refine ⟨neg_le_neg hhigh, fun y hy hyx => ?_⟩
      obtain ⟨k, rfl⟩ := hp y hy
      rw [habs] at hyx ⊢
      have hk : f.point (n - 1) < f.point (-|k|) := by
        rw [point_neg]
        linarith
      rw [hmono.lt_iff_lt] at hk
      rw [← point_neg]
      exact hmono.monotone (by omega)
  | rup =>
    refine ⟨h.2, fun y hy hxy => ?_⟩
    obtain ⟨k, rfl⟩ := hp y hy
    exact hmono.monotone (Int.sub_one_lt_iff.mp (hmono.lt_iff_lt.mp (h.1.trans_le hxy)))
  | rdn =>
    refine ⟨h.1, fun y hy hxy => ?_⟩
    obtain ⟨k, rfl⟩ := hp y hy
    exact hmono.monotone (Int.lt_add_one_iff.mp (hmono.lt_iff_lt.mp (hxy.trans_lt h.2)))

/-- A number up to a point is rounded to a code up to that point's. -/
theorem natAbs_le_of_rounds (h : f.Rounds rm x n) {c : Nat} (hx : |x| ≤ f.point c) : n.natAbs ≤ c := by
  obtain ⟨hlow, hhigh⟩ := rounds_bracket h
  obtain ⟨hneg, hpos⟩ := abs_le.mp hx
  rw [← point_neg] at hneg
  have hupper := (point_strictMono f).lt_iff_lt.mp (hlow.trans_le hpos)
  have hlower := (point_strictMono f).lt_iff_lt.mp (hneg.trans_lt hhigh)
  omega

end

section
variable {f : FFmt} (hf : f.Sound) (rm : Rm) (s : Bool) (m : Nat) (e : Int)
include hf

omit hf in
theorem round_of_code_le (hc : f.code rm s m e ≤ f.maxc) :
    f.round rm s m e = (if s then 2 ^ (f.w - 1) else 0) + f.code rm s m e := by
  rw [round_eq, if_neg (not_lt.mpr hc)]

theorem encode_even (s : Bool) (c : Nat) : ((if s then 2 ^ (f.w - 1) else 0) + c) % 2 = c % 2 := by
  obtain ⟨j, hj⟩ := Nat.exists_eq_succ_of_ne_zero hf.fraction.ne'
  have hw : f.w - 1 = j + f.eb + 1 := by rw [hf.width, hj]; omega
  rw [hw, pow_succ]
  split <;> omega

omit hf in
theorem signedNat_even (s : Bool) (c : Nat) : signedNat s c % 2 = 0 ↔ c % 2 = 0 := by
  cases s <;> simp only [signedNat, Bool.false_eq_true, if_false, if_true] <;> omega

omit hf in
theorem natAbs_signedNat (s : Bool) (c : Nat) : (signedNat s c).natAbs = c := by
  cases s <;> simp [signedNat]

/-- A value that is not beyond the largest number has a code. -/
theorem code_le_of_abs_le (hx : |(FVal.fin s m e).rat| ≤ f.point f.maxc) : f.code rm s m e ≤ f.maxc := by
  have hle := natAbs_le_of_rounds (rounds_code f rm s m e hf.fraction) hx
  rwa [natAbs_signedNat] at hle

/-- Writing a value that is not beyond the largest number rounds it (R37). -/
theorem write_rounds (hx : |(FVal.fin s m e).rat| ≤ f.point f.maxc) :
    ∃ n : Int, f.num? (f.write rm (.fin s m e)) = some (f.point n) ∧ f.Rounds rm (FVal.fin s m e).rat n ∧
      (n % 2 = 0 → f.write rm (.fin s m e) % 2 = 0) := by
  have hc := code_le_of_abs_le hf rm s m e hx
  refine ⟨signedNat s (f.code rm s m e), ?_, rounds_code f rm s m e hf.fraction, fun heven => ?_⟩
  · rw [FFmt.write, round_of_code_le rm s m e hc, num_encode hf hc]
  · rw [FFmt.write, round_of_code_le rm s m e hc, encode_even hf]
    exact (signedNat_even _ _).mp heven

/-- Reading an encoding and writing its value gives the encoding (R35, R36). -/
theorem write_read {x : Nat} (hx : x < 2 ^ f.w) (hnan : (f.read x).isNan = false) : f.write rm (f.read x) = x := by
  have hdec := encode_fld hf hx
  have hread := read_eq hf x
  split at hread
  · split at hread
    · rename_i hinf
      rw [hread, FFmt.write, hinf, Option.getD_some, hdec]
    · rw [hread] at hnan
      cases hnan
  · rename_i hc
    have hrounds := rounds_code f rm (bitOf x (f.w - 1)) (f.sig (fld x 0 (f.w - 1))) (f.exp (fld x 0 (f.w - 1))) hf.fraction
    rw [rat_code] at hrounds
    have hcode := congrArg Int.natAbs (rounds_point hrounds)
    rw [natAbs_signedNat, natAbs_signedNat] at hcode
    rw [hread, FFmt.write, round_of_code_le _ _ _ _ (hcode.le.trans (not_lt.mp hc)), hcode, hdec]

/-! ## Overflow (R38) -/

/-- R38's table: where a mode gives the infinity for a magnitude beyond the largest number. -/
def Overflows (most next : ℚ) (rm : Rm) (s : Bool) (x : ℚ) : Prop :=
  match rm with
  | .rne => most + next ≤ 2 * x
  | .rtz => False
  | .rup => s = false
  | .rdn => s = true

omit hf in
theorem rounds_magnitude (hfb : 0 < f.fb) (hm : m ≠ 0) :
    f.Rounds (if s then mirrored rm else rm) (m * 2 ^ e) (f.code rm s m e) := by
  cases s
  · exact rounds_code_pos f rm e hfb hm
  · rw [code_true]
    exact rounds_code_pos f (mirrored rm) e hfb hm

/-- Beyond the largest number the code is at least that number's. -/
theorem code_beyond (hx : f.mag f.maxc < m * 2 ^ e) :
    f.Rounds (if s then mirrored rm else rm) (m * 2 ^ e) (f.code rm s m e) ∧ f.maxc ≤ f.code rm s m e := by
  have hm : m ≠ 0 := by
    rintro rfl
    have := mag_nonneg f f.maxc
    rw [Nat.cast_zero, zero_mul] at hx
    linarith
  have hrounds := rounds_magnitude rm s m e hf.fraction hm
  have hlt := hx.trans (rounds_bracket hrounds).2
  rw [← point_natCast, (point_strictMono f).lt_iff_lt] at hlt
  exact ⟨hrounds, by omega⟩

omit hf in
/-- To nearest, the code passes the largest number's, which is odd, from half-way to the next on. -/
theorem nearest_beyond {x : ℚ} {c : Nat} (hodd : f.maxc % 2 = 1) (h : f.Rounds .rne x c) (hge : f.maxc ≤ c) :
    f.maxc < c ↔ f.mag f.maxc + f.mag (f.maxc + 1) ≤ 2 * x := by
  obtain ⟨hlow, hhigh, htie⟩ := h
  rcases hge.eq_or_lt with rfl | hlt
  · rw [show ((f.maxc : Int) + 1) = (f.maxc + 1 : Nat) from rfl, point_natCast, point_natCast] at hhigh
    refine ⟨fun h => absurd h (lt_irrefl _), fun h => ?_⟩
    have := htie (.inr (by rw [show ((f.maxc : Int) + 1) = (f.maxc + 1 : Nat) from rfl, point_natCast, point_natCast]; linarith))
    omega
  · refine ⟨fun _ => ?_, fun _ => hlt⟩
    have hprev : f.point f.maxc ≤ f.point (c - 1) := (point_strictMono f).monotone (by omega)
    have hcode : f.point (f.maxc + 1 : Nat) ≤ f.point c := (point_strictMono f).monotone (by omega)
    rw [point_natCast] at hprev hcode
    linarith

/-- Beyond the largest number the code is the infinity's or the largest number's, by the table. -/
theorem round_beyond {i : Nat} (hi : f.inf = some i) (hx : f.mag f.maxc < m * 2 ^ e) :
    (Overflows (f.mag f.maxc) (f.mag (f.maxc + 1)) rm s (m * 2 ^ e) ∧
      f.round rm s m e = (if s then 2 ^ (f.w - 1) else 0) + i) ∨
    (¬ Overflows (f.mag f.maxc) (f.mag (f.maxc + 1)) rm s (m * 2 ^ e) ∧
      f.round rm s m e = (if s then 2 ^ (f.w - 1) else 0) + f.maxc) := by
  obtain ⟨hrounds, hge⟩ := code_beyond hf rm s m e hx
  rw [round_eq]
  generalize f.code rm s m e = c at hrounds hge ⊢
  have hmax : (if f.maxc < c then f.maxc else c) = f.maxc := by split <;> omega
  have hup (h : f.Rounds .rup (m * 2 ^ e) c) : f.maxc < c := by
    have hlt := hx.trans_le h.2
    rwa [point_natCast, (mag_strictMono f).lt_iff_lt] at hlt
  cases rm with
  | rne =>
    have hover : f.over .rne s = i := by rw [FFmt.over, hi]
    have hrne : f.Rounds .rne (m * 2 ^ e) c := by cases s <;> exact hrounds
    have hiff := nearest_beyond (hf.inf i hi).2 hrne hge
    by_cases hlt : f.maxc < c
    · exact .inl ⟨hiff.mp hlt, by rw [if_pos hlt, hover]⟩
    · exact .inr ⟨fun h => hlt (hiff.mpr h), by rw [if_neg hlt, show c = f.maxc by omega]⟩
  | rtz =>
    have hover : f.over .rtz s = f.maxc := by rw [FFmt.over, hi]
    exact .inr ⟨id, by rw [hover, hmax]⟩
  | rup =>
    cases s
    · have hover : f.over .rup false = i := by rw [FFmt.over, hi]; rfl
      exact .inl ⟨rfl, by rw [if_pos (hup hrounds), hover]⟩
    · have hover : f.over .rup true = f.maxc := by rw [FFmt.over, hi]; rfl
      exact .inr ⟨Bool.noConfusion, by rw [hover, hmax]⟩
  | rdn =>
    cases s
    · have hover : f.over .rdn false = f.maxc := by rw [FFmt.over, hi]; rfl
      exact .inr ⟨Bool.noConfusion, by rw [hover, hmax]⟩
    · have hover : f.over .rdn true = i := by rw [FFmt.over, hi]; rfl
      exact .inl ⟨rfl, by rw [if_pos (hup hrounds), hover]⟩

/-- A format without an infinity takes its largest number (R38). -/
theorem round_beyond_noInf (hi : f.inf = none) (hx : f.mag f.maxc < m * 2 ^ e) :
    f.round rm s m e = (if s then 2 ^ (f.w - 1) else 0) + f.maxc := by
  obtain ⟨-, hge⟩ := code_beyond hf rm s m e hx
  have hover : f.over rm s = f.maxc := by rw [FFmt.over, hi]
  rw [round_eq, hover]
  congr 1
  split <;> omega

end

/-- The first code of an exponent is a power of two. -/
theorem mag_power (f : FFmt) (k : Nat) : f.mag ((k + 1) * 2 ^ f.fb) = 2 ^ (f.qmin + k + f.fb) := by
  have hcode := mag_code f (k := k) (n := 2 ^ f.fb) (Nat.pow_le_pow_right (by decide) (Nat.le_succ _)) (.inr le_rfl)
  rw [Nat.add_one_mul, hcode, zpow_add₀ (by norm_num) (f.qmin + k) f.fb, zpow_natCast, mul_comm]
  push_cast
  rfl

/-- The number after the largest, which the format cannot encode. -/
theorem mag_after_maxc {f : FFmt} (hf : f ∈ floatFormats) (hne : f ≠ e4m3) :
    f.mag (f.maxc + 1) = if f = f16 ∨ f = e5m2 then 2 ^ 16 else 2 ^ 128 := by
  simp only [floatFormats, List.mem_cons, List.not_mem_nil, or_false] at hf
  rcases hf with rfl | rfl | rfl | rfl | rfl
  · rw [if_neg (by decide), show f32.maxc + 1 = (254 + 1) * 2 ^ f32.fb by norm_num [f32], mag_power]
    norm_num [f32, FFmt.qmin]
  · rw [if_pos (by decide), show f16.maxc + 1 = (30 + 1) * 2 ^ f16.fb by norm_num [f16], mag_power]
    norm_num [f16, FFmt.qmin]
  · rw [if_neg (by decide), show bf16.maxc + 1 = (254 + 1) * 2 ^ bf16.fb by norm_num [bf16], mag_power]
    norm_num [bf16, FFmt.qmin]
  · rw [if_pos (by decide), show e5m2.maxc + 1 = (30 + 1) * 2 ^ e5m2.fb by norm_num [e5m2], mag_power]
    norm_num [e5m2, FFmt.qmin]
  · exact absurd rfl hne

theorem inf_none_iff {f : FFmt} (hf : f ∈ floatFormats) : f.inf = none ↔ f = e4m3 := by
  simp only [floatFormats, List.mem_cons, List.not_mem_nil, or_false] at hf
  rcases hf with rfl | rfl | rfl | rfl | rfl <;> decide

theorem abs_rat (s : Bool) (m : Nat) (e : Int) : |(FVal.fin s m e).rat| = m * 2 ^ e := by
  have hpos : (0 : ℚ) ≤ m * 2 ^ e := by positivity
  rw [rat_fin, signedNat_cast]
  cases s
  · simp [abs_of_nonneg hpos]
  · simp [abs_of_nonneg hpos]

/-- Settles O9: exact arithmetic, then the code that a mode picks (`rounds_code`) among the encodable numbers in their order. -/
theorem numbersAndRounding : Obligations.NumbersAndRounding := by
  unfold Obligations.NumbersAndRounding
  refine ⟨fun rm s t m n e f => ⟨rat_add rm s t m n e f, rat_mul s t m n e f, lt_fin s t m n e f, eq_fin s t m n e f, rfl,
      sign_add rm s t m n e f, rat_sub rm s t m n e f, sign_sub rm s t m n e f, rfl, rfl, rfl, rfl, rfl, rfl, rfl, rfl, rfl⟩,
    fun f hf rm c hc hnan => write_read (sound_of_mem hf) rm hc hnan, fun f hf rm s m e hx => ?_, fun f hf rm s m e => ?_⟩
  · have hsound := sound_of_mem hf
    rw [rat_maxc hsound] at hx
    obtain ⟨n, hnum, hrounds, heven⟩ := write_rounds hsound rm s m e hx
    have hpoints (y : ℚ) (hy : ∃ c, c < 2 ^ f.w ∧ f.num? c = some y) : ∃ k, y = f.point k := by
      obtain ⟨k, -, hk⟩ := (encodable_iff hsound y).mp hy
      exact ⟨k, hk⟩
    refine ⟨f.point n, hnum, isRounding_of_rounds hrounds hpoints, ?_⟩
    rintro rfl y hy hne heq
    obtain ⟨k, rfl⟩ := hpoints y hy
    exact heven ((rounds_nearest hrounds k).2 hne heq)
  · intro x most next infinite hx
    have hsound := sound_of_mem hf
    have hmost : most = f.mag f.maxc := (rat_maxc hsound).trans (point_natCast f f.maxc)
    have habs : x = m * 2 ^ e := abs_rat s m e
    have hlargest : f.num? ((if s then 2 ^ (f.w - 1) else 0) + f.maxc) = some (if s then -most else most) := by
      rw [num_encode hsound le_rfl, point_signedNat, hmost]
    rw [hmost, habs] at hx
    cases hinf : f.inf with
    | none =>
      refine .inr ⟨?_, fun h => h.1 ((inf_none_iff hf).mp hinf)⟩
      rw [FFmt.write, round_beyond_noInf hsound rm s m e hinf hx, hlargest]
    | some i =>
      have hne : f ≠ e4m3 := fun h => by simp [(inf_none_iff hf).mpr h] at hinf
      have hnext : next = f.mag (f.maxc + 1) := (mag_after_maxc hf hne).symm
      have hiff : infinite ↔ Overflows (f.mag f.maxc) (f.mag (f.maxc + 1)) rm s (m * 2 ^ e) := by
        rw [← hmost, ← hnext, ← habs]
        cases rm <;> exact and_iff_right hne
      rw [hiff, FFmt.write]
      rcases round_beyond hsound rm s m e hinf hx with ⟨hover, hcode⟩ | ⟨hover, hcode⟩
      · exact .inl ⟨by rw [hcode, read_encode_inf hsound hinf], hover⟩
      · exact .inr ⟨by rw [hcode, hlargest], hover⟩

end Sys2Proof.Machine

/-! PROOF. Quantisation and terms (O13): the nearest code of a .b4 type, its least scale, and the non-adjacent form. -/

namespace Sys2Proof.Machine

/-! ## The nearest code (R48) -/

section
variable (dist : Nat → Nat)

/-- One step of the search for the nearest code. -/
def nearerCode (best c : Nat) : Nat := if dist c < dist best ∨ (dist c = dist best ∧ best % 2 = 1) then c else best

/-- A code is the nearest of a list, and odd only if every other one as near is odd too. -/
def Nearest (l : List Nat) (best : Nat) : Prop :=
  best ∈ l ∧ (∀ k ∈ l, dist best ≤ dist k) ∧ (best % 2 = 1 → ∀ k ∈ l, dist k = dist best → k % 2 = 1)

theorem nearest_step {l : List Nat} {best : Nat} (h : Nearest dist l best) (c : Nat) : Nearest dist (l ++ [c]) (nearerCode dist best c) := by
  obtain ⟨hmem, hle, hodd⟩ := h
  unfold nearerCode Nearest
  simp only [List.mem_append, List.mem_singleton]
  rcases lt_trichotomy (dist c) (dist best) with hlt | heq | hgt
  · rw [if_pos (.inl hlt)]
    refine ⟨.inr rfl, ?_, fun hc k hk hkc => ?_⟩
    · rintro k (hk | rfl)
      · exact hlt.le.trans (hle k hk)
      · exact le_rfl
    · rcases hk with hk | rfl
      · have := hle k hk
        omega
      · exact hc
  · by_cases hb : best % 2 = 1
    · rw [if_pos (.inr ⟨heq, hb⟩)]
      refine ⟨.inr rfl, ?_, fun hc k hk hkc => ?_⟩
      · rintro k (hk | rfl)
        · exact heq.le.trans (hle k hk)
        · exact le_rfl
      · rcases hk with hk | rfl
        · exact hodd hb k hk (hkc.trans heq)
        · exact hc
    · rw [if_neg (by omega)]
      refine ⟨.inl hmem, ?_, fun hc => absurd hc hb⟩
      rintro k (hk | rfl)
      · exact hle k hk
      · exact heq.ge
  · rw [if_neg (by omega)]
    refine ⟨.inl hmem, ?_, fun hb k hk hkb => ?_⟩
    · rintro k (hk | rfl)
      · exact hle k hk
      · exact hgt.le
    · rcases hk with hk | rfl
      · exact hodd hb k hk hkb
      · omega

theorem nearest_foldl (rest : List Nat) : ∀ {l : List Nat} {best : Nat}, Nearest dist l best →
    Nearest dist (l ++ rest) (rest.foldl (nearerCode dist) best) := by
  induction rest with
  | nil => intro l best h; simpa using h
  | cons c rest ih =>
    intro l best h
    have hnext := ih (nearest_step dist h c)
    rwa [List.append_assoc] at hnext

/-- The search over a list that starts with its first code. -/
theorem nearest_search {c : Nat} {l : List Nat} : Nearest dist (c :: l) ((c :: l).foldl (nearerCode dist) c) := by
  have hfirst : nearerCode dist c c = c := ite_self c
  rw [List.foldl_cons, hfirst]
  exact nearest_foldl dist l ⟨List.mem_singleton_self c, fun k hk => by rw [List.mem_singleton.mp hk],
    fun hc k hk _ => by rwa [List.mem_singleton.mp hk]⟩

end

/-! ### The codes of a type (R46) -/

theorem b4Codes_cons (ty : Nat) : ∃ c l, b4Codes ty = c :: l := by
  unfold b4Codes
  split <;> exact ⟨_, _, rfl⟩

/-- Every code of a type has the value of a searched one, of the same parity. -/
theorem b4Codes_cover : ∀ ty < 4, ∀ k < 16, ∃ j ∈ b4Codes ty, b4Code ty j = b4Code ty k ∧ j % 2 = k % 2 := by decide

theorem b4Codes_range : ∀ ty < 4, ∀ c ∈ b4Codes ty, c < 16 ∧ (b4Code ty c = 0 → c = 0) := by decide

/-- Between two odd codes of different values lies another. -/
theorem b4Codes_between : ∀ ty < 4, ∀ k ∈ b4Codes ty, ∀ c ∈ b4Codes ty, k % 2 = 1 → c % 2 = 1 → b4Code ty k < b4Code ty c →
    ∃ j ∈ b4Codes ty, b4Code ty k < b4Code ty j ∧ b4Code ty j < b4Code ty c := by decide

/-- The search's distance of a code to num / den. -/
def b4Dist (ty : Nat) (num den : Int) (c : Nat) : Nat := (num - b4Code ty c * den).natAbs

theorem b4Dist_cast {ty : Nat} {num den : Int} {y : ℚ} (hden : 0 < den) (hy : (num : ℚ) = y * den) (c : Nat) :
    (b4Dist ty num den c : ℚ) = |y - b4Code ty c| * den := by
  have hpos : (0 : ℚ) < den := by exact_mod_cast hden
  rw [b4Dist, Nat.cast_natAbs, Int.cast_abs]
  push_cast
  rw [hy, ← sub_mul, abs_mul, abs_of_pos hpos]

theorem b4Nearest_eq (ty : Nat) (y e : Int) : ∃ num den : Int, 0 < den ∧ (num : ℚ) = y * 2 ^ e * den ∧
    Nearest (b4Dist ty num den) (b4Codes ty) (b4Nearest ty y e) := by
  obtain ⟨c, l, hcodes⟩ := b4Codes_cons ty
  have hsearch (num den : Int) : Nearest (b4Dist ty num den) (b4Codes ty)
      ((b4Codes ty).foldl (nearerCode (b4Dist ty num den)) ((b4Codes ty).headD 0)) := by
    rw [hcodes]
    exact nearest_search _
  rcases le_or_gt 0 e with he | he
  · refine ⟨y * 2 ^ e.toNat, 1, one_pos, ?_, ?_⟩
    · rw [← Int.toNat_of_nonneg he, zpow_natCast, Int.toNat_natCast]
      push_cast
      ring
    · have h := hsearch (y * 2 ^ e.toNat) 1
      unfold b4Nearest
      simp only [if_pos he]
      exact h
  · refine ⟨y, 2 ^ (-e).toNat, by positivity, ?_, ?_⟩
    · have hpow : (2 : ℚ) ^ e * 2 ^ (-e).toNat = 1 := by
        rw [← zpow_natCast, Int.toNat_of_nonneg (by omega), ← zpow_add₀ (by norm_num), add_neg_cancel, zpow_zero]
      push_cast
      rw [mul_assoc, hpow, mul_one]
    · have h := hsearch y (2 ^ (-e).toNat)
      unfold b4Nearest
      simp only [if_neg (not_le.mpr he)]
      exact h

/-- The nearest code of a type to a number, by R48's rules. -/
theorem nearest_code {ty c : Nat} {num den : Int} {y : ℚ} (hty : ty < 4) (hden : 0 < den) (hy : (num : ℚ) = y * den)
    (h : Nearest (b4Dist ty num den) (b4Codes ty) c) :
    c < 16 ∧ (∀ k < 16, |y - b4Code ty c| ≤ |y - b4Code ty k|) ∧
      (∀ k < 16, |y - b4Code ty k| = |y - b4Code ty c| → (b4Code ty k : ℚ) ≠ b4Code ty c → c % 2 = 0) ∧
      ((b4Code ty c : ℚ) = 0 → c = 0) := by
  obtain ⟨hmem, hle, hodd⟩ := h
  obtain ⟨hrange, hzero⟩ := b4Codes_range ty hty c hmem
  have hpos : (0 : ℚ) < den := by exact_mod_cast hden
  have hdist (j k : Nat) : b4Dist ty num den j ≤ b4Dist ty num den k ↔ |y - b4Code ty j| ≤ |y - b4Code ty k| := by
    rw [← Nat.cast_le (α := ℚ), b4Dist_cast hden hy, b4Dist_cast hden hy, mul_le_mul_iff_left₀ hpos]
  have hnear (k : Nat) (hk : k ∈ b4Codes ty) := (hdist c k).mp (hle k hk)
  refine ⟨hrange, fun k hk => ?_, fun k hk heq hne => ?_, fun hc => hzero (by exact_mod_cast hc)⟩
  · obtain ⟨j, hj, hval, -⟩ := b4Codes_cover ty hty k hk
    rw [← hval]
    exact hnear j hj
  · obtain ⟨j, hj, hval, hpar⟩ := b4Codes_cover ty hty k hk
    rw [← hval] at heq hne
    by_contra hc
    have hjodd : j % 2 = 1 := hodd (by omega) j hj (le_antisymm ((hdist j c).mpr heq.le) ((hdist c j).mpr heq.ge))
    -- the two are as far from y on either side, so that what lies between them is nearer
    have hbetween {a b : Nat} (ha : |y - b4Code ty a| = |y - b4Code ty c|) (hb : |y - b4Code ty b| = |y - b4Code ty c|)
        (hab : b4Code ty a < b4Code ty b) (hex : ∃ i ∈ b4Codes ty, b4Code ty a < b4Code ty i ∧ b4Code ty i < b4Code ty b) : False := by
      obtain ⟨i, hi, hai, hib⟩ := hex
      have hai' : (b4Code ty a : ℚ) < b4Code ty i := by exact_mod_cast hai
      have hib' : (b4Code ty i : ℚ) < b4Code ty b := by exact_mod_cast hib
      have hi' := hnear i hi
      rcases abs_cases (y - b4Code ty i) with ⟨h1, -⟩ | ⟨h1, -⟩
      · have := le_abs_self (y - b4Code ty a)
        linarith
      · have := neg_abs_le (y - b4Code ty b)
        linarith
    have hne' : b4Code ty j ≠ b4Code ty c := fun h => hne (by rw [h])
    rcases lt_or_gt_of_ne hne' with hlt | hlt
    · exact hbetween heq rfl hlt (b4Codes_between ty hty j hj c hmem hjodd (by omega) hlt)
    · exact hbetween rfl heq hlt (b4Codes_between ty hty c hmem j hj (by omega) hjodd hlt)

/-! ## The least scale (R117) -/

/-- The scale field that the search gives. -/
theorem find_range_least (ok : Nat → Bool) :
    ∃ k ≤ 62, ((List.range 63).find? ok).getD 62 = k ∧ (ok k = true ∨ k = 62) ∧ ∀ j < k, ok j = false := by
  cases hfind : (List.range 63).find? ok with
  | none =>
    rw [List.find?_eq_none] at hfind
    refine ⟨62, le_rfl, rfl, .inr rfl, fun j hj => ?_⟩
    simpa using hfind j (List.mem_range.mpr (by omega))
  | some k =>
    rw [List.find?_range_eq_some] at hfind
    obtain ⟨hok, hk, hlow⟩ := hfind
    have := List.mem_range.mp hk
    refine ⟨k, by omega, rfl, .inl hok, fun j hj => ?_⟩
    simpa using hlow j hj

theorem scale_covers (ty m k : Nat) (s : Bool) (e : Int) :
    (!(FVal.fin false (b4Largest ty) ((k : Int) - 32)).lt (.fin false m e)) = true ↔
      |(FVal.fin s m e).rat| ≤ b4Largest ty * 2 ^ ((k : Int) - 32) := by
  rw [Bool.not_eq_true', ← Bool.not_eq_true, lt_fin, not_lt, abs_rat]
  simp [FVal.rat]

/-! ## The non-adjacent form (R49) -/

/-- The nonzero digits that a run of the recoding from position i gives, lowest first. -/
def nafFrom (fuel i : Nat) (n : Int) : List (Nat × Bool) :=
  (mapIdxFrom (fun i d => (i, d)) i (nafDigits fuel n)).filterMap fun x => if x.2 = 0 then none else some (x.1, decide (x.2 < 0))
/-- The number of a nonzero digit. -/
def nafValue (x : Nat × Bool) : Int := (if x.2 then -1 else 1) * 2 ^ x.1

theorem naf_eq (n : Int) : naf n = (nafFrom 40 0 n).reverse := rfl

theorem nafFrom_zero (fuel i : Nat) : nafFrom fuel i 0 = [] := by cases fuel <;> rfl

theorem nafFrom_even {n : Int} (hn : n % 2 = 0) (fuel i : Nat) : nafFrom (fuel + 1) i n = nafFrom fuel (i + 1) (n / 2) := by
  by_cases hz : n = 0
  · rw [hz, nafFrom_zero, Int.zero_ediv, nafFrom_zero]
  · simp [nafFrom, nafDigits, mapIdxFrom, hz, show n % 2 ≠ 1 by omega]

theorem nafFrom_odd {n : Int} (hn : n % 2 = 1) (fuel i : Nat) :
    nafFrom (fuel + 1) i n = (i, decide (n % 4 = 3)) :: nafFrom fuel (i + 1) ((n - (2 - n % 4)) / 2) := by
  have hdigit : (2 - n % 4 : Int) ≠ 0 := by omega
  simp [nafFrom, nafDigits, mapIdxFrom, show n ≠ 0 by omega, hn, hdigit]
  omega

/-- What an odd integer leaves is even, and at most half as far from 0. -/
theorem nafRest {n : Int} (hn : n % 2 = 1) {k : Nat} (hk : n.natAbs ≤ 2 ^ (k + 1)) :
    ((n - (2 - n % 4)) / 2) % 2 = 0 ∧ ((n - (2 - n % 4)) / 2).natAbs ≤ 2 ^ k := by
  rw [pow_succ] at hk
  omega

theorem nafRest_one {n : Int} (hn : n % 2 = 1) (hk : n.natAbs ≤ 2 ^ 0) : (n - (2 - n % 4)) / 2 = 0 := by
  rw [pow_zero] at hk
  omega

theorem natAbs_half {n : Int} {k : Nat} (hk : n.natAbs ≤ 2 ^ (k + 1)) : (n / 2).natAbs ≤ 2 ^ k := by
  rw [pow_succ] at hk
  omega

/-- The digits add up to the integer. -/
theorem nafFrom_sum : ∀ (k i : Nat) (n : Int), n.natAbs ≤ 2 ^ k → ((nafFrom (k + 1) i n).map nafValue).sum = n * 2 ^ i := by
  intro k
  induction k with
  | zero =>
    intro i n hn
    rcases Int.emod_two_eq_zero_or_one n with hpar | hpar
    · rw [pow_zero] at hn
      rw [show n = 0 by omega, nafFrom_zero]
      simp
    · rw [nafFrom_odd hpar, nafRest_one hpar hn, nafFrom_zero]
      rw [pow_zero] at hn
      rcases (show n = 1 ∨ n = -1 by omega) with rfl | rfl <;> simp [nafValue]
  | succ k ih =>
    intro i n hn
    rcases Int.emod_two_eq_zero_or_one n with hpar | hpar
    · rw [nafFrom_even hpar, ih _ _ (natAbs_half hn), pow_succ', ← mul_assoc, Int.ediv_mul_cancel (Int.dvd_of_emod_eq_zero hpar)]
    · have hvalue : nafValue (i, decide (n % 4 = 3)) = (2 - n % 4) * 2 ^ i := by
        rcases (show n % 4 = 1 ∨ n % 4 = 3 by omega) with h | h <;> simp [nafValue, h]
      have hhalf : (n - (2 - n % 4)) / 2 * 2 = n - (2 - n % 4) := Int.ediv_mul_cancel (by omega)
      rw [nafFrom_odd hpar, List.map_cons, List.sum_cons, ih _ _ (nafRest hpar hn).2, hvalue, pow_succ', ← mul_assoc, hhalf]
      ring

/-- Positions rise from the first one on, which an even integer leaves free. -/
theorem nafFrom_positions : ∀ (fuel i : Nat) (n : Int), (∀ x ∈ nafFrom fuel i n, i ≤ x.1 ∧ (n % 2 = 0 → i < x.1)) ∧
    (nafFrom fuel i n).Pairwise fun x y => x.1 + 1 < y.1 := by
  intro fuel
  induction fuel with
  | zero => intro i n; simp [nafFrom, nafDigits, mapIdxFrom]
  | succ fuel ih =>
    intro i n
    rcases Int.emod_two_eq_zero_or_one n with hpar | hpar
    · obtain ⟨hpos, hgaps⟩ := ih (i + 1) (n / 2)
      rw [nafFrom_even hpar]
      exact ⟨fun x hx => by have := (hpos x hx).1; omega, hgaps⟩
    · obtain ⟨hpos, hgaps⟩ := ih (i + 1) ((n - (2 - n % 4)) / 2)
      rw [nafFrom_odd hpar]
      refine ⟨fun x hx => ⟨?_, fun h => by omega⟩, List.pairwise_cons.mpr ⟨fun x hx => ?_, hgaps⟩⟩
      · rcases List.mem_cons.mp hx with rfl | hx
        · exact le_rfl
        · have := (hpos x hx).1
          omega
      · exact (hpos x hx).2 (by omega)

/-- Of k + 1 positions at most every other holds a digit. -/
theorem nafFrom_length : ∀ (fuel k i : Nat) (n : Int), n.natAbs ≤ 2 ^ k →
    2 * (nafFrom fuel i n).length ≤ k + 2 ∧ (n % 2 = 0 → 2 * (nafFrom fuel i n).length ≤ k + 1) := by
  intro fuel
  induction fuel with
  | zero => intro k i n _; simp [nafFrom, nafDigits, mapIdxFrom]
  | succ fuel ih =>
    intro k i n hn
    rcases Int.emod_two_eq_zero_or_one n with hpar | hpar
    · cases k with
      | zero =>
        rw [pow_zero] at hn
        rw [show n = 0 by omega, nafFrom_zero]
        simp
      | succ k =>
        have hrest := (ih k (i + 1) (n / 2) (natAbs_half hn)).1
        rw [nafFrom_even hpar]
        omega
    · rw [nafFrom_odd hpar, List.length_cons]
      cases k with
      | zero =>
        rw [nafRest_one hpar hn, nafFrom_zero, List.length_nil]
        omega
      | succ k =>
        obtain ⟨heven, hle⟩ := nafRest hpar hn
        have hrest := (ih k (i + 1) _ hle).2 heven
        omega

section
variable {n : Int}

theorem naf_sum (hn : n.natAbs ≤ 2 ^ 39) : ((naf n).map nafValue).sum = n := by
  rw [naf_eq, List.map_reverse, List.sum_reverse, nafFrom_sum 39 0 n hn, pow_zero, mul_one]

theorem naf_pairwise (n : Int) : (naf n).Pairwise fun x y => y.1 + 1 < x.1 := by
  rw [naf_eq, List.pairwise_reverse]
  exact (nafFrom_positions 40 0 n).2

theorem naf_length {k : Nat} (hn : n.natAbs ≤ 2 ^ k) : 2 * (naf n).length ≤ k + 2 := by
  rw [naf_eq, List.length_reverse]
  exact (nafFrom_length 40 k 0 n hn).1

end

/-! ## Term lists (R49 to R51) -/

/-- The number of a term. -/
def Term.rat (t : Term) : ℚ := (if t.neg then -1 else 1) * 2 ^ t.shift

/-- The terms of a significand and its exponent. -/
theorem terms_of_recode {f : ElemFmt} {code scale : Nat} {M q : Int} (h : recode f code scale = .fin M q) (hM : M.natAbs ≤ 2 ^ 39) :
    ∃ ts, termsOf f code scale = some ts ∧ (ts.map Term.rat).sum = M * 2 ^ q ∧
      (ts.Pairwise fun x y => y.shift + 1 < x.shift) ∧ (M = 0 → ts = []) ∧ ts.length = (naf M).length := by
  refine ⟨(naf M).map fun d => { neg := d.2, shift := (d.1 : Int) + q }, by rw [termsOf, h], ?_, ?_, ?_, List.length_map _⟩
  · have hterm : (Term.rat ∘ fun d : Nat × Bool => { neg := d.2, shift := (d.1 : Int) + q }) = fun d => (nafValue d : ℚ) * 2 ^ q := by
      funext d
      simp only [Function.comp_apply, Term.rat, nafValue]
      rw [zpow_add₀ (by norm_num), zpow_natCast]
      push_cast
      ring
    have hsum := congrArg (Int.cast (R := ℚ)) (naf_sum hM)
    rw [Int.cast_list_sum, List.map_map] at hsum
    rw [List.map_map, hterm, List.sum_map_mul_right, ← hsum]
    rfl
  · exact (naf_pairwise M).map _ fun x y hxy => by
      simp only
      omega
  · rintro rfl
    rfl

/-! ### Significands of the formats (R50, R51) -/

/-- Bits of the largest significand of a format that is not .b4. -/
def sigBits : ElemFmt → Nat
  | .s8 => 7 | .n8 => 8 | .s16 => 15 | .n16 => 16 | .s32 => 31 | .n32 => 32
  | .f32 => 24 | .f16 => 11 | .bf16 => 8 | .e4m3 => 4 | .e5m2 => 3 | .b4 => 6

theorem sigBits_tmax (f : ElemFmt) (hf : f ≠ .b4) : sigBits f + 2 < 2 * tmax f + 2 := by
  cases f with
  | b4 => exact absurd rfl hf
  | _ => decide

theorem valOf_signed_le (k x : Nat) : (valOf (k + 1) true x).natAbs ≤ 2 ^ k := by
  have hlow := (BitVec.ofNat (k + 1) x).le_two_mul_toInt
  have hhigh := (BitVec.ofNat (k + 1) x).two_mul_toInt_lt
  rw [valOf_eq, if_pos rfl]
  rw [pow_succ] at hlow hhigh
  zify
  exact abs_le.mpr ⟨by omega, by omega⟩

theorem valOf_unsigned_le (w x : Nat) : (valOf w false x).natAbs ≤ 2 ^ w := by
  have hlt : x % 2 ^ w < 2 ^ w := Nat.mod_lt _ (by positivity)
  simp only [valOf, Bool.false_eq_true, if_false, Int.natAbs_natCast]
  exact hlt.le

theorem read_sig_le {f : FFmt} (hf : f ∈ floatFormats) {x : Nat} {s : Bool} {m : Nat} {e : Int} (h : f.read x = .fin s m e) :
    m ≤ 2 ^ (f.fb + 1) := by
  rw [read_eq (sound_of_mem hf)] at h
  split at h
  · split at h <;> cases h
  · cases h
    obtain ⟨-, -, -, hlt, -⟩ := code_split f (fld x 0 (f.w - 1))
    exact hlt.le

theorem elemVal_sig_le {f : ElemFmt} (hf : f ≠ .b4) {code scale : Nat} {s : Bool} {m : Nat} {e : Int}
    (h : elemVal f code scale = .fin s m e) : m ≤ 2 ^ sigBits f := by
  cases f with
  | b4 => exact absurd rfl hf
  | s8 => cases h; exact valOf_signed_le _ code
  | s16 => cases h; exact valOf_signed_le _ code
  | s32 => cases h; exact valOf_signed_le _ code
  | n8 => cases h; exact valOf_unsigned_le _ code
  | n16 => cases h; exact valOf_unsigned_le _ code
  | n32 => cases h; exact valOf_unsigned_le _ code
  | f32 => exact read_sig_le (f := Machine.f32) (by simp [floatFormats]) h
  | f16 => exact read_sig_le (f := Machine.f16) (by simp [floatFormats]) h
  | bf16 => exact read_sig_le (f := Machine.bf16) (by simp [floatFormats]) h
  | e4m3 => exact read_sig_le (f := Machine.e4m3) (by simp [floatFormats]) h
  | e5m2 => exact read_sig_le (f := Machine.e5m2) (by simp [floatFormats]) h

theorem recode_eq {f : ElemFmt} (hf : f ≠ .b4) {code scale : Nat} {s : Bool} {m : Nat} {e : Int}
    (h : elemVal f code scale = .fin s m e) : recode f code scale = .fin (signedNat s m) e := by
  cases f with
  | b4 => exact absurd rfl hf
  | _ => simp only [recode, h]

/-- The significand and the exponent of a .b4 type, for the value of a code in units of 2^(−3) (R50). -/
def b4Sig (ty : Nat) (v : Int) : Int := match ty with | 0 => v / 8 | 1 => v / 4 | 2 => v | _ => v / 8
def b4Shift (ty : Nat) : Nat := match ty with | 0 => 3 | 1 => 2 | 2 => 0 | _ => 3

theorem b4Sig_terms : ∀ ty < 4, ∀ k < 16, b4Sig ty (b4Code ty k) * 2 ^ b4Shift ty = b4Code ty k ∧
    (b4Sig ty (b4Code ty k)).natAbs ≤ 64 ∧ (naf (b4Sig ty (b4Code ty k))).length ≤ 2 := by decide

theorem recode_b4 {code scale : Nat} (hscale : scale % 64 ≠ 63) : recode .b4 code scale =
    .fin (b4Sig (scale / 64 % 4) (b4Code (scale / 64 % 4) (code % 16))) ((scale % 64 : Nat) - 35 + b4Shift (scale / 64 % 4)) := by
  have hty : scale / 64 % 4 < 4 := Nat.mod_lt _ (by decide)
  simp only [recode, if_neg hscale]
  interval_cases scale / 64 % 4 <;> simp only [b4Sig, b4Shift] <;> congr 1 <;> omega

/-- A finite .b4 element is its code's value under its scale (R47). -/
theorem elemVal_b4 {code scale : Nat} {s : Bool} {m : Nat} {e : Int} (hcode : code < 16) (h : elemVal .b4 code scale = .fin s m e) :
    scale % 64 ≠ 63 ∧ m = (b4Code (scale / 64 % 4) code).natAbs ∧ signedNat s m = b4Code (scale / 64 % 4) code ∧
      e = (scale % 64 : Nat) - 35 := by
  simp only [elemVal, b4Val, Nat.mod_eq_of_lt hcode] at h
  split at h
  · cases h
  · rename_i hscale
    cases h
    refine ⟨hscale, rfl, ?_, rfl⟩
    split
    · exact signedNat_natAbs _
    · rename_i hty
      rw [b4Code, if_neg hty, natAbs_signedNat]

/-- The significand and the exponent of a finite element: its value, and no more digits than its format's most. -/
theorem recode_fin {f : ElemFmt} {code scale : Nat} {s : Bool} {m : Nat} {e : Int} (hcode : code < 2 ^ elemBits f)
    (h : elemVal f code scale = .fin s m e) : ∃ M q, recode f code scale = .fin M q ∧ M.natAbs ≤ 2 ^ 39 ∧
      (M : ℚ) * 2 ^ q = (FVal.fin s m e).rat ∧ (m = 0 → M = 0) ∧ (naf M).length ≤ tmax f := by
  by_cases hf : f = .b4
  · subst hf
    have hlt : code < 16 := hcode
    obtain ⟨hscale, rfl, hsigned, rfl⟩ := elemVal_b4 hlt h
    have hrecode := recode_b4 (code := code) hscale
    rw [Nat.mod_eq_of_lt hlt] at hrecode
    obtain ⟨hvalue, hbound, hlength⟩ := b4Sig_terms (scale / 64 % 4) (Nat.mod_lt _ (by decide)) code hlt
    refine ⟨_, _, hrecode, hbound.trans (by norm_num), ?_, fun hz => ?_, hlength⟩
    · have hcast : (b4Code (scale / 64 % 4) code : ℚ) = b4Sig (scale / 64 % 4) (b4Code (scale / 64 % 4) code) *
          2 ^ b4Shift (scale / 64 % 4) := by exact_mod_cast hvalue.symm
      rw [rat_fin, hsigned, hcast, zpow_add₀ (by norm_num), zpow_natCast]
      ring
    · rw [Int.natAbs_eq_zero.mp hz] at hvalue ⊢
      exact (mul_eq_zero.mp hvalue).resolve_right (by positivity)
  · have hsig := elemVal_sig_le hf h
    have hnat : (signedNat s m).natAbs ≤ 2 ^ sigBits f := by rwa [natAbs_signedNat]
    refine ⟨_, _, recode_eq hf h, hnat.trans (Nat.pow_le_pow_right (by decide) ?_), (rat_fin s m e).symm, ?_, ?_⟩
    · cases f <;> decide
    · rintro rfl
      cases s <;> rfl
    · have hlen := naf_length hnat
      have hmost := sigBits_tmax f hf
      omega

/-- Settles O13: the search of the nearest code (`nearest_code`) and of the least scale, and the recoding of an element's significand
(`recode_fin`, `terms_of_recode`). -/
theorem termLists : Obligations.TermLists := by
  unfold Obligations.TermLists
  refine ⟨⟨fun s m e scale hscale hnan => ?_, fun s m e ty hty hm => ?_⟩, fun m hm => ⟨?_, naf_pairwise m⟩,
    fun f code scale s m e hcode _ hval => ?_⟩
  · intro y v c
    have hty : scale / 64 % 4 = scale / 64 := Nat.mod_eq_of_lt (by omega)
    have hc : c = b4Nearest (scale / 64) (signedNat s m) (e + 35 - (scale % 64 : Nat)) := by
      simp only [c, b4Quant, if_neg hnan, hty]
    obtain ⟨num, den, hden, hnum, hnearest⟩ := b4Nearest_eq (scale / 64) (signedNat s m) (e + 35 - (scale % 64 : Nat))
    have hy : (num : ℚ) = y * den := by
      rw [hnum, add_sub_assoc, zpow_add₀ (by norm_num)]
      simp only [y, rat_fin]
      ring
    rw [← hc] at hnearest
    exact nearest_code (by omega) hden hy hnearest
  · intro covers
    obtain ⟨k, hk, hfind, hok, hlow⟩ := find_range_least fun k =>
      !(FVal.fin false (b4Largest ty) ((k : Int) - 32)).lt (.fin false m e)
    refine ⟨k, hk, ?_, ?_, fun j hj hcov => ?_⟩
    · simp only [b4Scale, if_neg hm.ne']
      omega
    · exact hok.imp_left (scale_covers ty m k s e).mp
    · have hcov' := (scale_covers ty m j s e).mpr hcov
      rw [hlow j hj] at hcov'
      cases hcov'
  · exact naf_sum (hm.le.trans (Nat.pow_le_pow_right (by decide) (by decide)))
  · obtain ⟨M, q, hrecode, hbound, hrat, hzero, hlength⟩ := recode_fin hcode hval
    obtain ⟨ts, hts, hsum, hpairs, hnil, hlen⟩ := terms_of_recode hrecode hbound
    exact ⟨ts, hts, hsum.trans hrat, hpairs, fun hm => hnil (hzero hm), hlen ▸ hlength⟩

end Sys2Proof.Machine

/-! PROOF. Matrix arithmetic (O32): the integer fold, the window of a k-block, the fold that rounds once, and the bound W. -/

namespace Sys2Proof.Machine

/-! ## Lists of steps -/

theorem mapIdxFrom_eq_range {α β : Type} (f : Nat → α → β) (l : List α) (x : α) :
    mapIdxFrom f 0 l = (List.range l.length).map fun d => f d (l.getD d x) := by
  apply List.ext_getElem?
  intro n
  rw [mapIdxFrom_getElem?, List.getElem?_map, Nat.zero_add]
  rcases lt_or_ge n l.length with hn | hn
  · rw [List.getElem?_range hn, Option.map_some, List.getD_eq_getElem?_getD, List.getElem?_eq_getElem hn]
    rfl
  · rw [List.getElem?_eq_none hn, List.getElem?_eq_none (by simpa using hn)]
    rfl

theorem foldl_add_eq_sum {α : Type} (g : α → Int) (l : List α) : l.foldl (fun a x => a + g x) 0 = (l.map g).sum := by
  rw [List.sum_eq_foldl, List.foldl_map]

/-! ## Integer accumulation (R59) -/

/-- The integer product of a step. -/
def KStep.intProd (x : KStep) : Int := match x.a.mul x.b with
  | .fin s m e => signedNat s (m * 2 ^ e.toNat)
  | _ => 0

theorem blockInt_eq (l : List KStep) : blockInt l = (l.map KStep.intProd).sum := foldl_add_eq_sum KStep.intProd l

theorem intProd_ofInt (ts : List Term) (x y : Int) : ({ terms := ts, a := .ofInt x, b := .ofInt y } : KStep).intProd = x * y := by
  have hx := signedNat_natAbs x
  have hy := signedNat_natAbs y
  have hsign (s t : Bool) (m n : Nat) : signedNat (s ^^ t) (m * n) = signedNat s m * signedNat t n := by
    cases s <;> cases t <;> simp [signedNat]
  calc ({ terms := ts, a := .ofInt x, b := .ofInt y } : KStep).intProd =
        signedNat (decide (x < 0) ^^ decide (y < 0)) (x.natAbs * y.natAbs * 2 ^ (0 + 0 : Int).toNat) := rfl
    _ = x * y := by rw [add_zero, Int.toNat_zero, pow_zero, mul_one, hsign, hx, hy]

theorem intProd_s8 (a b : Nat × Nat) : (kStep .s8 .s8 a b).intProd = (BitVec.ofNat 8 a.1).toInt * (BitVec.ofNat 8 b.1).toInt := by
  have hval (x : Nat × Nat) : elemVal .s8 x.1 x.2 = .ofInt (BitVec.ofNat 8 x.1).toInt := congrArg FVal.ofInt (valOf_eq 8 true x.1)
  rw [kStep, hval, hval, intProd_ofInt]

theorem foldOne_s8 {o : MatOp} (hacc : fwAcc o.fw = 1) (ha : o.fmtA = .s8) (hb : o.fmtB = .s8) (as : List (Nat × Nat))
    (bs : List (List (Nat × Nat))) (j : Nat) (acc : Word) : foldOne o as bs j acc =
      BitVec.ofInt 32 (max (-(2 ^ 31)) (min (2 ^ 31 - 1) (acc.toInt + ((List.range as.length).map fun d =>
        (BitVec.ofNat 8 (as.getD d (0, 0)).1).toInt * (BitVec.ofNat 8 ((bs.getD d []).getD j (0, 0)).1).toInt).sum))) := by
  have hrange : (-(2 ^ 31) : Int) ≤ 2 ^ 31 - 1 := by norm_num
  rw [foldOne, ha, hb, mapIdxFrom_eq_range _ as (0, 0)]
  simp only [hacc, if_true, foldInt, clampInt_eq hrange, blockInt_eq, List.map_map]
  congr 6
  funext d
  exact intProd_s8 _ _

/-! ## The window (R56) -/

/-- The contribution of a term, as a number. -/
theorem contribution_rat (t : Term) (s : Bool) (m : Nat) (e : Int) :
    ((contribution t (.fin s m e)).1 : ℚ) * 2 ^ (contribution t (.fin s m e)).2 = t.rat * (FVal.fin s m e).rat := by
  simp only [contribution, Term.rat]
  rw [rat_fin, signedNat_cast, signedNat_cast, zpow_add₀ (by norm_num)]
  cases t.neg <;> cases s <;> simp <;> ring

/-- The units of a contribution: its floor, and whether it lies above. -/
theorem toUnits_floor (c : Int × Int) (u : Int) : ((toUnits c u).1 : ℚ) * 2 ^ u ≤ c.1 * 2 ^ c.2 ∧
    (c.1 : ℚ) * 2 ^ c.2 < ((toUnits c u).1 + 1) * 2 ^ u ∧
    ((toUnits c u).2 = true ↔ (c.1 : ℚ) * 2 ^ c.2 ≠ (toUnits c u).1 * 2 ^ u) := by
  have hu : (0 : ℚ) < 2 ^ u := by positivity
  unfold toUnits
  split
  · rename_i h
    have hval : (c.1 : ℚ) * 2 ^ c.2 = (c.1 * 2 ^ (c.2 - u).toNat : Int) * 2 ^ u := by
      rw [zpow_split h]
      push_cast
      ring
    rw [hval]
    exact ⟨le_rfl, by linarith, by simp⟩
  · rename_i h
    have hpos : (0 : Int) < 2 ^ (u - c.2).toNat := by positivity
    have hval : (2 : ℚ) ^ u = ((2 ^ (u - c.2).toNat : Int) : ℚ) * 2 ^ c.2 := by
      rw [zpow_split (not_le.mp h).le]
      push_cast
      rfl
    have hc : (0 : ℚ) < 2 ^ c.2 := by positivity
    have hdiv := Int.mul_ediv_add_emod c.1 (2 ^ (u - c.2).toNat)
    have hlow := Int.emod_nonneg c.1 hpos.ne'
    have hhigh := Int.emod_lt_of_pos c.1 hpos
    generalize (2 : Int) ^ (u - c.2).toNat = p at *
    simp only [decide_eq_true_eq]
    rw [hval, ← mul_assoc, ← mul_assoc, mul_le_mul_iff_left₀ hc, mul_lt_mul_iff_left₀ hc, Ne, Ne, mul_left_inj' hc.ne']
    norm_cast
    rw [mul_comm (c.1 / p), add_mul, mul_comm (c.1 / p), one_mul]
    exact ⟨by omega, by omega, by omega⟩

/-- Terms with their weights, summed in units: each loses less than one unit, and something is lost exactly when the sums differ. -/
theorem units_sum (u : Int) (l : List (Int × Int)) :
    (((l.map fun c => (toUnits c u).1).sum : Int) : ℚ) * 2 ^ u ≤ (l.map fun c => (c.1 : ℚ) * 2 ^ c.2).sum ∧
    (l.map fun c => (c.1 : ℚ) * 2 ^ c.2).sum ≤ ((l.map fun c => (toUnits c u).1).sum : Int) * 2 ^ u + l.length * 2 ^ u ∧
    ((l.any fun c => (toUnits c u).2) = true ↔
      (l.map fun c => (c.1 : ℚ) * 2 ^ c.2).sum ≠ ((l.map fun c => (toUnits c u).1).sum : Int) * 2 ^ u) := by
  induction l with
  | nil => simp
  | cons c l ih =>
    obtain ⟨hlow, hhigh, hlost⟩ := ih
    obtain ⟨hclow, hchigh, hclost⟩ := toUnits_floor c u
    simp only [List.map_cons, List.sum_cons, List.any_cons, Bool.or_eq_true, List.length_cons]
    push_cast at *
    rw [hclost, hlost, add_mul]
    refine ⟨by linarith, by linarith, ?_⟩
    rw [← not_and_or, not_iff_not]
    constructor
    · rintro ⟨h1, h2⟩
      rw [h1, h2]
    · intro h
      constructor <;> linarith

/-! ### The anchor -/

/-- A step's leading bit: that of its first term times its weight. -/
def KStep.Leads (x : KStep) (p : Int) : Prop :=
  ∃ t r, x.terms = t :: r ∧ (2 : ℚ) ^ p ≤ (2 : ℚ) ^ t.shift * |x.b.rat| ∧ (2 : ℚ) ^ t.shift * |x.b.rat| < (2 : ℚ) ^ (p + 1)

theorem leading_unique {x : ℚ} {p q : Int} (hp : (2 : ℚ) ^ p ≤ x) (hp' : x < 2 ^ (p + 1)) (hq : (2 : ℚ) ^ q ≤ x) (hq' : x < 2 ^ (q + 1)) :
    p = q := by
  have h1 := (zpow_lt_zpow_iff_right₀ (by norm_num : (1 : ℚ) < 2)).mp (hp.trans_lt hq')
  have h2 := (zpow_lt_zpow_iff_right₀ (by norm_num : (1 : ℚ) < 2)).mp (hq.trans_lt hp')
  omega

theorem leading_bit {m : Nat} (hm : m ≠ 0) (k e : Int) :
    (2 : ℚ) ^ (k + Nat.log2 m + e) ≤ 2 ^ k * (m * 2 ^ e) ∧ (2 : ℚ) ^ k * (m * 2 ^ e) < 2 ^ (k + Nat.log2 m + e + 1) := by
  have hlow : ((2 : ℚ) ^ Nat.log2 m) ≤ m := by exact_mod_cast (Nat.log2_self_le hm)
  have hhigh : (m : ℚ) < 2 ^ (Nat.log2 m + 1) := by exact_mod_cast Nat.lt_log2_self
  have hpos : (0 : ℚ) < 2 ^ k * 2 ^ e := by positivity
  have hsplit (n : Nat) : (2 : ℚ) ^ (k + n + e) = 2 ^ n * (2 ^ k * 2 ^ e) := by
    rw [zpow_add₀ (by norm_num), zpow_add₀ (by norm_num), zpow_natCast]
    ring
  have hvalue : (2 : ℚ) ^ k * (m * 2 ^ e) = m * (2 ^ k * 2 ^ e) := by ring
  rw [hvalue, show k + (Nat.log2 m : Int) + e + 1 = k + (Nat.log2 m + 1 : Nat) + e by push_cast; ring, hsplit, hsplit]
  exact ⟨mul_le_mul_of_nonneg_right hlow hpos.le, mul_lt_mul_of_pos_right hhigh hpos⟩

/-- The model's P_k is the leading bit. -/
theorem top_iff {x : KStep} (hb : ∃ s m e, x.b = .fin s m e) (p : Int) : x.top = some p ↔ x.Leads p := by
  obtain ⟨s, m, e, hb⟩ := hb
  rw [KStep.top, KStep.Leads, hb, abs_rat]
  cases hterms : x.terms with
  | nil => simp
  | cons t r =>
    by_cases hm : m = 0
    · subst hm
      simp only [if_true, Nat.cast_zero, zero_mul, mul_zero]
      constructor
      · intro h; cases h
      · rintro ⟨t', r', -, h, -⟩
        exact absurd h (not_le.mpr (by positivity))
    · obtain ⟨hlow, hhigh⟩ := leading_bit hm t.shift e
      simp only [if_neg hm, Option.some.injEq, List.cons.injEq]
      constructor
      · rintro rfl
        exact ⟨t, r, ⟨rfl, rfl⟩, hlow, hhigh⟩
      · rintro ⟨t', r', ⟨rfl, rfl⟩, h1, h2⟩
        exact leading_unique hlow hhigh h1 h2

/-- A step without a leading bit contributes nothing. -/
theorem top_none {x : KStep} (hb : ∃ s m e, x.b = .fin s m e) (h : x.top = none) : ∀ t ∈ x.terms, t.rat * x.b.rat = 0 := by
  obtain ⟨s, m, e, hb⟩ := hb
  intro t ht
  obtain ⟨t', r, hterms⟩ := List.exists_cons_of_ne_nil (List.ne_nil_of_mem ht)
  rw [KStep.top, hterms, hb] at h
  simp only [ite_eq_left_iff, reduceCtorEq, imp_false, not_not] at h
  rw [hb, h]
  simp [FVal.rat]

theorem foldl_max (r : List Int) : ∀ p : Int, (∀ x ∈ p :: r, x ≤ r.foldl max p) ∧ r.foldl max p ∈ p :: r := by
  induction r with
  | nil => intro p; simp
  | cons y r ih =>
    intro p
    obtain ⟨hle, hmem⟩ := ih (max p y)
    rw [List.foldl_cons]
    simp only [List.mem_cons] at hle hmem ⊢
    refine ⟨?_, ?_⟩
    · rintro x (rfl | rfl | hx)
      · exact (le_max_left _ _).trans (hle _ (.inl rfl))
      · exact (le_max_right _ _).trans (hle _ (.inl rfl))
      · exact hle x (.inr hx)
    · rcases hmem with hmem | hmem
      · rw [hmem]
        rcases max_choice p y with h | h <;> rw [h]
        · exact .inl rfl
        · exact .inr (.inl rfl)
      · exact .inr (.inr hmem)

/-! ### The block's result -/

/-- The contributions of a block, step by step. -/
def contributions (l : List KStep) : List (Int × Int) := (l.map fun x => x.terms.map fun t => contribution t x.b).flatten

theorem contributions_length (l : List KStep) : (contributions l).length = (l.map fun x => x.terms.length).sum := by
  rw [contributions, List.length_flatten, List.map_map]
  simp only [Function.comp_def, List.length_map]

/-- The exact sum of a block's products, term by term. -/
def exactSum (l : List KStep) : ℚ := (l.map fun x => (x.terms.map fun t => t.rat * x.b.rat).sum).sum

theorem contributions_sum {l : List KStep} (hb : ∀ x ∈ l, ∃ s m e, x.b = .fin s m e) :
    ((contributions l).map fun c => (c.1 : ℚ) * 2 ^ c.2).sum = exactSum l := by
  rw [contributions, List.map_flatten, List.sum_flatten, List.map_map, List.map_map, exactSum]
  congr 1
  refine List.map_congr_left fun x hx => ?_
  obtain ⟨s, m, e, hb⟩ := hb x hx
  rw [Function.comp_apply, Function.comp_apply, List.map_map, hb]
  congr 1
  exact List.map_congr_left fun t _ => contribution_rat t s m e

theorem windowFin_none {l : List KStep} (h : l.filterMap KStep.top = []) : windowFin l = .fin 0 0 false := by
  rw [windowFin, h]

theorem windowFin_some {l : List KStep} {p : Int} {r : List Int} (h : l.filterMap KStep.top = p :: r) :
    windowFin l = .fin ((contributions l).map fun c => (toUnits c (r.foldl max p - 56)).1).sum (r.foldl max p - 56)
      ((contributions l).any fun c => (toUnits c (r.foldl max p - 56)).2) := by
  have hparts (u : Int) : (l.map fun x => x.terms.map fun t => toUnits (contribution t x.b) u).flatten =
      (contributions l).map fun c => toUnits c u := by
    rw [contributions, List.map_flatten, List.map_map]
    simp only [Function.comp_def, List.map_map]
  rw [windowFin, h]
  simp only [hparts, foldl_add_eq_sum, List.map_map, List.any_map]
  rfl

theorem blockSpecial_finite {l : List KStep} (h : ∀ x ∈ l, (∃ s m e, x.a = .fin s m e) ∧ ∃ s m e, x.b = .fin s m e) :
    blockSpecial l = none := by
  have hprod : ∀ y ∈ l.map fun x => x.a.mul x.b, ∃ s m e, y = .fin s m e := by
    intro y hy
    obtain ⟨x, hx, rfl⟩ := List.mem_map.mp hy
    obtain ⟨⟨s, m, e, ha⟩, t, n, f, hb⟩ := h x hx
    exact ⟨s ^^ t, m * n, e + f, by rw [ha, hb]; rfl⟩
  have hnone (p : FVal → Bool) (hp : ∀ s m e, p (.fin s m e) = false) : (l.map fun x => x.a.mul x.b).any p = false := by
    rw [List.any_eq_false]
    intro y hy
    obtain ⟨s, m, e, rfl⟩ := hprod y hy
    simp [hp]
  unfold blockSpecial
  simp only [hnone FVal.isNan (fun _ _ _ => rfl), hnone (fun p => decide (p = .inf false)) (fun _ _ _ => rfl),
    hnone (fun p => decide (p = .inf true)) (fun _ _ _ => rfl)]
  rfl

/-- The sum of a block of finite values (R56). -/
theorem blockFloat_finite {l : List KStep} (h : ∀ x ∈ l, (∃ s m e, x.a = .fin s m e) ∧ ∃ s m e, x.b = .fin s m e) :
    ∃ (v u : Int) (sticky : Bool), blockFloat l = .fin v u sticky ∧ (v : ℚ) * 2 ^ u ≤ exactSum l ∧
      exactSum l ≤ v * 2 ^ u + (l.map fun x => x.terms.length).sum * 2 ^ u ∧ (sticky = true ↔ exactSum l ≠ v * 2 ^ u) ∧
      (∀ x ∈ l, ∀ p, x.Leads p → p ≤ u + 56) ∧ ((∃ x ∈ l, ∃ p, x.Leads p) → ∃ x ∈ l, x.Leads (u + 56)) := by
  have hb : ∀ x ∈ l, ∃ s m e, x.b = .fin s m e := fun x hx => (h x hx).2
  have hwindow : blockFloat l = windowFin l := by rw [blockFloat, blockSpecial_finite h]
  have hmem (p : Int) : p ∈ l.filterMap KStep.top ↔ ∃ x ∈ l, x.Leads p := by
    rw [List.mem_filterMap]
    exact exists_congr fun x => and_congr_right fun hx => top_iff (hb x hx) p
  cases htops : l.filterMap KStep.top with
  | nil =>
    have hnone : ∀ x ∈ l, ∀ p, ¬ x.Leads p := fun x hx p hp => by
      have := (hmem p).mpr ⟨x, hx, hp⟩
      rw [htops] at this
      cases this
    have hzero : exactSum l = 0 := by
      rw [exactSum]
      refine List.sum_eq_zero fun y hy => ?_
      obtain ⟨x, hx, rfl⟩ := List.mem_map.mp hy
      refine List.sum_eq_zero fun z hz => ?_
      obtain ⟨t, ht, rfl⟩ := List.mem_map.mp hz
      refine top_none (hb x hx) ?_ t ht
      exact Option.eq_none_iff_forall_ne_some.mpr fun p hp => hnone x hx p ((top_iff (hb x hx) p).mp hp)
    refine ⟨0, 0, false, hwindow.trans (windowFin_none htops), ?_, ?_, ?_, fun x hx p hp => absurd hp (hnone x hx p),
      fun ⟨x, hx, p, hp⟩ => absurd hp (hnone x hx p)⟩
    · simp [hzero]
    · rw [hzero]; positivity
    · simp [hzero]
  | cons p r =>
    obtain ⟨hle, hmax⟩ := foldl_max r p
    rw [← htops] at hle hmax
    obtain ⟨hlow, hhigh, hlost⟩ := units_sum (r.foldl max p - 56) (contributions l)
    rw [contributions_sum hb] at hlow hhigh hlost
    rw [contributions_length] at hhigh
    refine ⟨_, _, _, hwindow.trans (windowFin_some htops), hlow, hhigh, hlost, fun x hx q hq => ?_, fun _ => ?_⟩
    · have := hle q ((hmem q).mpr ⟨x, hx, hq⟩)
      omega
    · rw [sub_add_cancel]
      exact (hmem _).mp hmax

/-! ## Non-finite products (R58) -/

theorem blockFloat_special {l : List KStep} {r : BlockRes} (h : blockSpecial l = some r) : blockFloat l = r := by
  rw [blockFloat, h]

theorem blockFloat_nan {l : List KStep} (h : .nan ∈ (l.map fun x => x.a.mul x.b) ∨
    (.inf false ∈ (l.map fun x => x.a.mul x.b) ∧ .inf true ∈ (l.map fun x => x.a.mul x.b))) : blockFloat l = .nan := by
  apply blockFloat_special
  unfold blockSpecial
  simp only
  generalize (l.map fun x => x.a.mul x.b) = ps at *
  by_cases hnan : ps.any FVal.isNan = true
  · rw [if_pos hnan]
  · rw [if_neg hnan]
    rcases h with h | ⟨hpos, hneg⟩
    · exact absurd (List.any_eq_true.mpr ⟨_, h, rfl⟩) hnan
    · have hp : ps.any (fun p => decide (p = .inf false)) = true := List.any_eq_true.mpr ⟨_, hpos, rfl⟩
      have hn : ps.any (fun p => decide (p = .inf true)) = true := List.any_eq_true.mpr ⟨_, hneg, rfl⟩
      rw [hp, hn]
      rfl

theorem blockFloat_inf {l : List KStep} {s : Bool} (hinf : .inf s ∈ l.map fun x => x.a.mul x.b)
    (hnan : .nan ∉ l.map fun x => x.a.mul x.b) (hother : .inf (!s) ∉ l.map fun x => x.a.mul x.b) : blockFloat l = .inf s := by
  apply blockFloat_special
  unfold blockSpecial
  simp only
  generalize (l.map fun x => x.a.mul x.b) = ps at *
  have hno : ps.any FVal.isNan = false := by
    rw [List.any_eq_false]
    intro y hy
    cases y with
    | nan => exact absurd hy hnan
    | inf => simp [FVal.isNan]
    | fin => simp [FVal.isNan]
  have hany (t : Bool) : ps.any (fun p => decide (p = .inf t)) = decide (t = s) := by
    rw [Bool.eq_iff_iff, List.any_eq_true]
    simp only [decide_eq_true_eq]
    constructor
    · rintro ⟨y, hy, rfl⟩
      by_contra hts
      exact hother (by rwa [show (!s) = t by cases s <;> cases t <;> simp_all])
    · rintro rfl
      exact ⟨_, hinf, rfl⟩
  rw [hno, hany, hany]
  cases s <;> rfl

/-! ## The fold rounds once (R57)

The sticky bit counts as one unit 2^64 below the sum's own. No number with a short significand, so no midpoint of two codes, lies
within that unit above the sum. -/

/-- Above a sum that is not zero there is a gap without numbers of short significand. -/
theorem dyadic_gap {V J q E : Int} (hV : V ≠ 0) (hJ : |J| < 2 ^ 60) (h : (V : ℚ) * 2 ^ q < J * 2 ^ E) :
    (V : ℚ) * 2 ^ q + 2 ^ (q - 64) < J * 2 ^ E := by
  have hunit : (0 : ℚ) < 2 ^ (q - 64) := by positivity
  have hq : (2 : ℚ) ^ q = 2 ^ 64 * 2 ^ (q - 64) := by
    rw [zpow_split (show q - 64 ≤ q by omega), show (q - (q - 64)).toNat = 64 by omega]
  rcases le_or_gt (q - 63) E with hE | hE
  · have hhalf : (2 : ℚ) ^ (q - 63) = 2 * 2 ^ (q - 64) := by
      rw [zpow_split (show q - 64 ≤ q - 63 by omega), show (q - 63 - (q - 64)).toNat = 1 by omega, pow_one]
    rw [zpow_split hE, hhalf, hq] at h ⊢
    have hint : V * 2 ^ 63 + 1 ≤ J * 2 ^ (E - (q - 63)).toNat := by
      rw [Int.add_one_le_iff, ← Int.cast_lt (R := ℚ)]
      push_cast
      nlinarith
    have hrat : (V : ℚ) * 2 ^ 63 + 1 ≤ J * 2 ^ (E - (q - 63)).toNat := by exact_mod_cast hint
    nlinarith
  · have hE' : (2 : ℚ) ^ E ≤ 2 ^ (q - 64) := zpow_le_zpow_right₀ (by norm_num) (by omega)
    have hJ' : |(J : ℚ)| < 2 ^ 60 := by exact_mod_cast hJ
    have hsmall : |(J : ℚ) * 2 ^ E| < 2 ^ 60 * 2 ^ (q - 64) := by
      rw [abs_mul, abs_of_pos (show (0 : ℚ) < 2 ^ E by positivity)]
      exact mul_lt_mul hJ' hE' (by positivity) (by positivity)
    obtain ⟨hlow, hhigh⟩ := abs_lt.mp hsmall
    rw [hq] at h ⊢
    have hneg : V ≤ -1 := by
      by_contra hpos
      have hone : (1 : ℚ) ≤ V := by exact_mod_cast (show 1 ≤ V by omega)
      nlinarith
    have hneg' : (V : ℚ) ≤ -1 := by exact_mod_cast hneg
    nlinarith

theorem dyadic_le_iff {V J q E : Int} (hV : V ≠ 0) (hJ : |J| < 2 ^ 60) (sticky : Bool) :
    (J : ℚ) * 2 ^ E ≤ V * 2 ^ q + b2n sticky * 2 ^ (q - 64) ↔ (J : ℚ) * 2 ^ E ≤ V * 2 ^ q := by
  have hunit : (0 : ℚ) < 2 ^ (q - 64) := by positivity
  cases sticky
  · simp [b2n]
  · rw [← not_lt, ← not_lt, not_iff_not, b2n, if_pos rfl, Nat.cast_one, one_mul]
    exact ⟨fun h => by linarith, dyadic_gap hV hJ⟩

theorem le_dyadic_iff {V J q E : Int} (hV : V ≠ 0) (hJ : |J| < 2 ^ 60) (sticky : Bool) :
    (V : ℚ) * 2 ^ q + b2n sticky * 2 ^ (q - 64) ≤ J * 2 ^ E ↔
      (V : ℚ) * 2 ^ q < J * 2 ^ E ∨ ((V : ℚ) * 2 ^ q = J * 2 ^ E ∧ sticky = false) := by
  have hunit : (0 : ℚ) < 2 ^ (q - 64) := by positivity
  cases sticky
  · simp [b2n, le_iff_lt_or_eq]
  · rw [b2n, if_pos rfl, Nat.cast_one, one_mul]
    simp only [Bool.true_eq_false, and_false, or_false]
    exact ⟨fun h => by linarith, fun h => (dyadic_gap hV hJ h).le⟩

/-- The midpoint of two neighbouring codes has a short significand. -/
theorem midpoint_dyadic {f : FFmt} (hfb : f.fb ≤ 50) (n : Int) :
    ∃ J E : Int, |J| < 2 ^ 60 ∧ f.point n + f.point (n + 1) = 2 * (J * 2 ^ E) := by
  have hnat (c : Nat) : ∃ J E : Int, |J| < 2 ^ 60 ∧ f.mag c + f.mag (c + 1) = 2 * (J * 2 ^ E) := by
    obtain ⟨-, -, -, hsig, -⟩ := code_split f c
    have hbound : 2 ^ (f.fb + 1) ≤ 2 ^ 51 := Nat.pow_le_pow_right (by norm_num) (by omega)
    have hnum : 2 ^ 51 = 2251799813685248 := by norm_num
    refine ⟨2 * f.sig c + 1, f.exp c - 1, ?_, ?_⟩
    · rw [abs_of_nonneg (by positivity)]
      norm_num
      omega
    · rw [mag_succ, FFmt.mag, zpow_sub_one₀ (by norm_num)]
      push_cast
      ring
  rcases le_or_gt 0 n with hn | hn
  · lift n to Nat using hn
    obtain ⟨J, E, hJ, hsum⟩ := hnat n
    rw [← Nat.cast_succ, point_natCast, point_natCast]
    exact ⟨J, E, hJ, hsum⟩
  · obtain ⟨c, rfl⟩ : ∃ c : Nat, n = -((c + 1 : Nat) : Int) := ⟨(-n - 1).toNat, by omega⟩
    obtain ⟨J, E, hJ, hsum⟩ := hnat c
    rw [show -((c + 1 : Nat) : Int) + 1 = -(c : Int) by omega, point_neg, point_neg, point_natCast, point_natCast]
    refine ⟨-J, E, by rwa [abs_neg], ?_⟩
    push_cast
    linarith

section
variable {f : FFmt} {V q n : Int} {sticky : Bool}

/-- The sum without its sticky bit lies between the midpoints about the code that the sum with it is rounded to. -/
theorem sticky_cell (hfb : f.fb ≤ 50) (hV : V ≠ 0) (h : f.Rounds .rne (V * 2 ^ q + b2n sticky * 2 ^ (q - 64)) n) :
    f.point (n - 1) + f.point n ≤ 2 * (V * 2 ^ q) ∧ 2 * (V * 2 ^ q + b2n sticky * 2 ^ (q - 64)) ≤ f.point n + f.point (n + 1) := by
  obtain ⟨hlow, hhigh, -⟩ := h
  obtain ⟨J, E, hJ, hmid⟩ := midpoint_dyadic hfb (n - 1)
  rw [sub_add_cancel] at hmid
  have hbelow := (dyadic_le_iff (q := q) (E := E) hV hJ sticky).mp (by linarith)
  exact ⟨by linarith, hhigh⟩

/-- It is rounded as every number in the gap above the sum. -/
theorem rounds_in_gap (hfb : f.fb ≤ 50) (hV : V ≠ 0) (h : f.Rounds .rne (V * 2 ^ q + b2n true * 2 ^ (q - 64)) n)
    {δ : ℚ} (hpos : 0 < δ) (hlt : δ < 2 ^ (q - 64)) : f.Rounds .rne (V * 2 ^ q + δ) n := by
  obtain ⟨hlow, hhigh⟩ := sticky_cell hfb hV h
  rw [b2n, if_pos rfl, Nat.cast_one, one_mul] at hhigh
  have hlow' : f.point (n - 1) + f.point n < 2 * (V * 2 ^ q + δ) := by linarith
  have hhigh' : 2 * (V * 2 ^ q + δ) < f.point n + f.point (n + 1) := by linarith
  exact ⟨hlow'.le, hhigh'.le, fun htie => (htie.elim hlow'.ne hhigh'.ne).elim⟩

theorem natAbs_le_of_sticky (hfb : f.fb ≤ 50) (hV : V ≠ 0) (h : f.Rounds .rne (V * 2 ^ q + b2n sticky * 2 ^ (q - 64)) n) {c : Nat}
    (hx : |(V : ℚ) * 2 ^ q| ≤ f.point c) : n.natAbs ≤ c := by
  obtain ⟨hlow, hhigh⟩ := sticky_cell hfb hV h
  obtain ⟨hneg, hpos⟩ := abs_le.mp hx
  have hunit : (0 : ℚ) ≤ b2n sticky * 2 ^ (q - 64) := by positivity
  have hprev := point_pred_lt f n
  have hnext := point_lt_succ f n
  have hupper : f.point (n - 1) < f.point c := by linarith
  have hlower : f.point (-c) < f.point (n + 1) := by rw [point_neg]; linarith
  rw [(point_strictMono f).lt_iff_lt] at hupper hlower
  omega

end

theorem f32_sound : f32.Sound := sound_of_mem (by simp [floatFormats])

theorem f32_fb : f32.fb ≤ 50 := by decide

theorem round_lt {f : FFmt} (hf : f.Sound) (rm : Rm) (s : Bool) (m : Nat) (e : Int) : f.round rm s m e < 2 ^ f.w := by
  have hover : f.over rm s ≤ f.maxc + 1 := by
    rw [FFmt.over]
    split
    · exact Nat.le_succ _
    · rename_i i hi
      obtain ⟨rfl, -⟩ := hf.inf i hi
      cases rm <;> cases s <;> simp
  rw [round_eq]
  refine encode_lt hf ?_ s
  split <;> omega

/-- The fold of a finite sum: nothing for a zero sum, and otherwise the sum with its sticky bit, rounded once. -/
theorem foldFloat_fin {acc : Word} {v : Int} (u : Int) {sticky : Bool} {a : ℚ} (ha : f32.num? acc.toNat = some a)
    (h : v ≠ 0 ∨ sticky = true) : ∃ V q : Int, a + v * 2 ^ u = V * 2 ^ q ∧ (V = 0 → foldFloat acc (.fin v u sticky) = 0) ∧
      (V ≠ 0 → (foldFloat acc (.fin v u sticky)).toNat =
        f32.write .rne (.fin (decide (V * 2 ^ 64 + b2n sticky < 0)) (V * 2 ^ 64 + b2n sticky).natAbs (q - 64))) := by
  have hcond : ¬ (v = 0 ∧ (!sticky) = true) := by
    rintro ⟨hv, hs⟩
    rcases h with h | h
    · exact h hv
    · rw [h] at hs
      cases hs
  rw [FFmt.num?] at ha
  split at ha
  case h_2 => cases ha
  case h_1 s m e hread =>
    cases ha
    refine ⟨signedNat s (m * 2 ^ (e - min e u).toNat) + v * 2 ^ (u - min e u).toNat, min e u, ?_, fun hV => ?_, fun hV => ?_⟩
    · rw [rat_units (min_le_left e u), zpow_split (min_le_right e u)]
      push_cast
      ring
    · simp only [foldFloat, if_neg hcond, hread, hV, if_true]
    · simp only [foldFloat, if_neg hcond, hread, if_neg hV, FFmt.write]
      rw [BitVec.toNat_ofNat]
      exact Nat.mod_eq_of_lt (round_lt f32_sound _ _ _ _)

theorem rat_sticky (V q : Int) (sticky : Bool) :
    (FVal.fin (decide (V * 2 ^ 64 + b2n sticky < 0)) (V * 2 ^ 64 + b2n sticky).natAbs (q - 64)).rat =
      V * 2 ^ q + b2n sticky * 2 ^ (q - 64) := by
  rw [rat_ofSum, zpow_split (show q - 64 ≤ q by omega), show (q - (q - 64)).toNat = 64 by omega]
  push_cast
  ring

/-! ### Within the format -/

/-- A sum that is not zero and not beyond the largest number is rounded to a code of the format. -/
theorem write_sticky {V q : Int} (hV : V ≠ 0) (sticky : Bool) (hx : |(V : ℚ) * 2 ^ q| ≤ f32.point f32.maxc) :
    ∃ n : Int, f32.Rounds .rne (V * 2 ^ q + b2n sticky * 2 ^ (q - 64)) n ∧
      f32.num? (f32.write .rne (.fin (decide (V * 2 ^ 64 + b2n sticky < 0)) (V * 2 ^ 64 + b2n sticky).natAbs (q - 64))) =
        some (f32.point n) ∧
      (n % 2 = 0 → f32.write .rne (.fin (decide (V * 2 ^ 64 + b2n sticky < 0)) (V * 2 ^ 64 + b2n sticky).natAbs (q - 64)) % 2 = 0) := by
  have hrounds := rounds_code f32 .rne (decide (V * 2 ^ 64 + b2n sticky < 0)) (V * 2 ^ 64 + b2n sticky).natAbs (q - 64) f32_sound.fraction
  rw [rat_sticky] at hrounds
  generalize decide (V * 2 ^ 64 + b2n sticky < 0) = s at *
  generalize (V * 2 ^ 64 + b2n sticky).natAbs = m at *
  have hc : f32.code .rne s m (q - 64) ≤ f32.maxc := by
    have hle := natAbs_le_of_sticky f32_fb hV hrounds hx
    rwa [natAbs_signedNat] at hle
  refine ⟨_, hrounds, ?_, fun heven => ?_⟩
  · rw [FFmt.write, round_of_code_le .rne s m _ hc, num_encode f32_sound hc]
  · rw [FFmt.write, round_of_code_le .rne s m _ hc, encode_even f32_sound]
    exact (signedNat_even _ _).mp heven

theorem point_zero (f : FFmt) : f.point 0 = 0 := (point_natCast f 0).trans (mag_zero f)

theorem f32_num_zero : f32.num? 0 = some 0 := by
  have hnum := num_encode f32_sound (Nat.zero_le _) false
  rwa [if_neg Bool.false_ne_true, Nat.zero_add, signedNat, if_neg Bool.false_ne_true, Nat.cast_zero, point_zero] at hnum

/-- A number just above zero is rounded to zero. -/
theorem rounds_above_zero {f : FFmt} {δ : ℚ} (hpos : 0 < δ) (hlt : 2 * δ < f.point 1) : f.Rounds .rne δ 0 := by
  have hprev := point_pred_lt f 0
  rw [FFmt.Rounds, point_zero] at *
  exact ⟨by linarith, by rw [zero_add, zero_add]; exact hlt.le, fun _ => rfl⟩

/-- The fold of a sum that is not beyond the largest number (R57). -/
theorem foldFloat_rounds {acc : Word} {v : Int} (u : Int) {sticky : Bool} {a : ℚ} (ha : f32.num? acc.toNat = some a)
    (h : v ≠ 0 ∨ sticky = true) (hx : |a + v * 2 ^ u| ≤ f32.point f32.maxc) :
    ∃ n : Int, f32.num? (foldFloat acc (.fin v u sticky)).toNat = some (f32.point n) ∧
      (a + v * 2 ^ u = 0 → foldFloat acc (.fin v u sticky) = 0) ∧
      (n % 2 = 0 → (foldFloat acc (.fin v u sticky)).toNat % 2 = 0) ∧
      (sticky = false → f32.Rounds .rne (a + v * 2 ^ u) n) ∧
      (sticky = true → ∃ ε > 0, ∀ δ, 0 < δ → δ < ε → f32.Rounds .rne (a + v * 2 ^ u + δ) n) := by
  obtain ⟨V, q, hsum, hzero, hcode⟩ := foldFloat_fin u ha h
  rw [hsum] at hx ⊢
  by_cases hV : V = 0
  · rw [hzero hV, hV, Int.cast_zero, zero_mul]
    have hone : 0 < f32.point 1 := (point_zero f32) ▸ point_lt_succ f32 0
    refine ⟨0, ?_, fun _ => rfl, fun _ => rfl, fun _ => rounds_zero f32 .rne, fun _ => ⟨f32.point 1 / 2, half_pos hone, ?_⟩⟩
    · rw [point_zero]
      exact f32_num_zero
    · intro δ hpos hlt
      rw [zero_add]
      exact rounds_above_zero hpos (by linarith)
  · obtain ⟨n, hrounds, hnum, heven⟩ := write_sticky hV sticky hx
    rw [hcode hV]
    refine ⟨n, hnum, fun hz => ?_, heven, ?_, ?_⟩
    · exact absurd (mul_eq_zero.mp hz) (by rw [Int.cast_eq_zero]; exact not_or.mpr ⟨hV, by positivity⟩)
    · rintro rfl
      simpa [b2n] using hrounds
    · rintro rfl
      exact ⟨2 ^ (q - 64), by positivity, fun δ hpos hlt => rounds_in_gap f32_fb hV hrounds hpos hlt⟩

/-! ### Beyond the format (R38) -/

theorem f32_mag_edges : f32.mag f32.maxc = 2 ^ 128 - 2 ^ 104 ∧ f32.mag (f32.maxc + 1) = 2 ^ 128 := by
  have hnext : f32.mag (f32.maxc + 1) = 2 ^ 128 := by rw [mag_after_maxc (by simp [floatFormats]) (by decide), if_neg (by decide)]
  have hstep : f32.mag (f32.maxc + 1) = f32.mag f32.maxc + 2 ^ f32.exp f32.maxc := by rw [mag_succ, FFmt.mag]; ring
  have hexp : f32.exp f32.maxc = 104 := by norm_num [FFmt.exp, FFmt.qmin, f32]
  rw [hexp] at hstep
  refine ⟨?_, hnext⟩
  rw [hnext] at hstep
  have : (2 : ℚ) ^ (104 : Int) = 2 ^ 104 := by norm_num
  linarith

/-- A value beyond the largest number is written as the infinity from the half-way point on, and as that number before it. -/
theorem f32_write_beyond (s : Bool) (m : Nat) (e : Int) (hx : (2 : ℚ) ^ 128 - 2 ^ 104 < m * 2 ^ e) :
    f32.write .rne (.fin s m e) = (if s then 2 ^ 31 else 0) + if (2 : ℚ) ^ 128 - 2 ^ 103 ≤ m * 2 ^ e then 0x7F800000 else 0x7F7FFFFF := by
  obtain ⟨hmax, hnext⟩ := f32_mag_edges
  have hover : Overflows (f32.mag f32.maxc) (f32.mag (f32.maxc + 1)) .rne s (m * 2 ^ e) ↔ (2 : ℚ) ^ 128 - 2 ^ 103 ≤ m * 2 ^ e := by
    rw [Overflows, hmax, hnext]
    constructor <;> intro h <;> linarith
  rcases round_beyond f32_sound .rne s m e (i := 0x7F800000) rfl (hmax ▸ hx) with ⟨h, hcode⟩ | ⟨h, hcode⟩
  · rw [if_pos (hover.mp h)]
    exact hcode
  · rw [if_neg (mt hover.mpr h)]
    exact hcode

theorem num_abs_le {f : FFmt} (hf : f.Sound) {x : Nat} {a : ℚ} (hx : x < 2 ^ f.w) (ha : f.num? x = some a) : |a| ≤ f.point f.maxc := by
  obtain ⟨n, hn, rfl⟩ := (encodable_iff hf a).mp ⟨x, hx, ha⟩
  rw [abs_point, point_natCast]
  exact (mag_strictMono f).monotone hn

/-- A sum beyond the largest number is not the accumulator alone. -/
theorem adds_of_beyond {acc : Word} {v u : Int} {sticky : Bool} {a : ℚ} (ha : f32.num? acc.toNat = some a)
    (hx : f32.point f32.maxc < |a + v * 2 ^ u|) : v ≠ 0 ∨ sticky = true := by
  refine .inl fun hv => ?_
  rw [hv, Int.cast_zero, zero_mul, add_zero] at hx
  exact absurd hx (not_lt.mpr (num_abs_le f32_sound acc.isLt ha))

/-- The written value of a sum beyond the largest number, by the size of the sum with its sticky bit. -/
theorem foldFloat_beyond {acc : Word} {v u : Int} {sticky : Bool} {a : ℚ} (ha : f32.num? acc.toNat = some a)
    (hx : f32.point f32.maxc < |a + v * 2 ^ u|) : ∃ V q : Int, a + v * 2 ^ u = V * 2 ^ q ∧ V ≠ 0 ∧
      ((2 : ℚ) ^ 128 - 2 ^ 104 < |(V : ℚ) * 2 ^ q + b2n sticky * 2 ^ (q - 64)| → (foldFloat acc (.fin v u sticky)).toNat =
        (if V < 0 then 2 ^ 31 else 0) +
          if (2 : ℚ) ^ 128 - 2 ^ 103 ≤ |(V : ℚ) * 2 ^ q + b2n sticky * 2 ^ (q - 64)| then 0x7F800000 else 0x7F7FFFFF) := by
  obtain ⟨V, q, hsum, -, hcode⟩ := foldFloat_fin (sticky := sticky) u ha (adds_of_beyond ha hx)
  have hV : V ≠ 0 := by
    rintro rfl
    have hmax : 0 ≤ f32.point f32.maxc := by rw [point_natCast]; exact mag_nonneg _ _
    rw [hsum, Int.cast_zero, zero_mul, abs_zero] at hx
    linarith
  have hsign : decide (V * 2 ^ 64 + b2n sticky < 0) = decide (V < 0) := by
    have hbit : b2n sticky ≤ 1 := by cases sticky <;> decide
    rw [decide_eq_decide]
    omega
  refine ⟨V, q, hsum, hV, fun h => ?_⟩
  rw [← rat_sticky, abs_rat] at h ⊢
  rw [hcode hV, f32_write_beyond _ _ _ h, hsign]
  simp only [decide_eq_true_eq]

theorem foldFloat_above {acc : Word} {v u : Int} {sticky : Bool} {a : ℚ} (ha : f32.num? acc.toNat = some a)
    (hx : f32.point f32.maxc < a + v * 2 ^ u) :
    foldFloat acc (.fin v u sticky) = if (2 : ℚ) ^ 128 - 2 ^ 103 ≤ a + v * 2 ^ u then 0x7F800000 else 0x7F7FFFFF := by
  obtain ⟨V, q, hsum, hV, hcode⟩ := foldFloat_beyond (sticky := sticky) ha (hx.trans_le (le_abs_self _))
  rw [point_natCast, f32_mag_edges.1, hsum] at hx
  rw [hsum]
  have hedge := dyadic_le_iff (q := q) (J := 2 ^ 25 - 1) (E := 103) hV (by norm_num) sticky
  have hvalue : (((2 ^ 25 - 1 : Int) : ℚ)) * 2 ^ (103 : Int) = 2 ^ 128 - 2 ^ 103 := by norm_num
  have hunit : (0 : ℚ) ≤ b2n sticky * 2 ^ (q - 64) := by positivity
  have hbig : (0 : ℚ) < 2 ^ 128 - 2 ^ 104 := by norm_num
  have hnonneg : ¬ V < 0 := fun h => by
    have hneg : (V : ℚ) * 2 ^ q ≤ 0 := mul_nonpos_of_nonpos_of_nonneg (by exact_mod_cast h.le) (by positivity)
    linarith
  rw [hvalue] at hedge
  rw [abs_of_pos (by linarith), if_neg hnonneg, zero_add] at hcode
  simp only [hedge] at hcode
  apply BitVec.eq_of_toNat_eq
  rw [hcode (by linarith)]
  split <;> rfl

theorem foldFloat_below {acc : Word} {v u : Int} {sticky : Bool} {a : ℚ} (ha : f32.num? acc.toNat = some a)
    (hx : a + v * 2 ^ u < -f32.point f32.maxc) :
    foldFloat acc (.fin v u sticky) = if a + v * 2 ^ u < -(2 ^ 128 - 2 ^ 103) ∨ (a + v * 2 ^ u = -(2 ^ 128 - 2 ^ 103) ∧ sticky = false)
      then 0xFF800000 else 0xFF7FFFFF := by
  obtain ⟨V, q, hsum, hV, hcode⟩ := foldFloat_beyond (sticky := sticky) ha ((lt_neg.mp hx).trans_le (neg_le_abs _))
  rw [point_natCast, f32_mag_edges.1, hsum] at hx
  rw [hsum]
  have hedge := le_dyadic_iff (q := q) (J := -(2 ^ 25 - 1)) (E := 103) hV (by norm_num) sticky
  have hedge' : ((-(2 ^ 25 - 1) : Int) : ℚ) * 2 ^ (103 : Int) = -(2 ^ 128 - 2 ^ 103) := by norm_num
  rw [hedge'] at hedge
  have hmax := dyadic_le_iff (q := q) (J := -(2 ^ 24 - 1)) (E := 104) hV (by norm_num) sticky
  have hvalue : ((-(2 ^ 24 - 1) : Int) : ℚ) * 2 ^ (104 : Int) = -(2 ^ 128 - 2 ^ 104) := by norm_num
  have hbig : (0 : ℚ) < 2 ^ 128 - 2 ^ 104 := by norm_num
  have hbelow : (V : ℚ) * 2 ^ q + b2n sticky * 2 ^ (q - 64) < -(2 ^ 128 - 2 ^ 104) := by
    rw [hvalue] at hmax
    exact not_le.mp (mt hmax.mp (not_le.mpr hx))
  have hneg : V < 0 := by
    by_contra h
    have : 0 ≤ (V : ℚ) * 2 ^ q := mul_nonneg (by exact_mod_cast not_lt.mp h) (by positivity)
    linarith
  rw [abs_of_neg (by linarith), if_pos hneg] at hcode
  simp only [le_neg (a := (2 : ℚ) ^ 128 - 2 ^ 103), hedge] at hcode
  apply BitVec.eq_of_toNat_eq
  rw [hcode (by linarith), show 2 ^ 31 = 0x80000000 by norm_num]
  split <;> rfl

/-! ## Non-finite values in a fold (R58) -/

/-- A finite sum leaves an infinite accumulator as it is. -/
theorem foldFloat_acc_inf {acc : Word} {v u : Int} {sticky t : Bool} (h : v ≠ 0 ∨ sticky = true) (hacc : f32.read acc.toNat = .inf t) :
    foldFloat acc (.fin v u sticky) = acc := by
  have hwrite := write_read f32_sound .rne (x := acc.toNat) acc.isLt (by rw [hacc]; rfl)
  have hcond : ¬ (v = 0 ∧ (!sticky) = true) := by cases sticky <;> simp_all
  rw [hacc] at hwrite
  simp only [foldFloat, if_neg hcond, hacc, FVal.add, hwrite, BitVec.ofNat_toNat, BitVec.setWidth_eq]

theorem foldFloat_acc_nan {acc : Word} {v u : Int} {sticky : Bool} (h : v ≠ 0 ∨ sticky = true) (hacc : f32.read acc.toNat = .nan) :
    foldFloat acc (.fin v u sticky) = 0x7FC00000 := by
  have hcond : ¬ (v = 0 ∧ (!sticky) = true) := by cases sticky <;> simp_all
  simp only [foldFloat, if_neg hcond, hacc, FVal.add]
  rfl

theorem foldFloat_inf (acc : Word) (s : Bool) : foldFloat acc (.inf s) =
    if f32.read acc.toNat = .inf (!s) then 0x7FC00000 else if s then 0xFF800000 else 0x7F800000 := by
  have hwrite : BitVec.ofNat 32 (f32.write .rne (.inf s)) = if s then 0xFF800000 else 0x7F800000 := by
    have hcode : f32.write .rne (.inf s) = (if s then 0x80000000 else 0) + 0x7F800000 := by
      rw [show 0x80000000 = 2 ^ 31 by norm_num]
      rfl
    rw [hcode]
    cases s <;> rfl
  rw [foldFloat, ← hwrite]
  split <;> rfl

/-! ## The model time (R218, R219) -/

/-- The most that step i of k costs: its terms, the entry into a spilled segment at every 8th step and the fold at a block's end. -/
def stepBound (t spill k i : Nat) : Nat := t + (if i % 8 = 0 then spill else 0) + if (i + 1) % 32 = 0 ∨ i + 1 = k then 2 else 0
/-- The most that n steps cost, one after the other. -/
def runBound (t spill k n : Nat) : Nat := ((List.range n).map (stepBound t spill k)).sum

theorem runBound_succ (t spill k n : Nat) : runBound t spill k (n + 1) = runBound t spill k n + stepBound t spill k n := by
  rw [runBound, List.range_succ, List.map_append, List.sum_append]
  rfl

/-- A segment of 8 steps is entered at its first. -/
theorem segments_succ (n spill : Nat) : (n + 1 + 7) / 8 * spill = (n + 7) / 8 * spill + if n % 8 = 0 then spill else 0 := by
  split
  · rw [← Nat.succ_mul]
    congr 1
    omega
  · rw [Nat.add_zero]
    congr 1
    omega

theorem runBound_of_lt (t spill : Nat) {k n : Nat} (hn : n < k) :
    runBound t spill k n = n * t + n / 32 * 2 + (n + 7) / 8 * spill := by
  induction n with
  | zero => simp [runBound]
  | succ n ih =>
    have hfold : (n + 1) / 32 * 2 = n / 32 * 2 + if (n + 1) % 32 = 0 ∨ n + 1 = k then 2 else 0 := by split <;> omega
    rw [runBound_succ, ih (by omega), segments_succ, hfold, stepBound, Nat.succ_mul]
    omega

/-- All steps of an operation cost at most R219's sum. -/
theorem runBound_all (t spill : Nat) {k : Nat} (hk : 0 < k) :
    runBound t spill k k = k * t + (k + 31) / 32 * 2 + (k + 7) / 8 * spill := by
  obtain ⟨n, rfl⟩ := Nat.exists_eq_succ_of_ne_zero hk.ne'
  rw [Nat.succ_eq_add_one, runBound_succ, runBound_of_lt t spill (Nat.lt_succ_self n), segments_succ, stepBound,
    if_pos (c := _ ∨ _) (.inr rfl), Nat.succ_mul]
  omega

theorem le_runBound {t : Nat} (ht : 1 ≤ t) (spill k n : Nat) : n ≤ runBound t spill k n := by
  induction n with
  | zero => exact Nat.zero_le _
  | succ n ih =>
    rw [runBound_succ, stepBound]
    omega

theorem maxList_le {l : List Nat} {b : Nat} (h : ∀ x ∈ l, x ≤ b) : maxList l ≤ b := by
  have hfold : ∀ (l : List Nat) (a : Nat), a ≤ b → (∀ x ∈ l, x ≤ b) → l.foldl Nat.max a ≤ b := by
    intro l
    induction l with
    | nil => exact fun a ha _ => ha
    | cons x l ih => exact fun a ha hl => ih _ (Nat.max_le.mpr ⟨ha, hl x List.mem_cons_self⟩) fun y hy => hl y (List.mem_cons_of_mem _ hy)
  exact hfold l 0 (Nat.zero_le b) h

theorem getD_le {l : List Nat} {b : Nat} (h : ∀ x ∈ l, x ≤ b) (n : Nat) : l.getD n 0 ≤ b := by
  rw [List.getD_eq_getElem?_getD]
  cases hn : l[n]? with
  | none => exact Nat.zero_le b
  | some x => exact h x (List.mem_of_getElem? hn)

/-- A step ends by b + c when every end before it is by b and none of its rows costs more than c. -/
theorem groupStep_le {d i b c : Nat} {ends : List (List Nat)} {costs : List Nat} (hends : ∀ e ∈ ends, ∀ x ∈ e, x ≤ b) (hi : i / 2 ≤ b)
    (hcosts : ∀ x ∈ costs, x ≤ c) : ∀ e ∈ groupStep d i ends costs, ∀ x ∈ e, x ≤ b + c := by
  have hprev : ∀ x ∈ ends.headD (costs.map fun _ => 0), x ≤ b := by
    cases ends with
    | nil => simp
    | cons e r => exact hends e List.mem_cons_self
  have hslot : ∀ x ∈ ends.getD d [], x ≤ b := by
    rw [List.getD_eq_getElem?_getD]
    cases hd : ends[d]? with
    | none => exact fun x hx => absurd hx List.not_mem_nil
    | some e => exact hends e (List.mem_of_getElem? hd)
  intro e he x hx
  rcases List.mem_cons.mp he with rfl | he
  · rw [mapIdxFrom_eq_range _ costs 0, List.mem_map] at hx
    obtain ⟨r, -, rfl⟩ := hx
    exact Nat.add_le_add (Nat.max_le.mpr ⟨getD_le hprev r, Nat.max_le.mpr ⟨hi, maxList_le hslot⟩⟩) (getD_le hcosts r)
  · exact (hends e he x hx).trans (Nat.le_add_right b c)

/-- Rows that keep the bound at every step end within it. -/
theorem groupTime_le {t spill k : Nat} (ht : 1 ≤ t) (d : Nat) {costs : List (List Nat)}
    (h : ∀ row ∈ costs, ∀ i < k, row.getD i 0 ≤ stepBound t spill k i) : groupTime d costs k ≤ runBound t spill k k := by
  have hrun : ∀ n ≤ k, ∀ e ∈ (List.range n).foldl (fun e i => groupStep d i e (costs.map fun c => c.getD i 0)) [],
      ∀ x ∈ e, x ≤ runBound t spill k n := by
    intro n hn
    induction n with
    | zero => exact fun e he => absurd he List.not_mem_nil
    | succ n ih =>
      rw [List.range_succ, List.foldl_append, runBound_succ]
      refine groupStep_le (ih (by omega)) ((Nat.div_le_self n 2).trans (le_runBound ht spill k n)) fun x hx => ?_
      obtain ⟨row, hrow, rfl⟩ := List.mem_map.mp hx
      exact h row hrow n hn
  apply maxList_le
  cases hends : (List.range k).foldl (fun e i => groupStep d i e (costs.map fun c => c.getD i 0)) [] with
  | nil => exact fun x hx => absurd hx List.not_mem_nil
  | cons e r => exact hrun k le_rfl e (hends ▸ List.mem_cons_self)

theorem mem_of_mem_rowGroups {g : Nat} {costs x : List (List Nat)} (hx : x ∈ rowGroups g costs) {row : List Nat} (hrow : row ∈ x) :
    row ∈ costs := by
  obtain ⟨j, -, rfl⟩ := List.mem_map.mp hx
  exact List.mem_of_mem_drop (List.mem_of_mem_take hrow)

theorem modelTime_le {t spill k : Nat} (ht : 1 ≤ t) (d g : Nat) {costs : List (List Nat)}
    (h : ∀ row ∈ costs, ∀ i < k, row.getD i 0 ≤ stepBound t spill k i) : modelTime d g k costs ≤ 16 + runBound t spill k k := by
  refine Nat.add_le_add_left (maxList_le fun x hx => ?_) 16
  obtain ⟨rows, hrows, rfl⟩ := List.mem_map.mp hx
  exact groupTime_le ht d fun row hrow => h row (mem_of_mem_rowGroups hrows hrow)

/-- Settles O32: the integer fold (`foldOne_s8`), the window (`blockFloat_finite`), the single rounding of the sum with its sticky bit
(`foldFloat_rounds`, on `dyadic_gap`), overflow, the non-finite cases, and the bound on R218's recurrence (`modelTime_le`). -/
theorem matrixArithmetic : Obligations.MatrixArithmetic := by
  unfold Obligations.MatrixArithmetic
  refine ⟨⟨fun o as bs j acc hacc ha hb _ _ => foldOne_s8 hacc ha hb as bs j acc, fun l h => blockFloat_finite h,
    fun acc v u sticky a ha => ⟨fun hv hs => ?_, fun h hx => ?_⟩, fun acc v u sticky a ha => ?_,
    fun l => ⟨fun h => blockFloat_nan h, fun s hinf hnan hother => blockFloat_inf hinf hnan hother⟩,
    fun acc s v u sticky => ⟨rfl, foldFloat_inf acc s, fun h => ⟨fun t ht => foldFloat_acc_inf h ht, fun hn => foldFloat_acc_nan h hn⟩⟩⟩,
    fun f pw lay k allot d g costs _ hk _ => ?_⟩
  · rw [hv, hs]
    rfl
  · rw [rat_maxc f32_sound] at hx
    obtain ⟨n, hnum, hzero, heven, hexact, hsticky⟩ := foldFloat_rounds u ha h hx
    have hpoints (y : ℚ) (hy : ∃ c, c < 2 ^ 32 ∧ f32.num? c = some y) : ∃ k, y = f32.point k := by
      obtain ⟨k, -, hk⟩ := (encodable_iff f32_sound y).mp hy
      exact ⟨k, hk⟩
    refine ⟨f32.point n, hnum, hzero, fun hs => ⟨isRounding_of_rounds (hexact hs) hpoints, ?_⟩, fun hs => ?_⟩
    · intro y hy hne heq
      obtain ⟨k, rfl⟩ := hpoints y hy
      exact heven ((rounds_nearest (hexact hs) k).2 hne heq)
    · obtain ⟨ε, hε, hround⟩ := hsticky hs
      exact ⟨ε, hε, fun δ hpos hlt => isRounding_of_rounds (hround δ hpos hlt) hpoints⟩
  · rw [rat_maxc f32_sound]
    exact ⟨foldFloat_above ha, foldFloat_below ha⟩
  · intro t spill h
    have ht : 1 ≤ t := by cases f <;> cases pw <;> decide
    have htime := modelTime_le ht d g h
    rw [runBound_all t spill hk] at htime
    omega

end Sys2Proof.Machine

/-! PROOF. Effective addresses (O16): the checks of an access in the scratchpad and in global memory, in their order. -/

namespace Sys2Proof.Machine

/-- The upper word of the buffer descriptor of an access: 0 for an access that has none (R133). -/
def Env.descHigh (e : Env) (i : Index) (base : Src) : Nat :=
  match i, base with
  | .buffer _ _ _ _, .k r => (e.gr.kreg (r.toNat + 1)).toNat
  | _, _ => 0

/-- An access of w bytes at displacement d leaves the buffer of its descriptor (R134). -/
def Env.strays (e : Env) (i : Index) (base : Src) (d : Int) (w : Nat) : Bool :=
  match i with
  | .buffer _ _ _ _ => decide (d < 0) || decide ((fld (e.descHigh i base) 0 48 : Int) < d + w)
  | _ => false

section
variable (e : Env) (base : Src) (i : Index) (off : Int) (w al : Nat)

theorem eaOf_scratch : e.eaOf true base i off w al =
    let sa : Int := (e.src32 base).toNat + e.disp i off
    if sa < 0 ∨ (e.t.bytes : Int) < sa + w then .error { cause := 0x23, addr := (sa % 2 ^ 64).toNat }
    else if sa.toNat % al ≠ 0 then .error { cause := 0x24, addr := sa.toNat }
    else .ok { scratch := true, addr := sa.toNat, tag := 0, ro := false, xn := false } := rfl

theorem eaOf_global : e.eaOf false base i off w al =
    let p := (e.src64 base).toNat
    let va : Int := (fld p 0 56 : Int) + e.disp i off
    let at' : Nat := (va % 2 ^ 56).toNat + fld p 56 4 * 2 ^ 56
    if fld p 60 4 ≠ 0 then .error { cause := 0x20, addr := at' }
    else if e.strays i base (e.disp i off) w then .error { cause := 0x22, addr := at' }
    else if va < 0 ∨ 2 ^ 56 ≤ va then .error { cause := 0x20, addr := at' }
    else if va.toNat % al ≠ 0 then .error { cause := 0x24, addr := at' }
    else .ok { scratch := false, addr := va.toNat, tag := BitVec.ofNat 4 (fld p 56 4), ro := bitOf (e.descHigh i base) 63
               xn := bitOf (e.descHigh i base) 62 } := rfl

end

theorem bitOf_eq_testBit (x n : Nat) : bitOf x n = x.testBit n := by
  rw [Nat.testBit_eq_decide_div_mod_eq, bitOf, beq_eq_decide]

/-- The pointer's fields (R131): bits [63:60], of which the address is formed only when they are 0, the tag and bits [55:0]. -/
theorem pointer_fields (v : DWord) : fld v.toNat 60 4 = v.toNat / 2 ^ 60 ∧ fld v.toNat 0 56 = v.toNat % 2 ^ 56 ∧
    BitVec.ofNat 4 (fld v.toNat 56 4) = BitVec.ofNat 4 (v.toNat / 2 ^ 56) := by
  have hv := v.isLt
  refine ⟨?_, ?_, ?_⟩
  · rw [fld]
    omega
  · rw [fld, pow_zero, Nat.div_one]
  · apply BitVec.eq_of_toNat_eq
    rw [fld, BitVec.toNat_ofNat, BitVec.toNat_ofNat, Nat.mod_mod]

/-- The bounds of R134 as a proposition. -/
theorem strays_eq_false_iff (e : Env) (i : Index) (base : Src) (d : Int) (w : Nat) : e.strays i base d w = false ↔
    ((match i with | .buffer _ _ _ _ => True | _ => False) → 0 ≤ d ∧ d + w ≤ (e.descHigh i base % 2 ^ 48 : Nat)) := by
  cases i with
  | none => exact ⟨fun _ h => h.elim, fun _ => rfl⟩
  | scaled => exact ⟨fun _ h => h.elim, fun _ => rfl⟩
  | buffer b iw sg sc =>
    simp only [Env.strays, fld, pow_zero, Nat.div_one, Bool.or_eq_false_iff, decide_eq_false_iff_not, not_lt, forall_const]

theorem toNat_mod_eq_zero {x : Int} {al : Nat} (hx : 0 ≤ x) (h : x % al = 0) : x.toNat % al = 0 := by
  lift x to Nat using hx
  exact_mod_cast h

/-- Settles O16: the checks of `eaOf_scratch` and `eaOf_global`, each taken or passed in their order. -/
theorem effectiveAddresses : Obligations.EffectiveAddresses := by
  unfold Obligations.EffectiveAddresses
  intro e base i off w al p d va sa hi isBuffer inside
  obtain ⟨hreserved, hlow, htag⟩ := pointer_fields (e.src64 base)
  have hstrays : e.strays i base (e.disp i off) w = false ↔ inside := strays_eq_false_iff e i base d w
  have hglobal := eaOf_global e base i off w al
  simp only [hreserved, hlow, htag, bitOf_eq_testBit] at hglobal
  simp only [eaOf_scratch, hglobal]
  refine ⟨fun h0 hw hal _ => ?_, fun hout => ⟨_, if_pos hout⟩, fun h0 hw hal => ?_, fun hp h0 h56 hin hal _ => ?_, fun hbad => ?_,
    fun hp hout => ?_, fun hp h0 h56 hin hal => ?_⟩
  · rw [if_neg (by omega), if_neg (not_not.mpr (toNat_mod_eq_zero h0 hal))]
  · rw [if_neg (by omega), if_pos hal]
  · rw [if_neg (not_not.mpr hp), if_neg (Bool.eq_false_iff.mp (hstrays.mpr hin)), if_neg (by omega),
      if_neg (not_not.mpr (toNat_mod_eq_zero h0 hal))]
    rfl
  · by_cases hp : p / 2 ^ 60 = 0
    · obtain ⟨hin, hva⟩ := hbad.resolve_left (not_not.mpr hp)
      exact ⟨_, by rw [if_neg (not_not.mpr hp), if_neg (Bool.eq_false_iff.mp (hstrays.mpr hin)), if_pos hva]⟩
    · exact ⟨_, if_pos hp⟩
  · have hs : e.strays i base (e.disp i off) w = true := by
      rw [← Bool.not_eq_false]
      exact mt hstrays.mp hout
    exact ⟨_, by rw [if_neg (not_not.mpr hp), if_pos hs]⟩
  · exact ⟨_, by rw [if_neg (not_not.mpr hp), if_neg (Bool.eq_false_iff.mp (hstrays.mpr hin)), if_neg (by omega), if_pos hal]⟩

end Sys2Proof.Machine

/-! PROOF. Writes of a thread: what a write event leaves of the machine, and the bytes of memory and of a scratchpad after it. -/

namespace Sys2Proof.Machine

/-! ## Bytes of a number (R3) -/

@[simp] theorem natBytes_length : ∀ n x : Nat, (natBytes x n).length = n
  | 0, _ => rfl
  | n + 1, x => by rw [natBytes, List.length_cons, natBytes_length n]

theorem natBytes_bytesNat : ∀ l : List Byte, natBytes (bytesNat l) l.length = l
  | [] => rfl
  | b :: r => by
    have hb := b.isLt
    have hbyte : BitVec.ofNat 8 (bytesNat (b :: r)) = b := by
      apply BitVec.eq_of_toNat_eq
      rw [BitVec.toNat_ofNat, bytesNat]
      omega
    have hrest : bytesNat (b :: r) / 256 = bytesNat r := by
      rw [bytesNat]
      omega
    rw [List.length_cons, natBytes, hbyte, hrest, natBytes_bytesNat r]

/-! ## What a write leaves of the machine (R264) -/

theorem SameMachine.refl (s : State) : SameMachine s s := rfl
theorem SameMachine.trans {s t u : State} (h : SameMachine s t) (k : SameMachine t u) : SameMachine s u := Eq.trans k h
theorem SameMachine.symm {s t : State} (h : SameMachine s t) : SameMachine t s := Eq.symm h

theorem sameMachine_foldl {β : Type} {f : State → β → State} (hf : ∀ s x, SameMachine s (f s x)) :
    ∀ (l : List β) (s : State), SameMachine s (l.foldl f s)
  | [], s => SameMachine.refl s
  | x :: r, s => (hf s x).trans (sameMachine_foldl hf r (f s x))

/-- A change of one core that touches its copies of memory only. -/
theorem sameMachine_updCore (s : State) (c : Nat) {f : Core → Core} (hf : ∀ k, (f k).sansCopies = k.sansCopies) :
    SameMachine s (s.updCore c f) := by
  have hempty := (reads_updCore s c (f := fun k => { f k with l1 := [] }) hf fun _ _ hx => absurd hx List.not_mem_nil).machine
  have hdrop := (reads_updCore (s.updCore c f) c (f := fun k => { k with l1 := [] }) (fun _ => rfl)
    fun _ _ hx => absurd hx List.not_mem_nil).machine
  rw [State.updCore, State.updCore, updAt_updAt] at hdrop
  exact hempty.trans hdrop.symm

theorem sameMachine_writeEvent (s : State) (l : Leaf) (pa clock : Nat) : SameMachine s (s.writeEvent l pa clock).2 := rfl
theorem sameMachine_writeBytes (s : State) (pa : Nat) (d : List Byte) : SameMachine s (s.writeBytes pa d) := rfl
theorem sameMachine_setGtag (s : State) (g : Nat) (t : BitVec 4) : SameMachine s (s.setGtag g t) := rfl
theorem sameMachine_endRounds (s : State) (w : Writer) (pa n : Nat) : SameMachine s (s.endRounds w pa n) := rfl

theorem sameMachine_raiseAl (s old : State) (pa n : Nat) : SameMachine s (s.raiseAl old pa n) := by
  have hraised : ∀ l : List AlObject, (l.map fun o => if pa < o.obj + 8 ∧ o.obj < pa + n ∧ old.read8 o.obj < s.read8 o.obj then
      { o with raised := true } else o).map (fun o => { o with raised := false }) = l.map fun o => { o with raised := false } := by
    intro l
    rw [List.map_map]
    refine List.map_congr_left fun o _ => ?_
    dsimp only [Function.comp]
    split <;> rfl
  simp only [SameMachine, State.sansMemory, State.raiseAl, hraised]

theorem sameMachine_patchL1 (s : State) (c pa n t : Nat) : SameMachine s (s.patchL1 c pa n t) := sameMachine_updCore s c fun _ => rfl

theorem sameMachine_storeHome (s : State) (l : Leaf) (pa : Nat) (d : List Byte) (clock c : Nat) :
    SameMachine s (s.storeHome l pa d clock (some c)).2 :=
  (((sameMachine_writeEvent s l pa clock).trans (sameMachine_writeBytes _ pa d)).trans (sameMachine_raiseAl _ s pa d.length)).trans
    (sameMachine_patchL1 _ c pa d.length _)

theorem sameMachine_claim_note (s : State) (l : Leaf) (c ctx : Nat) (w : Bool) :
    SameMachine s ((s.claim l (some c)).note ctx l (some c) w) :=
  ((reads_claim s l c).trans (reads_note _ ctx l (some c) w)).machine

section
variable (s : State) (c team ctx : Nat) (l : Leaf) {pa : Nat} (d : List Byte) {whole : Nat} (clock : Nat)

theorem storeAt_home (hctl : inCtl pa = false) : (s.storeAt c team ctx l pa d whole clock).2 =
    (((s.claim l (some c)).note ctx l (some c) true).storeHome l pa d clock (some c)).2.endRounds (.thread c team) pa d.length := by
  simp only [State.storeAt, hctl, Bool.false_eq_true, if_false]

theorem storeAt_region (hctl : inCtl pa = true) : (s.storeAt c team ctx l pa d whole clock).2 =
    let s' := (((s.claim l (some c)).note ctx l (some c) true).writeEvent l pa clock).2
    if whole = 8 then ctlWrite s' false (pa - Config.ctlBase) (BitVec.ofNat 64 (bytesNat d)) else s' := by
  simp only [State.storeAt, hctl, if_true]

theorem sameMachine_storeAt (h : inCtl pa = false ∨ whole ≠ 8) : SameMachine s (s.storeAt c team ctx l pa d whole clock).2 := by
  have hnote := sameMachine_claim_note s l c ctx true
  cases hctl : inCtl pa with
  | false =>
    rw [storeAt_home s c team ctx l d clock hctl]
    exact (hnote.trans (sameMachine_storeHome _ l pa d clock c)).trans (sameMachine_endRounds _ _ _ _)
  | true =>
    rw [storeAt_region s c team ctx l d clock hctl]
    have hwhole := h.resolve_left (by simp [hctl])
    simp only [if_neg hwhole]
    exact hnote.trans (sameMachine_writeEvent _ l pa clock)

/-- Memory's bytes and tags after a write event (R131). -/
theorem storeAt_maps (hctl : inCtl pa = false) : (s.storeAt c team ctx l pa d whole clock).2.mem = amSetList 0 s.mem pa d ∧
    (s.storeAt c team ctx l pa d whole clock).2.gtags = s.gtags := by
  obtain ⟨hmem, hgtags⟩ := claim_mem s l (some c)
  obtain ⟨nmem, ngtags⟩ := note_mem (s.claim l (some c)) ctx l (some c) true
  obtain ⟨smem, sgtags⟩ := storeHome_mem ((s.claim l (some c)).note ctx l (some c) true) l pa d clock (some c)
  rw [storeAt_home s c team ctx l d clock hctl]
  exact ⟨smem.trans (by rw [nmem, hmem]), (sgtags.trans ngtags).trans hgtags⟩

end

/-! ## The bytes after a write -/

theorem gtag_congr {s s' : State} (h : s'.gtags = s.gtags) (x : Nat) : s'.gtag x = s.gtag x := by
  simp only [State.gtag, h]

theorem stored_of_maps {s s' : State} {pa : Nat} {d : List Byte} (h : SameMachine s s') (hmem : s'.mem = amSetList 0 s.mem pa d)
    (hgtags : s'.gtags = s.gtags) (hwf : Memory.wf s = true) : Stored s s' pa d := by
  refine ⟨h, wf_of ?_ ?_, fun x => ?_, gtag_congr hgtags⟩
  · rw [hmem]
    exact amSetList_wf (Nat.zero_le pa) d (wf_mem hwf)
  · rw [hgtags]
    exact wf_gtags hwf
  · rw [State.readByte, hmem]
    exact amGet_amSetList pa d x (wf_mem hwf)

theorem stored_storeAt {s : State} {pa : Nat} (hctl : inCtl pa = false) (hwf : Memory.wf s = true) (c team ctx : Nat) (l : Leaf)
    (d : List Byte) (whole clock : Nat) : Stored s (s.storeAt c team ctx l pa d whole clock).2 pa d := by
  obtain ⟨hmem, hgtags⟩ := storeAt_maps s c team ctx l d (whole := whole) clock hctl
  exact stored_of_maps (sameMachine_storeAt s c team ctx l d clock (.inl hctl)) hmem hgtags hwf

/-- Of a team, a write of its scratchpad changes the bytes, which of them are destroyed, and the stamps of lines. -/
theorem scratchWrite_lines (t : Team) (ls : List (Nat × Line)) (o : Nat) (d : List Byte) :
    ({ t with lines := ls } : Team).scratchWrite o d = { t.scratchWrite o d with lines := ls } := rfl

theorem healed_scratchWrite (t : Team) (o : Nat) (d : List Byte) : Healed t (t.scratchWrite o d) o d.length := by
  intro i
  simp only [Team.scratchWrite, List.mem_filter, Bool.or_eq_true, decide_eq_true_eq]

theorem scratchWrite_wf {t : Team} (h : amWf 0 0 t.scratch = true) (o : Nat) (d : List Byte) :
    amWf 0 0 (t.scratchWrite o d).scratch = true := amSetList_wf (Nat.zero_le o) d h

theorem amGet_scratchWrite {t : Team} (h : amWf 0 0 t.scratch = true) (o : Nat) (d : List Byte) (x : Nat) :
    amGet 0 (t.scratchWrite o d).scratch x = if o ≤ x ∧ x < o + d.length then d.getD (x - o) 0 else amGet 0 t.scratch x :=
  amGet_amSetList o d x h

end Sys2Proof.Machine

/-! PROOF. Atomics (O19): one read and write of a word in either space, and the new value at the width of its type. -/

namespace Sys2Proof.Machine

/-! ## One read and write of a word (R138, R151) -/

section
variable {e : Env} {a : Ea} {n : Nat} {f : Nat → Option Nat} {s : State}

theorem rmw_scratch {t : Team} (ha : a.scratch = true) (ht : s.team? e.b.core e.b.team = some t) : ∃ ls k,
    (∀ v, f (bytesNat (t.scratchRead a.addr n)) = some v → e.rmw a n f s = (bytesNat (t.scratchRead a.addr n), k,
      s.updTeam e.b.core e.b.team fun _ => { t.scratchWrite a.addr (natBytes v n) with lines := ls })) ∧
    (f (bytesNat (t.scratchRead a.addr n)) = none → e.rmw a n f s = (bytesNat (t.scratchRead a.addr n), k,
      s.updTeam e.b.core e.b.team fun _ => { t with lines := ls })) := by
  obtain ⟨ls, hls⟩ := scratchEvent_lines t a.addr n e.th.clock true
  refine ⟨ls, (t.scratchEvent a.addr n e.th.clock true).1, fun v hv => ?_, fun hv => ?_⟩
  · simp only [Env.rmw, ha, ht, hls, hv, scratchWrite_lines, if_true]
  · simp only [Env.rmw, ha, ht, hls, hv, if_true]

theorem rmw_global {l : Leaf} (ha : a.scratch = false) (hl : s.hitLeaf e.b.core e.t.ctx a.addr = some l)
    (hctl : inCtl (l.phys a.addr) = false) : e.rmw a n f s =
      let old := bytesNat (s.readBytes (l.phys a.addr) n)
      let x := s.storeAt e.b.core e.b.team e.t.ctx l (l.phys a.addr) (natBytes ((f old).getD old) n) n e.th.clock
      (old, x.1, x.2) := by
  simp only [Env.rmw, ha, hl, hctl, Bool.false_eq_true, if_false]

/-- The control region takes no atomic, and one without a translation does nothing. -/
theorem rmw_nothing (ha : a.scratch = false) (h : ∀ l, s.hitLeaf e.b.core e.t.ctx a.addr = some l → inCtl (l.phys a.addr) = true) :
    e.rmw a n f s = (0, e.th.clock, s) := by
  simp only [Env.rmw, ha, Bool.false_eq_true, if_false]
  cases hl : s.hitLeaf e.b.core e.t.ctx a.addr with
  | none => rfl
  | some l => simp only [h l hl, if_true]

end

/-- r is what one read and write of a lane comes to: the word changes as R151 says, its team goes on as before, and no cycle passes. -/
def RmwStep (a : Ea) (n : Nat) (f : Nat → Option Nat) (e : Env) (s : State) (t : Team) (r : Nat × Nat × State) : Prop :=
  Changes a n f r.1 e s r.2.2 ∧ r.2.2.cycle = s.cycle ∧ ∃ t', r.2.2.team? e.b.core e.b.team = some t' ∧ t'.halt = t.halt

section
variable {e : Env} {a : Ea} {n : Nat} {s : State} {t : Team} (ht : s.team? e.b.core e.b.team = some t)
include ht

theorem rmwStep_scratch (f : Nat → Option Nat) (ha : a.scratch = true) : RmwStep a n f e s t (e.rmw a n f s) := by
  obtain ⟨ls, k, hsome, hnone⟩ := rmw_scratch (n := n) (f := f) ha ht
  have hid : t.id = e.b.team := team?_id ht
  cases hf : f (bytesNat (t.scratchRead a.addr n)) with
  | some v =>
    have hlen : (natBytes v n).length = n := natBytes_length n v
    have hheal := healed_scratchWrite t a.addr (natBytes v n)
    rw [hlen] at hheal
    rw [hsome v hf]
    refine ⟨?_, rfl, _, updTeam_team? ht fun _ _ => hid, rfl⟩
    simp only [Changes, ha, if_true]
    intro t0 ht0 hwf
    obtain rfl : t = t0 := Option.some.inj (ht.symm.trans ht0)
    refine ⟨rfl, _, ⟨rfl, rfl⟩, scratchWrite_wf hwf _ _, fun i hi => (hheal i).trans (and_iff_left hi), fun _ => hheal, fun x => ?_⟩
    rw [hf, Option.getD_some, amGet_scratchWrite hwf, hlen]
  | none =>
    rw [hnone hf]
    refine ⟨?_, rfl, _, updTeam_team? ht fun _ _ => hid, rfl⟩
    simp only [Changes, ha, if_true]
    intro t0 ht0 hwf
    obtain rfl : t = t0 := Option.some.inj (ht.symm.trans ht0)
    refine ⟨rfl, _, ⟨rfl, rfl⟩, hwf, fun i _ => Iff.rfl, fun h => absurd h (by rw [hf]; exact Bool.false_ne_true), fun x => ?_⟩
    have hold := natBytes_bytesNat (t.scratchRead a.addr n)
    rw [Team.scratchRead, amGetList_length] at hold
    rw [hf, Option.getD_none, Team.scratchRead, hold]
    split
    · next hx => rw [amGetList_getD _ _ _ _ _ (by omega), Nat.add_sub_cancel' hx.1]
    · rfl

theorem rmwStep_global (f : Nat → Option Nat) (hn : 0 < n) (ha : a.scratch = false) : RmwStep a n f e s t (e.rmw a n f s) := by
  by_cases h : ∃ l, s.hitLeaf e.b.core e.t.ctx a.addr = some l ∧ inCtl (l.phys a.addr) = false
  · obtain ⟨l, hl, hctl⟩ := h
    rw [rmw_global ha hl hctl]
    have hsame := sameMachine_storeAt s e.b.core e.b.team e.t.ctx l
      (natBytes ((f (bytesNat (s.readBytes (l.phys a.addr) n))).getD (bytesNat (s.readBytes (l.phys a.addr) n))) n) (whole := n)
      e.th.clock (.inl hctl)
    refine ⟨?_, hsame.cycle, t, (hsame.team? ..).trans ht, rfl⟩
    simp only [Changes, ha, Bool.false_eq_true, if_false]
    intro l' hl' hplain hwf
    obtain rfl : l = l' := Option.some.inj (hl.symm.trans hl')
    exact ⟨rfl, stored_storeAt hctl hwf _ _ _ _ _ _ _⟩
  · have hregion : ∀ l, s.hitLeaf e.b.core e.t.ctx a.addr = some l → inCtl (l.phys a.addr) = true := fun l hl => by
      by_contra hctl
      exact h ⟨l, hl, Bool.eq_false_iff.mpr hctl⟩
    rw [rmw_nothing ha hregion]
    refine ⟨?_, rfl, t, ht, rfl⟩
    simp only [Changes, ha, Bool.false_eq_true, if_false]
    intro l hl hplain
    exact absurd (hregion l hl) (Bool.eq_false_iff.mp (hplain 0 hn))

theorem rmwStep_rmw (f : Nat → Option Nat) (hn : 0 < n) : RmwStep a n f e s t (e.rmw a n f s) := by
  cases ha : a.scratch with
  | true => exact rmwStep_scratch ht f ha
  | false => exact rmwStep_global ht f hn ha

end

/-- What an atomic does: its bundle acts lane by lane, each lane with one read and write of its word. -/
theorem acts_atom {i : Instr} {h : Hdr} {op : Aop} {ty : IntTy} {d : BitVec 8} {m : MemArg10} {ret : Bool}
    (hx : ∀ s, exec i s = .next (runBundle h (atomSem h op ty d m ret) s)) :
    Acts i h { reads := memNames10 m ++ atomNames op ty d, dests := if ret then dstTy ty d else [] }
      (fun e s s' o => ∀ a, e.ea10 m (ty.width / 8) = .ok a →
        ∃ v, Changes a (ty.width / 8) (fun x => atomNew op ty (BitVec.ofNat 64 x) (e.atomV ty d) (e.atomSwp op ty d)) v e s s' ∧
          o = { writes := if ret then writeTy ty d (BitVec.ofNat 64 v) else [], clock := o.clock })
      fun e => ∃ a, e.ea10 m (ty.width / 8) = .ok a ∧ e.mayAccess a (ty.width / 8) atomMode := by
  refine acts_of_run hx rfl rfl rfl rfl rfl ?_ (fun _ _ => rfl) ?_
  · rintro e ⟨a, hea, hmay⟩
    refine ⟨rfl, ?_⟩
    show e.chkAccess (e.ea10 m (ty.width / 8)) (ty.width / 8) atomMode = .ok
    rw [hea, chkAccess_ok hmay]
  · rintro e s t ⟨a, hea, hmay⟩ ht -
    have hn : 0 < ty.width / 8 := by cases ty <;> decide
    obtain ⟨hchanges, hcycle, hteam⟩ := rmwStep_rmw (a := a) ht
      (fun x => atomNew op ty (BitVec.ofNat 64 x) (e.atomV ty d) (e.atomSwp op ty d)) hn
    simp only [atomSem, hea, hmay.1, window_none_of_mayAccess hmay]
    exact ⟨fun a' ha' => by cases ha'; exact ⟨_, hchanges, rfl⟩, trivial, trivial, hcycle, hteam⟩

theorem exec_atom (h : Hdr) (op : Aop) (ty : IntTy) (d : BitVec 8) (m : MemArg10) (s : State) :
    exec (.atom h op ty d m) s = .next (runBundle h (atomSem h op ty d m true) s) := rfl
theorem exec_red (h : Hdr) (op : Aop) (ty : IntTy) (d : BitVec 8) (m : MemArg10) (s : State) :
    exec (.red h op ty d m) s = .next (runBundle h (atomSem h op ty d m false) s) := rfl

/-! ## The new value (R151, R152) -/

theorem toNat_truncate_wide (ty : IntTy) (x : DWord) :
    (x.truncate (if ty.wide then 64 else 32)).toNat = x.toNat % 2 ^ ty.width := by
  rw [BitVec.truncate_eq_setWidth, BitVec.toNat_setWidth, width_eq]

theorem tyVal_eq (ty : IntTy) (x : DWord) : tyVal ty x = intOf ty.signed (x.truncate (if ty.wide then 64 else 32)) := by
  rw [tyVal, valOf_eq, width_eq, intOf, BitVec.ofNat_toNat]

theorem toNat_add_width (ty : IntTy) (x y : DWord) : (x + y).toNat % 2 ^ ty.width = (x.toNat + y.toNat) % 2 ^ ty.width := by
  have hdvd : 2 ^ ty.width ∣ 2 ^ 64 := pow_dvd_pow 2 (by cases ty <;> decide)
  rw [BitVec.toNat_add, Nat.mod_mod_of_dvd _ hdvd]

/-- Settles O19: both words are bundles of `atomSem` (`acts_atom`), and each operation's number modulo 2^w is the bit vector's. -/
theorem atomics : Obligations.Atomics := by
  unfold Obligations.Atomics
  refine ⟨fun h op ty d m => ?_, fun ty old v swp => ?_⟩
  · have hatom := acts_atom (exec_atom h op ty d m)
    have hred := acts_atom (exec_red h op ty d m)
    simp only [width_eight, writeTy_ofNat] at hatom hred
    exact ⟨hatom, hred⟩
  · simp only [atomNew, tyVal_eq, ← BitVec.toNat_inj, toNat_truncate_wide, toNat_add_width]
    refine ⟨trivial, trivial, trivial, trivial, trivial, ?_, ?_, trivial⟩
    · rw [apply_ite BitVec.toNat]
    · rw [apply_ite BitVec.toNat]

end Sys2Proof.Machine

/-! PROOF. Writes of the package control region: every team stays on its core, and one that such a write halts has counted no skid. -/

namespace Sys2Proof.Machine

/-! ## Teams that stay -/

/-- No bundle of the team has counted as skid: it runs, or its halt has just begun (R169). -/
def Team.Unskidded (t : Team) : Prop := ∀ h, t.halt = some h → ∀ n ∈ h.skids, n = 0

theorem unskidded_of_running {t : Team} (h : t.halt = none) : t.Unskidded := fun _ hh => nomatch h.symm.trans hh
theorem unskidded_of_halt {t : Team} {h : Halt} (hh : t.halt = some h) (hs : ∀ n ∈ h.skids, n = 0) : t.Unskidded :=
  fun _ hx => by cases hh.symm.trans hx; exact hs
theorem unskidded_congr {t t' : Team} (h : t'.halt = t.halt) (hu : t.Unskidded) : t'.Unskidded := fun x hx => hu x (h.symm.trans hx)
theorem unskidded_quitGroup {t : Team} (hu : t.Unskidded) (g : Nat) : (t.quitGroup g).Unskidded := by
  intro h hh
  obtain ⟨x, hx, rfl⟩ := Option.map_eq_some_iff.mp hh
  exact hu x hx
theorem skidList_zero (t : Team) : ∀ n ∈ skidList t, n = 0 := by
  intro n hn
  obtain ⟨_, -, rfl⟩ := List.mem_map.mp hn
  rfl

/-- A team that l finds by its number, without a skid, l' finds too, still without one. -/
def TeamsStay (l l' : List Team) : Prop :=
  ∀ id t, l.find? (fun t => t.id == id) = some t → t.Unskidded → ∃ t', l'.find? (fun t => t.id == id) = some t' ∧ t'.Unskidded

theorem TeamsStay.refl (l : List Team) : TeamsStay l l := fun _ t ht hu => ⟨t, ht, hu⟩
theorem TeamsStay.trans {l l' l'' : List Team} (h : TeamsStay l l') (k : TeamsStay l' l'') : TeamsStay l l'' := fun id t ht hu =>
  let ⟨t', ht', hu'⟩ := h id t ht hu
  k id t' ht' hu'
theorem teamsStay_append (l r : List Team) : TeamsStay l (l ++ r) := fun id t ht hu =>
  ⟨t, by rw [List.find?_append, ht, Option.some_or], hu⟩
theorem teamsStay_map {f : Team → Team} (hid : ∀ t, (f t).id = t.id) (hf : ∀ t, t.Unskidded → (f t).Unskidded) (l : List Team) :
    TeamsStay l (l.map f) := fun id t ht hu =>
  ⟨f t, by simp only [List.find?_map, Function.comp_def, hid, ht, Option.map_some], hf t hu⟩
theorem teamsStay_map_ite {f : Team → Team} {p : Team → Prop} [DecidablePred p] (hid : ∀ t, (f t).id = t.id)
    (hf : ∀ t, t.Unskidded → (f t).Unskidded) (l : List Team) : TeamsStay l (l.map fun t => if p t then f t else t) := by
  refine teamsStay_map (fun t => ?_) (fun t hu => ?_) l
  · split
    · exact hid t
    · rfl
  · split
    · exact hf t hu
    · exact hu

/-- From s to s' no cycle passes, and on every core the teams stay. -/
def Stands (s s' : State) : Prop := s'.cycle = s.cycle ∧ ∀ c, TeamsStay (s.core c).teams (s'.core c).teams

theorem Stands.refl (s : State) : Stands s s := ⟨rfl, fun _ => TeamsStay.refl _⟩
theorem Stands.trans {s t u : State} (h : Stands s t) (k : Stands t u) : Stands s u :=
  ⟨k.1.trans h.1, fun c => (h.2 c).trans (k.2 c)⟩
theorem stands_foldl {β : Type} {f : State → β → State} (hf : ∀ s x, Stands s (f s x)) :
    ∀ (l : List β) (s : State), Stands s (l.foldl f s)
  | [], s => Stands.refl s
  | x :: r, s => (hf s x).trans (stands_foldl hf r (f s x))

theorem stands_of_cores {s s' : State} (hcycle : s'.cycle = s.cycle) (hcores : s'.cores = s.cores) : Stands s s' :=
  ⟨hcycle, fun c => by rw [State.core, State.core, hcores]; exact TeamsStay.refl _⟩
/-- The same, after a change that leaves the cores alone. -/
theorem Stands.after {s t u : State} (h : Stands t u) (hcycle : t.cycle = s.cycle) (hcores : t.cores = s.cores) : Stands s u :=
  (stands_of_cores hcycle hcores).trans h
theorem SameMachine.stands {s s' : State} (h : SameMachine s s') : Stands s s' := by
  refine ⟨h.cycle, fun c => ?_⟩
  have hteams : (s'.core c).teams = (s.core c).teams := (congrArg Core.teams (h.core c) :)
  rw [hteams]
  exact TeamsStay.refl _
theorem stands_updCore (s : State) (c : Nat) {f : Core → Core} (hf : ∀ k, TeamsStay k.teams (f k).teams) :
    Stands s (s.updCore c f) := by
  refine ⟨rfl, fun d => ?_⟩
  simp only [State.core, State.updCore, List.getD_eq_getElem?_getD, updAt_getElem?]
  split
  · cases s.cores[d]? with
    | none => exact TeamsStay.refl _
    | some k => exact hf k
  · exact TeamsStay.refl _
/-- A change of a core that touches none of its teams. -/
theorem stands_updCore_same (s : State) (c : Nat) {f : Core → Core} (hf : ∀ k, (f k).teams = k.teams) :
    Stands s (s.updCore c f) :=
  stands_updCore s c fun k => by rw [hf]; exact TeamsStay.refl _
theorem stands_of_updCore {s s' : State} {c : Nat} {f : Core → Core} (hcycle : s'.cycle = s.cycle) (hcores : s'.cores = updAt s.cores c f)
    (hf : ∀ k, (f k).teams = k.teams) : Stands s s' :=
  (stands_updCore_same s c hf).trans (stands_of_cores hcycle hcores)
/-- A change of all cores that touches none of their teams. -/
theorem stands_of_mapCores {s s' : State} {f : Core → Core} (hcycle : s'.cycle = s.cycle) (hcores : s'.cores = s.cores.map f)
    (hf : ∀ k, (f k).teams = k.teams) : Stands s s' := by
  refine ⟨hcycle, fun c => ?_⟩
  simp only [State.core, hcores, List.getD_eq_getElem?_getD, List.getElem?_map]
  cases s.cores[c]? with
  | none => exact TeamsStay.refl _
  | some k =>
    rw [Option.map_some, Option.getD_some, Option.getD_some, hf]
    exact TeamsStay.refl _
theorem stands_updTeam (s : State) (c id : Nat) {f : Team → Team} (hid : ∀ t, (f t).id = t.id)
    (hf : ∀ t, t.Unskidded → (f t).Unskidded) : Stands s (s.updTeam c id f) :=
  stands_updCore s c fun k => teamsStay_map_ite hid hf k.teams
theorem stands_updNamed (s : State) (c ctx vtid : Nat) {f : Team → Team} (hid : ∀ t, (f t).id = t.id)
    (hf : ∀ t, t.Unskidded → (f t).Unskidded) : Stands s (s.updNamed c ctx vtid f) :=
  (stands_updCore s c (f := fun k => { k with teams := k.teams.map fun t => if t.isNamed ctx vtid then f t else t })
    fun k => teamsStay_map_ite hid hf k.teams).trans (stands_of_cores rfl rfl)
theorem stands_ite {p : Prop} [Decidable p] {s a b : State} (ha : Stands s a) (hb : Stands s b) : Stands s (if p then a else b) := by
  split
  · exact ha
  · exact hb

/-! ## Stops by software (R320) -/

theorem stands_stopGroup (s : State) (c id g : Nat) : Stands s (s.stopGroup c id g) :=
  ((stands_updTeam s c id (f := fun t => t.quitGroup g) (fun _ => rfl) fun _ hu => unskidded_quitGroup hu g).trans
    (stands_updCore_same _ c (f := fun k => { k with banks := k.banks.map fun b => { b with grow := b.grow.filter fun x => x != id } })
      fun _ => rfl)).trans
    (stands_of_cores rfl rfl)

theorem stands_stopOps (s : State) (c : Nat) (p : MatOp → Bool) : Stands s (s.stopOps c p) :=
  stands_of_updCore (c := c) (f := fun k => { k with ops := k.ops.map fun o => if p o then o.stop s.cycle else o }) rfl rfl fun _ => rfl

theorem stands_haltTeam (s : State) (c id : Nat) {h : Halt} (hs : ∀ n ∈ h.skids, n = 0) (now : List Nat) :
    Stands s (s.haltTeam c id h now) := by
  have hstops := (stands_updTeam s c id (f := fun t => { t with halt := some h }) (fun _ => rfl) fun _ _ => unskidded_of_halt rfl hs).trans
    (stands_foldl (fun s g => stands_stopGroup s c id g) now _)
  unfold State.haltTeam
  dsimp only
  split
  · exact hstops.trans ((stands_stopOps _ c _).trans (stands_of_cores rfl rfl))
  · exact hstops

theorem stands_haltSpilled (s : State) (c : Nat) (t : Team) {h : Halt} (hs : ∀ n ∈ h.skids, n = 0) : Stands s (s.haltSpilled c t h) :=
  (stands_updNamed s c t.ctx t.vtid (f := fun t => { t with halt := some h, groups := t.groups.map Group.quit, carve := none })
    (fun _ => rfl) fun _ _ => unskidded_of_halt rfl hs).trans (stands_of_cores rfl rfl)

theorem stands_stopTeam (s : State) (c id cause : Nat) (atOnce : Bool) : Stands s (s.stopTeam c id cause atOnce) := by
  unfold State.stopTeam
  split
  · exact Stands.refl s
  · next t _ =>
    split
    · exact Stands.refl s
    · exact stands_haltTeam s c id (skidList_zero t) _

theorem stands_teamStop (s : State) (c ctx vtid : Nat) : Stands s (s.teamStop c ctx vtid) := by
  unfold State.teamStop State.stopSpilled
  split
  · next t _ =>
    exact stands_ite (stands_ite (Stands.refl s) (stands_haltSpilled s c t (skidList_zero t))) (stands_stopTeam s c t.id 0xA5 false)
  · exact Stands.refl s

theorem stands_matrixCancel (s : State) (c ctx vtid g l tag : Nat) : Stands s (s.matrixCancel c ctx vtid g l tag) := by
  unfold State.matrixCancel
  split
  · exact Stands.refl s
  · exact stands_ite (Stands.refl s) (stands_of_updCore rfl rfl fun _ => rfl)

/-! ## Accesses by the device (R260, R264, R302) -/

theorem sameMachine_claim (s : State) (l : Leaf) (agent : Option Nat) : SameMachine s (s.claim l agent) := by
  cases agent with
  | some c => exact (reads_claim s l c).machine
  | none =>
    unfold State.claim
    split
    · cases s.pageAt l.pa with
      | none => exact ((reads_updPage s l id).trans (reads_demote _ _)).machine
      | some p =>
        dsimp only
        split
        · exact SameMachine.refl s
        · exact (reads_demote s p).machine
    · exact SameMachine.refl s

theorem stands_dropUnit (s : State) (l : Leaf) (u : Nat) : Stands s (s.dropUnit l u) :=
  (stands_foldl (fun s c => stands_updCore_same s c (f := fun k => k.dropL1 u l.grain) fun _ => rfl)
    (holdersOf s u l.grain) s).trans (stands_of_cores rfl rfl)

theorem sameMachine_writeUnits (s : State) (l : Leaf) (clock : Nat) (us : List Nat) : SameMachine s (s.writeUnits l clock us).2 :=
  sameMachine_foldl (fun s u => sameMachine_writeEvent s l u _) us s

theorem sameMachine_physWrite (s : State) (pa : Nat) (d : List Byte) (clock : Nat) : SameMachine s (s.physWrite pa d clock).2 := by
  unfold State.physWrite
  dsimp only
  split
  · exact SameMachine.refl s
  · exact (((sameMachine_claim s _ none).trans (sameMachine_writeUnits _ _ clock _)).trans (sameMachine_writeBytes _ pa _)).trans
      (sameMachine_raiseAl _ s pa _)

theorem stands_physPutAll (s : State) (pa : Nat) (d : List Byte) (clock : Nat) : Stands s (s.physPutAll pa d clock) :=
  stands_foldl (fun s _ => (stands_foldl (fun s u => stands_dropUnit s _ u) _ s).trans (sameMachine_physWrite _ _ _ clock).stands) _ s

theorem stands_physBytes (s : State) (pa n : Nat) : Stands s (s.physBytes pa n).2 := by
  unfold State.physBytes
  split
  · exact Stands.refl s
  · exact stands_of_cores rfl rfl

theorem stands_schedRead {s s' : State} {desc ptr clock v k : Nat} {sup : Bool} (h : s.schedRead desc ptr clock sup = .ok (v, k, s')) :
    Stands s s' := by
  unfold State.schedRead at h
  dsimp only at h
  split_ifs at h
  split at h
  · cases h
  · cases h
  · split_ifs at h
    cases h
    exact ((sameMachine_claim s _ none).trans (reads_readEvent _ _ _ _).machine).stands

/-! ## The parts of the region (R302, R303, R329, R341, R353, R369) -/

theorem stands_contextCreate (s : State) (i : Nat) : Stands s (s.contextCreate i) := by
  unfold State.contextCreate
  dsimp only
  split
  · exact Stands.refl s
  · have htable : Stands s (if (s.ctxAt i).xword = 0 then (([], s) : List Byte × State)
        else s.physBytes (fld (s.ctxAt i).xword.toNat 6 38 * 64) 64).2 := by
      split
      · exact Stands.refl s
      · exact stands_physBytes s _ _
    exact htable.trans (stands_of_mapCores rfl rfl fun _ => rfl)

theorem stands_contextRetire (s : State) (i : Nat) : Stands s (s.contextRetire i) := stands_ite (Stands.refl s) (stands_of_cores rfl rfl)

theorem stands_ctxWrite (s : State) (o : Nat) (w : DWord) : Stands s (ctxWrite s o w) := by
  unfold ctxWrite
  dsimp only
  split
  · exact stands_ite (stands_contextRetire s _) (Stands.refl s)
  · split
    · exact stands_ite ((stands_contextCreate _ _).after rfl rfl) (stands_of_cores rfl rfl)
    all_goals exact stands_of_cores rfl rfl

theorem stands_shareWrite (s : State) (i : Nat) (v : DWord) : Stands s (s.shareWrite i v) :=
  stands_ite (Stands.refl s) (stands_of_cores rfl rfl)

theorem stands_queueOpened (s : State) (i j : Nat) : Stands s (s.queueOpened i j) := by
  unfold State.queueOpened
  dsimp only
  refine stands_ite (stands_of_cores rfl rfl) ?_
  split
  · next n t s1 hread => exact (stands_schedRead hread).trans (stands_of_cores rfl rfl)
  · exact stands_of_cores rfl rfl

theorem stands_queueWrite (s : State) (o : Nat) (w : DWord) : Stands s (queueWrite s o w) := by
  unfold queueWrite State.queueOpen
  dsimp only
  refine stands_ite (Stands.refl s) ?_
  split
  · exact stands_ite (Stands.refl s) (stands_ite ((stands_queueOpened _ _ _).after rfl rfl) (stands_of_cores rfl rfl))
  all_goals exact stands_of_cores rfl rfl

theorem stands_classWrite (s : State) (p o : Nat) (w : DWord) : Stands s (s.classWrite p o w) :=
  stands_ite (Stands.refl s) (stands_of_cores rfl rfl)

theorem stands_watchWrite (s : State) (o : Nat) (v : DWord) : Stands s (watchWrite s o v) := by
  unfold watchWrite
  dsimp only
  split
  · exact stands_of_cores rfl rfl
  · exact stands_ite (Stands.refl s) (stands_of_cores rfl rfl)
  · exact stands_ite (Stands.refl s) (stands_of_cores rfl rfl)
  · exact Stands.refl s

theorem stands_fabWinWrite (s : State) (o : Nat) (w : DWord) : Stands s (fabWinWrite s o w) := by
  unfold fabWinWrite
  dsimp only
  refine stands_ite (stands_ite (stands_ite (Stands.refl s) (stands_of_cores rfl rfl)) (stands_ite ?_ (stands_of_cores rfl rfl)))
    (stands_ite (Stands.refl s) ?_)
  · exact stands_ite (stands_of_cores rfl rfl) (stands_of_cores rfl rfl)
  · split <;> exact stands_of_cores rfl rfl

theorem stands_redWrite (s : State) (o : Nat) (w : DWord) : Stands s (redWrite s o w) := by
  unfold redWrite
  dsimp only
  refine stands_ite (stands_ite (stands_ite (Stands.refl s) (stands_of_cores rfl rfl)) (stands_ite (stands_of_cores rfl rfl) (stands_of_cores rfl rfl)))
    (stands_ite (Stands.refl s) ?_)
  split <;> exact stands_of_cores rfl rfl

theorem stands_fabCtlWrite (s : State) (o : Nat) (w : DWord) : Stands s (fabCtlWrite s o w) := by
  unfold fabCtlWrite
  split
  · exact stands_ite (stands_of_cores rfl rfl) (Stands.refl s)
  · exact stands_of_cores rfl rfl
  · exact Stands.refl s

/-! ### The restart report -/

theorem stands_dataRestore (s : State) (k pa : Nat) : Stands s (s.dataRestore k pa) := by
  unfold State.dataRestore
  split
  · exact stands_ite (stands_of_cores rfl rfl) (Stands.refl s)
  · refine stands_ite (stands_of_cores rfl rfl) ?_
    refine (stands_ite (Stands.refl s) ?_).trans (stands_of_cores rfl rfl)
    exact (stands_physPutAll s pa _ 0).trans (stands_of_cores rfl rfl)

theorem stands_joinTeam (s : State) (c : Nat) (t : Team) : Stands s (s.joinTeam c t) :=
  stands_updCore s c fun k => teamsStay_append k.teams [t]

theorem stands_openCluster (s : State) (grid cl : Nat) (cores : List Nat) (pool : Nat) : Stands s (s.openCluster grid cl cores pool) :=
  stands_ite (stands_of_cores rfl rfl) (stands_of_cores rfl rfl)

theorem stands_teamRestore (s : State) (k cls desc : Nat) : Stands s (s.teamRestore k cls desc) := by
  refine Stands.after (t := s.pruneClusters) ?_ rfl rfl
  unfold State.teamRestore
  extract_lets s0 saved
  show Stands s0 _
  split
  · next sv hidx _ _ =>
    split
    · exact stands_of_cores rfl rfl
    · next c b _ =>
      extract_lets core slots tiles h ren old t0 t s1 s2 s3 base s4 s5
      refine stands_ite (stands_of_cores rfl rfl) ?_
      have hjoin : Stands s0 s1 := ((stands_joinTeam _ c t).after rfl rfl).trans (stands_openCluster _ _ _ _ _)
      have hbank : Stands s2 s3 := stands_of_updCore rfl rfl fun _ => rfl
      have hseat : Stands s1 s3 := hbank.after rfl rfl
      have hput : Stands s3 s4 := (stands_physPutAll _ _ _ _).after rfl rfl
      exact ((hjoin.trans hseat).trans hput).trans (stands_of_cores rfl rfl)
  · exact stands_ite (stands_of_cores rfl rfl) (Stands.refl s0)

theorem stands_reportWrite (s : State) (o : Nat) (w : DWord) : Stands s (reportWrite s o w) := by
  unfold reportWrite
  split
  · exact stands_dataRestore s _ _
  · exact stands_teamRestore s _ _ _
  · exact stands_ite (stands_of_cores rfl rfl) (Stands.refl s)
  · exact Stands.refl s

/-! ### The core control window -/

theorem stands_barrierWrite (s : State) (c e : Nat) (v : DWord) : Stands s (s.barCount c e v) ∧ Stands s (s.barKey c e v) ∧
    Stands s (s.barFill c e) ∧ Stands s (s.barFree c e) :=
  ⟨stands_ite (Stands.refl s) (stands_updCore_same s c fun _ => rfl), stands_ite (Stands.refl s) (stands_updCore_same s c fun _ => rfl),
    stands_ite (stands_updCore_same s c fun _ => rfl) (Stands.refl s), stands_ite (stands_updCore_same s c fun _ => rfl) (Stands.refl s)⟩

theorem stands_coreMode (s : State) (c : Nat) (v : DWord) : Stands s (s.coreMode c v) :=
  stands_ite (stands_updCore_same s c fun _ => rfl) (Stands.refl s)

theorem stands_engineRestart (s : State) (c ec : Nat) : Stands s (s.engineRestart c ec) := by
  unfold State.engineRestart
  split
  · exact stands_ite (Stands.refl s) (stands_updCore_same s c fun _ => rfl)
  · exact Stands.refl s

theorem stands_engineCancel (s : State) (c ec : Nat) : Stands s (s.engineCancel c ec) := by
  unfold State.engineCancel
  split
  · refine Stands.after (t := s.dropEngineRounds c ec) ?_ rfl rfl
    exact stands_of_updCore rfl rfl fun _ => rfl
  · exact Stands.refl s

theorem stands_windowWrite (s : State) (c o : Nat) (v : DWord) : Stands s (windowWrite s c o v) := by
  obtain ⟨hcount, hkey, hfill, hfree⟩ := stands_barrierWrite s c (o / 16) v
  have hengine := stands_ite (p := v.toNat = 1) (stands_engineRestart s c ((o - 0x800) / 32))
    (stands_ite (p := v.toNat = 2) (stands_engineCancel s c ((o - 0x800) / 32)) (Stands.refl s))
  have hspill : Stands s (s.spillMask c ((o - 0x400) / 16) v) := stands_updTeam s c _ (fun _ => rfl) fun _ hu => hu
  exact stands_ite (stands_ite hcount (stands_ite hfill (stands_ite hfree hkey)))
    (stands_ite (stands_ite hspill (Stands.refl s))
    (stands_ite (stands_ite hengine (Stands.refl s))
    (stands_ite (stands_updCore_same s c fun _ => rfl)
    (stands_ite (stands_matrixCancel s c _ _ _ _ _)
    (stands_ite (stands_coreMode s c v)
    (stands_ite (stands_teamStop s c _ _) (Stands.refl s)))))))

/-- A write of the region (R303): every team stays on its core, and one that the write halts has counted no skid. -/
theorem stands_ctlWrite (s : State) (firm : Bool) (o : Nat) (v : DWord) : Stands s (ctlWrite s firm o v) :=
  stands_ite (stands_ctxWrite s o v)
  (stands_ite (stands_queueWrite s _ v)
  (stands_ite (stands_classWrite s _ _ v)
  (stands_ite (stands_of_cores rfl rfl)
  (stands_ite (stands_of_cores rfl rfl)
  (stands_ite (stands_shareWrite s _ v)
  (stands_ite (stands_watchWrite s _ v)
  (stands_ite (stands_ite (stands_of_cores rfl rfl) (Stands.refl s))
  (stands_ite (stands_of_cores rfl rfl)
  (stands_ite (stands_reportWrite s _ v)
  (stands_ite (stands_fabCtlWrite s _ v)
  (stands_ite (stands_redWrite s _ v)
  (stands_ite (stands_of_cores rfl rfl)
  (stands_ite (stands_fabWinWrite s _ v)
  (stands_ite (stands_windowWrite s _ _ v) (Stands.refl s)))))))))))))))

end Sys2Proof.Machine

/-! PROOF. A bundle whose own accesses halt its team: it counts as the first of the skid, and its threads have acted all the same. -/

namespace Sys2Proof.Machine

/-! ## The skid of a bundle (R169) -/

/-- The bundle's team stands, and no bundle of it has counted as skid. -/
def State.Unskidded (s : State) (b : Bundle) : Prop := ∃ t, s.team? b.core b.team = some t ∧ t.Unskidded

theorem Stands.unskidded {s s' : State} {b : Bundle} (h : Stands s s') (hu : s.Unskidded b) : s'.Unskidded b :=
  let ⟨t, ht, hu⟩ := hu
  h.2 b.core b.team t ht hu

/-- A team with a halt in which a bundle of group g has counted once more; a running one, of which halt is none, as it is. -/
def Team.counted (g : Nat) (halt : Option Halt) (t : Team) : Team :=
  match halt with
  | some h => { t with halt := some { h with skids := updAt h.skids g fun _ => h.skids.getD g 0 + 1 } }
  | none => t

@[simp] theorem counted_id (g : Nat) (halt : Option Halt) (t : Team) : (t.counted g halt).id = t.id := by cases halt <;> rfl

theorem updTeam_self (s : State) (c id : Nat) : s.updTeam c id (fun t => t) = s := by
  have hcore : (fun k : Core => k.updTeam id fun t => t) = fun k => k := by
    funext k
    simp only [Core.updTeam, ite_self, List.map_id']
  rw [State.updTeam, hcore, State.updCore, updAt_id]

theorem countSkid_eq {s : State} {b : Bundle} {t : Team} (ht : s.team? b.core b.team = some t) (hu : t.Unskidded) :
    s.countSkid b = s.updTeam b.core b.team (Team.counted b.group t.halt) := by
  cases hh : t.halt with
  | none => exact (countSkid_running ht hh).trans (updTeam_self s b.core b.team).symm
  | some h =>
    have hzero : h.skids.getD b.group 0 = 0 := Nat.eq_zero_of_le_zero (getD_le (fun n hn => (hu h hh n hn).le) b.group)
    have hfew : ¬ 6 ≤ h.skids.getD b.group 0 + 1 := by omega
    simp only [State.countSkid, ht, hh, if_neg hfew]
    rfl

theorem countSkid_team? {s : State} {b : Bundle} {t : Team} (ht : s.team? b.core b.team = some t) (hu : t.Unskidded) :
    (s.countSkid b).team? b.core b.team = some (t.counted b.group t.halt) := by
  rw [countSkid_eq ht hu]
  exact updTeam_team? ht fun _ h => (counted_id ..).trans h

theorem slotTime_updTeam (s : State) (c id k : Nat) (f : Team → Team) :
    (s.updTeam c id f).slotTime c k = (s.slotTime c k).updTeam c id f := by
  unfold State.slotTime
  split
  · rfl
  · simp only [State.updTeam, State.updCore, updAt_updAt]
    rfl

theorem commitTeam_counted (h : Hdr) (u : Uses) (b : Bundle) (cycle : Nat) (outs : List (Nat × Nat × Out)) (g : Nat) (halt : Option Halt)
    (t : Team) : commitTeam h u b cycle outs (t.counted g halt) = (commitTeam h u b cycle outs t).counted g halt := by
  cases halt <;> rfl

/-- The bundle counts as skid after its commit as it would before. -/
theorem commit_countSkid {s : State} {b : Bundle} (hs : s.Unskidded b) (h : Hdr) (u : Uses) (k : Nat) (outs : List (Nat × Nat × Out)) :
    ((s.slotTime b.core k).commit h u b outs).countSkid b =
      ((s.countSkid b).slotTime b.core k).updTeam b.core b.team (commitTeam h u b s.cycle outs) := by
  obtain ⟨t, ht, hu⟩ := hs
  have hcommit : ((s.slotTime b.core k).commit h u b outs).team? b.core b.team = some (commitTeam h u b s.cycle outs t) := by
    rw [commit_eq, slotTime_cycle]
    exact updTeam_team? ((slotTime_team? ..).trans ht) fun _ hid => (commitTeam_id ..).trans hid
  rw [countSkid_eq hcommit (unskidded_congr (commitTeam_halt ..) hu), commitTeam_halt, commit_eq, slotTime_cycle, countSkid_eq ht hu,
    slotTime_updTeam, updTeam_updTeam, updTeam_updTeam]
  · simp only [commitTeam_counted]
  · exact fun _ hid => (counted_id ..).trans hid
  · exact fun _ hid => (commitTeam_id ..).trans hid

/-! ## Threads that act one after another (R139, R140) -/

section
variable {Eff : Env → State → State → Out → Prop} {val val' : Env → Out} {k : Nat} {l : List Env} {s s' : State}

theorem Runs.congr (h : Runs Eff val k l s s') (hval : ∀ e ∈ l, val' e = val e) : Runs Eff val' k l s s' := by
  induction h with
  | nil k s => exact .nil k s
  | @cons k e r s s1 s2 heff _ ih =>
    have he := hval e List.mem_cons_self
    exact .cons (he ▸ heff) (he ▸ ih fun x hx => hval x (List.mem_cons_of_mem _ hx))

theorem Runs.map (f : State → State) (h : Runs (fun e s s' o => Eff e (f s) (f s') o) val k l s s') : Runs Eff val k l (f s) (f s') := by
  induction h with
  | nil k s => exact .nil k _
  | cons heff _ ih => exact .cons heff ih

end

/-- The outcomes of val, but o for the thread of e. -/
def outcomeFor (e : Env) (o : Out) (val : Env → Out) : Env → Out := fun x => if x.g = e.g ∧ x.l = e.l then o else val x

/-- Threads that act one after another, when each keeps what its effect rests on. -/
theorem runActs_keeps {act : Env → State → State × Out} {Eff : Env → State → State → Out → Prop}
    {Inv : State → Prop} {l : List Env}
    (hl : l.Pairwise fun x y => ¬ (x.g = y.g ∧ x.l = y.l))
    (hact : ∀ e ∈ l, ∀ k s, Inv s → Eff (e.at k) s (act (e.at k) s).1 (act (e.at k) s).2 ∧ (act (e.at k) s).2.stay = false ∧
      (act (e.at k) s).2.stayAll = false ∧ Inv (act (e.at k) s).1) :
    ∀ (k : Nat) (s : State), Inv s → ∃ val : Env → Out, (runActs act k l s).2 = l.map (fun e => (e.g, e.l, val e)) ∧
      Runs Eff val k l s (runActs act k l s).1 ∧ (∀ e ∈ l, (val e).stay = false ∧ (val e).stayAll = false) ∧
      Inv (runActs act k l s).1 := by
  induction hl with
  | nil => exact fun k s hs => ⟨fun _ => {}, rfl, .nil k s, fun _ he => absurd he List.not_mem_nil, hs⟩
  | @cons e r hne _ ih =>
    intro k s hs
    obtain ⟨heff, hstay, hstayAll, hinv⟩ := hact e List.mem_cons_self k s hs
    obtain ⟨val, houts, hruns, hstays, hend⟩ := ih (fun x hx => hact x (List.mem_cons_of_mem _ hx))
      (Nat.max k (act (e.at k) s).2.clock) (act (e.at k) s).1 hinv
    have hself : outcomeFor e (act (e.at k) s).2 val e = (act (e.at k) s).2 := if_pos ⟨rfl, rfl⟩
    have hrest : ∀ x ∈ r, outcomeFor e (act (e.at k) s).2 val x = val x := fun x hx =>
      if_neg fun hxe => hne x hx ⟨hxe.1.symm, hxe.2.symm⟩
    refine ⟨outcomeFor e (act (e.at k) s).2 val, ?_, ?_, fun x hx => ?_, hend⟩
    · simp only [runActs, houts, List.map_cons, hself]
      exact congrArg _ (List.map_congr_left fun x hx => by rw [hrest x hx])
    · refine .cons (s1 := (act (e.at k) s).1) ?_ ?_
      · rw [hself]
        exact heff
      · rw [hself]
        exact hruns.congr hrest
    · rcases List.mem_cons.mp hx with rfl | hr
      · rw [hself]
        exact ⟨hstay, hstayAll⟩
      · rw [hrest x hr]
        exact hstays x hr

/-- An instruction whose meaning acts on the state and may halt its own team: the bundle then counts as skid (R169), and its threads
have acted on the state in which it has. -/
theorem acts_of_stands {i : Instr} {h : Hdr} {m : Sem} {Eff : Env → State → State → Out → Prop} {pre : Env → Prop} {u : Uses}
    (hx : ∀ s, exec i s = .next (runBundle h m s)) (hu : m.uses = u) (ha : m.allTags = .named) (hs : m.sel = fun l => l)
    (hpost : m.post = fun _ s => s) (hw : m.whole = none) (hpre : ∀ e, pre e → m.early e = none ∧ m.chk e = .ok)
    (hby : ∀ e, m.bystander e = .ok)
    (hact : ∀ e s, pre e → s.Unskidded e.b → Eff e (s.countSkid e.b) ((m.act e s).1.countSkid e.b) (m.act e s).2 ∧
      (m.act e s).2.stay = false ∧ (m.act e s).2.stayAll = false ∧ (m.act e s).1.cycle = s.cycle ∧ (m.act e s).1.Unskidded e.b) :
    Acts i h u Eff pre := by
  subst hu
  intro s b t hi hp _
  rw [← ha, ← hs] at hi hp ⊢
  obtain ⟨-, ht, hrun, hnodup⟩ := issues_bundle hi
  have hteam : (s.unstaged.wordState h m.allTags m.sel b t).team? b.core b.team = some (s.unstaged.wordTeam h m.allTags m.sel b t) :=
    wordState_team? ht
  have hrun' : (s.unstaged.wordTeam h m.allTags m.sel b t).halt = none := (wordTeam_halt ..).trans hrun
  have hdistinct : (s.unstaged.doers h m.allTags m.sel b t).Pairwise fun x y => ¬ (x.g = y.g ∧ x.l = y.l) :=
    (views_unique hnodup).sublist List.filter_sublist
  have hbundle := runBundle_issues hi hw (fun e he k => hpre _ (hp e he k)) (fun _ _ _ _ k => hby _)
  obtain ⟨val, houts, hruns, hstays, hstands, hcycle⟩ := runActs_keeps (act := m.act)
    (Eff := fun e s s' o => Eff e (s.countSkid b) (s'.countSkid b) o) (Inv := fun s' => s'.Unskidded b ∧ s'.cycle = s.cycle)
    hdistinct (fun e he k s1 ⟨hunskidded, hcycle⟩ => by
      obtain ⟨-, hb, -⟩ := views_mem (doers_sub he)
      have heb : (e.at k).b = b := hb
      obtain ⟨heff, hstay, hstayAll, hsame, hkept⟩ := hact (e.at k) s1 (hp e he k) (heb ▸ hunskidded)
      rw [heb] at heff hkept
      exact ⟨heff, hstay, hstayAll, hkept, hsame.trans hcycle⟩)
    (s.unstaged.slotStart b) (s.unstaged.wordState h m.allTags m.sel b t) ⟨⟨_, hteam, unskidded_of_running hrun'⟩, rfl⟩
  have hstart := countSkid_running hteam hrun'
  have hall := hruns.map (State.countSkid · b)
  rw [hstart] at hall
  obtain ⟨t1, ht1, hu1⟩ := hstands
  refine ⟨_, val, _, _, hall, countSkid_team? ht1 hu1, ?_, commitTeam_performed hnodup val s.cycle hstays _⟩
  rw [hx, hbundle, hpost, commit_countSkid ⟨t1, ht1, hu1⟩, houts, lastTime_map, hcycle]

end Sys2Proof.Machine

/-! PROOF. Stores and tags (O18): the elements of a store in either space, a lane's store, which may halt its own team by the control
region, and the granules of TAGS. -/

namespace Sys2Proof.Machine

/-! ## Elements of at most 8 bytes (R141) -/

theorem elems8_flatten (d : List Byte) : (elems8 d).flatten = d := by
  fun_induction elems8 d with
  | case1 a b c d e f g h i r ih => rw [List.flatten_cons, ih]; rfl
  | case2 l => rw [List.flatten_singleton]

theorem elems8_ne_nil (d : List Byte) : elems8 d ≠ [] := by
  unfold elems8
  split <;> exact List.cons_ne_nil _ _

theorem elems8_pos {d : List Byte} (hd : 0 < d.length) : ∀ x ∈ elems8 d, 0 < x.length := by
  fun_induction elems8 d with
  | case1 a b c d e f g h i r ih =>
    intro x hx
    rcases List.mem_cons.mp hx with rfl | hx
    · exact Nat.zero_lt_succ _
    · exact ih (Nat.zero_lt_succ _) x hx
  | case2 l =>
    intro x hx
    rwa [List.mem_singleton.mp hx]

/-! ## Bytes written one after another -/

theorem stored_nil {s : State} (hwf : Memory.wf s = true) (pa : Nat) : Stored s s pa [] :=
  ⟨rfl, hwf, fun x => (if_neg (by simp)).symm, fun _ => rfl⟩

theorem stored_append {s u v : State} {pa : Nat} {d r : List Byte} (h : Stored s u pa d) (k : Stored u v (pa + d.length) r) :
    Stored s v pa (d ++ r) := by
  obtain ⟨hsame, -, hbytes, htags⟩ := h
  obtain ⟨ksame, kwf, kbytes, ktags⟩ := k
  refine ⟨hsame.trans ksame, kwf, fun x => ?_, fun x => (ktags x).trans (htags x)⟩
  rw [kbytes, hbytes, List.length_append]
  by_cases hr : pa + d.length ≤ x ∧ x < pa + d.length + r.length
  · rw [if_pos hr, if_pos (by omega), List.getD_append_right _ _ _ _ (by omega), Nat.sub_add_eq]
  · rw [if_neg hr]
    by_cases hd : pa ≤ x ∧ x < pa + d.length
    · rw [if_pos hd, if_pos (by omega), List.getD_append _ _ _ _ (by omega)]
    · rw [if_neg hd, if_neg (by omega)]

/-- Team t' is t after a write of the bytes d of its scratchpad at o. -/
def ScratchStored (d : List Byte) (o : Nat) (t t' : Team) : Prop :=
  t' = { t with scratch := t'.scratch, lost := t'.lost, lines := t'.lines } ∧ Healed t t' o d.length ∧
    (amWf 0 0 t.scratch = true → amWf 0 0 t'.scratch = true ∧
      ∀ x, amGet 0 t'.scratch x = if o ≤ x ∧ x < o + d.length then d.getD (x - o) 0 else amGet 0 t.scratch x)

theorem scratchStored_write (t : Team) (ls : List (Nat × Line)) (o : Nat) (d : List Byte) :
    ScratchStored d o t { t.scratchWrite o d with lines := ls } :=
  ⟨rfl, healed_scratchWrite t o d, fun hwf => ⟨scratchWrite_wf hwf o d, amGet_scratchWrite hwf o d⟩⟩

theorem ScratchStored.append {d r : List Byte} {o : Nat} {t u v : Team} (h : ScratchStored d o t u)
    (k : ScratchStored r (o + d.length) u v) : ScratchStored (d ++ r) o t v := by
  obtain ⟨hteam, hheal, hbytes⟩ := h
  obtain ⟨kteam, kheal, kbytes⟩ := k
  refine ⟨?_, fun i => ?_, fun hwf => ?_⟩
  · rw [hteam] at kteam
    exact kteam
  · rw [kheal i, hheal i, List.length_append, and_assoc]
    exact and_congr_right fun _ => by omega
  · obtain ⟨hwf', hget⟩ := hbytes hwf
    obtain ⟨kwf, kget⟩ := kbytes hwf'
    refine ⟨kwf, fun x => ?_⟩
    rw [kget, hget, List.length_append]
    by_cases hr : o + d.length ≤ x ∧ x < o + d.length + r.length
    · rw [if_pos hr, if_pos (by omega), List.getD_append_right _ _ _ _ (by omega), Nat.sub_add_eq]
    · rw [if_neg hr]
      by_cases hd : o ≤ x ∧ x < o + d.length
      · rw [if_pos hd, if_pos (by omega), List.getD_append _ _ _ _ (by omega)]
      · rw [if_neg hd, if_neg (by omega)]

/-! ## The elements of a store -/

section
variable {e : Env} {a : Ea} {whole : Nat}

theorem writeElems_global {s : State} {l : Leaf} (ha : a.scratch = false) (hl : s.hitLeaf e.b.core e.t.ctx a.addr = some l)
    (d : List Byte) (r : List (List Byte)) (o k : Nat) : e.writeElems a whole (d :: r) o s k =
      let x := s.storeAt e.b.core e.b.team e.t.ctx l (l.phys a.addr + o) d whole k
      e.writeElems a whole r (o + d.length) x.2 (Nat.max k x.1) := by
  simp only [Env.writeElems, ha, hl, Bool.false_eq_true, if_false]

theorem writeElems_unmapped {s : State} (ha : a.scratch = false) (hl : s.hitLeaf e.b.core e.t.ctx a.addr = none)
    (d : List Byte) (r : List (List Byte)) (o k : Nat) :
    e.writeElems a whole (d :: r) o s k = e.writeElems a whole r (o + d.length) s k := by
  simp only [Env.writeElems, ha, hl, Bool.false_eq_true, if_false]

theorem writeElems_scratch {s : State} {t : Team} (ha : a.scratch = true) (ht : s.team? e.b.core e.b.team = some t)
    (d : List Byte) (r : List (List Byte)) (o k : Nat) : ∃ ls, e.writeElems a whole (d :: r) o s k =
      e.writeElems a whole r (o + d.length)
        (s.updTeam e.b.core e.b.team fun _ => { t.scratchWrite (a.addr + o) d with lines := ls })
        (Nat.max k (t.scratchEvent (a.addr + o) d.length k true).1) := by
  obtain ⟨ls, hls⟩ := scratchEvent_lines t (a.addr + o) d.length k true
  refine ⟨ls, ?_⟩
  simp only [Env.writeElems, ha, ht, hls, scratchWrite_lines, if_true]

/-- Time does not run back while the elements are written (R140, R263). -/
theorem writeElems_clock_le : ∀ (ds : List (List Byte)) (o : Nat) (s : State) (k : Nat), k ≤ (e.writeElems a whole ds o s k).1
  | [], _, _, k => Nat.le_refl k
  | d :: r, o, s, k => by
    cases ha : a.scratch with
    | true =>
      cases ht : s.team? e.b.core e.b.team with
      | none =>
        simp only [Env.writeElems, ha, ht, if_true]
        exact writeElems_clock_le r _ s k
      | some t =>
        obtain ⟨ls, hls⟩ := writeElems_scratch (whole := whole) ha ht d r o k
        rw [hls]
        exact (Nat.le_max_left ..).trans (writeElems_clock_le r _ _ _)
    | false =>
      cases hl : s.hitLeaf e.b.core e.t.ctx a.addr with
      | none =>
        rw [writeElems_unmapped ha hl]
        exact writeElems_clock_le r _ s k
      | some l =>
        rw [writeElems_global ha hl]
        exact (Nat.le_max_left ..).trans (writeElems_clock_le r _ _ _)

/-- The team's bytes after the elements of a store, of which there is one or more. -/
theorem writeElems_scratch_eq (ha : a.scratch = true) :
    ∀ (d : List Byte) (r : List (List Byte)) (o : Nat) (s : State) (t : Team) (k : Nat),
    s.team? e.b.core e.b.team = some t → ∃ t', ScratchStored (d :: r).flatten (a.addr + o) t t' ∧
      (e.writeElems a whole (d :: r) o s k).2 = s.updTeam e.b.core e.b.team fun _ => t'
  | d, [], o, s, t, k, ht => by
    obtain ⟨ls, hls⟩ := writeElems_scratch (whole := whole) ha ht d [] o k
    exact ⟨_, by rw [List.flatten_singleton]; exact scratchStored_write t ls (a.addr + o) d, by rw [hls]; rfl⟩
  | d, d' :: r, o, s, t, k, ht => by
    obtain ⟨ls, hls⟩ := writeElems_scratch (whole := whole) ha ht d (d' :: r) o k
    have hid : t.id = e.b.team := team?_id ht
    have hnext := updTeam_team? ht (f := fun _ => { t.scratchWrite (a.addr + o) d with lines := ls }) fun _ _ => hid
    obtain ⟨t', hstored, hstate⟩ := writeElems_scratch_eq ha d' r (o + d.length) _ _
      (Nat.max k (t.scratchEvent (a.addr + o) d.length k true).1) hnext
    refine ⟨t', ?_, ?_⟩
    · rw [List.flatten_cons]
      rw [← Nat.add_assoc] at hstored
      exact (scratchStored_write t ls (a.addr + o) d).append hstored
    · rw [hls, hstate]
      exact updTeam_updTeam _ _ _ _ _ fun _ _ => hid

theorem stands_storeAt (s : State) (c team ctx : Nat) (l : Leaf) (pa : Nat) (d : List Byte) (k : Nat) :
    Stands s (s.storeAt c team ctx l pa d whole k).2 := by
  cases hctl : inCtl pa with
  | false => exact (sameMachine_storeAt s c team ctx l d k (.inl hctl)).stands
  | true =>
    rw [storeAt_region s c team ctx l d k hctl]
    have hevent := (sameMachine_claim_note s l c ctx true).trans (sameMachine_writeEvent _ l pa k)
    exact stands_ite (hevent.stands.trans (stands_ctlWrite _ _ _ _)) hevent.stands

/-- Whatever a store of global memory reaches, the control region included. -/
theorem stands_writeElems (ha : a.scratch = false) : ∀ (ds : List (List Byte)) (o : Nat) (s : State) (k : Nat),
    Stands s (e.writeElems a whole ds o s k).2
  | [], _, s, _ => Stands.refl s
  | d :: r, o, s, k => by
    cases hl : s.hitLeaf e.b.core e.t.ctx a.addr with
    | none =>
      rw [writeElems_unmapped ha hl]
      exact stands_writeElems ha r _ s k
    | some l =>
      rw [writeElems_global ha hl]
      exact (stands_storeAt s _ _ _ l _ d k).trans (stands_writeElems ha r _ _ _)

theorem sameMachine_writeElems_unmapped (ha : a.scratch = false) : ∀ (ds : List (List Byte)) (o : Nat) (s : State) (k : Nat),
    s.hitLeaf e.b.core e.t.ctx a.addr = none → SameMachine s (e.writeElems a whole ds o s k).2
  | [], _, s, _, _ => SameMachine.refl s
  | d :: r, o, s, k, hl => by
    rw [writeElems_unmapped ha hl]
    exact sameMachine_writeElems_unmapped ha r _ s k hl

/-- Elements outside the control region, none of them empty. -/
theorem writeElems_plain {l : Leaf} (ha : a.scratch = false) : ∀ (ds : List (List Byte)) (o : Nat) (s : State) (k : Nat),
    (∀ d ∈ ds, 0 < d.length) → s.hitLeaf e.b.core e.t.ctx a.addr = some l → plain (l.phys a.addr + o) ds.flatten.length →
    SameMachine s (e.writeElems a whole ds o s k).2 ∧
      (Memory.wf s = true → Stored s (e.writeElems a whole ds o s k).2 (l.phys a.addr + o) ds.flatten)
  | [], _, s, _, _, _, _ => ⟨SameMachine.refl s, fun hwf => stored_nil hwf _⟩
  | d :: r, o, s, k, hpos, hl, hplain => by
    rw [writeElems_global ha hl]
    rw [List.flatten_cons, List.length_append] at hplain
    have hd := hpos d List.mem_cons_self
    have hctl : inCtl (l.phys a.addr + o) = false := hplain 0 (by omega)
    have hsame := sameMachine_storeAt s e.b.core e.b.team e.t.ctx l d (whole := whole) k (.inl hctl)
    obtain ⟨ksame, kstored⟩ := writeElems_plain ha r (o + d.length) _ (Nat.max k _) (fun x hx => hpos x (List.mem_cons_of_mem _ hx))
      ((hsame.hitLeaf ..).trans hl) (fun i hi => by
        rw [show l.phys a.addr + (o + d.length) + i = l.phys a.addr + o + (d.length + i) by omega]
        exact hplain (d.length + i) (by omega))
    refine ⟨hsame.trans ksame, fun hwf => ?_⟩
    have hstored := stored_storeAt hctl hwf e.b.core e.b.team e.t.ctx l d whole k
    have hrest := kstored hstored.2.1
    rw [← Nat.add_assoc] at hrest
    exact stored_append hstored hrest

end

/-! ## A change of a team beside a write -/

section
variable (c id : Nat) (f : Team → Team)

theorem hitLeaf_updTeam (s : State) (d ctx va : Nat) : (s.updTeam c id f).hitLeaf d ctx va = s.hitLeaf d ctx va := by
  have htlb : ((s.updTeam c id f).core d).tlb = (s.core d).tlb := updCore_keeps Core.tlb s c d fun _ => rfl
  have hbad : ((s.updTeam c id f).core d).bad = (s.core d).bad := updCore_keeps Core.bad s c d fun _ => rfl
  simp only [State.hitLeaf, State.translate, htlb, hbad]
  rfl

theorem sansMemory_updTeam (s : State) : (s.updTeam c id f).sansMemory = s.sansMemory.updTeam c id f := by
  have hcores : (updAt s.cores c fun k => k.updTeam id f).map Core.sansCopies =
      updAt (s.cores.map Core.sansCopies) c fun k => k.updTeam id f := by
    apply List.ext_getElem?
    intro n
    simp only [List.getElem?_map, updAt_getElem?]
    cases s.cores[n]? <;> split <;> rfl
  simp only [State.sansMemory, State.updTeam, State.updCore, hcores]

theorem sameMachine_updTeam {s s' : State} (h : SameMachine s s') : SameMachine (s.updTeam c id f) (s'.updTeam c id f) := by
  rw [SameMachine, sansMemory_updTeam, sansMemory_updTeam, h]

theorem stored_updTeam {s s' : State} {pa : Nat} {d : List Byte} (h : Stored s s' pa d) :
    Stored (s.updTeam c id f) (s'.updTeam c id f) pa d := by
  obtain ⟨hsame, hwf, hbytes, htags⟩ := h
  exact ⟨sameMachine_updTeam c id f hsame, hwf, hbytes, htags⟩

end

theorem ScratchStored.counted {d : List Byte} {o : Nat} {t t' : Team} (h : ScratchStored d o t t') (g : Nat) (halt : Option Halt) :
    ScratchStored d o (t.counted g halt) (t'.counted g halt) := by
  obtain ⟨hteam, hheal, hbytes⟩ := h
  cases halt with
  | none => exact ⟨hteam, hheal, hbytes⟩
  | some h =>
    refine ⟨?_, hheal, hbytes⟩
    rw [hteam]
    rfl

/-! ## A store of a lane (R138 to R146) -/

theorem store_eq {e : Env} {a : Ea} (hwindow : e.window a = none) (d : List Byte) (s : State) :
    e.store (.ok a) d s =
      let r := e.writeElems a d.length (elems8 d) 0 s e.th.clock
      (r.2, { clock := r.1 }) := by
  simp only [Env.store, hwindow]

/-- r is what a lane's store comes to, also when it halts the team of its bundle: its effect is that of the states in which the bundle
has counted as skid. -/
def StoreStep (d : List Byte) (a : Ea) (e : Env) (s : State) (r : State × Out) : Prop :=
  Stores d a e (s.countSkid e.b) (r.1.countSkid e.b) r.2 ∧ r.2.stay = false ∧ r.2.stayAll = false ∧ r.1.cycle = s.cycle ∧
    r.1.Unskidded e.b

section
variable {e : Env} {a : Ea} {d : List Byte} {s : State} {t : Team} (hwindow : e.window a = none)
  (ht : s.team? e.b.core e.b.team = some t) (hu : t.Unskidded)
include hwindow ht hu

theorem storeStep_scratch (ha : a.scratch = true) : StoreStep d a e s (e.store (.ok a) d s) := by
  obtain ⟨x, r, hxr⟩ := List.exists_cons_of_ne_nil (elems8_ne_nil d)
  have hid : t.id = e.b.team := team?_id ht
  obtain ⟨t', hstored, hstate⟩ := writeElems_scratch_eq (e := e) (whole := d.length) ha x r 0 s t e.th.clock ht
  rw [← hxr, elems8_flatten, Nat.add_zero] at hstored
  rw [← hxr] at hstate
  have hframe := hstored.1
  have hhalt : t'.halt = t.halt := by rw [hframe]
  have hid' : t'.id = e.b.team := by rw [hframe]; exact hid
  have hu' : t'.Unskidded := unskidded_congr hhalt hu
  have ht' := updTeam_team? ht (f := fun _ => t') fun _ _ => hid'
  rw [store_eq hwindow]
  simp only [StoreStep, hstate]
  refine ⟨⟨rfl, writeElems_clock_le _ _ _ _, ?_⟩, trivial, trivial, rfl, t', ht', hu'⟩
  simp only [ha, if_true]
  intro t0 ht0 hwf
  obtain rfl : t.counted e.b.group t.halt = t0 := Option.some.inj ((countSkid_team? ht hu).symm.trans ht0)
  have hcounted := hstored.counted e.b.group t.halt
  obtain ⟨hwf', hbytes⟩ := hcounted.2.2 hwf
  refine ⟨t'.counted e.b.group t.halt, ⟨?_, hcounted.1⟩, hwf', hcounted.2.1, hbytes⟩
  rw [countSkid_eq ht' hu', hhalt, countSkid_eq ht hu, updTeam_updTeam, updTeam_updTeam]
  · exact fun _ hx => (counted_id ..).trans hx
  · exact fun _ _ => hid'

/-- Outside the control region, and without a translation. -/
theorem storeStep_plain (hd : 0 < d.length) (ha : a.scratch = false)
    (hplain : ∀ l, s.hitLeaf e.b.core e.t.ctx a.addr = some l → plain (l.phys a.addr) d.length) :
    StoreStep d a e s (e.store (.ok a) d s) := by
  have hstore : SameMachine s (e.writeElems a d.length (elems8 d) 0 s e.th.clock).2 ∧
      ∀ l, s.hitLeaf e.b.core e.t.ctx a.addr = some l → Memory.wf s = true →
        Stored s (e.writeElems a d.length (elems8 d) 0 s e.th.clock).2 (l.phys a.addr) d := by
    cases hl : s.hitLeaf e.b.core e.t.ctx a.addr with
    | none => exact ⟨sameMachine_writeElems_unmapped ha _ _ _ _ hl, fun _ h => by cases h⟩
    | some l =>
      obtain ⟨hsame, hstored⟩ := writeElems_plain (whole := d.length) ha (elems8 d) 0 s e.th.clock (elems8_pos hd) hl
        (by rw [elems8_flatten]; exact hplain l hl)
      rw [elems8_flatten] at hstored
      exact ⟨hsame, fun l' h => by cases h; exact hstored⟩
  obtain ⟨hsame, hstored⟩ := hstore
  have ht' := (hsame.team? e.b.core e.b.team).trans ht
  rw [store_eq hwindow]
  refine ⟨⟨rfl, writeElems_clock_le _ _ _ _, ?_⟩, rfl, rfl, hsame.cycle, t, ht', hu⟩
  simp only [ha, Bool.false_eq_true, if_false]
  rw [countSkid_eq ht hu, countSkid_eq ht' hu]
  intro l hl _ hwf
  rw [hitLeaf_updTeam] at hl
  exact stored_updTeam _ _ _ (hstored l hl hwf)

/-- In the control region, where `Stores` says what the thread does and nothing of the registers written (R303). -/
theorem storeStep_region {l : Leaf} (ha : a.scratch = false) (hl : s.hitLeaf e.b.core e.t.ctx a.addr = some l)
    (hplain : ¬ plain (l.phys a.addr) d.length) : StoreStep d a e s (e.store (.ok a) d s) := by
  have hstands := stands_writeElems (e := e) (whole := d.length) ha (elems8 d) 0 s e.th.clock
  rw [store_eq hwindow]
  refine ⟨⟨rfl, writeElems_clock_le _ _ _ _, ?_⟩, rfl, rfl, hstands.1, hstands.unskidded ⟨t, ht, hu⟩⟩
  simp only [ha, Bool.false_eq_true, if_false]
  rw [countSkid_eq ht hu]
  intro l' hl' hplain'
  rw [hitLeaf_updTeam, hl] at hl'
  cases hl'
  exact absurd hplain' hplain

theorem storeStep_store (hd : 0 < d.length) : StoreStep d a e s (e.store (.ok a) d s) := by
  cases ha : a.scratch with
  | true => exact storeStep_scratch hwindow ht hu ha
  | false =>
    by_cases h : ∃ l, s.hitLeaf e.b.core e.t.ctx a.addr = some l ∧ ¬ plain (l.phys a.addr) d.length
    · obtain ⟨l, hl, hplain⟩ := h
      exact storeStep_region hwindow ht hu ha hl hplain
    · exact storeStep_plain hwindow ht hu hd ha fun l hl => not_not.mp fun hplain => h ⟨l, hl, hplain⟩

end

/-- What a store of n bytes does: its bundle acts lane by lane, each lane as `Stores` says. -/
theorem acts_store {i : Instr} {h : Hdr} {names : List RName} {n : Nat} {m : MemArg} {data : Env → List Byte}
    (hx : ∀ s, exec i s = .next (runBundle h (storeSem names n m data) s)) (hn : 0 < n) (hlen : ∀ e, (data e).length = n) :
    Acts i h { reads := memNames m ++ names } (fun e s s' o => ∀ a, e.ea m n = .ok a → Stores (data e) a e s s' o)
      fun e => ∃ a, e.ea m n = .ok a ∧ e.mayAccess a n storeMode := by
  refine acts_of_stands hx rfl rfl rfl rfl rfl ?_ (fun _ => rfl) ?_
  · rintro e ⟨a, hea, hmay⟩
    refine ⟨rfl, ?_⟩
    show e.chkAccess (e.ea m n) n storeMode = .ok
    rw [hea, chkAccess_ok hmay]
  · rintro e s ⟨a, hea, hmay⟩ ⟨t, ht, hu⟩
    obtain ⟨hstores, hrest⟩ := storeStep_store (window_none_of_mayAccess hmay) ht hu ((hlen e).symm ▸ hn)
    simp only [storeSem, hea]
    exact ⟨fun a' ha' => by cases ha'; exact hstores, hrest⟩

/-! ## The bytes of registers (R3, R144, R146) -/

theorem natBytes_eq : ∀ n x : Nat, natBytes x n = (List.range n).map fun i => BitVec.ofNat 8 (x / 2 ^ (8 * i))
  | 0, _ => rfl
  | n + 1, x => by
    rw [natBytes, natBytes_eq n, List.range_succ_eq_map, List.map_cons, List.map_map, Nat.mul_zero, pow_zero, Nat.div_one]
    refine congrArg _ (List.map_congr_left fun i _ => ?_)
    rw [Function.comp, Nat.div_div_eq_div_mul, Nat.mul_succ, pow_add, Nat.mul_comm, show 256 = 2 ^ 8 from rfl]

theorem natBytes_toNat {w : Nat} (v : BitVec w) (n : Nat) : natBytes v.toNat n = lowBytes v n := by
  rw [natBytes_eq, lowBytes]
  refine List.map_congr_left fun i _ => BitVec.eq_of_toNat_eq ?_
  rw [BitVec.toNat_ofNat, BitVec.extractLsb'_toNat, Nat.shiftRight_eq_div_pow]

theorem scalarBytes_eq (e : Env) (ty : MemTy) (pair : Bool) (d : BitVec 8) : e.scalarBytes ty pair d =
    if pair then lowBytes (e.th.pair d.toNat) (memWidth ty pair) else lowBytes ((e.th.g d.toNat).zeroExtend 64) (memWidth ty pair) := by
  cases pair with
  | true => exact natBytes_toNat _ _
  | false =>
    have hext : ((e.th.g d.toNat).zeroExtend 64).toNat = (e.th.g d.toNat).toNat := BitVec.toNat_setWidth_of_le (by decide)
    rw [if_neg Bool.false_ne_true, ← natBytes_toNat, hext]
    rfl

theorem scalarBytes_length (e : Env) (ty : MemTy) (pair : Bool) (d : BitVec 8) : (e.scalarBytes ty pair d).length = memWidth ty pair :=
  natBytes_length _ _

/-- The bytes of n registers from d (R146). -/
def Env.tupleBytes (e : Env) (n : Nat) (d : BitVec 8) : List Byte :=
  ((List.range n).map fun i => natBytes (e.th.g (d.toNat + i)).toNat 4).flatten

theorem tupleBytes_eq (e : Env) (n : Nat) (d : BitVec 8) :
    e.tupleBytes n d = ((List.range n).map fun i => lowBytes (e.th.g (d.toNat + i)) 4).flatten := by
  simp only [Env.tupleBytes, natBytes_toNat]

theorem tupleBytes_length (e : Env) (n : Nat) (d : BitVec 8) : (e.tupleBytes n d).length = 4 * n := by
  simp [Env.tupleBytes, List.length_flatten, Function.comp_def, Nat.mul_comm]

theorem exec_st (h : Hdr) (ty : MemTy) (pair : Bool) (d : BitVec 8) (m : MemArg) (s : State) : exec (.st h ty pair d m) s =
    .next (runBundle h (storeSem (scalarNames pair d) (memWidth ty pair) m fun e => e.scalarBytes ty pair d) s) := rfl
theorem exec_stb (h : Hdr) (ty : MemTy) (pair : Bool) (d : BitVec 8) (m : MemArg) (s : State) : exec (.stb h ty pair d m) s =
    .next (runBundle h (storeSem (scalarNames pair d) (memWidth ty pair) m fun e => e.scalarBytes ty pair d) s) := rfl
theorem exec_stx (h : Hdr) (sz : TupSize) (d : BitVec 8) (m : MemArg) (s : State) : exec (.stx h sz d m) s =
    .next (runBundle h (storeSem (tupleNames d.toNat (tupRegs sz)) (4 * tupRegs sz) m fun e => e.tupleBytes (tupRegs sz) d) s) := rfl

/-! ## Tags of a range of granules (R149) -/

/-- The granules of n bytes from pa have the tag, and with z their bytes are 0; every other byte and tag is as before. -/
def Retagged (tag : BitVec 4) (z : Bool) (s s' : State) (pa n : Nat) : Prop :=
  SameMachine s s' ∧ Memory.wf s' = true ∧ (∀ x, s'.gtag x = if pa ≤ x ∧ x < pa + n then tag else s.gtag x) ∧
    ∀ x, s'.readByte x = if z = true ∧ pa ≤ x ∧ x < pa + n then 0 else s.readByte x

theorem Retagged.append {tag : BitVec 4} {z : Bool} {s u v : State} {pa n k : Nat} (h : Retagged tag z s u pa n)
    (hk : Retagged tag z u v (pa + n) k) : Retagged tag z s v pa (n + k) := by
  obtain ⟨hsame, -, htags, hbytes⟩ := h
  obtain ⟨ksame, kwf, ktags, kbytes⟩ := hk
  refine ⟨hsame.trans ksame, kwf, fun x => ?_, fun x => ?_⟩
  · rw [ktags, htags, ← ite_or]
    exact if_congr (by omega) rfl rfl
  · rw [kbytes, hbytes, ← ite_or]
    exact if_congr (and_or_left.symm.trans (and_congr_right fun _ => by omega)) rfl rfl

section
variable {e : Env} {l : Leaf} {tag : BitVec 4} {z : Bool}

theorem setTag_region {pa : Nat} (hctl : inCtl pa = true) (s : State) (k : Nat) : e.setTag l pa tag z s k = (k, s) := by
  rw [Env.setTag, if_pos hctl]

/-- The write event of a granule's tag: its time, and the state before the granule changes. -/
def Env.tagEvent (e : Env) (l : Leaf) (pa : Nat) (s : State) (k : Nat) : Nat × State :=
  ((s.claim l (some e.b.core)).note e.t.ctx l (some e.b.core) true).writeEvent l pa k
/-- The state with the granule's bytes as z has them, before its tag changes. -/
def Env.tagBytes (e : Env) (l : Leaf) (pa : Nat) (z : Bool) (s : State) (k : Nat) : State :=
  if z then (e.tagEvent l pa s k).2.writeBytes pa (List.replicate 32 0) else (e.tagEvent l pa s k).2

theorem setTag_home {pa : Nat} (hctl : inCtl pa = false) (s : State) (k : Nat) : e.setTag l pa tag z s k =
    (Nat.max k (e.tagEvent l pa s k).1, (((e.tagBytes l pa z s k).setGtag (pa / 32) tag).patchL1 e.b.core pa 32
      (e.tagEvent l pa s k).1).endRounds (.thread e.b.core e.b.team) pa 32) := by
  rw [Env.setTag, if_neg (Bool.eq_false_iff.mp hctl)]
  rfl

theorem sameMachine_tagBytes (pa : Nat) (s : State) (k : Nat) : SameMachine s (e.tagBytes l pa z s k) := by
  have hevent := (sameMachine_claim_note s l e.b.core e.t.ctx true).trans (sameMachine_writeEvent _ l pa k)
  unfold Env.tagBytes
  split
  · exact hevent.trans (sameMachine_writeBytes _ _ _)
  · exact hevent

theorem tagBytes_maps (pa : Nat) {s : State} (hwf : Memory.wf s = true) (k : Nat) : Memory.wf (e.tagBytes l pa z s k) = true ∧
    (e.tagBytes l pa z s k).gtags = s.gtags ∧
    ∀ x, (e.tagBytes l pa z s k).readByte x = if z = true ∧ pa ≤ x ∧ x < pa + 32 then 0 else s.readByte x := by
  obtain ⟨hmem, hgtags⟩ := claim_mem s l (some e.b.core)
  obtain ⟨nmem, ngtags⟩ := note_mem (s.claim l (some e.b.core)) e.t.ctx l (some e.b.core) true
  have hemem : (e.tagEvent l pa s k).2.mem = s.mem := nmem.trans hmem
  have hegtags : (e.tagEvent l pa s k).2.gtags = s.gtags := ngtags.trans hgtags
  have hewf := wf_congr hemem hegtags hwf
  have hbyte : ∀ x, (e.tagEvent l pa s k).2.readByte x = s.readByte x := fun x => by rw [State.readByte, hemem, State.readByte]
  cases z with
  | false => exact ⟨hewf, hegtags, fun x => (hbyte x).trans (if_neg fun h => Bool.false_ne_true h.1).symm⟩
  | true =>
    refine ⟨writeBytes_wf hewf _ _, hegtags, fun x => ?_⟩
    rw [Env.tagBytes, if_pos rfl, readByte_writeBytes hewf, List.length_replicate, hbyte]
    simp only [true_and]
    split
    · next hx => rw [List.getD_eq_getElem?_getD, List.getElem?_replicate_of_lt (by omega), Option.getD_some]
    · rfl

theorem sameMachine_setTag (pa : Nat) (s : State) (k : Nat) : SameMachine s (e.setTag l pa tag z s k).2 := by
  cases hctl : inCtl pa with
  | true =>
    rw [setTag_region hctl]
    exact SameMachine.refl s
  | false =>
    rw [setTag_home hctl]
    exact (((sameMachine_tagBytes pa s k).trans (sameMachine_setGtag _ _ _)).trans (sameMachine_patchL1 _ _ _ _ _)).trans
      (sameMachine_endRounds _ _ _ _)

/-- One granule outside the control region. -/
theorem retagged_setTag {pa : Nat} {s : State} (hplain : plain pa 32) (halign : pa % 32 = 0) (hwf : Memory.wf s = true) (k : Nat) :
    Retagged tag z s (e.setTag l pa tag z s k).2 pa 32 := by
  have hctl : inCtl pa = false := hplain 0 (by decide)
  obtain ⟨hwf', hgtags, hbytes⟩ := tagBytes_maps (e := e) (l := l) (z := z) pa hwf k
  refine ⟨sameMachine_setTag pa s k, ?_⟩
  rw [setTag_home hctl]
  refine ⟨setGtag_wf hwf' (pa / 32) tag, fun x => ?_, hbytes⟩
  show ((e.tagBytes l pa z s k).setGtag (pa / 32) tag).gtag x = _
  cases hx : inCtl x with
  | true =>
    have hout : ¬ (pa ≤ x ∧ x < pa + 32) := fun hr => by
      have hin := hplain (x - pa) (by omega)
      rw [Nat.add_sub_cancel' hr.1, hx] at hin
      cases hin
    rw [if_neg hout, State.gtag, if_pos hx, State.gtag, if_pos hx]
  | false =>
    rw [gtag_setGtag hwf' _ _ _ hx, gtag_congr hgtags]
    exact if_congr (by omega) rfl rfl

theorem sameMachine_setTags : ∀ (n pa : Nat) (s : State) (k : Nat), SameMachine s (e.setTags l tag z n pa s k).2
  | 0, _, s, _ => SameMachine.refl s
  | n + 1, pa, s, k => (sameMachine_setTag pa s k).trans (sameMachine_setTags n (pa + 32) _ _)

theorem retagged_setTags : ∀ (n pa : Nat) (s : State) (k : Nat), plain pa (32 * n) → pa % 32 = 0 → Memory.wf s = true →
    Retagged tag z s (e.setTags l tag z n pa s k).2 pa (32 * n)
  | 0, pa, s, _, _, _, hwf =>
    ⟨SameMachine.refl s, hwf, fun x => (if_neg (by omega)).symm, fun x => (if_neg (by omega)).symm⟩
  | n + 1, pa, s, k, hplain, halign, hwf => by
    have hone := retagged_setTag (e := e) (l := l) (tag := tag) (z := z) (pa := pa) (fun i hi => hplain i (by omega)) halign hwf k
    have hrest := retagged_setTags n (pa + 32) (e.setTag l pa tag z s k).2 (e.setTag l pa tag z s k).1
      (fun i hi => by rw [Nat.add_assoc]; exact hplain (32 + i) (by omega)) (by omega) hone.2.1
    rw [Nat.mul_succ, Nat.add_comm (32 * n)]
    exact hone.append hrest

end

/-! ## The words TAGS and TAGG (R149, R150) -/

theorem firstChk_ok : ∀ {l : List Chk}, (∀ c ∈ l, c = .ok) → firstChk l = .ok
  | [], _ => rfl
  | c :: r, h => by
    rw [h c List.mem_cons_self, firstChk]
    exact firstChk_ok fun x hx => h x (List.mem_cons_of_mem _ hx)

theorem pieceChk_ok {l : List Chk} (h : ∀ c ∈ l, c = .ok) : pieceChk l = .ok := by
  obtain ⟨n, rfl⟩ : ∃ n, l = List.replicate n .ok := ⟨l.length, List.eq_replicate_iff.mpr ⟨rfl, h⟩⟩
  simp [pieceChk, Chk.trapIs, leastTrap, firstChk_ok]

theorem chkGranules_ok {e : Env} {a : Ea} {m : Mode} {n : Nat} (h : ∀ i < n, e.allows { a with addr := a.addr + 32 * i } 32 m) :
    e.chkGranules a m n = .ok := by
  refine pieceChk_ok fun c hc => ?_
  obtain ⟨i, hi, rfl⟩ := List.mem_map.mp hc
  exact chkGlobal_ok (h i (List.mem_range.mp hi))

theorem window_none {e : Env} {a : Ea} (ha : a.scratch = false) (h : e.s.fabWindow e.t.desc a.addr = none) : e.window a = none := by
  rw [Env.window, if_neg (Bool.eq_false_iff.mp ha), h]

theorem tagsBytes_eq (len : TagLen) : tagsBytes len = 32 * (tagsBytes len / 32) := by cases len <;> rfl

/-- TAGS in its lanes: each sets the tags of its own range. -/
theorem acts_tags (h : Hdr) (len : TagLen) (z : Bool) (m : MemArg) : Acts (.tags h len z m) h { reads := memNames m }
    (fun e s s' o => ∀ a l, e.ea m (tagsBytes len) = .ok a → s.hitLeaf e.b.core e.t.ctx a.addr = some l →
      plain (l.phys a.addr) (tagsBytes len) → (l.phys a.addr) % 32 = 0 → Memory.wf s = true →
      o = { clock := o.clock } ∧ Retagged a.tag z s s' (l.phys a.addr) (tagsBytes len))
    (fun e => ∃ a, e.ea m (tagsBytes len) = .ok a ∧ a.scratch = false ∧ e.s.fabWindow e.t.desc a.addr = none ∧
      ∀ i < tagsBytes len / 32, e.allows { a with addr := a.addr + 32 * i } 32 { reads := false, writes := true, notag := true }) := by
  refine acts_of_run (fun _ => rfl) rfl rfl rfl rfl rfl ?_ (fun _ _ => rfl) ?_
  · rintro e ⟨a, hea, ha, hwindow, hallows⟩
    refine ⟨rfl, ?_⟩
    simp only [hea, window_none ha hwindow, chkGranules_ok hallows, Option.isSome_none, Bool.false_eq_true, if_false]
  · rintro e s t ⟨a, hea, -⟩ ht -
    simp only [hea]
    cases hl : s.hitLeaf e.b.core e.t.ctx a.addr with
    | none =>
      refine ⟨fun a' l' ha' hl' => ?_, rfl, rfl, rfl, t, ht, rfl⟩
      cases ha'
      cases hl.symm.trans hl'
    | some l =>
      have hsame := sameMachine_setTags (e := e) (l := l) (tag := a.tag) (z := z) (tagsBytes len / 32) (l.phys a.addr) s e.th.clock
      refine ⟨fun a' l' ha' hl' hplain halign hwf => ?_, rfl, rfl, hsame.cycle, t, (hsame.team? ..).trans ht, rfl⟩
      cases ha'
      cases hl.symm.trans hl'
      have hset := retagged_setTags (e := e) (l := l) (tag := a.tag) (z := z) (tagsBytes len / 32) (l.phys a.addr) s e.th.clock
        (tagsBytes_eq len ▸ hplain) halign hwf
      rw [← tagsBytes_eq] at hset
      exact ⟨rfl, hset⟩

/-- TAGG in its lanes. -/
theorem acts_tagg (h : Hdr) (d : BitVec 8) (m : MemArg) : Acts (.tagg h d m) h { reads := memNames m, dests := [.g d.toNat] }
    (fun e s s' o => ∀ a l, e.ea m 1 = .ok a → s.hitLeaf e.b.core e.t.ctx a.addr = some l →
      o = { writes := [.g d.toNat ((s.gtag (l.phys a.addr)).zeroExtend 32)], clock := o.clock } ∧ SameMemory s s')
    (fun e => ∃ a, e.ea m 1 = .ok a ∧ a.scratch = false ∧ e.s.fabWindow e.t.desc a.addr = none ∧
      e.allows a 1 { reads := false, writes := false, notag := true }) := by
  refine acts_of_run (fun _ => rfl) rfl rfl rfl rfl rfl ?_ (fun _ _ => rfl) ?_
  · rintro e ⟨a, hea, ha, hwindow, hallows⟩
    refine ⟨rfl, ?_⟩
    simp only [Env.chkLocal, hea, ha, window_none ha hwindow, chkGlobal_ok hallows, Option.isSome_none, Bool.false_eq_true, if_false]
  · rintro e s t ⟨a, hea, -⟩ ht -
    simp only [hea]
    cases hl : s.hitLeaf e.b.core e.t.ctx a.addr with
    | none =>
      refine ⟨fun a' l' ha' hl' => ?_, rfl, rfl, rfl, t, ht, rfl⟩
      cases ha'
      cases hl.symm.trans hl'
    | some l =>
      have hread := (reads_claim s l e.b.core).trans (reads_readEvent _ l (l.phys a.addr) e.th.clock)
      have htag := gtag_congr hread.1.2.2.1 (l.phys a.addr)
      refine ⟨fun a' l' ha' hl' => ?_, rfl, rfl, hread.machine.cycle, t, (hread.machine.team? ..).trans ht, rfl⟩
      cases ha'
      cases hl.symm.trans hl'
      exact ⟨by simp only [htag, write32], hread.1⟩

/-- Settles O18: stores are bundles of `storeSem` (`acts_store`); TAGS goes granule by granule (`retagged_setTags`), and TAGG only reads. -/
theorem storesAndTags : Obligations.StoresAndTags := by
  unfold Obligations.StoresAndTags
  refine ⟨fun h ty pair sz d m => ⟨?_, ?_, ?_⟩, fun h len z d m => ⟨acts_tags h len z m, acts_tagg h d m⟩⟩
  · have hst := acts_store (exec_st h ty pair d m) (scalar_wholeElems ty pair d.toNat).1 fun e => scalarBytes_length e ty pair d
    simp only [scalarBytes_eq] at hst
    exact hst
  · have hstb := acts_store (exec_stb h ty pair d m) (scalar_wholeElems ty pair d.toNat).1 fun e => scalarBytes_length e ty pair d
    simp only [scalarBytes_eq] at hstb
    exact hstb
  · have hstx := acts_store (exec_stx h sz d m) (tuple_wholeElems sz d.toNat).1 fun e => tupleBytes_length e (tupRegs sz) d
    simp only [tupleBytes_eq] at hstx
    exact hstx

end Sys2Proof.Machine

/-! PROOF. Team barriers (O22): entries of the barrier table, the entry that BARA and BARW open, and the release of its waiters. -/

namespace Sys2Proof.Machine

/-! ## A core of a changed state -/

theorem core_lt_of_team? {s : State} {c id : Nat} {t : Team} (h : s.team? c id = some t) : c < s.cores.length := by
  by_contra hc
  have hcore : s.core c = Core.reset := List.getD_eq_default _ _ (Nat.le_of_not_lt hc)
  rw [State.team?, hcore] at h
  cases h

theorem core_updCore {s : State} {c : Nat} (hc : c < s.cores.length) (f : Core → Core) : (s.updCore c f).core c = f (s.core c) :=
  updAt_getD_self _ _ _ hc

theorem updCore_congr {s : State} {c : Nat} {f g : Core → Core} (h : f (s.core c) = g (s.core c)) : s.updCore c f = s.updCore c g := by
  have hcores : updAt s.cores c f = updAt s.cores c g := updAt_congr _ _ _ _ fun k hk => by
    rwa [State.core, List.getD_eq_getElem?_getD, hk] at h
  rw [State.updCore, hcores]
  rfl

/-! ## Entries of the barrier table (R165, R168) -/

section
variable {s : State} {c i : Nat} (f : BarEntry → BarEntry)

theorem updBar_core (hc : c < s.cores.length) : (s.updBar c i f).core c = { s.core c with bars := updAt (s.core c).bars i f } :=
  core_updCore hc _

theorem updBar_barAt (hc : c < s.cores.length) (hi : i < (s.core c).bars.length) : (s.updBar c i f).barAt c i = f (s.barAt c i) := by
  rw [State.barAt, updBar_core f hc]
  exact updAt_getD_self _ _ _ hi

theorem updBar_barAt_ne (hc : c < s.cores.length) {j : Nat} (hj : j ≠ i) : (s.updBar c i f).barAt c j = s.barAt c j := by
  rw [State.barAt, updBar_core f hc]
  exact updAt_getD_ne _ _ _ hj

/-- A change of an entry changes nothing but the table. -/
theorem updBar_only (hc : c < s.cores.length) :
    s.updBar c i f = s.updCore c fun k => { k with bars := ((s.updBar c i f).core c).bars } := by
  rw [updBar_core f hc]
  exact updCore_congr rfl

theorem updBar_team? (d id : Nat) : (s.updBar c i f).team? d id = s.team? d id := updCore_team? s c d id fun _ => rfl

theorem updBar_updBar (g : BarEntry → BarEntry) : (s.updBar c i f).updBar c i g = s.updBar c i fun x => g (f x) := by
  simp only [State.updBar, State.updCore, updAt_updAt]

theorem updBar_id : s.updBar c i (fun x => x) = s := by
  simp only [State.updBar, State.updCore, updAt_id]

end

/-! ## The entry of a team's barrier (R165, R167) -/

/-- The entry is that of barrier n of a team. -/
def BarEntry.isOf (t : Team) (n : Nat) (x : BarEntry) : Bool := x.valid && x.ctx == t.ctx && x.vtid == t.vtid && x.number == n

theorem barOf_eq (k : Core) (t : Team) (n : Nat) : k.barOf t n = k.bars.findIdx? (BarEntry.isOf t n) := rfl

/-- The count of a team's barrier: 0 where the table has no entry for it. -/
def State.countOf (s : State) (c : Nat) (t : Team) (n : Nat) : Nat :=
  match (s.core c).barOf t n with
  | some j => (s.barAt c j).count
  | none => 0

/-- An entry that becomes the first of a team's barrier is the one found. -/
theorem barOf_updBar {s : State} {c i n : Nat} {t : Team} {f : BarEntry → BarEntry} (hc : c < s.cores.length)
    (hi : i < (s.core c).bars.length) (hof : (f (s.barAt c i)).isOf t n = true)
    (hfirst : ∀ j (hj : j < i), ((s.core c).bars[j]'(Nat.lt_trans hj hi)).isOf t n = false) :
    ((s.updBar c i f).core c).barOf t n = some i := by
  have hat : s.barAt c i = (s.core c).bars[i] := List.getD_eq_getElem _ _ hi
  rw [barOf_eq, updBar_core f hc, List.findIdx?_eq_some_iff_getElem]
  refine ⟨by simpa using hi, ?_, fun j hj => ?_⟩
  · have hget := updAt_getElem?_self (s.core c).bars f i
    rw [List.getElem?_eq_getElem hi, List.getElem?_eq_getElem (by simpa using hi)] at hget
    rw [Option.some.inj hget, ← hat, hof]
  · have hget := updAt_getElem?_ne (s.core c).bars f (n := j) (i := i) (Nat.ne_of_lt hj)
    rw [List.getElem?_eq_getElem (Nat.lt_trans hj hi), List.getElem?_eq_getElem (by simpa using Nat.lt_trans hj hi)] at hget
    rw [Option.some.inj hget, hfirst j hj]
    exact Bool.false_ne_true

theorem mem_idxWhere {α : Type} (p : α → Bool) : ∀ (l : List α) (i n : Nat), n ∈ idxWhere p i l → i ≤ n ∧ n < i + l.length
  | [], _, _, h => by cases h
  | x :: r, i, n, h => by
    have hrest : n ∈ idxWhere p (i + 1) r → i ≤ n ∧ n < i + (x :: r).length := fun hr => by
      obtain ⟨hle, hlt⟩ := mem_idxWhere p r (i + 1) n hr
      simp only [List.length_cons]
      omega
    rw [idxWhere] at h
    split at h
    · rcases List.mem_cons.mp h with rfl | hr
      · simp
      · exact hrest hr
    · exact hrest h

/-- The entry that a word opens: the barrier's own as it stands, else the first free one with count 0. -/
theorem openBar_eq {s : State} {c n : Nat} {t : Team} (hfree : ((s.core c).barOf t n).isSome = true ∨ (s.core c).freeBars ≠ []) :
    ∃ i f, s.openBar c t n = (i, s.updBar c i f) ∧ (f (s.barAt c i)).isOf t n = true ∧ (f (s.barAt c i)).count = s.countOf c t n ∧
      ∃ hi : i < (s.core c).bars.length, ∀ j (hj : j < i), ((s.core c).bars[j]'(Nat.lt_trans hj hi)).isOf t n = false := by
  unfold State.openBar State.countOf
  dsimp only
  cases hbar : (s.core c).barOf t n with
  | some i =>
    obtain ⟨hi, hof, hfirst⟩ := List.findIdx?_eq_some_iff_getElem.mp hbar
    refine ⟨i, fun x => x, by rw [updBar_id], ?_, rfl, hi, fun j hj => Bool.eq_false_iff.mpr (hfirst j hj)⟩
    rwa [State.barAt, List.getD_eq_getElem _ _ hi]
  | none =>
    rw [hbar] at hfree
    obtain ⟨i, r, hbars⟩ := List.exists_cons_of_ne_nil (hfree.resolve_left Bool.false_ne_true)
    have hi : i < (s.core c).bars.length := by
      have hmem := (mem_idxWhere _ _ 0 i (hbars ▸ List.mem_cons_self)).2
      rwa [Nat.zero_add] at hmem
    rw [hbars]
    refine ⟨i, _, rfl, by simp [BarEntry.isOf], rfl, hi, fun j hj => ?_⟩
    exact List.findIdx?_eq_none_iff.mp hbar _ (List.getElem_mem _)

theorem openBar_frame (s : State) (c : Nat) (t : Team) (n : Nat) :
    (s.openBar c t n).2.cycle = s.cycle ∧ ∀ d id, (s.openBar c t n).2.team? d id = s.team? d id := by
  unfold State.openBar
  dsimp only
  split
  · exact ⟨rfl, fun _ _ => rfl⟩
  · exact ⟨rfl, updBar_team? _⟩

/-- From s to s' a word has found the count of a team's barrier and left upd: the barrier has an entry, and nothing else has changed. -/
def OpensBar (s s' : State) (c : Nat) (t : Team) (n count upd : Nat) : Prop :=
  count = s.countOf c t n ∧ ∃ i, (s'.core c).barOf t n = some i ∧ (s'.barAt c i).count = upd ∧
    (∀ j, j ≠ i → s'.barAt c j = s.barAt c j) ∧ s' = s.updCore c fun k => { k with bars := (s'.core c).bars }

/-- What a word does to the entry that it opens, when it keeps the entry's key. -/
theorem openBar_opens {s : State} {c n : Nat} {t : Team} (hc : c < s.cores.length)
    (hfree : ((s.core c).barOf t n).isSome = true ∨ (s.core c).freeBars ≠ []) {f : BarEntry → BarEntry}
    (hf : (f ((s.openBar c t n).2.barAt c (s.openBar c t n).1)).isOf t n = ((s.openBar c t n).2.barAt c (s.openBar c t n).1).isOf t n) :
    OpensBar s ((s.openBar c t n).2.updBar c (s.openBar c t n).1 f) c t n ((s.openBar c t n).2.barAt c (s.openBar c t n).1).count
      (f ((s.openBar c t n).2.barAt c (s.openBar c t n).1)).count := by
  obtain ⟨i, g, hopen, hof, hcount, hi, hfirst⟩ := openBar_eq hfree
  rw [hopen] at hf ⊢
  dsimp only at hf ⊢
  rw [updBar_barAt g hc hi] at hf ⊢
  rw [updBar_updBar]
  refine ⟨hcount, i, barOf_updBar hc hi (hf.trans hof) hfirst, ?_, fun j hj => updBar_barAt_ne _ hc hj, updBar_only _ hc⟩
  rw [updBar_barAt _ hc hi]

theorem chkBar_ok {e : Env} {n : BitVec 4} (hspill : e.t.spill.getLsbD n.toNat = false)
    (hfree : ((e.s.core e.b.core).barOf e.t n.toNat).isSome = true ∨ (e.s.core e.b.core).freeBars ≠ []) : e.chkBar n = .ok := by
  have hfound : ¬ (((e.s.core e.b.core).barOf e.t n.toNat).isNone && (e.s.core e.b.core).freeBars.isEmpty) = true := by
    rcases hfree with hsome | hne
    · simp [Option.isNone_eq_false_iff.mpr hsome]
    · simp [List.isEmpty_eq_false_iff.mpr hne]
  rw [Env.chkBar, if_neg hfound, hspill]
  rfl

/-! ## The release (R166) -/

/-- A thread parked on barrier n goes on when the entry's count has reached its target. -/
def Thread.passBar (n : Nat) (x : BarEntry) (th : Thread) : Thread :=
  match th.park with
  | some (.barw m target) =>
    if m = n ∧ target.toNat ≤ x.count then { th with park := none, pc := th.pc + 10, clock := Nat.max th.clock x.wts } else th
  | _ => th

theorem releaseBar_team? {s : State} {c id n i : Nat} {t : Team} (ht : s.team? c id = some t) (hbar : (s.core c).barOf t n = some i) :
    (s.releaseBar c id n).team? c id = some (t.mapThreads fun _ _ => Thread.passBar n (s.barAt c i)) := by
  simp only [State.releaseBar, ht, hbar]
  exact updTeam_team? ((updBar_team? ..).trans ht) fun _ h => h

theorem passBar_reached {n : Nat} {x : BarEntry} {th : Thread} {target : DWord} (hpark : th.park = some (.barw n target))
    (h : target.toNat ≤ x.count) : th.passBar n x = { th with park := none, pc := th.pc + 10, clock := max th.clock x.wts } := by
  simp only [Thread.passBar, hpark, h, and_self, if_true]

theorem passBar_waits {n : Nat} {x : BarEntry} {th : Thread} (h : ∀ target, th.park = some (.barw n target) → x.count < target.toNat) :
    th.passBar n x = th := by
  unfold Thread.passBar
  split
  · next m target hpark =>
    refine if_neg fun ⟨hm, hle⟩ => ?_
    exact absurd hle (Nat.not_le.mpr (h target (hm ▸ hpark)))
  · rfl

/-- BARW reads the entry that it opens, and parks where the count has not reached its target. -/
def barwSem (n : BitVec 4) (a : Src) : Sem :=
  { uses := { reads := names64 a }
    needs := []
    chk := fun e => e.chkBar n
    act := fun e s =>
      let o := s.openBar e.b.core e.t n.toNat
      let x := o.2.barAt e.b.core o.1
      (o.2.updBar e.b.core o.1 fun _ => (x.read e.th.clock).2,
       { clock := (x.read e.th.clock).1
         park := if (e.src64 a).toNat ≤ x.count then none else some (.barw n.toNat (e.src64 a)) }) }

theorem exec_barw (h : Hdr) (n : BitVec 4) (a : Src) (s : State) : exec (.barw h n a) s = .next (runBundle h (barwSem n a) s) := by
  show execBarw h n a s = _
  unfold execBarw barwSem
  congr 3
  funext e s
  dsimp only
  split <;> rfl

/-- Settles O22: both words work on the entry that they open (`openBar_opens`), and a release lets each waiter pass or wait. -/
theorem barriers : Obligations.Barriers := by
  unfold Obligations.Barriers
  refine ⟨fun h one r n d a => ⟨?_, ?_⟩, fun s c id n i t g l th ht hbar hth => ?_⟩
  · refine acts_of_run (fun _ => rfl) rfl rfl rfl rfl rfl (fun e ⟨hspill, hfree⟩ => ⟨rfl, chkBar_ok hspill hfree⟩) (fun _ _ => rfl)
      fun e s t _ ht _ => ?_
    obtain ⟨hcycle, hteam⟩ := openBar_frame s e.b.core e.t n.toNat
    exact ⟨⟨_, fun _ _ hfree => openBar_opens (core_lt_of_team? ht) hfree rfl, rfl⟩, rfl, rfl, hcycle, t,
      (updBar_team? ..).trans ((hteam ..).trans ht), rfl⟩
  · refine acts_of_run (exec_barw h n a) rfl rfl rfl rfl rfl (fun e ⟨hspill, hfree⟩ => ⟨rfl, chkBar_ok hspill hfree⟩) (fun _ _ => rfl)
      fun e s t _ ht _ => ?_
    obtain ⟨hcycle, hteam⟩ := openBar_frame s e.b.core e.t n.toNat
    exact ⟨⟨_, fun _ _ hfree => openBar_opens (core_lt_of_team? ht) hfree rfl, rfl⟩, rfl, rfl, hcycle, t,
      (updBar_team? ..).trans ((hteam ..).trans ht), rfl⟩
  · refine ⟨_, _, releaseBar_team? ht hbar, (mapThreads_thread? ..).trans (congrArg _ hth), fun target hpark hle => ?_, fun hwait => ?_⟩
    · exact passBar_reached hpark hle
    · exact passBar_waits hwait

end Sys2Proof.Machine

/-! PROOF. The carve-out (O23): arrivals at a rendezvous, what a grant, a shrink and a refusal leave of the team, and the evaluation of a
complete request. -/

namespace Sys2Proof.Machine

/-! ## Maps whose values change, and their entries -/

section
variable {α : Type} [DecidableEq α] {d : α}

/-- The map with its values changed; entries that become the default leave. -/
def amMap (d : α) (f : Nat → α → α) (m : List (Nat × α)) : List (Nat × α) :=
  (m.map fun e => (e.1, f e.1 e.2)).filter fun e => decide (e.2 ≠ d)

theorem amMap_cons (f : Nat → α → α) (k : Nat) (v : α) (r : List (Nat × α)) :
    amMap d f ((k, v) :: r) = if f k v = d then amMap d f r else (k, f k v) :: amMap d f r := by
  simp only [amMap, List.map_cons, List.filter_cons, decide_eq_true_eq, ite_not]

theorem amWf_amMap (f : Nat → α → α) : ∀ {lo : Nat} {m : List (Nat × α)}, amWf d lo m = true → amWf d lo (amMap d f m) = true
  | _, [], _ => rfl
  | lo, (k, v) :: r, hm => by
    simp only [amWf, Bool.and_eq_true, decide_eq_true_eq] at hm
    obtain ⟨⟨hlo, -⟩, hr⟩ := hm
    have ih := amWf_amMap f hr
    rw [amMap_cons]
    split
    · exact amWf_mono (Nat.le_succ_of_le hlo) ih
    · next hv => simp [amWf, hlo, hv, ih]

theorem amGet_amMap {f : Nat → α → α} (hd : ∀ k, f k d = d) (x : Nat) : ∀ {lo : Nat} {m : List (Nat × α)}, amWf d lo m = true →
    amGet d (amMap d f m) x = f x (amGet d m x)
  | _, [], _ => (hd x).symm
  | lo, (k, v) :: r, hm => by
    simp only [amWf, Bool.and_eq_true, decide_eq_true_eq] at hm
    obtain ⟨-, hr⟩ := hm
    have ih := amGet_amMap hd x hr
    have hbelow : x ≤ k → amGet d r x = d := fun hx => amGet_below (Nat.lt_succ_of_le hx) hr
    rw [amMap_cons]
    by_cases hlt : x < k
    · have hrest : amGet d (amMap d f r) x = d := by rw [ih, hbelow hlt.le, hd]
      split <;> simp [amGet, hlt, hrest, hd]
    · by_cases heq : x = k
      · subst heq
        have hrest : amGet d (amMap d f r) x = d := by rw [ih, hbelow le_rfl, hd]
        split
        · next hv => simp [amGet, hrest, hv]
        · simp [amGet]
      · split <;> simp [amGet, hlt, heq, ih]

theorem le_of_mem_amWf : ∀ {lo : Nat} {m : List (Nat × α)}, amWf d lo m = true → ∀ e ∈ m, lo ≤ e.1
  | _, [], _, _, he => by cases he
  | lo, (k, v) :: r, hm, e, he => by
    simp only [amWf, Bool.and_eq_true, decide_eq_true_eq] at hm
    obtain ⟨⟨hlo, -⟩, hr⟩ := hm
    rcases List.mem_cons.mp he with rfl | her
    · exact hlo
    · exact Nat.le_trans (Nat.le_succ_of_le hlo) (le_of_mem_amWf hr e her)

theorem amGet_of_mem : ∀ {lo : Nat} {m : List (Nat × α)}, amWf d lo m = true → ∀ e ∈ m, amGet d m e.1 = e.2
  | _, [], _, _, he => by cases he
  | lo, (k, v) :: r, hm, e, he => by
    simp only [amWf, Bool.and_eq_true, decide_eq_true_eq] at hm
    obtain ⟨-, hr⟩ := hm
    rcases List.mem_cons.mp he with rfl | her
    · simp [amGet]
    · have hk : k < e.1 := le_of_mem_amWf hr e her
      simp [amGet, hk.ne', Nat.lt_asymm hk, amGet_of_mem hr e her]

omit [DecidableEq α] in
theorem amGet_default_or_mem (m : List (Nat × α)) (x : Nat) : amGet d m x = d ∨ (x, amGet d m x) ∈ m := by
  induction m with
  | nil => exact .inl rfl
  | cons e r ih =>
    rw [amGet]
    split
    · exact .inl rfl
    · split
      · next h => exact .inr (by simp [h])
      · exact ih.imp id (List.mem_cons_of_mem _)

end

/-! ## Lines that a shrink removes (R163) -/

section
variable {t : Team} {r : Rendezvous}

theorem firstCutLine_le_ceilDiv (n : Nat) : n / 128 ≤ ceilDiv n 128 := by
  unfold ceilDiv
  omega

/-- A line of a team whose carve-out shrinks to n bytes. -/
def Line.cutAt (n i : Nat) (x : Line) : Line := if n / 128 ≤ i then { x with held := false } else x

theorem cutAt_pending (n i : Nat) (x : Line) : (x.cutAt n i).pending = x.pending := by
  unfold Line.cutAt
  split <;> rfl

theorem cut_eq (hlt : r.bytes < t.bytes) : t.cut r = { t with lines := amMap Line.reset (Line.cutAt r.bytes) t.lines } := by
  have hmap : ∀ x : Nat × Line, (if firstCutLine r.bytes ≤ x.1 then (x.1, { x.2 with held := false }) else x) =
      (x.1, x.2.cutAt r.bytes x.1) := by
    intro x
    unfold Line.cutAt firstCutLine
    split <;> rfl
  rw [Team.cut, if_pos hlt, amMap]
  simp only [hmap]

theorem cut_line (hlt : r.bytes < t.bytes) (hwf : amWf Line.reset 0 t.lines = true) (i : Nat) :
    (t.cut r).line i = (t.line i).cutAt r.bytes i := by
  rw [cut_eq hlt]
  exact amGet_amMap (fun k => by unfold Line.cutAt; split <;> rfl) i hwf

theorem cut_wf (hlt : r.bytes < t.bytes) (hwf : amWf Line.reset 0 t.lines = true) : amWf Line.reset 0 (t.cut r).lines = true := by
  rw [cut_eq hlt]
  exact amWf_amMap _ hwf

theorem cutFree_iff (hlt : r.bytes < t.bytes) (hwf : amWf Line.reset 0 t.lines = true) : t.cutFree r = true ↔ t.freedLines r := by
  have hentries : t.cutFree r = true ↔ ∀ e ∈ t.lines, e.1 < r.bytes / 128 ∨ e.2.pending = 0 := by
    show (decide (t.bytes ≤ r.bytes) || t.lines.all fun e => decide (e.1 < r.bytes / 128) || e.2.pending == 0) = true ↔ _
    simp [Nat.not_le.mpr hlt]
  rw [hentries]
  constructor
  · intro h i hi
    rcases amGet_default_or_mem (d := Line.reset) t.lines i with hd | hmem
    · rw [Team.line, hd]
      rfl
    · exact (h _ hmem).resolve_left (Nat.not_lt.mpr hi)
  · intro h e he
    refine (Nat.lt_or_ge e.1 (r.bytes / 128)).imp_right fun hge => ?_
    rw [← amGet_of_mem hwf e he]
    exact h e.1 hge

theorem freedLines_cut (hlt : r.bytes < t.bytes) (hwf : amWf Line.reset 0 t.lines = true) : (t.cut r).freedLines r ↔ t.freedLines r :=
  forall₂_congr fun i _ => by rw [cut_line hlt hwf, cutAt_pending]

end

/-! ## Threads that go on after their CARVE (R162, R163) -/

theorem lateResult_regs (th : Thread) (l : List RWrite) : (th.lateResult l).regs = th.regs := by
  unfold Thread.lateResult
  dsimp only
  split
  · rfl
  · split <;> rfl

/-- th' is an arrived thread th that has gone on with the registers regs. -/
def WentOn (th th' : Thread) (regs : List Word) : Prop := th'.pc = th.pc + 10 ∧ th'.park = none ∧ th'.regs = regs

section
variable {t : Team} {r : Rendezvous} {g l : Nat} {th : Thread} (hth : t.thread? g l = some th)
  (harr : (r.arrivals.any fun a => a.1 == g && a.2.1 == l) = true)
include hth harr

theorem carveResume_thread? (v : Bool) : ∃ th', (t.carveResume r v).thread? g l = some th' ∧ WentOn th th' th.regs := by
  obtain ⟨a, ha⟩ := Option.isSome_iff_exists.mp (List.find?_isSome.mpr (List.any_eq_true.mp harr))
  refine ⟨_, (mapThreads_thread? t _ g l).trans (by rw [hth, Option.map_some]), ?_⟩
  rw [ha]
  exact ⟨rfl, rfl, lateResult_regs ..⟩

theorem regrant_thread? : ∃ th', (t.regrant r).thread? g l = some th' ∧
    WentOn th th' (th.regs.take r.n ++ List.replicate (r.n - t.nregs) 0) := by
  obtain ⟨th', hth', hon⟩ := carveResume_thread? (r := r) ((mapThreads_thread? t (fun _ _ th => { th with
    regs := th.regs.take r.n ++ List.replicate (r.n - t.nregs) 0
    lost := th.lost.filter fun x => match x with
      | .g i => decide (i < r.n)
      | _ => true }) g l).trans (congrArg _ hth)) harr true
  exact ⟨th', hth', hon⟩

end

/-! ## A grant (R163) -/

/-- What a grant makes of its team: the new carve-out, or a shrink that waits for copies. -/
def Team.granted (t : Team) (r : Rendezvous) : Team :=
  if (t.cut r).cutFree r then (t.cut r).regrant r else { t.cut r with carve := some { r with granting := true, queued := false } }

theorem granted_id (t : Team) (r : Rendezvous) : (t.granted r).id = t.id := by
  unfold Team.granted Team.cut
  split <;> split <;> rfl

theorem grantCarve_team? {s : State} {c id : Nat} {t : Team} {r : Rendezvous} (ht : s.team? c id = some t) (hr : t.carve = some r) :
    (s.grantCarve c id).team? c id = some (t.granted r) := by
  have hupd := updTeam_team? ht (f := fun t => match t.carve with
    | none => t
    | some r => t.granted r) fun x hx => by
      split
      · exact hx
      · exact (granted_id ..).trans hx
  rw [hr] at hupd
  exact hupd

section
variable {t : Team} {r : Rendezvous}

theorem granted_grow (hle : t.bytes ≤ r.bytes) : t.granted r = t.regrant r := by
  have hcut : t.cut r = t := if_neg (Nat.not_lt.mpr hle)
  rw [Team.granted, hcut, Team.cutFree, decide_eq_true hle]
  rfl

variable (hlt : r.bytes < t.bytes) (hlines : amWf Line.reset 0 t.lines = true)
include hlt hlines

theorem cut_cutFree_iff : (t.cut r).cutFree r = true ↔ t.freedLines r := by
  have hbytes : r.bytes < (t.cut r).bytes := by rwa [cut_eq hlt]
  rw [cutFree_iff hbytes (cut_wf hlt hlines), freedLines_cut hlt hlines]

theorem regrant_cut_line (i : Nat) :
    ((t.cut r).regrant r).line i = if i < ceilDiv r.bytes 128 then (t.line i).cutAt r.bytes i else Line.reset := by
  have hbytes : r.bytes < (t.cut r).bytes := by rwa [cut_eq hlt]
  rw [Team.line, Team.regrant]
  dsimp only
  rw [if_pos hbytes, amGet_filter (fun k => decide (k < ceilDiv r.bytes 128)) i (cut_wf hlt hlines), ← cut_line hlt hlines]
  simp only [decide_eq_true_eq]
  rfl

theorem granted_shrunk (hscratch : amWf 0 0 t.scratch = true) (hfree : t.freedLines r) : Shrunk t (t.granted r) r := by
  rw [Team.granted, if_pos ((cut_cutFree_iff hlt hlines).mpr hfree)]
  refine ⟨rfl, rfl, rfl, rfl, fun x => ?_, fun i => ?_, fun i hi => ?_, fun i hi => ?_, fun g l th hth harr => ?_⟩
  · simp only [cut_eq hlt, Team.regrant, if_pos hlt]
    simpa using amGet_filter (fun k => decide (k < r.bytes)) x hscratch
  · simp [cut_eq hlt, Team.regrant]
  · rw [regrant_cut_line hlt hlines, if_pos (Nat.lt_of_lt_of_le hi (firstCutLine_le_ceilDiv _)), Line.cutAt,
      if_neg (Nat.not_le.mpr hi)]
  · rw [regrant_cut_line hlt hlines, Line.cutAt, if_pos hi]
    split
    · exact ⟨rfl, hfree i hi⟩
    · exact ⟨rfl, rfl⟩
  · rw [cut_eq hlt]
    exact regrant_thread? (t := { t with lines := _ }) hth harr

theorem granted_waits (hbusy : ¬ t.freedLines r) : ShrinkWaits t (t.granted r) r := by
  rw [Team.granted, if_neg (mt (cut_cutFree_iff hlt hlines).mp hbusy)]
  refine ⟨by rw [cut_eq hlt], fun i => ?_⟩
  have hline : Team.line { t.cut r with carve := some { r with granting := true, queued := false } } i = (t.line i).cutAt r.bytes i :=
    cut_line hlt hlines i
  rw [hline, Line.cutAt]
  split
  · next h => simp [Nat.not_lt.mpr h]
  · next h => simp [Nat.lt_of_not_le h]

end

/-! ## The rendezvous (R162) -/

theorem arrive_joins (t : Team) (g l n bytes l1 : Nat) (trying : Bool) (pq : Option (BitVec 3)) :
    ∃ r, t.arrive g l n bytes l1 trying pq = { t with carve := some r } ∧ r.trying = trying ∧
      (t.carve = none → r.n = n ∧ r.bytes = bytes ∧ r.l1 = l1 ∧ r.arrivals = [(g, l, pq)] ∧ r.differs = none ∧ r.queued = false ∧
        r.granting = false) ∧
      ∀ q, t.carve = some q → r.n = q.n ∧ r.bytes = q.bytes ∧ r.l1 = q.l1 ∧ r.arrivals = q.arrivals ++ [(g, l, pq)] ∧
        (q.differs = none → (r.differs = none ↔ n = q.n ∧ bytes = q.bytes ∧ l1 = q.l1)) := by
  unfold Team.arrive
  cases hcarve : t.carve with
  | none => exact ⟨_, rfl, rfl, fun _ => ⟨rfl, rfl, rfl, rfl, rfl, rfl, rfl⟩, fun q hq => by cases hq⟩
  | some r =>
    refine ⟨_, rfl, rfl, fun h => (by cases h), fun q hq => ?_⟩
    cases hq
    refine ⟨rfl, rfl, rfl, rfl, fun hnone => ?_⟩
    simp [hnone, and_assoc, eq_comm (a := n), eq_comm (a := bytes), eq_comm (a := l1)]

section
variable {s : State} {c id : Nat} {t : Team} {r : Rendezvous} (ht : s.team? c id = some t) (hr : t.carve = some r)
  (hq : r.queued = false) (hg : r.granting = false) (hall : t.allArrived r = true) (hsame : r.differs = none)
  (hvalid : s.carveInvalid c t r = false)
include ht hr hq hg hall hsame hvalid

theorem carveCheck_grants (h : t.newGranules r < t.granules ∨
    (((s.core c).bank t.bank).grow = [] ∧ t.newGranules r ≤ t.granules + (s.core c).freePool t.bank)) :
    (s.carveCheck c id).team? c id = some (t.granted r) := by
  have hgrant : s.carveCheck c id = s.grantCarve c id := by
    simp only [State.carveCheck, ht, hr, hq, hg, hall, hsame, hvalid, Bool.not_true, Bool.or_self, Bool.false_eq_true, if_false]
    exact if_pos (by simpa using h)
  rw [hgrant, grantCarve_team? ht hr]

theorem carveCheck_refuses (htry : r.trying = true) (hpool : t.granules + (s.core c).freePool t.bank < t.newGranules r) :
    (s.carveCheck c id).team? c id = some (t.carveResume r false) := by
  have hrefuse : s.carveCheck c id = s.updTeam c id fun t => t.carveResume r false := by
    have hgrow : t.granules < t.newGranules r := Nat.lt_of_le_of_lt (Nat.le_add_right _ _) hpool
    simp only [State.carveCheck, ht, hr, hq, hg, hall, hsame, hvalid, htry, Bool.not_true, Bool.or_self, Bool.false_eq_true, if_false]
    exact (if_neg (by simp [Nat.not_lt.mpr hgrow.le, hpool])).trans (if_pos trivial)
  rw [hrefuse]
  exact updTeam_team? ht fun _ h => h

end

/-- Settles O23: an arrival joins the rendezvous (`arrive_joins`); the last one's check grants (`carveCheck_grants`), at once or once
the removed lines are free, or refuses. -/
theorem carveOuts : Obligations.CarveOuts := by
  unfold Obligations.CarveOuts
  refine ⟨fun h try' a b c pq => ?_, fun s c id t r g l th ht hr hq hg hall hsame hvalid hth harr => ⟨?_, ?_, ?_⟩⟩
  · refine acts_of_run (fun _ => rfl) rfl rfl rfl rfl rfl (fun _ _ => ⟨rfl, rfl⟩) (fun _ _ => rfl) fun e s t _ ht _ => ?_
    have hteam := updTeam_team? ht (f := fun x =>
      x.arrive e.g e.l (e.src32 a).toNat (e.src32 b).toNat (e.src32 c).toNat try' pq) fun x hx => by
        obtain ⟨r, heq, -⟩ := arrive_joins x e.g e.l (e.src32 a).toNat (e.src32 b).toNat (e.src32 c).toNat try' pq
        rw [heq]
        exact hx
    obtain ⟨r, heq, hjoin⟩ := arrive_joins t e.g e.l (e.src32 a).toNat (e.src32 b).toNat (e.src32 c).toNat try' pq
    refine ⟨⟨rfl, fun t' ht' => ?_⟩, rfl, rfl, rfl, _, hteam, by rw [heq]⟩
    cases ht.symm.trans ht'
    exact ⟨_, r, hteam, heq, hjoin⟩
  · intro hgranted hlt hscratch hlines
    exact ⟨_, carveCheck_grants ht hr hq hg hall hsame hvalid hgranted, granted_shrunk hlt hlines hscratch, granted_waits hlt hlines⟩
  · intro hgranted hle
    obtain ⟨th', hth', hpc, hpark, hregs⟩ := regrant_thread? hth harr
    have hteam := carveCheck_grants ht hr hq hg hall hsame hvalid hgranted
    rw [granted_grow hle] at hteam
    exact ⟨_, th', hteam, rfl, rfl, rfl, rfl, hth', hpc, hpark, hregs⟩
  · intro htry hpool _
    obtain ⟨th', hth', hpc, hpark, hregs⟩ := carveResume_thread? hth harr false
    exact ⟨_, th', carveCheck_refuses ht hr hq hg hall hsame hvalid htry hpool, rfl, rfl, rfl, rfl, hth', hpc, hpark, hregs⟩

end Sys2Proof.Machine

/-! PROOF. Bank pools (O24): the grow queue and its deadlock, the departure of a team, and the writes of barrier entries and modes. -/

namespace Sys2Proof.Machine

/-! ## The grow queue (R163, R164) -/

theorem updBank_bank {k : Core} {b : Nat} (hb : b < k.banks.length) (f : Bank → Bank) : (k.updBank b f).bank b = f (k.bank b) :=
  updAt_getD_self _ _ _ hb

/-- The state with the grow queue of a bank replaced. -/
def State.setGrow (s : State) (c b : Nat) (l : List Nat) : State := s.updCore c fun k => k.updBank b fun x => { x with grow := l }

theorem setGrow_team? (s : State) (c b : Nat) (l : List Nat) (d id : Nat) : (s.setGrow c b l).team? d id = s.team? d id :=
  updCore_team? s c d id fun _ => rfl

theorem setGrow_grow {s : State} {c b : Nat} (hc : c < s.cores.length) (hb : b < (s.core c).banks.length) (l : List Nat) (id : Nat) :
    ((((s.setGrow c b l).grantCarve c id).core c).bank b).grow = l := by
  have hkept : ∀ s : State, (((s.grantCarve c id).core c).bank b) = (s.core c).bank b := fun s =>
    updCore_keeps (fun k => k.bank b) s c c fun _ => rfl
  rw [hkept, State.setGrow, core_updCore hc, updBank_bank hb]

theorem cutDue_none {k : Core} {b : Nat} (h : ∀ x ∈ k.teams, ∀ y, x.carve = some y → y.granting = false) : k.cutDue b = none := by
  rw [Core.cutDue, List.find?_eq_none]
  intro x hx
  cases hcarve : x.carve with
  | none => simp
  | some y => simp [h x hx y hcarve]

/-- A granted shrink that is due: its team's removed lines are free. -/
theorem cutDue_free {k : Core} {b : Nat} {t : Team} {r : Rendezvous} (h : k.cutDue b = some t) (hr : t.carve = some r) :
    t.cutFree r = true := by
  have hfound := List.find?_some h
  simp only [hr, Bool.and_eq_true] at hfound
  exact hfound.2.2

section
variable {s : State} {c b id : Nat} {rest : List Nat} {t : Team} {r : Rendezvous} (hactive : b = (s.core c).active)
  (hgrow : ((s.core c).bank b).grow = id :: rest) (ht : (s.core c).team? id = some t) (hr : t.carve = some r)
include hactive hgrow ht hr

theorem growQueueGrant_head (hdue : (s.core c).cutDue b = none) : exec (.growQueueGrant c b) s =
    .next (if t.newGranules r ≤ t.granules + (s.core c).freePool b then (s.setGrow c b rest).grantCarve c id else s) := by
  show execGrowQueueGrant c b s = _
  simp only [execGrowQueueGrant, hdue, ← hactive, hgrow, ht, hr, ne_eq, not_true_eq_false, if_false]
  split <;> rfl

theorem deadlocked_head (hfits : ¬ t.newGranules r ≤ t.granules + (s.core c).freePool b)
    (hall : ∀ x ∈ (s.core c).teams, x.bank = b → ∃ y, x.carve = some y ∧ y.queued = true) : (s.core c).deadlocked b = some t := by
  have hwait : ((s.core c).bankTeams b).all (fun x => match x.carve with | some y => y.queued | none => false) = true := by
    rw [List.all_eq_true]
    intro x hx
    obtain ⟨hmem, hbank⟩ := List.mem_filter.mp hx
    obtain ⟨y, hy, hqueued⟩ := hall x hmem (eq_of_beq hbank)
    rw [hy]
    exact hqueued
  simp only [Core.deadlocked, hgrow, ht, hr]
  exact if_pos (Bool.and_eq_true_iff.mpr
    ⟨Bool.and_eq_true_iff.mpr ⟨decide_eq_true hactive, decide_eq_true (Nat.lt_of_not_le hfits)⟩, hwait⟩)

end

/-! ## A halt that the core raises (R164, R169) -/

/-- The halt that a cause raised by no bundle begins. -/
def Trap.haltOf (tr : Trap) (s : State) (r : ThreadRef) (t : Team) (mx : Option (Nat × Nat)) : Halt :=
  { cause := tr.cause, addr := tr.addr, extra := tr.extra, cf := s.cycle, who := some (r.group, r.lane)
    pc := match t.thread? r.group r.lane with | some th => th.pc | none => 0
    skids := skidList t, stops := stopList t (s.runs r.core t), mx := mx, entry := none, recorded := false }

theorem raiseTrap_eq {s : State} {r : ThreadRef} {t : Team} {tr : Trap} (ht : s.team? r.core r.team = some t) (hh : t.halt = none)
    (hcause : tr.cause ≠ 0xA1) (hruns : s.runs r.core t = true) (mx : Option (Nat × Nat)) :
    s.raiseTrap r tr mx = s.haltTeam r.core r.team (tr.haltOf s r t mx) [r.group] := by
  simp only [State.raiseTrap, Trap.haltOf, ht, hh, hruns, if_neg hcause, if_true] <;> rfl

theorem stopGroup_grow {s : State} {c : Nat} (hc : c < s.cores.length) (id g b : Nat) :
    id ∉ (((s.stopGroup c id g).core c).bank b).grow := by
  rw [stopGroup_core, core_updCore (by simpa [State.updTeam, State.updCore] using hc)]
  simp only [Core.bank, List.getD_eq_getElem?_getD, List.getElem?_map]
  cases ((s.updTeam c id fun t => t.quitGroup g).core c).banks[b]? with
  | none => simp [Bank.reset]
  | some x => simp

theorem haltTeam_grow {s : State} {c id : Nat} {t : Team} (ht : s.team? c id = some t) (h : Halt) (g b : Nat) :
    id ∉ (((s.haltTeam c id h [g]).core c).bank b).grow := by
  have hlen : c < (s.updTeam c id fun t => { t with halt := some h }).cores.length := by
    simpa [State.updTeam, State.updCore] using core_lt_of_team? ht
  have hcore : (s.haltTeam c id h [g]).core c =
      (((s.updTeam c id fun t => { t with halt := some h }).stopGroup c id g).stopOps c fun o => o.of t).core c := by
    simp only [State.haltTeam, ht]
    rfl
  rw [hcore, stopOps_core, updCore_keeps fun k => k.bank b]
  · exact stopGroup_grow hlen id g b
  · exact fun _ => rfl

/-! ## The departure of a team (R155) -/

theorem returnCtx_none {s : State} {c ctx : Nat} (h : ∀ a ∈ (s.core c).allow, a.ctx ≠ ctx) : s.returnCtx c ctx = s := by
  have hnone : ((s.core c).allow.filter fun a => a.ctx == ctx) = [] := List.filter_eq_nil_iff.mpr fun a ha => by simp [h a ha]
  rw [State.returnCtx, hnone]
  rfl

/-- A core that a team has left. -/
def Core.left (k : Core) (t : Team) (id : Nat) : Core :=
  { k.outlive t.maxClock with
    teams := k.teams.filter fun x => x.id != id
    banks := k.banks.map fun b =>
      { b with rotation := b.rotation.map fun x => if x.1 = id then (id + 32, x.2) else x, joining := b.joining.filter fun x => x != id
               grow := b.grow.filter fun x => x != id }
    bars := (k.freeBarsOf t).bars }

theorem removeTeam_frame {s : State} {c id : Nat} {t : Team} (ht : s.team? c id = some t) : (s.removeTeam c id).mem = s.mem ∧
    (s.removeTeam c id).grids = s.grids.map (Grid.less t) ∧ (s.removeTeam c id).core c = (s.core c).left t id ∧
    ∀ d, d ≠ c → (s.removeTeam c id).core d = s.core d := by
  have hcore : ∀ d, (s.removeTeam c id).core d = (s.updCore c fun k => k.left t id).core d := fun d => by
    simp only [State.removeTeam, ht]
    rfl
  refine ⟨?_, ?_, ?_, fun d hd => ?_⟩
  · simp only [State.removeTeam, ht]
    rfl
  · simp only [State.removeTeam, ht]
    rfl
  · rw [hcore, core_updCore (core_lt_of_team? ht)]
  · rw [hcore]
    exact updAt_getD_ne _ _ _ hd

/-- A departure of a team whose context has no allowances on the core. -/
theorem departTeam_eq {s : State} {c id : Nat} {t : Team} (ht : s.team? c id = some t) (hallow : ∀ a ∈ (s.core c).allow, a.ctx ≠ t.ctx) :
    s.departTeam c id = s.removeTeam c id := by
  obtain ⟨-, -, hcore, -⟩ := removeTeam_frame ht
  simp only [State.departTeam, ht, State.lastLeft]
  split
  · rfl
  · refine returnCtx_none ?_
    rw [hcore]
    exact hallow

theorem freeBarsOf_none (k : Core) (t : Team) : ∀ e ∈ (k.freeBarsOf t).bars, e.valid = true → ¬ (e.ctx = t.ctx ∧ e.vtid = t.vtid) := by
  intro e he hvalid ⟨hctx, hvtid⟩
  obtain ⟨x, -, rfl⟩ := List.mem_map.mp he
  split at hvalid
  · cases hvalid
  · next h =>
    rw [if_neg h] at hctx hvtid
    exact h (by simp [hvalid, Team.isNamed, hctx, hvtid])

/-! ## Writes of the core control window (R168, R172) -/

theorem ifOn_on {s : State} (h : s.power = .on) (f : State → State) : s.ifOn f = .next (f s) := by
  rw [State.ifOn, if_pos h]

theorem fld_extract (v : DWord) (lo n : Nat) : fld v.toNat lo n = (v.extractLsb' lo n).toNat := by
  rw [fld, BitVec.extractLsb'_toNat, Nat.shiftRight_eq_div_pow]

section
variable {s : State} {c e : Nat} (hc : c < s.cores.length) (he : e < (s.core c).bars.length)
include hc he

/-- An event that changes an entry changes nothing else. -/
theorem writes_bar {i : Instr} {f : BarEntry → BarEntry} (h : exec i s = .next (s.updBar c e f)) :
    ∃ s', exec i s = .next s' ∧ s'.barAt c e = f (s.barAt c e) ∧ s' = s.updCore c fun k => { k with bars := (s'.core c).bars } :=
  ⟨_, h, updBar_barAt f hc he, updBar_only f hc⟩

end

section
variable {s : State} (hon : s.power = .on) (c e : Nat)
include hon

theorem exec_barrierEntryFree : exec (.barrierEntryFree c e) s = .next (if (s.barAt c e).valid && !s.hasWaiters c (s.barAt c e) then
    s.updBar c e fun y => { y with valid := false, counted := false, keyed := false } else s) := ifOn_on hon fun s => s.barFree c e
theorem exec_barrierEntryFill : exec (.barrierEntryFill c e) s = .next (if !(s.barAt c e).valid && (s.barAt c e).counted &&
    (s.barAt c e).keyed then s.updBar c e fun y => { y with valid := true } else s) := ifOn_on hon fun s => s.barFill c e
theorem exec_barrierCountWrite (v : DWord) : exec (.barrierCountWrite c e v) s = .next (if (s.barAt c e).valid then s else
    s.updBar c e fun y => { y with count := v.toNat, counted := true }) := ifOn_on hon fun s => s.barCount c e v
theorem exec_barrierKeyWrite (v : DWord) : exec (.barrierKeyWrite c e v) s = .next (if (s.barAt c e).valid then s else
    s.updBar c e fun y => { y with
      ctx := (v.extractLsb' 40 12).toNat, number := (v.extractLsb' 36 4).toNat, vtid := (v.extractLsb' 12 24).toNat, keyed := true }) := by
  rw [← fld_extract, ← fld_extract, ← fld_extract]
  exact ifOn_on hon fun s => s.barKey c e v

end

/-! ## The obligation's parts -/

theorem quitGroups_carved (now : List Nat) : ∀ t : Team, (now.foldl Team.quitGroup t).nregs = t.nregs ∧
    (now.foldl Team.quitGroup t).bytes = t.bytes ∧ (now.foldl Team.quitGroup t).l1 = t.l1 := by
  induction now with
  | nil => exact fun _ => ⟨rfl, rfl, rfl⟩
  | cons g r ih => exact fun t => ih (t.quitGroup g)

section
variable {s : State} {c b id : Nat} {rest : List Nat} {t : Team} {r : Rendezvous} (hactive : b = (s.core c).active)
  (hgrow : ((s.core c).bank b).grow = id :: rest) (ht : (s.core c).team? id = some t) (hr : t.carve = some r)
include hactive hgrow ht hr

/-- The head whose request the pool covers leaves the queue with its grant. -/
theorem growQueueGrant_fits (hb : b < (s.core c).banks.length) (hdue : (s.core c).cutDue b = none)
    (hfits : t.newGranules r ≤ t.granules + (s.core c).freePool b) : ∃ s', exec (.growQueueGrant c b) s = .next s' ∧ s'.mem = s.mem ∧
    s'.team? c id = some (t.granted r) ∧ ((s'.core c).bank b).grow = rest := by
  have hexec := growQueueGrant_head hactive hgrow ht hr hdue
  rw [if_pos hfits] at hexec
  exact ⟨_, hexec, rfl, grantCarve_team? ((setGrow_team? ..).trans ht) hr, setGrow_grow (core_lt_of_team? (s := s) ht) hb rest id⟩

/-- The head of a deadlocked queue takes 0x73, named by its last arrival. -/
theorem carveOutDeadlock_halts (hbank : t.bank = b) (hhalt : t.halt = none) (hmoving : s.movingCore c = false)
    (hfits : ¬ t.newGranules r ≤ t.granules + (s.core c).freePool b)
    (hall : ∀ x ∈ (s.core c).teams, x.bank = b → ∃ y, x.carve = some y ∧ y.queued = true) :
    ∃ s' t' h, exec (.carveOutDeadlock c b) s = .next s' ∧ s'.mem = s.mem ∧ s'.team? c id = some t' ∧ t'.halt = some h ∧
      h.cause = 0x73 ∧ (∀ g l p, r.arrivals.getLast? = some (g, l, p) → h.who = some (g, l)) ∧ id ∉ ((s'.core c).bank b).grow ∧
      t'.nregs = t.nregs ∧ t'.bytes = t.bytes ∧ t'.l1 = t.l1 := by
  have hteam : s.team? c id = some t := ht
  have hruns : s.runs c t = true := by simp [State.runs, hbank, ← hactive, hmoving]
  obtain ⟨who, hwho, hexec⟩ : ∃ who : Nat × Nat, (∀ g l p, r.arrivals.getLast? = some (g, l, p) → who = (g, l)) ∧
      exec (.carveOutDeadlock c b) s = .next (s.raiseTrap { core := c, team := id, group := who.1, lane := who.2 } { cause := 0x73 } none) := by
    refine ⟨match r.arrivals.getLast? with | some a => (a.1, a.2.1) | none => (0, 0), fun g l p hlast => by rw [hlast], ?_⟩
    show execCarveOutDeadlock c b s = _
    simp only [execCarveOutDeadlock, deadlocked_head hactive hgrow ht hr hfits hall, hr, team?_id hteam] <;> rfl
  obtain ⟨hmem, -⟩ := onlyCore_raiseTrap s { core := c, team := id, group := who.1, lane := who.2 } { cause := 0x73 } none
  rw [raiseTrap_eq hteam hhalt (by decide) hruns none] at hexec hmem
  exact ⟨_, _, _, hexec, hmem, haltTeam_team? hteam _ _, quitGroups_halt _ _, rfl, fun g l p hlast => congrArg some (hwho g l p hlast),
    haltTeam_grow hteam _ _ b, quitGroups_carved _ _⟩

end

/-- A departure clears the team's place and barrier entries and takes it from its grid. -/
theorem teamDeparture_leaves {s : State} {c id : Nat} {t : Team} (hworks : s.works = true) (hid : id < 32) (ht : s.team? c id = some t)
    (hmay : s.mayDepart c t = true) (hmoving : s.movingCore c = false) (hallow : ∀ a ∈ (s.core c).allow, a.ctx ≠ t.ctx) :
    ∃ s', exec (.teamDeparture c id) s = .next s' ∧ s'.mem = s.mem ∧ s'.grids = s.grids.map (Grid.less t) ∧
      s'.core c = (s.core c).left t id ∧ ∀ d, d ≠ c → s'.core d = s.core d := by
  refine ⟨s.removeTeam c id, ?_, removeTeam_frame ht⟩
  show execTeamDeparture c id s = _
  simp [execTeamDeparture, hworks, hmoving, hid, ht, hmay, departTeam_eq ht hallow]

theorem coreModeWrite_empty {s : State} {c : Nat} {v : DWord} (hon : s.power = .on) (hc : c < s.cores.length) (hteams : (s.core c).teams = [])
    (himages : ∀ i ∈ s.images, i.core ≠ c) : ∃ s', exec (.coreModeWrite c v) s = .next s' ∧ s'.mem = s.mem ∧
    (s'.core c).twoCtx = v.getLsbD 0 ∧ (s'.core c).active = 0 ∧ (s'.core c).bars = (s.core c).bars := by
  have hfree : ((s.core c).teams.isEmpty && !(s.images.any fun i => i.core == c)) = true := by simpa [hteams] using himages
  refine ⟨s.coreMode c v, ifOn_on hon fun s => s.coreMode c v, ?_⟩
  rw [State.coreMode, if_pos hfree, core_updCore hc]
  exact ⟨rfl, bitOf_eq_testBit _ _, rfl, rfl⟩

theorem coreModeWrite_teams {s : State} {c : Nat} {v : DWord} (hon : s.power = .on) (hteams : (s.core c).teams ≠ []) :
    exec (.coreModeWrite c v) s = .next s := by
  refine (ifOn_on hon fun s => s.coreMode c v).trans ?_
  rw [State.coreMode, if_neg (by simp [hteams])]

/-- Settles O24: the head's grant (`growQueueGrant_fits`), its deadlock (`carveOutDeadlock_halts`), a due shrink (`cutDue_free`), the
departure (`teamDeparture_leaves`), and the writes of the core control window. -/
theorem bankPools : Obligations.BankPools := by
  unfold Obligations.BankPools
  refine ⟨⟨fun s c b id rest t r hactive hb hgrow ht hr hbank hnone => ?_, fun s c b t r hdue ht hr hlt hscratch hlines => ?_,
    fun s c id t hworks hid ht hmay hmoving hallow => ?_⟩, fun s c e j v hon hc he => ?_⟩
  · have hfirst := cutDue_none (b := b) hnone
    refine ⟨fun hfits hle => ?_, fun hfits hlt hscratch hlines => ?_, fun hfits => ?_, fun hfits hhalt hmoving hall => ?_⟩
    · obtain ⟨s', hexec, hmem, hteam, hrest⟩ := growQueueGrant_fits hactive hgrow ht hr hb hfirst hfits
      rw [granted_grow hle] at hteam
      exact ⟨s', _, hexec, hmem, hteam, hrest, rfl, rfl, rfl, rfl, if_neg (Nat.not_lt.mpr hle), fun g l th => regrant_thread?⟩
    · obtain ⟨s', hexec, hmem, hteam, hrest⟩ := growQueueGrant_fits hactive hgrow ht hr hb hfirst hfits
      exact ⟨s', _, hexec, hmem, hteam, hrest, granted_shrunk hlt hlines hscratch, granted_waits hlt hlines⟩
    · rw [growQueueGrant_head hactive hgrow ht hr hfirst, if_neg hfits]
    · exact carveOutDeadlock_halts hactive hgrow ht hr hbank hhalt hmoving hfits hall
  · have hexec : exec (.growQueueGrant c b) s = .next (s.grantCarve c t.id) := by
      show execGrowQueueGrant c b s = _
      simp only [execGrowQueueGrant, hdue]
    have hfree := (cutFree_iff hlt hlines).mp (cutDue_free hdue hr)
    exact ⟨_, _, hexec, rfl, grantCarve_team? ht hr, granted_shrunk hlt hlines hscratch hfree⟩
  · obtain ⟨s', hexec, hmem, hgrids, hcore, hother⟩ := teamDeparture_leaves hworks hid ht hmay hmoving hallow
    refine ⟨s', hexec, hmem, by rw [hcore]; rfl, by rw [hcore]; exact freeBarsOf_none _ _, fun g hg => ?_, by rw [hcore]; rfl,
      fun d hd => by rw [hother d hd]⟩
    rw [hgrids] at hg
    obtain ⟨y, hy, rfl⟩ := List.mem_map.mp hg
    refine ⟨y, hy, ?_⟩
    unfold Grid.less
    split <;> exact ⟨rfl, rfl⟩
  · refine ⟨⟨fun hvalid hwait => ?_, fun hkept => ?_⟩, ⟨fun hvalid hcounted hkeyed => ?_, fun hkept => ?_⟩,
      ⟨fun hvalid => ?_, fun hkept => ?_⟩, ⟨fun hvalid => ?_, fun hkept => ?_⟩, ifOn_on hon fun s => s.spillMask c j v,
      coreModeWrite_empty hon hc, coreModeWrite_teams hon⟩
    · exact writes_bar (f := fun y => { y with valid := false, counted := false, keyed := false }) hc he (by
        rw [exec_barrierEntryFree hon, if_pos (by simp [hvalid, hwait])])
    · rw [exec_barrierEntryFree hon, if_neg (by rcases hkept with h | h <;> simp [h])]
    · exact writes_bar (f := fun y => { y with valid := true }) hc he (by
        rw [exec_barrierEntryFill hon, if_pos (by simp [hvalid, hcounted, hkeyed])])
    · rw [exec_barrierEntryFill hon, if_neg (by rcases hkept with h | h | h <;> simp [h])]
    · exact writes_bar (f := fun y => { y with count := v.toNat, counted := true }) hc he (by
        rw [exec_barrierCountWrite hon, if_neg (by simp [hvalid])])
    · rw [exec_barrierCountWrite hon, if_pos hkept]
    · exact writes_bar (f := fun y => { y with
        ctx := (v.extractLsb' 40 12).toNat, number := (v.extractLsb' 36 4).toNat, vtid := (v.extractLsb' 12 24).toNat, keyed := true })
        hc he (by rw [exec_barrierKeyWrite hon, if_neg (by simp [hvalid])])
    · rw [exec_barrierKeyWrite hon, if_pos hkept]

end Sys2Proof.Machine

/-! PROOF. Bank switches (O43): the frame of a spill fails where memory's map is not in its canonical form. -/

namespace Sys2Proof.Machine

/-! ## Memory's map under a write (R175) -/

theorem amSetList_head {α : Type} [DecidableEq α] (d : α) {m : List (Nat × α)} {e : Nat × α} {a : Nat} (hm : m.head? = some e)
    (ha : e.1 < a) (l : List α) : (amSetList d m a l).head? = some e := by
  obtain ⟨r, rfl⟩ := List.head?_eq_some_iff.mp hm
  simp [amSetList, ha]

theorem physPut_mem {s : State} {pa : Nat} {d : List Byte} (hn : memPart pa d.length ≠ 0) (clock : Nat) :
    (s.physPut pa d clock).2.mem = amSetList 0 s.mem pa (d.take (memPart pa d.length)) := by
  unfold State.physPut
  rw [(physWrite_mem _ pa d clock hn).1, (foldl_mem _ (fun s u => dropUnit_mem s _ u) _ s).1]

/-- One block of an image. -/
def State.fillBlock (s : State) (pa n : Nat) (f : Nat → Byte) (i : Nat) : State :=
  let k := memPart (pa + 4096 * i) (Nat.min 4096 (n - 4096 * i))
  if k = 0 then s else (s.physPut (pa + 4096 * i) ((List.range k).map fun j => f (4096 * i + j)) 0).2

theorem physFill_blocks (s : State) (pa n : Nat) (f : Nat → Byte) :
    s.physFill pa n f = (List.range (ceilDiv n 4096)).foldl (fun s i => s.fillBlock pa n f i) s := rfl

theorem memPart_idem {pa n : Nat} : memPart pa (memPart pa n) = memPart pa n := by
  unfold memPart
  split
  · simp
  · split <;> simp

theorem fillBlock_mem {s : State} {pa n i : Nat} (f : Nat → Byte) (hk : memPart (pa + 4096 * i) (Nat.min 4096 (n - 4096 * i)) ≠ 0) :
    ∃ l, (s.fillBlock pa n f i).mem = amSetList 0 s.mem (pa + 4096 * i) l := by
  unfold State.fillBlock
  dsimp only
  rw [if_neg hk]
  exact ⟨_, physPut_mem (by rwa [List.length_map, List.length_range, memPart_idem]) 0⟩

/-- Blocks above the first entry of memory's map leave it the first. -/
theorem fillBlocks_head {e : Nat × Byte} {pa : Nat} (he : e.1 < pa) (n : Nat) (f : Nat → Byte) (blocks : List Nat) {s : State}
    (hs : s.mem.head? = some e) : (blocks.foldl (fun s i => s.fillBlock pa n f i) s).mem.head? = some e := by
  induction blocks generalizing s with
  | nil => exact hs
  | cons i r ih =>
    refine ih ?_
    dsimp only
    by_cases hk : memPart (pa + 4096 * i) (Nat.min 4096 (n - 4096 * i)) = 0
    · rwa [show s.fillBlock pa n f i = s from if_pos hk]
    · obtain ⟨l, hl⟩ := fillBlock_mem (s := s) f hk
      rw [hl]
      exact amSetList_head 0 hs (Nat.lt_of_lt_of_le he (Nat.le_add_right _ _)) l

/-! ## Allowances under a fill -/

theorem foldl_allow {β : Type} (c : Nat) {f : State → β → State} (hf : ∀ s x, ((f s x).core c).allow = (s.core c).allow) (l : List β)
    (s : State) : ((l.foldl f s).core c).allow = (s.core c).allow := by
  induction l generalizing s with
  | nil => rfl
  | cons x r ih => exact (ih (f s x)).trans (hf s x)

theorem physPut_allow (s : State) (pa : Nat) (d : List Byte) (clock c : Nat) :
    ((s.physPut pa d clock).2.core c).allow = (s.core c).allow := by
  have hdrop : ∀ (l : Leaf) (s : State) (u : Nat), ((s.dropUnit l u).core c).allow = (s.core c).allow := fun l s u =>
    foldl_allow c (fun s d => updCore_keeps Core.allow s d c (f := fun k => k.dropL1 u l.grain) fun _ => rfl) _ s
  unfold State.physPut
  exact (congrArg Core.allow ((sameMachine_physWrite ..).core c)).trans (foldl_allow c (hdrop _) _ s)

theorem physFill_allow (s : State) (pa n : Nat) (f : Nat → Byte) (c : Nat) : ((s.physFill pa n f).core c).allow = (s.core c).allow := by
  rw [physFill_blocks]
  refine foldl_allow c (fun s i => ?_) _ s
  unfold State.fillBlock
  dsimp only
  split
  · rfl
  · exact physPut_allow ..

/-- What a spill of a context without allowances on the core leaves of memory is what the fill of the image's area leaves. -/
theorem imageSpill_mem {s : State} {c b : Nat} {t : Team} (hhead : ((s.core c).bankTeams b).head? = some t) (hmay : s.maySpill c b = true)
    (hallow : ∀ a ∈ (s.core c).allow, a.ctx ≠ t.ctx) : ∃ s', exec (.imageSpill c b) s = .next s' ∧
    s'.mem = (s.physFill (imageSlot (s.ctxAt t.desc).imgbase c b) (imageBytes (s.core c).twoCtx) (Config.imageByte s.free)).mem := by
  have hexec : exec (.imageSpill c b) s = execImageSpill c b s := rfl
  have hfill := physFill_allow s (imageSlot (s.ctxAt t.desc).imgbase c b) (imageBytes (s.core c).twoCtx) (Config.imageByte s.free) c
  simp only [hexec, execImageSpill, hhead, hmay, if_true]
  generalize s.physFill _ _ _ = filled at hfill ⊢
  have hreturn : ∀ (f : Core → Core) (l : List Image), (∀ k, (f k).allow = k.allow) →
      (({ filled.fresh.updCore c f with images := l } : State).returnCtx c t.ctx).mem = filled.mem := fun f l hf => by
    have hallow' : ∀ a ∈ ((filled.fresh.updCore c f).core c).allow, a.ctx ≠ t.ctx := by
      rw [updCore_keeps Core.allow filled.fresh c c hf]
      exact hfill ▸ hallow
    rw [returnCtx_none (s := { filled.fresh.updCore c f with images := l }) hallow']
    rfl
  exact ⟨_, rfl, hreturn _ _ fun _ => rfl⟩

/-! ## The counterexample -/

/-- A team without groups in bank 0, of context descriptor 0. -/
def idleTeam : Team :=
  { id := 0, bank := 0, desc := 0, ctx := 0, vtid := 0, sup := false, grid := 0, index := 0, cluster := 0, cx := 0, cy := 0, nregs := 0
    bytes := 0, l1 := 0, tiles := [], scratch := [], lost := [], lines := [], spill := 0, relocs := 0, groups := [], halt := none
    carve := none, leaving := false, stale := false }

/-- A two-context core whose inactive bank holds the idle team; the image slot of bank 0 starts at 4096. The keys of memory's map fall:
the byte at 0, whose entry stands behind that of 4096, reads as 0. -/
def unsortedState : State :=
  { State.reset with
    cores := [{ Core.reset with twoCtx := true, active := 1, teams := [idleTeam] }]
    ctxs := [{ Ctx.reset with imgbase := 4096 }]
    mem := [(4096, 1), (0, 1)] }

/-- The first block brings the entry of byte 0 to the front, where every later one leaves it. -/
theorem spill_uncovers (f : Nat → Byte) : (unsortedState.physFill 4096 1638400 f).mem.head? = some (0, 1) := by
  have hfirst : (unsortedState.fillBlock 4096 1638400 f 0).mem.head? = some (0, 1) := by
    obtain ⟨l, hl⟩ := fillBlock_mem (s := unsortedState) (pa := 4096) (n := 1638400) (i := 0) f (by decide)
    rw [hl]
    simp [amSetList, unsortedState]
  rw [physFill_blocks, show ceilDiv 1638400 4096 = 399 + 1 from rfl, List.range_succ_eq_map, List.foldl_cons]
  exact fillBlocks_head (by decide) _ _ _ hfirst

/-- Refutes O43: a spill's frame is stated without the canonical form of memory's map (`Memory.wf`) that the frames of other words assume.
In `unsortedState` byte 0, below the image's area, reads as 0 because the entry of a higher address stands before its own; the spill
removes that entry, and byte 0 reads as 1. -/
theorem not_bankSwitches : ¬ Obligations.BankSwitches := by
  unfold Obligations.BankSwitches
  rintro ⟨-, hspill, -⟩
  obtain ⟨s', img, hexec, hframe, -⟩ := hspill unsortedState 0 0 idleTeam (by decide) (by decide) (by decide) (by decide)
  obtain ⟨s'', hexec', hmem⟩ := imageSpill_mem (s := unsortedState) (c := 0) (b := 0) (t := idleTeam) (by decide) (by decide) (by decide)
  have hbyte : s'.readByte 0 = 1 := by
    cases hexec.symm.trans hexec'
    obtain ⟨r, hr⟩ := List.head?_eq_some_iff.mp (spill_uncovers (Config.imageByte unsortedState.free))
    rw [State.readByte, hmem]
    change amGet 0 (unsortedState.physFill 4096 1638400 _).mem 0 = 1
    rw [hr]
    rfl
  have hkept := hframe 0 (.inl (by decide))
  rw [hbyte] at hkept
  exact absurd hkept (by decide)

end Sys2Proof.Machine

/-! PROOF. Counter additions (O20): the addition as one read and write of a word, its push, and a bundle that waits for the fabric. -/

namespace Sys2Proof.Machine

/-! ## Weaker effects -/

theorem Runs.mono {Eff Eff' : Env → State → State → Out → Prop} (hw : ∀ e s s' o, Eff e s s' o → Eff' e s s' o) {val : Env → Out}
    {k : Nat} {l : List Env} {s s' : State} (h : Runs Eff val k l s s') : Runs Eff' val k l s s' := by
  induction h with
  | nil k s => exact .nil k s
  | cons heff _ ih => exact .cons (hw _ _ _ _ heff) ih

theorem Acts.mono {i : Instr} {h : Hdr} {u : Uses} {Eff Eff' : Env → State → State → Out → Prop} {pre look : Env → Prop} {all : TagUse}
    {sel : List Env → List Env} {post : Bundle → State → State} (ha : Acts i h u Eff pre all sel look post)
    (hw : ∀ e s s' o, Eff e s s' o → Eff' e s s' o) : Acts i h u Eff' pre all sel look post := by
  intro s b t hi hpre hlook
  obtain ⟨s1, val, t1, f, hruns, hrest⟩ := ha s b t hi hpre hlook
  exact ⟨s1, val, t1, f, hruns.mono hw, hrest⟩

/-! ## A bundle of one thread that is held (R158) -/

/-- What a performing thread of a clear word finds when its own check holds it. -/
theorem checks_later {e : Env} {h : Hdr} {m : Sem} {hd : Hold} (hc : e.clear h m.uses = true) (hearly : m.early e = none)
    (hmute : m.mute e = false) (hneeds : ∀ r ∈ m.needs, r ∈ m.uses.reads) (hchk : m.chk e = .later hd) :
    e.checks h m (fun r => e.lostReg [r]) none = .later hd := by
  have hhaz := clear_hazards hc hearly
  simp only [Env.clear, Bool.and_eq_true, Bool.not_eq_true'] at hc
  obtain ⟨⟨-, hlost⟩, hclaim⟩ := hc
  have hn := lostReg_subset hneeds hlost
  simp [Env.checks, hhaz, hmute, lostReg_any, hn, hlost, hclaim, hchk, lowerTrap]

theorem runBundle_holds {h : Hdr} {m : Sem} {s : State} {b : Bundle} {t : Team} {e : Env} {hd : Hold}
    (hi : issues s h m.uses m.allTags m.sel b t = true) (hviews : s.unstaged.views h m.allTags m.sel b t = [e])
    (hdoers : s.unstaged.doers h m.allTags m.sel b t = [e]) (hearly : ∀ x, m.early x = none) (hmute : ∀ x, m.mute x = false)
    (hneeds : ∀ r ∈ m.needs, r ∈ m.uses.reads) (hchk : m.chk (e.at (s.unstaged.slotStart b)) = .later hd) :
    runBundle h m s = s.unstaged.holdBundle b hd := by
  obtain ⟨hb, ht, -, -⟩ := issues_bundle hi
  have hp := doers_performers (hdoers ▸ List.mem_singleton_self e)
  obtain ⟨hmember, hclear⟩ := memberChk_issues hi (hviews ▸ List.mem_singleton_self e) (s.unstaged.slotStart b)
  rw [if_pos hp, checks_later (hclear hp) (hearly _) (hmute _) hneeds hchk] at hmember
  have hchks : s.unstaged.bundleChks h m b t = [(e.at (s.unstaged.slotStart b), .later hd)] := by
    simp only [State.bundleChks, hviews, laneTimes, ite_self, List.map_cons, List.map_nil, hmember]
  have hs : ({ s with bundle := none } : State) = s.unstaged := rfl
  rw [runBundle_word hb ht (by rw [hchks]; rfl)]
  simp only [runWord, hb, ht, hs, hchks]
  rfl

/-! ## Pushes (R185) -/

section
variable {th : Thread} {p : Waiter → Bool}

theorem pushed_of_waits {w : Waiter} (hpark : th.park = some (.cwait w)) (hp : p w = true) :
    th.pushed p = { th with park := some (.cwait { w with pushed := true }) } := by
  simp only [Thread.pushed, hpark, hp, if_true]

theorem pushed_of_other (h : ∀ w, th.park = some (.cwait w) → p w = false) : th.pushed p = th := by
  unfold Thread.pushed
  split
  · next w hpark => simp [h w hpark]
  · rfl

end

theorem pushScratch_thread? (t : Team) (off g l : Nat) :
    (t.pushScratch off).thread? g l = (t.thread? g l).map (Thread.pushed · fun w => w.scratch && w.addr == off) :=
  mapThreads_thread? t _ g l

theorem pushScratch_pushes {t : Team} {off g l : Nat} {th : Thread} {w : Waiter} (hth : t.thread? g l = some th)
    (hpark : th.park = some (.cwait w)) (hscratch : w.scratch = true) (haddr : w.addr = off) :
    (t.pushScratch off).thread? g l = some { th with park := some (.cwait { w with pushed := true }) } := by
  rw [pushScratch_thread?, hth, Option.map_some, pushed_of_waits hpark (by simp [hscratch, haddr])]

theorem pushScratch_passes {t : Team} {off g l : Nat} {th : Thread} (hth : t.thread? g l = some th)
    (h : ∀ w, th.park = some (.cwait w) → w.scratch = false ∨ w.addr ≠ off) : (t.pushScratch off).thread? g l = some th := by
  rw [pushScratch_thread?, hth, Option.map_some, pushed_of_other]
  intro w hw
  obtain hscratch | haddr := h w hw
  · simp [hscratch]
  · simp [haddr]

/-- A team after the push of a word of global memory. -/
def State.pushedTeam (s : State) (pa : Nat) (t : Team) : Team :=
  t.mapThreads fun _ _ th => th.pushed fun w => !w.scratch && s.localOf t.desc t.ctx w.addr == some pa

theorem pushWord_team? (s : State) (pa c id : Nat) : (s.pushWord pa).team? c id = (s.team? c id).map (s.pushedTeam pa) :=
  mapTeams_team? s (f := fun _ => s.pushedTeam pa) (fun _ _ => rfl) c id

section
variable {s : State} {pa g l : Nat} {t : Team} {th : Thread} (hth : t.thread? g l = some th)
include hth

theorem pushedTeam_pushes {w : Waiter} (hpark : th.park = some (.cwait w)) (hscratch : w.scratch = false)
    (hpa : s.localOf t.desc t.ctx w.addr = some pa) :
    (s.pushedTeam pa t).thread? g l = some { th with park := some (.cwait { w with pushed := true }) } := by
  rw [State.pushedTeam, mapThreads_thread?, hth, Option.map_some, pushed_of_waits hpark (by simp [hscratch, hpa])]

theorem pushedTeam_passes (h : ∀ w, th.park = some (.cwait w) → w.scratch = true ∨ s.localOf t.desc t.ctx w.addr ≠ some pa) :
    (s.pushedTeam pa t).thread? g l = some th := by
  rw [State.pushedTeam, mapThreads_thread?, hth, Option.map_some, pushed_of_other]
  intro w hw
  obtain hscratch | hpa := h w hw
  · simp [hscratch]
  · simp [hpa]

end

/-- A push halts no team and takes no time. -/
theorem pushCounter_keeps (e : Env) (a : Ea) {s : State} {t : Team} (ht : s.team? e.b.core e.b.team = some t) :
    (e.pushCounter a s).cycle = s.cycle ∧ ∃ t', (e.pushCounter a s).team? e.b.core e.b.team = some t' ∧ t'.halt = t.halt := by
  unfold Env.pushCounter
  split
  · exact ⟨rfl, _, updTeam_team? ht fun _ h => h, rfl⟩
  · split
    · exact ⟨rfl, _, (pushWord_team? ..).trans (congrArg (Option.map _) ht), rfl⟩
    · exact ⟨rfl, t, ht, rfl⟩

/-! ## CADD and CADDT (R182, R183, R282) -/

/-- The meaning of a counter addition whose word names the given registers. -/
def caddSem (reads : List RName) (d : BitVec 8) (m : MemArg) (thr : Env → Option Nat) : Sem :=
  { uses := { reads := reads }
    needs := memNames m
    chk := fun e => e.chkCadd (e.ea m 8)
    act := fun e s => e.countAdd (e.ea m 8) (e.th.g d.toNat).toNat (thr e) s }

theorem exec_cadd (h : Hdr) (d : BitVec 8) (m : MemArg) (s : State) : exec (.cadd h d m) s =
    .next (runBundle h (caddSem (memNames m ++ [.g d.toNat]) d m fun _ => none) s) := rfl
theorem exec_caddt (h : Hdr) (d : BitVec 8) (m : MemArg) (s : State) : exec (.caddt h d m) s =
    .next (runBundle h (caddSem (memNames m ++ [.g d.toNat] ++ pairNames (d.toNat + 2)) d m fun e =>
      some (e.th.pair (d.toNat + 2)).toNat) s) := rfl

/-- A value reaches the threshold of a word that names one. -/
def Reaches (thr : Option Nat) (v : Nat) : Bool :=
  match thr with
  | some t => decide (t ≤ v)
  | none => false

section
variable {e : Env} {a : Ea} (hmay : e.mayAccess a 8 atomMode)
include hmay

theorem chkCadd_ok (hopen : e.fabOpen = []) : e.chkCadd (.ok a) = .ok := by
  simp [Env.chkCadd, chkAccess_ok hmay, hopen, window_none_of_mayAccess hmay]

theorem chkCadd_later (hopen : e.fabOpen ≠ []) : e.chkCadd (.ok a) = .later (.fabric e.fabOpen) := by
  simp [Env.chkCadd, chkAccess_ok hmay, hopen]

theorem countAdd_eq (amount : Nat) (thr : Option Nat) (s : State) : e.countAdd (.ok a) amount thr s =
    let r := e.rmw a 8 (fun v => some (min (v + amount) (2 ^ 64 - 1))) s
    (if Reaches thr (min (r.1 + amount) (2 ^ 64 - 1)) then e.pushCounter a r.2.2 else r.2.2, { clock := r.2.1 }) := by
  simp only [Env.countAdd, window_none_of_mayAccess hmay]
  rfl

end

/-- What a counter addition does: each lane adds with saturation, and then pushes the word if its threshold is reached. -/
theorem acts_cadd {i : Instr} {h : Hdr} {reads : List RName} {d : BitVec 8} {m : MemArg} {thr : Env → Option Nat}
    (hx : ∀ s, exec i s = .next (runBundle h (caddSem reads d m thr) s)) :
    Acts i h { reads := reads }
      (fun e s s' o => ∀ a, e.ea m 8 = .ok a → ∃ v s1,
        Changes a 8 (fun x => some (min (x + (e.th.g d.toNat).toNat) (2 ^ 64 - 1))) v e s s1 ∧ o = { clock := o.clock } ∧
        s' = if Reaches (thr e) (min (v + (e.th.g d.toNat).toNat) (2 ^ 64 - 1)) then e.pushCounter a s1 else s1)
      fun e => e.fabOpen = [] ∧ ∃ a, e.ea m 8 = .ok a ∧ e.mayAccess a 8 atomMode := by
  refine acts_of_run hx rfl rfl rfl rfl rfl ?_ (fun _ _ => rfl) ?_
  · rintro e ⟨hopen, a, hea, hmay⟩
    refine ⟨rfl, ?_⟩
    show e.chkCadd (e.ea m 8) = .ok
    rw [hea, chkCadd_ok hmay hopen]
  · rintro e s t ⟨-, a, hea, hmay⟩ ht -
    obtain ⟨hchanges, hcycle, t1, ht1, hhalt⟩ := rmwStep_rmw (a := a) ht
      (fun x => some (min (x + (e.th.g d.toNat).toNat) (2 ^ 64 - 1))) (by decide : 0 < 8)
    obtain ⟨hpcycle, t2, ht2, hphalt⟩ := pushCounter_keeps e a ht1
    simp only [caddSem, hea, countAdd_eq hmay]
    refine ⟨fun a' ha' => by cases ha'; exact ⟨_, _, hchanges, trivial, rfl⟩, trivial, trivial, ?_⟩
    split
    · exact ⟨hpcycle.trans hcycle, t2, ht2, hphalt.trans hhalt⟩
    · exact ⟨hcycle, t1, ht1, hhalt⟩

/-- While fabric accesses of its thread are without an answer, the bundle of a counter addition waits (R282). -/
theorem cadd_holds {i : Instr} {h : Hdr} {reads : List RName} {d : BitVec 8} {m : MemArg} {thr : Env → Option Nat}
    (hx : ∀ s, exec i s = .next (runBundle h (caddSem reads d m thr) s)) (hneeds : ∀ r ∈ memNames m, r ∈ reads) {s : State} {b : Bundle}
    {t : Team} {e : Env} (hi : issues s h { reads := reads } .named (fun x => x) b t = true)
    (hviews : s.unstaged.views h .named (fun x => x) b t = [e]) (hdoers : s.unstaged.doers h .named (fun x => x) b t = [e])
    (hopen : e.fabOpen ≠ []) {a : Ea} (hea : (e.at (s.unstaged.slotStart b)).ea m 8 = .ok a)
    (hmay : (e.at (s.unstaged.slotStart b)).mayAccess a 8 atomMode) :
    exec i s = .next (s.unstaged.holdBundle b (.fabric e.fabOpen)) := by
  rw [hx, runBundle_holds (m := caddSem reads d m thr) hi hviews hdoers (fun _ => rfl) (fun _ => rfl) hneeds]
  show (e.at (s.unstaged.slotStart b)).chkCadd ((e.at (s.unstaged.slotStart b)).ea m 8) = .later (.fabric e.fabOpen)
  rw [hea]
  exact chkCadd_later hmay hopen

/-- Settles O20: both words are bundles of `caddSem` (`acts_cadd`, `cadd_holds`), and a push is judged thread by thread. -/
theorem counterAdditions : Obligations.CounterAdditions := by
  unfold Obligations.CounterAdditions
  refine ⟨fun h d m => ⟨?_, ?_, ?_⟩, fun t off g l th hth => ⟨rfl, fun w => ?_, ?_⟩, fun s c id pa t g l th ht hth => ?_⟩
  · refine (acts_cadd (exec_cadd h d m)).mono fun e s s' o heff a ha => ?_
    obtain ⟨v, s1, hchanges, ho, rfl⟩ := heff a ha
    exact ⟨v, hchanges, ho⟩
  · refine (acts_cadd (exec_caddt h d m)).mono fun e s s' o heff a ha => ?_
    obtain ⟨v, s1, hchanges, ho, hs'⟩ := heff a ha
    exact ⟨v, s1, hchanges, ho, by simpa [Reaches] using hs'⟩
  · rintro u i l hil s b t e hi hviews hdoers ⟨hopen, a, hea, hmay⟩
    simp only [List.mem_cons, Prod.mk.injEq, List.not_mem_nil, or_false] at hil
    obtain ⟨rfl, rfl⟩ | ⟨rfl, rfl⟩ := hil
    · refine cadd_holds (exec_cadd h d m) (fun r hr => List.mem_append_left _ hr) ?_ hviews hdoers hopen hea hmay
      simpa only [u, List.append_nil] using hi
    · exact cadd_holds (exec_caddt h d m) (fun r hr => List.mem_append_left _ (List.mem_append_left _ hr)) hi hviews hdoers hopen hea hmay
  · exact fun hpark hscratch haddr => pushScratch_pushes hth hpark hscratch haddr
  · exact pushScratch_passes hth
  · exact ⟨_, by rw [pushWord_team?, ht, Option.map_some], fun w => pushedTeam_pushes hth, pushedTeam_passes hth⟩

end Sys2Proof.Machine

/-! PROOF. Counter reads and presence (O21): the one read of a CWAIT or CPOLL, and the lines of a scratchpad that an event touches. -/

namespace Sys2Proof.Machine

/-! ## The read of a counter word (R184) -/

/-- A read that no L1 copy may serve takes memory's bytes. -/
theorem loadAt_home {s : State} {pa : Nat} (hctl : inCtl pa = false) (c ctx : Nat) (l : Leaf) (n whole clock : Nat) (keep : Bool) :
    (s.loadAt c ctx l pa n whole clock false keep).1 = s.readBytes pa n := by
  have hread := ((reads_claim s l c).trans (reads_note _ ctx l (some c) false)).trans (reads_readEvent _ l pa clock)
  simp only [State.loadAt, Bool.false_and, hctl, Bool.false_eq_true, if_false]
  split <;> simp only [State.readBytes, hread.mem]

/-- What a lane finds in a word of 8 bytes, and what the read leaves of the state. -/
def Env.sees (a : Ea) (e : Env) (s s' : State) (v : Nat) : Prop :=
  if a.scratch then ∀ t, s.team? e.b.core e.b.team = some t → v = bytesNat (t.scratchRead a.addr 8) ∧
    ∃ t', ScratchOnly e s s' t t' ∧ t'.scratch = t.scratch ∧ t'.lost = t.lost
  else ∀ l, s.hitLeaf e.b.core e.t.ctx a.addr = some l → plain (l.phys a.addr) 8 →
    v = bytesNat (s.readBytes (l.phys a.addr) 8) ∧ SameMemory s s'

/-- r is what the read of a counter comes to: the word's value is v, the team goes on as before, and no cycle passes. -/
def CounterRead (a : Ea) (e : Env) (s : State) (t : Team) (r : List Byte × Nat × Bool × State) : Prop :=
  e.sees a s r.2.2.2 (bytesNat r.1) ∧ r.2.2.2.cycle = s.cycle ∧ ∃ t', r.2.2.2.team? e.b.core e.b.team = some t' ∧ t'.halt = t.halt

theorem counterRead_readElems {e : Env} {a : Ea} {s : State} {t : Team} (ht : s.team? e.b.core e.b.team = some t) (k : Nat) :
    CounterRead a e s t (e.readElems a 8 8 false false 1 0 s k) := by
  cases ha : a.scratch with
  | true =>
    obtain ⟨ls, hdata, -, hstate⟩ := readElems_scratch_eq (w := 8) (whole := 8) (l1 := false) (keep := false) ha 0 0 s t k ht
    have hid : t.id = e.b.team := team?_id ht
    refine ⟨?_, by rw [hstate]; rfl, by rw [hstate]; exact ⟨_, updTeam_team? ht fun _ _ => hid, rfl⟩⟩
    simp only [Env.sees, ha, if_true]
    intro t0 ht0
    obtain rfl : t = t0 := Option.some.inj (ht.symm.trans ht0)
    exact ⟨congrArg bytesNat hdata, _, ⟨hstate, rfl⟩, rfl, rfl⟩
  | false =>
    have hread := readElems_reads (e := e) (w := 8) (whole := 8) (l1 := false) (keep := false) ha 1 0 s k
    refine ⟨?_, hread.machine.cycle, t, (hread.machine.team? ..).trans ht, rfl⟩
    simp only [Env.sees, ha, Bool.false_eq_true, if_false]
    intro l hl hplain
    refine ⟨?_, hread.1⟩
    rw [readElems_global ha hl]
    have hctl : inCtl (l.phys a.addr) = false := hplain 0 (by decide)
    simp only [Env.readElems, List.append_nil, Nat.add_zero, loadAt_home hctl]

/-! ## CWAIT and CPOLL (R184) -/

/-- The registered waiter of a CWAIT at a word. -/
def Ea.waiter (a : Ea) (target : DWord) (cycle : Nat) : Waiter :=
  { scratch := a.scratch, addr := a.addr, tag := a.tag, target := target, next := cycle + 2200, pushed := false }

section
variable {e : Env} {a : Ea} (hwindow : e.window a = none) (target : DWord) (s : State)
include hwindow

theorem waitFirst_eq : e.waitFirst (.ok a) target s =
    let r := e.readElems a 8 8 false false 1 0 s e.th.clock
    (r.2.2.2, { clock := r.2.1, park := if target.toNat ≤ bytesNat r.1 then none else some (.cwait (a.waiter target s.cycle)) }) := by
  simp only [Env.waitFirst, hwindow]
  split <;> rfl

theorem poll_eq (hdone : e.th.fabDone = []) (p : BitVec 3) : e.poll (.ok a) p target s =
    let r := e.readElems a 8 8 false false 1 0 s e.th.clock
    (r.2.2.2, { writes := [.p p.toNat (decide (target.toNat ≤ bytesNat r.1))], clock := r.2.1
                bad := if r.2.2.1 then some (0xA1, a.tagged) else none }) := by
  simp only [Env.poll, hwindow, hdone, writeP]

end

/-- The outcome of a CWAIT that finds the value v: the thread goes on or parks. -/
def WaitOut (d : BitVec 8) (a : Ea) (e : Env) (s : State) (v : Nat) (o : Out) : Prop :=
  o = { clock := o.clock, park := if (e.th.pair d.toNat).toNat ≤ v then none else some (.cwait (a.waiter (e.th.pair d.toNat) s.cycle)) }
/-- The outcome of a CPOLL that finds the value v. -/
def PollOut (p : BitVec 3) (d : BitVec 8) (_a : Ea) (e : Env) (_s : State) (v : Nat) (o : Out) : Prop :=
  o = { writes := [.p p.toNat (decide ((e.th.pair d.toNat).toNat ≤ v))], clock := o.clock, bad := o.bad }

/-- The meaning of a word that reads a counter of 8 bytes and names a target pair. -/
def counterSem (d : BitVec 8) (m : MemArg) (dests : List RName) (mode : Mode)
    (act : Env → Except Trap Ea → DWord → State → State × Out) : Sem :=
  { uses := { reads := memNames m ++ pairNames d.toNat, dests := dests }
    needs := memNames m
    chk := fun e => e.chkAccess (e.ea m 8) 8 mode
    act := fun e s => act e (e.ea m 8) (e.th.pair d.toNat) s }

theorem exec_cwait (h : Hdr) (d : BitVec 8) (m : MemArg) (s : State) : exec (.cwait h d m) s =
    .next (runBundle h (counterSem d m [] { reads := true, writes := false } Env.waitFirst) s) := rfl
theorem exec_cpoll (h : Hdr) (p : BitVec 3) (d : BitVec 8) (m : MemArg) (s : State) : exec (.cpoll h p d m) s =
    .next (runBundle h (counterSem d m (predDst p) { reads := true, writes := false, tagged := h.av } fun e x => e.poll x p) s) := rfl

/-- What a word that reads a counter does: its bundle acts lane by lane, each lane with one read and the outcome out of its value. -/
theorem acts_counter {i : Instr} {h : Hdr} {d : BitVec 8} {m : MemArg} {dests : List RName} {mode : Mode}
    {act : Env → Except Trap Ea → DWord → State → State × Out} {Res : Ea → Env → State → Nat → Out → Prop}
    (hx : ∀ s, exec i s = .next (runBundle h (counterSem d m dests mode act) s))
    (hact : ∀ (e : Env) (a : Ea) (s : State), e.mayAccess a 8 mode →
      let r := e.readElems a 8 8 false false 1 0 s e.th.clock
      let x := act e (.ok a) (e.th.pair d.toNat) s
      x.1 = r.2.2.2 ∧ Res a e s (bytesNat r.1) x.2 ∧ x.2.stay = false ∧ x.2.stayAll = false) :
    Acts i h { reads := memNames m ++ pairNames d.toNat, dests := dests }
      (fun e s s' o => ∀ a, e.ea m 8 = .ok a → ∃ v, e.sees a s s' v ∧ Res a e s v o)
      fun e => ∃ a, e.ea m 8 = .ok a ∧ e.mayAccess a 8 mode := by
  refine acts_of_run hx rfl rfl rfl rfl rfl ?_ (fun _ _ => rfl) ?_
  · rintro e ⟨a, hea, hmay⟩
    refine ⟨rfl, ?_⟩
    show e.chkAccess (e.ea m 8) 8 mode = .ok
    rw [hea, chkAccess_ok hmay]
  · rintro e s t ⟨a, hea, hmay⟩ ht -
    obtain ⟨hstate, hres, hstay, hstayAll⟩ := hact e a s hmay
    obtain ⟨hsees, hcycle, hteam⟩ := counterRead_readElems (a := a) ht e.th.clock
    simp only [counterSem, hea, hstate]
    exact ⟨fun a' ha' => by cases ha'; exact ⟨_, hsees, hres⟩, hstay, hstayAll, hcycle, hteam⟩

/-! ## Lines that an event touches (R180, R263) -/

theorem line_setLine {t : Team} (h : amWf Line.reset 0 t.lines = true) (i : Nat) (x : Line) (j : Nat) :
    (t.setLine i x).line j = if j = i then x else t.line j := amGet_amSet i x j h

theorem LinesPend.refl (t : Team) : LinesPend t t [] := ⟨rfl, fun h => ⟨h, fun _ => ⟨rfl, by simp⟩⟩⟩

theorem LinesPend.append {t u v : Team} {l m : List Nat} (h : LinesPend t u l) (k : LinesPend u v m) (hd : l.Disjoint m) :
    LinesPend t v (l ++ m) := by
  obtain ⟨hu, hlines⟩ := h
  obtain ⟨hv, klines⟩ := k
  refine ⟨by rw [hv, hu], fun hwf => ?_⟩
  obtain ⟨hwfu, hl⟩ := hlines hwf
  obtain ⟨hwfv, kl⟩ := klines hwfu
  refine ⟨hwfv, fun i => ?_⟩
  obtain ⟨hheld, hpend⟩ := hl i
  obtain ⟨kheld, kpend⟩ := kl i
  refine ⟨kheld.trans hheld, ?_⟩
  rw [kpend, hpend, Nat.add_assoc]
  simp only [List.mem_append]
  by_cases hi : i ∈ l
  · have hm : i ∉ m := hd hi
    simp [hi, hm]
  · simp [hi]

/-- A line that is set keeps its flag, and its count but for one more where the list names it. -/
theorem linesPend_setLine {t : Team} {i : Nat} {x : Line} {l : List Nat} (hheld : x.held = (t.line i).held)
    (hpend : x.pending = (t.line i).pending + if i ∈ l then 1 else 0) (hl : ∀ j ∈ l, j = i) : LinesPend t (t.setLine i x) l := by
  refine ⟨rfl, fun hwf => ⟨amSet_wf (Nat.zero_le i) x hwf, fun j => ?_⟩⟩
  rw [line_setLine hwf]
  by_cases hj : j = i
  · subst hj
    simp [hheld, hpend]
  · simp [hj, mt (hl j) hj]

theorem linesPend_foldl {β : Type} {f : Team → β → Team} (hf : ∀ t x, LinesPend t (f t x) []) :
    ∀ (l : List β) (t : Team), LinesPend t (l.foldl f t) []
  | [], t => LinesPend.refl t
  | x :: r, t => (hf t x).append (linesPend_foldl hf r (f t x)) (List.disjoint_nil_left _)

/-- An event of a scratchpad changes the time stamps of lines only. -/
theorem linesPend_scratchEvent (t : Team) (o n clock : Nat) (write : Bool) : LinesPend t (t.scratchEvent o n clock write).2 [] := by
  refine linesPend_foldl (fun t i => ?_) _ t
  refine linesPend_setLine ?_ ?_ fun _ h => absurd h List.not_mem_nil
  · cases write <;> rfl
  · cases write <;> rfl

/-- A team with its lines as they pend has the lines of another and is else the same. -/
theorem LinesPend.eq {t t' : Team} {l : List Nat} (h : LinesPend t t' l) : ∃ ls, t' = { t with lines := ls } := ⟨_, h.1⟩

/-! ## PRES (R181) -/

theorem bitSum_succ (p : Nat → Bool) (n : Nat) : sumList ((List.range (n + 1)).map fun i => b2n (p i) * 2 ^ i) =
    2 ^ n * b2n (p n) + sumList ((List.range n).map fun i => b2n (p i) * 2 ^ i) := by
  rw [List.range_succ, List.map_append, sumList, List.foldl_append]
  exact (Nat.add_comm _ _).trans (congrArg (· + _) (Nat.mul_comm _ _))

theorem bitSum_lt (p : Nat → Bool) : ∀ n, sumList ((List.range n).map fun i => b2n (p i) * 2 ^ i) < 2 ^ n
  | 0 => Nat.one_pos
  | n + 1 => by
    have hn := bitSum_lt p n
    have hp : b2n (p n) ≤ 1 := by cases p n <;> decide
    have := Nat.mul_le_mul_left (2 ^ n) hp
    rw [bitSum_succ, Nat.pow_succ]
    omega

/-- Bit i of a sum of distinct powers of 2. -/
theorem bitSum_testBit (p : Nat → Bool) : ∀ {n i : Nat}, i < n →
    (sumList ((List.range n).map fun i => b2n (p i) * 2 ^ i)).testBit i = p i
  | n + 1, i, hi => by
    rw [bitSum_succ, Nat.testBit_two_pow_mul_add _ (bitSum_lt p n)]
    split
    · next hlt => exact bitSum_testBit p hlt
    · next hge =>
      obtain rfl : i = n := by omega
      rw [Nat.sub_self]
      cases p i <;> rfl

/-- The presence bit of a line (R181). -/
theorem presence_bit (t : Team) (line : Nat) {i : Nat} (hi : i < 32) : (BitVec.ofNat 32 (t.presence line)).getLsbD i =
    (decide ((line + i + 1) * 128 ≤ t.bytes) && (t.line (line + i)).pending == 0 && !(t.line (line + i)).held) := by
  rw [BitVec.getLsbD_ofNat, Team.presence, bitSum_testBit _ hi, decide_eq_true hi, Bool.true_and, Line.present, Bool.and_assoc]

theorem exec_presHold (h : Hdr) (m : MemArg) (s : State) : exec (.presHold h m) s = .next (runBundle h (presSem m true) s) := rfl
theorem exec_presRelease (h : Hdr) (m : MemArg) (s : State) : exec (.presRelease h m) s = .next (runBundle h (presSem m false) s) := rfl

theorem chkPres_ok {e : Env} {m : MemArg} {a : Ea} (hea : e.ea m 128 = .ok a) : e.chkPres m = .ok := by
  simp only [Env.chkPres, hea]

/-- PRES.get: each lane reads the bits of 32 lines. -/
theorem acts_presGet (h : Hdr) (d : BitVec 8) (m : MemArg) : Acts (.presGet h d m) h { reads := memNames m, dests := [.g d.toNat] }
    (fun e s s' o => ∀ a t, e.ea m 128 = .ok a → s.team? e.b.core e.b.team = some t → amWf Line.reset 0 t.lines = true →
      ∃ (v : Word) (t' : Team), o = { writes := [.g d.toNat v], clock := o.clock } ∧ ScratchOnly e s s' t t' ∧
      t'.scratch = t.scratch ∧ t'.lost = t.lost ∧
      (∀ i, (t'.line i).pending = (t.line i).pending ∧ (t'.line i).held = (t.line i).held) ∧ ∀ i < 32, v.getLsbD i =
        (decide ((a.addr / 128 + i + 1) * 128 ≤ t.bytes) && (t.line (a.addr / 128 + i)).pending == 0 &&
          !(t.line (a.addr / 128 + i)).held)) fun e => ∃ a, e.ea m 128 = .ok a := by
  refine acts_of_run (fun _ => rfl) rfl rfl rfl rfl rfl (fun e ⟨a, hea⟩ => ⟨rfl, chkPres_ok hea⟩) (fun _ _ => rfl) ?_
  rintro e s t ⟨a, hea⟩ ht -
  have hid : t.id = e.b.team := team?_id ht
  have hpend : LinesPend t (t.presEvent (a.addr / 128) 32 e.th.clock false).2 [] := linesPend_scratchEvent ..
  simp only [hea, ht]
  generalize t.presEvent (a.addr / 128) 32 e.th.clock false = x at hpend ⊢
  obtain ⟨k, t'⟩ := x
  obtain ⟨ls, rfl⟩ := hpend.eq
  refine ⟨fun a' t0 ha' ht0 hwf => ?_, trivial, trivial, rfl, _, updTeam_team? ht fun _ _ => hid, rfl⟩
  cases ha'
  cases ht0
  obtain ⟨-, hline⟩ := hpend.2 hwf
  exact ⟨_, _, rfl, ⟨rfl, rfl⟩, rfl, rfl, fun i => (hline i).symm, fun i hi => presence_bit t _ hi⟩

/-- PRES.hold and PRES.release: each lane sets the hold flag of one line. -/
theorem acts_pres {i : Instr} {h : Hdr} {m : MemArg} {v : Bool} (hx : ∀ s, exec i s = .next (runBundle h (presSem m v) s)) :
    Acts i h { reads := memNames m }
      (fun e s s' o => o = { clock := o.clock } ∧ ∀ a t, e.ea m 128 = .ok a → s.team? e.b.core e.b.team = some t →
        amWf Line.reset 0 t.lines = true → ∃ t', ScratchOnly e s s' t t' ∧ t'.scratch = t.scratch ∧ t'.lost = t.lost ∧
          ∀ i, (t'.line i).pending = (t.line i).pending ∧ (t'.line i).held = if i = a.addr / 128 then v else (t.line i).held)
      fun e => ∃ a, e.ea m 128 = .ok a := by
  refine acts_of_run hx rfl rfl rfl rfl rfl (fun e ⟨a, hea⟩ => ⟨rfl, chkPres_ok hea⟩) (fun _ _ => rfl) ?_
  rintro e s t ⟨a, hea⟩ ht -
  have hid : t.id = e.b.team := team?_id ht
  have hpend : LinesPend t (t.presEvent (a.addr / 128) 1 e.th.clock true).2 [] := linesPend_scratchEvent ..
  simp only [presSem, hea, ht]
  generalize t.presEvent (a.addr / 128) 1 e.th.clock true = x at hpend ⊢
  obtain ⟨k, t'⟩ := x
  obtain ⟨ls, rfl⟩ := hpend.eq
  refine ⟨⟨trivial, fun a' t0 ha' ht0 hwf => ?_⟩, trivial, trivial, rfl, _, updTeam_team? ht fun _ _ => hid, rfl⟩
  cases ha'
  cases ht0
  obtain ⟨hwf', hline⟩ := hpend.2 hwf
  refine ⟨_, ⟨rfl, rfl⟩, rfl, rfl, fun i => ?_⟩
  obtain ⟨hheld, hcount⟩ := hline i
  rw [line_setLine hwf']
  by_cases hi : i = a.addr / 128
  · subst hi
    simpa using hcount
  · simpa [hi] using ⟨hcount, hheld⟩

/-- Settles O21: CWAIT and CPOLL make one read of their word (`acts_counter`), and an event of PRES changes no line but for its stamps
and the flag that it sets (`linesPend_scratchEvent`). -/
theorem counterReads : Obligations.CounterReads := by
  unfold Obligations.CounterReads
  refine ⟨fun h d p m => ⟨?_, ?_⟩, fun h d m => ⟨acts_presGet h d m, acts_pres (exec_presHold h m), acts_pres (exec_presRelease h m)⟩⟩
  · refine acts_counter (Res := WaitOut d) (exec_cwait h d m) fun e a s hmay => ?_
    rw [waitFirst_eq (window_none_of_mayAccess hmay)]
    exact ⟨rfl, rfl, rfl, rfl⟩
  · refine acts_counter (Res := PollOut p d) (exec_cpoll h p d m) fun e a s hmay => ?_
    rw [poll_eq (window_none_of_mayAccess hmay) _ _ hmay.1]
    exact ⟨rfl, rfl, rfl, rfl⟩

end Sys2Proof.Machine

/-! PROOF. Bytes that the engine moves (O26): a token's second read can find a line pending that its first found present. -/

namespace Sys2Proof.Machine

/-- A record of kind 5 within scratchpads: the stream of 16 bytes at 0, the output of 16 bytes at 256 (R188, R199). -/
def tokenRecord : List Byte :=
  (List.range 128).map fun i =>
    if i = 0 then 0x50 else if i = 1 then 6 else if i = 17 then 1 else if i = 40 then 15 else if i = 124 then 16 else 0

def expandOp : CopyOp :=
  { id := 0, record := tokenRecord, team := 0, vtid := 0, group := 0, lane := 0, slot := 0, desc := 0, ctx := 0, teamIndex := 0, grid := 0
    sup := false, recoff := 0, peer := none, pos := 0, srcPos := 0, delivered := 0, counted := 0, ended := false, cancelled := false
    lines := [], saved := [], vals := [], fab := none, fetched := [], acked := [], adding := none, clock := 0 }

/-- A team whose map of lines names line 0 twice, present and then pending: it reads as present. -/
def twiceLined : Team :=
  { idleTeam with bytes := 4096, lines := [(0, Line.reset), (0, { pending := 1, held := false, wts := 0, rts := 0 })] }

/-- The operation stands in engine context 0; its stream, zeros, begins with a literal run of one byte. -/
def expanding : State :=
  { State.reset with
    cores := [{ Core.reset with
      teams := [twiceLined], engines := [{ Engine.reset with queue := [expandOp] }] }] }

/-- The read of the token's first byte takes the first entry of line 0 away, and the read of the second finds the line pending. -/
theorem expanding_waits : ∃ s', exec (.backReferenceToken 0 0 0) expanding = .next s' ∧ s'.opAt 0 0 0 = some expandOp := by
  have hrun : (match exec (.backReferenceToken 0 0 0) expanding with
      | .next s => decide (s.opAt 0 0 0 = some expandOp)
      | _ => false) = true := by decide +kernel
  split at hrun
  case h_1 s' hexec => exact ⟨s', hexec, of_decide_eq_true hrun⟩
  all_goals exact absurd hrun Bool.false_ne_true

/-- The token at 0 is a literal run of one byte within its stream and its output, in scratchpads. -/
theorem expanding_reads : (cview tokenRecord).kind = 5 ∧ (cview tokenRecord).ssp = true ∧ (cview tokenRecord).dsp = true ∧
    fld (cview tokenRecord).src 0 24 = 0 ∧ fld (cview tokenRecord).dst 0 24 = 256 ∧ (cview tokenRecord).side = 16 ∧
    (cview tokenRecord).total = 16 := by decide +kernel

/-- Refutes O26: a token is read in two events, and the statement lets the team's map of lines be out of its canonical form (`amWf`), where
the first event can change the second's answer. In `expanding` the operation waits, and does not come past its token. -/
theorem not_copyBytes : ¬ Obligations.CopyBytes := by
  unfold Obligations.CopyBytes
  rintro ⟨-, htoken⟩
  obtain ⟨hkind, hssp, hdsp, hsrc, hdst, hside, htotal⟩ := expanding_reads
  have hclause := htoken expanding 0 0 0 twiceLined expandOp
  have hrecord : expandOp.record = tokenRecord := rfl
  simp only [hrecord, hsrc, hdst, hside, htotal] at hclause
  obtain ⟨hmoves, -⟩ := hclause rfl hkind hssp hdsp rfl rfl rfl rfl (by decide) (by decide) rfl (by decide) (by decide) (by decide)
    (by decide) (by
      intro j _ hj
      obtain rfl : j = 0 := Nat.le_zero.mp hj
      decide)
  obtain ⟨s', -, o', -, hexec, -, -, hop, -, -, -, hpos, -⟩ := hmoves (by decide)
  obtain ⟨s'', hwaits, hkept⟩ := expanding_waits
  obtain rfl := Host.Outcome.next.inj (hexec.symm.trans hwaits)
  obtain rfl := Option.some.inj (hop.symm.trans hkept)
  exact absurd hpos (by decide)

end Sys2Proof.Machine

/-! PROOF. Copy counters (O27): an operation in its engine context, an addition to a counter in a scratchpad or at home, and the commands. -/

namespace Sys2Proof.Machine

/-! ## Operations of an engine context (R191) -/

theorem engineAt_congr {s s' : State} {c : Nat} (h : (s'.core c).engines = (s.core c).engines) (ec : Nat) :
    s'.engineAt c ec = s.engineAt c ec := by
  rw [State.engineAt, State.engineAt, h]

theorem engineAt_updEngine {s : State} {c ec : Nat} (hc : c < s.cores.length) (hec : ec < (s.core c).engines.length) (f : Engine → Engine) :
    (s.updEngine c ec f).engineAt c ec = f (s.engineAt c ec) := by
  rw [State.engineAt, State.updEngine, core_updCore hc]
  exact updAt_getD_self _ _ _ hec

/-- An operation stands only in an engine context that there is. -/
theorem engine_lt_of_opAt {s : State} {c ec i : Nat} {o : CopyOp} (h : s.opAt c ec i = some o) :
    c < s.cores.length ∧ ec < (s.core c).engines.length := by
  have hec : ec < (s.core c).engines.length := by
    by_contra hge
    rw [State.opAt, State.engineAt, List.getD_eq_default _ _ (Nat.le_of_not_lt hge)] at h
    cases h
  refine ⟨?_, hec⟩
  by_contra hge
  have hcore : s.core c = Core.reset := List.getD_eq_default _ _ (Nat.le_of_not_lt hge)
  obtain ⟨ec', hec', rfl⟩ : ∃ ec' < 4, ec = ec' := ⟨ec, by rwa [hcore] at hec, rfl⟩
  have hreset : Core.reset.engines.getD ec Engine.reset = Engine.reset := by
    rw [show Core.reset.engines = List.replicate 4 Engine.reset from rfl, List.getD_replicate _ hec']
  rw [State.opAt, State.engineAt, hcore, hreset] at h
  cases h

section
variable {s : State} {c ec i : Nat} {o x : CopyOp} (ho : s.opAt c ec i = some o) (hid : x.id = o.id)
include ho

theorem engineAt_setOp : (s.setOp c ec x).engineAt c ec =
    { s.engineAt c ec with queue := (s.engineAt c ec).queue.map fun y => if y.id = x.id then x else y } := by
  obtain ⟨hc, hec⟩ := engine_lt_of_opAt ho
  exact engineAt_updEngine hc hec _

include hid

theorem opAt_setOp : (s.setOp c ec x).opAt c ec i = some x := by
  have hop : (s.engineAt c ec).queue[i]? = some o := ho
  rw [State.opAt, engineAt_setOp ho, List.getElem?_map, hop, Option.map_some, if_pos hid.symm]

end

/-- The queue without the operation of an id, whatever that operation has become. -/
theorem filter_setOp (l : List CopyOp) (x : CopyOp) :
    (l.map fun y => if y.id = x.id then x else y).filter (fun y => y.id != x.id) = l.filter fun y => y.id != x.id := by
  induction l with
  | nil => rfl
  | cons y r ih =>
    by_cases hy : y.id = x.id
    · simp [hy, ih]
    · simp [hy, ih]

theorem teamsOf_setOp (s : State) (c ec : Nat) (x : CopyOp) : (s.setOp c ec x).teamsOf c = s.teamsOf c := by
  have hcore : ((s.setOp c ec x).core c).teams = (s.core c).teams := updCore_keeps Core.teams s c c fun _ => rfl
  simp only [State.teamsOf, hcore]
  rfl

/-! ## Teams by name -/

theorem teamsOf_updNamed (s : State) (c ctx vtid : Nat) (f : Team → Team) : (s.updNamed c ctx vtid f).teamsOf c =
    (s.teamsOf c).map fun t => if t.isNamed ctx vtid then f t else t := by
  have hcore : ((s.updNamed c ctx vtid f).core c).teams = (s.core c).teams.map fun t => if t.isNamed ctx vtid then f t else t := by
    simp only [State.core, State.updNamed, State.updCore, List.getD_eq_getElem?_getD, updAt_getElem?_self]
    cases s.cores[c]? <;> rfl
  have himages : ∀ l : List Image, (((l.map fun x => if x.core = c then
      { x with teams := x.teams.map fun t => if t.isNamed ctx vtid then f t else t } else x).filter fun x => x.core == c).map
        fun x => x.teams).flatten =
      (((l.filter fun x => x.core == c).map fun x => x.teams).flatten).map fun t => if t.isNamed ctx vtid then f t else t := by
    intro l
    induction l with
    | nil => rfl
    | cons x r ih =>
      by_cases hx : x.core = c
      · simp [hx, ih]
      · simp [hx, ih]
  rw [State.teamsOf, hcore, State.teamsOf, List.map_append]
  exact congrArg _ (himages s.images)

theorem findTeam_updNamed (s : State) (c ctx vtid : Nat) {f : Team → Team}
    (hf : ∀ t, t.isNamed ctx vtid = true → (f t).isNamed ctx vtid = true) :
    (s.updNamed c ctx vtid f).findTeam c ctx vtid = (s.findTeam c ctx vtid).map f := by
  rw [State.findTeam, teamsOf_updNamed, State.findTeam]
  induction s.teamsOf c with
  | nil => rfl
  | cons t r ih =>
    by_cases ht : t.isNamed ctx vtid = true
    · simp [ht, hf t ht]
    · simpa [List.find?_cons, ht] using ih

theorem isNamed_of_findTeam {s : State} {c ctx vtid : Nat} {t : Team} (h : s.findTeam c ctx vtid = some t) : t.isNamed ctx vtid = true :=
  List.find?_some h

theorem engines_updNamed (s : State) (c ctx vtid : Nat) (f : Team → Team) (d : Nat) :
    ((s.updNamed c ctx vtid f).core d).engines = (s.core d).engines :=
  updCore_keeps Core.engines s c d (f := fun k => { k with teams := k.teams.map fun t => if t.isNamed ctx vtid then f t else t }) fun _ => rfl

/-! ## An addition to a counter in a scratchpad (R194, R195) -/

/-- The value of a counter in a scratchpad after an addition, saturating. -/
def Team.nextCount (t : Team) (off amount : Nat) : List Byte :=
  natBytes (Nat.min (bytesNat (t.scratchRead off 8) + amount) (2 ^ 64 - 1)) 8

/-- An addition to a counter in the scratchpad of team t is made, between s and s': t' is the team then. -/
def Counts (c ctx vtid off amount : Nat) (t t' : Team) (s s' : State) : Prop :=
  s'.mem = s.mem ∧ (∀ ec, s'.engineAt c ec = s.engineAt c ec) ∧ s'.findTeam c ctx vtid = some t' ∧
    (∀ x, amGet 0 t'.scratch x = if off ≤ x ∧ x < off + 8 then (t.nextCount off amount).getD (x - off) 0 else amGet 0 t.scratch x) ∧
    ∀ g l th y, t.thread? g l = some th → th.park = some (.cwait y) → y.scratch = true → y.addr = off →
      t'.thread? g l = some { th with park := some (.cwait { y with pushed := true }) }

theorem countScratch_counts {s : State} {c ctx vtid off amount clock : Nat} {t : Team} (ht : s.findTeam c ctx vtid = some t)
    (hwf : amWf 0 0 t.scratch = true) (hlost : t.lostIn off 8 = false) :
    ∃ t', Counts c ctx vtid off amount t t' s (s.countScratch c ctx vtid off amount clock).2 := by
  obtain ⟨ls, hls⟩ := scratchEvent_lines t off 8 clock true
  have hcount : (s.countScratch c ctx vtid off amount clock).2 = s.updNamed c ctx vtid fun _ =>
      (({ t with lines := ls } : Team).scratchWrite off (t.nextCount off amount)).pushScratch off := by
    simp only [State.countScratch, ht, hls, hlost, Bool.false_eq_true, if_false]
    rfl
  have hname : t.isNamed ctx vtid = true := isNamed_of_findTeam ht
  refine ⟨(({ t with lines := ls } : Team).scratchWrite off (t.nextCount off amount)).pushScratch off, ?_⟩
  rw [hcount]
  refine ⟨rfl, engineAt_congr (engines_updNamed ..), ?_, fun x => ?_, fun g l th y hth hpark hscratch haddr => ?_⟩
  · refine (findTeam_updNamed s c ctx vtid fun _ _ => ?_).trans (congrArg (Option.map _) ht)
    exact hname
  · have hget := amGet_scratchWrite (t := { t with lines := ls }) hwf off (t.nextCount off amount) x
    rwa [Team.nextCount, natBytes_length] at hget
  · exact pushScratch_pushes (t := ({ t with lines := ls } : Team).scratchWrite off (t.nextCount off amount)) hth hpark hscratch haddr

/-- An addition of the engine to a counter in a scratchpad that does not move. -/
theorem engAdd_scratch {s : State} {c ec ptr amount : Nat} {o : CopyOp} {dest : Nat × Nat} {t : Team} (hdest : s.forwarding dest.1 = false)
    (ht : s.findTeam dest.1 o.ctx dest.2 = some t) (hlost : t.lostIn (fld ptr 0 24) 8 = false) :
    ∃ k, s.engAdd c ec o true ptr dest amount =
      .ok [] (s.countScratch dest.1 o.ctx dest.2 (fld ptr 0 24) amount o.clock).2 { o with clock := k } := by
  simp only [State.engAdd, if_true, ht, hlost, Bool.false_eq_true, if_false, State.aim, hdest, State.applyAimed]
  exact ⟨_, rfl⟩

/-! ## An addition to a counter at home (R194, R195) -/

theorem engines_pushWord (s : State) (pa c : Nat) : ((s.pushWord pa).core c).engines = (s.core c).engines :=
  (congrArg Core.engines (mapTeams_core s (fun _ => s.pushedTeam pa) c) :)

/-- An addition to a counter in global memory is made at pa, between s and s'. -/
def CountsHome (c pa amount : Nat) (s s' : State) : Prop :=
  Memory.wf s' = true ∧ (∀ x, s'.gtag x = s.gtag x) ∧ (∀ ec, s'.engineAt c ec = s.engineAt c ec) ∧
    ∀ x, s'.readByte x = if pa ≤ x ∧ x < pa + 8 then
      (natBytes (min (s.read8 pa + amount) (2 ^ 64 - 1)) 8).getD (x - pa) 0 else s.readByte x

theorem countGlobal_counts {s : State} (hwf : Memory.wf s = true) (l : Leaf) (pa amount clock c : Nat) (w : Writer) :
    CountsHome c pa amount s ((s.countGlobal l pa amount clock (some c)).2.endRounds w pa 8) := by
  let d := natBytes (Nat.min (s.read8 pa + amount) (2 ^ 64 - 1)) 8
  obtain ⟨cmem, ctags⟩ := claim_mem s l (some c)
  obtain ⟨hmem, htags⟩ := storeHome_mem (s.claim l (some c)) l pa d clock (some c)
  rw [cmem] at hmem
  rw [ctags] at htags
  refine ⟨wf_of ?_ ?_, gtag_congr htags, fun ec => ?_, fun x => ?_⟩
  · exact hmem ▸ amSetList_wf (Nat.zero_le _) d (wf_mem hwf)
  · exact htags ▸ wf_gtags hwf
  · have hsame := (sameMachine_claim s l (some c)).trans (sameMachine_storeHome (s.claim l (some c)) l pa d clock c)
    have hengines : (((s.claim l (some c)).storeHome l pa d clock (some c)).2.core c).engines = (s.core c).engines :=
      (congrArg Core.engines (hsame.core c) :)
    exact engineAt_congr ((engines_pushWord _ pa c).trans hengines) ec
  · have hget := amGet_amSetList pa d x (wf_mem hwf)
    rw [natBytes_length, ← hmem] at hget
    exact hget

theorem engAdd_home {s : State} {c ec ptr amount : Nat} {o : CopyOp} {dest : Nat × Nat} {l : Leaf} (hwf : Memory.wf s = true)
    (hwindow : s.fabWindow o.desc (ptrAddr ptr 0) = none) (hpage : s.engPage c o ptr (ptrAddr ptr 0) 8 true = .ok l)
    (hctl : inCtl (l.phys (ptrAddr ptr 0)) = false) (hlost : s.lostIn (l.phys (ptrAddr ptr 0)) 8 = none)
    (hround : s.awaitRound l (l.phys (ptrAddr ptr 0)) 8 (.engine c ec) = none) :
    ∃ s1 k, s.engAdd c ec o false ptr dest amount = .ok [] s1 { o with clock := k } ∧ CountsHome c (l.phys (ptrAddr ptr 0)) amount s s1 := by
  refine ⟨_, Nat.max o.clock (s.countGlobal l (l.phys (ptrAddr ptr 0)) amount o.clock (some c)).1, ?_,
    countGlobal_counts hwf l _ amount o.clock c (.engine c ec)⟩
  simp only [State.engAdd, Bool.false_eq_true, if_false, hwindow, hpage, hctl, hlost, Option.isSome_none, hround]

section
variable {v : CView}

theorem hasArr_of_scratch (h : v.asp = true) : v.hasArr = true := by simp [CView.hasArr, h]
theorem hasArr_of_pointer (h : v.arr ≠ 0) : v.hasArr = true := by simp [CView.hasArr, h]
theorem hasTl_of_scratch (h : v.tsp = true) : v.hasTl = true := by simp [CView.hasTl, h]
theorem hasTl_of_pointer (h : v.tl ≠ 0) : v.hasTl = true := by simp [CView.hasTl, h]

end

/-! ## The arrival counter (R194) -/

theorem arrivalAddition_counts {s s1 : State} {c ec i n k : Nat} {o : CopyOp} (ho : s.opAt c ec i = some o)
    (harr : (cview o.record).hasArr = true) (hn : 0 < n) (hcounted : o.counted + n ≤ o.delivered) (hcancel : o.cancelled = false)
    (hfab : o.fab = none) (hheld : (cview o.record).asp = false → s.heldOfOp o.id = false) (hpower : s.power = .on)
    (hstop : (s.engineAt c ec).stopped = none) (hengine : s.engineHeld c = false)
    (hadd : s.engAdd c ec o (cview o.record).asp (cview o.record).arr (o.destTeam c) n = .ok [] s1 { o with clock := k }) :
    exec (.arrivalAddition c ec i n) s = .next (s1.setOp c ec { o with clock := k, counted := o.counted + n }) := by
  have hexec : exec (.arrivalAddition c ec i n) s = execArrivalAddition c ec i n s := rfl
  have hdelivered : ¬ o.delivered - o.counted < n := by omega
  have hwaits : (!(cview o.record).asp && s.heldOfOp o.id) = false := by
    cases hasp : (cview o.record).asp with
    | false => simp [hheld hasp]
    | true => rfl
  simp only [hexec, execArrivalAddition, ho, harr, hdelivered, hcancel, hfab, hwaits, hpower, hstop, hengine, hadd, beq_false_of_ne hn.ne',
    Bool.not_true, decide_false, decide_true, Option.isSome_none, Bool.or_false, Bool.and_false, Bool.false_eq_true, if_false, if_true]

/-! ## Retirement (R195) -/

/-- An operation without lines that retires leaves its queue, and nothing else but the clocks. -/
theorem retireOp_leaves {s : State} {c ec : Nat} {o : CopyOp} (hc : c < s.cores.length) (hec : ec < (s.core c).engines.length)
    (hlines : o.lines = []) : (s.retireOp c ec o).mem = s.mem ∧ (s.retireOp c ec o).gtags = s.gtags ∧
      (∀ id, (s.retireOp c ec o).team? c id = s.team? c id) ∧ (s.retireOp c ec o).teamsOf c = s.teamsOf c ∧
      ((s.retireOp c ec o).engineAt c ec).queue = (s.engineAt c ec).queue.filter fun x => x.id != o.id := by
  have hdrop : s.dropLines c o o.lines = s := by rw [hlines]; rfl
  have hteams : ((s.retireOp c ec o).core c).teams = (s.core c).teams := by
    rw [State.retireOp, hdrop]
    exact updCore_keeps Core.teams s c c fun _ => rfl
  refine ⟨?_, ?_, fun id => ?_, ?_, ?_⟩
  · rw [State.retireOp, hdrop]; rfl
  · rw [State.retireOp, hdrop]; rfl
  · simp only [State.team?, Core.team?, hteams]
  · simp only [State.teamsOf, hteams]
    rw [State.retireOp, hdrop]; rfl
  · rw [State.retireOp, hdrop]
    exact congrArg Engine.queue (engineAt_updEngine hc hec fun e =>
      { e with queue := e.queue.filter fun x => x.id != o.id, clock := Nat.max e.clock o.clock })

section
variable {s : State} {c ec : Nat} {o : CopyOp} (hended : o.ended = true)
  (hsettled : o.settled = true ∨ o.cancelled = true) (hfab : o.fab = none) (hheld : s.heldOfOp o.id = false)
  (hstop : (s.engineAt c ec).stopped = none) (hengine : s.engineHeld c = false)
include hended hsettled hfab hheld hstop hengine

/-- Nothing holds the retirement back. -/
theorem retire_open : (!o.ended || (!o.settled && !o.cancelled) || o.fab.isSome || s.heldOfOp o.id || (s.engineAt c ec).stopped.isSome ||
    s.engineHeld c) = false := by
  rw [hended, hfab, hheld, hstop, hengine]
  obtain h | h := hsettled <;> simp [h]

variable (ho : s.opAt c ec 0 = some o)
include ho

theorem retire_plain (htl : (cview o.record).hasTl = false) : exec (.retire c ec) s = .next (s.retireOp c ec o) := by
  have hexec : exec (.retire c ec) s = execRetire c ec s := rfl
  have hopen := retire_open hended hsettled hfab hheld hstop hengine
  simp only [hexec, execRetire, ho, hopen, htl, Bool.not_false, Bool.false_eq_true, if_false, if_true]

theorem retire_counts (htl : (cview o.record).hasTl = true) {s1 : State} {k : Nat}
    (hadd : s.engAdd c ec { o with clock := Nat.max o.clock (s.engineAt c ec).clock } (cview o.record).tsp (cview o.record).tl (c, o.vtid) 1 =
      .ok [] s1 { o with clock := k }) :
    exec (.retire c ec) s = .next ((s1.setOp c ec { o with clock := k }).retireOp c ec { o with clock := k }) := by
  have hexec : exec (.retire c ec) s = execRetire c ec s := rfl
  have hopen := retire_open hended hsettled hfab hheld hstop hengine
  simp only [hexec, execRetire, ho, hopen, htl, hadd, Bool.not_true, Bool.false_eq_true, if_false]

end

/-- What is left of the queue when the operation retires after its addition, which leaves the engine contexts alone. -/
theorem retired_leaves {s s1 : State} {c ec : Nat} {o x : CopyOp} (ho : s.opAt c ec 0 = some o)
    (hengines : ∀ ec, s1.engineAt c ec = s.engineAt c ec) (hlines : x.lines = []) (hid : x.id = o.id) :
    let s' := (s1.setOp c ec x).retireOp c ec x
    s'.mem = s1.mem ∧ s'.gtags = s1.gtags ∧ s'.teamsOf c = s1.teamsOf c ∧
      (s'.engineAt c ec).queue = (s.engineAt c ec).queue.filter fun y => y.id != o.id := by
  have ho1 : s1.opAt c ec 0 = some o := by rw [State.opAt, hengines]; exact ho
  have hset : (s1.setOp c ec x).opAt c ec 0 = some x := opAt_setOp ho1 hid
  obtain ⟨hc, hec⟩ := engine_lt_of_opAt hset
  obtain ⟨hmem, hgtags, -, hteams, hqueue⟩ := retireOp_leaves hc hec hlines
  refine ⟨hmem, hgtags, hteams.trans (teamsOf_setOp ..), ?_⟩
  rw [hqueue, engineAt_setOp ho1, ← hid]
  exact (filter_setOp _ x).trans (by rw [hengines])

/-! ## The commands of a stopped engine context (R197, R303) -/

theorem cancelOnlyCause_iff (k : Nat) : cancelOnlyCause k = true ↔ k = 0x82 ∨ k = 0x84 ∨ k = 0x85 ∨ k = 0xA1 := by
  simp [cancelOnlyCause, or_assoc]

theorem exec_engineContextRestart (s : State) (c ec : Nat) : exec (.engineContextRestart c ec) s = .next (s.engineRestart c ec) := rfl
theorem exec_engineContextCancel (s : State) (c ec : Nat) : exec (.engineContextCancel c ec) s = .next (s.engineCancel c ec) := rfl

section
variable {s : State} {c ec : Nat}

theorem engineRestart_running (h : (s.engineAt c ec).stopped = none) : s.engineRestart c ec = s := by
  simp only [State.engineRestart, h]
theorem engineCancel_running (h : (s.engineAt c ec).stopped = none) : s.engineCancel c ec = s := by
  simp only [State.engineCancel, h]

variable (hc : c < s.cores.length) (hec : ec < (s.core c).engines.length) {k : Nat} (h : (s.engineAt c ec).stopped = some k)
include hc hec h

theorem engineRestart_stopped : (s.engineRestart c ec).mem = s.mem ∧ (s.engineRestart c ec).engineAt c ec =
    if k = 0x82 ∨ k = 0x84 ∨ k = 0x85 ∨ k = 0xA1 then s.engineAt c ec
    else { s.engineAt c ec with stopped := none, retireStop := false } := by
  simp only [State.engineRestart, h]
  by_cases hk : k = 0x82 ∨ k = 0x84 ∨ k = 0x85 ∨ k = 0xA1
  · rw [if_pos ((cancelOnlyCause_iff k).mpr hk), if_pos hk]
    exact ⟨rfl, rfl⟩
  · rw [if_neg (mt (cancelOnlyCause_iff k).mp hk), if_neg hk]
    exact ⟨rfl, engineAt_updEngine hc hec _⟩

theorem engineCancel_stopped : (s.engineCancel c ec).mem = s.mem ∧ (s.engineCancel c ec).engineAt c ec = { s.engineAt c ec with
    stopped := none, retireStop := false, cancels := (s.engineAt c ec).cancels + 1
    queue := updAt (s.engineAt c ec).queue 0 fun o => { o with cancelled := true, ended := true } } := by
  simp only [State.engineCancel, h]
  exact ⟨rfl, engineAt_updEngine (s := s.dropEngineRounds c ec) hc hec _⟩

end

/-- Settles O27: both counters are added to by `engAdd`, in a scratchpad (`engAdd_scratch`, `countScratch_counts`) or at home
(`engAdd_home`), and the operation stays in its context or leaves it. -/
theorem copyCounters : Obligations.CopyCounters := by
  unfold Obligations.CopyCounters
  refine ⟨⟨?_, ?_, ?_⟩, ?_⟩
  · intro s c ec i n t o v w ho hasp hpeer hn hcounted hcancel hfab hpower hstop hengine hforward ht hwf hlost
    have hdest : o.destTeam c = (c, o.vtid) := by rw [CopyOp.destTeam, hpeer]; rfl
    obtain ⟨k, hadd⟩ := engAdd_scratch (ec := ec) (amount := n) (dest := (c, o.vtid)) hforward ht hlost
    obtain ⟨t', hmem, hengines, ht', hscratch, hpushes⟩ := countScratch_counts (amount := n) (clock := o.clock) ht hwf hlost
    rw [← hasp, ← hdest] at hadd
    refine ⟨_, t', _, arrivalAddition_counts ho (hasArr_of_scratch hasp) hn hcounted hcancel hfab
      (fun h => absurd (h.symm.trans hasp) Bool.false_ne_true) hpower
      hstop hengine hadd, ?_, ?_, opAt_setOp (o := o) ?_ rfl, rfl, rfl, rfl, hscratch, hpushes⟩
    · rw [hdest]
      exact hmem
    · rw [State.findTeam, teamsOf_setOp, hdest]
      exact ht'
    · rw [State.opAt, hdest, hengines]
      exact ho
  · intro s c ec i n o l v va pa ho hasp harr hn hcounted hcancel hfab hpower hstop hengine hheld hwindow hpage hctl hlost hround hwf
    obtain ⟨s1, k, hadd, hwf1, hgtag, hengines, hread⟩ := engAdd_home (dest := o.destTeam c) (amount := n) hwf hwindow hpage hctl hlost hround
    rw [← hasp] at hadd
    refine ⟨_, _, arrivalAddition_counts ho (hasArr_of_pointer harr) hn hcounted hcancel hfab (fun _ => hheld) hpower hstop hengine hadd,
      opAt_setOp (o := o) ?_ rfl, rfl, hwf1, hgtag, hread⟩
    rw [State.opAt, hengines]
    exact ho
  · intro s c ec o v w ho hended hsettled hfab hheld hstop hengine hlines
    refine ⟨fun htl => ?_, fun htsp hforward t ht hwf hlost => ?_, fun l htsp htl hwindow hpage hctl hlost hround hwf => ?_⟩
    · obtain ⟨hc, hec⟩ := engine_lt_of_opAt ho
      obtain ⟨hmem, -, hteam, -, hqueue⟩ := retireOp_leaves hc hec hlines
      exact ⟨_, retire_plain hended hsettled hfab hheld hstop hengine ho htl, hmem, hteam, hqueue⟩
    · obtain ⟨k, hadd⟩ := engAdd_scratch (ec := ec) (amount := 1) (dest := (c, o.vtid))
        (o := { o with clock := Nat.max o.clock (s.engineAt c ec).clock }) hforward ht hlost
      obtain ⟨t', hmem, hengines, ht', hscratch, -⟩ :=
        countScratch_counts (amount := 1) (clock := Nat.max o.clock (s.engineAt c ec).clock) ht hwf hlost
      obtain ⟨hmem', -, hteams, hqueue⟩ := retired_leaves (x := { o with clock := k }) ho hengines hlines rfl
      rw [← htsp] at hadd
      refine ⟨_, t', retire_counts hended hsettled hfab hheld hstop hengine ho (hasTl_of_scratch htsp) hadd,
        hmem'.trans hmem, ?_, hqueue, hscratch⟩
      rw [State.findTeam, hteams]
      exact ht'
    · obtain ⟨s1, k, hadd, hwf1, hgtag, hengines, hread⟩ := engAdd_home (dest := (c, o.vtid)) (amount := 1)
        (o := { o with clock := Nat.max o.clock (s.engineAt c ec).clock }) hwf hwindow hpage hctl hlost hround
      obtain ⟨hmem', hgtags', -, hqueue⟩ := retired_leaves (x := { o with clock := k }) ho hengines hlines rfl
      rw [← htsp] at hadd
      refine ⟨_, retire_counts hended hsettled hfab hheld hstop hengine ho (hasTl_of_pointer htl) hadd, wf_congr hmem' hgtags' hwf1,
        fun x => (gtag_congr hgtags' x).trans (hgtag x), hqueue, fun x => (congrArg (amGet 0 · x) hmem').trans (hread x)⟩
  · intro s c ec hc hec e
    refine ⟨fun hstop => ?_, fun k hstop => ⟨?_, ?_⟩⟩
    · rw [exec_engineContextRestart, exec_engineContextCancel, engineRestart_running hstop, engineCancel_running hstop]
      exact ⟨rfl, rfl⟩
    · exact ⟨_, exec_engineContextRestart .., engineRestart_stopped hc hec hstop⟩
    · obtain ⟨hmem, hengine⟩ := engineCancel_stopped hc hec hstop
      refine ⟨_, exec_engineContextCancel .., hmem, by rw [hengine], by rw [hengine], ?_, fun o ho => ?_⟩
      · rw [hengine]
        cases e.queue <;> rfl
      · obtain ⟨r, hr⟩ := List.head?_eq_some_iff.mp ho
        rw [hengine, hr]
        rfl

end Sys2Proof.Machine

/-! PROOF. Copy kicks (O25): the lines that become pending, and the state with one operation more. -/

namespace Sys2Proof.Machine

/-! ## Lines that become pending (R191) -/

theorem nodup_insertOnce {α : Type} [DecidableEq α] {l : List α} (h : l.Nodup) (a : α) : (insertOnce l a).Nodup := by
  by_cases ha : a ∈ l
  · rwa [insertOnce, if_pos (List.contains_iff_mem.mpr ha)]
  · rw [insertOnce_new ha]
    exact List.nodup_append.mpr ⟨h, List.nodup_singleton a, fun x hx y hy => by
      obtain rfl := List.mem_singleton.mp hy
      exact fun hxy => ha (hxy ▸ hx)⟩

theorem nodup_foldl {α β : Type} {f : List α → β → List α} (hf : ∀ l x, l.Nodup → (f l x).Nodup) :
    ∀ (r : List β) {l : List α}, l.Nodup → (r.foldl f l).Nodup
  | [], _, h => h
  | x :: r, _, h => nodup_foldl hf r (hf _ x h)

theorem spanLines_nodup (base : Nat) (l : List Span) : (spanLines base l).Nodup :=
  nodup_foldl (fun _ _ h => nodup_foldl (fun _ x h => nodup_insertOnce h x) _ h) l List.nodup_nil

/-- A team with one pending write more on each of the lines. -/
def Team.pend (lines : List Nat) (t : Team) : Team :=
  lines.foldl (fun t i => t.setLine i { t.line i with pending := (t.line i).pending + 1 }) t

theorem linesPend_pend : ∀ {lines : List Nat}, lines.Nodup → ∀ t : Team, LinesPend t (t.pend lines) lines
  | [], _, t => LinesPend.refl t
  | i :: r, h, t => by
    obtain ⟨hi, hr⟩ := List.nodup_cons.mp h
    have hfirst : LinesPend t (t.setLine i { t.line i with pending := (t.line i).pending + 1 }) [i] :=
      linesPend_setLine rfl (by simp) fun j hj => List.mem_singleton.mp hj
    exact hfirst.append (linesPend_pend hr _) (List.singleton_disjoint.mpr hi)

theorem LinesPend.id {t t' : Team} {l : List Nat} (h : LinesPend t t' l) : t'.id = t.id := by rw [h.1]
theorem LinesPend.halt {t t' : Team} {l : List Nat} (h : LinesPend t t' l) : t'.halt = t.halt := by rw [h.1]
theorem LinesPend.isNamed {t t' : Team} {l : List Nat} (h : LinesPend t t' l) (ctx vtid : Nat) : t'.isNamed ctx vtid = t.isNamed ctx vtid := by
  rw [h.1]
  rfl

/-- An event of a scratchpad is no earlier than the clock that it follows. -/
theorem le_scratchEvent (t : Team) (o n clock : Nat) (write : Bool) : clock ≤ (t.scratchEvent o n clock write).1 := by
  have hfold : ∀ (f : Nat → Nat → Nat), (∀ k i, k ≤ f k i) → ∀ (l : List Nat) (k : Nat), k ≤ l.foldl f k := fun f hf l => by
    induction l with
    | nil => exact fun k => Nat.le_refl k
    | cons i r ih => exact fun k => (hf k i).trans (ih _)
  refine hfold _ (fun k i => ?_) _ _
  cases write <;> exact Nat.le_max_left _ _

/-! ## Teams under an update (R168) -/

theorem updTeam_const_team? {s : State} {c id : Nat} {t t1 : Team} (ht : s.team? c id = some t) (hid : t1.id = id) {x i : Nat} {y : Team}
    (hy : s.team? x i = some y) : (s.updTeam c id fun _ => t1).team? x i = some (if x = c ∧ i = id then t1 else y) := by
  by_cases hx : x = c
  · subst hx
    have hc := core_lt_of_team? ht
    have hcore : (s.updTeam x id fun _ => t1).core x = (s.core x).updTeam id fun _ => t1 := core_updCore hc _
    by_cases hi : i = id
    · subst hi
      rw [if_pos ⟨rfl, rfl⟩]
      exact updTeam_team? ht fun _ _ => hid
    · rw [if_neg (fun h => hi h.2), State.team?, hcore, ← hy, State.team?, Core.team?, Core.team?, Core.updTeam]
      induction (s.core x).teams with
      | nil => rfl
      | cons u r ih =>
        by_cases hu : u.id = id
        · simp [hu, hid, Ne.symm hi, ih]
        · by_cases hui : u.id = i
          · simp [hui, hi]
          · simp [hu, hui, ih]
  · rw [if_neg (fun h => hx h.1), State.team?, ← hy, State.team?]
    congr 1
    simp only [State.updTeam, State.core, State.updCore, List.getD_eq_getElem?_getD, updAt_getElem?_ne _ _ hx]

theorem updNamed_team? (s : State) (c ctx vtid : Nat) {f : Team → Team} (hf : ∀ t, (f t).id = t.id) (x i : Nat) :
    (s.updNamed c ctx vtid f).team? x i = (s.team? x i).map fun y => if x = c ∧ y.isNamed ctx vtid = true then f y else y := by
  by_cases hx : x = c
  · subst hx
    have hteams : ((s.updNamed x ctx vtid f).core x).teams = (s.core x).teams.map fun t => if t.isNamed ctx vtid then f t else t := by
      simp only [State.core, State.updNamed, State.updCore, List.getD_eq_getElem?_getD, updAt_getElem?_self]
      cases s.cores[x]? <;> rfl
    simp only [State.team?, Core.team?, hteams, List.find?_map, true_and]
    congr 2
    funext t
    dsimp only [Function.comp]
    split
    · rw [hf]
    · rfl
  · have hcore : (s.updNamed c ctx vtid f).core x = s.core x := by
      simp only [State.core, State.updNamed, State.updCore, List.getD_eq_getElem?_getD, updAt_getElem?_ne _ _ hx]
    simp [State.team?, hcore, hx]

/-! ## The state after a kick (R191, R239) -/

theorem engine_updEngine_other (s : State) {c ec x n : Nat} (h : x ≠ c ∨ n ≠ ec) (f : Engine → Engine) :
    ((s.updEngine c ec f).core x).engine n = (s.core x).engine n := by
  by_cases hx : x = c
  · subst hx
    have hn : n ≠ ec := h.resolve_left fun hne => hne rfl
    refine updCore_keeps (fun k => k.engine n) s x x fun k => ?_
    simp only [Core.engine, List.getD_eq_getElem?_getD, updAt_getElem?_ne _ _ hn]
  · simp only [State.core, State.updEngine, State.updCore, List.getD_eq_getElem?_getD, updAt_getElem?_ne _ _ hx]

/-- Team t1 has replaced the one of an id, and the lines of the named destination have become pending. -/
def State.withPending (s : State) (c id : Nat) (t1 : Team) (dest : Nat × Nat) (lines : List Nat) : State :=
  (s.updTeam c id fun _ => t1).updNamed dest.1 t1.ctx dest.2 (Team.pend lines)
/-- What a kick leaves: op stands in the queue too. -/
def State.kicked (s : State) (c id ec : Nat) (t1 : Team) (dest : Nat × Nat) (lines : List Nat) (op : CopyOp) : State :=
  { (s.withPending c id t1 dest lines).updEngine c ec fun x => { x with queue := x.queue ++ [op] } with nextOp := s.nextOp + 1 }

/-- A core without its teams and its engine contexts. -/
def Core.sansWork (k : Core) : Core := { k with teams := [], engines := [] }

theorem eq_of_sansWork {k k' : Core} (h : k'.sansWork = k.sansWork) : k' = { k with teams := k'.teams, engines := k'.engines } :=
  calc k' = { k'.sansWork with teams := k'.teams, engines := k'.engines } := rfl
    _ = { k.sansWork with teams := k'.teams, engines := k'.engines } := by rw [h]

section
variable {s : State} {c id ec : Nat} {t1 : Team} {dest : Nat × Nat} {lines : List Nat} {op : CopyOp}

theorem kicked_core (x : Nat) : (s.kicked c id ec t1 dest lines op).core x = { s.core x with
    teams := ((s.kicked c id ec t1 dest lines op).core x).teams, engines := ((s.kicked c id ec t1 dest lines op).core x).engines } := by
  refine eq_of_sansWork ?_
  calc ((s.kicked c id ec t1 dest lines op).core x).sansWork
      = ((s.withPending c id t1 dest lines).core x).sansWork := updCore_keeps Core.sansWork _ c x fun _ => rfl
    _ = ((s.updTeam c id fun _ => t1).core x).sansWork := updCore_keeps Core.sansWork _ dest.1 x fun _ => rfl
    _ = (s.core x).sansWork := updCore_keeps Core.sansWork s c x fun _ => rfl

theorem engines_withPending (x : Nat) : ((s.withPending c id t1 dest lines).core x).engines = (s.core x).engines :=
  (engines_updNamed ..).trans (updCore_keeps Core.engines s c x fun _ => rfl)

theorem kicked_engine_other {x n : Nat} (h : x ≠ c ∨ n ≠ ec) :
    ((s.kicked c id ec t1 dest lines op).core x).engine n = (s.core x).engine n := by
  have hengines := engines_withPending (s := s) (c := c) (id := id) (t1 := t1) (dest := dest) (lines := lines) x
  rw [Core.engine, Core.engine, ← hengines]
  exact engine_updEngine_other (s.withPending c id t1 dest lines) h _

variable {tm : Team} (ht : s.team? c id = some tm)
include ht

theorem kicked_engine (hec : ec < (s.core c).engines.length) : ((s.kicked c id ec t1 dest lines op).core c).engine ec =
    { (s.core c).engine ec with queue := ((s.core c).engine ec).queue ++ [op] } := by
  have hengines := engines_withPending (s := s) (c := c) (id := id) (t1 := t1) (dest := dest) (lines := lines) c
  have hc : c < (s.withPending c id t1 dest lines).cores.length := by
    simpa [State.withPending, State.updNamed, State.updTeam, State.updCore] using core_lt_of_team? ht
  refine (engineAt_updEngine hc (by rwa [hengines]) _).trans ?_
  rw [engineAt_congr hengines]
  rfl

variable (hevent : LinesPend tm t1 []) (hlines : lines.Nodup)
include hevent hlines

/-- What a kick leaves of a team: its lines, but for those that pend now. -/
theorem kicked_team {x i : Nat} {y : Team} (hy : s.team? x i = some y) : ∃ y', (s.kicked c id ec t1 dest lines op).team? x i = some y' ∧
    LinesPend y y' (if x = dest.1 ∧ y.isNamed tm.ctx dest.2 = true then lines else []) := by
  have hid : t1.id = id := hevent.id.trans (team?_id ht)
  have hctx : t1.ctx = tm.ctx := by rw [hevent.1]
  have hteam : (s.kicked c id ec t1 dest lines op).team? x i =
      some (if x = dest.1 ∧ (if x = c ∧ i = id then t1 else y).isNamed t1.ctx dest.2 = true then
        (if x = c ∧ i = id then t1 else y).pend lines else if x = c ∧ i = id then t1 else y) := by
    refine (updCore_team? (s.withPending c id t1 dest lines) c x i
      (f := fun k => { k with engines := updAt k.engines ec fun x => { x with queue := x.queue ++ [op] } }) fun _ => rfl).trans ?_
    rw [State.withPending, updNamed_team? _ _ _ _ fun t => (linesPend_pend hlines t).id, updTeam_const_team? ht hid hy, Option.map_some]
  have hfirst : LinesPend y (if x = c ∧ i = id then t1 else y) [] := by
    split
    · next h =>
      obtain ⟨rfl, rfl⟩ := h
      cases ht.symm.trans hy
      exact hevent
    · exact LinesPend.refl y
  refine ⟨_, hteam, ?_⟩
  generalize (if x = c ∧ i = id then t1 else y) = y1 at hfirst ⊢
  rw [hfirst.isNamed, hctx]
  split
  · exact hfirst.append (linesPend_pend hlines y1) (List.disjoint_nil_left _)
  · exact hfirst

omit ht in
theorem kicked_image {n : Nat} {x : Image} (hx : s.images[n]? = some x) : ∃ x' : Image,
    (s.kicked c id ec t1 dest lines op).images[n]? = some x' ∧ x' = { x with teams := x'.teams } ∧ x'.teams.length = x.teams.length ∧
      ∀ (i : Nat) (y : Team), x.teams[i]? = some y → ∃ y', x'.teams[i]? = some y' ∧
        LinesPend y y' (if x.core = dest.1 ∧ y.isNamed tm.ctx dest.2 = true then lines else []) := by
  have hctx : t1.ctx = tm.ctx := by rw [hevent.1]
  have himage : (s.kicked c id ec t1 dest lines op).images[n]? = some (if x.core = dest.1 then
      { x with teams := x.teams.map fun t => if t.isNamed tm.ctx dest.2 then t.pend lines else t } else x) := by
    rw [← hctx]
    exact (List.getElem?_map ..).trans (by rw [show (s.updTeam c id fun _ => t1).images = s.images from rfl, hx]; rfl)
  refine ⟨_, himage, ?_⟩
  by_cases hcore : x.core = dest.1
  · rw [if_pos hcore]
    refine ⟨rfl, List.length_map .., fun i y hy => ⟨_, by rw [List.getElem?_map, hy, Option.map_some], ?_⟩⟩
    by_cases hname : y.isNamed tm.ctx dest.2 = true
    · rw [if_pos hname, if_pos ⟨hcore, hname⟩]
      exact linesPend_pend hlines y
    · rw [if_neg hname, if_neg fun h => hname h.2]
      exact LinesPend.refl y
  · rw [if_neg hcore]
    refine ⟨rfl, rfl, fun i y hy => ⟨y, hy, ?_⟩⟩
    rw [if_neg fun h => hcore h.1]
    exact LinesPend.refl y

end

/-! ## CPYK (R191) -/

/-- The operation that a thread's kick makes of the record of its team tm, at time k. -/
def Env.opOf (e : Env) (a : Src) (s : State) (tm : Team) (k : Nat) : CopyOp :=
  let off := recordOff e.t e.g e.l a
  let record := tm.scratchRead off 128
  let v := cview record
  { id := s.nextOp, record := record, team := e.b.team, vtid := tm.vtid, group := e.g, lane := e.l, slot := e.gr.slot, desc := tm.desc
    ctx := tm.ctx, teamIndex := tm.index, grid := tm.grid, sup := tm.sup, recoff := off, peer := (s.copyPeer tm v).map fun p => (p.1, p.2.vtid)
    pos := 0, srcPos := 0, delivered := 0, counted := 0, ended := false, cancelled := false
    lines := if v.dsp then spanLines (sideBase true v.dst) v.dfoot else [], saved := [], vals := [], fab := none, fetched := []
    acked := [], adding := none, clock := k }

theorem opOf_lines_nodup (e : Env) (a : Src) (s : State) (tm : Team) (k : Nat) : (e.opOf a s tm k).lines.Nodup := by
  unfold Env.opOf
  dsimp only
  split
  · exact spanLines_nodup ..
  · exact List.nodup_nil

theorem kick_eq {e : Env} {a : Src} {s : State} {tm : Team} (ht : s.team? e.b.core e.b.team = some tm) (ec : Nat) : ∃ t1 k,
    LinesPend tm t1 [] ∧ e.th.clock ≤ k ∧ e.kick ec a s = (s.kicked e.b.core e.b.team ec t1
      ((e.opOf a s tm k).peer.getD (e.b.core, tm.vtid)) (e.opOf a s tm k).lines (e.opOf a s tm k), k) := by
  have hpend := linesPend_scratchEvent tm (recordOff e.t e.g e.l a) 128 e.th.clock false
  refine ⟨_, _, hpend, le_scratchEvent tm (recordOff e.t e.g e.l a) 128 e.th.clock false, ?_⟩
  have hctx : (tm.scratchEvent (recordOff e.t e.g e.l a) 128 e.th.clock false).2.ctx = tm.ctx := by rw [hpend.1]
  simp only [Env.kick, ht, State.kicked, State.withPending, hctx]
  rfl

/-- A team's record that no fault, no line and no loss holds back is judged well formed, or has no room. -/
theorem chkCopy_ok {e : Env} {t : Bool} {ec : Nat} {a : Src} (halign : recordOff e.t e.g e.l a % 128 = 0)
    (hrange : recordOff e.t e.g e.l a + 128 ≤ e.t.bytes) (hline : (e.t.line (recordOff e.t e.g e.l a / 128)).present = true)
    (hlost : e.t.lostIn (recordOff e.t e.g e.l a) 128 = false) (hrecord : e.recordCauses (e.t.scratchRead (recordOff e.t e.g e.l a) 128) = none)
    (hroom : t = true ∨ e.crew.length + ((e.s.core e.b.core).engine ec).queue.length ≤ 16) : e.chkCopy t ec a = .ok := by
  have hoff : offFault e.t (recordOff e.t e.g e.l a) = none := by
    rw [offFault, if_neg (by simpa using halign), if_neg (Nat.not_lt.mpr hrange)]
  have hfree : (!t && decide (((e.s.core e.b.core).engine ec).free < e.crew.length)) = false := by
    obtain rfl | hroom := hroom
    · rfl
    · have : ¬ ((e.s.core e.b.core).engine ec).free < e.crew.length := by
        simp only [Engine.free, Config.engineQueue]
        omega
      simp [this]
  simp only [Env.chkCopy, hoff, hline, hlost, hrecord, hfree, Bool.not_true, Bool.false_eq_true, if_false]
  split
  · rfl
  · split <;> rfl

theorem free_eq_zero_iff (x : Engine) : x.free = 0 ↔ 16 ≤ x.queue.length := by
  simp only [Engine.free, Config.engineQueue]
  omega

/-- Settles O25: a kick is `State.kicked` with the operation of its record, and of a team it changes the lines only (`kicked_team`). -/
theorem copyKicks : Obligations.CopyKicks := by
  unfold Obligations.CopyKicks
  intro h t d ec a
  refine acts_of_run (fun _ => rfl) rfl rfl rfl rfl rfl ?_ (fun _ _ => rfl) ?_
  · rintro e ⟨halign, hrange, hline, hlost, hrecord, hroom⟩
    exact ⟨rfl, chkCopy_ok halign hrange hline hlost hrecord hroom⟩
  · rintro e s tm - ht -
    by_cases hfull : 16 ≤ ((s.core e.b.core).engine ec.toNat).queue.length
    · simp only [(free_eq_zero_iff _).mpr hfull, hfull, if_true, writeP]
      exact ⟨⟨trivial, trivial⟩, trivial, trivial, trivial, tm, ht, rfl⟩
    · obtain ⟨t1, k, hevent, hclock, hkick⟩ := kick_eq (a := a) ht ec.toNat
      have hlines := opOf_lines_nodup e a s tm k
      simp only [mt (free_eq_zero_iff _).mp hfull, hfull, if_false, hkick, writeP]
      obtain ⟨tm', ht', hpend⟩ := kicked_team (ec := ec.toNat) (op := e.opOf a s tm k)
        (dest := (e.opOf a s tm k).peer.getD (e.b.core, tm.vtid)) ht hevent hlines ht
      refine ⟨fun tm0 ht0 hec => ?_, trivial, trivial, rfl, tm', ht', hpend.halt⟩
      cases ht.symm.trans ht0
      exact ⟨trivial, hclock, rfl, kicked_engine ht hec, fun x n => kicked_engine_other, kicked_core,
        fun x i y hy => kicked_team ht hevent hlines hy, List.length_map .., fun n x hx => kicked_image hevent hlines hx⟩

end Sys2Proof.Machine

/-! PROOF. Waiting and records (O42): the frame of a trap record fails where memory's map is not in its canonical form. -/

namespace Sys2Proof.Machine

/-! ## The first entry of memory's map under a record (R308 to R310) -/

theorem physRead8_mem (s : State) (pa clock : Nat) : (s.physRead8 pa clock).2.2.mem = s.mem := by
  have hbytes : (s.physBytes pa 8).2.mem = s.mem := by
    unfold State.physBytes
    split <;> rfl
  unfold State.physRead8
  split
  · rfl
  · dsimp only
    split
    · exact ((readEvent_mem ..).1.trans (claim_mem ..).1).trans hbytes
    · exact hbytes

theorem updCtx_mem (s : State) (i : Nat) (f : Ctx → Ctx) : (s.updCtx i f).mem = s.mem := rfl
theorem wakeCtx_mem (s : State) (ctx : Nat) : (s.wakeCtx ctx).mem = s.mem := rfl

section
variable {s : State} {e : Nat × Byte} (hs : s.mem.head? = some e)
include hs

theorem physWrite_head {pa : Nat} (he : e.1 < pa) (d : List Byte) (clock : Nat) : (s.physWrite pa d clock).2.mem.head? = some e := by
  by_cases hn : memPart pa d.length = 0
  · simpa only [State.physWrite, if_pos hn] using hs
  · rw [(physWrite_mem s pa d clock hn).1]
    exact amSetList_head 0 hs he _

theorem publish_head {i : Nat} (hbase : e.1 < (s.ctxAt i).tqbase) (hprod : e.1 < (s.ctxAt i).tqprod) (bytes : List Byte) (clock : Nat) :
    (s.publish i bytes clock).mem.head? = some e := by
  have hread : (((s.physRead8 (s.ctxAt i).tqprod clock).2.2.physRead8 (s.ctxAt i).tqcons
      (s.physRead8 (s.ctxAt i).tqprod clock).2.1).2.2).mem.head? = some e := by rw [physRead8_mem, physRead8_mem, hs]
  simp only [State.publish, wakeCtx_mem, updCtx_mem, (pushWord_mem _ _).1]
  exact physWrite_head (physWrite_head hread (Nat.lt_of_lt_of_le hbase (Nat.le_add_right _ _)) _ _) hprod _ _

end

theorem length_flatten_of_length {α : Type} {n : Nat} {l : List (List α)} (h : ∀ x ∈ l, x.length = n) : l.flatten.length = l.length * n := by
  rw [List.length_flatten, List.sum_eq_card_nsmul _ n (List.forall_mem_map.mpr h), List.length_map, smul_eq_mul]

theorem haltBlock_length (t : Team) (h : Halt) : (haltBlock t h).length = 16384 := by
  unfold haltBlock
  rw [length_flatten_of_length (n := 512), List.length_map, List.length_range]
  refine List.forall_mem_map.mpr fun g _ => ?_
  rw [length_flatten_of_length (n := 8), List.length_map, List.length_range]
  refine List.forall_mem_map.mpr fun l _ => ?_
  split
  · exact natBytes_length ..
  · rfl

theorem updCtx_keeps {α : Type} (g : Ctx → α) (s : State) (i j : Nat) {f : Ctx → Ctx} (hf : ∀ x, g (f x) = g x) :
    g ((s.updCtx i f).ctxAt j) = g (s.ctxAt j) := by
  simp only [State.ctxAt, State.updCtx, List.getD_eq_getElem?_getD, updAt_getElem?]
  split
  · cases s.ctxs[j]? with
    | none => rfl
    | some x => exact hf x
  · rfl

theorem physWrite_ctxAt (s : State) (pa : Nat) (d : List Byte) (clock i : Nat) : (s.physWrite pa d clock).2.ctxAt i = s.ctxAt i := by
  have hctxs : (s.physWrite pa d clock).2.ctxs = s.ctxs := (congrArg State.ctxs (sameMachine_physWrite s pa d clock) :)
  simp only [State.ctxAt, hctxs]

/-- The entry that the halt block leaves the first of memory's map is the first still when the record and the counter are written. -/
theorem teamPublish_head {s : State} {i c idx : Nat} {t : Team} {e : Nat × Byte} (hblock : ∀ f d clock, d.length = 16384 →
      ((s.updNamed c t.ctx t.vtid f).physWrite ((s.ctxAt i).hbase + idx * 16384) d clock).2.mem.head? = some e)
    (hbase : e.1 < (s.ctxAt i).tqbase) (hprod : e.1 < (s.ctxAt i).tqprod) (h : Halt) : (s.teamPublish i c t h idx).mem.head? = some e := by
  unfold State.teamPublish
  dsimp only
  refine publish_head ?_ ?_ ?_ _ _
  · rw [updCtx_mem]
    exact hblock _ _ _ (haltBlock_length ..)
  · rw [updCtx_keeps Ctx.tqbase, physWrite_ctxAt]
    · exact hbase
    · exact fun _ => rfl
  · rw [updCtx_keeps Ctx.tqprod, physWrite_ctxAt]
    · exact hprod
    · exact fun _ => rfl

/-- What the record of a halted team comes to when nothing holds it back. -/
theorem exec_trapRecordWrite {s : State} {i c v idx : Nat} {t : Team} {h : Halt} {rest : List PendRec}
    (hopen : (!s.works || !(s.ctxAt i).valid || s.roundHolds .device (s.ctxAt i).tqcons (memPart (s.ctxAt i).tqcons 8)) = false)
    (hpending : (s.ctxAt i).pending = .team c v :: rest) (hfind : s.findTeam c (s.ctxAt i).id v = some t) (hhalt : t.halt = some h)
    (hentry : (s.ctxAt i).freeEntry = some idx) (hready : (s.recordReady c t && s.queueRoom (s.ctxAt i)) = true)
    (hareas : s.awaitAreas (((s.ctxAt i).hbase + idx * 16384, 16384) :: s.recordArea (s.ctxAt i)) = none) :
    exec (.trapRecordWrite i) s =
      .next ((s.teamPublish i c t h idx).endAreas (((s.ctxAt i).hbase + idx * 16384, 16384) :: s.recordArea (s.ctxAt i))) := by
  have hexec : exec (.trapRecordWrite i) s = execTrapRecordWrite i s := rfl
  simp only [hexec, execTrapRecordWrite, hopen, hpending, hfind, hhalt, hentry, hready, State.intoAreas, hareas, Bool.false_eq_true, if_false,
    if_true]

theorem endAreas_mem (s : State) (areas : List (Nat × Nat)) : (s.endAreas areas).mem = s.mem :=
  (foldl_mem (fun s (a : Nat × Nat) => s.endRounds .device a.1 a.2) (fun s a => endRounds_mem s .device a.1 a.2) areas s).1

/-! ## The counterexample -/

def bareHalt : Halt :=
  { cause := 0, addr := 0, extra := 0, cf := 0, who := none, pc := 0, skids := [], stops := [], mx := none, entry := none
    recorded := false }
def haltedTeam : Team := { idleTeam with halt := some bareHalt }

/-- A halted team whose record can be written: the halt block at 0x50000, the record at 0x30000, the counters at 0x40000. The keys of
memory's map fall: the byte at 0, whose entry stands behind that of 0x50000, reads as 0. -/
def unsortedRecord : State :=
  { State.reset with
    cycle := 1
    cores := [{ Core.reset with teams := [haltedTeam] }]
    ctxs := [{ Ctx.reset with valid := true, pending := [.team 0 0], tqbase := 0x30000, tqsize := 4, tqprod := 0x40000, tqcons := 0x40008
                              hbase := 0x50000, hcount := 1 }]
    mem := [(0x50000, 1), (0, 1)] }

/-- The halt block brings the entry of byte 0 to the front. -/
theorem haltBlock_uncovers {s : State} (hmem : s.mem = [(0x50000, 1), (0, 1)]) {d : List Byte} (hn : memPart 0x50000 d.length ≠ 0)
    (clock : Nat) : (s.physWrite 0x50000 d clock).2.mem.head? = some (0, 1) := by
  rw [(physWrite_mem s _ d clock hn).1, hmem]
  simp [amSetList]

theorem unsortedRecord_head : (unsortedRecord.teamPublish 0 0 haltedTeam bareHalt 0).mem.head? = some (0, 1) := by
  refine teamPublish_head (fun f d clock hlength => ?_) (by decide +kernel) (by decide +kernel) _
  rw [show (unsortedRecord.ctxAt 0).hbase + 0 * 16384 = 0x50000 by decide +kernel]
  refine haltBlock_uncovers rfl ?_ clock
  rw [hlength]
  decide +kernel

/-- What the record of the halted team needs before it is written. -/
theorem unsortedRecord_ready : unsortedRecord.works = true ∧ (unsortedRecord.ctxAt 0).valid = true ∧
    unsortedRecord.findTeam 0 (unsortedRecord.ctxAt 0).id 0 = some haltedTeam ∧ (unsortedRecord.ctxAt 0).freeEntry = some 0 ∧
    unsortedRecord.recordReady 0 haltedTeam = true ∧ unsortedRecord.queueRoom (unsortedRecord.ctxAt 0) = true ∧
    unsortedRecord.roundHolds .device 0x40008 8 = false ∧ unsortedRecord.awaitAreas [(0x50000, 16384), (0x30000, 64), (0x40000, 8)] = none := by
  decide +kernel
theorem unsortedRecord_areas : memPart 0x50000 16384 = 16384 ∧ memPart 0x30000 64 = 64 ∧ memPart 0x40000 8 = 8 ∧ memPart 0x40008 8 = 8 ∧
    unsortedRecord.lostIn 0x40000 8 = none ∧ unsortedRecord.lostIn 0x40008 8 = none ∧
    unsortedRecord.read8 0x40000 < unsortedRecord.read8 0x40008 + 2 ^ 4 := by decide +kernel
theorem unsortedRecord_layout : (unsortedRecord.ctxAt 0).hbase + 0 * 16384 = 0x50000 ∧
    (unsortedRecord.ctxAt 0).tqprod = 0x40000 ∧ (unsortedRecord.ctxAt 0).tqcons = 0x40008 ∧ (unsortedRecord.ctxAt 0).tqsize = 4 ∧
    unsortedRecord.recordArea (unsortedRecord.ctxAt 0) = [(0x30000, 64), (0x40000, 8)] := by decide +kernel

/-- Refutes O42: a trap record's frame is stated without the canonical form of memory's map (`Memory.wf`) that the frames of other words
assume. In `unsortedRecord` byte 0, outside the three areas, reads as 0 because the entry of a higher address stands before its own; the
halt block removes that entry, and byte 0 reads as 1. -/
theorem not_waitingAndRecords : ¬ Obligations.WaitingAndRecords := by
  unfold Obligations.WaitingAndRecords
  rintro ⟨-, hrecord, -⟩
  obtain ⟨hworks, hvalid, hfind, hentry, hready, hroom, hround, hareas⟩ := unsortedRecord_ready
  obtain ⟨hblock, hslot, hprod, hcons, hlostProd, hlostCons, hfits⟩ := unsortedRecord_areas
  obtain ⟨hblk, hprodAt, hconsAt, hsize, hareasAt⟩ := unsortedRecord_layout
  have hclause := hrecord unsortedRecord 0 0 0 0 haltedTeam bareHalt []
  simp only [hblk, hprodAt, hconsAt, hsize] at hclause
  obtain ⟨s', hexec, -, -, -, -, -, -, -, -, -, -, -, -, hframe⟩ := hclause hworks (by decide) hvalid rfl hfind rfl hentry hready hfits
    hblock hslot hprod hcons hlostProd hlostCons hround hareas (by decide) (by decide) (by decide)
  have hwrites := exec_trapRecordWrite (s := unsortedRecord) (i := 0) (c := 0) (v := 0) (idx := 0) (t := haltedTeam) (h := bareHalt)
    (rest := []) (by rw [hworks, hvalid, hconsAt, hcons, hround]; rfl) rfl hfind rfl hentry (by rw [hready, hroom]; rfl)
    (by rw [hblk, hareasAt]; exact hareas)
  have hbyte : s'.readByte 0 = 1 := by
    obtain ⟨r, hr⟩ := List.head?_eq_some_iff.mp unsortedRecord_head
    rw [Host.Outcome.next.inj (hexec.symm.trans hwrites), State.readByte, endAreas_mem, hr]
    rfl
  have hkept := hframe 0 (by decide) (by decide) (by decide)
  rw [hbyte] at hkept
  exact absurd hkept (by decide)

end Sys2Proof.Machine
